-- ==== Sys2Proof/Word.lean ====
section
/-! DEFINITION. The word types of the machine and their plainest arithmetic (R2, R5, R77). -/

namespace Sys2Proof

/-- A byte of memory. -/
abbrev Byte := BitVec 8
/-- A block tag (R90). -/
abbrev Tag := BitVec 16
/-- A register, and an instruction word. -/
abbrev Word := BitVec 32
/-- An address, a 64-bit register pair. -/
abbrev DWord := BitVec 64

/-- Bits `[hi:lo]` of `x` as a number (R5). -/
def bits (x hi lo : Nat) : Nat := x / 2 ^ lo % 2 ^ (hi + 1 - lo)

/-- Bit `i` of `x`. -/
def bitAt (x i : Nat) : Bool := x / 2 ^ i % 2 == 1

/-- The low and high words of a pair (R77). -/
def loWord (x : DWord) : Word := x.setWidth 32
def hiWord (x : DWord) : Word := (x >>> 32).setWidth 32
/-- A pair as one 64-bit value: low word in register n, high word in n+1 (R77). -/
def ofPair (lo hi : Word) : DWord := hi ++ lo

end Sys2Proof
end

