-- ==== Sys2Proof/Config.lean ====
section
/-! DEFINITION. What an implementation fixes and the spec leaves open. Every value here is opaque: it has no body, nothing can
evaluate it, and a claim about the machine holds for every value of it (log entries 4, 18, 19). -/

namespace Sys2Proof.Config

/-- The `n`-th free value the machine draws: every "may", "unspecified" and "not specified" of the spec that leaves a value
open reads this sequence at `State.draws` (log entry 4). -/
opaque freeNat : Nat → Nat

/-- What a scratchpad word holds for a task that may not rely on it (R29): by the task's run, the core and the word (log entry 4). -/
opaque strayWord : Nat → Nat → Nat → Nat

/-- The device identity key of the trust root, made at manufacture (R376; log entry 18). -/
opaque deviceKey : Nat

/-- Whether a firmware image of flash carries a good signature under the identity key block of the fuses (R364; log entry 18). -/
opaque firmwareSigned : List (BitVec 8) → Bool

/-- Whether a signature of a digest verifies under the key of another device, which its DEVID names (R379; log entry 18). -/
opaque peerSigned : List (BitVec 8) → List (BitVec 8) → List (BitVec 8) → Bool

end Sys2Proof.Config
end

