-- ==== Sys2Proof/Machine/Maps.lean ====
section
/-! DEFINITION. Sparse maps as lists of key and value pairs with strictly rising keys and no entry that equals the map's default
value, so that equal maps are equal lists. -/

namespace Sys2Proof.Machine

/-- A sparse map. -/
abbrev Map (α : Type) := List (Nat × α)

/-- The entry at key `k`. -/
def mget? {α : Type} : Map α → Nat → Option α
  | [], _ => none
  | (j, v) :: m, k => if k < j then none else if k = j then some v else mget? m k

/-- The value at `k`; `z` where nothing is listed. -/
def mget {α : Type} (z : α) (m : Map α) (k : Nat) : α := (mget? m k).getD z

/-- Removes the entry at `k`. -/
def mdel {α : Type} : Map α → Nat → Map α
  | [], _ => []
  | (j, v) :: m, k => if k < j then (j, v) :: m else if k = j then m else (j, v) :: mdel m k

/-- Sets the entry at `k`, whatever its value. -/
def mset {α : Type} : Map α → Nat → α → Map α
  | [], k, x => [(k, x)]
  | (j, v) :: m, k, x =>
    if k < j then (k, x) :: (j, v) :: m else if k = j then (k, x) :: m else (j, v) :: mset m k x

/-- Writes `x` at `k` of a map whose unlisted keys read `z`: the default removes the entry. -/
def mput {α : Type} [DecidableEq α] (z : α) (m : Map α) (k : Nat) (x : α) : Map α :=
  if x = z then mdel m k else mset m k x

/-- Changes the entry at `k`. -/
def mupd {α : Type} [DecidableEq α] (z : α) (m : Map α) (k : Nat) (f : α → α) : Map α := mput z m k (f (mget z m k))

/-- Changes every entry, with its key. -/
def mmap {α : Type} (f : Nat → α → α) (m : Map α) : Map α := m.map fun p => (p.1, f p.1 p.2)

/-- Folds over the entries. -/
def mfold {α σ : Type} (f : σ → Nat → α → σ) (z : σ) (m : Map α) : σ := m.foldl (fun s p => f s p.1 p.2) z

/-- Whether an entry satisfies `p`. -/
def many {α : Type} (p : Nat → α → Bool) (m : Map α) : Bool := m.any fun e => p e.1 e.2

/-- Keys strictly rise. -/
def mrising {α : Type} : Map α → Bool
  | [] => true
  | [_] => true
  | (j, _) :: (k, v) :: m => decide (j < k) && mrising ((k, v) :: m)

/-- The canonical form: keys rise and no entry equals the default. -/
def mwf {α : Type} [DecidableEq α] (z : α) (m : Map α) : Bool := mrising m && m.all fun p => decide (p.2 ≠ z)

/-- Lists `0 … n-1` (structural, so that the kernel evaluates it). -/
def upto : Nat → List Nat
  | 0 => []
  | n + 1 => upto n ++ [n]

/-- Reads `n` consecutive entries from `k`. -/
def mrange {α : Type} (z : α) (m : Map α) (k n : Nat) : List α := (upto n).map fun i => mget z m (k + i)

/-- Writes consecutive entries from `k`. -/
def mputs {α : Type} [DecidableEq α] (z : α) : Map α → Nat → List α → Map α
  | m, _, [] => m
  | m, k, x :: xs => mputs z (mput z m k x) (k + 1) xs

/-- Writes the entries from `k` that `f` gives, whatever their value. -/
def msets {α : Type} : Map α → Nat → List α → Map α
  | m, _, [] => m
  | m, k, x :: xs => msets (mset m k x) (k + 1) xs

/-- The element at an index of a list. -/
def nth {α : Type} (z : α) : List α → Nat → α
  | [], _ => z
  | x :: _, 0 => x
  | _ :: xs, n + 1 => nth z xs n

/-- Replaces the element at an index. -/
def setNth {α : Type} : List α → Nat → α → List α
  | [], _, _ => []
  | _ :: xs, 0, y => y :: xs
  | x :: xs, n + 1, y => x :: setNth xs n y

/-- Changes the first element that satisfies `p`. -/
def updFirst {α : Type} (p : α → Bool) (f : α → α) : List α → List α
  | [] => []
  | x :: xs => if p x then f x :: xs else x :: updFirst p f xs

/-- Numbers from little-endian bytes and back (R2). -/
def leNat : List Byte → Nat
  | [] => 0
  | b :: bs => b.toNat + 256 * leNat bs
def natLe : Nat → Nat → List Byte
  | 0, _ => []
  | n + 1, x => BitVec.ofNat 8 x :: natLe n (x / 256)

/-- Numbers from big-endian bytes and back. -/
def beNat (bs : List Byte) : Nat := bs.foldl (fun a b => a * 256 + b.toNat) 0
def natBe (n x : Nat) : List Byte := (natLe n x).reverse

/-- The least element of a list above a start value. -/
def minNat (z : Nat) (xs : List Nat) : Nat := xs.foldl Nat.min z
def maxNat (xs : List Nat) : Nat := xs.foldl Nat.max 0
def sumNat (xs : List Nat) : Nat := xs.foldl (· + ·) 0

/-- A number set as a sorted list. -/
def insertNat : List Nat → Nat → List Nat
  | [], k => [k]
  | j :: m, k => if k < j then k :: j :: m else if k = j then j :: m else j :: insertNat m k

end Sys2Proof.Machine
end

