-- ==== Sys2Proof/Machine/Float.lean ====
section
/-! DEFINITION. Numbers: exact dyadic values with special values, every data format (R79, R82, Table 4.6), the one rounding
function `roundTo` (R84, R85), the conversions to integers (R87), the SR draw (R86), the deep accumulator (R95, R96), the
quantiser rule (R99) and the special-function tables (R147, R148). -/

namespace Sys2Proof.Machine

/-- A value: NaN (signalling or not), an infinity, or `(-1)^neg × m × 2^e` exactly. -/
inductive Fp where
  | nan (sig : Bool)
  | inf (neg : Bool)
  | fin (neg : Bool) (m : Nat) (e : Int)
  deriving DecidableEq, Repr

/-- The flags of Table 4.5, bit positions [6:0]. -/
def fNX : Nat := 1
def fUF : Nat := 2
def fOF : Nat := 4
def fDZ : Nat := 8
def fNV : Nat := 16
def fSAT : Nat := 32
def fPSN : Nat := 64

/-- Rounding modes (Table 4.3). -/
inductive RM where
  | rne | rz | ru | rd | sr
  deriving DecidableEq, Repr

/-- The mode of a code of Table 4.3; 0b111 is `fpc.RM`. -/
def rmOf (fpcRm code : Nat) : RM :=
  match (if code = 7 then fpcRm else code) with
  | 1 => .rz
  | 2 => .ru
  | 3 => .rd
  | 4 => .sr
  | _ => .rne

/-- `x × 2^k` as a natural number, rounded down when `k` is negative. -/
def shl (x : Nat) (k : Int) : Nat := if 0 ≤ k then x * 2 ^ k.toNat else x / 2 ^ (-k).toNat

/-- A destination format of `roundTo`: precision, exponent of the least normal, and the largest finite magnitude
`maxA × 2^maxE`; whether it has infinities, is signed, and is an IEEE format (R84). -/
structure Fmt where
  prec : Nat
  emin : Int
  maxA : Nat
  maxE : Int
  inf  : Bool
  sgn  : Bool
  ieee : Bool
  deriving DecidableEq, Repr

def fmt32 : Fmt := ⟨24, -126, 2 ^ 24 - 1, 104, true, true, true⟩
def fmt16 : Fmt := ⟨11, -14, 2047, 5, true, true, true⟩
def fmtBf : Fmt := ⟨8, -126, 255, 120, true, true, true⟩

/-- Decodes an IEEE-style word of `eb` exponent and `fb` fraction bits (R79). -/
def decIeee (eb fb w : Nat) : Fp :=
  let neg := bitAt w (eb + fb)
  let E := w / 2 ^ fb % 2 ^ eb
  let T := w % 2 ^ fb
  let bias : Int := 2 ^ (eb - 1) - 1
  if E = 2 ^ eb - 1 then (if T = 0 then .inf neg else .nan (!bitAt w (fb - 1)))
  else if E = 0 then .fin neg T (1 - bias - fb)
  else .fin neg (2 ^ fb + T) (E - bias - fb)

/-- Encodes a member of an IEEE-style format; NaN gives the canonical NaN (R80). -/
def encIeee (eb fb : Nat) (x : Fp) : Nat :=
  let sgn (n : Bool) := if n then 2 ^ (eb + fb) else 0
  let bias : Int := 2 ^ (eb - 1) - 1
  match x with
  | .nan _ => (2 ^ eb - 1) * 2 ^ fb + 2 ^ (fb - 1)
  | .inf n => sgn n + (2 ^ eb - 1) * 2 ^ fb
  | .fin n m e =>
    if m = 0 then sgn n
    else
      let k : Int := Nat.log2 m + e
      if k < 1 - bias then sgn n + shl m (e - (1 - bias - fb))
      else sgn n + (k + bias).toNat * 2 ^ fb + (shl m (e - (k - fb)) - 2 ^ fb)

def dec32 (w : Word) : Fp := decIeee 8 23 w.toNat
def dec16 (w : Nat) : Fp := decIeee 5 10 w
def decBf (w : Nat) : Fp := decIeee 8 7 w
def enc32 (x : Fp) : Word := BitVec.ofNat 32 (encIeee 8 23 x)
def enc16 (x : Fp) : Nat := encIeee 5 10 x
def encBf (x : Fp) : Nat := encIeee 8 7 x

/-- A binary8 format (R82). -/
structure B8 where
  p   : Nat
  sgn : Bool
  ext : Bool
  deriving DecidableEq, Repr

/-- `decode_b8` (R82). -/
def decB8 (f : B8) (c : Nat) : Fp :=
  let W := (if f.sgn then 8 else 9) - f.p
  let b : Int := 2 ^ (7 - f.p)
  if f.sgn && c == 0x80 || !f.sgn && c == 0xFF then .nan false
  else if f.ext && f.sgn && c % 128 == 0x7F then .inf (128 ≤ c)
  else if f.ext && !f.sgn && c == 0xFE then .inf false
  else
    let s := f.sgn && bitAt c 7
    let E := c / 2 ^ (f.p - 1) % 2 ^ W
    let T := c % 2 ^ (f.p - 1)
    if E = 0 then .fin s T (1 - b - (f.p - 1 : Nat))
    else .fin s (2 ^ (f.p - 1) + T) (E - b - (f.p - 1 : Nat))

/-- The code of the largest finite magnitude (R82). -/
def b8MaxCode (f : B8) : Nat := (if f.sgn then 0x7F else 0xFE) - (if f.ext then 1 else 0)

def fmtB8 (f : B8) : Fmt :=
  let b : Int := 2 ^ (7 - f.p)
  match decB8 f (b8MaxCode f) with
  | .fin _ m e => ⟨f.p, 1 - b, m, e, f.ext, f.sgn, false⟩
  | _ => ⟨f.p, 1 - b, 1, 0, f.ext, f.sgn, false⟩

/-- Encodes a member of a binary8 format; zero is 0x00 (R82). -/
def encB8 (f : B8) (x : Fp) : Nat :=
  let b : Int := 2 ^ (7 - f.p)
  match x with
  | .nan _ => if f.sgn then 0x80 else 0xFF
  | .inf n => if f.sgn then (if n then 0xFF else 0x7F) else 0xFE
  | .fin n m e =>
    if m = 0 then 0
    else
      let k : Int := Nat.log2 m + e
      let q : Int := f.p - 1
      let body := if k < 1 - b then shl m (e - (1 - b - q))
        else (k + b).toNat * 2 ^ (f.p - 1) + (shl m (e - (k - q)) - 2 ^ (f.p - 1))
      body + (if n then 128 else 0)

/-- Whether the fraction rounds the magnitude up: `num / 2^den` is the fraction above the smaller neighbour, `one` says it is
taken as 1 (R85), `tieUp` says a tie goes to the larger neighbour. -/
def roundsUp (rm : RM) (neg tieUp one : Bool) (num den r : Nat) : Bool :=
  match rm with
  | .rne => one || num * 2 > 2 ^ den || num * 2 == 2 ^ den && tieUp
  | .rz => false
  | .ru => !neg
  | .rd => neg
  | .sr => one || r < num * 65536 / 2 ^ den

/-- The magnitude `m × 2^e` cut at quantum `2^q`: quotient and the fraction as `num / 2^den`. A magnitude far below the
quantum keeps only that it is not zero. -/
def cut (m : Nat) (e q : Int) : Nat × Nat × Nat :=
  if q ≤ e then (m * 2 ^ (e - q).toNat, 0, 0)
  else
    let d := (q - e).toNat
    if Nat.log2 m + 64 < d then (0, 1, 64)
    else (m / 2 ^ d, m % 2 ^ d, d)

/-- `round_to` on a finite nonzero magnitude (R84, R85): the result and its flags. -/
def roundFin (f : Fmt) (rm : RM) (r : Nat) (neg : Bool) (m : Nat) (e : Int) : Fp × Nat :=
  let k : Int := Nat.log2 m + e
  let kmax : Int := Nat.log2 f.maxA + f.maxE
  let past := fun (up big : Bool) =>
    if up then (if f.inf then Fp.inf neg else .fin neg f.maxA f.maxE, fOF + fNX)
    else (.fin neg f.maxA f.maxE, if big then fOF + fNX else fNX)
  if k > kmax + 1 then
    past (roundsUp rm neg true true 1 0 r) true
  else
    let q : Int := max k f.emin - f.prec + 1
    let (a, num, den) := cut m e q
    -- above the largest finite magnitude
    let qm : Int := kmax - f.prec + 1
    let am := shl f.maxA (f.maxE - qm)
    if k = kmax + 1 || k = kmax && (a > am || a = am && num ≠ 0) then
      let (a', num', den') := cut m e qm
      let big := decide (a' > am)
      past (roundsUp rm neg true big num' den' r) big
    else if num = 0 then (.fin neg a q, 0)
    else
      let tieUp := if f.prec = 1 then a ≠ 0 && (k - f.emin + 1) % 2 ≠ 0 else a % 2 = 1
      let up := roundsUp rm neg tieUp false num den r
      let a' := if up then a + 1 else a
      -- tiny: rounded with an unbounded exponent range it stays below the least normal magnitude
      let tiny := if k < f.emin then
          (let (b, nb, db) := cut m e (k - f.prec + 1)
           let odd := if f.prec = 1 then (k - f.emin + 1) % 2 ≠ 0 else b % 2 = 1
           let upb := nb ≠ 0 && roundsUp rm neg odd false nb db r
           !(upb && b + 1 = 2 ^ f.prec && k + 1 = f.emin))
        else false
      (.fin neg a' q, if tiny then fNX + fUF else fNX)

/-- `round_to(x, F, mode, a)`, with `r` the draw of R86 (Table 4.4). -/
def roundTo (f : Fmt) (rm : RM) (r : Nat) (x : Fp) : Fp × Nat :=
  match x with
  | .nan sig => (.nan false, if sig then fNV else 0)
  | .inf neg =>
    if !f.inf then (.nan false, fNV)
    else if neg && !f.sgn then (.nan false, fNV)
    else (.inf neg, 0)
  | .fin neg m e =>
    if m = 0 then (.fin (neg && f.ieee) 0 0, 0)
    else if neg && !f.sgn then (.nan false, fNV)
    else
      match roundFin f rm r neg m e with
      | (.fin n 0 _, fl) => (.fin (n && f.ieee) 0 0, fl)
      | res => res

/-- Multiplies by `2^k` exactly. -/
def Fp.scale (x : Fp) (k : Int) : Fp :=
  match x with
  | .fin n m e => .fin n m (e + k)
  | y => y

def Fp.isNan : Fp → Bool
  | .nan _ => true
  | _ => false
def Fp.isSig : Fp → Bool
  | .nan s => s
  | _ => false
def Fp.isZero : Fp → Bool
  | .fin _ 0 _ => true
  | _ => false
def Fp.neg? : Fp → Bool
  | .nan _ => false
  | .inf n => n
  | .fin n _ _ => n
def Fp.negate : Fp → Fp
  | .nan s => .nan s
  | .inf n => .inf (!n)
  | .fin n m e => .fin (!n) m e
def Fp.abs : Fp → Fp
  | .nan s => .nan s
  | .inf _ => .inf false
  | .fin _ m e => .fin false m e

/-- The signed integer `m × 2^(e - q)` of a finite value whose exponent is at least `q`. -/
def sInt (neg : Bool) (m : Nat) (e q : Int) : Int :=
  let v : Int := (m * 2 ^ (e - q).toNat : Nat)
  if neg then -v else v

/-- Compares two finite values: -1, 0, 1. -/
def cmpFin (n1 : Bool) (m1 : Nat) (e1 : Int) (n2 : Bool) (m2 : Nat) (e2 : Int) : Int :=
  let q := min e1 e2
  let a := sInt n1 m1 e1 q
  let b := sInt n2 m2 e2 q
  if a < b then -1 else if a = b then 0 else 1

/-- Order of two values that are no NaN, −0 and +0 equal. -/
def Fp.cmp (x y : Fp) : Int :=
  match x, y with
  | .inf n, .inf n' => if n = n' then 0 else if n then -1 else 1
  | .inf n, _ => if n then -1 else 1
  | _, .inf n => if n then 1 else -1
  | .fin n m e, .fin n' m' e' => cmpFin n m e n' m' e'
  | _, _ => 0

/-- Order with −0 below +0 (R129). -/
def Fp.ltSigned (x y : Fp) : Bool :=
  let c := x.cmp y
  c < 0 || (c = 0 && x.isZero && y.isZero && x.neg? && !y.neg?)

/-- Exact product with the invalid case 0 × ∞ (R128): the value and whether the operation is invalid. NaN operands are the
caller's. -/
def mulFp (x y : Fp) : Fp × Bool :=
  match x, y with
  | .nan s, .nan s' => (.nan (s || s'), false)
  | .nan s, _ => (.nan s, false)
  | _, .nan s => (.nan s, false)
  | .inf n, .inf n' => (.inf (n != n'), false)
  | .inf n, .fin n' m _ => if m = 0 then (.nan false, true) else (.inf (n != n'), false)
  | .fin n m _, .inf n' => if m = 0 then (.nan false, true) else (.inf (n != n'), false)
  | .fin n m e, .fin n' m' e' => (.fin (n != n') (m * m') (e + e'), false)

/-- Exact sum; ∞ − ∞ is invalid. A zero sum of opposite signs is +0, or −0 when `rd` (R128). -/
def addFp (rd : Bool) (x y : Fp) : Fp × Bool :=
  match x, y with
  | .nan s, .nan s' => (.nan (s || s'), false)
  | .nan s, _ => (.nan s, false)
  | _, .nan s => (.nan s, false)
  | .inf n, .inf n' => if n = n' then (.inf n, false) else (.nan false, true)
  | .inf n, _ => (.inf n, false)
  | _, .inf n => (.inf n, false)
  | .fin n m e, .fin n' m' e' =>
    if m = 0 && m' = 0 then (.fin (if n = n' then n else rd) 0 0, false)
    else if m = 0 then (.fin n' m' e', false)
    else if m' = 0 then (.fin n m e, false)
    else
      let q := min e e'
      let v := sInt n m e q + sInt n' m' e' q
      if v = 0 then (.fin rd 0 0, false) else (.fin (v < 0) v.natAbs q, false)

/-- Quotient of finite nonzero magnitudes with a sticky last bit (the rounding sees exactly where the quotient lies). -/
def divMag (m : Nat) (e : Int) (m' : Nat) (e' : Int) : Nat × Int :=
  let sh := 80 + Nat.log2 m'
  let n := m * 2 ^ sh
  (2 * (n / m') + (if n % m' = 0 then 0 else 1), e - e' - sh - 1)

/-- Integer square root by bits, `r² ≤ x`. -/
def isqrtAux : Nat → Nat → Nat → Nat
  | 0, _, r => r
  | b + 1, x, r => isqrtAux b x (if (r + 2 ^ b) * (r + 2 ^ b) ≤ x then r + 2 ^ b else r)
def isqrt (x : Nat) : Nat := isqrtAux (Nat.log2 x / 2 + 1) x 0

/-- Square root of a magnitude with a sticky last bit. -/
def sqrtMag (m : Nat) (e : Int) : Nat × Int :=
  let (m1, e1) := if e % 2 = 0 then (m, e) else (2 * m, e - 1)
  let n := m1 * 2 ^ 160
  let r := isqrt n
  (2 * r + (if r * r = n then 0 else 1), e1 / 2 - 80 - 1)

/-- Rounds a value to an integer by a mode (R87, R130): the integer and whether it is exact. Magnitudes of 2^80 and more are
integers of the formats used here and are cut to a large integer of the same sign. -/
def roundInt (rm : RM) (r : Nat) (neg : Bool) (m : Nat) (e : Int) : Int × Bool :=
  if m = 0 then (0, true)
  else if (Nat.log2 m : Int) + e > 4096 then (if neg then -(2 ^ 4096) else 2 ^ 4096, true)
  else
    let (a, num, den) := cut m e 0
    let up := num ≠ 0 && roundsUp rm neg (a % 2 = 1) false num den r
    let v : Int := (if up then a + 1 else a : Nat)
    (if neg then -v else v, num = 0)

/-- Limits of an `n`-bit integer. -/
def intLo (n : Nat) (sgn : Bool) : Int := if sgn then -(2 ^ (n - 1)) else 0
def intHi (n : Nat) (sgn : Bool) : Int := if sgn then 2 ^ (n - 1) - 1 else 2 ^ n - 1

/-- `cvt_fi` (R87). A finite value that is clamped sets NX too where its rounding was inexact (log entry 39). -/
def cvtFi (x : Fp) (n : Nat) (sgn : Bool) (rm : RM) (r : Nat) : Int × Nat :=
  match x with
  | .nan _ => (0, fNV)
  | .inf neg => (if neg then intLo n sgn else intHi n sgn, fNV)
  | .fin neg m e =>
    let (v, exact) := roundInt rm r neg m e
    let fl := if exact then 0 else fNX
    if v < intLo n sgn then (intLo n sgn, fl ||| fNV)
    else if v > intHi n sgn then (intHi n sgn, fl ||| fNV)
    else (v, fl)

/-- `sat_ii` (R87). -/
def satIi (v : Int) (n : Nat) (sgn : Bool) : Int × Nat :=
  if v < intLo n sgn then (intLo n sgn, fSAT) else if v > intHi n sgn then (intHi n sgn, fSAT) else (v, 0)

/-- An integer as a value. -/
def Fp.ofInt (v : Int) : Fp := .fin (v < 0) v.natAbs 0

/-- `mix` and `sr_draw` (R86). -/
def mix (z : DWord) : DWord :=
  let z := (z ^^^ (z >>> 30)) * 0xBF58476D1CE4E5B9#64
  let z := (z ^^^ (z >>> 27)) * 0x94D049BB133111EB#64
  z ^^^ (z >>> 31)
def srDraw (seed : DWord) (task : Nat) (a : DWord) : Nat :=
  let z := mix (seed ^^^ BitVec.ofNat 64 (task % 2 ^ 32))
  (mix (z ^^^ a)).toNat / 2 ^ 48

/-- The register address term of R86. -/
def srTerm (tid : Nat) (srseq : Word) (j : Nat) : DWord :=
  BitVec.ofNat 64 (2 ^ 63 + tid % 2 ^ 24 * 2 ^ 32 + srseq.toNat % 2 ^ 24 * 2 ^ 8 + j)

/-- An element format of a block tag (Table 4.6). -/
inductive Elem where
  | int (n : Nat) (sgn : Bool)
  | fp16
  | bf16
  | fp32
  | b8 (f : B8)
  deriving DecidableEq, Repr

/-- The element format of a format byte; none for `raw`, `odf`, `dspill` and the reserved bytes. -/
def elemOf (fb : Nat) : Option Elem :=
  match fb with
  | 1 => some (.int 8 true)
  | 2 => some (.int 8 false)
  | 3 => some (.int 4 true)
  | 4 => some (.int 4 false)
  | 5 => some .fp16
  | 6 => some .bf16
  | 7 => some .fp32
  | _ =>
    if 0x80 ≤ fb && fb < 0x100 && fb % 8 ≠ 0 && fb / 8 % 4 = 0 then some (.b8 ⟨fb % 8, bitAt fb 6, bitAt fb 5⟩) else none

/-- Bits of an element. -/
def Elem.bits : Elem → Nat
  | .int n _ => n
  | .fp16 | .bf16 => 16
  | .fp32 => 32
  | .b8 _ => 8
/-- Elements of a 64-byte block (Table 4.6). -/
def Elem.count (f : Elem) : Nat := 512 / f.bits
def Elem.isInt : Elem → Bool
  | .int _ _ => true
  | _ => false

/-- The value of an element's code. -/
def Elem.dec (f : Elem) (c : Nat) : Fp :=
  match f with
  | .int n sgn => .ofInt (if sgn && 2 ^ (n - 1) ≤ c then (c : Int) - 2 ^ n else c)
  | .fp16 => dec16 c
  | .bf16 => decBf c
  | .fp32 => decIeee 8 23 c
  | .b8 g => decB8 g c

/-- The floating format an element rounds to, and its code. -/
def Elem.fmt : Elem → Fmt
  | .int _ _ => fmt32
  | .fp16 => fmt16
  | .bf16 => fmtBf
  | .fp32 => fmt32
  | .b8 g => fmtB8 g
def Elem.enc (f : Elem) (x : Fp) : Nat :=
  match f with
  | .int n _ => match x with
    | .fin neg m e => ((sInt neg m e 0) % 2 ^ n).toNat
    | _ => 0
  | .fp16 => enc16 x
  | .bf16 => encBf x
  | .fp32 => encIeee 8 23 x
  | .b8 g => encB8 g x

/-- Converts a value to an element's code with its flags: `round_to`, or `cvt_fi` for an integer (R98, R87). -/
def Elem.conv (f : Elem) (rm : RM) (r : Nat) (x : Fp) : Nat × Nat :=
  match f with
  | .int n sgn =>
    let (v, fl) := cvtFi x n sgn rm r
    ((v % 2 ^ n).toNat, fl)
  | _ =>
    let (y, fl) := roundTo f.fmt rm r x
    (f.enc y, fl)

/-- Element `j` of a block's bytes (R78). -/
def elemAt (f : Elem) (bs : List Byte) (j : Nat) : Nat :=
  match f.bits with
  | 4 => let b := (nth 0 bs (j / 2)).toNat; if j % 2 = 0 then b % 16 else b / 16
  | n => leNat ((bs.drop (j * (n / 8))).take (n / 8))

/-- Packs element codes into bytes (R78). -/
def packElems (f : Elem) (cs : List Nat) : List Byte :=
  match f.bits with
  | 4 => (upto (cs.length / 2)).map fun i => BitVec.ofNat 8 (nth 0 cs (2 * i) + 16 * nth 0 cs (2 * i + 1))
  | n => cs.flatMap fun c => natLe (n / 8) c

/-- The deep accumulator's class and value (R95). -/
inductive DCls where
  | fin | pinf | ninf | nan
  deriving DecidableEq, Repr

structure Deep where
  d   : Int
  cls : DCls
  deriving DecidableEq, Repr

def deepMax : Int := 2 ^ 95 - 1
def deepMin : Int := -(2 ^ 95)

/-- Adds an exact integer to D with saturation (R96): the sum and whether it overflowed. -/
def satAdd (d q : Int) : Int × Bool :=
  let s := d + q
  if s > deepMax then (deepMax, true) else if s < deepMin then (deepMin, true) else (s, false)

/-- `trunc_toward_zero(p × 2^48)` and whether it lost bits (R96). -/
def trunc48 (neg : Bool) (m : Nat) (e : Int) : Int × Bool :=
  let k := e + 48
  if (Nat.log2 m : Int) + k < -2 then (0, m ≠ 0)
  else
    let q := shl m k
    let lost := k < 0 && m % 2 ^ (-k).toNat ≠ 0
    (if neg then -(q : Int) else q, lost)

/-- `land` with the classes (R96): a × b × 2^c into the accumulator; flags as NX for INEXACT, OF for OVERFLOW. -/
def landP (acc : Deep) (a b : Fp) (c : Int) : Deep × Nat :=
  let (p, _) := mulFp a b
  match p with
  | .nan _ => ({ acc with cls := .nan }, 0)
  | .inf n =>
    match acc.cls with
    | .nan => (acc, 0)
    | .fin => ({ acc with cls := if n then .ninf else .pinf }, 0)
    | .pinf => ({ acc with cls := if n then .nan else .pinf }, 0)
    | .ninf => ({ acc with cls := if n then .ninf else .nan }, 0)
  | .fin n m e =>
    match acc.cls with
    | .fin =>
      let (q, lost) := trunc48 n m (e + c)
      let (s, ov) := satAdd acc.d q
      ({ acc with d := s }, (if lost then fNX else 0) + (if ov then fOF else 0))
    | _ => (acc, 0)

/-- The value of a deep element (R95). -/
def Deep.fp (x : Deep) : Fp :=
  match x.cls with
  | .fin => .fin (x.d < 0) x.d.natAbs (-48)
  | .pinf => .inf false
  | .ninf => .inf true
  | .nan => .nan false

/-- The exact square of the quantisation error of one element, as an integer times 2^(2q) (R99). -/
def quantErr (f : Elem) (cand q : Int) (x : Fp) : Nat :=
  match x with
  | .fin neg m e =>
    let y : Fp :=
      let z := Fp.fin neg m (e - cand)
      match f with
      | .int n sgn =>
        let v := (cvtFi z n sgn .rne 0).1
        .ofInt (if sgn then max v (-intHi n sgn) else v)
      | _ =>
        let fm := f.fmt
        let mx := Fp.fin false fm.maxA fm.maxE
        let z := if neg && !fm.sgn then Fp.fin false 0 0
          else if (z.abs.cmp mx) > 0 then Fp.fin neg fm.maxA fm.maxE else z
        (roundTo fm .rne 0 z).1
    match y.scale cand with
    | .fin n' m' e' =>
      let dlt := (sInt n' m' (if m' = 0 then q else e') q - sInt neg m (if m = 0 then q else e) q).natAbs
      dlt * dlt
    | _ => 0
  | _ => 0

/-- The largest finite value of F at scale 2^0 (R99). -/
def Elem.fmax : Elem → Fp
  | .int n sgn => .ofInt (intHi n sgn)
  | f => .fin false f.fmt.maxA f.fmt.maxE

/-- A of R99: the largest finite magnitude, 0 if none. -/
def absMax (xs : List Fp) : Fp :=
  xs.foldl (fun a x => match x with
    | .fin _ _ _ => if x.abs.cmp a > 0 then x.abs else a
    | _ => a) (.fin false 0 0)

/-- The least integer d with A ≤ Fmax × 2^d (R99). -/
def leastScale (f : Elem) (a : Fp) : Int :=
  match a, f.fmax with
  | .fin _ m e, .fin _ m' e' =>
    if m = 0 then 0
    else
      let d : Int := (Nat.log2 m + e) - (Nat.log2 m' + e')
      if a.cmp (.fin false m' (e' + d)) > 0 then d + 1 else d
  | _, _ => 0

/-- The candidates of R99: d − 1, d and d + 1, clamped to [−127, 127] (a duplicate never wins). -/
def scaleCands (d : Int) : List Int := [d - 1, d, d + 1].map fun c => max (-127) (min 127 c)

/-- `pick_scale` (R99): the scale byte. -/
def pickScale (f : Elem) (xs : List Fp) : Nat :=
  let d := leastScale f (absMax xs)
  let q := xs.foldl (fun q x => match x with
    | .fin _ m e => if m = 0 then q else min q e
    | _ => q) (-400 : Int)
  let best := (scaleCands d).foldl (fun (b : Option (Int × Nat)) cand =>
    let err := sumNat (xs.map (quantErr f cand q))
    match b with
    | none => some (cand, err)
    | some (c0, e0) => if err < e0 || err = e0 && c0 < cand then some (cand, err) else b) none
  match best with
  | some (c, _) => (127 + c).toNat
  | none => 127

/-! ### Special-function tables (R147, R148): each entry is computed by fixed-point series at 2^−192. -/

/-- One in the fixed point of the tables. -/
def fxOne : Int := 2 ^ 192
def fxMul (a b : Int) : Int := a * b / fxOne
def fxDiv (a b : Int) : Int := a * fxOne / b

/-- Σ x^k / k! by fuel. -/
def fxExpAux : Nat → Int → Int → Int → Int → Int
  | 0, _, _, _, acc => acc
  | n + 1, x, k, t, acc => let t' := fxMul t x / k; fxExpAux n x (k + 1) t' (acc + t')
/-- e^x for |x| ≤ 32, by halving six times. -/
def fxExp (x : Int) : Int :=
  let y := fxExpAux 60 (x / 64) 1 fxOne fxOne
  let sq (v : Int) := fxMul v v
  sq (sq (sq (sq (sq (sq y)))))
/-- atanh(x) = Σ x^(2k+1) / (2k+1). -/
def fxAtanhAux : Nat → Int → Int → Int → Int → Int
  | 0, _, _, _, acc => acc
  | n + 1, x2, k, t, acc => fxAtanhAux n x2 (k + 2) (fxMul t x2) (acc + t / k)
def fxLn (v : Int) : Int :=
  let x := fxDiv (v - fxOne) (v + fxOne)
  2 * fxAtanhAux 70 (fxMul x x) 1 x 0
def fxLn2 : Int := fxLn (2 * fxOne)
/-- atan(1/n) for π by Machin's formula. -/
def fxAtanInvAux : Nat → Int → Int → Int → Int → Int
  | 0, _, _, _, acc => acc
  | m + 1, n2, k, t, acc => fxAtanInvAux m n2 (k + 2) (-(t / n2)) (acc + t / k)
def fxAtanInv (n : Int) : Int := fxAtanInvAux 100 (n * n) 1 (fxOne / n) 0
def fxPi : Int := 16 * fxAtanInv 5 - 4 * fxAtanInv 239
def fxTrigAux : Nat → Int → Int → Int → Int → Int
  | 0, _, _, _, acc => acc
  | n + 1, x2, k, t, acc => let t' := -(fxMul t x2 / ((k + 1) * (k + 2))); fxTrigAux n x2 (k + 2) t' (acc + t')
def fxSin (x : Int) : Int := fxTrigAux 40 (fxMul x x) 1 x x
def fxCos (x : Int) : Int := fxTrigAux 40 (fxMul x x) 0 fxOne fxOne
def fxTanh (x : Int) : Int :=
  let e := fxExp (-(2 * x))
  fxDiv (fxOne - e) (fxOne + e)
def fxRsqrt (v : Int) : Int :=
  fxDiv fxOne (isqrt (v.toNat * 2 ^ 192) : Nat)

/-- The nine tables (R147). -/
inductive SfuTab where
  | rcpt | rsqe | rsqo | ex2t | lg2t | sint | cost | tnha | tnhb
  deriving DecidableEq, Repr

/-- g(u) in fixed point for u = j/256 (R147). -/
def sfuG (t : SfuTab) (j : Nat) : Int :=
  let u : Int := fxOne * j / 256
  match t with
  | .rcpt => fxDiv fxOne (fxOne + u)
  | .rsqe => fxRsqrt (fxOne + u)
  | .rsqo => fxRsqrt (2 * (fxOne + u))
  | .ex2t => fxExp (fxMul u fxLn2)
  | .lg2t => fxDiv (fxLn (fxOne + u)) fxLn2
  | .sint => fxSin (fxMul fxPi u / 2)
  | .cost => fxCos (fxMul fxPi u / 2)
  | .tnha => fxTanh u
  | .tnhb => fxTanh (16 * u)

/-- rn of a fixed-point value times 2^30 (R147). -/
def rn30 (y : Int) : Int := (y + 2 ^ 161) / 2 ^ 162

/-- Entry i of a table: (c0, c1, c2) (R147). -/
def sfuEntry (t : SfuTab) (i : Nat) : Int × Int × Int :=
  let y0 := sfuG t (2 * i)
  let y1 := sfuG t (2 * i + 1)
  let y2 := sfuG t (2 * i + 2)
  (rn30 y0, rn30 (-3 * y0 + 4 * y1 - y2), rn30 (2 * y0 - 4 * y1 + 2 * y2))

/-- `sfu_eval` (R148). -/
def sfuEval (t : SfuTab) (w : Nat) : Int :=
  let (c0, c1, c2) := sfuEntry t (w / 2 ^ 16 % 128)
  let x : Int := (w % 2 ^ 16 : Nat)
  c0 + c1 * x / 2 ^ 16 + c2 * x * x / 2 ^ 32

/-- A fixed-point result P × 2^k as a value. -/
def fpOf (p : Int) (k : Int) : Fp := .fin (p < 0) p.natAbs k

/-- `decompose` (R148): exponent and 23-bit fraction of a finite nonzero magnitude. -/
def decompose (m : Nat) (e : Int) : Int × Nat :=
  let k : Int := Nat.log2 m + e
  (k, shl m (e - k + 23) - 2 ^ 23)

/-- `rcp` before its rounding (R149). -/
def rcpFp (x : Fp) : Fp × Nat :=
  match x with
  | .nan s => (.nan s, 0)
  | .inf n => (.fin n 0 0, 0)
  | .fin n m e =>
    if m = 0 then (.inf n, fDZ)
    else let (k, f) := decompose m e; (let r := fpOf (sfuEval .rcpt f) (-30 - k); if n then r.negate else r, 0)

/-- `rsq` before its rounding (R149). -/
def rsqFp (x : Fp) : Fp × Nat :=
  match x with
  | .nan s => (.nan s, 0)
  | .inf n => if n then (.nan false, fNV) else (.fin false 0 0, 0)
  | .fin n m e =>
    if m = 0 then (.inf n, fDZ)
    else if n then (.nan false, fNV)
    else
      let (k, f) := decompose m e
      if k % 2 = 0 then (fpOf (sfuEval .rsqe f) (-30 - k / 2), 0)
      else (fpOf (sfuEval .rsqo f) (-30 - (k - 1) / 2), 0)

/-- `lg2` before its rounding (R149). -/
def lg2Fp (x : Fp) : Fp × Nat :=
  match x with
  | .nan s => (.nan s, 0)
  | .inf n => if n then (.nan false, fNV) else (.inf false, 0)
  | .fin n m e =>
    if m = 0 then (.inf true, fDZ)
    else if n then (.nan false, fNV)
    else let (k, f) := decompose m e; (fpOf (k * 2 ^ 30 + sfuEval .lg2t f) (-30), 0)

/-- floor(m × 2^k) of a signed finite value. -/
def floorScaled (n : Bool) (m : Nat) (k : Int) : Int :=
  if 0 ≤ k then (if n then -(m * 2 ^ k.toNat : Nat) else (m * 2 ^ k.toNat : Nat))
  else if (Nat.log2 m : Int) + k < -2 then (if n && m ≠ 0 then -1 else 0)
  else (if n then -(m : Int) else m) / 2 ^ (-k).toNat

/-- `ex2` before its rounding (R151): an exact value, or a final result with its flags. -/
def ex2Fp (x : Fp) : Fp × Nat :=
  match x with
  | .nan s => (.nan s, 0)
  | .inf n => (if n then .fin false 0 0 else .inf false, 0)
  | .fin n m e =>
    if x.cmp (.ofInt 128) ≥ 0 then (.inf false, fOF + fNX)
    else if x.cmp (.ofInt (-151)) < 0 then (.fin false 0 0, fUF + fNX)
    else
      let X := floorScaled n m (e + 23)
      let k := X / 2 ^ 23
      (fpOf (sfuEval .ex2t (X - k * 2 ^ 23).toNat) (k - 30), 0)

/-- The quadrant and the 23-bit fraction of |x| mod 2 (R152). -/
def quadrant (m : Nat) (e : Int) : Nat × Nat :=
  -- floor((|x| mod 2) × 2^24), |x| = m × 2^e
  let W := if e > 1 then 0 else if 0 ≤ e + 24 then (m * 2 ^ (e + 24).toNat) % 2 ^ 25
    else if (Nat.log2 m : Int) + e + 24 < -2 then 0 else m / 2 ^ (-(e + 24)).toNat % 2 ^ 25
  (W / 2 ^ 23, W % 2 ^ 23)

/-- `sinpi` before its rounding (R152). -/
def sinpiFp (x : Fp) : Fp × Nat :=
  match x with
  | .nan s => (.nan s, 0)
  | .inf _ => (.nan false, fNV)
  | .fin n m e =>
    if m = 0 then (x, 0)
    else if (Nat.log2 m : Int) + e < -12 then (.fin n (m * 0xC90FDAA2) (e - 30), 0)
    else
      let (q, w) := quadrant m e
      let p := match q with
        | 0 => sfuEval .sint w
        | 1 => sfuEval .cost w
        | 2 => -(sfuEval .sint w)
        | _ => -(sfuEval .cost w)
      let p := if n then -p else p
      if p = 0 then (.fin n 0 0, 0) else (fpOf p (-30), 0)

/-- `cospi` before its rounding (R152). -/
def cospiFp (x : Fp) : Fp × Nat :=
  match x with
  | .nan s => (.nan s, 0)
  | .inf _ => (.nan false, fNV)
  | .fin _ m e =>
    let (q, w) := if m = 0 then (0, 0) else quadrant m e
    let p := match q with
      | 0 => sfuEval .cost w
      | 1 => -(sfuEval .sint w)
      | 2 => -(sfuEval .cost w)
      | _ => sfuEval .sint w
    if p = 0 then (.fin false 0 0, 0) else (fpOf p (-30), 0)

/-- `tanh` before its rounding (R153). -/
def tanhFp (x : Fp) : Fp × Nat :=
  match x with
  | .nan s => (.nan s, 0)
  | .inf n => (.fin n 1 0, 0)
  | .fin n m e =>
    if m = 0 then (x, 0)
    else if x.abs.cmp (.ofInt 10) ≥ 0 then (.fin n 1 0, fNX)
    else if (Nat.log2 m : Int) + e < -12 then (x, fNX)
    else
      let p := if (Nat.log2 m : Int) + e < 0 then sfuEval .tnha (shl m (e + 23)) else sfuEval .tnhb (shl m (e + 19))
      (fpOf (if n then -p else p) (-30), 0)

end Sys2Proof.Machine
end

