-- ==== Sys2Proof/Machine/Crypto.lean ====
section
/-! DEFINITION. The cryptography the spec names: AES-256 with XTS and ciphertext stealing (R371), CMAC (R372), and SHA-384
(R375, R377), from their published definitions (FIPS 197, IEEE 1619, NIST SP 800-38B, FIPS 180-4). -/

namespace Sys2Proof.Machine

/-! ### AES-256 -/

/-- Multiplication by x in GF(2^8). -/
def xtime (a : Nat) : Nat := if a < 128 then 2 * a else (2 * a) % 256 ^^^ 0x1B
/-- Multiplication in GF(2^8), by fuel over the bits of `b`. -/
def gmulAux : Nat → Nat → Nat → Nat
  | 0, _, _ => 0
  | n + 1, a, b => (if b % 2 = 1 then a else 0) ^^^ gmulAux n (xtime a) (b / 2)
def gmul (a b : Nat) : Nat := gmulAux 8 a b
/-- a^254, the inverse in GF(2^8) with 0 for 0. -/
def ginv (a : Nat) : Nat :=
  let sq (x : Nat) := gmul x x
  let a2 := sq a
  let a3 := gmul a2 a
  let a12 := sq (sq a3)
  let a15 := gmul a12 a3
  let a240 := sq (sq (sq (sq a15)))
  gmul (gmul a240 a12) a2
def rotl8 (x k : Nat) : Nat := (x * 2 ^ k) % 256 ||| x / 2 ^ (8 - k)
/-- The AES S-box of a byte. -/
def sboxOf (a : Nat) : Nat :=
  let b := ginv a
  b ^^^ rotl8 b 1 ^^^ rotl8 b 2 ^^^ rotl8 b 3 ^^^ rotl8 b 4 ^^^ 0x63
def sboxTab : List Nat := (upto 256).map sboxOf
def sbox (a : Nat) : Nat := nth 0 sboxTab a
/-- The inverse S-box: the index at which the table holds the byte. -/
def invSbox (a : Nat) : Nat := sboxTab.findIdx (· = a)

def xorL (a b : List Nat) : List Nat := List.zipWith (· ^^^ ·) a b

/-- Key expansion: words of four bytes, newest first (FIPS 197, Nk = 8). -/
def keyWords : Nat → Nat → Nat → List (List Nat) → List (List Nat)
  | 0, _, _, ws => ws
  | n + 1, i, rcon, ws =>
    let t := nth [] ws 0
    let (t', rcon') :=
      if i % 8 = 0 then
        let r := (t.drop 1 ++ t.take 1).map sbox
        (xorL r [rcon, 0, 0, 0], xtime rcon)
      else if i % 8 = 4 then (t.map sbox, rcon)
      else (t, rcon)
    keyWords n (i + 1) rcon' (xorL (nth [] ws 7) t' :: ws)

/-- Splits a list into pieces of `k` (fuel: the number of pieces). -/
def chunk {α : Type} : Nat → Nat → List α → List (List α)
  | 0, _, _ => []
  | n + 1, k, l => l.take k :: chunk n k (l.drop k)

/-- The 15 round keys of a 32-byte key. -/
def roundKeys (key : List Nat) : List (List Nat) :=
  let ws := (keyWords 52 8 1 (chunk 8 4 key).reverse).reverse
  (chunk 15 4 ws).map List.flatten

def shiftRows (s : List Nat) : List Nat := (upto 16).map fun i => nth 0 s ((i + 4 * (i % 4)) % 16)
def invShiftRows (s : List Nat) : List Nat := (upto 16).map fun i => nth 0 s ((i + 16 - 4 * (i % 4)) % 16)
def mixCol (a b c d : Nat) (s : List Nat) : List Nat :=
  (upto 16).map fun i =>
    let col := 4 * (i / 4)
    let at' (k : Nat) := nth 0 s (col + (i + k) % 4)
    gmul a (at' 0) ^^^ gmul b (at' 1) ^^^ gmul c (at' 2) ^^^ gmul d (at' 3)

/-- Encryption of one 16-byte block under expanded keys. -/
def aesEncK (rk : List (List Nat)) (p : List Nat) : List Nat :=
  let s := (rk.drop 1).take 13 |>.foldl (fun s k => xorL (mixCol 2 3 1 1 (shiftRows (s.map sbox))) k) (xorL p (nth [] rk 0))
  xorL (shiftRows (s.map sbox)) (nth [] rk 14)

/-- Decryption of one block. -/
def aesDecK (rk : List (List Nat)) (c : List Nat) : List Nat :=
  let s := ((rk.drop 1).take 13).reverse.foldl
    (fun s k => mixCol 14 11 13 9 (xorL ((invShiftRows s).map invSbox) k)) (xorL c (nth [] rk 14))
  xorL ((invShiftRows s).map invSbox) (nth [] rk 0)

/-! ### XTS and CMAC -/

/-- Multiplication of a tweak by α (IEEE 1619: little-endian). -/
def xtsAlpha (t : List Nat) : List Nat :=
  let v := leNat (t.map (BitVec.ofNat 8))
  let v' := (2 * v) % 2 ^ 128 ^^^ (if v < 2 ^ 127 then 0 else 0x87)
  (natLe 16 v').map BitVec.toNat

/-- XTS of one data unit of 32 bytes, or of 34 bytes with ciphertext stealing. -/
def xtsEncUnit (k1 k2 : List (List Nat)) (sector : Nat) (p : List Nat) : List Nat :=
  let t0 := aesEncK k2 ((natLe 16 sector).map BitVec.toNat)
  let t1 := xtsAlpha t0
  let e (t b : List Nat) := xorL (aesEncK k1 (xorL b t)) t
  let c0 := e t0 (p.take 16)
  let cc := e t1 ((p.drop 16).take 16)
  let r := p.drop 32
  if r.isEmpty then c0 ++ cc
  else c0 ++ e (xtsAlpha t1) (r ++ cc.drop r.length) ++ cc.take r.length
def xtsDecUnit (k1 k2 : List (List Nat)) (sector : Nat) (c : List Nat) : List Nat :=
  let t0 := aesEncK k2 ((natLe 16 sector).map BitVec.toNat)
  let t1 := xtsAlpha t0
  let d (t b : List Nat) := xorL (aesDecK k1 (xorL b t)) t
  let p0 := d t0 (c.take 16)
  let r := c.drop 32
  if r.isEmpty then p0 ++ d t1 ((c.drop 16).take 16)
  else
    let pp := d (xtsAlpha t1) ((c.drop 16).take 16)
    p0 ++ d t1 (r ++ pp.drop r.length) ++ pp.take r.length

def toB (l : List Nat) : List Byte := l.map (BitVec.ofNat 8)
def ofB (l : List Byte) : List Nat := l.map BitVec.toNat

/-- A block of a confidential world: the lower sector with its tag, the upper sector (R371). The tweak is the sector's
address field, or 0 for a sealed-constant page. -/
def xtsBlockEnc (key : List Byte) (blk : Option Nat) (bs : List Byte) (t : Tag) : List Byte × Tag :=
  let k1 := roundKeys (ofB (key.take 32))
  let k2 := roundKeys (ofB (key.drop 32))
  let tw (i : Nat) := match blk with
    | some b => 2 * b + i
    | none => 0
  let lo := xtsEncUnit k1 k2 (tw 0) (ofB (bs.take 32 ++ natLe 2 t.toNat))
  let hi := xtsEncUnit k1 k2 (tw 1) (ofB (bs.drop 32))
  (toB (lo.take 32 ++ hi), BitVec.ofNat 16 (leNat (toB (lo.drop 32))))
def xtsBlockDec (key : List Byte) (blk : Option Nat) (bs : List Byte) (t : Tag) : List Byte × Tag :=
  let k1 := roundKeys (ofB (key.take 32))
  let k2 := roundKeys (ofB (key.drop 32))
  let tw (i : Nat) := match blk with
    | some b => 2 * b + i
    | none => 0
  let lo := xtsDecUnit k1 k2 (tw 0) (ofB (bs.take 32 ++ natLe 2 t.toNat))
  let hi := xtsDecUnit k1 k2 (tw 1) (ofB (bs.drop 32))
  (toB (lo.take 32 ++ hi), BitVec.ofNat 16 (leNat (toB (lo.drop 32))))

/-- AES-256-CMAC of whole 16-byte blocks (the last one complete). -/
def cmac (key : List Byte) (msg : List Byte) : List Nat :=
  let rk := roundKeys (ofB key)
  let l := aesEncK rk (List.replicate 16 0)
  let v := beNat (toB l)
  let k1 := (2 * v) % 2 ^ 128 ^^^ (if v < 2 ^ 127 then 0 else 0x87)
  let n := msg.length / 16
  let bl := chunk n 16 (ofB msg)
  let bl := match bl.reverse with
    | last :: rest => (xorL last (ofB (natBe 16 k1)) :: rest).reverse
    | [] => []
  bl.foldl (fun x b => aesEncK rk (xorL x b)) (List.replicate 16 0)

/-- The MAC of a block (R372): 64 ciphertext bytes, encrypted tag, 7 bytes of address field, 4 bytes of VP, 3 zero bytes; the
first 56 bits of the CMAC. -/
def macBlock (key : List Byte) (bs : List Byte) (t : Tag) (addr vp : Nat) : Nat :=
  beNat (toB ((cmac key (bs ++ natLe 2 t.toNat ++ natLe 7 addr ++ natLe 4 vp ++ [0, 0, 0])).take 7))

/-! ### SHA-384 -/

/-- The 80 round constants of SHA-512, sixteen to a number, the first in the highest 64 bits. -/
def shaTables : List Nat :=
  [0x428a2f98d728ae227137449123ef65cdb5c0fbcfec4d3b2fe9b5dba58189dbbc3956c25bf348b53859f111f1b605d019923f82a4af194f9bab1c5ed5da6d8118d807aa98a303024212835b0145706fbe243185be4ee4b28c550c7dc3d5ffb4e272be5d74f27b896f80deb1fe3b1696b19bdc06a725c71235c19bf174cf692694,
   0xe49b69c19ef14ad2efbe4786384f25e30fc19dc68b8cd5b5240ca1cc77ac9c652de92c6f592b02754a7484aa6ea6e4835cb0a9dcbd41fbd476f988da831153b5983e5152ee66dfaba831c66d2db43210b00327c898fb213fbf597fc7beef0ee4c6e00bf33da88fc2d5a79147930aa72506ca6351e003826f142929670a0e6e70,
   0x27b70a8546d22ffc2e1b21385c26c9264d2c6dfc5ac42aed53380d139d95b3df650a73548baf63de766a0abb3c77b2a881c2c92e47edaee692722c851482353ba2bfe8a14cf10364a81a664bbc423001c24b8b70d0f89791c76c51a30654be30d192e819d6ef5218d69906245565a910f40e35855771202a106aa07032bbd1b8,
   0x19a4c116b8d2d0c81e376c085141ab532748774cdf8eeb9934b0bcb5e19b48a8391c0cb3c5c95a634ed8aa4ae3418acb5b9cca4f7763e373682e6ff3d6b2b8a3748f82ee5defb2fc78a5636f43172f6084c87814a1f0ab728cc702081a6439ec90befffa23631e28a4506cebde82bde9bef9a3f7b2c67915c67178f2e372532b,
   0xca273eceea26619cd186b8c721c0c207eada7dd6cde0eb1ef57d4f7fee6ed17806f067aa72176fba0a637dc5a2c898a6113f9804bef90dae1b710b35131c471b28db77f523047d8432caab7b40c724933c9ebe0a15c9bebc431d67c49c100d4c4cc5d4becb3e42b6597f299cfc657e2a5fcb6fab3ad6faec6c44198c4a475817]
/-- The word at position `i`, from the top, of a number of `n` 64-bit words. -/
def limb64 (n x i : Nat) : Nat := x / 2 ^ (64 * (n - 1 - i)) % 2 ^ 64
def limbs64 (n x : Nat) : List Nat := (upto n).map (limb64 n x)
def sha512K : List Nat := shaTables.flatMap (limbs64 16)
/-- The initial hash value of SHA-384. -/
def sha384Iv : List Nat :=
  limbs64 8 0xcbbb9d5dc1059ed8629a292a367cd5079159015a3070dd17152fecd8f70e593967332667ffc00b318eb44a8768581511db0c2e0d64f98fa747b5481dbefa4fa4

def w64 (x : Nat) : Nat := x % 2 ^ 64
def rotr64 (x k : Nat) : Nat := x / 2 ^ k ||| w64 (x * 2 ^ (64 - k))

/-- The message schedule, newest word first. -/
def shaSched : Nat → List Nat → List Nat
  | 0, w => w
  | n + 1, w =>
    let w2 := nth 0 w 1
    let w15 := nth 0 w 14
    let s1 := rotr64 w2 19 ^^^ rotr64 w2 61 ^^^ w2 / 2 ^ 6
    let s0 := rotr64 w15 1 ^^^ rotr64 w15 8 ^^^ w15 / 2 ^ 7
    shaSched n (w64 (s1 + nth 0 w 6 + s0 + nth 0 w 15) :: w)

/-- One round on the eight working variables. -/
def shaRound (v : List Nat) (kw : Nat) : List Nat :=
  match v with
  | [a, b, c, d, e, f, g, h] =>
    let t1 := w64 (h + (rotr64 e 14 ^^^ rotr64 e 18 ^^^ rotr64 e 41) + ((e &&& f) ^^^ ((2 ^ 64 - 1 - e) &&& g)) + kw)
    let t2 := (rotr64 a 28 ^^^ rotr64 a 34 ^^^ rotr64 a 39) + ((a &&& b) ^^^ (a &&& c) ^^^ (b &&& c))
    [w64 (t1 + t2), a, b, c, w64 (d + t1), e, f, g]
  | _ => v

/-- The SHA-512 compression of one 128-byte block into eight words. -/
def shaBlock (h : List Nat) (blk : List Byte) : List Nat :=
  let w := (shaSched 64 ((chunk 16 8 blk).map beNat).reverse).reverse
  let v := (List.zipWith (· + ·) sha512K w).foldl shaRound h
  List.zipWith (fun a b => w64 (a + b)) h v

/-- The padding of a message of `n` bytes whose whole blocks are absorbed already; `tail` is the rest. -/
def shaPad (n : Nat) (tail : List Byte) : List Byte :=
  let m := tail ++ [0x80]
  let z := (128 + 112 - m.length % 128) % 128
  m ++ List.replicate z 0 ++ natBe 16 (8 * n)

def shaBlocks (h : List Nat) (m : List Byte) : List Nat := (chunk (m.length / 128) 128 m).foldl shaBlock h

/-- SHA-384 of a message. -/
def sha384 (m : List Byte) : List Byte :=
  ((shaBlocks sha384Iv (shaPad m.length m)).take 6).flatMap (natBe 8)

/-- HMAC with SHA-384 (RFC 2104), for the deterministic nonces of R376. -/
def hmac384 (key msg : List Byte) : List Byte :=
  let k := (if key.length > 128 then sha384 key else key)
  let k := k ++ List.replicate (128 - k.length) 0
  sha384 (k.map (· ^^^ 0x5C) ++ sha384 (k.map (· ^^^ 0x36) ++ msg))

end Sys2Proof.Machine
end

