-- ==== Sys2Proof/Syntax.lean ====
section
/-! DEFINITION. Every step of the opcode table as data: one constructor of `Instr` per row of spec/opcode_table.json
(instruction words, micro-ops of the attention sequencer, and the engine and outside events of spec/95). The stop bit S is
no part of `Instr`; the decoder returns it beside the instruction. -/

namespace Sys2Proof

/-- How an ALU word reads its operands (R51): `v` U=0 CS=0, `s` U=0 CS=1 (FC uniform), `u` U=1 CS=0. -/
inductive OpMode where
  | v | s | u
  deriving DecidableEq, Repr

/-- The attribute word of an atomic (Table 3.3, R54). -/
structure AtomAttr where
  scope : BitVec 3
  ord   : BitVec 2
  size  : BitVec 2
  space : Bool
  ret   : Bool
  cmp   : BitVec 7
  ofs   : BitVec 16
  deriving DecidableEq, Repr

/-- Where a bench stands: a drawer slot (R8), a steward slot (R361) or an access processor (R185). -/
inductive Place where
  | drawer (core drw slot : Nat)
  | steward (st slot : Nat)
  | ap (core idx : Nat)
  deriving DecidableEq, Repr

/-- A BTE queue: a memory queue (R262), a core's local queue of a world (R284), a steward's local queue (R289), the
gathers of a core's attention sequencer (R288, R315). -/
inductive QId where
  | mem (q : Nat)
  | loc (core world : Nat)
  | stw (st : Nat)
  | asq (core : Nat)
  deriving DecidableEq, Repr

/-- A lease message (Table 13.2): sender, its incarnation, the lease's generation, the pair that names the lease, and the
payload (extent, duration in ms; 0 where the message carries none). -/
structure LeaseMsg where
  mid    : Nat
  incarn : Nat
  gen    : BitVec 32
  lid    : Nat
  lidx   : Nat
  ext    : Nat
  dur    : Nat
  deriving DecidableEq, Repr

/-- What one read of a peer's bulletin shows, and the port it came over (R348, R350). -/
structure PeerObs where
  mid    : Nat
  hbeat  : Nat
  incarn : Nat
  mgrv   : Bool
  epoch  : Nat
  port   : Nat
  deriving DecidableEq, Repr

/-- One access of a peer to the module's own bulletin (R349). -/
inductive BulletinOp where
  | read
  | write (v : BitVec 64)
  | fetchAdd (v : BitVec 64)
  deriving DecidableEq, Repr

/-- The access and its size: 4 or 8 bytes, as any MMIO access (R366). -/
structure BulletinReq where
  mid  : Nat
  off  : Nat
  size : Nat
  op   : BulletinOp
  deriving DecidableEq, Repr

/-- A CXL.mem request of borrower `mid` for the 64-byte line of a lent extent (R340). -/
structure CxlReq where
  mid   : Nat
  dpa   : Nat
  write : Option (List (BitVec 8) × BitVec 16)
  deriving DecidableEq, Repr

/-- A host request by PCIe or CXL.io: a read, a posted write or a FetchAdd (R264, R366). -/
inductive HostOp where
  | read (size : Nat)
  | write (bytes : List (BitVec 8))
  | fetchAdd (v : BitVec 64)
  deriving DecidableEq, Repr

structure HostReq where
  dpa : Nat
  op  : HostOp
  deriving DecidableEq, Repr

/-- A block packet of a reducing copy that arrives from another module (R278); `fmt` is the format byte of the unpoisoned blocks of the
copy's operand, 0 for none (R92). -/
structure ReducePkt where
  mid   : Nat
  queue : Nat
  seq   : BitVec 32
  idx   : Nat
  world : Nat
  wva   : BitVec 64
  mode  : BitVec 3
  seed  : BitVec 64
  task  : BitVec 32
  tag   : BitVec 16
  data  : List (BitVec 8)
  fmt   : BitVec 8
  deriving DecidableEq, Repr

/-- How a module answers a block sent to it (R40, R278, R282, R283): it is written, with the record flags of its addition; its
sequence is too old; or a cause of Table 5.4 bars it. -/
inductive RemoteAns where
  | done (flags : Nat)
  | stale
  | fault (code : Nat)
  deriving DecidableEq, Repr

/-- A counter-record export (R380): record index, value, origin DEVID, owner world on the receiver, and the other module. -/
structure RecordMsg where
  mid    : Nat
  idx    : Nat
  value  : BitVec 64
  origin : BitVec 384
  world  : Nat
  deriving DecidableEq, Repr

/-- Which copy of a logical line leaves the SDC (R326): the committed one, the one retained up to an epoch, or a task's version line. -/
inductive SdcCopy where
  | committed
  | retained (upto : Nat)
  | version (task : Nat)
  deriving DecidableEq, Repr

/-- One constructor per row of the opcode table: first the words of G0 to G14 and the micro-ops that carry operands, then the
rest (Lean's compiler builds a constructor with fields only up to index 244; the kernel has no such limit). -/
inductive Instr where
  /-- R122. Adds two 32-bit registers modulo 2^32. -/
  | iadd (m : OpMode) (d a b : BitVec 7)
  /-- R122. Subtracts two 32-bit registers modulo 2^32. -/
  | isub (m : OpMode) (d a b : BitVec 7)
  /-- R122. Writes the low 32 bits of a product. -/
  | imul (m : OpMode) (d a b : BitVec 7)
  /-- R122. Writes the high 32 bits of a signed product. -/
  | imulhs (m : OpMode) (d a b : BitVec 7)
  /-- R122. Writes the high 32 bits of an unsigned product. -/
  | imulhu (m : OpMode) (d a b : BitVec 7)
  /-- R122. Multiplies two registers and adds the destination. -/
  | imad (m : OpMode) (d a b : BitVec 7)
  /-- R122. Writes a signed 64-bit product to a register pair. -/
  | imulw (m : OpMode) (d a b : BitVec 7)
  /-- R122. Adds a zero-extended register to a 64-bit pair. -/
  | iadd64 (m : OpMode) (d a b : BitVec 7)
  /-- R122. Subtracts a zero-extended register from a 64-bit pair. -/
  | isub64 (m : OpMode) (d a b : BitVec 7)
  /-- R122. Signed minimum. -/
  | imins (m : OpMode) (d a b : BitVec 7)
  /-- R122. Unsigned minimum. -/
  | iminu (m : OpMode) (d a b : BitVec 7)
  /-- R122. Signed maximum. -/
  | imaxs (m : OpMode) (d a b : BitVec 7)
  /-- R122. Unsigned maximum. -/
  | imaxu (m : OpMode) (d a b : BitVec 7)
  /-- R123. Unsigned quotient, all ones on division by zero. -/
  | idivu (m : OpMode) (d a b : BitVec 7)
  /-- R123. Signed quotient truncated toward zero. -/
  | idivs (m : OpMode) (d a b : BitVec 7)
  /-- R124. Bitwise AND. -/
  | and (m : OpMode) (d a b : BitVec 7)
  /-- R124. Bitwise OR. -/
  | or (m : OpMode) (d a b : BitVec 7)
  /-- R124. Bitwise exclusive OR. -/
  | xor (m : OpMode) (d a b : BitVec 7)
  /-- R124. AND with the complement of b. -/
  | andn (m : OpMode) (d a b : BitVec 7)
  /-- R124. Logical left shift. -/
  | shl (m : OpMode) (d a b : BitVec 7)
  /-- R124. Logical right shift. -/
  | shr (m : OpMode) (d a b : BitVec 7)
  /-- R124. Arithmetic right shift. -/
  | sar (m : OpMode) (d a b : BitVec 7)
  /-- R124. Rotate left. -/
  | rol (m : OpMode) (d a b : BitVec 7)
  /-- R124. Funnel shift left of a:d. -/
  | fshl (m : OpMode) (d a b : BitVec 7)
  /-- R124. Funnel shift right of a:d. -/
  | fshr (m : OpMode) (d a b : BitVec 7)
  /-- R125. Extracts a bit field, zero-extended. -/
  | bfxu (m : OpMode) (d a b : BitVec 7)
  /-- R125. Extracts a bit field, sign-extended. -/
  | bfxs (m : OpMode) (d a b : BitVec 7)
  /-- R125. Inserts a bit field into d. -/
  | bfi (m : OpMode) (d a b : BitVec 7)
  /-- R124. Counts one bits. -/
  | popc (u : Bool) (d a : BitVec 7)
  /-- R124. Counts leading zeros. -/
  | clz (u : Bool) (d a : BitVec 7)
  /-- R124. Reverses bit order. -/
  | brev (u : Bool) (d a : BitVec 7)
  /-- R126. Copies a register. -/
  | mov (u : Bool) (d a : BitVec 7)
  /-- R126. Writes a sign-extended 14-bit immediate. -/
  | movi (u : Bool) (d : BitVec 7) (i : BitVec 14)
  /-- R126. Writes an immediate into bits 31:18 keeping the low bits. -/
  | movhi (u : Bool) (d : BitVec 7) (i : BitVec 14)
  /-- R126. Writes a 32-bit literal from the second word. -/
  | ldi32 (u : Bool) (d : BitVec 7) (lit : BitVec 32)
  /-- R126. Adds a signed 7-bit immediate. -/
  | iaddi (u : Bool) (d a i : BitVec 7)
  /-- R126. Multiplies by a signed 7-bit immediate. -/
  | imuli (u : Bool) (d a i : BitVec 7)
  /-- R126. AND with a sign-extended immediate. -/
  | andi (u : Bool) (d a i : BitVec 7)
  /-- R126. OR with a sign-extended immediate. -/
  | ori (u : Bool) (d a i : BitVec 7)
  /-- R126. XOR with a sign-extended immediate. -/
  | xori (u : Bool) (d a i : BitVec 7)
  /-- R126. Left shift by an immediate. -/
  | shli (u : Bool) (d a i : BitVec 7)
  /-- R126. Logical right shift by an immediate. -/
  | shri (u : Bool) (d a i : BitVec 7)
  /-- R126. Arithmetic right shift by an immediate. -/
  | sari (u : Bool) (d a i : BitVec 7)
  /-- R126. Adds four times a register to a 64-bit pair. -/
  | lea4 (u : Bool) (d a b : BitVec 7)
  /-- R126. Adds eight times a register to a 64-bit pair. -/
  | lea8 (u : Bool) (d a b : BitVec 7)
  /-- R127. Reads a control and status register. -/
  | csrr (u : Bool) (d : BitVec 7) (i : BitVec 14)
  /-- R127. Writes a control and status register. -/
  | csrw (u : Bool) (d : BitVec 7) (i : BitVec 14)
  /-- R128. FP32 addition rounded by fpc.RM. -/
  | fadd (m : OpMode) (d a b : BitVec 7)
  /-- R128. FP32 subtraction. -/
  | fsub (m : OpMode) (d a b : BitVec 7)
  /-- R128. FP32 multiplication. -/
  | fmul (m : OpMode) (d a b : BitVec 7)
  /-- R128. FP32 fused multiply-add with one rounding. -/
  | ffma (m : OpMode) (d a b : BitVec 7)
  /-- R128. FP32 fused multiply-subtract. -/
  | ffms (m : OpMode) (d a b : BitVec 7)
  /-- R129. FP32 minimum, NaN if either input is NaN. -/
  | fmin (m : OpMode) (d a b : BitVec 7)
  /-- R129. FP32 maximum, NaN if either input is NaN. -/
  | fmax (m : OpMode) (d a b : BitVec 7)
  /-- R129. FP32 minimum ignoring a single NaN. -/
  | fminn (m : OpMode) (d a b : BitVec 7)
  /-- R129. FP32 maximum ignoring a single NaN. -/
  | fmaxn (m : OpMode) (d a b : BitVec 7)
  /-- R128. Clears the sign bit. -/
  | fabs (u : Bool) (d a : BitVec 7)
  /-- R128. Inverts the sign bit. -/
  | fneg (u : Bool) (d a : BitVec 7)
  /-- R128. Copies the sign of b onto a. -/
  | fcpys (m : OpMode) (d a b : BitVec 7)
  /-- R130. Rounds to an integral FP32 value by a given mode. -/
  | frnd (u : Bool) (d a : BitVec 7) (m : BitVec 3)
  /-- R131. Writes a one-hot class mask of an FP32 value. -/
  | fclass (u : Bool) (d a : BitVec 7)
  /-- R128. Multiplies by a power of two. -/
  | fscale (m : OpMode) (d a b : BitVec 7)
  /-- R128. Correctly rounded FP32 division. -/
  | fdiv (m : OpMode) (d a b : BitVec 7)
  /-- R132. Packed FP16 addition. -/
  | hadd2 (m : OpMode) (d a b : BitVec 7)
  /-- R132. Packed FP16 multiplication. -/
  | hmul2 (m : OpMode) (d a b : BitVec 7)
  /-- R132. Packed FP16 fused multiply-add. -/
  | hfma2 (m : OpMode) (d a b : BitVec 7)
  /-- R132. Packed FP16 minimum. -/
  | hmin2 (m : OpMode) (d a b : BitVec 7)
  /-- R132. Packed FP16 maximum. -/
  | hmax2 (m : OpMode) (d a b : BitVec 7)
  /-- R132. Packed BF16 addition. -/
  | badd2 (m : OpMode) (d a b : BitVec 7)
  /-- R132. Packed BF16 multiplication. -/
  | bmul2 (m : OpMode) (d a b : BitVec 7)
  /-- R132. Packed BF16 fused multiply-add. -/
  | bfma2 (m : OpMode) (d a b : BitVec 7)
  /-- R132. Packed BF16 minimum. -/
  | bmin2 (m : OpMode) (d a b : BitVec 7)
  /-- R132. Packed BF16 maximum. -/
  | bmax2 (m : OpMode) (d a b : BitVec 7)
  /-- R133. FP16 pair dot product accumulated into FP32. -/
  | hdot2 (m : OpMode) (d a b : BitVec 7)
  /-- R133. BF16 pair dot product accumulated into FP32. -/
  | bdot2 (m : OpMode) (d a b : BitVec 7)
  /-- R134. Four binary8 products accumulated into FP32. -/
  | qdot4 (m : OpMode) (d a b : BitVec 7)
  /-- R135. Signed byte dot product accumulation. -/
  | idot4s (m : OpMode) (d a b : BitVec 7)
  /-- R135. Unsigned byte dot product accumulation. -/
  | idot4u (m : OpMode) (d a b : BitVec 7)
  /-- R135. Signed INT4 dot product accumulation. -/
  | idot8 (m : OpMode) (d a b : BitVec 7)
  /-- R136. Converts between floating-point formats. -/
  | cvtff (u : Bool) (d a : BitVec 7) (x y : BitVec 2) (m : BitVec 3)
  /-- R137. Converts FP32 to an integer with saturation. -/
  | cvtfi (u : Bool) (d a : BitVec 7) (y : BitVec 2) (m : BitVec 3)
  /-- R138. Converts an integer to a floating-point format. -/
  | cvtif (u : Bool) (d a : BitVec 7) (y : BitVec 2) (g : Bool) (m : BitVec 3)
  /-- R139. Saturates an integer to another width or signedness. -/
  | cvtii (u : Bool) (d a : BitVec 7) (w : BitVec 2) (t v : Bool)
  /-- R140. Packs four FP32 values into binary8 codes. -/
  | packb8 (m : OpMode) (d a b : BitVec 7)
  /-- R141. Decodes one binary8 code to FP32. -/
  | unpkb8 (u : Bool) (d a : BitVec 7) (p : BitVec 3) (e x : Bool) (j : BitVec 2)
  /-- R142. Packs eight bytes into saturated INT4 elements. -/
  | packi4 (m : OpMode) (d a b : BitVec 7)
  /-- R142. Extracts one 4-bit element. -/
  | unpki4 (u : Bool) (d a : BitVec 7) (x : Bool) (j : BitVec 3)
  /-- R143. Absolute maximum over the issue group. -/
  | qmaxb (d a : BitVec 7)
  /-- R144. Computes the block tag of the quantiser rule for 64 values. -/
  | qpick (u : Bool) (d a i : BitVec 7)
  /-- R145. Returns a stochastic-rounding draw. -/
  | srnd (u : Bool) (d i : BitVec 7)
  /-- R146. Returns the unbiased exponent of an FP32 value. -/
  | fexp (u : Bool) (d a : BitVec 7)
  /-- R149. Table-based reciprocal. -/
  | rcp (u : Bool) (d a : BitVec 7)
  /-- R149. Table-based reciprocal square root. -/
  | rsq (u : Bool) (d a : BitVec 7)
  /-- R150. Correctly rounded square root. -/
  | sqrt (u : Bool) (d a : BitVec 7)
  /-- R151. Base-2 exponential on the exponent engine. -/
  | ex2 (u : Bool) (d a : BitVec 7)
  /-- R149. Base-2 logarithm. -/
  | lg2 (u : Bool) (d a : BitVec 7)
  /-- R152. Sine of pi times x. -/
  | sinpi (u : Bool) (d a : BitVec 7)
  /-- R152. Cosine of pi times x. -/
  | cospi (u : Bool) (d a : BitVec 7)
  /-- R153. Hyperbolic tangent. -/
  | tanh (u : Bool) (d a : BitVec 7)
  /-- R154. Reciprocal of two FP16 elements. -/
  | rcph (u : Bool) (d a : BitVec 7)
  /-- R154. Base-2 exponential of two FP16 elements. -/
  | ex2h (u : Bool) (d a : BitVec 7)
  /-- R155. Writes a = b to a predicate. -/
  | iseteq (m : OpMode) (d a b : BitVec 7)
  /-- R155. Writes a != b to a predicate. -/
  | isetne (m : OpMode) (d a b : BitVec 7)
  /-- R155. Signed less-than compare. -/
  | isetlt (m : OpMode) (d a b : BitVec 7)
  /-- R155. Signed less-or-equal compare. -/
  | isetle (m : OpMode) (d a b : BitVec 7)
  /-- R155. Unsigned less-than compare. -/
  | isetltu (m : OpMode) (d a b : BitVec 7)
  /-- R155. Unsigned less-or-equal compare. -/
  | isetleu (m : OpMode) (d a b : BitVec 7)
  /-- R156. FP32 equality compare. -/
  | fseteq (m : OpMode) (d a b : BitVec 7)
  /-- R156. FP32 inequality compare. -/
  | fsetne (m : OpMode) (d a b : BitVec 7)
  /-- R156. FP32 less-than compare. -/
  | fsetlt (m : OpMode) (d a b : BitVec 7)
  /-- R156. FP32 less-or-equal compare. -/
  | fsetle (m : OpMode) (d a b : BitVec 7)
  /-- R156. FP32 unordered test. -/
  | fsetun (m : OpMode) (d a b : BitVec 7)
  /-- R157. Predicate AND. -/
  | pand (d a b : BitVec 7)
  /-- R157. Predicate OR. -/
  | por (d a b : BitVec 7)
  /-- R157. Predicate XOR. -/
  | pxor (d a b : BitVec 7)
  /-- R157. Predicate AND-NOT. -/
  | pandn (d a b : BitVec 7)
  /-- R157. Writes a predicate as 0 or 1 to a vector register. -/
  | ptov (d a : BitVec 7)
  /-- R159. Indexed lane shuffle. -/
  | shfli (d a b : BitVec 7)
  /-- R159. Shuffle from lane l minus k. -/
  | shflu (d a k : BitVec 7)
  /-- R159. Shuffle from lane l plus k. -/
  | shfld (d a k : BitVec 7)
  /-- R159. Shuffle from lane l xor k. -/
  | shflx (d a k : BitVec 7)
  /-- R160. Vote: predicate true in every participating lane. -/
  | vall (d a : BitVec 7)
  /-- R160. Vote: predicate true in some participating lane. -/
  | vany (d a : BitVec 7)
  /-- R160. Ballot mask of a predicate. -/
  | vbal (d a : BitVec 7)
  /-- R160. Mask of lanes with an equal value. -/
  | vmatch (d a : BitVec 7)
  /-- R159. Broadcasts lane k's value. -/
  | rdlane (d a k : BitVec 7)
  /-- R161. Integer sum over participating lanes. -/
  | redsumi (d a : BitVec 7)
  /-- R161. Exact FP32 sum over lanes rounded once. -/
  | redsumf (d a : BitVec 7)
  /-- R161. Inclusive integer prefix sum. -/
  | scansumi (d a : BitVec 7)
  /-- R161. Inclusive exact FP32 prefix sum. -/
  | scansumf (d a : BitVec 7)
  /-- R160. Sets the predicate true only in the lowest participating lane. -/
  | elect (d : BitVec 7)
  /-- R160. Writes the mask of participating lanes. -/
  | bmask (d : BitVec 7)
  /-- R163. PC-relative branch. -/
  | bra (i : BitVec 21)
  /-- R163. Branch to a 64-bit register pair. -/
  | brx (a : BitVec 7)
  /-- R164. Pushes the return address and branches. -/
  | call (i : BitVec 21)
  /-- R164. Pushes the return address and branches to a register pair. -/
  | callx (a : BitVec 7)
  /-- R166. Takes TC_SOFT. -/
  | trap (i : BitVec 14)
  /-- R166. Takes TC_BPT. -/
  | bpt (i : BitVec 14)
  /-- R168. Arms a watch on a 64-byte block. -/
  | marm (a : BitVec 7)
  /-- R169. Sets the vector window base. -/
  | winv (i : BitVec 14)
  /-- R169. Sets the uniform window base. -/
  | wins (i : BitVec 14)
  /-- R196. Plain load of a byte, zero-extended. -/
  | ld8 (d a i : BitVec 7)
  /-- R196. Plain load of a byte, sign-extended. -/
  | ld8s (d a i : BitVec 7)
  /-- R196. Plain load of a halfword, zero-extended. -/
  | ld16 (d a i : BitVec 7)
  /-- R196. Plain load of a halfword, sign-extended. -/
  | ld16s (d a i : BitVec 7)
  /-- R196. Plain load of a word. -/
  | ld32 (d a i : BitVec 7)
  /-- R196. Plain load of a pair. -/
  | ld64 (d a i : BitVec 7)
  /-- R196. Plain load of a quad. -/
  | ld128 (d a i : BitVec 7)
  /-- R196. Plain store of a byte into the version. -/
  | st8 (d a i : BitVec 7)
  /-- R196. Plain store of a halfword. -/
  | st16 (d a i : BitVec 7)
  /-- R196. Plain store of a word. -/
  | st32 (d a i : BitVec 7)
  /-- R196. Plain store of a pair. -/
  | st64 (d a i : BitVec 7)
  /-- R196. Plain store of a quad. -/
  | st128 (d a i : BitVec 7)
  /-- R179. Scratchpad load of 4 bytes in passes. -/
  | ls32 (d a i : BitVec 7)
  /-- R179. Scratchpad load of 8 bytes. -/
  | ls64 (d a i : BitVec 7)
  /-- R179. Scratchpad load of 16 bytes. -/
  | ls128 (d a i : BitVec 7)
  /-- R179. Scratchpad store of 4 bytes. -/
  | ss32 (d a i : BitVec 7)
  /-- R179. Scratchpad store of 8 bytes. -/
  | ss64 (d a i : BitVec 7)
  /-- R179. Scratchpad store of 16 bytes. -/
  | ss128 (d a i : BitVec 7)
  /-- R184. Pops the oldest row of a FIFO bank. -/
  | lq (q : BitVec 4) (d : BitVec 7)
  /-- R184. Pushes one row into a FIFO bank. -/
  | sq (q : BitVec 4) (a : BitVec 7)
  /-- R196. Reads a block tag. -/
  | ltag (d a i : BitVec 7)
  /-- R196. Writes a block tag as a plain store. -/
  | stag (d a i : BitVec 7)
  /-- R198. Strong 32-bit load at a scope and order. -/
  | lda32 (d a : BitVec 7) (o : BitVec 2) (h : BitVec 3)
  /-- R198. Strong 64-bit load. -/
  | lda64 (d a : BitVec 7) (o : BitVec 2) (h : BitVec 3)
  /-- R198. Strong 32-bit store. -/
  | sta32 (d a : BitVec 7) (o : BitVec 2) (h : BitVec 3)
  /-- R198. Strong 64-bit store. -/
  | sta64 (d a : BitVec 7) (o : BitVec 2) (h : BitVec 3)
  /-- R200. Prefetch hint. -/
  | pref (a i : BitVec 7)
  /-- R199. Reads 4 bytes of a KV row by DPA. -/
  | ldk32 (d a i : BitVec 7)
  /-- R199. Reads 8 bytes of a KV row by DPA. -/
  | ldk64 (d a i : BitVec 7)
  /-- R199. Reads a KV page's sequence counter with acquire. -/
  | lsk32 (d a : BitVec 7)
  /-- R201. Atomic add. -/
  | aadd (d a b : BitVec 7) (t : AtomAttr)
  /-- R201. Atomic signed minimum. -/
  | amin (d a b : BitVec 7) (t : AtomAttr)
  /-- R201. Atomic signed maximum. -/
  | amax (d a b : BitVec 7) (t : AtomAttr)
  /-- R201. Atomic unsigned minimum. -/
  | aminu (d a b : BitVec 7) (t : AtomAttr)
  /-- R201. Atomic unsigned maximum. -/
  | amaxu (d a b : BitVec 7) (t : AtomAttr)
  /-- R201. Atomic AND. -/
  | aand (d a b : BitVec 7) (t : AtomAttr)
  /-- R201. Atomic OR. -/
  | aor (d a b : BitVec 7) (t : AtomAttr)
  /-- R201. Atomic XOR. -/
  | axor (d a b : BitVec 7) (t : AtomAttr)
  /-- R201. Atomic exchange. -/
  | axchg (d a b : BitVec 7) (t : AtomAttr)
  /-- R201. Atomic compare-and-swap. -/
  | acas (d a b : BitVec 7) (t : AtomAttr)
  /-- R201. Atomic FP32 add rounded to nearest. -/
  | afadd (d a b : BitVec 7) (t : AtomAttr)
  /-- R201. Atomic FP32 maximum ignoring NaN. -/
  | afmax (d a b : BitVec 7) (t : AtomAttr)
  /-- R201. Atomic wrapping increment. -/
  | ainc (d a b : BitVec 7) (t : AtomAttr)
  /-- R201. Atomic wrapping decrement. -/
  | adec (d a b : BitVec 7) (t : AtomAttr)
  /-- R36. Orders strong and scratchpad accesses at a scope. -/
  | fence (k : BitVec 2) (h : BitVec 3)
  /-- R223. Creates an empty group. -/
  | gnew (d : BitVec 7)
  /-- R223. Leaves the current group and joins another. -/
  | gjoin (a : BitVec 7)
  /-- R223. Frees a group record if it has no members. -/
  | gfree (d a : BitVec 7)
  /-- R223. Writes the mask of live group members in the bench. -/
  | gmask (d : BitVec 7)
  /-- R227. Arrives at a barrier slot. -/
  | barr (n : BitVec 6) (v : BitVec 7) (r u : Bool) (e : BitVec 2)
  /-- R227. Parks until the slot's generation changes. -/
  | bwait (n : BitVec 6) (v : BitVec 7) (r u : Bool) (e : BitVec 2)
  /-- R227. Arrives and waits for the arrival generation. -/
  | bsync (n : BitVec 6) (v : BitVec 7) (r u : Bool) (e : BitVec 2)
  /-- R227. Adds expectations to a slot. -/
  | bexpect (n : BitVec 6) (v : BitVec 7) (u : Bool) (e : BitVec 2)
  /-- R227. Satisfies one expectation of a slot. -/
  | bdone (n : BitVec 6) (u : Bool) (e : BitVec 2)
  /-- R208. Submits task descriptors per lane. -/
  | tsub (d a : BitVec 7)
  /-- R230. Parks until a timeline reaches a value, with acquire. -/
  | tlwait (h : BitVec 6) (v : BitVec 7)
  /-- R230. Reads a timeline's current value. -/
  | tlread (v : BitVec 7) (h : BitVec 6)
  /-- R230. Raises a software timeline word with release. -/
  | tlsig (h : BitVec 6) (v : BitVec 7)
  /-- R226. Reads a barrier slot's state snapshot. -/
  | bqrySlot (n : BitVec 6) (v : BitVec 7) (u : Bool) (e : BitVec 2)
  /-- R243. Queues a copy of dense weight blocks into the weight buffer. -/
  | mldw (n : BitVec 3) (a c : BitVec 7)
  /-- R245. Queues a copy and decode of ODF records. -/
  | mldwd (n : BitVec 3) (a c : BitVec 7)
  /-- R242. Queues a dense multiply-accumulate into a tile. -/
  | mma (t m : BitVec 2) (n : BitVec 3) (a c : BitVec 7)
  /-- R246. Queues an ordered-difference multiply-accumulate. -/
  | mmad (t m : BitVec 2) (n : BitVec 3) (a c : BitVec 7)
  /-- R248. Queues zeroing of tile rows and flags. -/
  | mzero (t m : BitVec 2)
  /-- R251. Queues a rounding drain of tile rows to scratchpad. -/
  | mdrain (t m : BitVec 2) (a c : BitVec 7)
  /-- R252. Queues a drain with a transposed copy. -/
  | mdraint (t : BitVec 2) (a c : BitVec 7)
  /-- R255. Queues adding tile rows into a peer drawer's tile. -/
  | mdrainp (t m : BitVec 2) (a c : BitVec 7)
  /-- R248. Queues a row-sum reduction into column 0. -/
  | mreds (t m : BitVec 2) (n : BitVec 3) (a : BitVec 7)
  /-- R248. Queues a row prefix-sum into the tile. -/
  | mscan (t m : BitVec 2) (a : BitVec 7)
  /-- R249. Queues a reload of tile rows from a deep spill. -/
  | mldz (t m : BitVec 2) (a : BitVec 7)
  /-- R249. Queues a deep spill of tile rows. -/
  | mstz (t m : BitVec 2) (a c : BitVec 7)
  /-- R257. Reads MXU ASN, flags or fault record at issue. -/
  | mstat (t : BitVec 2) (l : Bool) (sel : BitVec 3) (a : BitVec 7)
  /-- R284. Checks a packet and enters it into the core's local BTE queue. -/
  | bcopy (d a : BitVec 7)
  /-- R285. Cancels a BTE operation. -/
  | bcancel (d a b : BitVec 7)
  /-- R286. Reads a BTE queue's fault record and occupancy. -/
  | bqryQueue (d a : BitVec 7)
  /-- R297. Translates token positions into KV row addresses. -/
  | kvx (d a b : BitVec 7)
  /-- R299. Writes and links one token per lane into the KV arena. -/
  | kvput (d a b : BitVec 7)
  /-- R303. Raises a KV page's pin count. -/
  | kvpin (d a b : BitVec 7)
  /-- R303. Lowers a KV page's pin count, freeing a deferred page. -/
  | kvunpin (d a b : BitVec 7)
  /-- R304. Drops a sequence's reference to a KV page. -/
  | kvfree (d a b : BitVec 7)
  /-- R306. Checks a start block, claims the MXU and queues an attention run. -/
  | astart (d a : BitVec 7)
  /-- R307. Writes microwords into the ASQ control store. -/
  | amload (d a : BitVec 7)
  /-- R302. Loads a projection matrix and raises its epoch. -/
  | aproj (d a b : BitVec 7)
  /-- R308. Reads an attention run's record. -/
  | astat (d a : BitVec 7)
  /-- R186. Starts an access-processor program. -/
  | apstart (d a b : BitVec 7)
  /-- R186. Stops an access-processor program. -/
  | apstop (d b : BitVec 7)
  /-- R186. Pushes words into an access-processor mailbox. -/
  | appush (a b : BitVec 7)
  /-- R186. Pops words from an access-processor mailbox. -/
  | apfetch (d b : BitVec 7)
  /-- R310. Micro-op writing the token list length. -/
  | cntTl (ra : BitVec 4)
  /-- R310. Micro-op writing the chunk count. -/
  | cntChunks (ra : BitVec 4)
  /-- R310. Micro-op writing m0. -/
  | cntLen (ra : BitVec 4)
  /-- R310. Micro-op writing the valid chunk entries. -/
  | cntAct (ra : BitVec 4)
  /-- R310. Micro-op adding an immediate to a micro register. -/
  | cntAdd (ra rb : BitVec 4) (n : BitVec 20)
  /-- R315. Micro-op pinning pages and issuing gathers of a chunk. -/
  | gath (ra : BitVec 4)
  /-- R310. Micro-op unconditional branch. -/
  | br (tgt : BitVec 12)
  /-- R310. Micro-op conditional branch. -/
  | brc (ra rb : BitVec 4) (tgt : BitVec 12) (cond : BitVec 4)
  /-- R310. Micro-op decrement and branch. -/
  | loop (ra : BitVec 4) (tgt : BitVec 12)
  /-- R316. Micro-op ending the run, dropping pins and advancing t8. -/
  | microHalt (code : Bool)
  /-- R60. Guards the next 1 to 8 instructions by a predicate. -/
  | grd (p : BitVec 7) (n : Bool) (l : BitVec 3)
  /-- R61. Issues the next instruction 1 to 64 times with stepped fields. -/
  | rep (c : BitVec 6) (x y z : BitVec 3)
  /-- R375. Initialises a SHA-384 state in uniform registers. -/
  | hinit (d : BitVec 7)
  /-- R375. Absorbs 128-byte blocks into a SHA-384 state. -/
  | habs (d a b : BitVec 7)
  /-- R375. Absorbs final bytes, pads and writes the digest. -/
  | hfin (d a b : BitVec 7)
  /-- R382. Pops the oldest event record. -/
  | evtpop (d : BitVec 7) (n : Bool)
  /-- R164. Pops the return stack and branches. -/
  | ret
  /-- R165. Ends the thread and leaves its group. -/
  | exit
  /-- R166. No effect; with S set a pure stop. -/
  | nop
  /-- R167. Parks the thread for one issue opportunity. -/
  | yield
  /-- R168. Parks until the watched block is written. -/
  | mwait
  /-- R170. Returns from a trap handler to tpc. -/
  | eret
  /-- R171. Stops the bench precisely and raises a Bureau event. -/
  | halt
  /-- R39. Orders generic-path scratchpad stores before engine-path reads. -/
  | fencex
  /-- R218. Parks the thread until all live threads reach PHASE. -/
  | phase
  /-- R42. Orders earlier stores before later instruction fetches. -/
  | ifence
  /-- R223. Leaves the current group. -/
  | gleave
  /-- R175. Sets the world's bank modes. -/
  | bankcfg (d a b : BitVec 7)
  /-- R369. Creates a world with a translation root. -/
  | worldcfgCreate (d a : BitVec 7)
  /-- R369. Sets a world's trap vector. -/
  | worldcfgTvec (d a : BitVec 7)
  /-- R369. Moves drawers to a world and clears them. -/
  | worldcfgDrawers (d a : BitVec 7)
  /-- R369. Moves core SRAM banks to a world. -/
  | worldcfgBanks (d a : BitVec 7)
  /-- R369. Replaces a world's translation root. -/
  | worldcfgRoot (d a : BitVec 7)
  /-- R369. Destroys a world. -/
  | worldcfgDestroy (d a : BitVec 7)
  /-- R387. Sets a world's thread-local pool. -/
  | worldcfgTlpool (d a : BitVec 7)
  /-- R193. Removes translations of one world and address. -/
  | tlbinvAddress (a b : BitVec 7)
  /-- R193. Removes every translation of a world. -/
  | tlbinvWorld (a b : BitVec 7)
  /-- R193. Removes every translation of every world. -/
  | tlbinvAll (a b : BitVec 7)
  /-- R370. Installs a confidential world's data or MAC key. -/
  | keyld (d a : BitVec 7)
  /-- R356. Writes the lease engine configuration. -/
  | lsetConfig (d a b : BitVec 7)
  /-- R356. Offers a pool extent to a borrower. -/
  | lsetOffer (d a b : BitVec 7)
  /-- R356. Accepts an offered lease. -/
  | lsetAccept (d a b : BitVec 7)
  /-- R356. Declines an offered lease. -/
  | lsetDecline (d a b : BitVec 7)
  /-- R356. Requests renewal of a granted lease. -/
  | lsetRenew (d a b : BitVec 7)
  /-- R356. Sets the prefetch range and enable of a borrowed lease. -/
  | lsetPfetch (d a b : BitVec 7)
  /-- R356. Frees a lease table entry. -/
  | lsetFree (d a b : BitVec 7)
  /-- R350. Starts a fabric-manager election. -/
  | lsetElect (d a b : BitVec 7)
  /-- R357. Reads bytes 0x00-0x0F of a lease entry. -/
  | lgetEntryLow (d a : BitVec 7)
  /-- R357. Reads bytes 0x10-0x1F of a lease entry. -/
  | lgetEntryHigh (d a : BitVec 7)
  /-- R357. Reads the fabric status snapshot. -/
  | lgetFabricStatus (d a : BitVec 7)
  /-- R358. Recalls a lent lease or gives back a borrowed one. -/
  | lrecall (d a : BitVec 7)
  /-- R359. Snoops a borrower's copies of a lent extent. -/
  | bisnp (d a b : BitVec 7)
  /-- R376. Signs a digest with the device identity key. -/
  | sign (d a b : BitVec 7)
  /-- R377. Extends a measurement register. -/
  | mext (d a b : BitVec 7)
  /-- R378. Increments or creates a counter record. -/
  | nvinc (d a : BitVec 7)
  /-- R379. Increments a counter record and writes a signed token. -/
  | seal (d a b : BitVec 7)
  /-- R379. Checks a seal token against its record. -/
  | unseal (d a : BitVec 7)
  /-- R334. Checks a descriptor and queues a delta checkpoint. -/
  | snap (d a : BitVec 7)
  /-- R338. Queues a scrub of a pool extent. -/
  | scrub (d a b : BitVec 7)
  /-- R384. Writes the summary record to a buffer. -/
  | resync (d a : BitVec 7)
  /-- R382. Posts an IPI record to a steward's event queue. -/
  | ipi (a b : BitVec 7)
  /-- R385. Reads one capability entry. -/
  | capr (d a : BitVec 7)
  /-- R383. Sets the preferred tier of pages. -/
  | placePrefer (d a b : BitVec 7)
  /-- R383. Stops pages from migrating. -/
  | placePin (d a b : BitVec 7)
  /-- R383. Lets pinned pages migrate again. -/
  | placeUnpin (d a b : BitVec 7)
  /-- R383. Limits local frames for prefetch of a lease. -/
  | placeFrames (d a b : BitVec 7)
  /-- R310. Micro-op reading records and query blocks and clearing run state. -/
  | qload
  /-- R310. Micro-op computing query signatures. -/
  | sig
  /-- R312. Micro-op walking bucket chains into the gather list. -/
  | kwalk
  /-- R310. Micro-op setting the token list to all positions. -/
  | tlstDense
  /-- R310. Micro-op setting the token list to the gather list and window. -/
  | tlstGathered
  /-- R315. Micro-op waiting for gathers and re-checking page counters. -/
  | sync
  /-- R310. Micro-op issuing MLDW of staged keys. -/
  | kload
  /-- R310. Micro-op issuing MLDW of staged values. -/
  | vload
  /-- R310. Micro-op computing scaled scores through the MXU. -/
  | smm
  /-- R310. Micro-op masking invalid score columns. -/
  | mask
  /-- R310. Micro-op computing new running maxima. -/
  | rmax
  /-- R310. Micro-op rescaling running sums and output. -/
  | resc
  /-- R310. Micro-op computing probabilities on the exponent engine. -/
  | exps
  /-- R310. Micro-op adding probabilities into the running sum. -/
  | rsum
  /-- R310. Micro-op accumulating P times V into the output buffer. -/
  | pmm
  /-- R310. Micro-op writing the normalised output. -/
  | sto
  /-- R310. Micro-op writing the logsumexp. -/
  | lse
  /-- R313. Micro-op falling back to dense or trapping. -/
  | fbk
  /-- R310. Micro-op waiting for the run's commands to complete. -/
  | waitz
  /-- R56. An outstanding long-latency result returns and is written to its register. -/
  | resultWriteback (p : Place) (lane k : Nat)
  /-- R105. Fills a free active place with the longest-ready fitting bench. -/
  | benchAdmit (p : Place)
  /-- R368. A bench that issued nothing for WDOG clocks takes TC_WATCHDOG. -/
  | watchdogExpiry (p : Place)
  /-- R47. A MAC check of forwarded load data ends, releasing waiting effects or failing. -/
  | integrityCheckComplete (k : Nat)
  /-- R207. Accepts or refuses a submission at the home task unit and fixes dependences. -/
  | taskAccept (k : Nat)
  /-- R209. The task unit consumes a stamped task-queue slot. -/
  | taskQueueConsume (q : Nat)
  /-- R213. Places a READY task whole and binds its slots. -/
  | taskDispatch (id : Nat) (ps : List Place)
  /-- R217. Performs the final commit after the last EXIT. -/
  | taskCommit (id : Nat)
  /-- R218. Pins, commits the version so far and renews the snapshot. -/
  | phaseCommit (id : Nat)
  /-- R112. The Bureau requeues a discarded task. -/
  | taskRequeue (id : Nat)
  /-- R212. The Bureau fails a task and its dependents. -/
  | taskFail (id : Nat)
  /-- R114. The Bureau resumes a stopped bench, replaying rmask lanes. -/
  | benchResume (p : Place)
  /-- R221. Restores a saved bench when its slot is free. -/
  | benchRestore (p : Place)
  /-- R168. Wakes a thread from MWAIT without a write. -/
  | spuriousWakeup (p : Place) (lane : Nat)
  /-- R234. Executes the next queued MXU command and advances its timeline. -/
  | mxuCommandExecute (core drw : Nat)
  /-- R255. A target MXU receives a peer-drain packet. -/
  | peerRowReceive (k : Nat)
  /-- R255. The sender receives a peer-drain acknowledgement. -/
  | peerAckReceive (core drw : Nat) (seq : BitVec 32)
  /-- R255. Resends peer-drain packets after a link error. -/
  | peerResend (core drw : Nat)
  /-- R265. The bound engine consumes a stamped queue slot. -/
  | queueSlotConsume (q : Nat)
  /-- R271. BTE operation copying elements with their tags. -/
  | copy (q : QId) (n : Nat)
  /-- R277. BTE operation adding the source into the destination. -/
  | reducingCopy (q : QId) (n : Nat)
  /-- R272. BTE operation transposing a 2-D layout. -/
  | transpose (q : QId) (n : Nat)
  /-- R273. BTE operation quantising into a block format. -/
  | quant (q : QId) (n : Nat)
  /-- R273. BTE operation dequantising to a float format. -/
  | dequant (q : QId) (n : Nat)
  /-- R271. BTE operation permuting dimensions, optionally converting. -/
  | swizzle (q : QId) (n : Nat)
  /-- R271. BTE operation gathering rows by an index list. -/
  | gather (q : QId) (n : Nat)
  /-- R272. BTE operation forming image columns. -/
  | im2col (q : QId) (n : Nat)
  /-- R271. BTE operation zero-filling the destination. -/
  | zero (q : QId) (n : Nat)
  /-- R271. BTE operation moving lines with tags and epoch copies. -/
  | migrate (q : QId) (n : Nat)
  /-- R182. A BTE destination block lands and its presence count falls. -/
  | bteBlockLand (q : QId) (n : Nat)
  /-- R281. Writes the completion record and advances the queue timeline. -/
  | bteOperationComplete (q : QId) (n : Nat)
  /-- R278. A receiving BTE applies or discards a fabric reducing block. -/
  | reduceBlockReceive (pkt : ReducePkt)
  /-- R305. The ASQ begins the next queued run at its entry. -/
  | asqRunStart (core : Nat)
  /-- R335. The DCE writes a delta checkpoint and manifest. -/
  | snapExecute
  /-- R339. The DCE zeroes and verifies an extent and writes a signed receipt. -/
  | scrubExecute
  /-- R326. The SDC evicts a logical line. -/
  | sdcEvict (line : Nat) (copy : SdcCopy)
  /-- R43. The placement unit starts moving a page between tiers. -/
  | pageMigration (src dst : Nat)
  /-- R43. A migrating line moves to its new home as one unit. -/
  | migrationSwitchover (line : Nat)
  /-- R214. A 100 us intensity window ends and classes are recomputed. -/
  | classifierWindow
  /-- R344. A borrower receives an offer message. -/
  | offer (msg : LeaseMsg)
  /-- R344. A lender receives an accept message. -/
  | accept (msg : LeaseMsg)
  /-- R344. A lender receives a decline message. -/
  | decline (msg : LeaseMsg)
  /-- R344. A borrower receives a grant message. -/
  | grant (msg : LeaseMsg)
  /-- R344. A borrower receives a NAK message. -/
  | nak (msg : LeaseMsg)
  /-- R344. A borrower receives a recall and starts its flush. -/
  | recall (msg : LeaseMsg)
  /-- R344. A lender receives a release message. -/
  | release (msg : LeaseMsg)
  /-- R344. A lender receives a renew request. -/
  | renew (msg : LeaseMsg)
  /-- R344. A borrower receives a renewal. -/
  | renewed (msg : LeaseMsg)
  /-- R344. A borrower receives a renewal refusal. -/
  | refused (msg : LeaseMsg)
  /-- R359. A borrower answers a data snoop by writing back dirty lines. -/
  | bisnpdata (msg : LeaseMsg) (first count : Nat)
  /-- R359. A borrower answers an invalidating snoop. -/
  | bisnpinv (msg : LeaseMsg) (first count : Nat)
  /-- R344. A borrower's flush is acknowledged and RELEASE is sent. -/
  | leaseFlushComplete (idx : Nat)
  /-- R344. MSTIME reaches a lease's EXPIRY. -/
  | leaseExpiry (idx : Nat)
  /-- R344. MSTIME reaches EXPIRY minus WBLEAD; prefetch stops and pages write back. -/
  | wbleadExpiry (idx : Nat)
  /-- R344. An offer or recall window passes without an answer. -/
  | rcwinExpiry (idx : Nat)
  /-- R348. Writes the own heartbeat and reads peers' every millisecond. -/
  | hbeatTick (obs : List PeerObs)
  /-- R348. Declares a silent peer failed and excludes it. -/
  | peerDeclaredFailed (mid : Nat)
  /-- R348. A port path reports link down. -/
  | linkDown (port : Nat)
  /-- R349. A bulletin access from a peer executes at the owner's LSE. -/
  | bulletinAccess (req : BulletinReq)
  /-- R350. An election wait of SETTLE ms ends. -/
  | settleExpiry
  /-- R353. The LSE appends MIGRATE packets for hot borrowed pages. -/
  | leasePrefetch (idx : Nat)
  /-- R340. A lender serves a borrower's CXL.mem request. -/
  | cxlMemRequest (req : CxlReq)
  /-- R264. A host memory request or AtomicOp reaches device memory. -/
  | pcieMemoryRequest (req : HostReq)
  /-- R381. SPDM version request. -/
  | getVersion (ses : Nat)
  /-- R381. SPDM capabilities request. -/
  | getCapabilities (ses : Nat)
  /-- R381. SPDM algorithm negotiation. -/
  | negotiateAlgorithms (ses : Nat)
  /-- R381. SPDM certificate digests request. -/
  | getDigests (ses : Nat)
  /-- R381. SPDM certificate request for slot 0. -/
  | getCertificate (ses slot : Nat)
  /-- R381. SPDM challenge. -/
  | challenge (ses : Nat)
  /-- R381. SPDM request reporting measurement registers. -/
  | getMeasurements (ses : Nat) (index : BitVec 8)
  /-- R381. SPDM session key exchange. -/
  | keyExchange (ses : Nat) (approved : Bool)
  /-- R381. SPDM session finish. -/
  | finish (ses : Nat)
  /-- R381. SPDM session heartbeat. -/
  | heartbeat (ses : Nat)
  /-- R381. SPDM session key update. -/
  | keyUpdate (ses : Nat)
  /-- R381. SPDM session end. -/
  | endSession (ses : Nat)
  /-- R380. A peer trust root receives a counter record export. -/
  | recordExport (x : RecordMsg)
  /-- R384. Vendor request producing a summary record over SPDM. -/
  | spdmResync (ses : Nat)
  /-- R380. The source receives an export acknowledgement and retires the record. -/
  | recordExportAck (x : RecordMsg)
  /-- R380. The source receives an export refusal. -/
  | recordBusy (x : RecordMsg)
  /-- R380. No answer to an export arrives; XSTAT becomes NOACK. -/
  | recordExportTimeout
  /-- R367. Registers a memory queue from the control block. -/
  | qcmdRegister
  /-- R367. Unregisters a memory queue. -/
  | qcmdUnregister
  /-- R367. Registers a world's KV arena. -/
  | arenaRegister
  /-- R367. Unregisters a world's KV arena. -/
  | arenaUnregister
  /-- R220. Starts vacating a set of cores. -/
  | vcmdVacate
  /-- R220. Returns vacated cores. -/
  | vcmdReturn
  /-- R220. The cores hold no bench state or engine work; VACATED is posted. -/
  | vacationComplete
  /-- R380. Starts exporting a counter record to a peer. -/
  | xpeerExport
  /-- R368. Selects the domain whose classifier counts are reported. -/
  | classifierSelect (v : BitVec 32)
  /-- R325. Sets a world's dedup mode, ignoring the reserved code. -/
  | ddcfgWrite (w : Nat) (v : BitVec 32)
  /-- R203. A write to an event counter clears it. -/
  | counterClear (dpa : Nat)
  /-- R366. Writes an MMIO register that has no behaviour of its own. -/
  | mmioRegisterWrite (dpa size : Nat) (v : BitVec 64)
  /-- R364. Reset runs the measured boot steps. -/
  | boot
  /-- R386. A die sensor passes its limit; the clock is lowered and THERMAL posted. -/
  | thermalLimit
  /-- R386. A power or coolant failure beyond limits is a device-level error. -/
  | powerFailure
  /-- R70. A thread issues a word that is not a valid instruction in its position and takes TC_ILLEGAL, TC_PROFILE, TC_PRIV, TC_RESFIELD or TC_REGRANGE on it. -/
  | malformedWord
  /-- R113. An instruction fetch fails translation or permission, including the fetch of a handler's first instruction or an X instruction's second word, and the trap is taken with no instruction issued. -/
  | fetchFault
  /-- R219. The Bureau resumes a pinned task whose commit was held by an engine fault record, clearing the record and continuing the commit from step 6. -/
  | heldCommitResume (id : Nat)
  /-- R219. The Bureau discards an unpinned STOPPED task, such as one with a halted bench. -/
  | stoppedTaskDiscard (id : Nat)
  /-- R340. A port finishes training, as CXL 3.x or as plain PCIe 7.0, at full or degraded width. -/
  | linkUp (port : Nat) (cxl : Bool) (width : Nat)
  /-- R40. The home module's acknowledgement of a remote write arrives: a BTE or reducing-copy block, a DCE record, a fabric-scope release or a bulletin write, so that the write counts as performed. -/
  | remoteWriteAck (k : Nat) (ans : RemoteAns)
  deriving DecidableEq, Repr

end Sys2Proof
end

