-- ==== Sys2Proof/WellFormed.lean ====
section
/-! DEFINITION. The static checks of an instruction word: what decoding refuses with TC_RESFIELD (`Instr.wf`) or with
TC_ILLEGAL although the opcode is assigned (`Instr.legal`). -/

namespace Sys2Proof

/-- A pair field names n and n+1, so 127 is refused (R119). -/
def pairOk (f : BitVec 7) : Bool := f.toNat < 127
/-- A quad field names n to n+3, so a value above 124 is refused (R119). -/
def quadOk (f : BitVec 7) : Bool := f.toNat ≤ 124
/-- Rounding-mode codes 5 and 6 are refused in an instruction (R83). -/
def modeOk (m : BitVec 3) : Bool := m.toNat != 5 && m.toNat != 6
/-- Scope codes 6 and 7 are reserved (Table 2.2). -/
def scopeOk (h : BitVec 3) : Bool := h.toNat < 6
/-- REP step codes 5 to 7 are reserved (R61). -/
def stepOk (x : BitVec 3) : Bool := x.toNat < 5
/-- Handles t11 to t15 are reserved (Table 8.8). -/
def handleOk (h : BitVec 6) : Bool := h.toNat < 11 || 16 ≤ h.toNat
/-- The target format codes of QPICK (R144). -/
def qpickOk (i : BitVec 7) : Bool := i.toNat == 1 || i.toNat == 2 || (64 ≤ i.toNat && !i.getLsbD 3 && i.toNat % 8 != 0)

/-- The CSR numbers of Table 5.2, each with its width and whether it is bench-uniform. -/
def csrInfo : Nat → Option (Bool × Bool)
  | 0x000 => some (false, false) | 0x001 => some (true, false) | 0x002 => some (false, false)
  | 0x010 => some (false, false) | 0x011 => some (false, false) | 0x012 => some (false, true)
  | 0x013 => some (false, true)  | 0x014 => some (false, true)  | 0x015 => some (false, true)
  | 0x016 => some (false, true)  | 0x017 => some (false, true)  | 0x018 => some (false, false)
  | 0x019 => some (true, true)   | 0x01A => some (false, false) | 0x01B => some (false, true)
  | 0x020 => some (false, true)  | 0x021 => some (true, false)  | 0x022 => some (false, false)
  | 0x023 => some (true, false)  | 0x030 => some (true, true)   | 0x031 => some (false, false)
  | 0x032 => some (true, false)  | 0x033 => some (true, false)  | 0x034 => some (false, false)
  | 0x035 => some (false, false) | 0x036 => some (false, false) | 0x038 => some (false, true)
  | 0x040 => some (false, false) | 0x041 => some (true, true)
  | _ => none

/-- A CSR that is listed, and bench-uniform under U=1 (R69, R110). -/
def csrOk (u : Bool) (i : BitVec 14) : Bool :=
  match csrInfo i.toNat with
  | some (_, uni) => !u || uni
  | none => false

/-- A 64-bit CSR names a pair (R119). -/
def csrPairOk (i : BitVec 14) (d : BitVec 7) : Bool :=
  match csrInfo i.toNat with
  | some (true, _) => pairOk d
  | _ => true

/-- The attribute word of an atomic: reserved codes (R54), orders (R32) and the uses R201 refuses. `cas` marks ACAS and
`fp` AFADD and AFMAX. -/
def atomOk (t : AtomAttr) (d b : BitVec 7) (cas fp : Bool) : Bool :=
  scopeOk t.scope && t.size.toNat < 2 && (t.ret || !t.ord.getLsbD 0) && (t.ret || d.toNat == 0)
    && (cas || t.cmp.toNat == 0) && (!fp || t.size.toNat == 0)
    && (t.size.toNat == 0 || (pairOk b && (!t.ret || pairOk d) && (!cas || pairOk t.cmp)))

/-- The static checks that refuse a word with TC_RESFIELD. -/
def Instr.wf : Instr → Bool
  | .iadd _ _ _ _ => true
  | .isub _ _ _ _ => true
  | .imul _ _ _ _ => true
  | .imulhs _ _ _ _ => true
  | .imulhu _ _ _ _ => true
  | .imad _ _ _ _ => true
  | .imulw _ d _ _ => pairOk d
  | .iadd64 _ d a _ => pairOk d && pairOk a
  | .isub64 _ d a _ => pairOk d && pairOk a
  | .imins _ _ _ _ => true
  | .iminu _ _ _ _ => true
  | .imaxs _ _ _ _ => true
  | .imaxu _ _ _ _ => true
  | .idivu _ _ _ _ => true
  | .idivs _ _ _ _ => true
  | .and _ _ _ _ => true
  | .or _ _ _ _ => true
  | .xor _ _ _ _ => true
  | .andn _ _ _ _ => true
  | .shl _ _ _ _ => true
  | .shr _ _ _ _ => true
  | .sar _ _ _ _ => true
  | .rol _ _ _ _ => true
  | .fshl _ _ _ _ => true
  | .fshr _ _ _ _ => true
  | .bfxu _ _ _ _ => true
  | .bfxs _ _ _ _ => true
  | .bfi _ _ _ _ => true
  | .popc _ _ _ => true
  | .clz _ _ _ => true
  | .brev _ _ _ => true
  | .mov _ _ _ => true
  | .movi _ _ _ => true
  | .movhi _ _ _ => true
  | .ldi32 _ _ _ => true
  | .iaddi _ _ _ _ => true
  | .imuli _ _ _ _ => true
  | .andi _ _ _ _ => true
  | .ori _ _ _ _ => true
  | .xori _ _ _ _ => true
  | .shli _ _ _ i => i.toNat < 32
  | .shri _ _ _ i => i.toNat < 32
  | .sari _ _ _ i => i.toNat < 32
  | .lea4 _ d a _ => pairOk d && pairOk a
  | .lea8 _ d a _ => pairOk d && pairOk a
  | .csrr _ d i => csrPairOk i d
  | .csrw _ d i => csrPairOk i d
  | .fadd _ _ _ _ => true
  | .fsub _ _ _ _ => true
  | .fmul _ _ _ _ => true
  | .ffma _ _ _ _ => true
  | .ffms _ _ _ _ => true
  | .fmin _ _ _ _ => true
  | .fmax _ _ _ _ => true
  | .fminn _ _ _ _ => true
  | .fmaxn _ _ _ _ => true
  | .fabs _ _ _ => true
  | .fneg _ _ _ => true
  | .fcpys _ _ _ _ => true
  | .frnd _ _ _ m => modeOk m
  | .fclass _ _ _ => true
  | .fscale _ _ _ _ => true
  | .fdiv _ _ _ _ => true
  | .hadd2 _ _ _ _ => true
  | .hmul2 _ _ _ _ => true
  | .hfma2 _ _ _ _ => true
  | .hmin2 _ _ _ _ => true
  | .hmax2 _ _ _ _ => true
  | .badd2 _ _ _ _ => true
  | .bmul2 _ _ _ _ => true
  | .bfma2 _ _ _ _ => true
  | .bmin2 _ _ _ _ => true
  | .bmax2 _ _ _ _ => true
  | .hdot2 _ _ _ _ => true
  | .bdot2 _ _ _ _ => true
  | .qdot4 _ _ _ _ => true
  | .idot4s _ _ _ _ => true
  | .idot4u _ _ _ _ => true
  | .idot8 _ _ _ _ => true
  | .cvtff _ _ _ x y m => x.toNat < 3 && y.toNat < 3 && modeOk m
  | .cvtfi _ _ _ _ m => modeOk m
  | .cvtif _ _ _ y _ m => y.toNat < 3 && modeOk m
  | .cvtii _ _ _ w _ _ => w.toNat < 3
  | .packb8 _ _ a _ => quadOk a
  | .unpkb8 _ _ _ p _ _ _ => p.toNat != 0
  | .packi4 _ _ _ _ => true
  | .unpki4 _ _ _ _ _ => true
  | .qmaxb _ _ => true
  | .qpick _ _ a i => pairOk a && qpickOk i
  | .srnd _ _ _ => true
  | .fexp _ _ _ => true
  | .rcp _ _ _ => true
  | .rsq _ _ _ => true
  | .sqrt _ _ _ => true
  | .ex2 _ _ _ => true
  | .lg2 _ _ _ => true
  | .sinpi _ _ _ => true
  | .cospi _ _ _ => true
  | .tanh _ _ _ => true
  | .rcph _ _ _ => true
  | .ex2h _ _ _ => true
  | .iseteq _ _ _ _ => true
  | .isetne _ _ _ _ => true
  | .isetlt _ _ _ _ => true
  | .isetle _ _ _ _ => true
  | .isetltu _ _ _ _ => true
  | .isetleu _ _ _ _ => true
  | .fseteq _ _ _ _ => true
  | .fsetne _ _ _ _ => true
  | .fsetlt _ _ _ _ => true
  | .fsetle _ _ _ _ => true
  | .fsetun _ _ _ _ => true
  | .pand _ _ _ => true
  | .por _ _ _ => true
  | .pxor _ _ _ => true
  | .pandn _ _ _ => true
  | .ptov _ _ => true
  | .shfli _ _ _ => true
  | .shflu _ _ k => k.toNat < 32
  | .shfld _ _ k => k.toNat < 32
  | .shflx _ _ k => k.toNat < 32
  | .vall _ _ => true
  | .vany _ _ => true
  | .vbal _ _ => true
  | .vmatch _ _ => true
  | .rdlane _ _ k => k.toNat < 32
  | .redsumi _ _ => true
  | .redsumf _ _ => true
  | .scansumi _ _ => true
  | .scansumf _ _ => true
  | .elect _ => true
  | .bmask _ => true
  | .bra _ => true
  | .brx a => pairOk a
  | .call _ => true
  | .callx a => pairOk a
  | .ret => true
  | .exit => true
  | .trap _ => true
  | .bpt _ => true
  | .nop => true
  | .yield => true
  | .marm a => pairOk a
  | .mwait => true
  | .winv i => i.toNat % 8 == 0 && i.toNat ≤ 504
  | .wins i => i.toNat % 8 == 0 && i.toNat ≤ 376
  | .eret => true
  | .halt => true
  | .ld8 _ _ _ => true
  | .ld8s _ _ _ => true
  | .ld16 _ _ _ => true
  | .ld16s _ _ _ => true
  | .ld32 _ _ _ => true
  | .ld64 d _ _ => pairOk d
  | .ld128 d _ _ => quadOk d
  | .st8 _ _ _ => true
  | .st16 _ _ _ => true
  | .st32 _ _ _ => true
  | .st64 d _ _ => pairOk d
  | .st128 d _ _ => quadOk d
  | .ls32 _ _ _ => true
  | .ls64 d _ _ => pairOk d
  | .ls128 d _ _ => quadOk d
  | .ss32 _ _ _ => true
  | .ss64 d _ _ => pairOk d
  | .ss128 d _ _ => quadOk d
  | .lq _ _ => true
  | .sq _ _ => true
  | .ltag _ _ _ => true
  | .stag _ _ _ => true
  | .lda32 _ _ o h => scopeOk h && !o.getLsbD 1
  | .lda64 d _ o h => pairOk d && scopeOk h && !o.getLsbD 1
  | .sta32 _ _ o h => scopeOk h && !o.getLsbD 0
  | .sta64 d _ o h => pairOk d && scopeOk h && !o.getLsbD 0
  | .pref _ _ => true
  | .ldk32 _ _ _ => true
  | .ldk64 d _ _ => pairOk d
  | .lsk32 _ _ => true
  | .aadd d _ b t => atomOk t d b false false
  | .amin d _ b t => atomOk t d b false false
  | .amax d _ b t => atomOk t d b false false
  | .aminu d _ b t => atomOk t d b false false
  | .amaxu d _ b t => atomOk t d b false false
  | .aand d _ b t => atomOk t d b false false
  | .aor d _ b t => atomOk t d b false false
  | .axor d _ b t => atomOk t d b false false
  | .axchg d _ b t => atomOk t d b false false
  | .acas d _ b t => atomOk t d b true false
  | .afadd d _ b t => atomOk t d b false true
  | .afmax d _ b t => atomOk t d b false true
  | .ainc d _ b t => atomOk t d b false false
  | .adec d _ b t => atomOk t d b false false
  | .fence _ h => scopeOk h
  | .fencex => true
  | .phase => true
  | .ifence => true
  | .gnew _ => true
  | .gjoin _ => true
  | .gleave => true
  | .gfree _ _ => true
  | .gmask _ => true
  | .barr n v r _ e => e.toNat < 3 && (e.toNat != 1 || n.toNat < 32) && (r || v.toNat == 0)
  | .bwait n v r _ e => e.toNat < 3 && (e.toNat != 1 || n.toNat < 32) && (r || v.toNat == 0)
  | .bsync n v r _ e => e.toNat < 3 && (e.toNat != 1 || n.toNat < 32) && (r || v.toNat == 0)
  | .bexpect n _ _ e => e.toNat < 3 && (e.toNat != 1 || n.toNat < 32)
  | .bdone n _ e => e.toNat < 3 && (e.toNat != 1 || n.toNat < 32)
  | .tsub _ _ => true
  | .tlwait h _ => handleOk h
  | .tlread _ h => handleOk h
  | .tlsig h _ => 16 ≤ h.toNat
  | .bqrySlot n v _ e => e.toNat < 3 && (e.toNat != 1 || n.toNat < 32) && pairOk v
  | .mldw n a _ => n.toNat < 4 && pairOk a
  | .mldwd n a _ => n.toNat < 4 && pairOk a
  | .mma _ _ n a _ => n.toNat < 4 && pairOk a
  | .mmad _ _ n a _ => n.toNat < 4 && pairOk a
  | .mzero _ _ => true
  | .mdrain _ _ a c => pairOk a && quadOk c
  | .mdraint _ a c => pairOk a && quadOk c
  | .mdrainp _ _ a _ => pairOk a
  | .mreds _ _ n a => n.toNat < 4 && pairOk a
  | .mscan _ _ a => pairOk a
  | .mldz _ _ a => pairOk a
  | .mstz _ _ a _ => pairOk a
  | .mstat _ l sel a => pairOk a && sel.toNat < 4 && (!l || sel.toNat != 0)
  | .bcopy d a => pairOk d && a.toNat ≤ 112
  | .bcancel _ a _ => pairOk a
  | .bqryQueue d _ => pairOk d
  | .kvx d _ b => pairOk d && pairOk b
  | .kvput _ _ b => quadOk b
  | .kvpin _ a _ => pairOk a
  | .kvunpin _ a _ => pairOk a
  | .kvfree _ a _ => pairOk a
  | .astart d a => pairOk d && a.toNat ≤ 112
  | .amload _ a => pairOk a
  | .aproj _ _ _ => true
  | .astat d _ => pairOk d
  | .apstart _ a _ => quadOk a
  | .apstop _ _ => true
  | .appush _ _ => true
  | .apfetch _ _ => true
  | .grd _ _ _ => true
  | .rep _ x y z => stepOk x && stepOk y && stepOk z
  | .bankcfg _ _ _ => true
  | .worldcfgCreate _ a => quadOk a
  | .worldcfgTvec _ a => quadOk a
  | .worldcfgDrawers _ a => quadOk a
  | .worldcfgBanks _ a => quadOk a
  | .worldcfgRoot _ a => quadOk a
  | .worldcfgDestroy _ a => quadOk a
  | .worldcfgTlpool _ a => quadOk a
  | .tlbinvAddress a _ => pairOk a
  | .tlbinvWorld a _ => pairOk a
  | .tlbinvAll a _ => pairOk a
  | .keyld _ a => pairOk a
  | .lsetConfig _ _ b => quadOk b
  | .lsetOffer _ _ b => quadOk b
  | .lsetAccept _ _ b => quadOk b
  | .lsetDecline _ _ b => quadOk b
  | .lsetRenew _ _ b => quadOk b
  | .lsetPfetch _ _ b => quadOk b
  | .lsetFree _ _ b => quadOk b
  | .lsetElect _ _ b => quadOk b
  | .lgetEntryLow d _ => quadOk d
  | .lgetEntryHigh d _ => quadOk d
  | .lgetFabricStatus d _ => quadOk d
  | .lrecall _ _ => true
  | .bisnp _ _ b => pairOk b
  | .hinit d => d.toNat ≤ 108
  | .habs d _ _ => d.toNat ≤ 108
  | .hfin d _ _ => d.toNat ≤ 108
  | .sign _ _ _ => true
  | .mext _ _ _ => true
  | .nvinc d _ => pairOk d
  | .seal _ _ _ => true
  | .unseal _ _ => true
  | .snap d a => pairOk d && pairOk a
  | .scrub d a b => pairOk d && pairOk a && pairOk b
  | .resync _ a => pairOk a
  | .ipi _ _ => true
  | .capr d _ => quadOk d
  | .placePrefer _ a _ => quadOk a
  | .placePin _ a _ => quadOk a
  | .placeUnpin _ a _ => quadOk a
  | .placeFrames _ a _ => quadOk a
  | .evtpop d _ => d.toNat ≤ 120
  | .qload => true
  | .sig => true
  | .kwalk => true
  | .tlstDense => true
  | .tlstGathered => true
  | .cntTl _ => true
  | .cntChunks _ => true
  | .cntLen _ => true
  | .cntAct _ => true
  | .cntAdd _ _ _ => true
  | .gath _ => true
  | .sync => true
  | .kload => true
  | .vload => true
  | .smm => true
  | .mask => true
  | .rmax => true
  | .resc => true
  | .exps => true
  | .rsum => true
  | .pmm => true
  | .sto => true
  | .lse => true
  | .fbk => true
  | .br _ => true
  | .brc _ _ _ c => c.toNat < 7
  | .loop _ _ => true
  | .waitz => true
  | .microHalt _ => true
  | .resultWriteback _ _ _ => true
  | .benchAdmit _ => true
  | .watchdogExpiry _ => true
  | .integrityCheckComplete _ => true
  | .taskAccept _ => true
  | .taskQueueConsume _ => true
  | .taskDispatch _ _ => true
  | .taskCommit _ => true
  | .phaseCommit _ => true
  | .taskRequeue _ => true
  | .taskFail _ => true
  | .benchResume _ => true
  | .benchRestore _ => true
  | .spuriousWakeup _ _ => true
  | .mxuCommandExecute _ _ => true
  | .peerRowReceive _ => true
  | .peerAckReceive _ _ _ => true
  | .peerResend _ _ => true
  | .queueSlotConsume _ => true
  | .copy _ _ => true
  | .reducingCopy _ _ => true
  | .transpose _ _ => true
  | .quant _ _ => true
  | .dequant _ _ => true
  | .swizzle _ _ => true
  | .gather _ _ => true
  | .im2col _ _ => true
  | .zero _ _ => true
  | .migrate _ _ => true
  | .bteBlockLand _ _ => true
  | .bteOperationComplete _ _ => true
  | .reduceBlockReceive _ => true
  | .asqRunStart _ => true
  | .snapExecute => true
  | .scrubExecute => true
  | .sdcEvict _ _ => true
  | .pageMigration _ _ => true
  | .migrationSwitchover _ => true
  | .classifierWindow => true
  | .offer _ => true
  | .accept _ => true
  | .decline _ => true
  | .grant _ => true
  | .nak _ => true
  | .recall _ => true
  | .release _ => true
  | .renew _ => true
  | .renewed _ => true
  | .refused _ => true
  | .bisnpdata _ _ _ => true
  | .bisnpinv _ _ _ => true
  | .leaseFlushComplete _ => true
  | .leaseExpiry _ => true
  | .wbleadExpiry _ => true
  | .rcwinExpiry _ => true
  | .hbeatTick _ => true
  | .peerDeclaredFailed _ => true
  | .linkDown _ => true
  | .bulletinAccess _ => true
  | .settleExpiry => true
  | .leasePrefetch _ => true
  | .cxlMemRequest _ => true
  | .pcieMemoryRequest _ => true
  | .getVersion _ => true
  | .getCapabilities _ => true
  | .negotiateAlgorithms _ => true
  | .getDigests _ => true
  | .getCertificate _ _ => true
  | .challenge _ => true
  | .getMeasurements _ _ => true
  | .keyExchange _ _ => true
  | .finish _ => true
  | .heartbeat _ => true
  | .keyUpdate _ => true
  | .endSession _ => true
  | .recordExport _ => true
  | .spdmResync _ => true
  | .recordExportAck _ => true
  | .recordBusy _ => true
  | .recordExportTimeout => true
  | .qcmdRegister => true
  | .qcmdUnregister => true
  | .arenaRegister => true
  | .arenaUnregister => true
  | .vcmdVacate => true
  | .vcmdReturn => true
  | .vacationComplete => true
  | .xpeerExport => true
  | .classifierSelect _ => true
  | .ddcfgWrite _ _ => true
  | .counterClear _ => true
  | .mmioRegisterWrite _ _ _ => true
  | .boot => true
  | .thermalLimit => true
  | .powerFailure => true
  | .malformedWord => true
  | .fetchFault => true
  | .heldCommitResume _ => true
  | .stoppedTaskDiscard _ => true
  | .linkUp _ _ _ => true
  | .remoteWriteAck _ _ => true

/-- The checks of an assigned opcode that refuse it with TC_ILLEGAL: an unlisted CSR number, or U=1 on a CSR that is not
bench-uniform (R69, R110). -/
def Instr.legal : Instr → Bool
  | .csrr u _ i => csrOk u i
  | .csrw u _ i => csrOk u i
  | _ => true

end Sys2Proof
end

