-- ==== Sys2Proof/Decode.lean ====
section
/-! DEFINITION. Decoding of instruction words (R49 to R55, R60, R61, Tables 3.1 to 3.8) and of attention-sequencer
microwords (Table 11.12); after it the encoder, written from the same tables. -/

namespace Sys2Proof

/-- Why a word is not a valid instruction: an unassigned opcode or an unlisted U/CS/CSR use, or a reserved field (Table 3.9).
`short` is a byte list that ends inside the instruction. -/
inductive Reject where
  | illegal
  | resfield
  | short
  deriving DecidableEq, Repr

/-- Bits `[lo+n-1:lo]` of a number as a field. -/
def fld (n lo w : Nat) : BitVec n := BitVec.ofNat n (w / 2 ^ lo)

/-- Bits `[13:7]` and `[6:0]` and `[20:14]`: the operand fields FB, FC, FA (Table 3.1). -/
def fA (w : Nat) : BitVec 7 := fld 7 14 w
def fB (w : Nat) : BitVec 7 := fld 7 7 w
def fC (w : Nat) : BitVec 7 := fld 7 0 w

/-- The last checks of an assigned word: the reserved bits are zero (`r`), and the static checks. -/
def accept (r : Bool) (i : Instr) : Except Reject Instr :=
  if !i.legal then .error .illegal
  else if !r || !i.wf then .error .resfield
  else .ok i

/-- Bits `[hi:lo]` are zero. -/
def rz (w hi lo : Nat) : Bool := bits w hi lo == 0

/-- U and CS of an ALU word that may use both (R51); both set is illegal. -/
def withMode (w : Nat) (k : OpMode → Except Reject Instr) : Except Reject Instr :=
  match bitAt w 22, bitAt w 21 with
  | false, false => k .v
  | false, true => k .s
  | true, false => k .u
  | true, true => .error .illegal

/-- U of an ALU word that refuses CS=1 (R69). -/
def withU (w : Nat) (k : Bool → Except Reject Instr) : Except Reject Instr :=
  if bitAt w 21 then .error .illegal else k (bitAt w 22)

/-- An ALU word that refuses U=1 and CS=1 (R69). -/
def withNone (w : Nat) (k : Except Reject Instr) : Except Reject Instr :=
  if bitAt w 21 || bitAt w 22 then .error .illegal else k

/-- The attribute word of an atomic (Table 3.3). -/
def attrOf (w : Nat) : AtomAttr where
  scope := fld 3 29 w
  ord := fld 2 27 w
  size := fld 2 25 w
  space := bitAt w 24
  ret := bitAt w 23
  cmp := fld 7 16 w
  ofs := fld 16 0 w

/-- Group G0: integer (Tables 3.7, 3.8). `w` is the first word. -/
def decodeG0 (w : Nat) : Except Reject Instr :=
  match bits w 26 23 with
  | 1 => withMode w fun m => accept true (.iadd m (fA w) (fB w) (fC w))
  | 2 => withMode w fun m => accept true (.isub m (fA w) (fB w) (fC w))
  | 3 => withMode w fun m => accept true (.imul m (fA w) (fB w) (fC w))
  | 4 => withMode w fun m => accept true (.imulhs m (fA w) (fB w) (fC w))
  | 5 => withMode w fun m => accept true (.imulhu m (fA w) (fB w) (fC w))
  | 6 => withMode w fun m => accept true (.imad m (fA w) (fB w) (fC w))
  | 7 => withMode w fun m => accept true (.imulw m (fA w) (fB w) (fC w))
  | 8 => withMode w fun m => accept true (.iadd64 m (fA w) (fB w) (fC w))
  | 9 => withMode w fun m => accept true (.isub64 m (fA w) (fB w) (fC w))
  | 10 => withMode w fun m => accept true (.imins m (fA w) (fB w) (fC w))
  | 11 => withMode w fun m => accept true (.iminu m (fA w) (fB w) (fC w))
  | 12 => withMode w fun m => accept true (.imaxs m (fA w) (fB w) (fC w))
  | 13 => withMode w fun m => accept true (.imaxu m (fA w) (fB w) (fC w))
  | 14 => withMode w fun m => accept true (.idivu m (fA w) (fB w) (fC w))
  | 15 => withMode w fun m => accept true (.idivs m (fA w) (fB w) (fC w))
  | _ => .error .illegal

/-- Group G1: logic (Tables 3.7, 3.8). `w` is the first word. -/
def decodeG1 (w : Nat) : Except Reject Instr :=
  match bits w 26 23 with
  | 0 => withMode w fun m => accept true (.and m (fA w) (fB w) (fC w))
  | 1 => withMode w fun m => accept true (.or m (fA w) (fB w) (fC w))
  | 2 => withMode w fun m => accept true (.xor m (fA w) (fB w) (fC w))
  | 3 => withMode w fun m => accept true (.andn m (fA w) (fB w) (fC w))
  | 4 => withMode w fun m => accept true (.shl m (fA w) (fB w) (fC w))
  | 5 => withMode w fun m => accept true (.shr m (fA w) (fB w) (fC w))
  | 6 => withMode w fun m => accept true (.sar m (fA w) (fB w) (fC w))
  | 7 => withMode w fun m => accept true (.rol m (fA w) (fB w) (fC w))
  | 8 => withMode w fun m => accept true (.fshl m (fA w) (fB w) (fC w))
  | 9 => withMode w fun m => accept true (.fshr m (fA w) (fB w) (fC w))
  | 10 => withMode w fun m => accept true (.bfxu m (fA w) (fB w) (fC w))
  | 11 => withMode w fun m => accept true (.bfxs m (fA w) (fB w) (fC w))
  | 12 => withMode w fun m => accept true (.bfi m (fA w) (fB w) (fC w))
  | 13 => withU w fun u => accept (rz w 6 0) (.popc u (fA w) (fB w))
  | 14 => withU w fun u => accept (rz w 6 0) (.clz u (fA w) (fB w))
  | 15 => withU w fun u => accept (rz w 6 0) (.brev u (fA w) (fB w))
  | _ => .error .illegal

/-- Group G2: moves and control registers (Tables 3.7, 3.8). `w` is the first word, `w2` the second. -/
def decodeG2 (w w2 : Nat) : Except Reject Instr :=
  match bits w 26 23 with
  | 0 => withU w fun u => accept (rz w 6 0) (.mov u (fA w) (fB w))
  | 1 => withU w fun u => accept true (.movi u (fA w) (fld 14 0 w))
  | 2 => withU w fun u => accept true (.movhi u (fA w) (fld 14 0 w))
  | 3 => withU w fun u => accept (rz w 13 0) (.ldi32 u (fA w) (BitVec.ofNat 32 w2))
  | 4 => withU w fun u => accept true (.iaddi u (fA w) (fB w) (fC w))
  | 5 => withU w fun u => accept true (.imuli u (fA w) (fB w) (fC w))
  | 6 => withU w fun u => accept true (.andi u (fA w) (fB w) (fC w))
  | 7 => withU w fun u => accept true (.ori u (fA w) (fB w) (fC w))
  | 8 => withU w fun u => accept true (.xori u (fA w) (fB w) (fC w))
  | 9 => withU w fun u => accept true (.shli u (fA w) (fB w) (fC w))
  | 10 => withU w fun u => accept true (.shri u (fA w) (fB w) (fC w))
  | 11 => withU w fun u => accept true (.sari u (fA w) (fB w) (fC w))
  | 12 => withU w fun u => accept true (.lea4 u (fA w) (fB w) (fC w))
  | 13 => withU w fun u => accept true (.lea8 u (fA w) (fB w) (fC w))
  | 14 => withU w fun u => accept true (.csrr u (fA w) (fld 14 0 w))
  | 15 => withU w fun u => accept true (.csrw u (fA w) (fld 14 0 w))
  | _ => .error .illegal

/-- Group G3: FP32 (Tables 3.7, 3.8). `w` is the first word. -/
def decodeG3 (w : Nat) : Except Reject Instr :=
  match bits w 26 23 with
  | 0 => withMode w fun m => accept true (.fadd m (fA w) (fB w) (fC w))
  | 1 => withMode w fun m => accept true (.fsub m (fA w) (fB w) (fC w))
  | 2 => withMode w fun m => accept true (.fmul m (fA w) (fB w) (fC w))
  | 3 => withMode w fun m => accept true (.ffma m (fA w) (fB w) (fC w))
  | 4 => withMode w fun m => accept true (.ffms m (fA w) (fB w) (fC w))
  | 5 => withMode w fun m => accept true (.fmin m (fA w) (fB w) (fC w))
  | 6 => withMode w fun m => accept true (.fmax m (fA w) (fB w) (fC w))
  | 7 => withMode w fun m => accept true (.fminn m (fA w) (fB w) (fC w))
  | 8 => withMode w fun m => accept true (.fmaxn m (fA w) (fB w) (fC w))
  | 9 => withU w fun u => accept (rz w 6 0) (.fabs u (fA w) (fB w))
  | 10 => withU w fun u => accept (rz w 6 0) (.fneg u (fA w) (fB w))
  | 11 => withMode w fun m => accept true (.fcpys m (fA w) (fB w) (fC w))
  | 12 => withU w fun u => accept (rz w 6 3) (.frnd u (fA w) (fB w) (fld 3 0 w))
  | 13 => withU w fun u => accept (rz w 6 0) (.fclass u (fA w) (fB w))
  | 14 => withMode w fun m => accept true (.fscale m (fA w) (fB w) (fC w))
  | 15 => withMode w fun m => accept true (.fdiv m (fA w) (fB w) (fC w))
  | _ => .error .illegal

/-- Group G4: packed (Tables 3.7, 3.8). `w` is the first word. -/
def decodeG4 (w : Nat) : Except Reject Instr :=
  match bits w 26 23 with
  | 0 => withMode w fun m => accept true (.hadd2 m (fA w) (fB w) (fC w))
  | 1 => withMode w fun m => accept true (.hmul2 m (fA w) (fB w) (fC w))
  | 2 => withMode w fun m => accept true (.hfma2 m (fA w) (fB w) (fC w))
  | 3 => withMode w fun m => accept true (.hmin2 m (fA w) (fB w) (fC w))
  | 4 => withMode w fun m => accept true (.hmax2 m (fA w) (fB w) (fC w))
  | 5 => withMode w fun m => accept true (.badd2 m (fA w) (fB w) (fC w))
  | 6 => withMode w fun m => accept true (.bmul2 m (fA w) (fB w) (fC w))
  | 7 => withMode w fun m => accept true (.bfma2 m (fA w) (fB w) (fC w))
  | 8 => withMode w fun m => accept true (.bmin2 m (fA w) (fB w) (fC w))
  | 9 => withMode w fun m => accept true (.bmax2 m (fA w) (fB w) (fC w))
  | 10 => withMode w fun m => accept true (.hdot2 m (fA w) (fB w) (fC w))
  | 11 => withMode w fun m => accept true (.bdot2 m (fA w) (fB w) (fC w))
  | 12 => withMode w fun m => accept true (.qdot4 m (fA w) (fB w) (fC w))
  | 13 => withMode w fun m => accept true (.idot4s m (fA w) (fB w) (fC w))
  | 14 => withMode w fun m => accept true (.idot4u m (fA w) (fB w) (fC w))
  | 15 => withMode w fun m => accept true (.idot8 m (fA w) (fB w) (fC w))
  | _ => .error .illegal

/-- Group G5: conversions (Tables 3.7, 3.8). `w` is the first word. -/
def decodeG5 (w : Nat) : Except Reject Instr :=
  match bits w 26 23 with
  | 0 => withU w fun u => accept true (.cvtff u (fA w) (fB w) (fld 2 5 w) (fld 2 3 w) (fld 3 0 w))
  | 1 => withU w fun u => accept (rz w 6 5) (.cvtfi u (fA w) (fB w) (fld 2 3 w) (fld 3 0 w))
  | 2 => withU w fun u => accept (rz w 6 6) (.cvtif u (fA w) (fB w) (fld 2 4 w) (bitAt w 3) (fld 3 0 w))
  | 3 => withU w fun u => accept (rz w 6 4) (.cvtii u (fA w) (fB w) (fld 2 2 w) (bitAt w 1) (bitAt w 0))
  | 4 => withMode w fun m => accept true (.packb8 m (fA w) (fB w) (fC w))
  | 5 => withU w fun u => accept true (.unpkb8 u (fA w) (fB w) (fld 3 4 w) (bitAt w 3) (bitAt w 2) (fld 2 0 w))
  | 6 => withMode w fun m => accept true (.packi4 m (fA w) (fB w) (fC w))
  | 7 => withU w fun u => accept (rz w 6 4) (.unpki4 u (fA w) (fB w) (bitAt w 3) (fld 3 0 w))
  | 8 => withNone w (accept (rz w 6 0) (.qmaxb (fA w) (fB w)))
  | 9 => withU w fun u => accept true (.qpick u (fA w) (fB w) (fC w))
  | 10 => withU w fun u => accept (rz w 13 7) (.srnd u (fA w) (fC w))
  | 11 => withU w fun u => accept (rz w 6 0) (.fexp u (fA w) (fB w))
  | _ => .error .illegal

/-- Group G6: special functions (Tables 3.7, 3.8). `w` is the first word. -/
def decodeG6 (w : Nat) : Except Reject Instr :=
  match bits w 26 23 with
  | 0 => withU w fun u => accept (rz w 6 0) (.rcp u (fA w) (fB w))
  | 1 => withU w fun u => accept (rz w 6 0) (.rsq u (fA w) (fB w))
  | 2 => withU w fun u => accept (rz w 6 0) (.sqrt u (fA w) (fB w))
  | 3 => withU w fun u => accept (rz w 6 0) (.ex2 u (fA w) (fB w))
  | 4 => withU w fun u => accept (rz w 6 0) (.lg2 u (fA w) (fB w))
  | 5 => withU w fun u => accept (rz w 6 0) (.sinpi u (fA w) (fB w))
  | 6 => withU w fun u => accept (rz w 6 0) (.cospi u (fA w) (fB w))
  | 7 => withU w fun u => accept (rz w 6 0) (.tanh u (fA w) (fB w))
  | 8 => withU w fun u => accept (rz w 6 0) (.rcph u (fA w) (fB w))
  | 9 => withU w fun u => accept (rz w 6 0) (.ex2h u (fA w) (fB w))
  | _ => .error .illegal

/-- Group G7: compares and predicates (Tables 3.7, 3.8). `w` is the first word. -/
def decodeG7 (w : Nat) : Except Reject Instr :=
  match bits w 26 23 with
  | 0 => withMode w fun m => accept true (.iseteq m (fA w) (fB w) (fC w))
  | 1 => withMode w fun m => accept true (.isetne m (fA w) (fB w) (fC w))
  | 2 => withMode w fun m => accept true (.isetlt m (fA w) (fB w) (fC w))
  | 3 => withMode w fun m => accept true (.isetle m (fA w) (fB w) (fC w))
  | 4 => withMode w fun m => accept true (.isetltu m (fA w) (fB w) (fC w))
  | 5 => withMode w fun m => accept true (.isetleu m (fA w) (fB w) (fC w))
  | 6 => withMode w fun m => accept true (.fseteq m (fA w) (fB w) (fC w))
  | 7 => withMode w fun m => accept true (.fsetne m (fA w) (fB w) (fC w))
  | 8 => withMode w fun m => accept true (.fsetlt m (fA w) (fB w) (fC w))
  | 9 => withMode w fun m => accept true (.fsetle m (fA w) (fB w) (fC w))
  | 10 => withMode w fun m => accept true (.fsetun m (fA w) (fB w) (fC w))
  | 11 => withNone w (accept true (.pand (fA w) (fB w) (fC w)))
  | 12 => withNone w (accept true (.por (fA w) (fB w) (fC w)))
  | 13 => withNone w (accept true (.pxor (fA w) (fB w) (fC w)))
  | 14 => withNone w (accept true (.pandn (fA w) (fB w) (fC w)))
  | 15 => withNone w (accept (rz w 6 0) (.ptov (fA w) (fB w)))
  | _ => .error .illegal

/-- Group G8: cross-lane (Tables 3.7, 3.8). `w` is the first word. -/
def decodeG8 (w : Nat) : Except Reject Instr :=
  match bits w 26 21 with
  | 0 => accept true (.shfli (fA w) (fB w) (fC w))
  | 1 => accept true (.shflu (fA w) (fB w) (fC w))
  | 2 => accept true (.shfld (fA w) (fB w) (fC w))
  | 3 => accept true (.shflx (fA w) (fB w) (fC w))
  | 4 => accept (rz w 6 0) (.vall (fA w) (fB w))
  | 5 => accept (rz w 6 0) (.vany (fA w) (fB w))
  | 6 => accept (rz w 6 0) (.vbal (fA w) (fB w))
  | 7 => accept (rz w 6 0) (.vmatch (fA w) (fB w))
  | 8 => accept true (.rdlane (fA w) (fB w) (fC w))
  | 9 => accept (rz w 6 0) (.redsumi (fA w) (fB w))
  | 10 => accept (rz w 6 0) (.redsumf (fA w) (fB w))
  | 11 => accept (rz w 6 0) (.scansumi (fA w) (fB w))
  | 12 => accept (rz w 6 0) (.scansumf (fA w) (fB w))
  | 13 => accept (rz w 13 0) (.elect (fA w))
  | 14 => accept (rz w 13 0) (.bmask (fA w))
  | _ => .error .illegal

/-- Group G9: control (Tables 3.7, 3.8). `w` is the first word. -/
def decodeG9 (w : Nat) : Except Reject Instr :=
  match bits w 26 21 with
  | 0 => accept true (.bra (fld 21 0 w))
  | 1 => accept (rz w 6 0 && rz w 20 14) (.brx (fB w))
  | 2 => accept true (.call (fld 21 0 w))
  | 3 => accept (rz w 6 0 && rz w 20 14) (.callx (fB w))
  | 4 => accept (rz w 20 0) (.ret)
  | 5 => accept (rz w 20 0) (.exit)
  | 6 => accept (rz w 20 14) (.trap (fld 14 0 w))
  | 7 => accept (rz w 20 14) (.bpt (fld 14 0 w))
  | 8 => accept (rz w 20 0) (.nop)
  | 9 => accept (rz w 20 0) (.yield)
  | 10 => accept (rz w 6 0 && rz w 20 14) (.marm (fB w))
  | 11 => accept (rz w 20 0) (.mwait)
  | 12 => accept (rz w 20 14) (.winv (fld 14 0 w))
  | 13 => accept (rz w 20 14) (.wins (fld 14 0 w))
  | 14 => accept (rz w 20 0) (.eret)
  | 15 => accept (rz w 20 0) (.halt)
  | _ => .error .illegal

/-- Group G10: memory (Tables 3.7, 3.8). `w` is the first word. -/
def decodeG10 (w : Nat) : Except Reject Instr :=
  match bits w 26 21 with
  | 0 => accept true (.ld8 (fA w) (fB w) (fC w))
  | 1 => accept true (.ld8s (fA w) (fB w) (fC w))
  | 2 => accept true (.ld16 (fA w) (fB w) (fC w))
  | 3 => accept true (.ld16s (fA w) (fB w) (fC w))
  | 4 => accept true (.ld32 (fA w) (fB w) (fC w))
  | 5 => accept true (.ld64 (fA w) (fB w) (fC w))
  | 6 => accept true (.ld128 (fA w) (fB w) (fC w))
  | 7 => accept true (.st8 (fA w) (fB w) (fC w))
  | 8 => accept true (.st16 (fA w) (fB w) (fC w))
  | 9 => accept true (.st32 (fA w) (fB w) (fC w))
  | 10 => accept true (.st64 (fA w) (fB w) (fC w))
  | 11 => accept true (.st128 (fA w) (fB w) (fC w))
  | 12 => accept true (.ls32 (fA w) (fB w) (fC w))
  | 13 => accept true (.ls64 (fA w) (fB w) (fC w))
  | 14 => accept true (.ls128 (fA w) (fB w) (fC w))
  | 15 => accept true (.ss32 (fA w) (fB w) (fC w))
  | 16 => accept true (.ss64 (fA w) (fB w) (fC w))
  | 17 => accept true (.ss128 (fA w) (fB w) (fC w))
  | 18 => accept (rz w 6 0 && rz w 20 18) (.lq (fld 4 14 w) (fB w))
  | 19 => accept (rz w 6 0 && rz w 20 18) (.sq (fld 4 14 w) (fB w))
  | 20 => accept true (.ltag (fA w) (fB w) (fC w))
  | 21 => accept true (.stag (fA w) (fB w) (fC w))
  | 22 => accept (rz w 6 5) (.lda32 (fA w) (fB w) (fld 2 3 w) (fld 3 0 w))
  | 23 => accept (rz w 6 5) (.lda64 (fA w) (fB w) (fld 2 3 w) (fld 3 0 w))
  | 24 => accept (rz w 6 5) (.sta32 (fA w) (fB w) (fld 2 3 w) (fld 3 0 w))
  | 25 => accept (rz w 6 5) (.sta64 (fA w) (fB w) (fld 2 3 w) (fld 3 0 w))
  | 26 => accept (rz w 20 14) (.pref (fB w) (fC w))
  | 27 => accept true (.ldk32 (fA w) (fB w) (fC w))
  | 28 => accept true (.ldk64 (fA w) (fB w) (fC w))
  | 29 => accept (rz w 6 0) (.lsk32 (fA w) (fB w))
  | _ => .error .illegal

/-- Group G11: atomics and ordering (Tables 3.7, 3.8). `w` is the first word, `w2` the second. -/
def decodeG11 (w w2 : Nat) : Except Reject Instr :=
  match bits w 26 21 with
  | 0 => accept true (.aadd (fA w) (fB w) (fC w) (attrOf w2))
  | 1 => accept true (.amin (fA w) (fB w) (fC w) (attrOf w2))
  | 2 => accept true (.amax (fA w) (fB w) (fC w) (attrOf w2))
  | 3 => accept true (.aminu (fA w) (fB w) (fC w) (attrOf w2))
  | 4 => accept true (.amaxu (fA w) (fB w) (fC w) (attrOf w2))
  | 5 => accept true (.aand (fA w) (fB w) (fC w) (attrOf w2))
  | 6 => accept true (.aor (fA w) (fB w) (fC w) (attrOf w2))
  | 7 => accept true (.axor (fA w) (fB w) (fC w) (attrOf w2))
  | 8 => accept true (.axchg (fA w) (fB w) (fC w) (attrOf w2))
  | 9 => accept true (.acas (fA w) (fB w) (fC w) (attrOf w2))
  | 10 => accept true (.afadd (fA w) (fB w) (fC w) (attrOf w2))
  | 11 => accept true (.afmax (fA w) (fB w) (fC w) (attrOf w2))
  | 12 => accept true (.ainc (fA w) (fB w) (fC w) (attrOf w2))
  | 13 => accept true (.adec (fA w) (fB w) (fC w) (attrOf w2))
  | 16 => accept (rz w 13 0 && rz w 20 19) (.fence (fld 2 17 w) (fld 3 14 w))
  | 17 => accept (rz w 20 0) (.fencex)
  | 18 => accept (rz w 20 0) (.phase)
  | 19 => accept (rz w 20 0) (.ifence)
  | _ => .error .illegal

/-- Group G12: groups and barriers (Tables 3.7, 3.8). `w` is the first word. -/
def decodeG12 (w : Nat) : Except Reject Instr :=
  match bits w 26 21 with
  | 0 => accept (rz w 13 0) (.gnew (fA w))
  | 1 => accept (rz w 6 0 && rz w 20 14) (.gjoin (fB w))
  | 2 => accept (rz w 20 0) (.gleave)
  | 3 => accept (rz w 6 0) (.gfree (fA w) (fB w))
  | 4 => accept (rz w 13 0) (.gmask (fA w))
  | 5 => accept (rz w 6 4 && rz w 20 20) (.barr (fld 6 14 w) (fB w) (bitAt w 3) (bitAt w 2) (fld 2 0 w))
  | 6 => accept (rz w 6 4 && rz w 20 20) (.bwait (fld 6 14 w) (fB w) (bitAt w 3) (bitAt w 2) (fld 2 0 w))
  | 7 => accept (rz w 6 4 && rz w 20 20) (.bsync (fld 6 14 w) (fB w) (bitAt w 3) (bitAt w 2) (fld 2 0 w))
  | 8 => if !bitAt w 3 then .error .resfield else accept (rz w 6 4 && rz w 20 20) (.bexpect (fld 6 14 w) (fB w) (bitAt w 2) (fld 2 0 w))
  | 9 => accept (rz w 13 3 && rz w 20 20) (.bdone (fld 6 14 w) (bitAt w 2) (fld 2 0 w))
  | 10 => accept (rz w 6 0) (.tsub (fA w) (fB w))
  | 11 => accept (rz w 6 0 && rz w 20 20) (.tlwait (fld 6 14 w) (fB w))
  | 12 => accept (rz w 6 0 && rz w 13 13) (.tlread (fA w) (fld 6 7 w))
  | 13 => accept (rz w 6 0 && rz w 20 20) (.tlsig (fld 6 14 w) (fB w))
  | 14 => if !bitAt w 3 then .error .resfield else accept (rz w 6 4 && rz w 20 20) (.bqrySlot (fld 6 14 w) (fB w) (bitAt w 2) (fld 2 0 w))
  | _ => .error .illegal

/-- Group G13: matrix (Tables 3.7, 3.8). `w` is the first word. -/
def decodeG13 (w : Nat) : Except Reject Instr :=
  match bits w 26 21 with
  | 0 => accept (rz w 20 17) (.mldw (fld 3 14 w) (fB w) (fC w))
  | 1 => accept (rz w 20 17) (.mldwd (fld 3 14 w) (fB w) (fC w))
  | 2 => accept true (.mma (fld 2 19 w) (fld 2 17 w) (fld 3 14 w) (fB w) (fC w))
  | 3 => accept true (.mmad (fld 2 19 w) (fld 2 17 w) (fld 3 14 w) (fB w) (fC w))
  | 4 => accept (rz w 16 0) (.mzero (fld 2 19 w) (fld 2 17 w))
  | 5 => accept (rz w 16 14) (.mdrain (fld 2 19 w) (fld 2 17 w) (fB w) (fC w))
  | 6 => accept (rz w 18 14) (.mdraint (fld 2 19 w) (fB w) (fC w))
  | 7 => accept (rz w 16 14) (.mdrainp (fld 2 19 w) (fld 2 17 w) (fB w) (fC w))
  | 8 => accept (rz w 6 0) (.mreds (fld 2 19 w) (fld 2 17 w) (fld 3 14 w) (fB w))
  | 9 => accept (rz w 6 0 && rz w 16 14) (.mscan (fld 2 19 w) (fld 2 17 w) (fB w))
  | 10 => accept (rz w 6 0 && rz w 16 14) (.mldz (fld 2 19 w) (fld 2 17 w) (fB w))
  | 11 => accept (rz w 16 14) (.mstz (fld 2 19 w) (fld 2 17 w) (fB w) (fC w))
  | 12 => accept (rz w 6 0 && rz w 18 18) (.mstat (fld 2 19 w) (bitAt w 17) (fld 3 14 w) (fB w))
  | _ => .error .illegal

/-- Group G14: engines (Tables 3.7, 3.8). `w` is the first word. -/
def decodeG14 (w : Nat) : Except Reject Instr :=
  match bits w 26 21 with
  | 0 => accept (rz w 6 0) (.bcopy (fA w) (fB w))
  | 1 => accept true (.bcancel (fA w) (fB w) (fC w))
  | 2 => accept (rz w 6 0) (.bqryQueue (fA w) (fB w))
  | 4 => accept true (.kvx (fA w) (fB w) (fC w))
  | 5 => accept true (.kvput (fA w) (fB w) (fC w))
  | 6 => accept true (.kvpin (fA w) (fB w) (fC w))
  | 7 => accept true (.kvunpin (fA w) (fB w) (fC w))
  | 8 => accept true (.kvfree (fA w) (fB w) (fC w))
  | 9 => accept (rz w 6 0) (.astart (fA w) (fB w))
  | 10 => accept (rz w 6 0) (.amload (fA w) (fB w))
  | 11 => accept true (.aproj (fA w) (fB w) (fC w))
  | 12 => accept (rz w 6 0) (.astat (fA w) (fB w))
  | 16 => accept true (.apstart (fA w) (fB w) (fC w))
  | 17 => accept (rz w 13 7) (.apstop (fA w) (fC w))
  | 18 => accept (rz w 20 14) (.appush (fB w) (fC w))
  | 19 => accept (rz w 13 7) (.apfetch (fA w) (fC w))
  | _ => .error .illegal

/-- Group G15: prefixes and system (Tables 3.7, 3.8). `w` is the first word. -/
noncomputable def decodeG15 (w : Nat) : Except Reject Instr :=
  match bits w 26 21 with
  | 0 => accept (rz w 6 0 && rz w 13 11) (.grd (fA w) (bitAt w 10) (fld 3 7 w))
  | 1 => accept (rz w 6 3 && rz w 10 10 && rz w 20 20) (.rep (fld 6 14 w) (fld 3 11 w) (fld 3 7 w) (fld 3 0 w))
  | 8 => accept true (.bankcfg (fA w) (fB w) (fC w))
  | 9 => accept (rz w 6 0) (.worldcfgCreate (fA w) (fB w))
  | 10 => accept (rz w 20 14) (.tlbinvAddress (fB w) (fC w))
  | 11 => accept (rz w 6 0) (.keyld (fA w) (fB w))
  | 12 => accept true (.lsetConfig (fA w) (fB w) (fC w))
  | 13 => accept (rz w 6 0) (.lgetEntryLow (fA w) (fB w))
  | 14 => accept (rz w 6 0) (.lrecall (fA w) (fB w))
  | 15 => accept true (.bisnp (fA w) (fB w) (fC w))
  | 16 => accept (rz w 13 0) (.hinit (fA w))
  | 17 => accept true (.habs (fA w) (fB w) (fC w))
  | 18 => accept true (.hfin (fA w) (fB w) (fC w))
  | 19 => accept true (.sign (fA w) (fB w) (fC w))
  | 20 => accept true (.mext (fA w) (fB w) (fC w))
  | 21 => accept (rz w 6 0) (.nvinc (fA w) (fB w))
  | 22 => accept true (.seal (fA w) (fB w) (fC w))
  | 23 => accept (rz w 6 0) (.unseal (fA w) (fB w))
  | 24 => accept (rz w 6 0) (.snap (fA w) (fB w))
  | 25 => accept true (.scrub (fA w) (fB w) (fC w))
  | 26 => accept (rz w 6 0) (.resync (fA w) (fB w))
  | 27 => accept (rz w 20 14) (.ipi (fB w) (fC w))
  | 28 => accept (rz w 6 0) (.capr (fA w) (fB w))
  | 29 => accept true (.placePrefer (fA w) (fB w) (fC w))
  | 30 => accept (rz w 13 1) (.evtpop (fA w) (bitAt w 0))
  | _ => .error .illegal

/-- A prefix word with S=1 is refused (R62). -/
def prefixStop (w : Nat) (r : Except Reject Instr) : Except Reject Instr :=
  if bits w 30 27 == 15 && bits w 26 21 < 2 && bitAt w 31 then
    match r with
    | .ok _ => .error .resfield
    | e => e
  else r

/-- Whether the first word begins a two-word X instruction (R52: LDI32 and the atomics). -/
def isX (w : Nat) : Bool :=
  (bits w 30 27 == 2 && bits w 26 23 == 3) || (bits w 30 27 == 11 && bits w 26 21 < 14)

/-- The instruction of first word `w` and second word `w2` (read only by X instructions). -/
noncomputable def decodeInstr (w w2 : Nat) : Except Reject Instr :=
  prefixStop w <|
  match bits w 30 27 with
  | 0 => decodeG0 w
  | 1 => decodeG1 w
  | 2 => decodeG2 w w2
  | 3 => decodeG3 w
  | 4 => decodeG4 w
  | 5 => decodeG5 w
  | 6 => decodeG6 w
  | 7 => decodeG7 w
  | 8 => decodeG8 w
  | 9 => decodeG9 w
  | 10 => decodeG10 w
  | 11 => decodeG11 w w2
  | 12 => decodeG12 w
  | 13 => decodeG13 w
  | 14 => decodeG14 w
  | _ => decodeG15 w

/-- The stop bit and the instruction of an instruction's words (R49, R53). -/
noncomputable def decode (w w2 : Word) : Except Reject (Bool × Instr) :=
  (decodeInstr w.toNat w2.toNat).map fun i => (w.getLsbD 31, i)

/-- A little-endian word from four bytes (R2). -/
def wordOf (b0 b1 b2 b3 : Byte) : Word := b3 ++ b2 ++ b1 ++ b0

/-- Decoding of a byte stream: total, with the rest of the stream (R49, R53). -/
noncomputable def decodeBytes : List Byte → Except Reject (Bool × Instr × List Byte)
  | b0 :: b1 :: b2 :: b3 :: rest =>
    let w := wordOf b0 b1 b2 b3
    if isX w.toNat then
      match rest with
      | c0 :: c1 :: c2 :: c3 :: rest' => (decode w (wordOf c0 c1 c2 c3)).map fun p => (p.1, p.2, rest')
      | _ => .error .short
    else (decode w 0).map fun p => (p.1, p.2, rest)
  | _ => .error .short

/-- The four bytes of a word, lowest address first (R2). -/
def bytesOfWord (w : Nat) : List Byte := [fld 8 0 w, fld 8 8 w, fld 8 16 w, fld 8 24 w]

/-- The instruction the decoder reads from an instruction whose bits are `w`, numbered as the opcode table numbers them; bits
above `nbits` are 0. Every word is laid out little-endian (R49) and read back by `decodeBytes`. -/
noncomputable def decodeTableWord (nbits w : Nat) : Option Instr :=
  let v := w % 2 ^ nbits
  match decodeBytes (bytesOfWord v ++ bytesOfWord (v / 2 ^ 32)) with
  | .ok (_, i, _) => some i
  | .error _ => none

/-- The micro-op of a 64-bit microword (Tables 11.12, 11.13). A reserved opcode, a nonzero unused field and a reserved
selector or condition are refused (R309). -/
def decodeMicro (mw : DWord) : Except Reject Instr :=
  let w := mw.toNat
  let op := bits w 63 58
  let ra : BitVec 4 := fld 4 54 w
  let rb : BitVec 4 := fld 4 50 w
  let tgt : BitVec 12 := fld 12 24 w
  let imm := bits w 23 0
  let plain (i : Instr) := if bits w 57 0 == 0 then Except.ok i else .error .resfield
  let useA (i : Instr) := if bits w 53 0 == 0 then Except.ok i else .error .resfield
  match op with
  | 1 => plain .qload
  | 2 => plain .sig
  | 3 => plain .kwalk
  | 4 => if bits w 57 24 != 0 then .error .resfield else if imm == 0 then .ok .tlstDense
         else if imm == 1 then .ok .tlstGathered else .error .resfield
  | 5 =>
    if bits w 49 24 != 0 then .error .resfield
    else if imm / 2 ^ 20 == 4 then .ok (.cntAdd ra rb (fld 20 0 w))
    else if rb.toNat != 0 || bits w 19 0 != 0 then .error .resfield
    else match imm / 2 ^ 20 with
      | 0 => .ok (.cntTl ra)
      | 1 => .ok (.cntChunks ra)
      | 2 => .ok (.cntLen ra)
      | 3 => .ok (.cntAct ra)
      | _ => .error .resfield
  | 6 => useA (.gath ra)
  | 7 => plain .sync
  | 8 => plain .kload
  | 9 => plain .vload
  | 10 => plain .smm
  | 11 => plain .mask
  | 12 => plain .rmax
  | 13 => plain .resc
  | 14 => plain .exps
  | 15 => plain .rsum
  | 16 => plain .pmm
  | 17 => plain .sto
  | 18 => plain .lse
  | 19 => plain .fbk
  | 20 => if bits w 57 36 != 0 || imm != 0 then .error .resfield else .ok (.br tgt)
  | 21 => if bits w 49 36 != 0 || imm > 6 then .error .resfield else .ok (.brc ra rb tgt (fld 4 0 w))
  | 22 => if bits w 53 36 != 0 || imm != 0 then .error .resfield else .ok (.loop ra tgt)
  | 23 => plain .waitz
  | 24 => if bits w 57 24 != 0 || imm > 1 then .error .resfield else .ok (.microHalt (imm == 1))
  | _ => .error .illegal

/-- A field placed at bit `lo` (R121). -/
def at_ {n : Nat} (x : BitVec n) (lo : Nat) : Nat := x.toNat * 2 ^ lo
def bAt (b : Bool) (lo : Nat) : Nat := if b then 2 ^ lo else 0

/-- The U and CS bits of a mode (R51). -/
def OpMode.enc : OpMode → Nat
  | .v => 0
  | .s => 2 ^ 21
  | .u => 2 ^ 22

/-- An ALU word without its operands: group and function index (R121). -/
def aluW (g idx : Nat) : Nat := g * 2 ^ 27 + idx * 2 ^ 23
/-- A word of G8 to G15 without its operands (R121). -/
def fnW (g f : Nat) : Nat := g * 2 ^ 27 + f * 2 ^ 21

/-- The attribute word (Table 3.3). -/
def AtomAttr.enc (t : AtomAttr) : Nat :=
  at_ t.scope 29 + at_ t.ord 27 + at_ t.size 25 + bAt t.space 24 + bAt t.ret 23 + at_ t.cmp 16 + at_ t.ofs 0

/-- An atomic: its first word and its attribute word (R54). -/
def atomW (f : Nat) (d a b : BitVec 7) (t : AtomAttr) : List Nat :=
  [fnW 11 f + at_ d 14 + at_ a 7 + at_ b 0, t.enc]

/-- The words of an instruction with S=0 (R121; G13 fields by Table 9.2, prefixes by R60 and R61). A micro-op gives its
microword as two 32-bit words, low word first (R311). An event has no words. -/
def encodeWords : Instr → List Nat
  | .iadd m d a b => [aluW 0 1 + m.enc + at_ d 14 + at_ a 7 + at_ b 0]
  | .isub m d a b => [aluW 0 2 + m.enc + at_ d 14 + at_ a 7 + at_ b 0]
  | .imul m d a b => [aluW 0 3 + m.enc + at_ d 14 + at_ a 7 + at_ b 0]
  | .imulhs m d a b => [aluW 0 4 + m.enc + at_ d 14 + at_ a 7 + at_ b 0]
  | .imulhu m d a b => [aluW 0 5 + m.enc + at_ d 14 + at_ a 7 + at_ b 0]
  | .imad m d a b => [aluW 0 6 + m.enc + at_ d 14 + at_ a 7 + at_ b 0]
  | .imulw m d a b => [aluW 0 7 + m.enc + at_ d 14 + at_ a 7 + at_ b 0]
  | .iadd64 m d a b => [aluW 0 8 + m.enc + at_ d 14 + at_ a 7 + at_ b 0]
  | .isub64 m d a b => [aluW 0 9 + m.enc + at_ d 14 + at_ a 7 + at_ b 0]
  | .imins m d a b => [aluW 0 10 + m.enc + at_ d 14 + at_ a 7 + at_ b 0]
  | .iminu m d a b => [aluW 0 11 + m.enc + at_ d 14 + at_ a 7 + at_ b 0]
  | .imaxs m d a b => [aluW 0 12 + m.enc + at_ d 14 + at_ a 7 + at_ b 0]
  | .imaxu m d a b => [aluW 0 13 + m.enc + at_ d 14 + at_ a 7 + at_ b 0]
  | .idivu m d a b => [aluW 0 14 + m.enc + at_ d 14 + at_ a 7 + at_ b 0]
  | .idivs m d a b => [aluW 0 15 + m.enc + at_ d 14 + at_ a 7 + at_ b 0]
  | .and m d a b => [aluW 1 0 + m.enc + at_ d 14 + at_ a 7 + at_ b 0]
  | .or m d a b => [aluW 1 1 + m.enc + at_ d 14 + at_ a 7 + at_ b 0]
  | .xor m d a b => [aluW 1 2 + m.enc + at_ d 14 + at_ a 7 + at_ b 0]
  | .andn m d a b => [aluW 1 3 + m.enc + at_ d 14 + at_ a 7 + at_ b 0]
  | .shl m d a b => [aluW 1 4 + m.enc + at_ d 14 + at_ a 7 + at_ b 0]
  | .shr m d a b => [aluW 1 5 + m.enc + at_ d 14 + at_ a 7 + at_ b 0]
  | .sar m d a b => [aluW 1 6 + m.enc + at_ d 14 + at_ a 7 + at_ b 0]
  | .rol m d a b => [aluW 1 7 + m.enc + at_ d 14 + at_ a 7 + at_ b 0]
  | .fshl m d a b => [aluW 1 8 + m.enc + at_ d 14 + at_ a 7 + at_ b 0]
  | .fshr m d a b => [aluW 1 9 + m.enc + at_ d 14 + at_ a 7 + at_ b 0]
  | .bfxu m d a b => [aluW 1 10 + m.enc + at_ d 14 + at_ a 7 + at_ b 0]
  | .bfxs m d a b => [aluW 1 11 + m.enc + at_ d 14 + at_ a 7 + at_ b 0]
  | .bfi m d a b => [aluW 1 12 + m.enc + at_ d 14 + at_ a 7 + at_ b 0]
  | .popc u d a => [aluW 1 13 + bAt u 22 + at_ d 14 + at_ a 7]
  | .clz u d a => [aluW 1 14 + bAt u 22 + at_ d 14 + at_ a 7]
  | .brev u d a => [aluW 1 15 + bAt u 22 + at_ d 14 + at_ a 7]
  | .mov u d a => [aluW 2 0 + bAt u 22 + at_ d 14 + at_ a 7]
  | .movi u d i => [aluW 2 1 + bAt u 22 + at_ d 14 + at_ i 0]
  | .movhi u d i => [aluW 2 2 + bAt u 22 + at_ d 14 + at_ i 0]
  | .ldi32 u d lit => [aluW 2 3 + bAt u 22 + at_ d 14, lit.toNat]
  | .iaddi u d a i => [aluW 2 4 + bAt u 22 + at_ d 14 + at_ a 7 + at_ i 0]
  | .imuli u d a i => [aluW 2 5 + bAt u 22 + at_ d 14 + at_ a 7 + at_ i 0]
  | .andi u d a i => [aluW 2 6 + bAt u 22 + at_ d 14 + at_ a 7 + at_ i 0]
  | .ori u d a i => [aluW 2 7 + bAt u 22 + at_ d 14 + at_ a 7 + at_ i 0]
  | .xori u d a i => [aluW 2 8 + bAt u 22 + at_ d 14 + at_ a 7 + at_ i 0]
  | .shli u d a i => [aluW 2 9 + bAt u 22 + at_ d 14 + at_ a 7 + at_ i 0]
  | .shri u d a i => [aluW 2 10 + bAt u 22 + at_ d 14 + at_ a 7 + at_ i 0]
  | .sari u d a i => [aluW 2 11 + bAt u 22 + at_ d 14 + at_ a 7 + at_ i 0]
  | .lea4 u d a b => [aluW 2 12 + bAt u 22 + at_ d 14 + at_ a 7 + at_ b 0]
  | .lea8 u d a b => [aluW 2 13 + bAt u 22 + at_ d 14 + at_ a 7 + at_ b 0]
  | .csrr u d i => [aluW 2 14 + bAt u 22 + at_ d 14 + at_ i 0]
  | .csrw u d i => [aluW 2 15 + bAt u 22 + at_ d 14 + at_ i 0]
  | .fadd m d a b => [aluW 3 0 + m.enc + at_ d 14 + at_ a 7 + at_ b 0]
  | .fsub m d a b => [aluW 3 1 + m.enc + at_ d 14 + at_ a 7 + at_ b 0]
  | .fmul m d a b => [aluW 3 2 + m.enc + at_ d 14 + at_ a 7 + at_ b 0]
  | .ffma m d a b => [aluW 3 3 + m.enc + at_ d 14 + at_ a 7 + at_ b 0]
  | .ffms m d a b => [aluW 3 4 + m.enc + at_ d 14 + at_ a 7 + at_ b 0]
  | .fmin m d a b => [aluW 3 5 + m.enc + at_ d 14 + at_ a 7 + at_ b 0]
  | .fmax m d a b => [aluW 3 6 + m.enc + at_ d 14 + at_ a 7 + at_ b 0]
  | .fminn m d a b => [aluW 3 7 + m.enc + at_ d 14 + at_ a 7 + at_ b 0]
  | .fmaxn m d a b => [aluW 3 8 + m.enc + at_ d 14 + at_ a 7 + at_ b 0]
  | .fabs u d a => [aluW 3 9 + bAt u 22 + at_ d 14 + at_ a 7]
  | .fneg u d a => [aluW 3 10 + bAt u 22 + at_ d 14 + at_ a 7]
  | .fcpys m d a b => [aluW 3 11 + m.enc + at_ d 14 + at_ a 7 + at_ b 0]
  | .frnd u d a m => [aluW 3 12 + bAt u 22 + at_ d 14 + at_ a 7 + at_ m 0]
  | .fclass u d a => [aluW 3 13 + bAt u 22 + at_ d 14 + at_ a 7]
  | .fscale m d a b => [aluW 3 14 + m.enc + at_ d 14 + at_ a 7 + at_ b 0]
  | .fdiv m d a b => [aluW 3 15 + m.enc + at_ d 14 + at_ a 7 + at_ b 0]
  | .hadd2 m d a b => [aluW 4 0 + m.enc + at_ d 14 + at_ a 7 + at_ b 0]
  | .hmul2 m d a b => [aluW 4 1 + m.enc + at_ d 14 + at_ a 7 + at_ b 0]
  | .hfma2 m d a b => [aluW 4 2 + m.enc + at_ d 14 + at_ a 7 + at_ b 0]
  | .hmin2 m d a b => [aluW 4 3 + m.enc + at_ d 14 + at_ a 7 + at_ b 0]
  | .hmax2 m d a b => [aluW 4 4 + m.enc + at_ d 14 + at_ a 7 + at_ b 0]
  | .badd2 m d a b => [aluW 4 5 + m.enc + at_ d 14 + at_ a 7 + at_ b 0]
  | .bmul2 m d a b => [aluW 4 6 + m.enc + at_ d 14 + at_ a 7 + at_ b 0]
  | .bfma2 m d a b => [aluW 4 7 + m.enc + at_ d 14 + at_ a 7 + at_ b 0]
  | .bmin2 m d a b => [aluW 4 8 + m.enc + at_ d 14 + at_ a 7 + at_ b 0]
  | .bmax2 m d a b => [aluW 4 9 + m.enc + at_ d 14 + at_ a 7 + at_ b 0]
  | .hdot2 m d a b => [aluW 4 10 + m.enc + at_ d 14 + at_ a 7 + at_ b 0]
  | .bdot2 m d a b => [aluW 4 11 + m.enc + at_ d 14 + at_ a 7 + at_ b 0]
  | .qdot4 m d a b => [aluW 4 12 + m.enc + at_ d 14 + at_ a 7 + at_ b 0]
  | .idot4s m d a b => [aluW 4 13 + m.enc + at_ d 14 + at_ a 7 + at_ b 0]
  | .idot4u m d a b => [aluW 4 14 + m.enc + at_ d 14 + at_ a 7 + at_ b 0]
  | .idot8 m d a b => [aluW 4 15 + m.enc + at_ d 14 + at_ a 7 + at_ b 0]
  | .cvtff u d a x y m => [aluW 5 0 + bAt u 22 + at_ d 14 + at_ a 7 + at_ x 5 + at_ y 3 + at_ m 0]
  | .cvtfi u d a y m => [aluW 5 1 + bAt u 22 + at_ d 14 + at_ a 7 + at_ y 3 + at_ m 0]
  | .cvtif u d a y g m => [aluW 5 2 + bAt u 22 + at_ d 14 + at_ a 7 + at_ y 4 + bAt g 3 + at_ m 0]
  | .cvtii u d a w t v => [aluW 5 3 + bAt u 22 + at_ d 14 + at_ a 7 + at_ w 2 + bAt t 1 + bAt v 0]
  | .packb8 m d a b => [aluW 5 4 + m.enc + at_ d 14 + at_ a 7 + at_ b 0]
  | .unpkb8 u d a p e x j => [aluW 5 5 + bAt u 22 + at_ d 14 + at_ a 7 + at_ p 4 + bAt e 3 + bAt x 2 + at_ j 0]
  | .packi4 m d a b => [aluW 5 6 + m.enc + at_ d 14 + at_ a 7 + at_ b 0]
  | .unpki4 u d a x j => [aluW 5 7 + bAt u 22 + at_ d 14 + at_ a 7 + bAt x 3 + at_ j 0]
  | .qmaxb d a => [aluW 5 8 + at_ d 14 + at_ a 7]
  | .qpick u d a i => [aluW 5 9 + bAt u 22 + at_ d 14 + at_ a 7 + at_ i 0]
  | .srnd u d i => [aluW 5 10 + bAt u 22 + at_ d 14 + at_ i 0]
  | .fexp u d a => [aluW 5 11 + bAt u 22 + at_ d 14 + at_ a 7]
  | .rcp u d a => [aluW 6 0 + bAt u 22 + at_ d 14 + at_ a 7]
  | .rsq u d a => [aluW 6 1 + bAt u 22 + at_ d 14 + at_ a 7]
  | .sqrt u d a => [aluW 6 2 + bAt u 22 + at_ d 14 + at_ a 7]
  | .ex2 u d a => [aluW 6 3 + bAt u 22 + at_ d 14 + at_ a 7]
  | .lg2 u d a => [aluW 6 4 + bAt u 22 + at_ d 14 + at_ a 7]
  | .sinpi u d a => [aluW 6 5 + bAt u 22 + at_ d 14 + at_ a 7]
  | .cospi u d a => [aluW 6 6 + bAt u 22 + at_ d 14 + at_ a 7]
  | .tanh u d a => [aluW 6 7 + bAt u 22 + at_ d 14 + at_ a 7]
  | .rcph u d a => [aluW 6 8 + bAt u 22 + at_ d 14 + at_ a 7]
  | .ex2h u d a => [aluW 6 9 + bAt u 22 + at_ d 14 + at_ a 7]
  | .iseteq m d a b => [aluW 7 0 + m.enc + at_ d 14 + at_ a 7 + at_ b 0]
  | .isetne m d a b => [aluW 7 1 + m.enc + at_ d 14 + at_ a 7 + at_ b 0]
  | .isetlt m d a b => [aluW 7 2 + m.enc + at_ d 14 + at_ a 7 + at_ b 0]
  | .isetle m d a b => [aluW 7 3 + m.enc + at_ d 14 + at_ a 7 + at_ b 0]
  | .isetltu m d a b => [aluW 7 4 + m.enc + at_ d 14 + at_ a 7 + at_ b 0]
  | .isetleu m d a b => [aluW 7 5 + m.enc + at_ d 14 + at_ a 7 + at_ b 0]
  | .fseteq m d a b => [aluW 7 6 + m.enc + at_ d 14 + at_ a 7 + at_ b 0]
  | .fsetne m d a b => [aluW 7 7 + m.enc + at_ d 14 + at_ a 7 + at_ b 0]
  | .fsetlt m d a b => [aluW 7 8 + m.enc + at_ d 14 + at_ a 7 + at_ b 0]
  | .fsetle m d a b => [aluW 7 9 + m.enc + at_ d 14 + at_ a 7 + at_ b 0]
  | .fsetun m d a b => [aluW 7 10 + m.enc + at_ d 14 + at_ a 7 + at_ b 0]
  | .pand d a b => [aluW 7 11 + at_ d 14 + at_ a 7 + at_ b 0]
  | .por d a b => [aluW 7 12 + at_ d 14 + at_ a 7 + at_ b 0]
  | .pxor d a b => [aluW 7 13 + at_ d 14 + at_ a 7 + at_ b 0]
  | .pandn d a b => [aluW 7 14 + at_ d 14 + at_ a 7 + at_ b 0]
  | .ptov d a => [aluW 7 15 + at_ d 14 + at_ a 7]
  | .shfli d a b => [fnW 8 0 + at_ d 14 + at_ a 7 + at_ b 0]
  | .shflu d a k => [fnW 8 1 + at_ d 14 + at_ a 7 + at_ k 0]
  | .shfld d a k => [fnW 8 2 + at_ d 14 + at_ a 7 + at_ k 0]
  | .shflx d a k => [fnW 8 3 + at_ d 14 + at_ a 7 + at_ k 0]
  | .vall d a => [fnW 8 4 + at_ d 14 + at_ a 7]
  | .vany d a => [fnW 8 5 + at_ d 14 + at_ a 7]
  | .vbal d a => [fnW 8 6 + at_ d 14 + at_ a 7]
  | .vmatch d a => [fnW 8 7 + at_ d 14 + at_ a 7]
  | .rdlane d a k => [fnW 8 8 + at_ d 14 + at_ a 7 + at_ k 0]
  | .redsumi d a => [fnW 8 9 + at_ d 14 + at_ a 7]
  | .redsumf d a => [fnW 8 10 + at_ d 14 + at_ a 7]
  | .scansumi d a => [fnW 8 11 + at_ d 14 + at_ a 7]
  | .scansumf d a => [fnW 8 12 + at_ d 14 + at_ a 7]
  | .elect d => [fnW 8 13 + at_ d 14]
  | .bmask d => [fnW 8 14 + at_ d 14]
  | .bra i => [fnW 9 0 + at_ i 0]
  | .brx a => [fnW 9 1 + at_ a 7]
  | .call i => [fnW 9 2 + at_ i 0]
  | .callx a => [fnW 9 3 + at_ a 7]
  | .ret => [fnW 9 4]
  | .exit => [fnW 9 5]
  | .trap i => [fnW 9 6 + at_ i 0]
  | .bpt i => [fnW 9 7 + at_ i 0]
  | .nop => [fnW 9 8]
  | .yield => [fnW 9 9]
  | .marm a => [fnW 9 10 + at_ a 7]
  | .mwait => [fnW 9 11]
  | .winv i => [fnW 9 12 + at_ i 0]
  | .wins i => [fnW 9 13 + at_ i 0]
  | .eret => [fnW 9 14]
  | .halt => [fnW 9 15]
  | .ld8 d a i => [fnW 10 0 + at_ d 14 + at_ a 7 + at_ i 0]
  | .ld8s d a i => [fnW 10 1 + at_ d 14 + at_ a 7 + at_ i 0]
  | .ld16 d a i => [fnW 10 2 + at_ d 14 + at_ a 7 + at_ i 0]
  | .ld16s d a i => [fnW 10 3 + at_ d 14 + at_ a 7 + at_ i 0]
  | .ld32 d a i => [fnW 10 4 + at_ d 14 + at_ a 7 + at_ i 0]
  | .ld64 d a i => [fnW 10 5 + at_ d 14 + at_ a 7 + at_ i 0]
  | .ld128 d a i => [fnW 10 6 + at_ d 14 + at_ a 7 + at_ i 0]
  | .st8 d a i => [fnW 10 7 + at_ d 14 + at_ a 7 + at_ i 0]
  | .st16 d a i => [fnW 10 8 + at_ d 14 + at_ a 7 + at_ i 0]
  | .st32 d a i => [fnW 10 9 + at_ d 14 + at_ a 7 + at_ i 0]
  | .st64 d a i => [fnW 10 10 + at_ d 14 + at_ a 7 + at_ i 0]
  | .st128 d a i => [fnW 10 11 + at_ d 14 + at_ a 7 + at_ i 0]
  | .ls32 d a i => [fnW 10 12 + at_ d 14 + at_ a 7 + at_ i 0]
  | .ls64 d a i => [fnW 10 13 + at_ d 14 + at_ a 7 + at_ i 0]
  | .ls128 d a i => [fnW 10 14 + at_ d 14 + at_ a 7 + at_ i 0]
  | .ss32 d a i => [fnW 10 15 + at_ d 14 + at_ a 7 + at_ i 0]
  | .ss64 d a i => [fnW 10 16 + at_ d 14 + at_ a 7 + at_ i 0]
  | .ss128 d a i => [fnW 10 17 + at_ d 14 + at_ a 7 + at_ i 0]
  | .lq q d => [fnW 10 18 + at_ q 14 + at_ d 7]
  | .sq q a => [fnW 10 19 + at_ q 14 + at_ a 7]
  | .ltag d a i => [fnW 10 20 + at_ d 14 + at_ a 7 + at_ i 0]
  | .stag d a i => [fnW 10 21 + at_ d 14 + at_ a 7 + at_ i 0]
  | .lda32 d a o h => [fnW 10 22 + at_ d 14 + at_ a 7 + at_ o 3 + at_ h 0]
  | .lda64 d a o h => [fnW 10 23 + at_ d 14 + at_ a 7 + at_ o 3 + at_ h 0]
  | .sta32 d a o h => [fnW 10 24 + at_ d 14 + at_ a 7 + at_ o 3 + at_ h 0]
  | .sta64 d a o h => [fnW 10 25 + at_ d 14 + at_ a 7 + at_ o 3 + at_ h 0]
  | .pref a i => [fnW 10 26 + at_ a 7 + at_ i 0]
  | .ldk32 d a i => [fnW 10 27 + at_ d 14 + at_ a 7 + at_ i 0]
  | .ldk64 d a i => [fnW 10 28 + at_ d 14 + at_ a 7 + at_ i 0]
  | .lsk32 d a => [fnW 10 29 + at_ d 14 + at_ a 7]
  | .aadd d a b t => atomW 0 d a b t
  | .amin d a b t => atomW 1 d a b t
  | .amax d a b t => atomW 2 d a b t
  | .aminu d a b t => atomW 3 d a b t
  | .amaxu d a b t => atomW 4 d a b t
  | .aand d a b t => atomW 5 d a b t
  | .aor d a b t => atomW 6 d a b t
  | .axor d a b t => atomW 7 d a b t
  | .axchg d a b t => atomW 8 d a b t
  | .acas d a b t => atomW 9 d a b t
  | .afadd d a b t => atomW 10 d a b t
  | .afmax d a b t => atomW 11 d a b t
  | .ainc d a b t => atomW 12 d a b t
  | .adec d a b t => atomW 13 d a b t
  | .fence k h => [fnW 11 16 + at_ k 17 + at_ h 14]
  | .fencex => [fnW 11 17]
  | .phase => [fnW 11 18]
  | .ifence => [fnW 11 19]
  | .gnew d => [fnW 12 0 + at_ d 14]
  | .gjoin a => [fnW 12 1 + at_ a 7]
  | .gleave => [fnW 12 2]
  | .gfree d a => [fnW 12 3 + at_ d 14 + at_ a 7]
  | .gmask d => [fnW 12 4 + at_ d 14]
  | .barr n v r u e => [fnW 12 5 + at_ n 14 + at_ v 7 + bAt r 3 + bAt u 2 + at_ e 0]
  | .bwait n v r u e => [fnW 12 6 + at_ n 14 + at_ v 7 + bAt r 3 + bAt u 2 + at_ e 0]
  | .bsync n v r u e => [fnW 12 7 + at_ n 14 + at_ v 7 + bAt r 3 + bAt u 2 + at_ e 0]
  | .bexpect n v u e => [fnW 12 8 + at_ n 14 + at_ v 7 + bAt u 2 + at_ e 0 + 8]
  | .bdone n u e => [fnW 12 9 + at_ n 14 + bAt u 2 + at_ e 0]
  | .tsub d a => [fnW 12 10 + at_ d 14 + at_ a 7]
  | .tlwait h v => [fnW 12 11 + at_ h 14 + at_ v 7]
  | .tlread v h => [fnW 12 12 + at_ v 14 + at_ h 7]
  | .tlsig h v => [fnW 12 13 + at_ h 14 + at_ v 7]
  | .bqrySlot n v u e => [fnW 12 14 + at_ n 14 + at_ v 7 + bAt u 2 + at_ e 0 + 8]
  | .mldw n a c => [fnW 13 0 + at_ n 14 + at_ a 7 + at_ c 0]
  | .mldwd n a c => [fnW 13 1 + at_ n 14 + at_ a 7 + at_ c 0]
  | .mma t m n a c => [fnW 13 2 + at_ t 19 + at_ m 17 + at_ n 14 + at_ a 7 + at_ c 0]
  | .mmad t m n a c => [fnW 13 3 + at_ t 19 + at_ m 17 + at_ n 14 + at_ a 7 + at_ c 0]
  | .mzero t m => [fnW 13 4 + at_ t 19 + at_ m 17]
  | .mdrain t m a c => [fnW 13 5 + at_ t 19 + at_ m 17 + at_ a 7 + at_ c 0]
  | .mdraint t a c => [fnW 13 6 + at_ t 19 + at_ a 7 + at_ c 0]
  | .mdrainp t m a c => [fnW 13 7 + at_ t 19 + at_ m 17 + at_ a 7 + at_ c 0]
  | .mreds t m n a => [fnW 13 8 + at_ t 19 + at_ m 17 + at_ n 14 + at_ a 7]
  | .mscan t m a => [fnW 13 9 + at_ t 19 + at_ m 17 + at_ a 7]
  | .mldz t m a => [fnW 13 10 + at_ t 19 + at_ m 17 + at_ a 7]
  | .mstz t m a c => [fnW 13 11 + at_ t 19 + at_ m 17 + at_ a 7 + at_ c 0]
  | .mstat t l sel a => [fnW 13 12 + at_ t 19 + bAt l 17 + at_ sel 14 + at_ a 7]
  | .bcopy d a => [fnW 14 0 + at_ d 14 + at_ a 7]
  | .bcancel d a b => [fnW 14 1 + at_ d 14 + at_ a 7 + at_ b 0]
  | .bqryQueue d a => [fnW 14 2 + at_ d 14 + at_ a 7]
  | .kvx d a b => [fnW 14 4 + at_ d 14 + at_ a 7 + at_ b 0]
  | .kvput d a b => [fnW 14 5 + at_ d 14 + at_ a 7 + at_ b 0]
  | .kvpin d a b => [fnW 14 6 + at_ d 14 + at_ a 7 + at_ b 0]
  | .kvunpin d a b => [fnW 14 7 + at_ d 14 + at_ a 7 + at_ b 0]
  | .kvfree d a b => [fnW 14 8 + at_ d 14 + at_ a 7 + at_ b 0]
  | .astart d a => [fnW 14 9 + at_ d 14 + at_ a 7]
  | .amload d a => [fnW 14 10 + at_ d 14 + at_ a 7]
  | .aproj d a b => [fnW 14 11 + at_ d 14 + at_ a 7 + at_ b 0]
  | .astat d a => [fnW 14 12 + at_ d 14 + at_ a 7]
  | .apstart d a b => [fnW 14 16 + at_ d 14 + at_ a 7 + at_ b 0]
  | .apstop d b => [fnW 14 17 + at_ d 14 + at_ b 0]
  | .appush a b => [fnW 14 18 + at_ a 7 + at_ b 0]
  | .apfetch d b => [fnW 14 19 + at_ d 14 + at_ b 0]
  | .grd p n l => [fnW 15 0 + at_ p 14 + bAt n 10 + at_ l 7]
  | .rep c x y z => [fnW 15 1 + at_ c 14 + at_ x 11 + at_ y 7 + at_ z 0]
  | .bankcfg d a b => [fnW 15 8 + at_ d 14 + at_ a 7 + at_ b 0]
  | .worldcfgCreate d a => [fnW 15 9 + at_ d 14 + at_ a 7]
  | .worldcfgTvec d a => [fnW 15 9 + at_ d 14 + at_ a 7]
  | .worldcfgDrawers d a => [fnW 15 9 + at_ d 14 + at_ a 7]
  | .worldcfgBanks d a => [fnW 15 9 + at_ d 14 + at_ a 7]
  | .worldcfgRoot d a => [fnW 15 9 + at_ d 14 + at_ a 7]
  | .worldcfgDestroy d a => [fnW 15 9 + at_ d 14 + at_ a 7]
  | .worldcfgTlpool d a => [fnW 15 9 + at_ d 14 + at_ a 7]
  | .tlbinvAddress a b => [fnW 15 10 + at_ a 7 + at_ b 0]
  | .tlbinvWorld a b => [fnW 15 10 + at_ a 7 + at_ b 0]
  | .tlbinvAll a b => [fnW 15 10 + at_ a 7 + at_ b 0]
  | .keyld d a => [fnW 15 11 + at_ d 14 + at_ a 7]
  | .lsetConfig d a b => [fnW 15 12 + at_ d 14 + at_ a 7 + at_ b 0]
  | .lsetOffer d a b => [fnW 15 12 + at_ d 14 + at_ a 7 + at_ b 0]
  | .lsetAccept d a b => [fnW 15 12 + at_ d 14 + at_ a 7 + at_ b 0]
  | .lsetDecline d a b => [fnW 15 12 + at_ d 14 + at_ a 7 + at_ b 0]
  | .lsetRenew d a b => [fnW 15 12 + at_ d 14 + at_ a 7 + at_ b 0]
  | .lsetPfetch d a b => [fnW 15 12 + at_ d 14 + at_ a 7 + at_ b 0]
  | .lsetFree d a b => [fnW 15 12 + at_ d 14 + at_ a 7 + at_ b 0]
  | .lsetElect d a b => [fnW 15 12 + at_ d 14 + at_ a 7 + at_ b 0]
  | .lgetEntryLow d a => [fnW 15 13 + at_ d 14 + at_ a 7]
  | .lgetEntryHigh d a => [fnW 15 13 + at_ d 14 + at_ a 7]
  | .lgetFabricStatus d a => [fnW 15 13 + at_ d 14 + at_ a 7]
  | .lrecall d a => [fnW 15 14 + at_ d 14 + at_ a 7]
  | .bisnp d a b => [fnW 15 15 + at_ d 14 + at_ a 7 + at_ b 0]
  | .hinit d => [fnW 15 16 + at_ d 14]
  | .habs d a b => [fnW 15 17 + at_ d 14 + at_ a 7 + at_ b 0]
  | .hfin d a b => [fnW 15 18 + at_ d 14 + at_ a 7 + at_ b 0]
  | .sign d a b => [fnW 15 19 + at_ d 14 + at_ a 7 + at_ b 0]
  | .mext d a b => [fnW 15 20 + at_ d 14 + at_ a 7 + at_ b 0]
  | .nvinc d a => [fnW 15 21 + at_ d 14 + at_ a 7]
  | .seal d a b => [fnW 15 22 + at_ d 14 + at_ a 7 + at_ b 0]
  | .unseal d a => [fnW 15 23 + at_ d 14 + at_ a 7]
  | .snap d a => [fnW 15 24 + at_ d 14 + at_ a 7]
  | .scrub d a b => [fnW 15 25 + at_ d 14 + at_ a 7 + at_ b 0]
  | .resync d a => [fnW 15 26 + at_ d 14 + at_ a 7]
  | .ipi a b => [fnW 15 27 + at_ a 7 + at_ b 0]
  | .capr d a => [fnW 15 28 + at_ d 14 + at_ a 7]
  | .placePrefer d a b => [fnW 15 29 + at_ d 14 + at_ a 7 + at_ b 0]
  | .placePin d a b => [fnW 15 29 + at_ d 14 + at_ a 7 + at_ b 0]
  | .placeUnpin d a b => [fnW 15 29 + at_ d 14 + at_ a 7 + at_ b 0]
  | .placeFrames d a b => [fnW 15 29 + at_ d 14 + at_ a 7 + at_ b 0]
  | .evtpop d n => [fnW 15 30 + at_ d 14 + bAt n 0]
  | .qload => [0, 1 * 2 ^ 26]
  | .sig => [0, 2 * 2 ^ 26]
  | .kwalk => [0, 3 * 2 ^ 26]
  | .tlstDense => [0, 4 * 2 ^ 26]
  | .tlstGathered => [1, 4 * 2 ^ 26]
  | .cntTl ra => [0 * 2 ^ 20, 5 * 2 ^ 26 + at_ ra 22]
  | .cntChunks ra => [1 * 2 ^ 20, 5 * 2 ^ 26 + at_ ra 22]
  | .cntLen ra => [2 * 2 ^ 20, 5 * 2 ^ 26 + at_ ra 22]
  | .cntAct ra => [3 * 2 ^ 20, 5 * 2 ^ 26 + at_ ra 22]
  | .cntAdd ra rb n => [4 * 2 ^ 20 + at_ n 0, 5 * 2 ^ 26 + at_ ra 22 + at_ rb 18]
  | .gath ra => [0, 6 * 2 ^ 26 + at_ ra 22]
  | .sync => [0, 7 * 2 ^ 26]
  | .kload => [0, 8 * 2 ^ 26]
  | .vload => [0, 9 * 2 ^ 26]
  | .smm => [0, 10 * 2 ^ 26]
  | .mask => [0, 11 * 2 ^ 26]
  | .rmax => [0, 12 * 2 ^ 26]
  | .resc => [0, 13 * 2 ^ 26]
  | .exps => [0, 14 * 2 ^ 26]
  | .rsum => [0, 15 * 2 ^ 26]
  | .pmm => [0, 16 * 2 ^ 26]
  | .sto => [0, 17 * 2 ^ 26]
  | .lse => [0, 18 * 2 ^ 26]
  | .fbk => [0, 19 * 2 ^ 26]
  | .br tgt => [at_ tgt 24 % 2 ^ 32, 20 * 2 ^ 26 + tgt.toNat / 2 ^ 8]
  | .brc ra rb tgt cond => [(at_ tgt 24 + at_ cond 0) % 2 ^ 32, 21 * 2 ^ 26 + at_ ra 22 + at_ rb 18 + tgt.toNat / 2 ^ 8]
  | .loop ra tgt => [at_ tgt 24 % 2 ^ 32, 22 * 2 ^ 26 + at_ ra 22 + tgt.toNat / 2 ^ 8]
  | .waitz => [0, 23 * 2 ^ 26]
  | .microHalt code => [bAt code 0, 24 * 2 ^ 26]
  | .resultWriteback _ _ _ => []
  | .benchAdmit _ => []
  | .watchdogExpiry _ => []
  | .integrityCheckComplete _ => []
  | .taskAccept _ => []
  | .taskQueueConsume _ => []
  | .taskDispatch _ _ => []
  | .taskCommit _ => []
  | .phaseCommit _ => []
  | .taskRequeue _ => []
  | .taskFail _ => []
  | .benchResume _ => []
  | .benchRestore _ => []
  | .spuriousWakeup _ _ => []
  | .mxuCommandExecute _ _ => []
  | .peerRowReceive _ => []
  | .peerAckReceive _ _ _ => []
  | .peerResend _ _ => []
  | .queueSlotConsume _ => []
  | .copy _ _ => []
  | .reducingCopy _ _ => []
  | .transpose _ _ => []
  | .quant _ _ => []
  | .dequant _ _ => []
  | .swizzle _ _ => []
  | .gather _ _ => []
  | .im2col _ _ => []
  | .zero _ _ => []
  | .migrate _ _ => []
  | .bteBlockLand _ _ => []
  | .bteOperationComplete _ _ => []
  | .reduceBlockReceive _ => []
  | .asqRunStart _ => []
  | .snapExecute => []
  | .scrubExecute => []
  | .sdcEvict _ _ => []
  | .pageMigration _ _ => []
  | .migrationSwitchover _ => []
  | .classifierWindow => []
  | .offer _ => []
  | .accept _ => []
  | .decline _ => []
  | .grant _ => []
  | .nak _ => []
  | .recall _ => []
  | .release _ => []
  | .renew _ => []
  | .renewed _ => []
  | .refused _ => []
  | .bisnpdata _ _ _ => []
  | .bisnpinv _ _ _ => []
  | .leaseFlushComplete _ => []
  | .leaseExpiry _ => []
  | .wbleadExpiry _ => []
  | .rcwinExpiry _ => []
  | .hbeatTick _ => []
  | .peerDeclaredFailed _ => []
  | .linkDown _ => []
  | .bulletinAccess _ => []
  | .settleExpiry => []
  | .leasePrefetch _ => []
  | .cxlMemRequest _ => []
  | .pcieMemoryRequest _ => []
  | .getVersion _ => []
  | .getCapabilities _ => []
  | .negotiateAlgorithms _ => []
  | .getDigests _ => []
  | .getCertificate _ _ => []
  | .challenge _ => []
  | .getMeasurements _ _ => []
  | .keyExchange _ _ => []
  | .finish _ => []
  | .heartbeat _ => []
  | .keyUpdate _ => []
  | .endSession _ => []
  | .recordExport _ => []
  | .spdmResync _ => []
  | .recordExportAck _ => []
  | .recordBusy _ => []
  | .recordExportTimeout => []
  | .qcmdRegister => []
  | .qcmdUnregister => []
  | .arenaRegister => []
  | .arenaUnregister => []
  | .vcmdVacate => []
  | .vcmdReturn => []
  | .vacationComplete => []
  | .xpeerExport => []
  | .classifierSelect _ => []
  | .ddcfgWrite _ _ => []
  | .counterClear _ => []
  | .mmioRegisterWrite _ _ _ => []
  | .boot => []
  | .thermalLimit => []
  | .powerFailure => []
  | .malformedWord => []
  | .fetchFault => []
  | .heldCommitResume _ => []
  | .stoppedTaskDiscard _ => []
  | .linkUp _ _ _ => []
  | .remoteWriteAck _ _ => []

/-- The words of an instruction with its stop bit, bit 31 of the first word (R53). -/
def encode (stop : Bool) (i : Instr) : List Word :=
  match encodeWords i with
  | w :: ws => BitVec.ofNat 32 (w + bAt stop 31) :: ws.map (BitVec.ofNat 32)
  | [] => []

/-- The microword of a micro-op (R311). -/
def encodeMicro (i : Instr) : DWord :=
  match encodeWords i with
  | [lo, hi] => BitVec.ofNat 64 (lo + hi * 2 ^ 32)
  | _ => 0

/-- Whether an instruction is a micro-op of the attention sequencer (Table 11.13). -/
def Instr.isMicro : Instr → Bool
  | .qload | .sig | .kwalk | .tlstDense | .tlstGathered | .cntTl _ | .cntChunks _ | .cntLen _ | .cntAct _ | .cntAdd _ _ _
  | .gath _ | .sync | .kload | .vload | .smm | .mask | .rmax | .resc | .exps | .rsum | .pmm | .sto | .lse | .fbk | .br _
  | .brc _ _ _ _ | .loop _ _ | .waitz | .microHalt _ => true
  | _ => false

/-- The instruction that stands for all rows with the same word: rows that a register operand selects at execution share one word
(WORLDCFG, TLBINV, LSET, LGET, PLACE), and decoding gives the first of them (log entry 12). -/
noncomputable def Instr.first : Instr → Instr
  | .worldcfgTvec d a | .worldcfgDrawers d a | .worldcfgBanks d a | .worldcfgRoot d a | .worldcfgDestroy d a
  | .worldcfgTlpool d a => .worldcfgCreate d a
  | .tlbinvWorld a b | .tlbinvAll a b => .tlbinvAddress a b
  | .lsetOffer d a b | .lsetAccept d a b | .lsetDecline d a b | .lsetRenew d a b | .lsetPfetch d a b | .lsetFree d a b
  | .lsetElect d a b => .lsetConfig d a b
  | .lgetEntryHigh d a | .lgetFabricStatus d a => .lgetEntryLow d a
  | .placePin d a b | .placeUnpin d a b | .placeFrames d a b => .placePrefer d a b
  | i => i

end Sys2Proof
end

