-- ==== Sys2Proof/Machine/Units.lean ====
section
/-! DEFINITION. The state of the engines as plain data: matrix units (Table 9.1), block-transfer queues and operations
(Tables 10.1, 10.2, 10.5), attention sequencers (R305). -/

namespace Sys2Proof.Machine

/-- Trap causes (Table 5.4). -/
inductive Cause where
  | illegal | resfield | priv | profile | hazard | regrange | rsunder | align | page | perm | lease | tag | worldfence | barovf
  | grouplimit | undeclared | snaplost | integrity | ue | densefb | kvabsent | micro | bpt | soft | watchdog
  deriving DecidableEq, Repr

/-- A fault of an access: cause, sub-code (Table 5.4), `tval`. -/
structure AFault where
  c   : Cause
  sub : Nat
  v   : DWord
  deriving DecidableEq, Repr

/-! ### The matrix unit -/

/-- A valid ordered-difference record of the weight buffer (R244, R245): its byte offset, PERM, q(0) … q(63), scale byte. -/
structure Odf where
  pos    : Nat
  perm   : List Nat
  q      : List Int
  scale  : Nat
  poison : Bool
  deriving DecidableEq, Repr

/-- The commands of a matrix unit (Table 9.3), and a received row (R255). -/
inductive MxKind where
  | ldw | ldwd | mma | mmad | zero | drain | drainT | drainP | reds | scan | ldz | stz | row
  deriving DecidableEq, Repr

/-- Where a drain folds its maximum (R253): a scratchpad offset, or a translated world address. -/
inductive Fold where
  | none
  | spad (x : Nat)
  | mem (dpa wva : Nat)
  deriving DecidableEq, Repr

/-- Who started an engine's work, and what was captured from the thread at issue (R238, R284): its task, world and bench,
`spkey`, `srseed`, the rounding mode, the physical core slot of a BDONE, and the sequencer run that issued it. -/
structure Who where
  task  : Nat
  world : Nat
  place : Option Place
  key   : Word
  seed  : DWord
  mode  : Nat
  slot  : Option Nat
  run   : Option Nat
  deriving DecidableEq, Repr

/-- A peer-drain packet on the on-die fabric (R255): sender and target as 8 × core + drawer. -/
structure PeerPkt where
  src   : Nat
  world : Nat
  seq   : Nat
  dst   : Nat
  tile  : Nat
  m     : Nat
  vals  : List Deep
  deriving DecidableEq, Repr

/-- A command (R234): its timeline number, tile, shape, operands of Table 9.5, control word, fold, peer target. A received row
carries its packet. -/
structure MxCmd where
  num   : Nat
  kind  : MxKind
  who   : Who
  t     : Nat
  m     : Nat
  b     : Nat
  ofs   : Nat
  ovr   : Nat
  str   : Nat
  w     : Nat
  ctl   : Word
  tofs  : Nat
  fold  : Fold
  tgt   : Nat × Nat × Nat
  row   : Option PeerPkt
  deriving DecidableEq, Repr

/-- A fault record (R232, R258): cause, command or run number, address, and the task it is delivered to. -/
structure FaultRec where
  cause : Cause
  num   : Nat
  addr  : DWord
  task  : Nat
  deriving DecidableEq, Repr

/-- A peer drain in progress (R255): its first sequence, and the sequences acknowledged and refused. -/
structure PeerSend where
  base    : Nat
  acked   : List Nat
  refused : List Nat
  deriving DecidableEq, Repr

/-- Tile registers and weight buffer (Table 9.1). An unlisted tile element is finite 0 and an unlisted unit zero with tag
0x007F, or, after a claim, the free value `seed` gives it (R233; log entry 4); `freed` does so for what a run of the attention
sequencer used (R305). -/
structure MxData where
  seed  : Option Nat
  freed : Option Nat
  tiles : Map Deep
  units : Map (List Byte × Tag)
  recs  : List Odf
  flags : Map Nat
  deriving DecidableEq, Repr

structure Mxu where
  data   : MxData
  queue  : List MxCmd
  done   : Nat
  asn    : Nat
  status : Nat
  fault  : Option FaultRec
  pseq   : Nat
  recv   : Map Nat
  claim  : Option Nat
  send   : Option PeerSend
  held   : Bool
  deriving DecidableEq, Repr

/-- What a pre-empted task's matrix unit held (R233). -/
structure MxSave where
  task   : Nat
  mx     : Nat
  data   : MxData
  status : Nat
  pseq   : Nat
  deriving DecidableEq, Repr

/-- An acknowledgement or a refusal on its way back. -/
structure PeerAck where
  dst : Nat
  seq : Nat
  ok  : Bool
  deriving DecidableEq, Repr

/-! ### The block-transfer engine -/

/-- A layout record (Table 10.3). -/
structure Layout where
  base  : Nat
  mod   : Nat
  ndim  : Nat
  esz   : Nat
  space : Nat
  ext   : List Nat
  str   : List Int
  pad   : Nat
  key   : Word
  deriving DecidableEq, Repr

/-- What a destination block receives (R280): 64 bytes and a tag, with the flags of the record that its forming sets (Table 10.5); or
the fault that stops the operation there. `addr` is the address in the destination's space. -/
inductive BBlk where
  | data (addr : Nat) (bs : List Byte) (tag : Tag) (fl : Nat := 0)
  | move (src dst : Nat)
  | fault (f : AFault)
  deriving DecidableEq, Repr

inductive BState where
  | pending | running | cancelled
  deriving DecidableEq, Repr

/-- How far an operation is. `blocks` are what is still to land, `landed` counts the landed ones; `rows` are the scratchpad
blocks whose presence is still raised (R182); `comp` is set once the transform has been computed; `sent` counts remote blocks
not yet acknowledged (R40); `fmt` is the format of a reducing copy's unpoisoned blocks (R92); `sq` the number its queue goes by at other
modules (R278), fixed when it is enqueued. -/
structure BProg where
  state  : BState
  comp   : Bool
  blocks : List BBlk
  landed : Nat
  rows   : List Nat
  flags  : Nat
  fold   : Option Word
  cause  : Option (Nat × DWord)
  status : Nat
  fol    : Option MxCmd
  sent   : Nat
  held   : Bool
  fmt    : Option Elem
  sq     : Nat
  deriving DecidableEq, Repr

/-- An operation of a queue (R263, R280): its packet and layouts, who issued it, the core whose scratchpad it uses, the keys
of source and destination, the snapshot its source is read at (R279). -/
structure BOp where
  n    : Nat
  pk   : List Word
  src  : Option Layout
  dst  : Layout
  who  : Who
  core : Nat
  keyS : Word
  keyD : Word
  snap : Option Nat
  prog : BProg
  deriving DecidableEq, Repr

/-- A queue (Table 10.1): where its header and rings stand, the next operation number, its timeline, the completed numbers
above it, the operations in flight and the line buffer (R274); `closed` once it is unregistered. Local queues use the last fields
only. -/
structure BQueue where
  qid   : QId
  world : Nat
  sys   : Bool
  eng   : Bool
  bind  : Nat
  hdr   : Nat
  ring  : Nat
  cring : Nat
  log2n : Nat
  cidx  : Nat
  next  : Nat
  tl    : Nat
  fin   : List Nat
  ops   : List BOp
  lbuf  : Map (List Byte × Tag)
  fault : Option FaultRec
  closed : Bool
  deriving DecidableEq, Repr

/-- A block sent to another module (R40, R277, R278), kept until its acknowledgement, so that the fabric can send it again: its place
`pos` in its operation, and, of a reducing block, its index (`none` is a plain write) with the mode, seed and task of its rounding
(R86) and the format byte of its operand's unpoisoned blocks, 0 for none (R92); `line` is the line of leased memory it writes, by DPA (R34, R45). -/
structure Remote where
  mid   : Nat
  queue : Nat
  op    : Nat
  idx   : Option Nat
  world : Nat
  wva   : Nat
  mode  : Nat
  seed  : DWord
  task  : Nat
  pos   : Nat
  data  : List Byte
  tag   : Tag
  line  : Option Nat
  fmt   : Nat
  deriving DecidableEq, Repr

/-- The receiver's window of a reducing copy (R278). -/
structure RWin where
  mid    : Nat
  queue  : Nat
  newest : Nat
  counts : Map Nat
  deriving DecidableEq, Repr

/-! ### The attention sequencer -/

/-- The KV records a run has captured (Tables 11.2, 11.3, 11.7). -/
structure KvParams where
  hdim   : Nat
  esz    : Nat
  vtag   : Nat
  ktag   : Nat
  maxp   : Nat
  plist  : Nat
  roots  : Nat
  head   : Nat
  len    : Nat
  repoch : Nat
  b      : Nat
  epoch  : Nat
  rows   : List Nat
  deriving DecidableEq, Repr

/-- The lists and arrays of a run (R305): TL, GL, σ, CT, MR, MN, LR, O, SB, pq. -/
structure AData where
  tl  : List Nat
  gl  : List Nat
  sig : Option (List (Option Nat))
  ct  : Option (List (Option Nat))
  mr  : List Word
  mn  : List Word
  lr  : List Word
  o   : Map Word
  sb  : Map Word
  pq  : Map Word
  deriving DecidableEq, Repr

/-- A block that a gather lands in staging (R315): its offset there, and where its contents come from when it lands: a key block, the
elements of one dimension, or zeros with a tag. -/
inductive GSrc where
  | key (a : Nat)
  | value (as : List (Option Nat)) (ez tag : Nat)
  | zero (tag : Nat)
  deriving DecidableEq, Repr
structure GBlk where
  x   : Nat
  src : GSrc
  deriving DecidableEq, Repr

/-- A run (R305): its number, who started it, start block, micro registers and flags, the pins of its chunk with their
sequence counters, the valid entries of each chunk's last pass, `sub`, the parts of the current micro-op that are done, and the gathers of the
last GATH, at `gpc`, that have not landed. -/
structure ARun where
  num    : Nat
  who    : Who
  blk    : List Word
  kv     : KvParams
  d      : AData
  pc     : Nat
  m      : List Word
  retry  : Bool
  fb     : Bool
  dns    : Bool
  att    : Map Nat
  pins   : List (Nat × Nat)
  gath   : List GBlk
  gpc    : Nat
  sub    : Nat
  bad    : Option (Cause × DWord)
  on     : Bool
  held   : Bool
  cancel : Bool
  deriving DecidableEq, Repr

/-- The record of a run (R308). -/
structure ARec where
  num    : Nat
  status : Nat
  cause  : Nat
  att    : Nat
  deriving DecidableEq, Repr

/-- The sequencer of a core (R305). `store` lists the microwords that differ from the reloaded store; `lastWorld` is the last
world to use it. -/
structure Asq where
  store : Map DWord
  last  : Option Nat
  runs  : List ARun
  next  : Nat
  done  : Nat
  recs  : List ARec
  fault : Option FaultRec
  deriving DecidableEq, Repr

end Sys2Proof.Machine
end

