-- ==== Sys2Proof/Machine/Hub.lean ====
section
/-! DEFINITION. The state of the H-die and of the memory side as plain data: the deduplicating cache (R322, R323), error counters
(Table 14.11), the checkpoint engine (R334, R338), the lease engine (R342, R348 to R350, R353), the trust root (R365, R378, R381),
the intensity classifier (R214), placement (R43, R383), flash, and what the module sends (log entry 17). -/

namespace Sys2Proof.Machine

/-! ### The deduplicating cache -/

/-- A data entry (R322): 64 stored bytes, the block tag, the reference count. -/
structure DEnt where
  bs   : List Byte
  tag  : Tag
  refc : Nat
  deriving DecidableEq, Repr

/-- A shareable logical line (R322): the committed value of a line, newer than its DRAM home where it is dirty, or a copy retained
for snapshots below `upto` (R26), in HSS once it is spilled there. Version lines stand in `Task.ver`. -/
structure LLine where
  line  : Nat
  upto  : Option Nat
  world : Nat
  ent   : Nat
  dirty : Bool
  hss   : Bool
  deriving DecidableEq, Repr

/-- The lead entry of a domain and a content hash (R323): its world, and whether only lines of sealed-constant pages have used
it (R325). -/
structure Lead where
  dom  : Nat
  hash : Nat
  ent  : Nat
  sc   : Bool
  deriving DecidableEq, Repr

/-- The event counters of Table 12.3. -/
structure SdcCnt where
  dhit   : DWord
  dcoll  : DWord
  dsat   : DWord
  snlost : DWord
  hspill : DWord
  deriving DecidableEq, Repr

/-- The cache: entries, lines, leads, how many HSS lines it holds, counters per world and in total, DDCFG modes that differ from
the reset value. -/
structure Sdc where
  ents  : Map DEnt
  lines : List LLine
  leads : List Lead
  hssl  : Nat
  cnt   : Map SdcCnt
  tot   : SdcCnt
  mode  : Map Nat
  deriving DecidableEq, Repr

/-- An error counter block (Table 14.11). -/
structure ErrCnt where
  corr  : DWord
  unc   : DWord
  lastc : DWord
  lastu : DWord
  deriving DecidableEq, Repr

/-! ### The checkpoint engine -/

/-- An operation of the DCE: a SNAP by its descriptor (Table 12.5), or a SCRUB (R338), with its number. -/
inductive DceOp where
  | snap (num src nblk : Nat) (peer conf : Bool) (mod pman nman dst : Nat)
  | scrub (num ext : Nat) (nonce : Word) (rcpt : Nat)
  deriving DecidableEq, Repr

/-- The DCE: queued operations, the next number, timeline `t10`; the header that waits for a peer's acknowledgements, and how
many are outstanding (R335); the 4 KiB blocks that the newest checkpoint holds (Table 12.4). -/
structure Dce where
  ops  : List DceOp
  next : Nat
  done : Nat
  hdr  : Option (List Byte)
  sent : Nat
  ckpt : List Nat
  deriving DecidableEq, Repr

/-! ### The lease engine -/

/-- The configuration of Table 13.8. -/
structure LseCfg where
  prio   : Nat
  cslot  : Nat
  failt  : Nat
  settle : Nat
  grace  : Nat
  rcwin  : Nat
  qnum   : Nat
  wblead : Nat
  deriving DecidableEq, Repr

/-- A peer in the routing table (R348): its HBEAT as last seen and when it last changed, its incarnation, and the incarnation
recorded at its declaration while it is excluded. -/
structure Peer where
  hbeat  : Nat
  at_    : Nat
  incarn : Nat
  excl   : Option Nat
  paths  : List Nat
  silent : Bool
  deriving DecidableEq, Repr

/-- A port after training (R340). -/
structure Port where
  up    : Bool
  cxl   : Bool
  width : Nat
  deriving DecidableEq, Repr

/-- Where an election stands (R350). -/
inductive EPhase where
  | idle | bids | settle | waitBid | confirms | waitAck | waitConfirm | ack | finals | waitFinal
  deriving DecidableEq, Repr

/-- What an election still writes to a bulletin: the module, the offset, the value; an addition for ACKCNT. -/
structure EWrite where
  mid : Nat
  off : Nat
  v   : DWord
  add : Bool
  deriving DecidableEq, Repr

/-- The election: phase, deadline, SETTLE as it was when the election began, writes to do (the head is outstanding once
`sent`), the best bidder, whether an acknowledgement was given in this epoch, and a later epoch that waits for it. -/
structure Elect where
  phase  : EPhase
  until_ : Nat
  settle : Nat
  todo   : List EWrite
  sent   : Bool
  best   : Nat
  acked  : Bool
  next   : Option Nat
  deriving DecidableEq, Repr

/-- A MIGRATE packet of the LSE that has not completed (R353): page, frame, queue and operation; `back` for a write-back; `live` until the
lender fails. -/
structure Ask where
  page  : Nat
  frame : Nat
  queue : Nat
  num   : Nat
  back  : Bool
  live  : Bool
  deriving DecidableEq, Repr

/-- What the LSE holds of a borrowed extent (R353): the prefetch range, local pages with their frames, packets under way,
whether a flush is running, and the lines written while they were served locally. -/
structure Borrow where
  first : Nat
  count : Nat
  pages : List (Nat × Nat)
  asked : List Ask
  flush : Bool
  dirty : List Nat
  deriving DecidableEq, Repr

/-- The lease engine. `bull` is the own bulletin by 8-byte word; `until_` gives the answer window of an entry (RCWIN), `durs`
the duration its offer named (R343), `frames` the limit PLACE set (R353). -/
structure Lse where
  cfg    : LseCfg
  bull   : Map DWord
  beat   : Nat
  peers  : Map Peer
  ports  : Map Port
  el     : Elect
  until_ : Map Nat
  durs   : Map Nat
  wblead : List Nat
  bor    : Map Borrow
  frames : Map Nat
  deriving DecidableEq, Repr

/-! ### The trust root and flash -/

/-- States of a counter record (R378). -/
inductive RState where
  | free | live | exporting | retired
  deriving DecidableEq, Repr

/-- A counter record (R378). -/
structure CRec where
  st     : RState
  owner  : Nat
  value  : Nat
  origin : BitVec 384
  deriving DecidableEq, Repr

/-- An SPDM session (R381). -/
structure Sess where
  id       : Nat
  finished : Bool
  approved : Bool
  deriving DecidableEq, Repr

/-- Flash and fuses: the firmware images, the package kernel image, the training record, the HSS extent count H (R328), the
module's MID and serial number (R349). -/
structure Flash where
  trt    : List Byte
  bureau : List Byte
  image  : List Byte
  train  : List Byte
  hext   : Nat
  mid    : Nat
  serial : Nat
  deriving DecidableEq, Repr

/-- How far boot has come (R364). -/
inductive Boot where
  | reset | running | halted
  deriving DecidableEq, Repr

/-- The trust root: `meas`, counter records, sessions, the export in progress (R380), SEQ of the summary record (R384), the module's
incarnation, which boot fixes (R348, R378). -/
structure Trt where
  meas  : Map (List Byte)
  recs  : Map CRec
  sess  : List Sess
  exp   : Option RecordMsg
  seq   : Nat
  incarn : Nat
  deriving DecidableEq, Repr

/-! ### Classifier and placement -/

/-- Counts of a (world, domain): the current window, the last complete one, if any (R214). -/
structure Cls where
  world  : Nat
  domain : Nat
  ops    : Nat
  last   : Option (Nat × Nat)
  deriving DecidableEq, Repr

/-- A range of 64 KiB pages of a world that PLACE names (R383), with the tier of PREFER, or 1 for PIN and 0 for UNPIN. -/
structure PRange where
  world : Nat
  first : Nat
  count : Nat
  v     : Nat
  deriving DecidableEq, Repr

/-- What PLACE has set (R383), newest first; pages in migration with their new homes, and lines whose home is not their own DPA
(R43). -/
structure Plc where
  prefer : List PRange
  pins   : List PRange
  migr   : List (Nat × Nat)
  homes  : Map Nat
  kept   : List Nat
  deriving DecidableEq, Repr

/-! ### What leaves the module -/

/-- The lease messages of Table 13.2; a snoop stands in `OutMsg` with its line addresses, and here is its answer. -/
inductive LKind where
  | offer | accept | decline | grant | nak | recall | release | renew | renewed | refused | bisnpData | bisnpInv
  deriving DecidableEq, Repr

/-- An algorithm of the SPDM responder (R381). -/
inductive Alg where
  | ecdsaP384 | sha384 | ecdheSecp384r1 | aes256gcm
  deriving DecidableEq, Repr

/-- A message the module sends, or an answer it gives (log entry 17). -/
inductive OutMsg where
  | lease (mid : Nat) (k : LKind) (m : LeaseMsg)
  | snoop (mid : Nat) (inv : Bool) (m : LeaseMsg) (line n : Nat)
  | bulletin (mid off : Nat) (v : DWord) (add : Bool)
  | word (mid : Nat) (v : DWord)
  | line (mid : Nat) (bs : List Byte) (tag : Tag)
  | nothing (mid : Nat)
  | bytes (bs : List Byte)
  | spdm (ses code : Nat) (body : List Byte)
  | spdmFree (ses code body : Nat)
  | algorithms (ses body : Nat) (xs : List Alg)
  | certificate (ses body : Nat) (identity : List Byte)
  | errorStatus
  | record (x : RecordMsg)
  | recordAck (x : RecordMsg)
  | recordBusy (x : RecordMsg)
  | blockAck (mid queue seq idx : Nat) (ans : RemoteAns)
  | deviceError (dpa : Nat)
  deriving DecidableEq, Repr

/-- The H-die and the memory side. -/
structure Hub where
  sdc    : Sdc
  errs   : Map ErrCnt
  dce    : Dce
  lse    : Lse
  trt    : Trt
  flash  : Flash
  boot   : Boot
  clsf   : List Cls
  plc    : Plc
  failed : Nat
  devErr : Bool
  clock  : Nat
  outbox : List OutMsg
  deriving DecidableEq, Repr

def SdcCnt.zero : SdcCnt := ⟨0, 0, 0, 0, 0⟩
def ErrCnt.zero : ErrCnt := ⟨0, 0, 0, 0⟩
def LseCfg.reset : LseCfg := ⟨0, 0xFF, 100, 20, 50, 100, 0xFFFF, 20⟩
def Elect.idle : Elect := ⟨.idle, 0, 20, [], false, 0, false, none⟩
def CRec.free : CRec := ⟨.free, 0, 0, 0⟩
def Borrow.none : Borrow := ⟨0, 0, [], [], false, []⟩

/-- The hub as reset leaves it: counters and timelines at 0, the configuration of Table 13.8, measurements zero (R365). Flash,
fuses and the non-volatile records hold what log entry 20 names. -/
def Hub.reset : Hub :=
  { sdc := { ents := [], lines := [], leads := [], hssl := 0, cnt := [], tot := SdcCnt.zero, mode := [] }, errs := [],
    dce := { ops := [], next := 1, done := 0, hdr := none, sent := 0, ckpt := [] },
    lse := { cfg := LseCfg.reset, bull := [], beat := 0, peers := [], ports := [], el := Elect.idle, until_ := [], durs := [],
             wblead := [],
             bor := [], frames := [] },
    trt := { meas := [], recs := [], sess := [], exp := none, seq := 0, incarn := 0 },
    flash := { trt := [], bureau := [], image := [], train := [], hext := 1, mid := 0, serial := 0 },
    boot := .reset, clsf := [], plc := { prefer := [], pins := [], migr := [], homes := [], kept := [] }, failed := 0, devErr := false,
    clock := 0, outbox := [] }

end Sys2Proof.Machine
end

