-- ==== Sys2Proof/Machine/State.lean ====
section
/-! DEFINITION. The state of the Koruz Z40 as plain data: every piece of state the spec names (INVENTORY.md, State), the model's
own fields (`agenda`, `cur`, `draws`, `turn`, `outbox`), the reasons a step stops, and the state right after reset. -/

namespace Sys2Proof.Machine

/-- A lane's thread: a bench and a lane (R101). -/
structure TRef where
  place : Place
  lane  : Nat
  deriving DecidableEq, Repr

/-- An outstanding result of a thread (R56): a register write, `mem` where it is data of a memory request (R105), flags to OR into `fpc` (R89), a CSR write that governs the
instructions after the stop (R110), a TSUB lane that waits for acceptance (R208), or the data of a load that is not performed
yet (R34). -/
inductive Pend where
  | vec (i : Nat) (x : Word)
  | mem (i : Nat) (x : Word)
  | pred (i : Nat) (b : Bool)
  | flags (f : Word)
  | csr (n : Nat) (x : DWord)
  | await (i : Nat) (sub : Nat)
  | late (id : Nat)
  deriving DecidableEq, Repr

/-- An outstanding write of a bench-uniform register or CSR, with the lanes whose stop waits for it. -/
structure UPend where
  csr   : Bool
  i     : Nat
  x     : DWord
  lanes : List Nat
  deriving DecidableEq, Repr

/-- A register class of the run check (R58). -/
inductive RClass where
  | vec | uni | pred
  deriving DecidableEq, Repr

/-- One register name an instruction of the run uses: a physical index, or every register of the class (a window
instruction, R57). -/
structure Use where
  cls   : RClass
  i     : Option Nat
  write : Bool
  deriving DecidableEq, Repr

/-- What a polling thread waits for at its instruction (R105, R175). -/
inductive PollOn where
  | fifo (bank : Nat)
  | full (bank : Nat)
  | claim (mx : Nat)
  | absent (blk : Nat)
  | mailbox
  | engine
  deriving DecidableEq, Repr

/-- What orders plain stores between threads of one task (R23): by thread, how many of its plain stores are ordered before. -/
abbrev View := Map Nat

/-- A narrower place that executes strong accesses (Table 2.2). -/
inductive CopyAt where
  | core (c : Nat)
  | cluster (c : Nat)
  deriving DecidableEq, Repr

/-- Where a strong world access executes (Table 2.2): a copy, the home slice of this device, the home module of the line. -/
inductive SPlace where
  | copy (c : CopyAt)
  | home
  | fabric
  deriving DecidableEq, Repr

/-- Where an access goes: its DPA, its address for the cipher (WVA, or DPA where R373 binds to it), its world, and whether
the page is sealed-constant. -/
structure Loc where
  dpa   : Nat
  wva   : Nat
  world : Nat
  sc    : Bool
  deriving DecidableEq, Repr

/-- What a release wrote at a location of a place (R32): the agent's scope code, place and group, its view, and its earlier accesses
not performed then, by number, which an acquire that synchronises with it has performed first (R34). -/
structure RelRec where
  dpa   : Nat
  n     : Nat
  at_   : SPlace
  scope : Nat
  who   : Place
  grp   : Word
  view  : View
  owed  : List Nat
  deriving DecidableEq, Repr

/-- The atomic operations (Table 7.8). -/
inductive AtomOp where
  | add | min | max | minu | maxu | and | or | xor | xchg | cas | fadd | fmax | inc | dec
  deriving DecidableEq, Repr

/-- What an access that is issued and not yet performed does (R34): a load of consecutive registers, a store, a read-modify-write
with its operand, compare value and the registers of its return, or the push of a FENCE.REL. -/
inductive LateOp where
  | load (d : Nat)
  | store (bs : List Byte)
  | rmw (f : AtomOp) (v c : Nat) (d : Option Nat)
  | fence
  deriving DecidableEq, Repr

/-- Which path and location a late access goes to. -/
inductive LateAt where
  | world (l : Loc)
  | spad (cix w : Nat) (key : Word) (x : Nat)
  | fence
  deriving DecidableEq, Repr

/-- A strong or scratchpad access that is issued and not yet performed (R20, R34, R36): its thread and task, the instruction that
issued it, its number, its executing place with its scope, its size in bytes, whether it is a release, and what it leaves at the location (R32). -/
structure Late where
  id    : Nat
  who   : TRef
  task  : Nat
  ins   : Nat
  at_   : SPlace
  scope : Nat
  loc   : LateAt
  n     : Nat
  op    : LateOp
  rel   : Bool
  rec_  : Option RelRec
  deriving DecidableEq, Repr

/-- Which barrier node a slot belongs to (R225). -/
inductive Node where
  | core (c : Nat)
  | cluster (c : Nat)
  | device
  deriving DecidableEq, Repr

/-- Why a thread does not issue. -/
inductive Wait where
  | ready
  | mwait
  | barrier (nd : Node) (slot : Nat) (gen : Nat)
  | join (h : Word) (slots : List (Node × Nat × Nat))
  | phase
  | yielded
  | exited
  deriving DecidableEq, Repr

/-- The MARM watch of a thread: the 64-byte block by DPA, and whether a write to it was performed since (R168). -/
structure Watch where
  blk : Nat
  hit : Bool
  deriving DecidableEq, Repr

/-- A thread (R102, R103, Tables 5.2 and 5.3), with its run (R56 to R58), its prefix state (R60, R61, R63), the issue
opportunities of its bench it has missed while ready (R104), and the plain stores ordered before it (R23): its view, that of its
last FENCE.REL, and the releases its relaxed loads have read (R36). -/
structure Thread where
  pc      : DWord
  vregs   : Map Word
  preds   : BitVec 128
  wb      : Nat
  ws      : Nat
  rstack  : List DWord
  rdepth  : Nat
  fpc     : Word
  srseed  : DWord
  srseq   : Word
  tid     : Nat
  grp     : Word
  rsbase  : DWord
  rslim   : DWord
  tcause  : Word
  tval    : DWord
  tpc     : DWord
  tstat   : Word
  repc    : Word
  gspan   : Word
  dbg     : Word
  span    : Option (Bool × Nat)
  rep     : Option Nat
  resumed : Bool
  missed  : Nat
  out     : List Pend
  atStop  : Bool
  used    : List (List Use)
  watch   : Option Watch
  wait    : Wait
  polled  : Option PollOn
  fetchEp : Nat
  entering : Bool
  left    : Bool
  view    : View
  frel    : Option RelRec
  facq    : List RelRec
  deriving DecidableEq, Repr

/-- Why a bench is stopped: a precise stop of a pinned task (R114), a HALT (R171), or an access processor's stop (R187). -/
inductive Stop where
  | fault
  | halt
  deriving DecidableEq, Repr

/-- A bench: the 32 threads of one slot (R101, R103), with its place in the two-level scheduler: whether
it is in the active set, the register lines spilled (R107), and, in the pending set, the mark of when it became ready (R105). -/
structure Bench where
  place   : Place
  task    : Nat
  world   : Nat
  vfoot   : Nat
  sfoot   : Nat
  pfoot   : Nat
  uregs   : Map Word
  spkey   : Word
  rmask   : BitVec 32
  uout    : List UPend
  threads : Map Thread
  active  : Bool
  spilled : List Nat
  since   : Option Nat
  lastIssue : Nat
  stopped : Option Stop
  deriving DecidableEq, Repr

/-- A declared region (Table 8.2). -/
structure Region where
  base  : Nat
  size  : Nat
  read  : Bool
  write : Bool
  deriving DecidableEq, Repr

/-- A task descriptor (Table 8.1), without STAMP. -/
structure Desc where
  entry  : DWord
  param  : DWord
  nthr   : Nat
  vreg   : Nat
  sreg   : Nat
  preg   : Nat
  quota  : Nat
  nreg   : Nat
  pcls   : Nat
  rtab   : DWord
  nlb    : Nat
  ncb    : Nat
  domain : Nat
  user   : Nat
  tltab  : DWord
  done   : DWord
  deriving DecidableEq, Repr

/-- Task states (Table 8.5). -/
inductive TState where
  | submitted | ready | running | stopped | saved | discarded | committing | done | failed
  deriving DecidableEq, Repr

/-- A plain store of the phase to a byte or a tag (R23): its thread, its number among the thread's plain stores, its value. -/
structure PStore where
  key : Nat
  n   : Nat
  x   : Nat
  deriving DecidableEq, Repr

/-- A task (R205 to R219), with its version: the bytes and block tags its plain stores wrote, by DPA (R23, R94), every plain store
of the phase (newest first; tags from 2^56 on), its run, the runs of tasks it depends on that have committed (R29), and the local block-transfer queues it issued into (R217). -/
structure Task where
  id      : Nat
  world   : Nat
  desc    : Desc
  regions : List Region
  tl      : List DWord
  sub     : Option Place
  stw     : Option Nat
  state   : TState
  deps    : List Nat
  war     : List Nat
  snap    : Nat
  ver     : Map Byte
  vtags   : Map Tag
  vloc    : Map Nat
  vout    : List Nat
  pinned  : Bool
  held    : Bool
  snapLost : Bool
  clu     : Nat
  cores   : List Nat
  coreSlots : List (Nat × List Nat)
  cluSlots  : List Nat
  grp     : Word
  areas   : List Nat
  spw     : List (Nat × Nat)
  bqs     : List Nat
  hist    : Map (List PStore)
  run     : Nat
  preds   : List Nat
  commitHeld : Bool
  passed  : Nat
  acc     : Nat
  deriving DecidableEq, Repr

/-- A TSUB lane's submission that waits for acceptance (R207, R208): its number, that of the first of its TSUB's lanes, the bytes of
the descriptor and of its region table, the timeline table. -/
structure Sub where
  key    : Nat
  batch  : Nat
  thread : TRef
  world  : Nat
  raw    : List Byte
  regs   : List Byte
  tl     : List DWord
  deriving DecidableEq, Repr

/-- A group record (R108, R223). -/
structure Group where
  clu    : Nat
  recd   : Nat
  serial : Nat
  task   : Nat
  deriving DecidableEq, Repr

/-- A barrier slot (Table 8.7), with its group (the thread, where it is a singleton), member count and arrival bits (R223, R224, R226),
and the views of the arrivals of the current and of the last generation (R23, R35). -/
structure BSlot where
  node    : Node
  slot    : Nat
  bound   : Option Word
  solo    : Option TRef
  arr     : Nat
  gen     : Nat
  pend    : Nat
  mem     : Nat
  arrived : List TRef
  view    : View
  done    : View
  deriving DecidableEq, Repr

/-- A wake record (R221). -/
structure Wake where
  node  : Node
  slot  : Nat
  gen   : Nat
  bench : Place
  fired : Bool
  deriving DecidableEq, Repr

/-- A world (R369, R370). -/
structure World where
  live    : Bool
  root    : Nat
  conf    : Bool
  tvec    : DWord
  tlBase  : Nat
  tlSize  : Nat
  stopped : Bool
  dkey    : List Byte
  mkey    : List Byte
  deriving DecidableEq, Repr

/-- A cached translation of a core's and its cluster's caches (R190). -/
structure Tlb where
  core  : Nat
  world : Nat
  base  : Nat
  size  : Nat
  pte   : DWord
  deriving DecidableEq, Repr

/-- A line's strong copy at a place narrower than device scope (R33, R188). -/
structure Copy where
  at_   : CopyAt
  line  : Nat
  wva   : Nat
  data  : List Byte
  dirty : Bool
  world : Nat
  deriving DecidableEq, Repr

/-- A line of committed data that a core's L1 or a cluster cache holds for plain loads, for the epochs from `lo` on and below `hi` (R25,
R188): its value is the committed one of those epochs. -/
structure Clean where
  at_   : CopyAt
  line  : Nat
  world : Nat
  lo    : Nat
  hi    : Option Nat
  deriving DecidableEq, Repr

/-- One undone write of the journal that gives the value of a byte (or tag) at an earlier epoch (R25): the write at `addr`
belongs to epoch `ep`, and `old` was there before it. -/
structure Jr (α : Type) where
  addr : Nat
  ep   : Nat
  old  : α
  deriving DecidableEq, Repr

/-- Lease states and roles (Table 13.3). -/
inductive LState where
  | free | offered | granted | recalling | expired | failed
  deriving DecidableEq, Repr
inductive LRole where
  | none | lent | borrowed
  deriving DecidableEq, Repr

/-- A lease table entry (Table 13.3); `expiry` is none for no expiry. -/
structure Lease where
  state    : LState
  role     : LRole
  released : Bool
  pfon     : Bool
  lid      : Nat
  lidx     : Nat
  lender   : Nat
  borrower : Nat
  ext      : Nat
  gen      : BitVec 32
  expiry   : Option Nat
  pinc     : Nat
  deriving DecidableEq, Repr

/-- Bank modes (R174). -/
inductive BMode where
  | cache | spad | fifo
  deriving DecidableEq, Repr

structure Bank where
  owner : Nat
  mode  : BMode
  deriving DecidableEq, Repr

/-- The LSU counters (Table 7.9). -/
structure LsuCnt where
  npass  : DWord
  nrepl  : DWord
  nbcast : DWord
  ppark  : DWord
  walks  : DWord
  deriving DecidableEq, Repr

/-- Who wrote a scratchpad word (R29): the run of its task, 0 for no task, the key, and, for a drain or an attention run whose timeline
that task has not waited for, the timeline's code and the operation's number. -/
structure SpWr where
  run : Nat
  key : Word
  op  : Option (Nat × Nat)
  deriving DecidableEq, Repr

/-- Core SRAM and its engines' queues of one core; steward `k` stands as core 192 + k, whose one bank is its local SRAM
(R174, R175, R182, R184, R186); with the writer of each word (R29), the old word where a copy of a steward's queue has landed, with
the copy's number (R289), the view each mailbox word carries (R23, R186), and the scratchpad blocks marked after an error (R331). -/
structure Core where
  banks  : List Bank
  spad   : Map Word
  fresh  : Map Word
  wr     : Map SpWr
  landing : Map (Nat × Word)
  stags  : Map Tag
  pres   : Map Nat
  fifos  : Map (List (List Word))
  inbox  : List (List Word)
  outbox : List (List Word)
  boxv   : Map (List View)
  smarked : List Nat
  cnt    : LsuCnt
  deriving DecidableEq, Repr

/-- A drawer's world and its performance counters (R15, R368). -/
structure Drawer where
  world   : Nat
  swapout : DWord
  swapin  : DWord
  issued  : DWord
  spill   : DWord
  refill  : DWord
  deriving DecidableEq, Repr

/-- An event record (Table 14.7). -/
structure EvRec where
  words : List Word
  deriving DecidableEq, Repr

/-- A pending MAC check of forwarded load data (R47): the block and the task and world that wait for it. -/
structure Check where
  blk   : Nat
  task  : Nat
  world : Nat
  ref   : Option TRef
  good  : Bool
  deriving DecidableEq, Repr

/-- The MAC of a block (R372), with the world and the address it was made for. -/
structure MacRec where
  mac   : Nat
  world : Nat
  wva   : Nat
  deriving DecidableEq, Repr

/-- An error in a block (R329, R330): corrected; uncorrectable at its DRAM home, or in the data entry of its SDC line; or one that
goes undetected and leaves another byte. -/
inductive EccAt where
  | corrected
  | home
  | entry
  | silent (i : Nat) (x : Byte)
  deriving DecidableEq, Repr

/-- An error that goes undetected, outside the bytes of a block's home (R329): the tag of a block; a scratchpad word, and the tag of a
scratchpad block, of a core; a byte of a copy of a line; a vector register and a predicate of a thread; a uniform register of a bench; an
element of a tile and a block of the weight buffer of a matrix unit. -/
inductive Silent where
  | tag (blk : Nat) (t : Tag)
  | spad (core loc : Nat) (x : Word)
  | spadTag (core world blk : Nat) (t : Tag)
  | copy (k i : Nat) (x : Byte)
  | vreg (r : TRef) (i : Nat) (x : Word)
  | pred (r : TRef) (i : Nat)
  | ureg (p : Place) (i : Nat) (x : Word)
  | tile (mx t m n : Nat) (x : Deep)
  | weight (mx u : Nat) (x : List Byte × Tag)
  deriving DecidableEq, Repr

/-- Where an uncorrectable error in the state of a task or a core lies (Table 12.4): a scratchpad block by core, key and offset; a
register line, a tile or the weight buffer; the queues and buffers of a core; a spilled register line of a bench (R107); a strong copy of
a line; the lease table, the Bureau or the trust root. -/
inductive LocalErr where
  | spad (core : Nat) (key : Word) (x : Nat)
  | own
  | queues (core : Nat)
  | spilled (p : Place)
  | copy (k : Nat)
  | root
  deriving DecidableEq, Repr

/-- One item of the schedule: which agent moves, with the data an input brings (log entry 2). -/
inductive Sched where
  | issue (p : Place) (lane : Nat)
  | issueLate (p : Place) (lane : Nat)
  | perform (k : Nat)
  | event (i : Instr)
  | micro (core : Nat)
  | tick (clocks ms : Nat)
  | swapStop (p : Place)
  | evictCopy (k : Nat)
  | evictClean (k : Nat)
  | dropPool (line : Nat)
  | evictTlb (k : Nat)
  | settle (core : Nat)
  | ecc (blk : Nat) (e : EccAt)
  | eccUnit (u off : Nat)
  | silent (x : Silent)
  | ueOf (task : Nat) (e : LocalErr)
  | retire (page : Nat)
  | hssFill (n : Nat)
  | reread (k : Nat)
  | spdmOther (ses : Nat)
  | askStatus
  | peerDies (mid : Nat)
  | lineArrives (blk : Nat) (bs : List Byte) (t : Tag)
  deriving DecidableEq, Repr

/-- What is being executed: nothing, an issue group (its place, lanes, PC, words and stop bit, and the repeat it is in), or
the micro-op of a core's attention sequencer. -/
inductive Cur where
  | idle
  | grp (p : Place) (lanes : List Nat) (pc : DWord) (w w2 : Word) (stop : Bool) (rep : Option (Nat × Nat))
  | micro (core : Nat)
  deriving DecidableEq, Repr

/-- An instruction that may still read its source registers anew (R57, write after read): the thread, as it stood at the issue, the
instruction with its words and the repeat it is in, and its results, outstanding. -/
structure Calc where
  who  : TRef
  t    : Thread
  i    : Instr
  w    : Word
  w2   : Word
  rep  : Option (Nat × Nat)
  outs : List Pend
  deriving DecidableEq, Repr

/-- Faults: a step that stops with no next state. -/
inductive Fault where
  /-- An instruction word or a micro-op is executed with no issue group or no running sequencer: raised by `exec` alone, never
  by `step`. Safe: the hardware never does this. -/
  | noContext
  /-- The module has stopped on a device-level error and must be reset (R330, R386): raised by every later step. Safe. -/
  | deviceError
  deriving DecidableEq, Repr

/-- Refusals: instructions without a meaning. -/
inductive Refusal where
  /-- The instruction of that mnemonic has no meaning in this model yet: raised by its arm in `exec`. Safe. -/
  | notModelled (mnemonic : String)
  deriving DecidableEq, Repr

/-- The machine. `unpushed` holds, for a line of leased memory or one that a commit dirtied, what other modules still see of it
(R30, R34); `lates` the accesses issued and not yet performed, oldest first (R34); `relvs` what releases wrote (R32); `walks` the
walks of the current instruction that faulted (R192); `calcs` the instructions that may still read their sources anew (R57); `runs` numbers the dispatches of tasks (R29); `fetched` the lines of
borrowed windows whose contents the module has seen (R340). -/
structure State where
  epoch   : Nat
  mem     : List Host.Cell
  tags    : Map Tag
  jrnl    : List (Jr Byte)
  tjrnl   : List (Jr Tag)
  written : List Nat
  marked  : List Nat
  bad     : List Nat
  retired : List Nat
  macs    : Map MacRec
  vps     : Map Nat
  copies  : List Copy
  clean   : List Clean
  unpushed : Map (List Byte × Tag)
  lates   : List Late
  late    : Bool
  nextLate : Nat
  calcs   : List Calc
  relvs   : List RelRec
  tlbs    : List Tlb
  walks   : List (Nat × Nat × Nat)
  benches : List Bench
  saved   : List Bench
  tasks   : Map Task
  nextTask : Nat
  runs    : Nat
  accepts : Nat
  subs    : List Sub
  nextSub : Nat
  groups  : List Group
  serial  : Nat
  slots   : List BSlot
  wakes   : List Wake
  vacated : List Nat
  worlds  : Map World
  cores   : Map Core
  drawers : Map Drawer
  checks  : List Check
  leases  : Map Lease
  fetched : List Nat
  mxus    : Map Mxu
  pkts    : List PeerPkt
  packs   : List PeerAck
  msaves  : List MxSave
  queues  : Map BQueue
  rwins   : List RWin
  remotes : List Remote
  asqs    : Map Asq
  arenas  : Map Nat
  evq     : Map (List EvRec)
  hub     : Hub
  dropped : Nat
  ctl     : Map DWord
  mstime  : Nat
  cycle   : Nat
  agenda  : List Sched
  cur     : Cur
  draws   : Nat
  turn    : Nat
  deriving DecidableEq, Repr

/-- World 0, which exists at reset (R369): root and keys clear, not confidential (R364). -/
def World.kernel : World :=
  { live := true, root := 0, conf := false, tvec := 0, tlBase := 0, tlSize := 0, stopped := false, dkey := [], mkey := [] }

/-- The machine right after reset. -/
def State.reset : State :=
  { epoch := 0, mem := [], tags := [], jrnl := [], tjrnl := [], written := [], marked := [], bad := [], retired := [],
    macs := [], vps := [], copies := [], clean := [], unpushed := [], lates := [], late := false, nextLate := 0, calcs := [], relvs := [], tlbs := [], walks := [], benches := [], saved := [], tasks := [], nextTask := 1, runs := 0, accepts := 0, subs := [],
    nextSub := 0, groups := [], serial := 0, slots := [], wakes := [], vacated := [], worlds := [(0, World.kernel)],
    cores := [], drawers := [], checks := [], leases := [], fetched := [], mxus := [], pkts := [], packs := [], msaves := [],
    queues := [], rwins := [], remotes := [], asqs := [], arenas := [], evq := [], hub := Hub.reset, dropped := 0, ctl := [], mstime := 0, cycle := 0,
    agenda := [], cur := .idle, draws := 0, turn := 0 }

end Sys2Proof.Machine
end

