-- ==== Sys2Proof/Machine/Sdc.lean ====
section
/-! DEFINITION. The deduplicating cache (R322 to R327): the content hash, settling a written line, filling, evicting, counters. -/

namespace Sys2Proof.Machine

/-- `content_hash` (R323). -/
def contentHash (bs : List Byte) (tag : Tag) : Nat :=
  let w (k : Nat) : DWord := BitVec.ofNat 64 (leNat ((bs.drop (8 * k)).take 8))
  let h := (upto 8).foldl (fun h k => mix (h ^^^ w k ^^^ BitVec.ofNat 64 k)) 0
  (mix (h ^^^ tag.setWidth 64 ^^^ 8)).toNat % 2 ^ 40

def Sdc.find (c : Sdc) (line : Nat) : Option LLine := c.lines.find? fun x => x.line = line ∧ x.upto = none
def Sdc.counter (c : Sdc) (w : Nat) (f : SdcCnt → SdcCnt) : Sdc :=
  { c with cnt := mupd SdcCnt.zero c.cnt w f, tot := f c.tot }

/-- One reference fewer; an entry is freed at 0, and with it its lead (R323). -/
def Sdc.unref (c : Sdc) (e : Nat) : Sdc :=
  match mget? c.ents e with
  | none => c
  | some d =>
    if d.refc ≤ 1 then { c with ents := mdel c.ents e, leads := c.leads.filter fun l => l.ent ≠ e }
    else { c with ents := mset c.ents e { d with refc := d.refc - 1 } }

/-- A free data entry's number. -/
def Sdc.fresh (c : Sdc) : Nat := maxNat (c.ents.map Prod.fst) + 1

/-- Allocates an entry of its own. -/
def Sdc.alloc (c : Sdc) (bs : List Byte) (tag : Tag) : Nat × Sdc :=
  (c.fresh, { c with ents := mset c.ents c.fresh ⟨bs, tag, 1⟩ })

/-- Whether a line's lookups may share (R325): by the world's mode and the sealed-constant bit. -/
def Sdc.shares (c : Sdc) (w : Nat) (sc : Bool) : Bool :=
  match mget 2 c.mode w with
  | 0 => false
  | 1 => sc
  | _ => true

/-- Whether a lead belongs to the domain of a lookup (R325): with sealed-constant pages alone, an entry that only they use. -/
def Sdc.inDomain (c : Sdc) (w : Nat) (l : Lead) : Bool := l.dom = w && (l.sc || mget 2 c.mode w ≠ 1)

/-- The lookup of R323: the entry that holds the content, shared or allocated. -/
def Sdc.lookup (c : Sdc) (w : Nat) (sc : Bool) (bs : List Byte) (tag : Tag) : Nat × Sdc :=
  if !c.shares w sc then c.alloc bs tag
  else
    let h := contentHash bs tag
    let lead (c : Sdc) (e : Nat) : Sdc :=
      { c with leads := ⟨w, h, e, sc⟩ :: c.leads.filter fun l => !(l.dom = w && l.hash = h) }
    let join (l : Lead) : Lead := if l.dom = w && l.hash = h then { l with sc := l.sc && sc } else l
    match (c.leads.find? fun l => c.inDomain w l && l.hash = h).bind fun l => (mget? c.ents l.ent).map fun d => (l.ent, d) with
    | none => let (e, c) := c.alloc bs tag; (e, lead c e)
    | some (e, d) =>
      if d.bs = bs && d.tag = tag then
        if d.refc < 255 then
          (e, { c with ents := mset c.ents e { d with refc := d.refc + 1 }, leads := c.leads.map join }.counter w fun k => { k with dhit := k.dhit + 1 })
        else
          let (e, c) := (c.counter w fun k => { k with dsat := k.dsat + 1 }).alloc bs tag
          (e, lead c e)
      else (c.counter w fun k => { k with dcoll := k.dcoll + 1 }).alloc bs tag

/-- `settle` (R323): the line takes the entry of its new content; the old entry loses a reference, or goes to a copy retained
for snapshots below `keep` (R26); `dirty` for a write. -/
def Sdc.settle (c : Sdc) (w line : Nat) (sc : Bool) (bs : List Byte) (tag : Tag) (keep : Option Nat) (dirty : Bool) : Sdc :=
  let old := c.find line
  let (e, c) := c.lookup w sc bs tag
  let rest := c.lines.filter fun x => !(x.line = line && x.upto = none)
  let c := { c with lines := ⟨line, none, w, e, dirty, false⟩ :: rest }
  match old, keep with
  | some x, some ep => { c with lines := c.lines ++ [{ x with upto := some ep }] }
  | some x, none => c.unref x.ent
  | none, _ => c

/-- Removes logical lines, with the references they held. -/
def Sdc.remove (c : Sdc) (p : LLine → Bool) : Sdc :=
  (c.lines.filter p).foldl (fun c x => c.unref x.ent) { c with lines := c.lines.filter fun x => !p x }

/-- Whether a task's snapshot may still read the past (R26). -/
def TState.reads : TState → Bool
  | .running | .stopped | .saved | .committing => true
  | _ => false

/-- The snapshots whose values are kept (R26): those of running tasks, and those that block transfers of a BCOPY read at (R279). -/
def State.snaps (s : State) : List Nat :=
  (s.tasks.filterMap fun p => if p.2.state.reads then some p.2.snap else none) ++
    s.queues.flatMap fun e => e.2.ops.filterMap fun o => if o.prog.state = .cancelled then none else o.snap

/-- Whether a write at epoch `ep` overwrites a value that some snapshot still needs and no retained copy holds (R26). -/
def State.needsOld (s : State) (line ep : Nat) : Bool :=
  s.snaps.any fun S => S < ep &&
    !(s.hub.sdc.lines.any fun x => x.line = line && match x.upto with
      | some u => decide (S < u)
      | none => false)

def State.updSdc (s : State) (f : Sdc → Sdc) : State := { s with hub := { s.hub with sdc := f s.hub.sdc } }

/-- Retained copies no snapshot needs any more are dropped (R26). -/
def State.pruneSdc (s : State) : State :=
  if s.hub.sdc.lines.any (fun x => x.upto ≠ none) then
    s.updSdc fun c => c.remove fun x => match x.upto with
      | some u => !(s.snaps.any fun S => decide (S < u))
      | none => false
  else s

/-- The SDC slice a line has its home at (R321). -/
def homeSlice (line : Nat) : Nat :=
  bits line 8 0 ^^^ bits line 17 9 ^^^ bits line 26 18 ^^^ bits line 35 27 ^^^ bits line 44 36 ^^^ bits line 45 45

/-- Whether the SDC holds a committed value of the line newer than its home. -/
def Sdc.dirty (c : Sdc) (line : Nat) : Bool := (c.find line).any LLine.dirty

/-- A logical line leaves the cache (R326): a dirty one is written to its home, which it makes good,
and whose written bit that sets (R333). -/
def State.evictLine (s : State) (line : Nat) (upto : Option Nat) : State :=
  let c := s.hub.sdc
  let s := if upto = none && c.dirty line then
      { s with bad := s.bad.filter (· ≠ line), written := insertNat s.written (line / 64) } else s
  s.updSdc fun c => c.remove fun x => x.line = line && x.upto = upto

/-- Logical lines and data entries in all (R322). -/
def sdcLines : Nat := 2 ^ 24
def sdcEntries : Nat := 2 ^ 23
/-- By how many the cache passes them, with `vers` version lines. -/
def State.sdcOver (s : State) (vers : Nat) : Nat :=
  Nat.max ((s.hub.sdc.lines.filter fun x => !x.hss).length + vers + s.hub.sdc.hssl - sdcLines) (s.hub.sdc.ents.length + vers + s.hub.sdc.hssl - sdcEntries)
def State.sdcFull (s : State) (vers : Nat) : Bool := 0 < s.sdcOver vers

/-- The SDC makes room (R326): HSS lines leave first, then the oldest committed lines (which ones is the model's choice, log entry
46; fuel: the lines it holds and one). -/
def State.sdcRoom : Nat → State → Nat → State
  | 0, s, _ => s
  | n + 1, s, vers =>
    if !s.sdcFull vers then s
    else if 0 < s.hub.sdc.hssl then State.sdcRoom n (s.updSdc fun c => { c with hssl := c.hssl - s.sdcOver vers }) vers
    else match (s.hub.sdc.lines.filter fun x => x.upto = none).getLast? with
      | some x => State.sdcRoom n (s.evictLine x.line none) vers
      | none => s

end Sys2Proof.Machine
end

