-- ==== Sys2Proof/Machine/Mem.lean ====
section
/-! DEFINITION. World memory: the DPA map (R13), bytes and block tags at their homes and at an epoch (R24, R25), task versions
(R23, R215), the cipher of confidential worlds (R189, R371 to R373), page-table walks and translation (R190 to R192). -/

namespace Sys2Proof.Machine

/-- The next free value of the machine (log entry 4). -/
def State.draw (s : State) : Nat × State := (Config.freeNat s.draws, { s with draws := s.draws + 1 })

/-- What a DPA names (Table 1.2). -/
inductive Region13 where
  | hbm | pool | window | mmio | hss | hole
  deriving DecidableEq, Repr

def tib : Nat := 2 ^ 40
def gib : Nat := 2 ^ 30
def hssBase : Nat := 15 * 2 ^ 48
def mmioBase : Nat := 8 * tib
def windowBase : Nat := 4 * tib

/-- The DPA map (R13). -/
def dpaKind (a : Nat) : Region13 :=
  if a < 768 * gib then .hbm
  else if a < tib then .hole
  else if a < 3 * tib then .pool
  else if a < 4 * tib then .hole
  else if a < 4 * tib + gib then .hole
  else if a < 8 * tib then .window
  else if a < 9 * tib then .mmio
  else if a < hssBase then .hole
  else if a < 2 ^ 52 then .hss
  else .hole

def tag0 : Tag := 0x007F#16

/-- The canonical form of memory: addresses strictly rise and no entry equals what an unlisted address reads as. -/
def Memory.wf (m : List Host.Cell) : Bool := mwf 0 m

/-- The byte and the tag in effect at their homes; an unlisted byte reads 0 (log entry 3), an unlisted tag 0x007F (R93). -/
def State.byte (s : State) (a : Nat) : Byte := mget 0 s.mem a
def State.tag (s : State) (blk : Nat) : Tag := mget tag0 s.tags blk

/-- The value at epoch `S`: the oldest journal entry that belongs to a later epoch gives what was there before it (R25). -/
def undo {α : Type} (j : List (Jr α)) (S a : Nat) (now : α) : α :=
  j.foldl (fun v e => if e.addr = a ∧ S < e.ep then e.old else v) now
def State.byteAt (s : State) (S a : Nat) : Byte := undo s.jrnl S a (s.byte a)
def State.tagAt (s : State) (S blk : Nat) : Tag := undo s.tjrnl S blk (s.tag blk)

/-- A write to block `blk` was performed: watches on it are hit, and threads that wait in MWAIT for it wake (R168). -/
def State.touched (s : State) (blk : Nat) : State :=
  { s with benches := s.benches.map fun b =>
      { b with threads := b.threads.map fun (l, t) =>
          (l, match t.watch with
            | some w => if w.blk = blk then
                (if t.wait = .mwait then { t with wait := .ready, watch := none } else { t with watch := some { w with hit := true } })
              else t
            | none => t) } }

/-- Whether a watch stands on the block (so that `touched` has something to do). -/
def State.watched (s : State) (blk : Nat) : Bool :=
  s.benches.any fun b => b.threads.any fun (_, t) => match t.watch with
    | some w => decide (w.blk = blk)
    | none => false

/-- One byte written at its home, belonging to epoch `ep` (R25). -/
def State.putByte (s : State) (ep a : Nat) (b : Byte) : State :=
  if s.byte a = b then s
  else { s with mem := mput 0 s.mem a b, jrnl := { addr := a, ep := ep, old := s.byte a } :: s.jrnl }

def State.putBytes (s : State) (ep : Nat) : Nat → List Byte → State
  | _, [] => s
  | a, b :: bs => State.putBytes (s.putByte ep a b) ep (a + 1) bs

/-- One tag written at its home. -/
def State.putTag (s : State) (ep blk : Nat) (t : Tag) : State :=
  if s.tag blk = t then s
  else { s with tags := mput tag0 s.tags blk t, tjrnl := { addr := blk, ep := ep, old := s.tag blk } :: s.tjrnl }

/-- The line a block's home stands at: its own DPA, or where the placement unit has moved it (R43). -/
def State.homeOf (s : State) (blk : Nat) : Nat := (mget? s.hub.plc.homes blk).getD blk

def Lease.none : Lease :=
  { state := .free, role := .none, released := false, pfon := false, lid := 0, lidx := 0, lender := 0, borrower := 0,
    ext := 0, gen := 0, expiry := some 0, pinc := 0 }

/-- The lease whose window a DPA lies in (R13). -/
def leaseAt (a : Nat) : Nat := (a - windowBase) / gib
/-- Whether a line's home stands in leased memory. -/
def State.leased (s : State) (blk : Nat) : Bool := dpaKind (64 * s.homeOf blk) = .window
/-- How an acknowledgement of the lender names the lease engine as the sender (R40). -/
def lseKey : Nat := 0x40000
/-- A line of leased memory is on its way to its lender (R34, R45, R46). -/
def State.sendLine (s : State) (blk : Nat) : State :=
  let h := s.homeOf blk
  let i := leaseAt (64 * h)
  { s with unpushed := mdel s.unpushed blk,
           remotes := s.remotes ++ [⟨(mget Lease.none s.leases i).lender, lseKey, i, none, 0, 64 * h, 0, 0, 0, 0,
             (upto 64).map fun k => s.byte (64 * blk + k), s.tag blk, some h, 0⟩] }

/-- The placement unit gives a pool copy of a line up (Table 12.4). -/
def State.dropPool (s : State) (blk : Nat) : State :=
  { s with hub := { s.hub with plc := { s.hub.plc with kept := s.hub.plc.kept.filter (· ≠ blk) } } }

/-- A line of a borrowed page that is served locally (R353) is written: the lender is owed it. -/
def State.noteDirty (s : State) (blk : Nat) : State :=
  if dpaKind (64 * blk) = .window && !s.leased blk then
    let bor := mupd Borrow.none s.hub.lse.bor (leaseAt (64 * blk)) fun b => { b with dirty := insertNat b.dirty blk }
    { s with hub := { s.hub with lse := { s.hub.lse with bor := bor } } }
  else s

/-- The module knows the whole of a line of a borrowed window. -/
def State.noteSeen (s : State) (blk : Nat) : State :=
  if dpaKind (64 * blk) = .window then { s with fetched := insertNat s.fetched blk } else s

/-- What any write to a home block does besides its bytes: the written bit of its 4 KiB block (R333), watches (R168), a
mark that 64 written bytes clear (R331), and the lender's sight of a line of leased memory (R40, R46). -/
def State.homeEffects (s : State) (blk : Nat) (whole : Bool) : State :=
  let s := { s with written := insertNat s.written (blk / 64) }
  let s := if s.hub.plc.kept.contains blk then s.dropPool blk else s
  let s := if s.leased blk then s.sendLine blk else s.noteDirty blk
  let s := if whole then ({ s with marked := s.marked.filter (· ≠ blk), bad := s.bad.filter (· ≠ blk) }).noteSeen blk else s
  if s.watched blk then s.touched blk else s

def World.dead : World :=
  { live := false, root := 0, conf := false, tvec := 0, tlBase := 0, tlSize := 0, stopped := false, dkey := [], mkey := [] }
def State.world (s : State) (w : Nat) : World := mget World.dead s.worlds w
def State.confW (s : State) (w : Nat) : Bool := (s.world w).conf

/-- The tweak of a block's sectors (R371). -/
def tweakOf (l : Loc) : Option Nat := if l.sc then none else some (l.wva / 64)

/-- The plaintext bytes and tag of a block at epoch `S` (R371): as stored, or decrypted in a confidential world. -/
def State.blockAt (s : State) (S : Nat) (l : Loc) : List Byte × Tag :=
  let blk := l.dpa / 64
  let bs := (upto 64).map fun i => s.byteAt S (64 * blk + i)
  let t := s.tagAt S blk
  if s.confW l.world then
    xtsBlockDec (s.world l.world).dkey (tweakOf l) bs t
  else (bs, t)

/-- The current plaintext of a block at its home. -/
def State.block (s : State) (l : Loc) : List Byte × Tag :=
  let blk := l.dpa / 64
  let bs := (upto 64).map fun i => s.byte (64 * blk + i)
  let t := s.tag blk
  if s.confW l.world then xtsBlockDec (s.world l.world).dkey (tweakOf l) bs t else (bs, t)

/-- VP of the page a block is placed in: 0 but in leased memory (R372). -/
def vpOf (s : State) (blk : Nat) : Nat :=
  let h := s.homeOf blk
  if dpaKind (64 * h) = .window then mget 0 s.vps (h / 1024) else 0

/-- The MAC of a block as stored (R372). -/
def State.macOf (s : State) (l : Loc) : Nat :=
  let blk := l.dpa / 64
  let bs := (upto 64).map fun i => s.byte (64 * blk + i)
  macBlock (s.world l.world).mkey bs (s.tag blk) (l.wva / 64) (vpOf s blk)

/-- Whether a block's stored MAC differs from its contents in a confidential world (R283, R372). -/
def State.macBad (s : State) (l : Loc) : Bool :=
  s.confW l.world && (match mget? s.macs (l.dpa / 64) with
    | some m => decide (m.mac ≠ s.macOf l)
    | none => false)

/-- A write of stored bytes, which makes no MAC, leaves a block of a confidential world without a good one (R373): one that no MAC of 56
bits equals, where it had none. -/
def State.staleMac (s : State) (blk : Nat) : State :=
  match mget? s.macs blk with
  | some _ => s
  | none => { s with macs := mset s.macs blk ⟨2 ^ 56, 0, 0⟩ }

/-- Overwrites part of a block's bytes. -/
def patch (bs : List Byte) (off : Nat) (new : List Byte) : List Byte :=
  bs.take off ++ new ++ bs.drop (off + new.length)

/-- The stored bytes of a block. -/
def State.stored (s : State) (blk : Nat) : List Byte := (upto 64).map fun i => s.byte (64 * blk + i)

def State.task? (s : State) (k : Nat) : Option Task := mget? s.tasks k
def State.updTask (s : State) (k : Nat) (f : Task → Task) : State :=
  match mget? s.tasks k with
  | some t => { s with tasks := mset s.tasks k (f t) }
  | none => s

/-- The blocks a version wrote bytes or tags of, rising. -/
def Task.vblocks (t : Task) : List Nat :=
  (t.ver.map (fun (e : Nat × Byte) => e.1 / 64) ++ t.vtags.map Prod.fst).foldl insertNat []

/-- Version lines of the tasks that `p` selects (Table 12.3): those that have not left for HSS. -/
def State.vlines (s : State) (p : Task → Bool) : Nat :=
  s.tasks.foldl (fun n (e : Nat × Task) => if p e.2 then n + (e.2.vblocks.filter fun b => !e.2.vout.contains b).length else n) 0
/-- Keeps the SDC within its capacity so far as HSS lines and committed ones go (R322, R326). -/
def State.sdcKeep (s : State) : State := s.sdcRoom (s.hub.sdc.lines.length + 2) (s.vlines fun _ => true)

/-- Whether a block has a good copy elsewhere (Table 12.4): the SDC's line, a clean line of L1 or a cluster cache that holds the value of
now, a pool copy that the placement unit has kept, or the newest checkpoint where the 4 KiB block has not been written since (R333). -/
def State.goodCopy (s : State) (blk : Nat) : Bool :=
  (s.hub.sdc.find blk).isSome || s.clean.any (fun c => c.line = blk && c.hi.isNone) || s.hub.plc.kept.contains blk
    || s.copies.any (fun c => c.line = blk && !c.dirty && c.data = (s.block ⟨64 * blk, c.wva, c.world, false⟩).1)
    || (s.hub.dce.ckpt.contains (blk / 64) && !s.written.contains (blk / 64))

/-- The SDC fills a line it does not hold from its DRAM home (R323), or from the good copy where the home is bad (R330). -/
def State.sdcFill (s : State) (l : Loc) : State :=
  let blk := l.dpa / 64
  if (s.hub.sdc.find blk).isSome then s
  else
    let s := if s.goodCopy blk then { s with bad := s.bad.filter (· ≠ blk) } else s
    (s.updSdc fun c => c.settle l.world blk l.sc (s.stored blk) (s.tag blk) none false).sdcKeep

/-- A write that belongs to epoch `ep` ends what cached copies of the line hold for plain loads (R25, R188). -/
def State.staleClean (s : State) (blk ep : Nat) : State :=
  if s.clean.isEmpty then s
  else { s with clean := (s.clean.map fun c => if c.line = blk && c.hi.isNone then { c with hi := some ep } else c).filter fun c => c.hi.all (c.lo < ·) }
/-- Cached lines leave, which they may at any time (R188). -/
def State.dropClean (s : State) (p : Nat → Bool) : State :=
  if s.clean.isEmpty then s else { s with clean := s.clean.filter fun c => !p c.line }

/-- Looks the new content of a written line up (R323), keeping the old value where a snapshot needs it (R26). -/
def State.sdcWrite (s : State) (l : Loc) (keep : Option Nat) : State :=
  let blk := l.dpa / 64
  (s.updSdc fun c => c.settle l.world blk l.sc (s.stored blk) (s.tag blk) keep true).sdcKeep

/-- What other modules see of a line whose newest data has not been pushed to its home module (R30, R34): the line as it stands
before this module's first such write. -/
def State.holdBack (s : State) (blk : Nat) : State :=
  match mget? s.unpushed blk with
  | some _ => s
  | none => { s with unpushed := mset s.unpushed blk (s.stored blk, s.tag blk) }

/-- Performs a write of plaintext bytes that lie within one block, and of its tag if one is given, at the block's home,
belonging to epoch `ep` (R24, R25, R94, R189); `whole` where the write covers all 64 bytes (R331). -/
def State.homeWriteAs (s : State) (ep : Nat) (l : Loc) (new : List Byte) (tg : Option Tag) (whole : Bool) : State :=
  let blk := l.dpa / 64
  let need := s.needsOld blk ep
  let s := if need then s.sdcFill l else s
  let keep := if need then some ep else none
  let s :=
    if s.confW l.world then
      let (bs, t) := s.block l
      let (cs, ct) := xtsBlockEnc (s.world l.world).dkey (tweakOf l) (patch bs (l.dpa % 64) new) (tg.getD t)
      let s := (s.putBytes ep (64 * blk) cs).putTag ep blk ct
      { s with macs := mset s.macs blk ⟨s.macOf l, l.world, l.wva / 64⟩ }
    else
      let s := s.putBytes ep l.dpa new
      match tg with
      | some t => s.putTag ep blk t
      | none => s
  ((s.staleClean blk ep).sdcWrite l keep).homeEffects blk whole

/-- A write of bytes of one block. -/
def State.homeWriteBlk (s : State) (ep : Nat) (l : Loc) (new : List Byte) (tg : Option Tag) : State :=
  s.homeWriteAs ep l new tg (decide (new.length = 64))

/-- A write of bytes that may cross blocks (fuel: the number of blocks). -/
def State.homeWriteAux : Nat → State → Nat → Loc → List Byte → State
  | 0, s, _, _, _ => s
  | n + 1, s, ep, l, bs =>
    if bs.isEmpty then s
    else
      let k := 64 - l.dpa % 64
      let s := s.homeWriteBlk ep l (bs.take k) none
      homeWriteAux n s ep { l with dpa := l.dpa + k, wva := l.wva + k } (bs.drop k)

/-- A strong store, atomic or engine write: performed at the home while the commit epoch is C, it belongs to C + 1 (R25). -/
def State.homeWrite (s : State) (l : Loc) (bs : List Byte) : State :=
  State.homeWriteAux (bs.length / 64 + 2) s (s.epoch + 1) l bs

/-- An engine's write of a whole block with its tag, one atomic unit (R94). -/
def State.engineBlock (s : State) (l : Loc) (bs : List Byte) (t : Tag) : State :=
  s.homeWriteBlk (s.epoch + 1) l bs (some t)

/-- Reads plaintext bytes at an epoch (R25), across blocks. -/
def State.readAt (s : State) (S : Nat) (l : Loc) (n : Nat) : List Byte :=
  if s.confW l.world then
    (upto n).map fun i =>
      let d := l.dpa + i
      let (bs, _) := s.blockAt S { l with dpa := d, wva := l.wva + i }
      nth 0 bs (d % 64)
  else (upto n).map fun i => s.byteAt S (l.dpa + i)

/-- Reads current plaintext bytes at the home (strong and engine reads). -/
def State.readNow (s : State) (l : Loc) (n : Nat) : List Byte :=
  if s.confW l.world then
    (upto n).map fun i =>
      let d := l.dpa + i
      let (bs, _) := s.block { l with dpa := d, wva := l.wva + i }
      nth 0 bs (d % 64)
  else (upto n).map fun i => s.byte (l.dpa + i)

/-! ### Tasks' versions -/

/-- A thread as `Task.hist` and views name it: its task's run and its number in it; a processor's threads follow (R23). -/
def threadKey (run : Nat) (p : Place) (tid : Nat) : Nat :=
  run * 2 ^ 40 + (match p with
    | .ap _ k => 2 ^ 32 * (k + 1) + tid
    | _ => tid)

/-- Joins two views. -/
def View.join (a b : View) : View := b.foldl (fun m (e : Nat × Nat) => if mget 0 m e.1 < e.2 then mset m e.1 e.2 else m) a

/-- The reader of a plain load (R23): its key and its view. -/
structure Reader where
  key  : Nat
  view : View
  deriving DecidableEq, Repr

/-- Whether a plain store is ordered before a reader's load. -/
def Reader.after (r : Reader) (x : PStore) : Bool := x.key = r.key || x.n ≤ mget 0 r.view x.key

/-- `plain_load` (R23) of one byte or tag with the stores of the phase to it, newest first: the latest one that is ordered before
the load; else, where there are others, any one of them or the value at the snapshot, a free choice. -/
def State.pick23 (s : State) (r : Reader) (xs : List PStore) (base : Nat) : Nat × State :=
  match xs.find? r.after with
  | some x => (x.x, s)
  | none => match xs with
    | [] => (base, s)
    | _ :: _ => let (n, s) := s.draw; (nth base (xs.map PStore.x) (n % (xs.length + 1)), s)

/-- Bytes of a plain load, one after another: they are single-copy atomic each (R21, R23). -/
def State.plainBytes (s : State) (t : Task) (r : Reader) : Nat → List Byte → List Byte × State
  | _, [] => ([], s)
  | a, b :: bs =>
    let (x, s) := s.pick23 r (mget [] t.hist a) b.toNat
    let (xs, s) := State.plainBytes s t r (a + 1) bs
    (BitVec.ofNat 8 x :: xs, s)

/-- A plain load of `n` bytes by a thread of a task (R23). -/
def State.plainRead (s : State) (t : Task) (r : Reader) (l : Loc) (n : Nat) : List Byte × State :=
  s.plainBytes t r l.dpa (s.readAt t.snap l n)

/-- Where `Task.hist` holds the stores to the tag of a block. -/
def tagKey (blk : Nat) : Nat := 2 ^ 56 + blk

/-- The block tag a task's plain load sees (R23, R94). -/
def State.plainTag (s : State) (t : Task) (r : Reader) (l : Loc) : Tag × State :=
  let (x, s) := s.pick23 r (mget [] t.hist (tagKey (l.dpa / 64))) (s.blockAt t.snap l).2.toNat
  (BitVec.ofNat 16 x, s)

/-- Distinct lines in which the version holds a written byte (R215). -/
def linesOf (m : Map Byte) : Nat :=
  (m.foldl (fun (acc : Option Nat × Nat) p => if acc.1 = some (p.1 / 64) then acc else (some (p.1 / 64), acc.2 + 1)) (none, 0)).2

/-- Pins a task when its version passes its quota (R27, R215). -/
def Task.quotaPin (t : Task) : Task :=
  let q := (if t.desc.quota = 0 then 32 else t.desc.quota) * 1024
  if q < linesOf t.ver then { t with pinned := true } else t

/-- Lines a version holds beyond its quota, which the SDC spills to HSS (R27). -/
def Task.excess (t : Task) : Nat := linesOf t.ver - (if t.desc.quota = 0 then 32 else t.desc.quota) * 1024

/-- Counts lines spilled to HSS (Table 12.3). -/
def State.hspill (s : State) (w n : Nat) : State :=
  if n = 0 then s
  else (s.updSdc fun c => { (c.counter w fun k => { k with hspill := k.hspill + BitVec.ofNat 64 n }) with hssl := c.hssl + n }).sdcKeep

/-- The stores of the phase with one more to consecutive bytes. -/
def histPut (key n : Nat) : Map (List PStore) → Nat → List Byte → Map (List PStore)
  | h, _, [] => h
  | h, a, b :: bs => histPut key n (mset h a (⟨key, n, b.toNat⟩ :: mget [] h a)) (a + 1) bs

/-- A plain store into the version, the `n`-th of its thread (R23, R24, R27). It is performed whole in one step: R21 makes it
atomic only per byte towards other threads of the task, so the torn values the spec allows do not occur (log entry 105). -/
def State.plainWrite (s : State) (k : Nat) (key n : Nat) (l : Loc) (bs : List Byte) : State :=
  match s.task? k with
  | none => s
  | some t =>
    let t' := Task.quotaPin { t with ver := msets t.ver l.dpa bs, vloc := mset t.vloc (l.dpa / 64) (l.wva / 64),
                                     vout := t.vout.filter (· ≠ l.dpa / 64), hist := histPut key n t.hist l.dpa bs }
    (s.updTask k fun _ => t').hspill t.world (t'.excess - t.excess)

/-- STAG into the version (R94). -/
def State.plainTagWrite (s : State) (k : Nat) (key n : Nat) (l : Loc) (t : Tag) : State :=
  let h := tagKey (l.dpa / 64)
  s.updTask k fun x => { x with vtags := mset x.vtags (l.dpa / 64) t, vloc := mset x.vloc (l.dpa / 64) (l.wva / 64),
                                vout := x.vout.filter (· ≠ l.dpa / 64), hist := mset x.hist h (⟨key, n, t.toNat⟩ :: mget [] x.hist h) }

/-- One block of a version reaches its home: its bytes under the write mask and its tag, as one write (R24). What other modules
see of a pool line stays until a fabric release (R30); a line of leased memory reaches the lender (R46). -/
def State.applyBlk (s : State) (ep : Nat) (t : Task) (blk : Nat) : State :=
  let l : Loc := { dpa := 64 * blk, wva := 64 * mget 0 t.vloc blk, world := t.world, sc := false }
  let s := if dpaKind l.dpa = .pool then s.holdBack blk else s
  let now := (s.block l).1
  let new (i : Nat) : Option Byte := mget? t.ver (l.dpa + i)
  s.homeWriteAs ep l ((upto 64).map fun i => (new i).getD (nth 0 now i)) (mget? t.vtags blk) ((upto 64).all fun i => (new i).isSome)

/-- Whether a version changes a whole block, with its tag. -/
def Task.whole (t : Task) (blk : Nat) : Bool :=
  (mget? t.vtags blk).isSome && (upto 64).all fun i => (mget? t.ver (64 * blk + i)).isSome

/-- A block of a version that changes only part of a block whose MAC fails (R373). -/
def State.versionBad (s : State) (t : Task) : Option Nat :=
  t.vblocks.find? fun blk => s.macBad ⟨64 * blk, 64 * mget 0 t.vloc blk, t.world, false⟩
    && !t.whole blk

/-- Applies a version at epoch `ep` (R24). -/
def State.applyVersion (s : State) (ep : Nat) (t : Task) : State := t.vblocks.foldl (fun s blk => s.applyBlk ep t blk) s

/-- Journal entries no snapshot needs any more are dropped (R26): those that belong to an epoch at or below every snapshot,
every thread's fetch epoch and the commit epoch. -/
def State.prune (s : State) : State :=
  let fS := s.benches.flatMap fun b => b.threads.map fun (_, t) => t.fetchEp
  let m := minNat s.epoch (s.snaps ++ fS)
  { s with jrnl := s.jrnl.filter fun e => m < e.ep, tjrnl := s.tjrnl.filter fun e => m < e.ep }.pruneSdc

/-! ### Translation -/

/-- Kinds of access for the permission check (R192). -/
inductive AKind where
  | load | store | fetch
  deriving DecidableEq, Repr

/-- A page-table level (Table 7.5): index position and width, table size, the leaf SZ code allowed (0 none), its page bits. -/
structure Level where
  lo   : Nat
  n    : Nat
  size : Nat
  leaf : Nat
  ptr  : Bool
  deriving DecidableEq, Repr

def levels : List Level :=
  [⟨43, 13, 2 ^ 16, 0, true⟩, ⟨30, 13, 2 ^ 16, 3, true⟩, ⟨21, 9, 2 ^ 12, 2, true⟩, ⟨16, 5, 2 ^ 8, 1, false⟩]

/-- A leaf found by a walk: the page's first WVA, its size and the entry. -/
structure Leaf where
  base : Nat
  size : Nat
  pte  : Nat
  deriving DecidableEq, Repr

/-- The entry faults of a leaf at level `lv` (R191): the lease ID is the one of the window slot that the address names, so a leaf
outside the windows has none (R13). -/
def leafOk (lv : Level) (e : Nat) : Bool :=
  bits e 15 8 == 0 && bits e 51 16 * 2 ^ 16 % 2 ^ lv.lo == 0 && !(bitAt e 6 && bitAt e 4)
    && (if bits e 63 52 == 0 then dpaKind (bits e 51 16 * 2 ^ 16) ≠ .window
        else bits e 2 1 == 3 && bits e 51 16 * 2 ^ 16 == windowBase + bits e 63 52 * gib)

/-- A fault: cause and sub-code (Table 5.4). -/
abbrev Flt := Cause × Nat

/-- A walk from a table base (R190, R191): every entry fault is TC_PAGE; `rd` reads an entry, or says why its address bars it. -/
def walkFrom (rd : Nat → Except Flt Nat) (va : Nat) : List Level → Nat → Except Flt Leaf
  | [], _ => .error (.page, 0)
  | lv :: rest, tbl =>
    if tbl % lv.size ≠ 0 then .error (.page, 0)
    else match rd (tbl + 8 * bits va (lv.lo + lv.n - 1) lv.lo) with
      | .error f => .error f
      | .ok e =>
        if !bitAt e 0 || bitAt e 7 then .error (.page, 0)
        else if bits e 2 1 = 0 then
          if lv.ptr && bits e 63 52 == 0 && bits e 6 3 == 0 then walkFrom rd va rest (bits e 51 8 * 2 ^ 8) else .error (.page, 0)
        else if bits e 2 1 = lv.leaf && leafOk lv e then
          .ok ⟨va / 2 ^ lv.lo * 2 ^ lv.lo, 2 ^ lv.lo, e⟩
        else .error (.page, 0)

/-- A lease fault's sub-code for a leased leaf, none while the lease is granted (R192, R345). -/
def State.leaseSub (s : State) (lid : Nat) : Option Nat :=
  match (mget Lease.none s.leases lid).state with
  | .granted => Option.none
  | .expired => some 1
  | .failed => some 3
  | _ => some 2

/-! ### Reaching other modules (R340, R346, R348) -/

/-- Whether a port carries no CXL traffic: it has been reported, and is down or a plain PCIe link (R340); one never reported counts as
up (log entry 30). -/
def State.portDown (s : State) (p : Nat) : Bool := (mget? s.hub.lse.ports p).any fun x => !(x.up && x.cxl)
/-- Whether every port path to a module is down (R348): every port that its bulletin was read over, or, where it was over none, every port
reported (log entry 30). -/
def State.pathsDown (s : State) (mid : Nat) : Bool :=
  match (mget? s.hub.lse.peers mid).map Peer.paths with
  | some (p :: ps) => (p :: ps).all s.portDown
  | _ => !s.hub.lse.ports.isEmpty && s.hub.lse.ports.all fun e => s.portDown e.1
/-- Whether what a module sends arrives: a path is up and it has not died (R346, R348). -/
def State.reaches (s : State) (mid : Nat) : Bool := !s.pathsDown mid && !(mget? s.hub.lse.peers mid).any Peer.silent

/-- Whether the module holds a line itself: a strong copy, a clean copy, or a line of the SDC. -/
def State.lineHere (s : State) (blk : Nat) : Bool :=
  s.copies.any (fun c => c.line = blk) || s.clean.any (fun c => c.line = blk) || s.hub.sdc.lines.any fun x => x.line = blk && x.upto = none
/-- The lender of the leased memory that a line's home stands in. -/
def State.lenderOf (s : State) (blk : Nat) : Nat := (mget Lease.none s.leases (leaseAt (64 * s.homeOf blk))).lender
/-- A line that stands at a lender which has not given it yet (R340; log entry 3), or does not answer (R346): an access to it waits, until the
lender answers or is declared failed. -/
def State.lineAway (s : State) (blk : Nat) : Bool :=
  s.leased blk && !s.lineHere blk && (!s.reaches (s.lenderOf blk) || (dpaKind (64 * blk) = .window && !s.fetched.contains blk))
/-- The lender answers the read of a line of a borrowed window (R340) with its bytes and tag. -/
def State.lineArrives (s : State) (blk : Nat) (bs : List Byte) (t : Tag) : State :=
  if dpaKind (64 * blk) = .window && !s.fetched.contains blk && s.reaches (s.lenderOf blk) && bs.length = 64 then
    { s with fetched := insertNat s.fetched blk, mem := mputs 0 s.mem (64 * blk) bs, tags := mput tag0 s.tags blk t }
  else s
/-- The sub-code that stands for such a wait while an access is checked; no fault carries it. -/
def waitSub : Nat := 16
/-- Whether the fault of an access is such a wait. -/
def AFault.waits (f : AFault) : Bool := f.c = .lease && f.sub = waitSub
def State.awayBar (s : State) (a : Nat) : Option Flt := if s.lineAway (a / 64) then some (.lease, waitSub) else none

/-- Whether a pool extent is lent out, so that the lender's own accesses take TC_PERM (R347). -/
def State.lentExtent (s : State) (ext : Nat) : Bool :=
  s.leases.any fun (_, l) => l.role = .lent && l.ext = ext && (l.state = .offered || l.state = .granted || l.state = .recalling)

/-- Pool extents that back HSS (R328). -/
def State.hssExtent (s : State) (ext : Nat) : Bool := 2048 - s.hub.flash.hext ≤ ext && ext < 2048

/-- What bars a DPA to every agent but the units of R14 and R347, whatever named it (R13, R14, R345, R347, R328, R366). -/
def State.dpaKindBar (s : State) (a : Nat) : Option Flt :=
  match dpaKind a with
  | .hbm => none
  | .pool => if s.lentExtent ((a - tib) / gib) || s.hssExtent ((a - tib) / gib) then some (.perm, 0) else none
  | .window => (s.leaseSub ((a - windowBase) / gib)).map fun k => (.lease, k)
  | .hss | .mmio => some (.perm, 0)
  | .hole => some (.page, 0)

/-- The same for a read, which waits for a line that its lender has not given (R346). -/
def State.dpaBar (s : State) (a : Nat) : Option Flt := (s.dpaKindBar a).orElse fun _ => s.awayBar a

/-- Entries are read through the SDC at device scope, outside every version (R192). -/
def State.readPte (s : State) (a : Nat) : Except Flt Nat :=
  match s.dpaBar a with
  | some f => .error f
  | none => .ok (leNat ((upto 8).map fun i => s.byte (a + i)))
def State.walk (s : State) (world va : Nat) : Except Flt Leaf :=
  walkFrom s.readPte va levels (s.world world).root

/-- An empty core: every bank owned by world 0 in cache mode, as at reset (R364). -/
def LsuCnt.zero : LsuCnt := ⟨0, 0, 0, 0, 0⟩
def Core.init : Core :=
  { banks := List.replicate 32 ⟨0, .cache⟩, spad := [], fresh := [], wr := [], landing := [], stags := [], pres := [], fifos := [],
    inbox := [[], []], outbox := [[], []], boxv := [], smarked := [], cnt := LsuCnt.zero }
def State.core (s : State) (c : Nat) : Core := mget Core.init s.cores c
def State.updCore (s : State) (c : Nat) (f : Core → Core) : State := { s with cores := mupd Core.init s.cores c f }

def Drawer.init : Drawer := { world := 0, swapout := 0, swapin := 0, issued := 0, spill := 0, refill := 0 }

/-- A page walk started (R203). -/
def State.countWalk (s : State) (core : Nat) : State :=
  if core < 192 then s.updCore core fun c => { c with cnt := { c.cnt with walks := c.cnt.walks + 1 } } else s

/-- Checks 2 to 4 of R192 on a leaf, for the DPA of the access. -/
def State.leafFault (s : State) (world : Nat) (k : AKind) (lf : Leaf) (dpa : Nat) : Option Flt :=
  let perm := match k with
    | .load => bitAt lf.pte 3
    | .store => bitAt lf.pte 4
    | .fetch => bitAt lf.pte 5
  if !perm then some (.perm, 0)
  else match dpaKind dpa with
    | .hole => some (.page, 0)
    | .hss => some (.perm, 0)
    | .hbm | .pool | .window => if k = .store then s.dpaKindBar dpa else s.dpaBar dpa
    | .mmio =>
      if world = 0 then none
      else if dpa / 4096 = (mmioBase + 2 ^ 32) / 4096 + world && !bitAt lf.pte 4 then none else some (.perm, 0)

/-- How `State.tlbs` names the translation cache that a cluster's cores share (R192). -/
def clusterTlb (core : Nat) : Nat := 1024 + core / 4
/-- A translation cache takes an entry; a full one, of 4096 entries at a core and 65536 at a cluster, loses its oldest (R192). -/
def State.tlbPut (s : State) (e : Tlb) : State :=
  let mine := s.tlbs.filter fun x => x.core = e.core
  let xs := if mine.length < (if e.core < 1024 then 4096 else 65536) then s.tlbs else match mine.getLast? with
    | some x => s.tlbs.erase x
    | none => s.tlbs
  { s with tlbs := e :: xs }

/-- Translates an address for a core's caches (R12, R190 to R192): the location, or the fault. A walk fills the caches of the core and
its cluster and is counted (R203); lanes of one instruction in the same 64 KiB share a walk that faults (R192; log entry 104). -/
def State.translate (s : State) (core world : Nat) (k : AKind) (va : Nat) : State × Except Flt Loc :=
  if va / 2 ^ 56 ≠ 0 then (s, .error (.page, 0))
  else
    let hit (c : Nat) := s.tlbs.find? fun e => e.core = c ∧ e.world = world ∧ e.base ≤ va ∧ va < e.base + e.size
    let (s, lf) : State × Except Flt Leaf := match hit core, hit (clusterTlb core) with
      | some e, _ => (s, .ok ⟨e.base, e.size, e.pte.toNat⟩)
      | none, some e => (s.tlbPut { e with core := core }, .ok ⟨e.base, e.size, e.pte.toNat⟩)
      | none, none =>
        let page := (core, world, va / 65536)
        match s.walk world va with
        | .ok lf =>
          let e : Tlb := ⟨core, world, lf.base, lf.size, BitVec.ofNat 64 lf.pte⟩
          (((s.countWalk core).tlbPut { e with core := clusterTlb core }).tlbPut e, .ok lf)
        | .error f => (if s.walks.contains page then s else { (s.countWalk core) with walks := page :: s.walks }, .error f)
    match lf with
    | .error f => (s, .error f)
    | .ok lf =>
      let dpa := bits lf.pte 51 16 * 2 ^ 16 + (va - lf.base)
      match s.leafFault world k lf dpa with
      | some f => (s, .error f)
      | none => (s, .ok { dpa := dpa, wva := va, world := world, sc := bitAt lf.pte 6 })

end Sys2Proof.Machine
end

