-- ==== Sys2Proof/Machine/Sram.lean ====
section
/-! DEFINITION. Core SRAM: banks and the scratchpad of a world, the bank hash (R176), generic-path and engine-path words (R39),
presence counts (R182), block tags of scratchpad (R90, R176). -/

namespace Sys2Proof.Machine

/-- The core whose SRAM a place uses; steward `k` stands as core 192 + k (R175). -/
def coreIx : Place → Nat
  | .drawer c _ _ => c
  | .steward k _ => 192 + k
  | .ap c _ => c

/-- The physical indices of a world's banks in a mode, ascending (R174). -/
def Core.banksOf (c : Core) (w : Nat) (m : BMode) : List Nat :=
  (upto 32).filter fun i => match c.banks[i]? with
    | some b => b.owner = w ∧ b.mode = m
    | none => false

/-- The world's scratchpad size in bytes on a core; a steward's local SRAM is 256 KiB (R174, R175). -/
def State.spadSize (s : State) (cix w : Nat) : Nat :=
  if 192 ≤ cix then 2 ^ 18 else 2 ^ 16 * ((s.core cix).banksOf w .spad).length

/-- xor of the k-bit chunks of a 14-bit number (R176). -/
def foldChunks (k hi : Nat) : Nat :=
  if k = 0 then 0 else (upto 14).foldl (fun t i => t ^^^ (hi / 2 ^ (k * i) % 2 ^ k)) 0

/-- `locate` (R176): logical bank and row of a word under a key, with n = 2^k banks. -/
def locate (n : Nat) (key : Word) (x : Nat) : Nat × Nat :=
  let k := Nat.log2 n
  let w := x / 4
  let low := w % n
  let hi := w / n
  let t := foldChunks k hi
  let c := 2 * (key.toNat % 32) + 1
  ((low + c * t + key.toNat / 32 % 32) % n, hi)

/-- The physical word of a scratchpad offset: bank × 16384 + row. -/
def State.spadLoc (s : State) (cix w : Nat) (key : Word) (x : Nat) : Nat :=
  if 192 ≤ cix then x / 4
  else
    let bs := (s.core cix).banksOf w .spad
    let (b, row) := locate bs.length key x
    nth 0 bs b * 16384 + row

/-- The key of a block's tag and presence count: by world and block number, whatever the spkey (R176). -/
def pkey (w blk : Nat) : Nat := w * 2 ^ 16 + blk
def State.pres (s : State) (cix w blk : Nat) : Nat := mget 0 (s.core cix).pres (pkey w blk)
def State.addPres (s : State) (cix w blk : Nat) (up : Bool) : State :=
  s.updCore cix fun c => { c with pres := mupd 0 c.pres (pkey w blk) fun n => if up then n + 1 else n - 1 }
def State.spadTag (s : State) (cix w blk : Nat) : Tag := mget tag0 (s.core cix).stags (pkey w blk)
def State.putSpadTag (s : State) (cix w blk : Nat) (t : Tag) : State :=
  s.updCore cix fun c => { c with stags := mput tag0 c.stags (pkey w blk) t }

/-- A word as it stands in its bank. -/
def State.spadWord (s : State) (cix w : Nat) (key : Word) (x : Nat) : Word :=
  mget 0 (s.core cix).spad (s.spadLoc cix w key x)

/-- The run of a task (0 for none). -/
def State.runOf (s : State) (k : Nat) : Nat :=
  match s.task? k with
  | some t => t.run
  | none => 0

/-- Whether a task may rely on the word at a location that it reads under `key` (R29): no task has written it since its bank was
configured, or the task's own run did, or the last run of a task it depends on, under that key, and, where an engine wrote it there,
that task waited on the engine's timeline. -/
def State.spadSure (s : State) (cix loc : Nat) (key : Word) (task : Nat) : Bool :=
  match mget? (s.core cix).wr loc with
  | none => true
  | some w => match s.task? task with
    | none => true
    | some t => w.run = 0 || w.run = t.run || (t.preds.contains w.run && w.key = key && w.op.isNone)

/-- A word as a task sees it: where the conditions of R29 fail it is unspecified for the task's run, one free value for each
word (log entry 4). -/
def State.spadSeen (s : State) (cix w : Nat) (key : Word) (x : Nat) (task : Nat) : Word :=
  let loc := s.spadLoc cix w key x
  if s.spadSure cix loc key task then mget 0 (s.core cix).spad loc
  else BitVec.ofNat 32 (Config.strayWord (s.runOf task) cix loc)

/-- A task's write of a word is remembered: the writer (R29), and the location, which a discard leaves unspecified (R28). -/
def State.spadMine (s : State) (cix loc : Nat) (key : Word) (task : Nat) (op : Option (Nat × Nat) := none) : State :=
  (s.updCore cix fun c => { c with wr := mset c.wr loc ⟨s.runOf task, key, op⟩ }).updTask task fun t =>
    { t with spw := if t.spw.contains (cix, loc) then t.spw else (cix, loc) :: t.spw }

/-- A task has waited until a timeline of its core reached `n`: what the operations up to there wrote for it counts as waited for (R29). -/
def State.waitedOn (s : State) (cix h n task : Nat) : State :=
  let mine (w : SpWr) : Bool := w.run = s.runOf task && match w.op with
    | some (h', m) => h' = h && m ≤ n
    | none => false
  s.updCore cix fun c => { c with wr := c.wr.map fun e => if mine e.2 then (e.1, { e.2 with op := none }) else e }

/-- A generic-path store of a word: it acts on the bank when performed; an engine-path read may still see the old word until
a FENCEX (R28, R39). -/
def State.spadStore (s : State) (cix w : Nat) (key : Word) (x : Nat) (v : Word) (task : Nat) : State :=
  let loc := s.spadLoc cix w key x
  let old := mget 0 (s.core cix).spad loc
  (s.updCore cix fun c =>
    { c with spad := mput 0 c.spad loc v, landing := mdel c.landing loc, fresh := match mget? c.fresh loc with
        | some _ => c.fresh
        | none => mset c.fresh loc old }).spadMine cix loc key task

/-- A generic-path load of a word: of a block that a copy of a steward's queue has landed in, the old or the new word, per word,
until the queue's timeline reaches the copy (R289). -/
def State.spadLoad (s : State) (cix w : Nat) (key : Word) (x : Nat) (task : Nat) : Word × State :=
  let new := s.spadSeen cix w key x task
  match mget? (s.core cix).landing (s.spadLoc cix w key x) with
  | some old => let (n, s) := s.draw; (if n % 2 = 0 then new else old.2, s)
  | none => (new, s)
def State.spadLoads (s : State) (cix w : Nat) (key : Word) (x : Nat) (task : Nat) : Nat → List Word × State
  | 0 => ([], s)
  | n + 1 =>
    let (v, s) := s.spadLoad cix w key x task
    let (vs, s) := State.spadLoads s cix w key (x + 4) task n
    (v :: vs, s)

/-- An engine's write of a word through the wide port, for a task; `op` is the operation of a drain or an attention run. -/
def State.spadPut (s : State) (cix w : Nat) (key : Word) (x : Nat) (v : Word) (task : Nat) (op : Option (Nat × Nat) := none) : State :=
  let loc := s.spadLoc cix w key x
  (s.updCore cix fun c => { c with spad := mput 0 c.spad loc v, fresh := mdel c.fresh loc }).spadMine cix loc key task op

/-- An engine-path read of a word for a task: a store not yet fenced shows its old or its new word, per word (R39). -/
def State.spadEngine (s : State) (cix w : Nat) (key : Word) (x task : Nat) : Word × State :=
  let new := s.spadSeen cix w key x task
  match mget? (s.core cix).fresh (s.spadLoc cix w key x) with
  | some old => let (n, s) := s.draw; (if n % 2 = 0 then new else old, s)
  | none => (new, s)

/-- FENCEX, or the passing of time: every generic-path store of the core is performed in its bank (R39). -/
def State.settleSpad (s : State) (cix : Nat) : State := s.updCore cix fun c => { c with fresh := [] }

/-- Banks whose contents are gone: zero, nobody's (R175, R369). -/
def Core.clearBanks (c : Core) (gone : Nat → Bool) : Core :=
  { c with spad := c.spad.filter fun e => !gone (e.1 / 16384), fresh := c.fresh.filter fun e => !gone (e.1 / 16384),
           wr := c.wr.filter fun e => !gone (e.1 / 16384), landing := c.landing.filter fun e => !gone (e.1 / 16384) }

/-- Bytes as words, lowest address first. -/
def wordsOfBytes (bs : List Byte) : List Word := (chunk ((bs.length + 3) / 4) 4 bs).map fun b => BitVec.ofNat 32 (leNat b)
def bytesOfWords (ws : List Word) : List Byte := ws.flatMap fun w => natLe 4 w.toNat

/-- Engine-path read of `n` bytes at a 4-byte-aligned offset. -/
def State.spadEngineBytes (s : State) (cix w : Nat) (key : Word) (x n task : Nat) : List Byte × State :=
  let (ws, s) := (upto ((n + 3) / 4)).foldl (fun (acc : List Word × State) i =>
    let (v, s') := acc.2.spadEngine cix w key (x + 4 * i) task
    (acc.1 ++ [v], s')) ([], s)
  ((bytesOfWords ws).take n, s)

/-- Whether bytes of scratchpad lie in a marked block, which a read that does not interpret tags may not read (R331). -/
def State.spadMarked (s : State) (cix w x n : Nat) : Bool :=
  (s.core cix).smarked.any fun k => k / 2 ^ 16 = w && 64 * (k % 2 ^ 16) < x + n && x < 64 * (k % 2 ^ 16) + 64

/-- The scratchpad blocks that `n` bytes at an offset cover. -/
def blkSpan (x n : Nat) : List Nat := (upto ((x + n + 63) / 64 - x / 64)).map fun i => x / 64 + i
/-- The first marked block among bytes of scratchpad. -/
def State.firstMarked (s : State) (cix w x n : Nat) : Option Nat := (blkSpan x n).find? fun b => s.spadMarked cix w (64 * b) 64
/-- A write of bytes has been performed: it clears the marks of the blocks it covers whole (R331). -/
def State.unmark (s : State) (cix w x n : Nat) : State :=
  s.updCore cix fun c => { c with smarked := c.smarked.filter fun k => !(k / 2 ^ 16 = w && x ≤ 64 * (k % 2 ^ 16) && 64 * (k % 2 ^ 16) + 64 ≤ x + n) }

/-- Engine write of bytes, by read-modify-write of words; one of a whole block clears its mark (R331). -/
def State.spadEnginePut (s : State) (cix w : Nat) (key : Word) (x : Nat) (bs : List Byte) (task : Nat) (op : Option (Nat × Nat) := none) : State :=
  let s := if s.spadMarked cix w x bs.length then s.unmark cix w x bs.length else s
  ((upto bs.length).zip bs).foldl (fun s (i, b) =>
    let a := x + i
    let old := s.spadSeen cix w key a task
    let v := leNat (setNth (natLe 4 old.toNat) (a % 4) b)
    s.spadPut cix w key a (BitVec.ofNat 32 v) task op) s

end Sys2Proof.Machine
end

