-- ==== Sys2Proof/Machine/Bnet.lean ====
section
/-! DEFINITION. Threads by place, groups (R108, R223, R224), barrier slots and their generations (R225 to R227), wake records
(R221). -/

namespace Sys2Proof.Machine

def State.bench? (s : State) (p : Place) : Option Bench := s.benches.find? fun b => b.place = p
def State.updBench (s : State) (p : Place) (f : Bench → Bench) : State :=
  { s with benches := updFirst (fun b => b.place = p) f s.benches }
def Bench.updThread (b : Bench) (l : Nat) (f : Thread → Thread) : Bench :=
  match mget? b.threads l with
  | some t => { b with threads := mset b.threads l (f t) }
  | none => b
def State.thread? (s : State) (p : Place) (l : Nat) : Option Thread := (s.bench? p).bind fun b => mget? b.threads l
def State.updThread (s : State) (p : Place) (l : Nat) (f : Thread → Thread) : State :=
  s.updBench p fun b => b.updThread l f
/-- Changes every thread, of running and of saved benches. -/
def State.mapThreads (s : State) (f : Place → Nat → Thread → Thread) : State :=
  let g := fun (b : Bench) => { b with threads := b.threads.map fun (l, t) => (l, f b.place l t) }
  { s with benches := s.benches.map g, saved := s.saved.map g }
/-- Every thread with its place and lane. -/
def State.allThreads (s : State) : List (TRef × Thread) :=
  (s.benches ++ s.saved).flatMap fun b => b.threads.map fun (l, t) => (⟨b.place, l⟩, t)

def Thread.live (t : Thread) : Bool := t.wait ≠ .exited

def clusterOf (p : Place) : Nat := coreIx p / 4

/-- The barrier node a scope names from a place (R225). -/
def nodeOf (p : Place) : Nat → Node
  | 0 => .core (coreIx p)
  | 1 => .cluster (clusterOf p)
  | _ => .device

def BSlot.empty (nd : Node) (i : Nat) : BSlot :=
  { node := nd, slot := i, bound := none, solo := none, arr := 0, gen := 0, pend := 0, mem := 0, arrived := [], view := [], done := [] }
def State.slot (s : State) (nd : Node) (i : Nat) : BSlot :=
  (s.slots.find? fun b => b.node = nd ∧ b.slot = i).getD (BSlot.empty nd i)
def State.putSlot (s : State) (x : BSlot) : State :=
  if s.slots.any fun b => b.node = x.node ∧ b.slot = x.slot then
    { s with slots := updFirst (fun b => b.node = x.node ∧ b.slot = x.slot) (fun _ => x) s.slots }
  else { s with slots := s.slots ++ [x] }

/-- A generation is open (R226). -/
def BSlot.isOpen (x : BSlot) : Bool := x.arr > 0 || x.pend ≠ x.mem - x.arr

/-- Whether a thread is a member of group `h`: its `grp` reads `h`, which a thread parked in GJOIN keeps (R108, R224). -/
def Thread.isMember (t : Thread) (h : Word) : Bool := t.live && t.grp = h

/-- Whether the next generation of a slot bound to group `h` counts a thread (R224): a member whose departure has not been
counted, or a thread whose join was accepted. -/
def Thread.counts (t : Thread) (h : Word) : Bool :=
  t.live && ((t.grp = h && !t.left) || (match t.wait with
    | .join g _ => g = h
    | _ => false))

/-- The members of a group that a slot counts: a core slot those on its core, a cluster slot all (R227); of handle 0 the one
thread `solo` (R223). -/
def State.counted (s : State) (nd : Node) (h : Word) (solo : Option TRef) : Nat :=
  (s.allThreads.filter fun (r, t) => t.counts h && (h ≠ 0 || solo = some r) && (match nd with
    | .core c => coreIx r.place = c
    | _ => true)).length

/-- Members of a group anywhere (R108, R223). -/
def State.members (s : State) (h : Word) : Nat := (s.allThreads.filter fun (_, t) => t.isMember h).length

def groupHandle (g : Group) : Word := BitVec.ofNat 32 (g.serial % 2 ^ 16 * 2 ^ 16 + 2 ^ 15 + g.clu * 2 ^ 9 + g.recd)
def State.groupLive (s : State) (h : Word) : Bool := s.groups.any fun g => groupHandle g = h

/-- A joining thread's remaining slots: those still in the generation it found open (R224). -/
def State.joinLeft (s : State) (xs : List (Node × Nat × Nat)) : List (Node × Nat × Nat) :=
  xs.filter fun (nd, i, g) => let x := s.slot nd i; x.gen = g && x.isOpen

/-- Slots bound to a group that have no open generation count the threads that join it at once (R224; log entry 21). -/
def State.recount (s : State) (h : Word) : State :=
  { s with slots := s.slots.map fun (x : BSlot) =>
      if x.bound = some h && !x.isOpen then let m := s.counted x.node h x.solo; { x with mem := m, pend := m } else x }

/-- GJOIN returns where no slot holds it any more (R224). -/
def State.finishJoins (s : State) : State :=
  let hs := s.allThreads.filterMap fun (_, t) => match t.wait with
    | .join h _ => some h
    | _ => none
  (hs.foldl State.recount s).mapThreads fun _ _ t => match t.wait with
    | .join h xs =>
      let xs' := s.joinLeft xs
      if xs'.isEmpty then { t with wait := .ready, grp := h, left := false } else { t with wait := .join h xs' }
    | _ => t

/-- `complete` (R227): the next generation, its waiters released with the acquire of R35, at device scope where an engine's BDONE
completed it (R254), and its wake records fired, membership changes applied. -/
def State.completeSlot (s : State) (nd : Node) (i : Nat) (eng : Bool) : State :=
  let x := s.slot nd i
  let g' := (x.gen + 1) % 2 ^ 16
  let mem := match x.bound with
    | some h => s.counted nd h x.solo
    | none => 0
  let s := s.putSlot { x with gen := g', arr := 0, mem := mem, pend := mem, arrived := [], view := [], done := x.view }
  let s := match nd, eng with
    | .core _, false => s
    | _, _ => { s with copies := s.copies.filter fun c => c.dirty }
  let s := s.mapThreads fun _ _ t => match t.wait with
    | .barrier n j g => if n = nd ∧ j = i ∧ g ≠ g' then { t with wait := .ready, view := t.view.join x.view } else t
    | _ => t
  let s := { s with wakes := s.wakes.map fun (w : Wake) => if w.node = nd ∧ w.slot = i ∧ w.gen = x.gen then { w with fired := true } else w }
  s.finishJoins

/-- Counts an arrival of `r` on a slot and completes the generation if it was the last (R224, R227). -/
def State.countArrival (s : State) (nd : Node) (i : Nat) (r : TRef) : State :=
  let x := s.slot nd i
  let s := s.putSlot { x with arr := x.arr + 1, pend := x.pend - 1, arrived := r :: x.arrived }
  if x.pend - 1 = 0 then s.completeSlot nd i false else s

/-- Binds a slot to a group with a fresh generation (R227); of handle 0 the group is the thread itself (R223). -/
def State.bindSlot (s : State) (nd : Node) (i : Nat) (h : Word) (r : Option TRef) : State :=
  let x := s.slot nd i
  let solo := if h = 0 then r else none
  let mem := s.counted nd h solo
  s.putSlot { x with bound := some h, solo := solo, mem := mem, pend := mem, arr := 0, arrived := [], view := [] }

/-- `arrive` (R227): the generation arrived in, or none for TC_BAROVF with the slot unchanged. -/
def State.arrive (s : State) (nd : Node) (i : Nat) (r : TRef) : Option (Nat × State) :=
  match s.thread? r.place r.lane with
  | none => none
  | some t =>
    let x := s.slot nd i
    let joining := match t.wait with
      | .join _ _ => true
      | _ => false
    if joining then none
    else
      let rebind := x.bound ≠ some t.grp || (t.grp = 0 && x.solo ≠ some r)
      if rebind && x.isOpen then none
      else
        let s := if rebind then s.bindSlot nd i t.grp (some r) else s
        let x := s.slot nd i
        if x.arrived.contains r then none
        else some (x.gen, (s.putSlot { x with view := x.view.join t.view }).countArrival nd i r)

/-- The slots bound to a thread's group that count it. -/
def State.slotsFor (s : State) (h : Word) (r : TRef) : List (Node × Nat) :=
  (s.slots.filter fun x => x.bound = some h && (h ≠ 0 || x.solo = some r) && (match x.node with
    | .core c => coreIx r.place = c
    | _ => true)).map fun x => (x.node, x.slot)

/-- A departure counts as an arrival on each slot of the old group on which the thread has not arrived (R224). `mark` has
already taken the thread out of its group. -/
def State.depart (s : State) (h : Word) (r : TRef) : State :=
  (s.slotsFor h r).foldl (fun s (nd, i) =>
    let x := s.slot nd i
    if x.arrived.contains r then s else s.countArrival nd i r) s

/-- GLEAVE's departure: the group becomes handle 0 (R223, R224). A thread that leaves its singleton group departs from the slots
bound to it too, and is its member again (log entry 21). GMASK, GFREE and the group's member count drop it at once, while a slot with an open generation still
counts it in MEM (DEDUCED, log entry 21). -/
def State.leaveGroup (s : State) (r : TRef) : State :=
  match s.thread? r.place r.lane with
  | none => s
  | some t => (s.updThread r.place r.lane fun t => { t with grp := 0, left := false }).depart t.grp r

/-- A join that was accepted leaves the old group as GLEAVE does; `grp` keeps reading it until GJOIN returns (R224). -/
def State.departFor (s : State) (r : TRef) : State :=
  match s.thread? r.place r.lane with
  | none => s
  | some t => (s.updThread r.place r.lane fun t => { t with left := true }).depart t.grp r

/-- Frees a group record and unbinds its slots (R223). The spec says no more than that they are unbound: what they counted, arrivals
and outstanding expectations included, is gone (log entry 106). A joiner whose GJOIN has not returned is no member yet: a group that has only such
is freed, and they return with its dead handle (DEDUCED, log entry 21). -/
def State.freeGroup (s : State) (h : Word) : State :=
  let s := { s with groups := s.groups.filter fun g => decide (groupHandle g ≠ h) }
  let s := { s with slots := s.slots.map fun (x : BSlot) => if x.bound = some h then { x with bound := none, arr := 0, pend := 0, mem := 0, arrived := [], view := [] } else x }
  s.finishJoins

/-- BDONE, by a thread or on an engine's completion (R227): false if no expectation was outstanding. -/
def State.bdone (s : State) (nd : Node) (i : Nat) (eng : Bool) : Bool × State :=
  let x := s.slot nd i
  if x.pend ≤ x.mem - x.arr then (false, s)
  else
    let s := s.putSlot { x with pend := x.pend - 1 }
    (true, if x.pend - 1 = 0 then s.completeSlot nd i eng else s.finishJoins)

end Sys2Proof.Machine
end

