-- ==== Sys2Proof/Machine/MxData.lean ====
section
/-! DEFINITION. The data of a matrix unit: tiles, weight buffer and ordered-difference records (R232, R233, R244, R245), the landing
of product sets (R96, R241) and the conversion of drained blocks (R98, R251). -/

namespace Sys2Proof.Machine

def Deep.zero : Deep := ⟨0, .fin⟩
def MxData.init : MxData := { seed := none, freed := none, tiles := [], units := [], recs := [], flags := [] }
def Mxu.init : Mxu :=
  { data := MxData.init, queue := [], done := 0, asn := 0, status := 0, fault := none, pseq := 0, recv := [], claim := none,
    send := none, held := false }

/-- The matrix unit of drawer `d` of core `c` stands at 8 × core + drawer. -/
def mxIx (core d : Nat) : Nat := 8 * core + d
def State.mxu (s : State) (i : Nat) : Mxu := mget Mxu.init s.mxus i
def State.updMxu (s : State) (i : Nat) (f : Mxu → Mxu) : State := { s with mxus := mupd Mxu.init s.mxus i f }

/-- An element, a unit as free values of a claim (R233). -/
def freeDeep (n : Nat) : Deep :=
  ⟨(n % 2 ^ 96 : Nat) - 2 ^ 95, match n / 2 ^ 96 % 4 with
    | 0 => .fin
    | 1 => .pinf
    | 2 => .ninf
    | _ => .nan⟩
def freeUnit (n : Nat) : List Byte × Tag := (natLe 64 n, BitVec.ofNat 16 (n / 2 ^ 512))
def unit0 : List Byte × Tag := (List.replicate 64 0, tag0)

/-- The tiles and units a run of the attention sequencer uses (R305). -/
def runTile (t : Nat) : Bool := t < 2
def runUnit (u : Nat) : Bool := u < 256 || (1024 ≤ u && u < 1280)
/-- What gives the free value of an unlisted element. -/
def MxData.base (d : MxData) (run : Bool) : Option Nat :=
  match run, d.freed with
  | true, some b => some b
  | _, _ => d.seed

def MxData.elem (d : MxData) (t m n : Nat) : Deep :=
  let k := 4096 * t + 64 * m + n
  match mget? d.tiles k, d.base (runTile t) with
  | some x, _ => x
  | none, some b => freeDeep (Config.freeNat (b + k))
  | none, none => Deep.zero
def MxData.setElem (d : MxData) (t m n : Nat) (x : Deep) : MxData :=
  let k := 4096 * t + 64 * m + n
  { d with tiles := match d.base (runTile t) with
      | some _ => mset d.tiles k x
      | none => mput Deep.zero d.tiles k x }
def MxData.unit (d : MxData) (u : Nat) : List Byte × Tag :=
  match mget? d.units u, d.base (runUnit u) with
  | some x, _ => x
  | none, some b => freeUnit (Config.freeNat (b + 16384 + u))
  | none, none => unit0
def MxData.setUnit (d : MxData) (u : Nat) (x : List Byte × Tag) : MxData :=
  { d with units := match d.base (runUnit u) with
      | some _ => mset d.units u x
      | none => mput unit0 d.units u x }
/-- After a run, the tiles and units it used are free values (R305). -/
def MxData.freeRun (d : MxData) (b : Nat) : MxData :=
  { d with freed := some b, tiles := d.tiles.filter fun p => !runTile (p.1 / 4096), units := d.units.filter fun p => !runUnit p.1 }
def MxData.row (d : MxData) (t m : Nat) : List Deep := (upto 64).map fun n => d.elem t m n
def MxData.setRow (d : MxData) (t m : Nat) (xs : List Deep) : MxData :=
  ((upto xs.length).zip xs).foldl (fun d (n, x) => d.setElem t m n x) d
def MxData.zeroRows (d : MxData) (t m : Nat) : MxData :=
  (upto m).foldl (fun d i => d.setRow t i (List.replicate 64 Deep.zero)) d
/-- Tile flags: bit 0 INEXACT, bit 1 OVERFLOW (Table 9.10). -/
def MxData.orFlags (d : MxData) (t f : Nat) : MxData := { d with flags := mput 0 d.flags t (mget 0 d.flags t ||| f) }

/-- Drops every record that shares a byte with `[w, w + n)` (R243, R245). -/
def MxData.dropRecs (d : MxData) (w n : Nat) : MxData :=
  { d with recs := d.recs.filter fun r => r.pos + 96 ≤ w || w + n ≤ r.pos }

/-! ### Claims (R233) -/

/-- Claims a unit for a task; contents found at a claim are free values, and whether old records stay valid is free too. -/
def State.claimMx (s : State) (i k : Nat) : Option State :=
  match (s.mxu i).claim with
  | some j => if j = k then some s else none
  | none =>
    let b := s.draws
    let keep := Config.freeNat (b + 20480) % 2 = 0
    let s := { s with draws := b + 20481 }
    some (s.updMxu i fun x =>
      let recs := if keep then x.data.recs else []
      { x with claim := some k, data := { x.data with seed := some b, freed := none, tiles := [], units := [], recs := recs } })

/-- Whether a task still holds a claim: it is pending and not discarded. -/
def State.holdsClaim (s : State) (k : Nat) : Bool :=
  match s.task? k with
  | some t => match t.state with
    | .discarded | .done | .failed | .ready | .submitted => false
    | _ => true
  | none => false

/-- Whether a run of the task is in flight on the attention sequencer of a core. -/
def State.runsFor (s : State) (core k : Nat) : Bool := many (fun c (a : Asq) => c = core && a.runs.any fun r => r.who.task = k) s.asqs

/-- Releases a claim whose task has ended and has no command or run left; the fault record ends with the claim (log entry
22). -/
def State.unclaimMx (s : State) (i : Nat) : State :=
  match (s.mxu i).claim with
  | some k =>
    if s.holdsClaim k || (s.mxu i).queue.any (fun c => c.who.task = k) || s.runsFor (i / 8) k then s
    else s.updMxu i fun x => { x with claim := none, fault := none }
  | none => s

/-! ### Landing sets of products (R96, R241) -/

/-- A product of two decoded elements at a combined scale. -/
def product (a b : Fp) (c : Int) : Fp := (mulFp a b).1.scale c

/-- The class of an element after a product lands. -/
def landCls (c : DCls) (p : Fp) : DCls :=
  match p, c with
  | .nan _, _ => .nan
  | .inf _, .nan => .nan
  | .inf n, .fin => if n then .ninf else .pinf
  | .inf n, .pinf => if n then .nan else .pinf
  | .inf n, .ninf => if n then .ninf else .nan
  | .fin _ _ _, c => c

/-- A set's total and whether a product lost bits. -/
def setTotal (ps : List Fp) : Int × Bool :=
  ps.foldl (fun (acc : Int × Bool) p => match p with
    | .fin n m e => let (q, l) := trunc48 n m e; (acc.1 + q, acc.2 || l)
    | _ => acc) (0, false)

/-- Takes the elements of a list in the order a number names. -/
def permBy {α : Type} : Nat → Nat → List α → List α
  | 0, _, xs => xs
  | f + 1, n, xs => match xs.drop (n % xs.length) with
    | x :: rest => x :: permBy f (n / xs.length) (xs.take (n % xs.length) ++ rest)
    | [] => xs

/-- Adds the totals of an element's sets: any order where a sum can saturate (the free number `r` picks it), else their
exact sum. -/
def addTotals (d : Int) (ts : List Int) (r : Nat) : Int × Bool :=
  let up := ts.foldl (fun a t => a + max t 0) d
  let dn := ts.foldl (fun a t => a + min t 0) d
  if up ≤ deepMax && deepMin ≤ dn then (ts.foldl (· + ·) d, false)
  else (permBy ts.length r ts).foldl (fun (a : Int × Bool) t => let (s, o) := satAdd a.1 t; (s, a.2 || o)) (d, false)

/-- Lands the sets of one element: the element and its tile flags. -/
def landSets (x : Deep) (sets : List (List Fp)) (r : Nat) : Deep × Nat :=
  let cls := sets.foldl (fun c ps => ps.foldl landCls c) x.cls
  let ts := sets.map setTotal
  let inex := ts.any fun t => t.2
  if x.cls ≠ .fin then ({ x with cls := cls }, 0)
  else
    let (d, ov) := addTotals x.d (ts.map Prod.fst) r
    (⟨d, cls⟩, (if inex then 1 else 0) + (if ov then 2 else 0))

/-- Adds a peer's element (R255): its D and class in place of a product. -/
def landDeep (x y : Deep) : Deep × Nat :=
  let p := match y.cls with
    | .fin => Fp.fin false 0 0
    | _ => y.fp
  let cls := landCls x.cls p
  if x.cls ≠ .fin || y.cls ≠ .fin then ({ x with cls := cls }, 0)
  else let (d, o) := satAdd x.d y.d; (⟨d, cls⟩, if o then 2 else 0)

/-! ### Operand blocks -/

/-- The classes of element formats (R237). -/
inductive ECls where
  | c8 | c16 | c4
  deriving DecidableEq, Repr

def Elem.cls : Elem → Option ECls
  | .int 8 _ | .b8 _ => some .c8
  | .int _ _ => some .c4
  | .fp16 | .bf16 => some .c16
  | .fp32 => none
def ECls.count : ECls → Nat
  | .c8 => 64
  | .c16 => 32
  | .c4 => 128

/-- A block or unit as an operand: where it stands, its bytes, its tag in force, and whether it is poisoned (R92, R240). -/
structure OBlk where
  at_ : Nat
  bs  : List Byte
  tag : Nat
  psn : Bool

/-- The tag in force: the stored tag, or OVR; a poisoned block stays poisoned (R240). -/
def tagFor (stored ovr : Nat) : Nat × Bool :=
  if stored % 256 = 255 then (stored, true)
  else let t := if ovr = 0 then stored else ovr
    (t, t % 256 = 255)

/-- A block's class, or none for a format the matrix unit does not take. -/
def OBlk.cls (b : OBlk) : Option ECls := (elemOf (b.tag / 256)).bind Elem.cls

/-- The class of an operand's unpoisoned blocks: the first bad block's address, or the class if any. -/
def classOf (bs : List OBlk) : Except Nat (Option ECls) :=
  bs.foldl (fun acc b => match acc with
    | .error a => .error a
    | .ok c => if b.psn then .ok c else match b.cls, c with
      | none, _ => .error b.at_
      | some k, none => .ok (some k)
      | some k, some j => if k = j then .ok c else .error b.at_) (.ok none)

/-- The element values of a block, `n` of them, NaN for a poisoned one; scale apart. -/
def OBlk.vals (b : OBlk) (n : Nat) : List Fp :=
  if b.psn then List.replicate n (.nan false)
  else match elemOf (b.tag / 256) with
    | some f => (upto n).map fun i => f.dec (elemAt f b.bs i)
    | none => []
def OBlk.scale (b : OBlk) : Int := (b.tag % 256 : Nat) - 127

/-! ### Ordered-difference records -/

/-- Reads the 6-bit indices, 3-bit codes and escapes of a record's 96 bytes (Table 9.7), and checks it (R245). -/
def odfCodes : List Nat → List Nat → Int → List Int × Bool
  | [], _, q => ([q], true)
  | 7 :: cs, e :: es, q => let (r, ok) := odfCodes cs es (q + e); (q :: r, ok)
  | 7 :: _, [], q => ([q], false)
  | c :: cs, es, q => let (r, ok) := odfCodes cs es (q + c); (q :: r, ok)
def odfOf (pos : Nat) (bs : List Byte) (scale : Nat) : Option Odf :=
  let pw := leNat (bs.take 48)
  let perm := (upto 64).map fun p => pw / 2 ^ (6 * p) % 64
  let base := (nth 0 bs 48).toInt
  let nesc := (nth 0 bs 49).toNat
  let dw := leNat ((bs.drop 50).take 24)
  let cs := (upto 63).map fun i => dw / 2 ^ (3 * i) % 8
  let es := (((bs.drop 74).take 22).take nesc).map BitVec.toNat
  let (q, fed) := odfCodes cs es base
  let once := (upto 64).all fun i => perm.contains i
  if once && (cs.filter fun c => c = 7).length = nesc && nesc ≤ 22 && dw / 2 ^ 189 = 0 && fed
      && q.all (fun x => -128 ≤ x && x ≤ 127) then
    some ⟨pos, perm, q, scale, false⟩
  else none

/-- The weight of index `i` (R246). -/
def Odf.weight (r : Odf) (i : Nat) : Fp :=
  match (r.perm.zip r.q).find? fun p => p.1 = i with
  | some (_, q) => .ofInt q
  | none => .ofInt 0

/-! ### Draining a block (R98, R251) -/

/-- Converts the elements of a block at scale byte `e`: the bytes, the tag and the flags. `adr i` is element i's address. -/
def drainBlock (f : Elem) (fmt : Nat) (rm : RM) (seed : DWord) (task : Nat) (adr : Nat → Nat) (e : Nat) (xs : List Deep) :
    List Byte × Tag × Nat :=
  let cv := ((upto xs.length).zip xs).map fun (i, x) =>
    let v := x.fp.scale (-((e : Int) - 127))
    let r := if rm = .sr then srDraw seed task (BitVec.ofNat 64 (adr i)) else 0
    match f.isInt, x.cls with
    | true, .nan => (0, (f.conv rm r v).2)
    | _, _ => f.conv rm r v
  let bad := f.isInt && xs.any fun x => x.cls ≠ .fin
  (packElems f (cv.map Prod.fst), BitVec.ofNat 16 (fmt * 256 + if bad then 255 else e), cv.foldl (fun a c => a ||| c.2) 0)

/-- The largest magnitude of a list of elements in FP32, rounded up (R253); none if every element is NaN. -/
def foldMax (xs : List Deep) : Option Word :=
  let ys := (xs.filter fun x => x.cls ≠ .nan).map fun x => x.fp.abs
  match ys with
  | [] => none
  | y :: ys =>
    let m := ys.foldl (fun a b => if 0 < b.cmp a then b else a) y
    some (enc32 (roundTo fmt32 .ru 0 m).1)

end Sys2Proof.Machine
end

