-- ==== Sys2Proof/Machine/Cleanup.lean ====
section
/-! DEFINITION. What a discard or a failure of a task does to the engines it used, and what its commit waits for (R182, R217,
R233, R258, R282, R316). -/

namespace Sys2Proof.Machine

/-- The timeline of a matrix unit: every number below its first queued command (R234). -/
def Mxu.settleDone (x : Mxu) : Mxu :=
  { x with done := match x.queue with
      | c :: _ => c.num - 1
      | [] => x.asn }

/-- Cancels a task's commands on one matrix unit (R233). -/
def Mxu.cancel (x : Mxu) (k : Nat) : Mxu :=
  let mine (c : MxCmd) : Bool := c.who.task = k && c.kind ≠ .row
  if x.queue.any mine then
    let headMine := match x.queue with
      | c :: _ => mine c
      | [] => false
    { x with queue := x.queue.filter fun c => !mine c, send := if headMine then none else x.send,
             held := !headMine && x.held }.settleDone
  else x
/-- Drops a fault record of a task that has ended (log entry 22; R316). -/
def Mxu.forget (x : Mxu) (k : Nat) : Mxu :=
  { x with fault := match x.fault with
      | some f => if f.task = k then none else some f
      | none => none }

/-- The presence counts an operation still holds fall (R182). -/
def State.dropPresence (s : State) (core w : Nat) (rows : List Nat) : State :=
  rows.foldl (fun s b => s.addPres core w b false) s

/-- Cancels an operation: it stops at its next block boundary (R285). -/
def BOp.cancelled (o : BOp) : BOp :=
  let p := { o.prog with state := .cancelled, rows := [], blocks := [], fol := none, fold := none, status := 1 }
  { o with prog := { p with comp := true, held := false } }

/-- Cancels operations of a queue that satisfy `p`. -/
def State.cancelOps (s : State) (key : Nat) (q : BQueue) (p : BOp → Bool) : State :=
  let sel (o : BOp) : Bool := p o && o.prog.state ≠ .cancelled
  if q.ops.any sel then
    let s := (q.ops.filter sel).foldl (fun s o => s.dropPresence o.core o.who.world o.prog.rows) s
    { s with queues := mset s.queues key { q with ops := q.ops.map fun o => if sel o then o.cancelled else o, lbuf := [] } }
  else s

/-- Whether a task issued into a queue (R217). -/
def State.issuedTo (s : State) (k key : Nat) : Bool := (mget? s.tasks k).any fun t => t.bqs.contains key

/-- A discard or a failure cancels everything the task's engines have not done yet, and empties the line buffers of its queues
(R274). -/
def State.cancelEngines (s : State) (k : Nat) : State :=
  let drop (f : Option FaultRec) : Option FaultRec := match f with
    | some r => if r.task = k then none else some r
    | none => none
  let s := { s with mxus := mmap (fun _ x => (x.cancel k).forget k) s.mxus }
  let s := mfold (fun s key q => s.cancelOps key q fun o => o.who.task = k) s s.queues
  let gathers (r : ARun) : List Nat := if r.who.task = k then r.gath.map fun g => g.x / 64 else []
  let s := mfold (fun s core a => a.runs.foldl (fun s r => s.dropPresence core r.who.world (gathers r)) s) s s.asqs
  let stop (r : ARun) : ARun := if r.who.task = k then { r with cancel := true, gath := [] } else r
  { s with queues := mmap (fun key q => { q with fault := drop q.fault, lbuf := if s.issuedTo k key then [] else q.lbuf }) s.queues,
           asqs := mmap (fun _ a => { a with fault := drop a.fault, runs := a.runs.map stop }) s.asqs }

/-- Whether copies of a task into scratchpad, of its block transfers or of its runs, have not landed or been cancelled (R182). -/
def State.copying (s : State) (k : Nat) : Bool :=
  (s.queues.any fun q => q.2.ops.any fun o => o.who.task = k && !o.prog.rows.isEmpty) ||
  s.asqs.any fun a => a.2.runs.any fun r => r.who.task = k && !r.gath.isEmpty

/-- Releases every matrix unit whose claimant has ended. -/
def State.unclaimAll (s : State) : State := (s.mxus.map Prod.fst).foldl (fun s i => s.unclaimMx i) s

/-- Whether an engine operation of the task to world memory is outstanding (R217, step 3). -/
def State.engineBusy (s : State) (k : Nat) : Bool :=
  many (fun _ (x : Mxu) => x.queue.any fun c => c.who.task = k && (match c.fold with
    | .mem _ _ => true
    | _ => false)) s.mxus ||
  many (fun _ (q : BQueue) => q.ops.any fun o => o.who.task = k && (o.dst.space ≠ 1 || bitAt (nth 0 o.pk 0).toNat 22)) s.queues

/-- A valid fault record that holds the task's commit (R217, R258): that of a matrix unit it claims, of a local queue it issued
into, of a run it started; cause and address. -/
def State.engineFault (s : State) (k : Nat) : Option (Cause × DWord) :=
  let m := s.mxus.filterMap fun p => if p.2.claim = some k then p.2.fault else none
  let b := s.queues.filterMap fun p => if s.issuedTo k p.1 then p.2.fault else none
  let a := (s.asqs.filterMap fun p => p.2.fault).filter fun f => f.task = k
  ((m ++ b ++ a).map fun f => (f.cause, f.addr)).head?

/-- Clears the records that held a commit (R258). -/
def State.clearEngineFault (s : State) (k : Nat) : State :=
  let drop (f : Option FaultRec) : Option FaultRec := match f with
    | some r => if r.task = k then none else some r
    | none => none
  { s with mxus := mmap (fun _ x => if x.claim = some k then { x with fault := none } else x) s.mxus,
           queues := mmap (fun key q => if s.issuedTo k key then { q with fault := none } else q) s.queues,
           asqs := mmap (fun _ a => { a with fault := drop a.fault }) s.asqs }

end Sys2Proof.Machine
end

