-- ==== Sys2Proof/Machine/Places.lean ====
section
/-! DEFINITION. Strong accesses at their executing places with their copies of lines (R31 to R34, R188), the atomic operations
(Table 7.8), releases and acquires with the views they carry between threads of a task (R23, R32, R36), and accesses that are
issued and performed later (R20, R34 to R37). -/

namespace Sys2Proof.Machine

/-- The number an n-bit field stands for in two's complement. -/
def sx (n x : Nat) : Int := if 2 ^ (n - 1) ≤ x then (x : Int) - 2 ^ n else x

/-! ### Executing places -/

/-- Whether the members of a thread's group stand in more than one core. -/
def State.groupSpans (s : State) (p : Place) (t : Thread) : Bool :=
  t.grp ≠ 0 && s.allThreads.any fun (r, x) => x.isMember t.grp && coreIx r.place ≠ coreIx p

/-- Where a strong access at a scope executes (Table 2.2). -/
def State.strongAt (s : State) (p : Place) (t : Thread) (scope : Nat) : SPlace :=
  match scope with
  | 0 | 2 => .copy (.core (coreIx p))
  | 1 => if s.groupSpans p t then .copy (.cluster (clusterOf p)) else .copy (.core (coreIx p))
  | 3 => .copy (.cluster (clusterOf p))
  | 5 => .fabric
  | _ => .home

def State.copy? (s : State) (c : CopyAt) (line : Nat) : Option Copy := s.copies.find? fun x => x.at_ = c ∧ x.line = line
def State.dropCopy (s : State) (c : CopyAt) (line : Nat) : State :=
  { s with copies := s.copies.filter fun x => !(x.at_ = c && x.line = line) }
def State.putCopy (s : State) (x : Copy) : State := { (s.dropCopy x.at_ x.line) with copies := x :: (s.dropCopy x.at_ x.line).copies }

/-- Where the value of an executing place stands: of device and fabric scope, at the home. -/
def SPlace.store : SPlace → SPlace
  | .fabric => .home
  | x => x

/-- What releases wrote in a line goes with its copy to the next place (R32, R33). -/
def State.moveRels (s : State) (line : Nat) (from_ dest : SPlace) : State :=
  if s.relvs.isEmpty then s
  else { s with relvs := (s.relvs.filter fun r => !(r.dpa / 64 = line && r.at_.store = dest)).map fun r =>
    if r.dpa / 64 = line && r.at_ = from_ then { r with at_ := dest } else r }

/-- A copy filled from another place holds what releases wrote in the line there too (R32). -/
def State.fillRels (s : State) (line : Nat) (from_ dest : SPlace) : State :=
  if s.relvs.isEmpty then s
  else { s with relvs := (s.relvs.filter fun r => !(r.dpa / 64 = line && r.at_ = dest)) ++
    (s.relvs.filter fun r => r.dpa / 64 = line && r.at_.store = from_).map fun r => { r with at_ := dest } }

/-- How many lines a place holds (Table 7.4): the cache-mode banks of the world, or the 64 lines of the atomic unit where it has
none; 8 MiB of a cluster cache. -/
def State.copyRoom (s : State) (c : CopyAt) (w : Nat) : Nat :=
  match c with
  | .core k => let n := ((s.core k).banksOf w .cache).length; if n = 0 then 64 else 1024 * n
  | .cluster _ => 131072

/-- A write of a line at this device's home slice: a line of leased memory reaches the lender with a fabric release (R31, R34). -/
def State.sliceWrite (s : State) (l : Loc) (bs : List Byte) : State :=
  if s.leased (l.dpa / 64) then
    let old := s.holdBack (l.dpa / 64)
    { (s.homeWrite l bs) with unpushed := old.unpushed, remotes := old.remotes }
  else s.homeWrite l bs

/-- A line's copy leaves a cluster cache for its home: the whole line's 64 bytes, never its tag (R33). -/
def State.pushCluster (s : State) (clu line : Nat) : State :=
  match s.copy? (.cluster clu) line with
  | none => s
  | some x =>
    let s := s.dropCopy (.cluster clu) line
    if x.dirty then
      (s.sliceWrite { dpa := 64 * x.line, wva := x.wva, world := x.world, sc := false } x.data).moveRels line (.copy (.cluster clu)) .home
    else s

/-- The oldest of the lines a place holds, where one more would not fit: a clean one, else a strong copy (R188). A core's L1 is the world's
own, a cluster cache is shared. -/
def State.crowded (s : State) (c : CopyAt) (w line : Nat) : Option (Sum Clean Copy) :=
  let own (w' : Nat) : Bool := match c with
    | .core _ => w' = w
    | .cluster _ => true
  let xs := s.copies.filter fun y => y.at_ = c && own y.world && y.line ≠ line
  let ys := s.clean.filter fun y => y.at_ = c && own y.world
  if xs.length + ys.length < s.copyRoom c w then none
  else match ys.getLast?, xs.getLast? with
    | some y, _ => some (.inl y)
    | none, some x => some (.inr x)
    | none, none => none

/-- A cluster cache makes room for a line. -/
def State.clusterRoom (s : State) (clu w line : Nat) : State :=
  match s.crowded (.cluster clu) w line with
  | none => s
  | some (.inl y) => { s with clean := s.clean.erase y }
  | some (.inr x) => s.pushCluster clu x.line

/-- A line's copy leaves a core for its cluster cache, whole when dirty (R33, R34). -/
def State.pushCore (s : State) (core line : Nat) : State :=
  match s.copy? (.core core) line with
  | none => s
  | some x =>
    let s := s.dropCopy (.core core) line
    if x.dirty then ((s.clusterRoom (core / 4) x.world line).putCopy { x with at_ := .cluster (core / 4) }).moveRels line (.copy (.core core)) (.copy (.cluster (core / 4)))
    else s

/-- A core's L1 makes room for a line. -/
def State.coreRoom (s : State) (core w line : Nat) : State :=
  match s.crowded (.core core) w line with
  | none => s
  | some (.inl y) => { s with clean := s.clean.erase y }
  | some (.inr x) => s.pushCore core x.line

/-- A line that this module has written and not pushed goes to its home module (R30, R34). -/
def State.pushSlice (s : State) (line : Nat) : State :=
  if (mget? s.unpushed line).isNone then s
  else if s.leased line then s.sendLine line else { s with unpushed := mdel s.unpushed line }
/-- Whether a lender has not acknowledged every line sent to it (R45). -/
def State.awaitsLender (s : State) : Bool := s.remotes.any fun r => r.queue = lseKey

/-- A wider access of a thread first writes back the narrower copies on its own path, so that it sees and follows the
thread's own stores (R20). A line of leased memory reaches its lender; of a pool line, other modules keep seeing what no release has
pushed (R30). -/
def State.widen (s : State) (p : Place) (at_ : SPlace) (line : Nat) : State :=
  match at_ with
  | .copy (.core _) => s
  | .copy (.cluster _) => s.pushCore (coreIx p) line
  | .home => (s.pushCore (coreIx p) line).pushCluster (clusterOf p) line
  | .fabric =>
    let s := (s.pushCore (coreIx p) line).pushCluster (clusterOf p) line
    if s.leased line then s.pushSlice line else s

/-- A line as a place sees it: its copy, or, for a core, the cluster's, or the home. -/
def State.lineAt (s : State) (c : CopyAt) (l : Loc) : List Byte :=
  let home (_ : Unit) := s.readNow { l with dpa := l.dpa / 64 * 64, wva := l.wva / 64 * 64 } 64
  match s.copy? c (l.dpa / 64) with
  | some x => x.data
  | none => match c with
    | .core k => match s.copy? (.cluster (k / 4)) (l.dpa / 64) with
      | some x => x.data
      | none => home ()
    | .cluster _ => home ()

/-- Where a place that holds no copy of a line takes it from. -/
def State.fillFrom (s : State) (c : CopyAt) (line : Nat) : SPlace :=
  match c with
  | .core k => if (s.copy? (.cluster (k / 4)) line).isSome then .copy (.cluster (k / 4)) else .home
  | .cluster _ => .home

/-- A place makes room for a line (R188). -/
def State.makeRoom (s : State) (c : CopyAt) (w line : Nat) : State :=
  match c with
  | .core k => s.coreRoom k w line
  | .cluster k => s.clusterRoom k w line

/-- A copy at its place: where the place is full, its oldest line leaves (R188). -/
def State.fillCopy (s : State) (x : Copy) : State := (s.makeRoom x.at_ x.world x.line).putCopy x

/-- A plain load with snapshot `S` fills a place with the committed line, unless it reads an older value (R25, R188). -/
def State.cacheAt (s : State) (c : CopyAt) (l : Loc) (S : Nat) : State :=
  let blk := l.dpa / 64
  let lo := if s.jrnl.any (fun e => e.addr / 64 = blk && e.ep = s.epoch + 1) || s.tjrnl.any (fun e => e.addr = blk && e.ep = s.epoch + 1) then s.epoch + 1
    else s.epoch
  if S < lo || s.clean.any (fun x => x.at_ = c && x.line = blk && x.world = l.world && x.hi.isNone) then s
  else let s := s.makeRoom c l.world blk; { s with clean := ⟨c, blk, l.world, lo, none⟩ :: s.clean }
/-- The same for L1, where the world has cache-mode banks, and the cluster cache. -/
def State.cacheFor (s : State) (p : Place) (l : Loc) (S : Nat) : State :=
  if 192 ≤ coreIx p then s
  else
    let s := s.cacheAt (.cluster (clusterOf p)) l S
    if ((s.core (coreIx p)).banksOf l.world .cache).isEmpty then s else s.cacheAt (.core (coreIx p)) l S

/-- Whether a plain load with snapshot `S` hits the line in L1 or the cluster cache (R188). -/
def State.cached (s : State) (p : Place) (l : Loc) (S : Nat) : Bool :=
  s.clean.any fun c => c.line = l.dpa / 64 && c.world = l.world && (c.at_ = .core (coreIx p) || c.at_ = .cluster (clusterOf p))
    && c.lo ≤ S && c.hi.all (S < ·)

/-- A strong read of `n` aligned bytes at its executing place (R21, R33). -/
def State.strongRead (s : State) (p : Place) (at_ : SPlace) (l : Loc) (n : Nat) : List Byte × State :=
  let s := s.widen p at_ (l.dpa / 64)
  match at_ with
  | .home | .fabric => (s.readNow l n, s.sdcFill l)
  | .copy c =>
    let data := s.lineAt c l
    let s := match s.copy? c (l.dpa / 64) with
      | some _ => s
      | none => (s.fillRels (l.dpa / 64) (s.fillFrom c (l.dpa / 64)) (.copy c)).fillCopy { at_ := c, line := l.dpa / 64, wva := l.wva / 64 * 64, data := data, dirty := false, world := l.world }
    ((data.drop (l.dpa % 64)).take n, s)

/-- What other modules see of a line that this module has not pushed takes a fabric-scope store too (R30, R31). -/
def State.patchSeen (s : State) (l : Loc) (bs : List Byte) : State :=
  match mget? s.unpushed (l.dpa / 64) with
  | none => s
  | some (old, t) => { s with unpushed := mset s.unpushed (l.dpa / 64) (patch old (l.dpa % 64) bs, t) }

/-- A strong write at its executing place; writes wake watches (R168). -/
def State.strongWrite (s : State) (p : Place) (at_ : SPlace) (l : Loc) (bs : List Byte) : State :=
  let s := s.widen p at_ (l.dpa / 64)
  match at_ with
  | .home => s.sliceWrite l bs
  | .fabric => (s.homeWrite l bs).patchSeen l bs
  | .copy c =>
    let data := patch (s.lineAt c l) (l.dpa % 64) bs
    let s := match s.copy? c (l.dpa / 64) with
      | some _ => s
      | none => s.fillRels (l.dpa / 64) (s.fillFrom c (l.dpa / 64)) (.copy c)
    let s := s.fillCopy { at_ := c, line := l.dpa / 64, wva := l.wva / 64 * 64, data := data, dirty := true, world := l.world }
    if s.watched (l.dpa / 64) then s.touched (l.dpa / 64) else s

/-- The dirty lines of a place. -/
def State.dirtyAt (s : State) (c : CopyAt) : List Nat := (s.copies.filter fun x => x.at_ = c && x.dirty).map Copy.line

/-- The push of a release (R34): to the cluster cache, on to the home slice, or on to the home modules, which then hold every line
that commits and strong stores of this device dirtied (R30). -/
def State.release (s : State) (p : Place) (at_ : SPlace) : State :=
  let core (s : State) : State := (s.dirtyAt (.core (coreIx p))).foldl (fun s x => s.pushCore (coreIx p) x) s
  let home (s : State) : State := (s.dirtyAt (.cluster (clusterOf p))).foldl (fun s x => s.pushCluster (clusterOf p) x) s
  match at_ with
  | .copy (.core _) => s
  | .copy (.cluster _) => core s
  | .home => home (core s)
  | .fabric => let s := home (core s); (s.unpushed.map Prod.fst).foldl State.pushSlice s

/-- An acquire above core scope: clean copies, which may be evicted at any time (R188), are not used any more. -/
def State.acquire (s : State) (at_ : SPlace) : State :=
  match at_ with
  | .copy (.core _) => s
  | _ => { s with copies := s.copies.filter fun x => x.dirty }

/-! ### Atomic operations (Table 7.8) -/

/-- The operation of an atomic: current, operand and compare values of `n` bits. -/
abbrev AOp := Nat → Nat → Nat → Nat → Nat

def aAdd : AOp := fun n m v _ => (m + v) % 2 ^ n
def aMin : AOp := fun n m v _ => if sx n v < sx n m then v else m
def aMax : AOp := fun n m v _ => if sx n m < sx n v then v else m
def aMinu : AOp := fun _ m v _ => Nat.min m v
def aMaxu : AOp := fun _ m v _ => Nat.max m v
def aAnd : AOp := fun _ m v _ => m &&& v
def aOr : AOp := fun _ m v _ => m ||| v
def aXor : AOp := fun _ m v _ => m ^^^ v
def aXchg : AOp := fun _ _ v _ => v
def aCas : AOp := fun _ m v c => if m = c then v else m
def aFadd : AOp := fun _ m v _ =>
  (enc32 (roundTo fmt32 .rne 0 (addFp false (dec32 (BitVec.ofNat 32 m)) (dec32 (BitVec.ofNat 32 v))).1).1).toNat
def aFmax : AOp := fun _ m v _ =>
  let x := dec32 (BitVec.ofNat 32 m)
  let y := dec32 (BitVec.ofNat 32 v)
  if y.isNan then m else if x.isNan then v else if x.ltSigned y then v else m
def aInc : AOp := fun _ m v _ => if v ≤ m then 0 else m + 1
def aDec : AOp := fun _ m v _ => if m = 0 || v < m then v else m - 1

/-- The operation of an instruction. -/
def AtomOp.fn : AtomOp → AOp
  | .add => aAdd
  | .min => aMin
  | .max => aMax
  | .minu => aMinu
  | .maxu => aMaxu
  | .and => aAnd
  | .or => aOr
  | .xor => aXor
  | .xchg => aXchg
  | .cas => aCas
  | .fadd => aFadd
  | .fmax => aFmax
  | .inc => aInc
  | .dec => aDec

/-- A read-modify-write of `n` bytes at the home by an engine or the task unit. -/
def State.homeRmw (s : State) (l : Loc) (n : Nat) (f : Nat → Nat) : State :=
  s.homeWrite l (natLe n (f (leNat (s.readNow l n))))

/-! ### What releases and acquires order -/

/-- Whether agent `b` lies in the scope instance of a code relative to `a` (Table 2.2). -/
def inScope (scope : Nat) (a : Place) (ga : Word) (b : Place) (gb : Word) : Bool :=
  match scope with
  | 0 => a = b
  | 1 => ga ≠ 0 && ga = gb
  | 2 => coreIx a = coreIx b
  | 3 => clusterOf a = clusterOf b
  | _ => true

/-- Whether a release and an acquire at a scope by an agent synchronise, once the acquire has read what the release wrote (R32). -/
def RelRec.syncs (r : RelRec) (scope : Nat) (p : Place) (g : Word) : Bool :=
  inScope r.scope r.who r.grp p g && inScope scope p g r.who r.grp

/-- Whether a record stands in some bytes of a place. -/
def RelRec.within (r : RelRec) (at_ : SPlace) (l : Loc) (n : Nat) : Bool :=
  r.at_.store = at_.store && r.dpa < l.dpa + n && l.dpa < r.dpa + r.n

/-- A thread's key and view as the reader of a plain load (R23). -/
def State.reader (s : State) (r : TRef) : Reader :=
  match s.bench? r.place, s.thread? r.place r.lane with
  | some b, some t => ⟨threadKey (s.runOf b.task) r.place t.tid, t.view⟩
  | _, _ => ⟨0, []⟩

/-- A plain store of a thread (R23): the next of its own. -/
def State.plainStore (s : State) (r : TRef) (k : Nat) (l : Loc) (bs : List Byte) : State :=
  let x := s.reader r
  let n := mget 0 x.view x.key + 1
  (s.plainWrite k x.key n l bs).updThread r.place r.lane fun t => { t with view := mset t.view x.key n }
def State.plainTagStore (s : State) (r : TRef) (k : Nat) (l : Loc) (t : Tag) : State :=
  let x := s.reader r
  let n := mget 0 x.view x.key + 1
  (s.plainTagWrite k x.key n l t).updThread r.place r.lane fun t => { t with view := mset t.view x.key n }

/-- A strong load has read a location: an acquire takes the views of the releases it synchronises with; a relaxed load keeps them
for a later FENCE.ACQ (R32, R36). -/
def State.noteRead (s : State) (r : TRef) (at_ : SPlace) (scope : Nat) (l : Loc) (n : Nat) (acq : Bool) : State :=
  match s.relvs.filter fun x => x.within at_ l n with
  | [] => s
  | xs => s.updThread r.place r.lane fun t =>
    if acq then { t with view := (xs.filter fun x => x.syncs scope r.place t.grp).foldl (fun v x => v.join x.view) t.view }
    else { t with facq := xs ++ t.facq }

/-- What a store of a thread releases (R32, R36): its own view where it is a release, else that of its last FENCE.REL. -/
def Thread.relRec (t : Thread) (p : Place) (at_ : SPlace) (scope : Nat) (l : Loc) (n : Nat) (rel : Bool) : Option RelRec :=
  if rel then some { dpa := l.dpa, n := n, at_ := at_, scope := scope, who := p, grp := t.grp, view := t.view, owed := [] }
  else t.frel.map fun x => { x with dpa := l.dpa, n := n, at_ := at_ }

/-- A strong store has written a location: what an earlier release wrote there is gone, but for a read-modify-write (R32). -/
def State.noteWrite (s : State) (at_ : SPlace) (l : Loc) (n : Nat) (keep : Bool) (x : Option RelRec) : State :=
  if s.relvs.isEmpty && x.isNone then s
  else { s with relvs := x.toList ++ if keep then s.relvs else s.relvs.filter fun x => !x.within at_ l n }

/-- How `relvs` names bytes of scratchpad, beyond every DPA. -/
def spadName (cix x : Nat) : Loc := ⟨2 ^ 60 + cix * 2 ^ 32 + x, 0, 0, false⟩

/-! ### Accesses performed later -/

/-- Whether a late access stores, or reads. -/
def Late.stores (x : Late) : Bool :=
  match x.op with
  | .store _ | .rmw .. => true
  | .load _ | .fence => false
def Late.loads (x : Late) : Bool :=
  match x.op with
  | .load _ | .rmw .. => true
  | .store _ | .fence => false

/-- Whether two accesses touch a common byte of one path; under different keys any two of a scratchpad may. -/
def Late.overlaps (a b : Late) : Bool :=
  match a.loc, b.loc with
  | .world l, .world m => l.dpa < m.dpa + b.n && m.dpa < l.dpa + a.n
  | .spad c w k x, .spad c' w' k' x' => c = c' && w = w' && (k ≠ k' || (x < x' + b.n && x' < x + a.n))
  | _, _ => false

/-- How wide an executing place is (Table 2.2); scratchpad accesses execute at the core. -/
def SPlace.width : SPlace → Nat
  | .copy (.core _) => 0
  | .copy (.cluster _) => 1
  | .home => 2
  | .fabric => 3
def Late.width (x : Late) : Nat :=
  match x.loc with
  | .spad .. => 0
  | _ => x.at_.width

/-- Whether `a`, issued earlier, must be performed before `b`: accesses of one thread to a common byte (R20), everything before the push
of a FENCE.REL, and that push before every later store (R34, R36); before a release everything but what executes at a wider place: that
an acquire which synchronises has performed first (`RelRec.owed`), and to others the release is a relaxed store (R32, R37); lanes of one
instruction that touch a common byte, in their order (R181, R201). -/
def Late.holds (a b : Late) : Bool :=
  (a.who = b.who && (a.overlaps b || (b.rel && a.width ≤ b.width) || b.op = .fence || (a.op = .fence && b.stores))) || (a.ins = b.ins && a.overlaps b)

/-- The results that take the place of a late one: the words of its load. -/
def Late.results (x : Late) (d : Nat) (ws : List Word) : List Pend :=
  ((upto ws.length).zip ws).map fun (i, w) => match x.loc with
    | .spad .. => .vec (d + i) w
    | _ => .mem (d + i) w
def Pend.replace (id : Nat) (rs : List Pend) (r : Pend) : List Pend := if r = .late id then rs else [r]

/-- The words of a load that is performed late return to their registers. -/
def State.landLate (s : State) (x : Late) (d : Nat) (ws : List Word) : State :=
  s.updThread x.who.place x.who.lane fun t => { t with out := t.out.flatMap (Pend.replace x.id (x.results d ws)) }

/-- The words of some bytes of scratchpad written by a task. -/
def State.spadStores (s : State) (cix w : Nat) (key : Word) (x : Nat) (ws : List Word) (task : Nat) : State :=
  ((upto ws.length).zip ws).foldl (fun s (i, v) => s.spadStore cix w key (x + 4 * i) v task) s

/-- What a release leaves at its location, with the accesses it has not waited for (R34). -/
def State.owing (s : State) (x : Late) : Option RelRec :=
  x.rec_.map fun r => if x.rel then { r with owed := (s.lates.filter fun z => z.who = x.who && z.ins < x.ins).map Late.id } else r

/-- An access is performed. -/
def State.performOp (s : State) (x : Late) : State :=
  let p := x.who.place
  match x.loc, x.op with
  | _, .fence => s.release p x.at_
  | .world l, .load d =>
    let (bs, s) := s.strongRead p x.at_ l x.n
    (s.noteRead x.who x.at_ x.scope l x.n false).landLate x d (wordsOfBytes bs)
  | .world l, .store bs =>
    let s := if x.rel then s.release p x.at_ else s
    (s.strongWrite p x.at_ l bs).noteWrite x.at_ l x.n false (s.owing x)
  | .world l, .rmw f v c d =>
    let (old, s) := s.strongRead p x.at_ l x.n
    let s := s.noteRead x.who x.at_ x.scope l x.n false
    let s := (s.strongWrite p x.at_ l (natLe x.n (f.fn (8 * x.n) (leNat old) v c))).noteWrite x.at_ l x.n true (s.owing x)
    match d with
    | some d => s.landLate x d (wordsOfBytes old)
    | none => s
  | .spad c w key a, .load d =>
    let (ws, s) := s.spadLoads c w key a x.task (x.n / 4)
    s.landLate x d ws
  | .spad c w key a, .store bs => (s.spadStores c w key a (wordsOfBytes bs) x.task).noteWrite .home (spadName c a) x.n false none
  | .spad c w key a, .rmw f v cv d =>
    let (ws, s) := s.spadLoads c w key a x.task (x.n / 4)
    let s := s.noteRead x.who .home x.scope (spadName c a) x.n false
    let s := (s.spadStores c w key a (wordsOfBytes (natLe x.n (f.fn (8 * x.n) (leNat (bytesOfWords ws)) v cv))) x.task).noteWrite
      .home (spadName c a) x.n true (s.owing x)
    match d with
    | some d => s.landLate x d ws
    | none => s
  | .fence, _ => s.release p x.at_

/-- The late accesses that `p` selects, with those they wait for, oldest first. -/
def latesFor (p : Late → Bool) (xs : List Late) : List Late :=
  xs.foldr (fun a acc => if p a || acc.any a.holds then a :: acc else acc) []

/-- Performs the accesses that `p` selects, and before them those they wait for. -/
def State.performIf (s : State) (p : Late → Bool) : State :=
  match latesFor p s.lates with
  | [] => s
  | xs => xs.foldl State.performOp { s with lates := s.lates.filter fun x => !xs.contains x }

/-- Performs what releases had not waited for (R34). -/
def State.payOwed (s : State) (xs : List RelRec) : State := s.performIf fun z => xs.any fun x => x.owed.contains z.id

/-- A strong load has read a location (`noteRead`); an acquire then has the accesses that its releases had not waited for performed
(R32, R34). -/
def State.noteLoad (s : State) (r : TRef) (at_ : SPlace) (scope : Nat) (l : Loc) (n : Nat) (g : Word) (acq : Bool) : State :=
  let w := s.noteRead r at_ scope l n acq
  if acq then w.payOwed (s.relvs.filter fun x => x.within at_ l n && x.syncs scope r.place g) else w

/-- Performs every late access of a thread. -/
def State.performFor (s : State) (r : TRef) : State := s.performIf fun x => x.who = r

/-- Performs every late access to the scratchpad of a core. -/
def State.performSpad (s : State) (core : Nat) : State :=
  s.performIf fun x => match x.loc with
    | .spad c _ _ _ => c = core
    | _ => false

/-- A core's lines of some worlds are written back and invalidated. -/
def State.flushCore (s : State) (core : Nat) (ws : List Nat) : State :=
  ((s.copies.filter fun x => x.at_ = .core core && ws.contains x.world).map Copy.line).foldl (fun s l => s.pushCore core l) s

/-- The `k`-th late access is performed, unless an earlier one holds it. -/
def State.performAt (s : State) (k : Nat) : State :=
  match s.lates[k]? with
  | none => s
  | some x => if (s.lates.take k).any (·.holds x) then s else { s with lates := s.lates.eraseIdx k }.performOp x

/-- An access is issued and not performed yet: the registers it returns to are outstanding. -/
def State.defer (s : State) (x : Late) : State :=
  let x := { x with id := 64 * x.ins + x.who.lane }
  let s := { s with lates := s.lates ++ [x] }
  let waits : Bool := match x.op with
    | .load _ | .rmw _ _ _ (some _) => true
    | _ => false
  if waits then s.updThread x.who.place x.who.lane fun t => { t with out := t.out ++ [.late x.id] } else s

/-! ### Checks of load data and data errors -/

/-- Data errors of an access to a block (R330 to R332): `rd` for a read of the stored bytes that does not interpret them. A block
with a good copy elsewhere is refetched. -/
def State.dataError (s : State) (dpa : Nat) (rd : Bool) : Bool :=
  (s.bad.contains (dpa / 64) && !s.goodCopy (dpa / 64)) || s.retired.contains (dpa / 65536) || (rd && s.marked.contains (dpa / 64))

/-- The same for a plain load with snapshot `S`: a line cached for it is not read at its home (R188, R330). -/
def State.loadError (s : State) (p : Place) (l : Loc) (S : Nat) : Bool :=
  s.dataError l.dpa true && !(s.cached p l S && !s.retired.contains (l.dpa / 65536) && !s.marked.contains (l.dpa / 64))

/-- The block address a data error reports. -/
def blockVal (dpa : Nat) : DWord := BitVec.ofNat 64 (dpa / 64 * 64)

/-- A pending MAC check of load data of a confidential world (R47): one for a block, with whether the stored MAC matches. -/
def State.noteCheck (s : State) (k : Nat) (l : Loc) (r : Option TRef) : State :=
  let blk := l.dpa / 64
  if !s.confW l.world || s.checks.any (fun c => c.task = k && c.blk = blk) then s
  else
    { s with checks := s.checks ++ [⟨blk, k, l.world, r, !s.macBad l⟩] }

/-- Whether a load check of the task is still pending, so that effects outside its version wait (R47). -/
def State.unchecked (s : State) (k : Nat) : Bool := s.checks.any fun c => c.task = k

/-- The checks noted since `s0` end at once, before an effect that depends on them leaves the version (R47): the block of one
that fails, or the state without them. -/
def State.endChecks (s0 s : State) : Except DWord State :=
  match s.checks.find? fun c => !c.good && !s0.checks.contains c with
  | some c => .error (BitVec.ofNat 64 (64 * c.blk))
  | none => .ok { s with checks := s0.checks }
end Sys2Proof.Machine
end

