-- ==== Sys2Proof/Machine/Tasks.lean ====
section
/-! DEFINITION. Events to the Bureau (R382), and what ends a task or a world: discard (R112), precise stop (R114), failure
(R212), world stop (R374). -/

namespace Sys2Proof.Machine

def Cause.code : Cause → Nat
  | .illegal => 0x01 | .resfield => 0x02 | .priv => 0x03 | .profile => 0x04 | .hazard => 0x05 | .regrange => 0x06
  | .rsunder => 0x07 | .align => 0x08 | .page => 0x09 | .perm => 0x0A | .lease => 0x0B | .tag => 0x0C
  | .worldfence => 0x0D | .barovf => 0x0E | .grouplimit => 0x0F | .undeclared => 0x10 | .snaplost => 0x11
  | .integrity => 0x12 | .ue => 0x13 | .densefb => 0x14 | .kvabsent => 0x15 | .micro => 0x16 | .bpt => 0x17
  | .soft => 0x18 | .watchdog => 0x19

/-- Dispositions (R112). -/
inductive Disp where
  | h | d | s | w | e
  deriving DecidableEq, Repr

/-- The disposition column of Table 5.4. -/
def Cause.disp (c : Cause) (pinned : Bool) : Disp :=
  match c with
  | .page | .perm | .lease | .worldfence | .undeclared | .kvabsent | .watchdog => if pinned then .s else .d
  | .snaplost => .d
  | .integrity => .w
  | .ue => .e
  | _ => .h

/-- `tcause` (Table 5.3). -/
def tcauseWord (c : Cause) (sub : Nat) (pin : Bool) : Word :=
  BitVec.ofNat 32 (c.code + sub * 2 ^ 8 + if pin then 2 ^ 31 else 0)

/-- The reset values of the control block (Table 14.3). -/
def ctlReset (off : Nat) : DWord :=
  if off = 0x48 then 128 else if off = 0x58 then 1 else if off = 0x80 then 0x40000000 else 0
def State.ctlReg (s : State) (off : Nat) : DWord := (mget? s.ctl off).getD (ctlReset off)
def State.setCtl (s : State) (off : Nat) (x : DWord) : State :=
  { s with ctl := if x = ctlReset off then mdel s.ctl off else mset s.ctl off x }

/-- Word 6 of an event record: drawer, slot and core (Table 14.7). A steward gives its index as core 192 + k, an access
processor its index as drawer 8 + k (log entry 16). -/
def placeWord : Option Place → Nat
  | some (.drawer c d k) => d * 2 ^ 24 + k * 2 ^ 16 + c
  | some (.steward st k) => k * 2 ^ 16 + 192 + st
  | some (.ap c k) => (8 + k) * 2 ^ 24 + c
  | none => 0

/-- Puts a record in a steward's queue of 1024; a full queue drops it and counts the drop (R382). -/
def State.pushEvent (s : State) (st : Nat) (r : EvRec) : State :=
  let q := mget [] s.evq st
  if 1024 ≤ q.length then { s with dropped := s.dropped + 1 } else { s with evq := mset s.evq st (q ++ [r]) }

/-- Posts an event to the EVROUTE steward (R382, Table 14.7). -/
def State.post (s : State) (world sub kind task user w3 : Nat) (v : DWord) (p : Option Place) : State :=
  let ws := [BitVec.ofNat 32 (world * 2 ^ 16 + sub * 2 ^ 8 + kind), BitVec.ofNat 32 task, BitVec.ofNat 32 user,
    BitVec.ofNat 32 w3, loWord v, hiWord v, BitVec.ofNat 32 (placeWord p), BitVec.ofNat 32 s.mstime]
  s.pushEvent ((s.ctlReg 0x58).toNat % 16) ⟨ws⟩

/-- Posts the TASK event of a task with the cause and `tval` (R112). -/
def State.postTask (s : State) (k : Nat) (c : Cause) (sub : Nat) (v : DWord) (p : Option Place) : State :=
  match s.task? k with
  | some t => s.post t.world 0 1 k t.desc.user (tcauseWord c sub t.pinned).toNat v p
  | none => s

/-- Removes every bench of a task, saved ones included, with their wake records and their submissions not accepted yet. -/
def State.dropBenches (s : State) (k : Nat) : State :=
  let gone := (s.saved.filter fun b => b.task = k).map fun b => b.place
  let all := ((s.benches ++ s.saved).filter fun b => b.task = k).map fun b => b.place
  { s with subs := s.subs.filter fun x => !all.contains x.thread.place, benches := s.benches.filter fun b => b.task ≠ k, saved := s.saved.filter fun b => b.task ≠ k,
           wakes := s.wakes.filter fun w => !gone.contains w.bench }

/-- Releases a task's barrier slots, groups and thread-local areas (R217 step 7, R223, R387). -/
def State.releaseTask (s : State) (k : Nat) : State :=
  match s.task? k with
  | none => s
  | some t =>
    let s := (s.groups.filter fun g => g.task = k).foldl (fun s g => s.freeGroup (groupHandle g)) s
    let mine (x : BSlot) : Bool := match x.node with
      | .core c => t.coreSlots.any fun p => p.1 = c && p.2.contains x.slot
      | .cluster c => c = t.clu && t.cluSlots.contains x.slot
      | .device => false
    let s := { s with slots := s.slots.filter fun x => !mine x }
    s.updTask k fun t => { t with coreSlots := [], cluSlots := [], areas := [], cores := [] }

/-- Scratchpad the task wrote holds unspecified values after a discard (R28; log entry 4). -/
def State.scramble (s : State) (locs : List (Nat × Nat)) : State :=
  locs.foldl (fun s (c, loc) =>
    let (n, s) := s.draw
    s.updCore c fun x => { x with spad := mput 0 x.spad loc (BitVec.ofNat 32 n), fresh := mdel x.fresh loc,
                                  wr := mdel x.wr loc, landing := mdel x.landing loc }) s

/-- What every end without a commit does: strong accesses that were issued are performed, benches gone, version dropped, engine work
cancelled, resources back. -/
def State.abandon (s : State) (k : Nat) (st : TState) : State :=
  let s := s.performIf fun x => x.task = k
  let spw := match s.task? k with
    | some t => t.spw
    | none => []
  let s := ((s.dropBenches k).cancelEngines k).releaseTask k
  let s := s.scramble spw
  let s := { s with checks := s.checks.filter fun c => c.task ≠ k }
  let s := if st = .failed then { s with hub := { s.hub with failed := s.hub.failed + 1 } } else s
  (s.updTask k fun t => { t with state := st, ver := [], vtags := [], vloc := [], vout := [], spw := [], hist := [], commitHeld := false }).unclaimAll.prune

/-- Disposition D (R112): the version is discarded and every thread of the task stops. -/
def State.discardTask (s : State) (k : Nat) : State := s.abandon k .discarded

/-- TC_SNAPLOST: a discard without event or service, that re-runs in held-snapshot mode (R26, R219). -/
def State.snapLost (s : State) (k : Nat) : State :=
  match s.task? k with
  | none => s
  | some t => ((s.abandon k .ready).updTask k fun t => { t with held := true, snapLost := true }).updSdc fun c =>
      c.counter t.world fun x => { x with snlost := x.snlost + 1 }

/-- Tasks that depend on `k`, directly or through others (fuel: the number of tasks) (R212). -/
def State.dependents : Nat → State → List Nat → List Nat
  | 0, _, ks => ks
  | n + 1, s, ks =>
    let more := s.tasks.filterMap fun (i, t) =>
      if !ks.contains i && t.deps.any ks.contains && (t.state = .submitted || t.state = .ready) then some i else none
    if more.isEmpty then ks else dependents n s (ks ++ more)

def TState.pending : TState → Bool
  | .done | .failed => false
  | _ => true

/-- Fails one task and posts its event (R212, Table 14.7). -/
def State.failOne (s : State) (k : Nat) : State :=
  match s.task? k with
  | none => s
  | some t =>
    if !t.state.pending then s
    else (s.abandon k .failed).post t.world 0 9 k t.desc.user 0 0 none

/-- The Bureau fails a task and every pending task that depends on it (R212). -/
def State.failTask (s : State) (k : Nat) : State :=
  (State.dependents (s.tasks.length + 1) s [k]).foldl (fun s i => s.failOne i) s

/-- A world stops (R374): its benches, its pending tasks, and a WORLD_STOP event with the DPA. -/
def State.stopWorld (s : State) (w : Nat) (dpa : Nat) : State :=
  let s := { s with worlds := mset s.worlds w { s.world w with stopped := true } }
  let s := (s.tasks.filter fun p => p.2.world = w && p.2.state.pending).foldl (fun s p => s.abandon p.1 .failed) s
  let s := { s with benches := s.benches.filter fun b => b.world ≠ w, saved := s.saved.filter fun b => b.world ≠ w }
  s.post w 0 4 0 0 0 (BitVec.ofNat 64 dpa) none

/-- A device-level error (Table 12.4, R386): the module stops and reports it; only a reset ends this. -/
def State.deviceError (s : State) (dpa : Nat) : State :=
  let s := s.post 0 0 5 0 0 0 (BitVec.ofNat 64 dpa) none
  { s with hub := { s.hub with devErr := true, outbox := s.hub.outbox ++ [.deviceError dpa] } }

/-- The error counter block of the controller of a block (R319, R320, R368). -/
def errUnit (blk : Nat) : Option Nat :=
  let a := 64 * blk
  match dpaKind a with
  | .hbm => some (a / 512 % 12)
  | .pool => some (12 + (a - tib) / 256 % 16)
  | _ => none
/-- The error counter block of a core's SRAM; steward `k`'s local SRAM stands as core 192 + k (R368). -/
def sramUnit (core : Nat) : Nat := if 192 ≤ core then 972 + (core - 192) else 588 + core
/-- That of the place a copy stands at. -/
def copyUnit : CopyAt → Nat
  | .core c => sramUnit c
  | .cluster c => 540 + c
/-- Counts an error of a unit (R368): its DPA, or its offset in the unit's array. -/
def State.countUnit (s : State) (u off : Nat) (bad : Bool) : State :=
  let a : DWord := BitVec.ofNat 64 off
  { s with hub := { s.hub with errs := mupd ErrCnt.zero s.hub.errs u fun e =>
      if bad then { e with unc := e.unc + 1, lastu := a } else { e with corr := e.corr + 1, lastc := a } } }
def State.countError (s : State) (blk : Nat) (bad : Bool) : State :=
  match errUnit blk with
  | none => s
  | some u => s.countUnit u (64 * blk) bad

/-- A precise stop of a bench (R114): the faulting lanes are recorded, the task is STOPPED. -/
def State.stopBench (s : State) (p : Place) (lanes : List Nat) (why : Stop) : State :=
  let mask : BitVec 32 := lanes.foldl (fun m l => m ||| BitVec.ofNat 32 (2 ^ l)) 0
  let k := match s.bench? p with
    | some b => b.task
    | none => 0
  let s := s.updBench p fun b => { b with stopped := some why, rmask := b.rmask ||| mask }
  s.updTask k fun t => { t with state := .stopped }

/-- An engine's S fault (R258, R282, R316): the bench that issued the work stops, or another live bench of the task, a saved one at
last; a task with no live thread is STOPPED with its commit held (log entry 107). -/
def State.stopTask (s : State) (k : Nat) (p : Option Place) : State :=
  let live (b : Bench) : Bool := b.task = k && b.threads.any fun e => e.2.live
  match ((p.bind s.bench?).filter live).orElse (fun _ => s.benches.find? live), s.saved.any live with
  | some b, _ => s.stopBench b.place [] .fault
  | none, true =>
    { s with saved := updFirst live (fun b => { b with stopped := some .fault }) s.saved }.updTask k fun t => { t with state := .stopped }
  | none, false => s.updTask k fun t => { t with state := .stopped, commitHeld := true }

end Sys2Proof.Machine
end

