-- ==== Sys2Proof/Machine/Ops.lean ====
section
/-! DEFINITION. The named operations over registers and threads: results and their write-back (R56, R89, R110), CSRs
(Table 5.2), taking an exception and the return from one (R112 to R114, R170), and the issue of an instruction to the lanes of
a group (R58, R60, R61, R65 to R67, R71, R118). -/

namespace Sys2Proof.Machine

/-- What a meaning answers. -/
abbrev Out := Host.Outcome State Fault Refusal

/-! ### Registers and CSRs -/

/-- A vector register of a thread, by operand field (R64). -/
def Thread.v (t : Thread) (f : Nat) : Word := mget 0 t.vregs (t.wb + f)
/-- A uniform register as a thread of the bench names it (R64). -/
def Bench.u (b : Bench) (t : Thread) (f : Nat) : Word := mget 0 b.uregs (t.ws + f)
def Thread.p (t : Thread) (f : Nat) : Bool := t.preds.getLsbD f

/-- The rounding mode and FTZ of `fpc` (Table 4.5). -/
def fpcRm (x : Word) : Nat := bits x.toNat 14 12
def fpcFtz (x : Word) : Bool := bitAt x.toNat 15

/-- A CSR write by its field types (R83, R111, Table 5.2). Bits [2:0] of `rsbase` and `rslim`, which are ignored, read back as written (DESIGN
CHOICE, log entry 118). -/
def Thread.csrWrite (t : Thread) (n : Nat) (x : DWord) : Thread :=
  let w := loWord x
  match n with
  | 0x000 =>
    let rm := if bits w.toNat 14 12 < 5 then w &&& 0x7000#32 else t.fpc &&& 0x7000#32
    { t with fpc := (w &&& 0x807F#32) ||| rm }
  | 0x001 => { t with srseed := x }
  | 0x002 => { t with srseq := w }
  | 0x021 => { t with rsbase := x }
  | 0x023 => { t with rslim := x }
  | 0x031 => { t with tcause := w &&& 0x8000FFFF#32 }
  | 0x032 => { t with tval := x }
  | 0x033 => { t with tpc := x }
  | 0x034 => { t with tstat := w &&& 3#32 }
  | 0x035 => { t with repc := w &&& 0x7F#32 }
  | 0x036 => { t with gspan := w &&& 0x3F#32 }
  | 0x040 => { t with dbg := w &&& 1#32 }
  | _ => t

/-- One outstanding result becomes architectural (R56, R89, R110). -/
def Thread.land (t : Thread) : Pend → Thread
  | .vec i x | .mem i x => { t with vregs := mput 0 t.vregs i x }
  | .pred i b => { t with preds := if b then t.preds ||| BitVec.ofNat 128 (2 ^ i) else t.preds &&& ~~~ BitVec.ofNat 128 (2 ^ i) }
  | .flags f => { t with fpc := t.fpc ||| (f &&& 0x7F#32) }
  | .csr n x => t.csrWrite n x
  | .await _ _ | .late _ => t

def Pend.isMem : Pend → Bool
  | .mem _ _ => true
  | _ => false
def Pend.isAwait : Pend → Bool
  | .await _ _ => true
  | _ => false

/-- Whether a result cannot return yet: of a submission that is not accepted, of a load that is not performed. -/
def Pend.isHeld : Pend → Bool
  | .await _ _ | .late _ => true
  | _ => false

/-- Every outstanding result completes, but a submission that is not accepted yet (R59). -/
def Thread.settle (t : Thread) : Thread :=
  { (t.out.foldl Thread.land t) with out := t.out.filter Pend.isAwait, atStop := false }

/-- An outstanding bench-uniform write lands. -/
def Bench.landU (b : Bench) (u : UPend) : Bench :=
  if u.csr then { b with spkey := loWord u.x &&& 0x3FF#32 } else { b with uregs := mput 0 b.uregs u.i (loWord u.x) }

/-- Completes every outstanding access and result of one lane, uniform ones it waits for included (R59). -/
def State.settleLane (s : State) (p : Place) (l : Nat) : State :=
  (s.performFor ⟨p, l⟩).updBench p fun b =>
    let mine := b.uout.filter fun u => u.lanes.contains l
    let b := { (mine.foldl Bench.landU b) with uout := b.uout.filter fun u => !u.lanes.contains l }
    b.updThread l Thread.settle

/-- A CSR's value (Table 5.2). On steward k, which Table 5.2 does not place, `core`, `clst` and `drawer` read 192 + k, its
quarter and 0; in an access processor `slot`, `bench` and `drawer` read 0 (log entry 16). -/
def State.csrRead (s : State) (b : Bench) (t : Thread) (l n : Nat) : DWord :=
  let w (x : Nat) : DWord := BitVec.ofNat 64 x
  match n with
  | 0x000 => t.fpc.setWidth 64
  | 0x001 => t.srseed
  | 0x002 => t.srseq.setWidth 64
  | 0x010 => w t.tid
  | 0x011 => w l
  | 0x012 | 0x013 => w (match b.place with
    | .drawer _ _ k => k
    | .steward _ k => k
    | .ap _ _ => 0)
  | 0x014 => w (match b.place with
    | .drawer _ d _ => d
    | _ => 0)
  | 0x015 => w (match b.place with
    | .drawer c _ _ => c
    | .steward k _ => 192 + k
    | .ap c _ => c)
  | 0x016 => w (clusterOf b.place)
  | 0x017 => w b.task
  | 0x018 => t.grp.setWidth 64
  | 0x019 => w (match s.task? b.task with
    | some k => k.snap
    | none => 0)
  | 0x01A => w (t.ws * 2 ^ 16 + t.wb)
  | 0x01B => w b.world
  | 0x020 => b.spkey.setWidth 64
  | 0x021 => t.rsbase
  | 0x022 => w (t.rstack.length * 2 ^ 24 + t.rdepth)
  | 0x023 => t.rslim
  | 0x030 => (s.world b.world).tvec
  | 0x031 => t.tcause.setWidth 64
  | 0x032 => t.tval
  | 0x033 => t.tpc
  | 0x034 => t.tstat.setWidth 64
  | 0x035 => t.repc.setWidth 64
  | 0x036 => t.gspan.setWidth 64
  | 0x038 => b.rmask.setWidth 64
  | 0x040 => t.dbg.setWidth 64
  | 0x041 => w s.cycle
  | _ => 0

/-! ### Taking an exception -/

/-- A trap of one lane: cause, sub-code, `tval`. -/
structure Trap where
  lane : Nat
  c    : Cause
  sub  : Nat
  v    : DWord
  deriving DecidableEq, Repr

def isAp : Place → Bool
  | .ap _ _ => true
  | _ => false

/-- What a trap leads to, once the pinned state, the handler and a running handler are known (R112, R113, R187). -/
inductive Fate where
  | handler | discard | stop | world | escalate | doubleDiscard | doubleStop
  deriving DecidableEq, Repr

def fate (ap pinned noHandler inHandler : Bool) (c : Cause) : Fate :=
  match c.disp pinned with
  | .w => .world
  | .e => .escalate
  | .d => .discard
  | .s => .stop
  | .h =>
    if ap || noHandler then (if pinned then .stop else .discard)
    else if inHandler then (if pinned then .doubleStop else .doubleDiscard)
    else .handler

/-- `repc` and `gspan` as a trap or a save leaves them (R63). -/
def Thread.savedRep (t : Thread) : Word :=
  match t.rep with
  | some k => if k = 0 then 0 else BitVec.ofNat 32 (64 + k)
  | none => 0
def Thread.savedSpan (t : Thread) : Word :=
  match t.span with
  | some (g, n) => BitVec.ofNat 32 (32 + (if g then 16 else 0) + n)
  | none => 0

/-- Whether a thread stands between repeats of a REP, or inside a guarded span (R63). -/
def Thread.inPrefix (t : Thread) : Bool := t.savedRep ≠ 0 || t.span.isSome

/-- The prefix state that a precise stop or a pre-emption saves (R63): both CSRs, where the thread stands in a prefix, and `tpc`
at the REP word between its repeats. The live state stays with the thread and goes on when it does (log entry 38). -/
def Thread.savePrefix (t : Thread) : Thread :=
  if t.inPrefix then { t with repc := t.savedRep, gspan := t.savedSpan, tpc := if t.savedRep ≠ 0 then t.pc else t.tpc } else t

/-- The prefix state goes on (R63): the saved span is consumed, and the REP clears `repc` when it finishes. -/
def Thread.resumePrefix (t : Thread) : Thread :=
  { t with resumed := t.savedRep ≠ 0, gspan := if t.span.isSome then 0 else t.gspan }

/-- A precise stop at `pc` (R114): `tpc` names the faulting instruction; while a handler runs it keeps the handler's return
address (log entry 99). -/
def Thread.stopAt (t : Thread) (pc : DWord) : Thread :=
  let t := t.savePrefix
  if bitAt t.tstat.toNat 0 then t else { t with tpc := pc }

/-- Where a handler returns, and the span it saves: TRAP and BPT report the next instruction (R113), counting the span down;
a TRAP ends the span (R60). -/
def Thread.past (t : Thread) (c : Cause) : Thread :=
  match c with
  | .soft => { t with span := none }
  | .bpt => { t with span := match t.span with
      | some (v, n) => if n ≤ 1 then none else some (v, n - 1)
      | none => none }
  | _ => t
def returnPc (c : Cause) (pc : DWord) : DWord :=
  match c with
  | .soft | .bpt => pc + 4
  | _ => pc

/-- Handler entry of one thread (R113): outstanding results complete, the trap CSRs and the prefix state are saved, H is
set, and the thread fetches from `tvec`. -/
def Thread.enter (t : Thread) (c : Cause) (sub : Nat) (pin : Bool) (v pc tvec : DWord) : Thread :=
  let t := t.settle.past c
  let tpc := returnPc c pc
  let h := t.tstat &&& 1#32
  { t with tcause := tcauseWord c sub pin, tval := v, tpc := tpc, tstat := (h <<< 1) ||| 1#32,
           repc := t.savedRep, gspan := t.savedSpan, rep := none, span := none, pc := tvec,
           resumed := false, used := [], atStop := false, wait := .ready, polled := none, entering := true }

/-- Resolves an uncorrectable error met by a thread of a task (R330, R331): a block with a good copy is refetched; a line of
the task's version, or a marked block, discards an unpinned task and stops a pinned task's world; any other committed line, and
any in a retired page (R332), stops its world and is marked. -/
def State.escalate (s : State) (k w blk : Nat) (p : Option Place) : State :=
  let a := BitVec.ofNat 64 (64 * blk)
  let mark (s : State) : State :=
    let z := (s.putBytes (s.epoch + 1) (64 * blk) (List.replicate 64 0)).putTag (s.epoch + 1) blk (s.tag blk ||| 0xFF#16)
    { z with marked := insertNat z.marked blk, bad := z.bad.filter (· ≠ blk) }
  let s := if s.bad.contains blk then s.countError blk true else s
  if dpaKind (64 * blk) = .hss then s.deviceError (64 * blk)
  else match s.task? k with
  | none => (mark s).stopWorld w (64 * blk)
  | some t =>
    if !s.retired.contains (blk / 1024) && (t.vblocks.contains blk || s.marked.contains blk) then
      if t.pinned then s.stopWorld w (64 * blk)
      else (s.discardTask k).postTask k .ue 0 a p
    else (mark s).stopWorld w (64 * blk)

/-- Resolves a read of a marked scratchpad block (R331): as an error in the state of the reader's task. -/
def State.escalateSpad (s : State) (k w : Nat) (p : Option Place) : State :=
  match s.task? k with
  | none => s.stopWorld w 0
  | some t => if t.pinned then s.stopWorld w 0 else (s.discardTask k).postTask k .ue 0 0 p

/-- TAKING AN EXCEPTION (R112 to R114): the traps of the lanes of one issue group at address `pc`. A world stop or a discard
takes the whole; otherwise lanes with disposition S stop the bench precisely and lanes with disposition H enter their
handlers. `fetch` marks a fetch fault: on a handler's first instruction it is treated as a double trap (R113). Between the repeats
of a REP under a GRD `tpc` is the REP's address, of the two that R63 offers (DEDUCED, log entry 13). -/
def State.takeTraps (s : State) (p : Place) (pc : DWord) (ts : List Trap) (fetch : Bool := false) : State :=
  match s.bench? p, ts with
  | none, _ => s
  | _, [] => s
  | some b, _ :: _ =>
    let pin := match s.task? b.task with
      | some k => k.pinned
      | none => false
    let tvec := (s.world b.world).tvec
    let user := match s.task? b.task with
      | some k => k.desc.user
      | none => 0
    let fateOf (t : Trap) : Fate :=
      match mget? b.threads t.lane with
      | some th =>
        if fetch && th.entering then (if pin then .doubleStop else .doubleDiscard)
        else fate (isAp p) pin (tvec = 0) (bitAt th.tstat.toNat 0) t.c
      | none => fate (isAp p) pin (tvec = 0) false t.c
    let pick (f : Fate) := ts.filter fun t => fateOf t = f
    let hf (t : Trap) (s : State) := s.post b.world t.sub 2 b.task user (tcauseWord t.c t.sub pin).toNat t.v (some p)
    match pick .world, pick .escalate, pick .discard, pick .doubleDiscard with
    | t :: _, _, _, _ => s.stopWorld b.world t.v.toNat
    | _, t :: _, _, _ =>
      if t.sub = 1 then s.escalateSpad b.task b.world (some p) else s.escalate b.task b.world (t.v.toNat / 64) (some p)
    | _, _, t :: _, _ => (s.postTask b.task t.c t.sub t.v (some p)).discardTask b.task
    | _, _, _, t :: _ => (hf t s).discardTask b.task
    | [], [], [], [] =>
      let s := (pick .handler).foldl (fun s t =>
        (s.settleLane p t.lane).updThread p t.lane fun th => th.enter t.c t.sub pin t.v pc tvec) s
      let st := pick .stop
      let ds := pick .doubleStop
      let s := match st with
        | t :: _ => st.foldl (fun s t => s.updThread p t.lane fun th => th.stopAt pc)
            ((s.postTask b.task t.c t.sub t.v (some p)).stopBench p (st.map Trap.lane) .fault)
        | [] => s
      match ds with
      | t :: _ => (hf t s).stopBench p (ds.map Trap.lane) .fault
      | [] => s

/-- THE RETURN FROM AN EXCEPTION (R170, R63): H := PVH, the thread goes to `tpc`; a valid `repc` resumes the REP there, which
clears it when it finishes, and a valid `gspan` continues the span. A remaining count that R63 does not give (0, 9 to 15) makes
no span, and a count of completed repeats at or above the REP's own makes its one repeat of that number (log entry 100). -/
def Thread.eret (t : Thread) : Thread :=
  let pvh := (t.tstat >>> 1) &&& 1#32
  { t with tstat := (t.tstat &&& 2#32) ||| pvh, pc := t.tpc,
           rep := if bitAt t.repc.toNat 6 then some (t.repc.toNat % 64) else none,
           span := if bitAt t.gspan.toNat 5 && 1 ≤ t.gspan.toNat % 16 && t.gspan.toNat % 16 ≤ 8 then
             some (bitAt t.gspan.toNat 4, t.gspan.toNat % 16) else none,
           resumed := bitAt t.repc.toNat 6, gspan := 0, used := [], entering := false }

/-! ### Issue -/

/-- The issue group being executed. -/
structure Grp where
  place : Place
  lanes : List Nat
  pc    : DWord
  w     : Word
  w2    : Word
  stop  : Bool
  rep   : Option (Nat × Nat)
  deriving DecidableEq, Repr

/-- A REP word, a GRD word. -/
def isRep (w : Word) : Bool := bits w.toNat 30 27 = 15 && bits w.toNat 26 21 = 1
def isGrd (w : Word) : Bool := bits w.toNat 30 27 = 15 && bits w.toNat 26 21 = 0

/-- The word a group executes: the target in a repeat. -/
def Grp.word (g : Grp) : Word := if g.rep.isSome then g.w2 else g.w

def State.grp? (s : State) : Option Grp :=
  match s.cur with
  | .grp p ls pc w w2 st r => some ⟨p, ls, pc, w, w2, st, r⟩
  | _ => none

/-- Whether the executor's profile accepts a word (R66, Table 3.6); an access processor has no uniform addressing (R195). -/
def profileOk (p : Place) (w : Word) : Bool :=
  let g := bits w.toNat 30 27
  let f := bits w.toNat 26 21
  match p with
  | .drawer _ _ _ => g < 15 || [0, 1, 8, 10, 16, 17, 18, 24, 25, 29].contains f
  | .steward _ _ => g < 13 || g = 15 || (g = 14 && f < 3)
  | .ap _ _ =>
    if g ≤ 2 || g = 7 then f % 4 = 0
    else if g = 9 then !([2, 3, 4, 14, 15].contains f) && f < 16
    else if g = 10 then (f < 12 || f = 19 || (22 ≤ f && f < 27)) && (f = 19 || !bitAt w.toNat 7)
    else g = 14 && 16 ≤ f && f < 20

/-- The privileged words (R67), and the words whose scope or handle only system-privileged threads may name: a barrier word at
device scope (R222), a timeline word naming t10 (Table 8.8); TC_PRIV of these is decided with the word too (R60, R71). -/
def privWord (w : Word) : Bool :=
  let g := bits w.toNat 30 27
  let f := bits w.toNat 26 21
  (g = 9 && f = 15) || (g = 15 && ((9 ≤ f && f ≤ 15) || (19 ≤ f && f ≤ 30)))
    || (g = 12 && (((5 ≤ f && f ≤ 9) || f = 14) && w.toNat % 4 = 2
      || (f = 11 || f = 13) && bits w.toNat 19 14 = 10 || f = 12 && bits w.toNat 12 7 = 10))

/-- `tval` of a malformed word: the word, and the second word of an X instruction (R70). -/
def wordVal (w w2 : Word) : DWord := if isX w.toNat then w2 ++ w else w.setWidth 64

/-- A register operand of an instruction: class, field, how many registers from it, and whether it is written. -/
structure Opnd where
  cls   : RClass
  f     : Nat
  n     : Nat
  write : Bool
  deriving DecidableEq, Repr

def rV (f : BitVec 7) (n : Nat := 1) : Opnd := ⟨.vec, f.toNat, n, false⟩
def wV (f : BitVec 7) (n : Nat := 1) : Opnd := ⟨.vec, f.toNat, n, true⟩
def rU (f : BitVec 7) (n : Nat := 1) : Opnd := ⟨.uni, f.toNat, n, false⟩
def wU (f : BitVec 7) (n : Nat := 1) : Opnd := ⟨.uni, f.toNat, n, true⟩
def rP (f : BitVec 7) : Opnd := ⟨.pred, f.toNat, 1, false⟩
def wP (f : BitVec 7) : Opnd := ⟨.pred, f.toNat, 1, true⟩

/-- The physical index an operand starts at (Table 3.5). -/
def Opnd.phys (o : Opnd) (t : Thread) : Nat :=
  match o.cls with
  | .vec => t.wb + o.f
  | .uni => t.ws + o.f
  | .pred => o.f

/-- R65: every register lies below the footprint. -/
def Opnd.inFoot (o : Opnd) (b : Bench) (t : Thread) : Bool :=
  o.phys t + o.n ≤ (match o.cls with
    | .vec => b.vfoot
    | .uni => b.sfoot
    | .pred => b.pfoot)

/-- The names an operand uses, physical (R57, R58). -/
def Opnd.uses (o : Opnd) (t : Thread) : List Use := (upto o.n).map fun i => ⟨o.cls, some (o.phys t + i), o.write⟩

/-- The hazard a use makes with an earlier one of the run: its case in the order of Table 3.4. -/
def hazCase (old new : Use) : Option Nat :=
  if old.cls ≠ new.cls || !(old.i = new.i || old.i = none || new.i = none) then none
  else if old.write && !new.write then some 0
  else if old.write && new.write then some 1
  else if !old.write && new.write then some 2
  else none

/-- `tval` of TC_HAZARD for the first hazard found (R58). -/
def hazVal (old new : Use) (lowest : Option Nat) (case_ : Nat) : DWord :=
  let cls := match new.cls with
    | .vec => 0
    | .uni => 1
    | .pred => 2
  let i := match old.i, new.i with
    | some a, some _ => a
    | none, none => 0
    | _, _ => lowest.getD 0
  BitVec.ofNat 64 (case_ * 2 ^ 11 + cls * 2 ^ 9 + i % 512)

/-- The run check of a thread (R58): `tval` if an instruction with these uses would make a hazard. A window instruction's
hazard names the lowest index, in its class, that the other instruction names. Of several hazards the one with the earliest
earlier instruction is reported, then in operand order, registers read before the register written (log entry 101). -/
def Thread.hazard (t : Thread) (new : List Use) : Option DWord :=
  (t.used.flatMap fun old => new.flatMap fun n => old.filterMap fun o => (hazCase o n).map fun c =>
      let pool : List Nat := (match o.i with
        | none => new
        | some _ => old).filterMap fun (u : Use) => if u.cls = n.cls then u.i else none
      let low := match pool with
        | [] => none
        | x :: xs => some (minNat x xs)
      hazVal o n low c).head?

/-- What an instruction does in one lane. -/
inductive LaneRes where
  /-- it completes; `jump` is a taken transfer of control; `post` changes the thread after it has moved on -/
  | ok (s : State) (jump : Option DWord) (post : Thread → Thread)
  | trap (s : State) (c : Cause) (sub : Nat) (v : DWord)
  /-- it waits and is tried again -/
  | poll (s : State) (on : PollOn)

def LaneRes.done (s : State) : LaneRes := .ok s none id

/-- The length of the instruction in bytes. -/
def Grp.len (g : Grp) : Nat := if isX g.w.toNat then 8 else 4

/-- A guarded span after one more instruction: counted down, and ended by a taken transfer of control (R60). -/
def nextSpan (jumped : Bool) : Option (Bool × Nat) → Option (Bool × Nat)
  | none => none
  | some (v, n) => if jumped || n ≤ 1 then none else some (v, n - 1)

/-- The names of the run with one more instruction, each list once: an instruction that names what an earlier one of the run
named makes no other hazard (R58). -/
def Thread.names (t : Thread) (uses : List Use) : List (List Use) :=
  if uses.isEmpty || t.used.contains uses then t.used else t.used ++ [uses]

/-- A thread moves past an instruction it has completed, or that its guard turned off: from a REP to its first repeat, to the
next repeat, or to the next instruction with the span counted down, the run's names kept for the run check, and the stop (R56,
R60, R61). A REP resumed from `repc` clears it when it finishes (R63). -/
def Thread.retire (t : Thread) (g : Grp) (uses : List Use) (jump : Option DWord) : Thread :=
  let t := { t with polled := none, entering := false }
  match g.rep with
  | some (k, c) =>
    if k + 1 < c then { t with used := t.names uses, rep := some (k + 1) }
    else { t with used := if g.stop then [] else t.names uses, rep := none, pc := g.pc + 8, atStop := g.stop,
                  span := nextSpan false t.span, repc := if t.resumed then 0 else t.repc, resumed := false }
  | none =>
    if isRep g.w then { t with rep := some 0 }
    else { t with used := if g.stop then [] else t.names uses, rep := none, resumed := false,
                  pc := jump.getD (g.pc + BitVec.ofNat 64 g.len), atStop := g.stop, span := nextSpan jump.isSome t.span }

/-- The guard value of a thread (R60). -/
def Thread.guard (t : Thread) : Bool :=
  match t.span with
  | some (g, _) => g
  | none => true

/-- A thread that has yielded is ready again when its bench issues (R167). -/
def Thread.wake (t : Thread) : Thread := if t.wait = .yielded then { t with wait := .ready } else t

/-- Changes every thread of a bench. -/
def Bench.mapThreads (b : Bench) (f : Nat → Thread → Thread) : Bench := { b with threads := b.threads.map fun e => (e.1, f e.1 e.2) }

/-- Whether a stopped thread still waits for its results (R56). -/
def Bench.waits (b : Bench) (l : Nat) (t : Thread) : Bool :=
  t.out.any Pend.isAwait || (t.atStop && (!t.out.isEmpty || b.uout.any fun u => u.lanes.contains l))

/-- Whether a thread may issue, the bench's place in the active set aside. -/
def Bench.ready (b : Bench) (l : Nat) (t : Thread) : Bool := t.wait = .ready && !b.waits l t
def Bench.anyReady (b : Bench) : Bool := b.threads.any fun e => b.ready e.1 e.2

/-- One more issue opportunity of its bench that a thread which is ready and not parked has missed (R104). -/
def Bench.passOver (b : Bench) (l : Nat) (t : Thread) : Thread :=
  { t with missed := if b.ready l t && t.polled.isNone then t.missed + 1 else 0 }

/-- A thread when its bench issues the group: one that has yielded becomes ready (R167), one of the group has missed no issue
opportunity, a ready one outside it has missed one more (R104). -/
def Bench.turned (b : Bench) (g : Grp) (l : Nat) (t : Thread) : Thread :=
  if g.lanes.contains l then { t.wake with missed := 0 } else (b.passOver l t).wake

/-- A bench issues: the group's lanes leave the replay mask (R114). Walks that fault are shared within one instruction (R192). -/
def Bench.noted (b : Bench) (g : Grp) : Bench :=
  { b.mapThreads (b.turned g) with
    rmask := b.rmask &&& ~~~ g.lanes.foldl (fun m l => m ||| BitVec.ofNat 32 (2 ^ l)) 0 }
def State.noteIssue (s : State) (g : Grp) : State := { (s.updBench g.place fun b => b.noted g) with walks := [] }

/-- The bench's last-issue clock and the drawer's ISSUED count (R112, R368). A group all of whose lanes only wait does not
count. -/
def State.countIssue (s : State) (g : Grp) : State :=
  let s := s.updBench g.place fun b => { b with lastIssue := s.cycle }
  match g.place with
  | .drawer c d _ => { s with drawers := mupd Drawer.init s.drawers (8 * c + d) fun x => { x with issued := x.issued + 1 } }
  | _ => s

/-- Floating-point operations of a word in one lane for the intensity classifier (R214): a fused multiply-add counts 2, another
operation 1, of a packed word once for each element and of a dot product for each term; a conversion from or to a floating-point
format and a special function count 1, anything else 0 (log entry 24). -/
def fpOps (w : Word) : Nat :=
  match bits w.toNat 30 27, bits w.toNat 26 23 with
  | 3, f => if f = 3 || f = 4 then 2 else 1
  | 4, f => if f = 12 then 8 else if f = 2 || f = 7 || f = 10 || f = 11 then 4 else if f < 10 then 2 else 0
  | 5, f => if 3 ≤ f && f ≤ 7 then 0 else 1
  | 6, _ => 1
  | _, _ => 0

/-- The classifier has a window for a (world, domain) from its first dispatch on (R214). -/
def State.classify (s : State) (w d : Nat) : State :=
  if s.hub.clsf.any fun c => c.world = w ∧ c.domain = d then s
  else { s with hub := { s.hub with clsf := ⟨w, d, 0, none⟩ :: s.hub.clsf } }

/-- Counts operations of a (world, domain) in the current window (R214). -/
def State.countOps (s : State) (w d n : Nat) : State :=
  if n = 0 then s
  else
    let cs := updFirst (fun c => c.world = w ∧ c.domain = d) (fun (c : Cls) => { c with ops := c.ops + n }) (s.classify w d).hub.clsf
    { s with hub := { s.hub with clsf := cs } }
def State.countFor (s : State) (k n : Nat) : State :=
  match s.task? k with
  | some t => s.countOps t.world t.desc.domain n
  | none => s

/-- Whether every lane of the group waits to be tried again. -/
def State.allPoll (s : State) (g : Grp) : Bool :=
  g.lanes.all fun l => match s.bench? g.place |>.bind fun b => mget? b.threads l with
    | some t => t.polled ≠ none
    | none => false

/-- The lanes of a group whose guard is true (R60). -/
def State.executing (s : State) (g : Grp) : List Nat :=
  match s.bench? g.place with
  | none => []
  | some b => g.lanes.filter fun l => match mget? b.threads l with
    | some t => t.guard
    | none => false

/-- The checks before an instruction executes in a lane: the footprint (with a true guard) and the run check (R65, R58,
R71). -/
def Thread.checks (t : Thread) (b : Bench) (g : Grp) (ops : List Opnd) (xs : List Use) : Option (Cause × DWord) :=
  if t.guard && !(ops.all fun o => o.inFoot b t) then some (.regrange, wordVal g.w g.w2)
  else if bitAt t.dbg.toNat 0 then
    (t.hazard ((ops.flatMap fun o => o.uses t) ++ xs)).map fun v => (.hazard, v)
  else none

/-- A field that only an access processor reserves: FC of its APPUSH and APFETCH (R186). -/
def apReserved (p : Place) (w : Word) : Bool :=
  isAp p && bits w.toNat 30 27 = 14 && (bits w.toNat 26 21 = 18 || bits w.toNat 26 21 = 19) && w.toNat % 128 ≠ 0

/-- The causes that come before any lane's own: the profile, the privilege, an access processor's reserved field (R66, R67, R71,
R186). -/
def wordCause (s : State) (g : Grp) : Option Cause :=
  let world := match s.bench? g.place with
    | some b => b.world
    | none => 0
  if !profileOk g.place g.w then some .profile
  else if privWord g.w && world ≠ 0 then some .priv
  else if apReserved g.place g.w then some .resfield
  else none

/-- Runs `body` in the lanes of `ls` in ascending order, and retires each that completes; one whose access a lender does not answer
waits (R346). -/
def runLanes (g : Grp) (uses : Thread → List Use) (body : State → Nat → LaneRes) : List Nat → State → List Trap → State × List Trap
  | [], s, ts => (s, ts)
  | l :: ls, s, ts =>
    match body s l with
    | .ok s jump post =>
      runLanes g uses body ls (s.updThread g.place l fun t => post (t.retire g (uses t) jump)) ts
    | .trap s c sub v =>
      if AFault.waits ⟨c, sub, v⟩ then runLanes g uses body ls (s.updThread g.place l fun t => { t with polled := some .engine }) ts
      else runLanes g uses body ls s (ts ++ [⟨l, c, sub, v⟩])
    | .poll s on => runLanes g uses body ls (s.updThread g.place l fun t => { t with polled := some on }) ts

/-- A lane whose guard is 0: the instruction has no effect there (R60). -/
def skipLane : State → Nat → LaneRes := fun s _ => .done s

/-- ISSUE (R118): the checks of the word, then of each lane; `pre` acts once for the lanes that execute and pass their checks
and gives what happens in each of them; lanes then run in ascending order, a lane whose guard is 0 only moves past the word,
and the traps of the lanes that fault are taken. `ops` are the register operands, `xs` further names (window instructions). -/
def issueWith (s : State) (ops : List Opnd) (xs : List Use)
    (pre : Grp → State → List Nat → State × (State → Nat → LaneRes)) : Out :=
  match s.grp? with
  | none => .fault .noContext
  | some g =>
    let s := ({ s with cur := .idle }).noteIssue g
    match wordCause s g with
    | some c => .next ((s.countIssue g).takeTraps g.place g.pc (g.lanes.map fun l => ⟨l, c, 0, wordVal g.w g.w2⟩))
    | none =>
      match s.bench? g.place with
      | none => .next s
      | some b =>
        let chk (l : Nat) : Option (Cause × DWord) := (mget? b.threads l).bind fun t => t.checks b g ops xs
        let uses (t : Thread) : List Use := (ops.flatMap fun o => o.uses t) ++ xs
        let on := (s.executing g).filter fun l => chk l = none
        let (s, body) := pre g (s.countFor b.task (on.length * fpOps g.word)) on
        let (s, ts) := runLanes g uses (fun s l => match chk l with
          | some (c, v) => .trap s c 0 v
          | none => if on.contains l then body s l else .done s) g.lanes s []
        let s := if ts.isEmpty && s.allPoll g then s else s.countIssue g
        .next (s.takeTraps g.place g.pc ts)

/-- An instruction that executes once per executing thread, in ascending lane order: `body` is its effect in one lane. -/
def issue (s : State) (ops : List Opnd) (xs : List Use) (body : Grp → State → Nat → LaneRes) : Out :=
  issueWith s ops xs fun g s _ => (s, body g)

/-- An instruction that performs its operation once per group (U=1, solo and system words; R51, R120): `body` gets the
lowest executing lane and the executing lanes; a trap or a wait is that of every executing lane. -/
def issueOnce (s : State) (ops : List Opnd) (body : State → Grp → Nat → List Nat → LaneRes) : Out :=
  issueWith s ops [] fun g s on => match on with
    | [] => (s, skipLane)
    | l0 :: _ =>
      match body s g l0 on with
      | .ok s jump post => (s, fun s _ => .ok s jump post)
      | .trap s c sub v => (s, fun s _ => .trap s c sub v)
      | .poll s w => (s, fun s _ => .poll s w)

/-- An instruction that acts on its executing threads together (R158): `body` sees all of them before any retires. -/
def issueAll (s : State) (ops : List Opnd) (body : Grp → State → List Nat → State × (Nat → Thread → Thread)) : Out :=
  issueWith s ops [] fun g s on =>
    let (s, post) := body g s on
    (s, fun s l => .ok s none (post l))

/-- Adds outstanding results to a thread. -/
def State.out (s : State) (p : Place) (l : Nat) (rs : List Pend) : State :=
  s.updThread p l fun t => { t with out := t.out ++ rs }

/-- Results that land in consecutive vector registers of a lane. -/
def State.outV (s : State) (p : Place) (l : Nat) (f : BitVec 7) (ws : List Word) : State :=
  s.updThread p l fun t => { t with out := t.out ++ ((upto ws.length).zip ws).map fun (i, w) => .vec (t.wb + f.toNat + i) w }

/-- Data of a memory request that lands in consecutive vector registers of a lane. -/
def State.outM (s : State) (p : Place) (l : Nat) (f : BitVec 7) (ws : List Word) : State :=
  s.updThread p l fun t => { t with out := t.out ++ ((upto ws.length).zip ws).map fun (i, w) => .mem (t.wb + f.toNat + i) w }

/-- Results that land in consecutive uniform registers; the stop of each executing lane waits for them. -/
def State.outU (s : State) (p : Place) (l0 : Nat) (ls : List Nat) (f : BitVec 7) (ws : List Word) : State :=
  s.updBench p fun b => match mget? b.threads l0 with
    | some t => { b with uout := b.uout ++ ((upto ws.length).zip ws).map fun (i, w) => ⟨false, t.ws + f.toNat + i, w.setWidth 64, ls⟩ }
    | none => b

/-- The same results to every executing lane (R120). -/
def State.outAll (s : State) (p : Place) (ls : List Nat) (f : BitVec 7) (ws : List Word) : State :=
  ls.foldl (fun s l => s.outV p l f ws) s

end Sys2Proof.Machine
end

