-- ==== Sys2Proof/Machine/Flags.lean ====
section
/-! DEFINITION. Floating-point results with their flags: FTZ on inputs and results (R81), NaN rules (R80), the environment an
instruction rounds in (R51, R83, R86, R88), and every arithmetic operation of G3 to G6 as a function of its operands. -/

namespace Sys2Proof.Machine

/-- The thread state a rounding instruction depends on (R51, R86). -/
structure FEnv where
  rm   : Nat
  ftz  : Bool
  seed : DWord
  task : Nat
  tid  : Nat
  seq  : Word
  deriving DecidableEq, Repr

/-- The draw of element `j` (R86). -/
def FEnv.draw (e : FEnv) (j : Nat) : Nat := srDraw e.seed e.task (srTerm e.tid e.seq j)

/-- What an ALU operation gives: result words, flags, whether it rounded under SR, a trap. -/
structure AluRes where
  out   : List Word
  flags : Nat
  sr    : Bool
  trap  : Option (Cause × DWord)
  deriving DecidableEq, Repr

def AluRes.word (w : Word) : AluRes := ⟨[w], 0, false, none⟩
def AluRes.wordF (w : Word) (fl : Nat) : AluRes := ⟨[w], fl, false, none⟩
def AluRes.pair (x : DWord) : AluRes := ⟨[loWord x, hiWord x], 0, false, none⟩

/-- Below the least normal magnitude, and not zero. -/
def subnormal (f : Fmt) : Fp → Bool
  | .fin _ m e => m ≠ 0 && (Nat.log2 m : Int) + e < f.emin
  | _ => false

/-- A subnormal input under FTZ reads as a zero of its sign (R81). -/
def ftzIn (f : Fmt) (ftz : Bool) (x : Fp) : Fp := if ftz && subnormal f x then .fin x.neg? 0 0 else x

/-- A subnormal result under FTZ is a zero of its sign and sets UF and NX (R81). -/
def ftzOut (f : Fmt) (ftz : Bool) (r : Fp × Nat) : Fp × Nat :=
  if ftz && subnormal f r.1 then (.fin r.1.neg? 0 0, r.2 ||| fUF ||| fNX) else r

/-- Rounds an exact result of G3 or G4 in the thread's mode, with the flags it already has (R128). -/
def finish (f : Fmt) (e : FEnv) (j : Nat) (x : Fp × Nat) : Fp × Nat :=
  let rm := rmOf e.rm e.rm
  let r := ftzOut f e.ftz (roundTo f rm (if rm = .sr then e.draw j else 0) x.1)
  (r.1, r.2 ||| x.2)
def FEnv.isSr (e : FEnv) : Bool := rmOf e.rm e.rm = .sr
def FEnv.isRd (e : FEnv) : Bool := rmOf e.rm e.rm = .rd

def inv (b : Bool) : Nat := if b then fNV else 0

/-- The exact operations with their invalid flag (R128). -/
def addX (e : FEnv) (x y : Fp) : Fp × Nat := let (z, b) := addFp e.isRd x y; (z, inv b)
def mulX (x y : Fp) : Fp × Nat := let (z, b) := mulFp x y; (z, inv b)
def fmaX (e : FEnv) (x y d : Fp) : Fp × Nat :=
  let (p, b) := mulFp x y
  let (z, b') := addFp e.isRd p d
  (z, inv (b || b'))
def divX (x y : Fp) : Fp × Nat :=
  match x, y with
  | .nan s, .nan s' => (.nan (s || s'), 0)
  | .nan s, _ => (.nan s, 0)
  | _, .nan s => (.nan s, 0)
  | .inf _, .inf _ => (.nan false, fNV)
  | .inf n, .fin n' _ _ => (.inf (n != n'), 0)
  | .fin n _ _, .inf n' => (.fin (n != n') 0 0, 0)
  | .fin n m e, .fin n' m' e' =>
    if m' = 0 then (if m = 0 then (.nan false, fNV) else (.inf (n != n'), fDZ))
    else if m = 0 then (.fin (n != n') 0 0, 0)
    else let (q, k) := divMag m e m' e'; (.fin (n != n') q k, 0)
/-- SQRT (R150). -/
def sqrtX (x : Fp) : Fp × Nat :=
  match x with
  | .nan s => (.nan s, 0)
  | .inf n => if n then (.nan false, fNV) else (.inf false, 0)
  | .fin n m e =>
    if m = 0 then (x, 0) else if n then (.nan false, fNV)
    else let (r, k) := sqrtMag m e; (.fin false r k, 0)

/-- Minimum and maximum (R129); `num` is the N form, which drops one NaN. -/
def minMaxX (isMax num : Bool) (x y : Fp) : Fp × Nat :=
  let fl := inv (x.isSig || y.isSig)
  if x.isNan || y.isNan then
    (if num && !(x.isNan && y.isNan) then (if x.isNan then y else x) else .nan false, fl)
  else
    let lt := x.ltSigned y
    (if lt = isMax then y else x, fl)

/-- A format's word codec. -/
structure Codec where
  fmt : Fmt
  dec : Nat → Fp
  enc : Fp → Nat
def cod32 : Codec := ⟨fmt32, decIeee 8 23, encIeee 8 23⟩
def cod16 : Codec := ⟨fmt16, dec16, enc16⟩
def codBf : Codec := ⟨fmtBf, decBf, encBf⟩
/-- The codec of a 2-bit format code (R136). -/
def codOf (k : Nat) : Codec := if k = 0 then cod32 else if k = 1 then cod16 else codBf

def Codec.in_ (c : Codec) (ftz : Bool) (w : Nat) : Fp := ftzIn c.fmt ftz (c.dec w)

/-- A two-operand G3 operation: exact result, one rounding. -/
def f2 (op : FEnv → Fp → Fp → Fp × Nat) (e : FEnv) (ws : List Word) : AluRes :=
  let x := cod32.in_ e.ftz (nth 0 ws 0).toNat
  let y := cod32.in_ e.ftz (nth 0 ws 1).toNat
  let (z, fl) := finish fmt32 e 0 (op e x y)
  ⟨[enc32 z], fl, e.isSr, none⟩

/-- A three-operand G3 operation: a, b, d. -/
def f3 (op : FEnv → Fp → Fp → Fp → Fp × Nat) (e : FEnv) (ws : List Word) : AluRes :=
  let r (i : Nat) := cod32.in_ e.ftz (nth 0 ws i).toNat
  let (z, fl) := finish fmt32 e 0 (op e (r 0) (r 1) (r 2))
  ⟨[enc32 z], fl, e.isSr, none⟩

/-- FMIN, FMAX, FMINN, FMAXN: no rounding (R129). -/
def fmm (isMax num : Bool) (e : FEnv) (ws : List Word) : AluRes :=
  let r (i : Nat) := cod32.in_ e.ftz (nth 0 ws i).toNat
  let (z, fl) := minMaxX isMax num (r 0) (r 1)
  .wordF (enc32 z) fl

/-- FSCALE: a × 2^n (Table 6.4). -/
def fscaleX (e : FEnv) (ws : List Word) : AluRes :=
  let x := cod32.in_ e.ftz (nth 0 ws 0).toNat
  let (z, fl) := finish fmt32 e 0 (x.scale (nth 0 ws 1).toInt, 0)
  ⟨[enc32 z], fl, e.isSr, none⟩

/-- FRND (R130). -/
def frndX (code : Nat) (e : FEnv) (ws : List Word) : AluRes :=
  let rm := rmOf e.rm code
  let sr := decide (rm = .sr)
  match cod32.in_ e.ftz (nth 0 ws 0).toNat with
  | .nan s => ⟨[enc32 (.nan false)], inv s, sr, none⟩
  | .inf n => ⟨[enc32 (.inf n)], 0, sr, none⟩
  | .fin n m k =>
    let (v, exact) := if 0 ≤ k then ((0 : Int), true) else roundInt rm (if sr then e.draw 0 else 0) n m k
    let z := if 0 ≤ k then Fp.fin n m k else .fin n v.natAbs 0
    ⟨[enc32 z], if exact then 0 else fNX, sr, none⟩

/-- FCLASS (R131). -/
def fclassW (w : Word) : Word :=
  match dec32 w with
  | .nan s => if s then 0x100 else 0x200
  | .inf n => if n then 0x001 else 0x080
  | .fin n m e =>
    if m = 0 then (if n then 0x008 else 0x010)
    else if subnormal fmt32 (.fin n m e) then (if n then 0x004 else 0x020)
    else (if n then 0x002 else 0x040)

/-- Half `j` of a word (R78), and a word from its halves. -/
def half (w : Word) (j : Nat) : Nat := w.toNat / 2 ^ (16 * j) % 2 ^ 16
def ofHalves (a b : Nat) : Word := BitVec.ofNat 32 (a + b * 2 ^ 16)

/-- A packed operation on both 16-bit elements; flags of both are ORed (R132). -/
def packed (c : Codec) (rounds : Bool) (op : FEnv → Nat → Fp → Fp → Fp → Fp × Nat) (e : FEnv) (ws : List Word) : AluRes :=
  let el (j : Nat) :=
    let r (i : Nat) := c.in_ e.ftz (half (nth 0 ws i) j)
    op e j (r 0) (r 1) (r 2)
  let (x, fx) := el 0
  let (y, fy) := el 1
  ⟨[ofHalves (c.enc x) (c.enc y)], fx ||| fy, rounds && e.isSr, none⟩
def pAdd (c : Codec) := packed c true fun e j a b _ => finish c.fmt e j (addX e a b)
def pMul (c : Codec) := packed c true fun e j a b _ => finish c.fmt e j (mulX a b)
def pFma (c : Codec) := packed c true fun e j a b d => finish c.fmt e j (fmaX e a b d)
def pMm (c : Codec) (isMax : Bool) := packed c false fun _ _ a b _ => minMaxX isMax false a b

/-- An exact dot product added to d, rounded once (R133, R134). Whether a sum of opposite infinities beside a quiet NaN sets NV is
decided from d and the first product onwards (log entry 102). -/
def dotX (e : FEnv) (ps : List (Fp × Fp)) (d : Fp) : AluRes :=
  let (x, bad) := ps.foldl (fun (acc : Fp × Bool) p =>
    let (m, b) := mulFp p.1 p.2
    let (z, b') := addFp e.isRd acc.1 m
    (z, acc.2 || b || b')) (d, false)
  let (z, fl) := finish fmt32 e 0 (x, inv bad)
  ⟨[enc32 z], fl, e.isSr, none⟩
def dot2 (c : Codec) (e : FEnv) (ws : List Word) : AluRes :=
  let r (i j : Nat) := c.in_ e.ftz (half (nth 0 ws i) j)
  dotX e [(r 0 0, r 1 0), (r 0 1, r 1 1)] (cod32.in_ e.ftz (nth 0 ws 2).toNat)
def byteOf (w : Word) (j : Nat) : Nat := w.toNat / 2 ^ (8 * j) % 256
/-- QDOT4: signed finite binary8 with P = 4 (R134). -/
def qdot4 (e : FEnv) (ws : List Word) : AluRes :=
  let r (i j : Nat) := decB8 ⟨4, true, false⟩ (byteOf (nth 0 ws i) j)
  dotX e ((upto 4).map fun j => (r 0 j, r 1 j)) (cod32.in_ e.ftz (nth 0 ws 2).toNat)

def wordInt (v : Int) : Word := BitVec.ofInt 32 v

/-- Integer dot products (R135). -/
def idot (n k : Nat) (sgn : Bool) (_ : FEnv) (ws : List Word) : AluRes :=
  let el (i j : Nat) : Int :=
    let x := (nth 0 ws i).toNat / 2 ^ (n * j) % 2 ^ n
    if sgn then sx n x else x
  .word (nth 0 ws 2 + wordInt ((upto k).foldl (fun a j => a + el 0 j * el 1 j) 0))

/-! ### Conversions (R136 to R146) -/

/-- The register form of a result of a codec: 16-bit results in the low half (R136). -/
def cvtOut (c : Codec) (rm : RM) (sr : Bool) (r : Nat) (x : Fp) : AluRes :=
  let (z, fl) := roundTo c.fmt rm r x
  ⟨[BitVec.ofNat 32 (c.enc z)], fl, sr, none⟩
def drawFor (e : FEnv) (rm : RM) (j : Nat) : Nat := if rm = .sr then e.draw j else 0

def cvtff (src dst code : Nat) (e : FEnv) (ws : List Word) : AluRes :=
  let rm := rmOf e.rm code
  let w := (nth 0 ws 0).toNat
  cvtOut (codOf dst) rm (rm = .sr) (drawFor e rm 0) ((codOf src).dec (if src = 0 then w else w % 2 ^ 16))

/-- CVTFI (R137): 0 INT32, 1 UINT32, 2 INT16, 3 UINT16. -/
def cvtfi (dst code : Nat) (e : FEnv) (ws : List Word) : AluRes :=
  let rm := rmOf e.rm code
  let (v, fl) := cvtFi (dec32 (nth 0 ws 0)) (if dst < 2 then 32 else 16) (dst % 2 = 0) rm (drawFor e rm 0)
  ⟨[wordInt v], fl, rm = .sr, none⟩

def cvtif (dst : Nat) (sg : Bool) (code : Nat) (e : FEnv) (ws : List Word) : AluRes :=
  let rm := rmOf e.rm code
  let w := nth 0 ws 0
  cvtOut (codOf dst) rm (rm = .sr) (drawFor e rm 0) (.ofInt (if sg then w.toInt else w.toNat))

/-- CVTII (R139): widths 8, 16, 32. -/
def cvtii (wd : Nat) (ds ss : Bool) (_ : FEnv) (ws : List Word) : AluRes :=
  let w := nth 0 ws 0
  let (v, fl) := satIi (if ss then w.toInt else w.toNat) (8 * 2 ^ wd) ds
  .wordF (wordInt v) fl

/-- PACKB8 (R140): four FP32 values, then the control word. -/
def packb8 (e : FEnv) (ws : List Word) : AluRes :=
  let b := (nth 0 ws 4).toNat
  let code := bits b 18 16
  match elemOf (bits b 15 8) with
  | some (.b8 f) =>
    if b % 256 = 255 || code = 5 || code = 6 then ⟨[], 0, false, some (.tag, BitVec.ofNat 64 b)⟩
    else
      let rm := rmOf e.rm code
      let k : Int := 127 - (b % 256 : Nat)
      let (x, fl) := (upto 4).foldl (fun (acc : Nat × Nat) j =>
        let (z, g) := roundTo (fmtB8 f) rm (drawFor e rm j) ((dec32 (nth 0 ws j)).scale k)
        (acc.1 + encB8 f z * 2 ^ (8 * j), acc.2 ||| g)) (0, 0)
      ⟨[BitVec.ofNat 32 x], fl, rm = .sr, none⟩
  | _ => ⟨[], 0, false, some (.tag, BitVec.ofNat 64 b)⟩

/-- UNPKB8 (R141). -/
def unpkb8 (p : Nat) (ext sgn : Bool) (j : Nat) (_ : FEnv) (ws : List Word) : AluRes :=
  cvtOut cod32 .rne false 0 (decB8 ⟨p, sgn, ext⟩ (byteOf (nth 0 ws 0) j))

/-- PACKI4 (R142). -/
def packi4 (_ : FEnv) (ws : List Word) : AluRes :=
  let (x, fl) := (upto 8).foldl (fun (acc : Nat × Nat) j =>
    let (v, g) := satIi (sx 8 (byteOf (nth 0 ws (j / 4)) (j % 4))) 4 true
    (acc.1 + (v % 16).toNat * 2 ^ (4 * j), acc.2 ||| g)) (0, 0)
  .wordF (BitVec.ofNat 32 x) fl
def unpki4 (sgn : Bool) (j : Nat) (_ : FEnv) (ws : List Word) : AluRes :=
  let x := (nth 0 ws 0).toNat / 2 ^ (4 * j) % 16
  .word (if sgn then wordInt (sx 4 x) else BitVec.ofNat 32 x)

/-- FEXP (R146). -/
def fexpW (w : Word) : Word :=
  match dec32 w with
  | .fin _ m e => if m = 0 then 0x80000000 else wordInt (Nat.log2 m + e)
  | _ => 0x7FFFFFFF

/-! ### Special functions (R147 to R154) -/

/-- A G6 function on FP32: RNE, the function's own flags ORed with the rounding's (R148). -/
def sfu (f : Fp → Fp × Nat) (_ : FEnv) (ws : List Word) : AluRes :=
  let (x, fl) := f (dec32 (nth 0 ws 0))
  let (z, g) := roundTo fmt32 .rne 0 x
  .wordF (enc32 z) (fl ||| g)
/-- RCPH and EX2H (R154). -/
def sfuH (f : Fp → Fp × Nat) (_ : FEnv) (ws : List Word) : AluRes :=
  let el (j : Nat) :=
    let (x, fl) := f (dec16 (half (nth 0 ws 0) j))
    let (z, g) := roundTo fmt16 .rne 0 x
    (enc16 z, fl ||| g)
  .wordF (ofHalves (el 0).1 (el 1).1) ((el 0).2 ||| (el 1).2)
/-- SQRT under fpc.RM (R150). -/
def sqrtF (e : FEnv) (ws : List Word) : AluRes :=
  let (x, fl) := sqrtX (dec32 (nth 0 ws 0))
  let rm := rmOf e.rm e.rm
  let (z, g) := roundTo fmt32 rm (drawFor e rm 0) x
  ⟨[enc32 z], fl ||| g, rm = .sr, none⟩

/-! ### Compares (R156) -/

/-- The truth of an FP32 compare and its flags: `signal` compares set NV for any NaN. -/
def fcmpX (signal : Bool) (test : Fp → Fp → Bool) (e : FEnv) (a b : Word) : Bool × Nat :=
  let x := cod32.in_ e.ftz a.toNat
  let y := cod32.in_ e.ftz b.toNat
  (test x y, inv (if signal then x.isNan || y.isNan else x.isSig || y.isSig))
def noNan (f : Fp → Fp → Bool) (x y : Fp) : Bool := !x.isNan && !y.isNan && f x y

end Sys2Proof.Machine
end

