-- ==== Sys2Proof/Machine/Operands.lean ====
section
/-! DEFINITION. The operand forms of the ALU words: per-thread, FC-uniform and uniform modes (R51), single, pair and quad
operands (R119), predicate destinations (R155), and the write of results and flags (R89, R118). -/

namespace Sys2Proof.Machine

/-- The environment of a thread of a bench (R51, R86). -/
def fenv (b : Bench) (t : Thread) : FEnv :=
  { rm := fpcRm t.fpc, ftz := fpcFtz t.fpc, seed := t.srseed, task := b.task, tid := t.tid, seq := t.srseq }

def modeU (u : Bool) : OpMode := if u then .u else .v

/-- The flags of a result as an outstanding OR into `fpc` (R89). -/
def flagPend (fl : Nat) : List Pend := if fl = 0 then [] else [.flags (BitVec.ofNat 32 fl)]

def srBump (sr : Bool) (t : Thread) : Thread := if sr then { t with srseq := t.srseq + 1 } else t

/-- Consecutive registers of a thread. -/
def Thread.vs (t : Thread) (f : BitVec 7) (n : Nat) : List Word := (upto n).map fun i => t.v (f.toNat + i)
def Bench.us (b : Bench) (t : Thread) (f : BitVec 7) (n : Nat) : List Word := (upto n).map fun i => b.u t (f.toNat + i)

/-- The operands of an ALU word: destination and its width, source a and its width, source b if any, and whether the
destination is also a source (T3, MOVHI). -/
structure AluOps where
  d  : BitVec 7
  nd : Nat
  a  : Option (BitVec 7)
  na : Nat
  b  : Option (BitVec 7)
  rd : Bool

/-- Register operands by mode (R51). -/
def AluOps.regs (o : AluOps) (m : OpMode) : List Opnd :=
  let r := if m = .u then RClass.uni else .vec
  let rb := if m = .v then RClass.vec else .uni
  (match o.a with
    | some a => [⟨r, a.toNat, o.na, false⟩]
    | none => []) ++
  (match o.b with
    | some b => [⟨rb, b.toNat, 1, false⟩]
    | none => []) ++
  (if o.rd then [⟨r, o.d.toNat, o.nd, false⟩] else []) ++ [⟨r, o.d.toNat, o.nd, true⟩]

/-- The source words in the order a, b, d. -/
def AluOps.srcs (o : AluOps) (m : OpMode) (b : Bench) (t : Thread) : List Word :=
  let rd (f : BitVec 7) (n : Nat) := if m = .u then b.us t f n else t.vs f n
  (match o.a with
    | some a => rd a o.na
    | none => []) ++
  (match o.b with
    | some x => if m = .v then t.vs x 1 else b.us t x 1
    | none => []) ++
  (if o.rd then rd o.d o.nd else [])

/-- One lane of a per-thread ALU form (R118). -/
def aluLane (m : OpMode) (o : AluOps) (f : FEnv → List Word → AluRes) (g : Grp) (s : State) (l : Nat) : LaneRes :=
  match s.bench? g.place, s.thread? g.place l with
  | some b, some t =>
    let r := f (fenv b t) (o.srcs m b t)
    match r.trap with
    | some (c, v) => .trap s c 0 v
    | none => .ok ((s.outV g.place l o.d r.out).out g.place l (flagPend r.flags)) none (srBump r.sr)
  | _, _ => .done s

/-- A U=1 ALU form: once per group, with the lowest executing lane's state, its flags to every executing thread (R51). -/
def aluUni (o : AluOps) (f : FEnv → List Word → AluRes) (s : State) (g : Grp) (l0 : Nat) (on : List Nat) : LaneRes :=
  match s.bench? g.place, s.thread? g.place l0 with
  | some b, some t =>
    let r := f (fenv b t) (o.srcs .u b t)
    match r.trap with
    | some (c, v) => .trap s c 0 v
    | none =>
      let s := s.outU g.place l0 on o.d r.out
      .ok (on.foldl (fun s l => s.out g.place l (flagPend r.flags)) s) none (srBump r.sr)
  | _, _ => .done s

/-- An ALU instruction (R118): `f` maps the environment and the source words (a, b, d) to the results. -/
def alu (m : OpMode) (o : AluOps) (f : FEnv → List Word → AluRes) (s : State) : Out :=
  match m with
  | .u => issueOnce s (o.regs .u) (aluUni o f)
  | .v => issue s (o.regs .v) [] (aluLane .v o f)
  | .s => issue s (o.regs .s) [] (aluLane .s o f)

/-- The usual operand shapes. -/
def opT (d a b : BitVec 7) : AluOps := ⟨d, 1, some a, 1, some b, false⟩
def opT3 (d a b : BitVec 7) : AluOps := ⟨d, 1, some a, 1, some b, true⟩
def opT1 (d a : BitVec 7) : AluOps := ⟨d, 1, some a, 1, none, false⟩
def opD (d : BitVec 7) (rd : Bool) : AluOps := ⟨d, 1, none, 0, none, rd⟩
def opTw (d a b : BitVec 7) (na : Nat) : AluOps := ⟨d, 2, some a, na, some b, false⟩

/-- An integer operation on two and three words, and on a pair and a word. -/
def i2 (f : Word → Word → Word) (_ : FEnv) (ws : List Word) : AluRes := .word (f (nth 0 ws 0) (nth 0 ws 1))
def i3 (f : Word → Word → Word → Word) (_ : FEnv) (ws : List Word) : AluRes := .word (f (nth 0 ws 0) (nth 0 ws 1) (nth 0 ws 2))
def i1 (f : Word → Word) (_ : FEnv) (ws : List Word) : AluRes := .word (f (nth 0 ws 0))
def iw (f : DWord → Word → DWord) (_ : FEnv) (ws : List Word) : AluRes :=
  .pair (f (ofPair (nth 0 ws 0) (nth 0 ws 1)) (nth 0 ws 2))

/-- A compare (R155, R156): one predicate per executing thread; under U=1 the single result goes to every one of them. -/
def compare (m : OpMode) (d a b : BitVec 7) (f : FEnv → Word → Word → Bool × Nat) (s : State) : Out :=
  let r := if m = .u then RClass.uni else .vec
  let rb := if m = .v then RClass.vec else .uni
  let ops : List Opnd := [⟨r, a.toNat, 1, false⟩, ⟨rb, b.toNat, 1, false⟩, wP d]
  let res (b' : Bench) (t : Thread) : Bool × Nat :=
    let x := if m = .u then b'.u t a.toNat else t.v a.toNat
    let y := if m = .v then t.v b.toNat else b'.u t b.toNat
    f (fenv b' t) x y
  let put (p : Place) (l : Nat) (r : Bool × Nat) (s : State) : State := s.out p l (.pred d.toNat r.1 :: flagPend r.2)
  match m with
  | .u => issueOnce s ops fun s g l0 on =>
      match s.bench? g.place, s.thread? g.place l0 with
      | some b', some t => .done (on.foldl (fun s l => put g.place l (res b' t) s) s)
      | _, _ => .done s
  | _ => issue s ops [] fun g s l =>
      match s.bench? g.place, s.thread? g.place l with
      | some b', some t => .done (put g.place l (res b' t) s)
      | _, _ => .done s

/-- An operation over the participating set (R158): `f` maps the values of the executing lanes, in ascending order, to a
result for each lane. -/
def cross (ops : List Opnd) (f : State → Grp → List (Nat × Thread) → List (Nat × List Pend × (Thread → Thread))) (s : State) : Out :=
  issueAll s ops fun g s on =>
    match s.bench? g.place with
    | none => (s, fun _ => id)
    | some b =>
      let ts := on.filterMap fun l => (mget? b.threads l).map fun t => (l, t)
      let rs := f s g ts
      (rs.foldl (fun s (l, ps, _) => s.out g.place l ps) s, fun l => match rs.find? fun r => r.1 = l with
        | some (_, _, h) => h
        | none => id)

end Sys2Proof.Machine
end

