-- ==== Sys2Proof/Machine/Alu.lean ====
section
/-! DEFINITION. Groups G0 to G2: integer arithmetic (R122, R123), logic and bit fields (R124, R125), moves, immediates and control registers
(R126, R127). -/

namespace Sys2Proof.Machine

/-- High words of products (Table 6.1). -/
def mulHiS (x y : Word) : Word := hiWord (x.signExtend 64 * y.signExtend 64)
def mulHiU (x y : Word) : Word := hiWord (x.setWidth 64 * y.setWidth 64)
def mulWide (_ : FEnv) (ws : List Word) : AluRes := .pair ((nth 0 ws 0).signExtend 64 * (nth 0 ws 1).signExtend 64)

/-- Division without traps (R123). -/
def divU (x y : Word) : Word := if y = 0 then 0xFFFFFFFF#32 else x / y
def divS (x y : Word) : Word := if y = 0 then 0xFFFFFFFF#32 else x.sdiv y

/-- A shift count is b[4:0] (R124). -/
def shCnt (y : Word) : Nat := y.toNat % 32

/-- Bit fields (R125): position b[4:0], length min(b[13:8], 32). -/
def fieldPos (b : Word) : Nat := b.toNat % 32
def fieldLen (b : Word) : Nat := Nat.min (bits b.toNat 13 8) 32
def bfxu (x b : Word) : Word := BitVec.ofNat 32 (x.toNat / 2 ^ fieldPos b % 2 ^ fieldLen b)
def bfxs (x b : Word) : Word :=
  if fieldLen b = 0 then 0 else wordInt (sx (fieldLen b) (x.toNat / 2 ^ fieldPos b % 2 ^ fieldLen b))
def bfi (x b z : Word) : Word :=
  let m : Word := BitVec.ofNat 32 ((2 ^ fieldLen b - 1) * 2 ^ fieldPos b)
  (z &&& ~~~m) ||| ((x <<< fieldPos b) &&& m)

/-- Bit counts (Table 6.2). -/
def popc (x : Word) : Word := BitVec.ofNat 32 ((upto 32).filter fun i => x.getLsbD i).length
def clz (x : Word) : Word := if x = 0 then 32#32 else BitVec.ofNat 32 (31 - Nat.log2 x.toNat)
def brev (x : Word) : Word := x.reverse

/-- CSRR (R127): the bench's or the thread's value; a 64-bit CSR gives a pair. -/
def csrRd (u : Bool) (d : BitVec 7) (i : BitVec 14) (s : State) : Out :=
  let n := i.toNat
  let k := if (match csrInfo n with
    | some (wide, _) => wide
    | none => false) then 2 else 1
  let val (s : State) (p : Place) (l : Nat) : List Word := match s.bench? p, s.thread? p l with
    | some b, some t => let x := s.csrRead b t l n; [loWord x, hiWord x].take k
    | _, _ => []
  if u then issueOnce s [wU d k] fun s g l0 on => .done (s.outU g.place l0 on d (val s g.place l0))
  else issue s [wV d k] [] fun g s l => .done (s.outV g.place l d (val s g.place l))

/-- CSRW (R127): outstanding until the stop (R110). U=0 on a bench-uniform CSR writes the value of one executing thread,
which one is not specified: a free choice (log entry 14). -/
def csrWr (u : Bool) (d : BitVec 7) (i : BitVec 14) (s : State) : Out :=
  let n := i.toNat
  let (wide, uni) := (csrInfo n).getD (false, false)
  let k := if wide then 2 else 1
  let ofWords (ws : List Word) : DWord := ofPair (nth 0 ws 0) (nth 0 ws 1)
  if u then issueOnce s [rU d k] fun s g l0 on =>
    match s.bench? g.place, s.thread? g.place l0 with
    | some b, some t =>
      if n = 0x020 then .done (s.updBench g.place fun x => { x with uout := x.uout ++ [⟨true, n, ofWords (b.us t d k), on⟩] })
      else .done s
    | _, _ => .done s
  else if uni then issueOnce s [rV d k] fun s g _ on =>
    if n = 0x020 then
      let (r, s) := s.draw
      match s.thread? g.place (nth 0 on (r % on.length)) with
      | some t => .done (s.updBench g.place fun x => { x with uout := x.uout ++ [⟨true, n, ofWords (t.vs d k), on⟩] })
      | none => .done s
    else .done s
  else issue s [rV d k] [] fun g s l =>
    match s.thread? g.place l with
    | some t => .done (s.out g.place l [.csr n (ofWords (t.vs d k))])
    | none => .done s

/-- R122. Adds two 32-bit registers modulo 2^32. -/
def execIadd (m : OpMode) (d a b : BitVec 7) (s : State) : Out :=
  alu m (opT d a b) (i2 (fun x y => x + y)) s

/-- R122. Subtracts two 32-bit registers modulo 2^32. -/
def execIsub (m : OpMode) (d a b : BitVec 7) (s : State) : Out :=
  alu m (opT d a b) (i2 (fun x y => x - y)) s

/-- R122. Writes the low 32 bits of a product. -/
def execImul (m : OpMode) (d a b : BitVec 7) (s : State) : Out :=
  alu m (opT d a b) (i2 (fun x y => x * y)) s

/-- R122. Writes the high 32 bits of a signed product. -/
def execImulhs (m : OpMode) (d a b : BitVec 7) (s : State) : Out :=
  alu m (opT d a b) (i2 mulHiS) s

/-- R122. Writes the high 32 bits of an unsigned product. -/
def execImulhu (m : OpMode) (d a b : BitVec 7) (s : State) : Out :=
  alu m (opT d a b) (i2 mulHiU) s

/-- R122. Multiplies two registers and adds the destination. -/
def execImad (m : OpMode) (d a b : BitVec 7) (s : State) : Out :=
  alu m (opT3 d a b) (i3 (fun x y z => x * y + z)) s

/-- R122. Writes a signed 64-bit product to a register pair. -/
def execImulw (m : OpMode) (d a b : BitVec 7) (s : State) : Out :=
  alu m (opTw d a b 1) mulWide s

/-- R122. Adds a zero-extended register to a 64-bit pair. -/
def execIadd64 (m : OpMode) (d a b : BitVec 7) (s : State) : Out :=
  alu m (opTw d a b 2) (iw fun x y => x + y.setWidth 64) s

/-- R122. Subtracts a zero-extended register from a 64-bit pair. -/
def execIsub64 (m : OpMode) (d a b : BitVec 7) (s : State) : Out :=
  alu m (opTw d a b 2) (iw fun x y => x - y.setWidth 64) s

/-- R122. Signed minimum. -/
def execImins (m : OpMode) (d a b : BitVec 7) (s : State) : Out :=
  alu m (opT d a b) (i2 (fun x y => if x.sle y then x else y)) s

/-- R122. Unsigned minimum. -/
def execIminu (m : OpMode) (d a b : BitVec 7) (s : State) : Out :=
  alu m (opT d a b) (i2 (fun x y => if x.ule y then x else y)) s

/-- R122. Signed maximum. -/
def execImaxs (m : OpMode) (d a b : BitVec 7) (s : State) : Out :=
  alu m (opT d a b) (i2 (fun x y => if x.sle y then y else x)) s

/-- R122. Unsigned maximum. -/
def execImaxu (m : OpMode) (d a b : BitVec 7) (s : State) : Out :=
  alu m (opT d a b) (i2 (fun x y => if x.ule y then y else x)) s

/-- R123. Unsigned quotient, all ones on division by zero. -/
def execIdivu (m : OpMode) (d a b : BitVec 7) (s : State) : Out :=
  alu m (opT d a b) (i2 divU) s

/-- R123. Signed quotient truncated toward zero. -/
def execIdivs (m : OpMode) (d a b : BitVec 7) (s : State) : Out :=
  alu m (opT d a b) (i2 divS) s

/-- R124. Bitwise AND. -/
def execAnd (m : OpMode) (d a b : BitVec 7) (s : State) : Out :=
  alu m (opT d a b) (i2 (fun x y => x &&& y)) s

/-- R124. Bitwise OR. -/
def execOr (m : OpMode) (d a b : BitVec 7) (s : State) : Out :=
  alu m (opT d a b) (i2 (fun x y => x ||| y)) s

/-- R124. Bitwise exclusive OR. -/
def execXor (m : OpMode) (d a b : BitVec 7) (s : State) : Out :=
  alu m (opT d a b) (i2 (fun x y => x ^^^ y)) s

/-- R124. AND with the complement of b. -/
def execAndn (m : OpMode) (d a b : BitVec 7) (s : State) : Out :=
  alu m (opT d a b) (i2 (fun x y => x &&& ~~~y)) s

/-- R124. Logical left shift. -/
def execShl (m : OpMode) (d a b : BitVec 7) (s : State) : Out :=
  alu m (opT d a b) (i2 (fun x y => x <<< shCnt y)) s

/-- R124. Logical right shift. -/
def execShr (m : OpMode) (d a b : BitVec 7) (s : State) : Out :=
  alu m (opT d a b) (i2 (fun x y => x >>> shCnt y)) s

/-- R124. Arithmetic right shift. -/
def execSar (m : OpMode) (d a b : BitVec 7) (s : State) : Out :=
  alu m (opT d a b) (i2 (fun x y => x.sshiftRight (shCnt y))) s

/-- R124. Rotate left. -/
def execRol (m : OpMode) (d a b : BitVec 7) (s : State) : Out :=
  alu m (opT d a b) (i2 (fun x y => x.rotateLeft (shCnt y))) s

/-- R124. Funnel shift left of a:d. -/
def execFshl (m : OpMode) (d a b : BitVec 7) (s : State) : Out :=
  alu m (opT3 d a b) (i3 (fun x y z => hiWord (ofPair z x <<< shCnt y))) s

/-- R124. Funnel shift right of a:d. -/
def execFshr (m : OpMode) (d a b : BitVec 7) (s : State) : Out :=
  alu m (opT3 d a b) (i3 (fun x y z => loWord (ofPair z x >>> shCnt y))) s

/-- R125. Extracts a bit field, zero-extended. -/
def execBfxu (m : OpMode) (d a b : BitVec 7) (s : State) : Out :=
  alu m (opT d a b) (i2 bfxu) s

/-- R125. Extracts a bit field, sign-extended. -/
def execBfxs (m : OpMode) (d a b : BitVec 7) (s : State) : Out :=
  alu m (opT d a b) (i2 bfxs) s

/-- R125. Inserts a bit field into d. -/
def execBfi (m : OpMode) (d a b : BitVec 7) (s : State) : Out :=
  alu m (opT3 d a b) (i3 bfi) s

/-- R124. Counts one bits. -/
def execPopc (u : Bool) (d a : BitVec 7) (s : State) : Out :=
  alu (modeU u) (opT1 d a) (i1 popc) s

/-- R124. Counts leading zeros. -/
def execClz (u : Bool) (d a : BitVec 7) (s : State) : Out :=
  alu (modeU u) (opT1 d a) (i1 clz) s

/-- R124. Reverses bit order. -/
def execBrev (u : Bool) (d a : BitVec 7) (s : State) : Out :=
  alu (modeU u) (opT1 d a) (i1 brev) s

/-- R126. Copies a register. -/
def execMov (u : Bool) (d a : BitVec 7) (s : State) : Out :=
  alu (modeU u) (opT1 d a) (i1 (fun x => x)) s

/-- R126. Writes a sign-extended 14-bit immediate. -/
def execMovi (u : Bool) (d : BitVec 7) (i : BitVec 14) (s : State) : Out :=
  alu (modeU u) (opD d false) (fun _ _ => .word (i.signExtend 32)) s

/-- R126. Writes an immediate into bits 31:18 keeping the low bits. -/
def execMovhi (u : Bool) (d : BitVec 7) (i : BitVec 14) (s : State) : Out :=
  alu (modeU u) (opD d true) (i1 fun x => (i.setWidth 32 <<< 18) ||| (x &&& 0x3FFFF#32)) s

/-- R126. Writes a 32-bit literal from the second word. -/
def execLdi32 (u : Bool) (d : BitVec 7) (lit : BitVec 32) (s : State) : Out :=
  alu (modeU u) (opD d false) (fun _ _ => .word lit) s

/-- R126. Adds a signed 7-bit immediate. -/
def execIaddi (u : Bool) (d a i : BitVec 7) (s : State) : Out :=
  alu (modeU u) (opT1 d a) (i1 fun x => x + i.signExtend 32) s

/-- R126. Multiplies by a signed 7-bit immediate. -/
def execImuli (u : Bool) (d a i : BitVec 7) (s : State) : Out :=
  alu (modeU u) (opT1 d a) (i1 fun x => x * i.signExtend 32) s

/-- R126. AND with a sign-extended immediate. -/
def execAndi (u : Bool) (d a i : BitVec 7) (s : State) : Out :=
  alu (modeU u) (opT1 d a) (i1 fun x => x &&& i.signExtend 32) s

/-- R126. OR with a sign-extended immediate. -/
def execOri (u : Bool) (d a i : BitVec 7) (s : State) : Out :=
  alu (modeU u) (opT1 d a) (i1 fun x => x ||| i.signExtend 32) s

/-- R126. XOR with a sign-extended immediate. -/
def execXori (u : Bool) (d a i : BitVec 7) (s : State) : Out :=
  alu (modeU u) (opT1 d a) (i1 fun x => x ^^^ i.signExtend 32) s

/-- R126. Left shift by an immediate. -/
def execShli (u : Bool) (d a i : BitVec 7) (s : State) : Out :=
  alu (modeU u) (opT1 d a) (i1 fun x => x <<< i.toNat) s

/-- R126. Logical right shift by an immediate. -/
def execShri (u : Bool) (d a i : BitVec 7) (s : State) : Out :=
  alu (modeU u) (opT1 d a) (i1 fun x => x >>> i.toNat) s

/-- R126. Arithmetic right shift by an immediate. -/
def execSari (u : Bool) (d a i : BitVec 7) (s : State) : Out :=
  alu (modeU u) (opT1 d a) (i1 fun x => x.sshiftRight i.toNat) s

/-- R126. Adds four times a register to a 64-bit pair. -/
def execLea4 (u : Bool) (d a b : BitVec 7) (s : State) : Out :=
  alu (modeU u) (opTw d a b 2) (iw fun x y => x + 4 * y.setWidth 64) s

/-- R126. Adds eight times a register to a 64-bit pair. -/
def execLea8 (u : Bool) (d a b : BitVec 7) (s : State) : Out :=
  alu (modeU u) (opTw d a b 2) (iw fun x y => x + 8 * y.setWidth 64) s

/-- R127. Reads a control and status register. -/
def execCsrr (u : Bool) (d : BitVec 7) (i : BitVec 14) (s : State) : Out :=
  csrRd u d i s

/-- R127. Writes a control and status register. -/
def execCsrw (u : Bool) (d : BitVec 7) (i : BitVec 14) (s : State) : Out :=
  csrWr u d i s

end Sys2Proof.Machine
end

