-- ==== Sys2Proof/Machine/Fetch.lean ====
section
/-! DEFINITION. Instruction fetch (R42): words at the task's snapshot epoch, translation with X, and the prefixes' view of the
next word (R61, R62). -/

namespace Sys2Proof.Machine

/-- A task's snapshot epoch, the commit epoch for none. -/
def State.snapOf (s : State) (k : Nat) : Nat :=
  match s.task? k with
  | some t => t.snap
  | none => s.epoch

/-- Fetches one word for a thread (R42, R192): at the snapshot epoch S, never the task's own version. A word that changed
between the thread's last IFENCE and S is the old or the new one, a free choice (log entry 4). -/
def State.fetchWord (s : State) (p : Place) (l : Nat) (va : DWord) : State × Except AFault Word :=
  match s.bench? p, s.thread? p l with
  | some b, some t =>
    if va.toNat / 2 ^ 56 ≠ 0 then (s, .error ⟨.page, 0, va⟩)
    else if va.toNat % 4 ≠ 0 then (s, .error ⟨.align, 0, va⟩)
    else
      match s.translate (coreIx p) b.world .fetch va.toNat with
      | (s, .error (c, sub)) => (s, .error ⟨c, sub, va⟩)
      | (s, .ok loc) =>
        if dpaKind loc.dpa = .mmio then (s, .error ⟨.perm, 0, va⟩)
        else if s.dataError loc.dpa true then (s, .error ⟨.ue, 0, blockVal loc.dpa⟩)
        else
          let S := s.snapOf b.task
          let new := leNat (s.readAt S loc 4)
          if t.fetchEp = S then (s, .ok (BitVec.ofNat 32 new))
          else
            let old := leNat (s.readAt t.fetchEp loc 4)
            if old = new then (s, .ok (BitVec.ofNat 32 new))
            else let (r, s) := s.draw; (s, .ok (BitVec.ofNat 32 (if r % 2 = 0 then new else old)))
  | _, _ => (s, .error ⟨.page, 0, va⟩)

/-- Whether a word of G0 to G14 is no instruction, or a G15 word is unassigned (Table 3.9, first two rows). -/
def illegalWord (w w2 : Word) : Bool :=
  let n := w.toNat
  let bad (r : Except Reject Instr) : Bool := match r with
    | .error .illegal => true
    | _ => false
  match bits n 30 27 with
  | 0 => bad (decodeG0 n) | 1 => bad (decodeG1 n) | 2 => bad (decodeG2 n w2.toNat) | 3 => bad (decodeG3 n)
  | 4 => bad (decodeG4 n) | 5 => bad (decodeG5 n) | 6 => bad (decodeG6 n) | 7 => bad (decodeG7 n)
  | 8 => bad (decodeG8 n) | 9 => bad (decodeG9 n) | 10 => bad (decodeG10 n) | 11 => bad (decodeG11 n w2.toNat)
  | 12 => bad (decodeG12 n) | 13 => bad (decodeG13 n) | 14 => bad (decodeG14 n)
  | _ => let f := bits n 26 21; !(f < 2 || (8 ≤ f && f ≤ 30))

/-- Which of FA, FB, FC of a one-word instruction of G0 to G8, G10 or NOP name registers (R52, R61; Tables 3.7, 3.8). -/
def regFields (w : Word) : Bool × Bool × Bool :=
  let n := w.toNat
  let f := bits n 26 23
  match bits n 30 27 with
  | 0 => (true, true, true)
  | 1 => (true, true, f < 13)
  | 2 => if f = 0 then (true, true, false)
         else if f < 4 || f = 14 || f = 15 then (true, false, false)
         else if f < 12 then (true, true, false) else (true, true, true)
  | 3 => (true, true, !(f = 9 || f = 10 || f = 12 || f = 13))
  | 4 => (true, true, true)
  | 5 => (true, f ≠ 10, f = 4 || f = 6)
  | 6 => (true, true, false)
  | 7 => (true, true, f ≠ 15)
  | 8 => let h := bits n 26 21; (true, h < 13, h = 0)
  | 10 => let h := bits n 26 21; (h ≠ 26, true, false)
  | _ => (false, false, false)

/-- R62: a REP target is a one-word instruction of G0 to G8, of G10, or a NOP. A next word of those groups that is no instruction, or not legal
with its U or CS, is no target either, and is reported on the REP (DEDUCED, log entry 13). -/
def repTargetOk (w : Word) : Bool :=
  let g := bits w.toNat 30 27
  (g < 9 || g = 10 || (g = 9 && bits w.toNat 26 21 = 8)) && !isX w.toNat && !illegalWord w 0

/-- The stride of a step code (R61). -/
def stride (c : Nat) : Nat := if c = 0 then 0 else 2 ^ (c - 1)

/-- The steps of a REP word on FA, FB and FC. -/
def repSteps (w : Word) : Nat × Nat × Nat := (bits w.toNat 13 11, bits w.toNat 9 7, bits w.toNat 2 0)
def repCount (w : Word) : Nat := bits w.toNat 19 14 + 1

/-- Repeat `k` of a target: each stepped field increased by k × stride; none if a field would exceed 127 (R61). -/
def stepWord (rep w : Word) (k : Nat) : Option Word :=
  let (sa, sb, sc) := repSteps rep
  let a := bits w.toNat 20 14 + k * stride sa
  let b := bits w.toNat 13 7 + k * stride sb
  let c := bits w.toNat 6 0 + k * stride sc
  if a < 128 && b < 128 && c < 128 then
    some (BitVec.ofNat 32 (w.toNat / 2 ^ 21 * 2 ^ 21 + a * 2 ^ 14 + b * 2 ^ 7 + c))
  else none

/-- A step on a field that is no register is illegal on the REP (R61). -/
def repStepsOk (sa sb sc : BitVec 3) (w : Word) : Bool :=
  let (ra, rb, rc) := regFields w
  (ra || sa = 0) && (rb || sb = 0) && (rc || sc = 0)

end Sys2Proof.Machine
end

