-- ==== Sys2Proof/Machine/Lines.lean ====
section
/-! DEFINITION. The compressed register store: the forms of register lines (R106) and the chunks in use. -/

namespace Sys2Proof.Machine

/-- The drawer a place stands in. -/
def drawerOf : Place → Option Nat
  | .drawer c d _ => some (8 * c + d)
  | _ => none

/-- The chunks of a register line (Table 5.1): the smallest form whose deltas from lane 0, as signed numbers, hold every lane. -/
def lineChunks (xs : List Word) : Nat :=
  let base := xs.headD 0
  let fits (n : Nat) : Bool := xs.all fun x => decide (-2 ^ (n - 1) ≤ (x - base).toInt ∧ (x - base).toInt < 2 ^ (n - 1))
  if xs.all (· = base) || fits 4 then 1 else if fits 8 then 2 else if fits 16 then 3 else 4

/-- A register line of a bench: the register in the 32 lanes; an empty lane holds its entry value, zero (R101, R106; log
entry 48). -/
def Bench.line (b : Bench) (r : Nat) : List Word :=
  (upto 32).map fun l => match mget? b.threads l with
    | some t => mget 0 t.vregs r
    | none => 0

/-- The chunks a bench's lines take in the store (R106). -/
def Bench.stored (b : Bench) : Nat :=
  sumNat (((upto b.vfoot).filter fun r => !b.spilled.contains r).map fun r => lineChunks (b.line r))

/-- The chunks in use in a drawer's store. -/
def State.chunksOf (s : State) (i : Nat) : Nat :=
  sumNat ((s.benches.filter fun b => drawerOf b.place = some i).map Bench.stored)

end Sys2Proof.Machine
end

