-- ==== Sys2Proof/Machine/Mmio.lean ====
section
/-! DEFINITION. The Bureau's MMIO space (R366 to R368, Tables 14.2, 14.3, 14.10, 14.11; R203, R325, R327, R349): reads and writes of 4 and 8
bytes, and the rows of the opcode table that are such writes. -/

namespace Sys2Proof.Machine

/-- A register of the MMIO map (Table 14.2): unit and offset in its block; none for every other address. -/
inductive MReg where
  | lsu (core off : Nat)
  | sdc (w off : Nat)
  | sdcTotal (off : Nat)
  | ddcfg (w : Nat)
  | ctl (off : Nat)
  | drawer (i off : Nat)
  | err (unit off : Nat)
  | bulletin (mid off : Nat)
  | none
  deriving DecidableEq, Repr

/-- The bits of a word of a bulletin that Table 13.5 names; the others are reserved and read as zero (R3). -/
def bullMask (i : Nat) : DWord :=
  if i = 0 || i = 2 || i = 9 then BitVec.allOnes 64
  else if i = 1 then 0x80000FFFFFFFFFFF
  else if i = 8 then 0xFFFFFFFF80000FFF
  else if 32 ≤ i && i < 416 then (if i % 2 = 0 then BitVec.allOnes 64 else 0xFFF)
  else 0

/-- The 8-byte register that holds a byte address. -/
def mreg (dpa : Nat) : MReg :=
  let a := dpa / 8 * 8
  let o := a - mmioBase
  if a < mmioBase then .none
  else if o < 192 * 4096 then .lsu (o / 4096) (o % 4096)
  else if 2 ^ 32 ≤ o && o < 2 ^ 32 + 256 * 4096 then .sdc ((o - 2 ^ 32) / 4096) (o % 4096)
  else if 2 ^ 32 + 256 * 4096 ≤ o && o < 2 ^ 32 + 257 * 4096 then .sdcTotal (o % 4096)
  else if 2 * 2 ^ 32 ≤ o && o < 2 * 2 ^ 32 + 256 * 4096 && o % 4096 = 0 then .ddcfg ((o - 2 * 2 ^ 32) / 4096)
  else if 3 * 2 ^ 32 ≤ o && o < 3 * 2 ^ 32 + 0x98 then .ctl (o % 4096)
  else if 4 * 2 ^ 32 ≤ o && o < 4 * 2 ^ 32 + 256 * 1536 then .drawer ((o - 4 * 2 ^ 32) / 256) (o % 256)
  else if 5 * 2 ^ 32 ≤ o && o < 5 * 2 ^ 32 + 989 * 4096 then .err ((o - 5 * 2 ^ 32) / 4096) (o % 4096)
  else if 0xFFF0000000 ≤ o && o < 0xFFF0000000 + 2 ^ 24 then .bulletin ((o - 0xFFF0000000) / 4096) (o % 4096)
  else .none

/-! ### Reads -/

/-- A counter of Table 12.3 over the lines that `p` selects. -/
def State.sdcCounter (s : State) (k : SdcCnt) (ws : Nat → Bool) (off : Nat) : DWord :=
  let ls := s.hub.sdc.lines.filter fun x => ws x.world && !x.hss
  let es := (ls.map LLine.ent).dedup
  let n (x : Nat) : DWord := BitVec.ofNat 64 x
  match off with
  | 0x000 => n ls.length
  | 0x008 => n es.length
  | 0x010 => n (es.filter fun e => match mget? s.hub.sdc.ents e with
      | some d => decide (2 ≤ d.refc)
      | none => false).length
  | 0x018 => n (s.vlines fun t => t.state.reads && ws t.world)
  | 0x020 => n (ls.filter fun x => x.upto ≠ none).length
  | 0x028 => k.dhit
  | 0x030 => k.dcoll
  | 0x038 => k.dsat
  | 0x040 => k.snlost
  | 0x048 => k.hspill
  | _ => 0

/-- The value of a register; a value that the spec does not give is free (log entry 4): the adaptive threshold of R105, another module's bulletin. -/
def State.mregRead (s : State) (r : MReg) : DWord × State :=
  let free (f : Nat → DWord) : DWord × State := let (n, s) := s.draw; (f n, s)
  match r with
  | .lsu c off =>
    let k := (s.core c).cnt
    (match off with
      | 0x00 => k.npass
      | 0x08 => k.nrepl
      | 0x10 => k.nbcast
      | 0x18 => k.ppark
      | 0x20 => k.walks
      | _ => 0, s)
  | .sdc w off => (s.sdcCounter (mget SdcCnt.zero s.hub.sdc.cnt w) (fun x => x = w) off, s)
  | .sdcTotal off =>
    let v := s.vlines fun _ => true
    let h := s.hub.sdc.hssl
    match off with
    | 0x50 => (BitVec.ofNat 64 h, s)
    | 0x58 => (BitVec.ofNat 64 (sdcEntries - s.hub.sdc.ents.length - v - h), s)
    | 0x60 => (BitVec.ofNat 64 (sdcLines - (s.hub.sdc.lines.filter fun x => !x.hss).length - v - h), s)
    | _ => (s.sdcCounter s.hub.sdc.tot (fun _ => true) off, s)
  | .ddcfg w => (BitVec.ofNat 64 (mget 2 s.hub.sdc.mode w), s)
  | .ctl off => (s.ctlReg off, s)
  | .drawer i off =>
    let d := mget Drawer.init s.drawers i
    match off with
    | 0x00 => free fun n => BitVec.ofNat 64 n
    | 0x08 => (d.swapout, s)
    | 0x10 => (d.swapin, s)
    | 0x18 => (d.issued, s)
    | 0x20 => (d.spill, s)
    | 0x28 => (d.refill, s)
    | 0x30 => (BitVec.ofNat 64 (s.chunksOf i), s)
    | _ => (0, s)
  | .err u off =>
    let e := mget ErrCnt.zero s.hub.errs u
    (match off with
      | 0x00 => e.corr
      | 0x08 => e.unc
      | 0x10 => e.lastc
      | 0x18 => e.lastu
      | _ => 0, s)
  | .bulletin m off =>
    if m = s.hub.flash.mid then (mget 0 s.hub.lse.bull (off / 8), s) else free fun n => BitVec.ofNat 64 n &&& bullMask (off / 8)
  | .none => (0, s)

/-- An MMIO read of 4 or 8 aligned bytes (R366). -/
def State.mmioRead (s : State) (dpa size : Nat) : DWord × State :=
  let (x, s) := s.mregRead (mreg dpa)
  (if size = 8 then x else BitVec.ofNat 64 (x.toNat / 2 ^ (8 * (dpa % 8)) % 2 ^ 32), s)

/-! ### Writes -/

/-- The bits of a control register that software writes (Table 14.3). -/
def ctlMask (off : Nat) : DWord :=
  match off with
  | 0x00 | 0x18 | 0x28 | 0x30 | 0x38 | 0x80 | 0x88 | 0x90 => 0xFFFFFFFFFFFFFFFF
  | 0x08 => 0xFF000000FFFFFFFF
  | 0x10 => 0xFFFF000000000300
  | 0x20 => 0xFF00
  | 0x40 => 0x300
  | 0x48 => 0xFFFFFFFF
  | 0x50 => 0xFFF00000FF00FF00
  | 0x58 => 0xF
  | 0x60 => 0xFFFFFF
  | _ => 0

/-- Where the status of a command register stands, and the half that starts the command (R367). -/
def cmdStat (off : Nat) : Option (Nat × Bool) :=
  match off with
  | 0x10 => some (0x10, false)
  | 0x18 => some (0x20, true)
  | 0x40 => some (0x40, false)
  | 0x50 => some (0x50, true)
  | _ => none

/-- The STAT byte of a command register. -/
def State.stat (s : State) (off : Nat) : Nat := (s.ctlReg off).toNat % 256
def State.setStat (s : State) (off n : Nat) : State :=
  s.setCtl off ((s.ctlReg off &&& 0xFFFFFFFFFFFFFF00#64) ||| BitVec.ofNat 64 (n % 256))

/-- Bytes `size` at `dpa` of a register take a new value. -/
def mergeWord (old : DWord) (dpa size : Nat) (v : DWord) : DWord :=
  if size = 8 then v
  else if dpa % 8 = 0 then (old &&& 0xFFFFFFFF00000000#64) ||| (v &&& 0xFFFFFFFF#64)
  else (old &&& 0xFFFFFFFF#64) ||| (v <<< 32)

/-- Whether a written command code names a command: QCMD and VCMD 1 and 2, any ARENA and XPEER. -/
def cmdCode (off : Nat) (x : DWord) : Nat := if off = 0x10 || off = 0x40 then bits x.toNat 9 8 else 1

/-- Selects the domain of the classifier readout, and latches its last complete window (R214, R368). -/
def State.selectClass (s : State) (v : DWord) : State :=
  let s := s.setCtl 0x60 (v &&& 0xFFFFFF#64)
  let last := (s.hub.clsf.find? fun c => c.world = bits v.toNat 23 16 ∧ c.domain = v.toNat % 2 ^ 16).bind Cls.last
  let n (x : Nat) : DWord := BitVec.ofNat 64 x
  match last with
  | some (o, b) => ((s.setCtl 0x68 (n o)).setCtl 0x70 (n b)).setCtl 0x78 (if (s.ctlReg 0x48).toNat * b ≤ o then 3 else 2)
  | none => ((s.setCtl 0x68 0).setCtl 0x70 0).setCtl 0x78 1

/-- A write of the control block (R367): arguments are updated; a write that covers a command field starts the command with STAT
0xFF, unless one is in progress. -/
def State.ctlWrite (s : State) (off dpa size : Nat) (v : DWord) : State :=
  let old := s.ctlReg off
  let m := ctlMask off
  let x := (old &&& ~~~ m) ||| (mergeWord old dpa size v &&& m)
  if off = 0x60 then s.selectClass x
  else match cmdStat off with
    | none => s.setCtl off x
    | some (st, high) =>
      if s.stat st = 0xFF then s
      else
        let s := s.setCtl off x
        if size = 8 || decide (dpa % 8 = 4) = high then
          match cmdCode off x with
          | 0 => s
          | 3 => s.setStat st 3
          | _ => s.setStat st 0xFF
        else s

/-- A write of DDCFG (R325): the reserved code leaves MODE unchanged. -/
def State.writeDdcfg (s : State) (w : Nat) (v : DWord) : State :=
  if v.toNat % 4 = 3 then s else s.updSdc fun c => { c with mode := mput 2 c.mode w (v.toNat % 4) }

/-- Clears an event counter of Table 12.3. -/
def SdcCnt.clear (k : SdcCnt) (off : Nat) : SdcCnt :=
  match off with
  | 0x028 => { k with dhit := 0 }
  | 0x030 => { k with dcoll := 0 }
  | 0x038 => { k with dsat := 0 }
  | 0x040 => { k with snlost := 0 }
  | 0x048 => { k with hspill := 0 }
  | _ => k

/-- A write of a register: counters are cleared by any value, read-only registers ignore it. -/
def State.mregWrite (s : State) (r : MReg) (dpa size : Nat) (v : DWord) : State :=
  match r with
  | .lsu c off => s.updCore c fun k => { k with cnt := match off with
      | 0x00 => { k.cnt with npass := 0 }
      | 0x08 => { k.cnt with nrepl := 0 }
      | 0x10 => { k.cnt with nbcast := 0 }
      | 0x18 => { k.cnt with ppark := 0 }
      | 0x20 => { k.cnt with walks := 0 }
      | _ => k.cnt }
  | .sdc w off => s.updSdc fun c => { c with cnt := mupd SdcCnt.zero c.cnt w fun k => k.clear off }
  | .sdcTotal off => s.updSdc fun c => { c with tot := c.tot.clear off }
  | .ddcfg w => if dpa % 8 = 0 then s.writeDdcfg w v else s
  | .ctl off => s.ctlWrite off dpa size v
  | .drawer i off => { s with drawers := mupd Drawer.init s.drawers i fun d => match off with
      | 0x08 => { d with swapout := 0 }
      | 0x10 => { d with swapin := 0 }
      | 0x18 => { d with issued := 0 }
      | 0x20 => { d with spill := 0 }
      | 0x28 => { d with refill := 0 }
      | _ => d }
  | .err u off => { s with hub := { s.hub with errs := mupd ErrCnt.zero s.hub.errs u fun e => match off with
      | 0x00 => { e with corr := 0 }
      | 0x08 => { e with unc := 0 }
      | _ => e } }
  | .bulletin m off =>
    if m = s.hub.flash.mid then
      let (n, s) := s.draw
      { s with hub := { s.hub with lse := { s.hub.lse with bull := mput 0 s.hub.lse.bull (off / 8) (BitVec.ofNat 64 n &&& bullMask (off / 8)) } } }
    else { s with hub := { s.hub with outbox := s.hub.outbox ++ [.bulletin m off v false] } }
  | .none => s

/-- An MMIO write of 4 or 8 aligned bytes (R366). -/
def State.mmioWrite (s : State) (dpa size : Nat) (v : DWord) : State := s.mregWrite (mreg dpa) dpa size v

/-! ### Rows that are MMIO writes -/

/-- R366. Writes a register of the MMIO map. -/
def execMmioRegisterWrite (dpa size : Nat) (v : DWord) (s : State) : Out :=
  .next (if (size = 4 || size = 8) && dpa % size = 0 && dpaKind dpa = .mmio then s.mmioWrite dpa size v else s)

/-- R325. Sets a world's dedup mode; the reserved code changes nothing. -/
def execDdcfgWrite (w : Nat) (v : Word) (s : State) : Out :=
  .next (if w < 256 then s.mmioWrite (mmioBase + 2 * 2 ^ 32 + 4096 * w) 4 (v.setWidth 64) else s)

/-- R203, R327, R368. A write of any value clears a counter. -/
def execCounterClear (dpa : Nat) (s : State) : Out :=
  .next (match mreg dpa with
    | .ctl _ | .ddcfg _ | .bulletin _ _ | .none => s
    | _ => if dpa % 8 = 0 then s.mmioWrite dpa 8 0 else s)

/-- R368. Selects the domain whose classifier counts are reported. -/
def execClassifierSelect (v : Word) (s : State) : Out := .next (s.mmioWrite (mmioBase + 3 * 2 ^ 32 + 0x60) 4 (v.setWidth 64))

end Sys2Proof.Machine
end

