-- ==== Sys2Proof/Machine/Strong.lean ====
section
/-! DEFINITION. World accesses of threads: address operands (R195), the checks of R197 in their order, the pin (R27). -/

namespace Sys2Proof.Machine

/-- The address operand in FB (R195): an even vector register, or the uniform register below an odd index. -/
def rAddr (a : BitVec 7) (n : Nat) : Opnd := ⟨if a.getLsbD 0 then .uni else .vec, a.toNat / 2 * 2, n, false⟩
def addrReg (b : Bench) (t : Thread) (a : BitVec 7) (i : Nat) : Word :=
  if a.getLsbD 0 then b.u t (a.toNat / 2 * 2 + i) else t.v (a.toNat / 2 * 2 + i)
/-- The 64-bit pair of an address or value operand. -/
def addrPair (b : Bench) (t : Thread) (a : BitVec 7) : DWord := ofPair (addrReg b t a 0) (addrReg b t a 1)
/-- A world address with its scaled offset. -/
def worldAddr (b : Bench) (t : Thread) (a i : BitVec 7) (z : Nat) : DWord := addrPair b t a + i.signExtend 64 * BitVec.ofNat 64 z
/-- A scratchpad offset with its scaled offset, modulo 2^32. -/
def spadAddr (b : Bench) (t : Thread) (a i : BitVec 7) (z : Nat) : Word := addrReg b t a 0 + i.signExtend 32 * BitVec.ofNat 32 z

/-- Checks 1, 2 and 4 of R197 for a world access of size `z` (alignment only where asked). -/
def State.access (s : State) (b : Bench) (k : AKind) (va : DWord) (z : Nat) (aligned : Bool) : State × Except AFault Loc :=
  if va.toNat / 2 ^ 56 ≠ 0 then (s, .error ⟨.page, 0, va⟩)
  else if aligned && va.toNat % z ≠ 0 then (s, .error ⟨.align, 0, va⟩)
  else match s.translate (coreIx b.place) b.world k va.toNat with
    | (s, .error (c, sub)) => (s, .error ⟨c, sub, va⟩)
    | (s, .ok loc) => (s, .ok loc)

/-- A plain access: MMIO takes TC_PERM (R366). -/
def State.plainAccess (s : State) (b : Bench) (k : AKind) (va : DWord) (z : Nat) (aligned : Bool) : State × Except AFault Loc :=
  match s.access b k va z aligned with
  | (s, .ok loc) => if dpaKind loc.dpa = .mmio then (s, .error ⟨.perm, 0, va⟩) else (s, .ok loc)
  | r => r

/-- Whether `n` bytes at a WVA lie inside the union of the task's writable regions (R216). -/
def Task.mayStore (t : Task) (va n : Nat) : Bool :=
  (upto n).all fun i => t.regions.any fun r => r.write && r.base ≤ va + i && va + i < r.base + r.size

/-- Reads a plain access of `n` bytes of a task, at most one block at a time, with its checks (R23, R47): used by loads and by
the task unit's reads of a descriptor. -/
def State.plainLoad (s : State) (b : Bench) (l : Nat) (va : DWord) (n : Nat) (aligned : Bool) : State × Except AFault (List Byte) :=
  match s.plainAccess b .load va n aligned with
  | (s, .error f) => (s, .error f)
  | (s, .ok loc) =>
    match s.task? b.task with
    | none => if s.dataError loc.dpa true then (s, .error ⟨.ue, 0, blockVal loc.dpa⟩) else (s.sdcFill loc, .ok (s.readNow loc n))
    | some t =>
      if s.loadError b.place loc t.snap then (s, .error ⟨.ue, 0, blockVal loc.dpa⟩)
      else
        let (bs, s) := (((s.sdcFill loc).cacheFor b.place loc t.snap).noteCheck b.task loc (some ⟨b.place, l⟩)).plainRead t (s.reader ⟨b.place, l⟩) loc n
        (s, .ok bs)

/-! ### Strong accesses -/

/-- A strong access pins its task (R27). -/
def State.pin (s : State) (k : Nat) : State := s.updTask k fun t => { t with pinned := true }

end Sys2Proof.Machine
end

