-- ==== Sys2Proof/Machine/LoadStore.lean ====
section
/-! DEFINITION. Group G10: plain loads and stores (R196, R197, R216), scratchpad accesses in passes (R179, R183), FIFO banks (R184), block tags
(R94), strong loads and stores (R198), the prefetch hint (R200). -/

namespace Sys2Proof.Machine

/-- Words of a load result: zero- or sign-extended below 4 bytes (Table 7.7). -/
def loadWords (signed : Bool) (bs : List Byte) : List Word :=
  match bs.length with
  | 1 | 2 => [if signed then wordInt (sx (8 * bs.length) (leNat bs)) else BitVec.ofNat 32 (leNat bs)]
  | _ => wordsOfBytes bs

/-- The registers a datum of `z` bytes takes (R195). -/
def regsFor (z : Nat) : Nat := (z + 3) / 4

/-- A plain load of one lane (R23, R197). -/
def loadLane (z : Nat) (signed : Bool) (d a i : BitVec 7) (g : Grp) (s : State) (l : Nat) : LaneRes :=
  match s.bench? g.place, s.thread? g.place l with
  | some b, some t =>
    match s.plainLoad b l (worldAddr b t a i z) z true with
    | (s, .error f) => .trap s f.c f.sub f.v
    | (s, .ok bs) => .done (s.outM g.place l d (loadWords signed bs))
  | _, _ => .done s

def plainLd (z : Nat) (signed : Bool) (d a i : BitVec 7) (s : State) : Out :=
  issue s [wV d (regsFor z), rAddr a 2] [] (loadLane z signed d a i)

/-- Of lanes of one store that write the same bytes the highest wins (R181): the stores that lower lanes have just made there are none
of the phase's. `s0` is the state before the instruction. -/
def State.supersede (s0 s : State) (p : Place) (lower : List Nat) (k : Nat) (a n : Nat) : State :=
  if lower.isEmpty then s
  else
    let new := lower.map fun l => let r := s0.reader ⟨p, l⟩; (r.key, mget 0 r.view r.key)
    let keep (e : PStore) : Bool := !new.any fun x => e.key = x.1 && x.2 < e.n
    let drop (h : Map (List PStore)) (j : Nat) : Map (List PStore) :=
      match mget [] h (a + j) with
      | top :: rest => mset h (a + j) (top :: rest.filter keep)
      | [] => h
    s.updTask k fun t => { t with hist := (upto n).foldl drop t.hist }

/-- A plain store of one lane into the task's version (R23, R181, R197, R216), after the lanes `lower`. -/
def storeLane (z : Nat) (d a i : BitVec 7) (s0 : State) (on : List Nat) (g : Grp) (s : State) (l : Nat) : LaneRes :=
  match s.bench? g.place, s.thread? g.place l with
  | some b, some t =>
    let va := worldAddr b t a i z
    match s.plainAccess b .store va z true with
    | (s, .error f) => .trap s f.c f.sub f.v
    | (s, .ok loc) =>
      match s.task? b.task with
      | none => .done s
      | some k =>
        if !k.mayStore va.toNat z then .trap s .undeclared 0 va
        else if s.dataError loc.dpa false then .trap s .ue 0 (blockVal loc.dpa)
        else .done (s0.supersede (s.plainStore ⟨g.place, l⟩ b.task loc ((bytesOfWords (t.vs d (regsFor z))).take z)) g.place
          (on.filter (· < l)) b.task loc.dpa z)
  | _, _ => .done s

def plainSt (z : Nat) (d a i : BitVec 7) (s : State) : Out :=
  issueWith s [rV d (regsFor z), rAddr a 2] [] fun g s on => (s, storeLane z d a i s on g)

/-! ### Scratchpad -/

/-- Distinct elements. -/
def distinct : List Nat → List Nat
  | [] => []
  | x :: xs => if (distinct xs).contains x then distinct xs else x :: distinct xs

/-- Passes of one sub-group (R179): the most distinct words in one logical bank. -/
def subPasses (n : Nat) (key : Word) (ws : List Nat) : Nat :=
  let bs := (distinct ws).map fun w => (locate n key (4 * w)).1
  maxNat (bs.map fun b => (bs.filter fun c => c = b).length)

/-- Passes, replays and merged lanes of an access of `z` words per lane (R179): `xs` lists the lanes that access, with their
first words. -/
def passesOf (n : Nat) (key : Word) (z : Nat) (xs : List (Nat × Nat)) : Nat × Nat × Nat :=
  (upto z).foldl (fun (acc : Nat × Nat × Nat) q =>
    let mine := xs.filter fun p => p.1 / (32 / z) = q
    if mine.isEmpty then acc
    else
      let ws := mine.flatMap fun p => (upto z).map fun k => p.2 + k
      let np := subPasses n key ws
      let firsts := mine.map fun p => p.2
      (acc.1 + np, acc.2.1 + (np - 1), acc.2.2 + (firsts.length - (distinct firsts).length))) (0, 0, 0)

/-- Checks 2 and 3 of R197, then presence (R183): the fault, the absent block, or the access goes on. -/
inductive SpChk where
  | fault (f : AFault)
  | absent (blk : Nat)
  | go
  deriving DecidableEq, Repr

def State.spadCheck (s : State) (cix w : Nat) (x : Word) (z : Nat) : SpChk :=
  if x.toNat % z ≠ 0 then .fault ⟨.align, 0, x.setWidth 64⟩
  else if s.spadSize cix w ≤ x.toNat then .fault ⟨.worldfence, 0, x.setWidth 64⟩
  else if s.pres cix w (x.toNat / 64) ≠ 0 then .absent (x.toNat / 64)
  else .go

/-- The same for a read: one of a marked block takes TC_UE (R331), which its sub-code tells from one of world memory until it is
resolved. -/
def State.spadReadCheck (s : State) (cix w : Nat) (x : Word) (z : Nat) : SpChk :=
  match s.spadCheck cix w x z with
  | .go => if s.spadMarked cix w x.toNat z then .fault ⟨.ue, 1, BitVec.ofNat 64 (x.toNat / 64 * 64)⟩ else .go
  | r => r

/-- A thread parks on an absent block (R183), counted once (R203). -/
def State.parkAbsent (s : State) (p : Place) (l blk : Nat) : LaneRes :=
  let again : Bool := match s.thread? p l with
    | some t => decide (t.polled = some (.absent blk))
    | none => true
  let s := if again then s
    else s.updCore (coreIx p) fun c => { c with cnt := { c.cnt with ppark := c.cnt.ppark + 1 } }
  .poll s (.absent blk)

/-- Counts the passes of a scratchpad access by the lanes that are performed (R179, R203); `addr` gives a lane's offset. -/
def State.countPasses (s : State) (g : Grp) (on : List Nat) (z : Nat) (addr : Bench → Thread → Word) : State :=
  match s.bench? g.place with
  | none => s
  | some b =>
    let cix := coreIx g.place
    if 192 ≤ cix then s
    else
      let xs := on.filterMap fun l => (mget? b.threads l).bind fun t =>
        let x := addr b t
        if s.spadCheck cix b.world x (4 * z) = .go then some (l, x.toNat / 4) else none
      let n := ((s.core cix).banksOf b.world .spad).length
      let r := passesOf n b.spkey z xs
      s.updCore cix fun c => { c with cnt := { c.cnt with
        npass := c.cnt.npass + BitVec.ofNat 64 r.1, nrepl := c.cnt.nrepl + BitVec.ofNat 64 r.2.1,
        nbcast := c.cnt.nbcast + BitVec.ofNat 64 r.2.2 } }

/-- Whether an access may be performed later than it is issued: never one to leased memory, which the lender performs or that waits at its
issue (R346; log entry 116). -/
def State.mayDefer (s : State) (loc : Loc) : Bool := s.late && dpaKind loc.dpa ≠ .window && !s.leased (loc.dpa / 64)

/-- An access of a lane as a late one (R20, R34): to scratchpad, or to world memory at an executing place. -/
def spadLate (s : State) (g : Grp) (l : Nat) (b : Bench) (x : Word) (n : Nat) (op : LateOp) : Late :=
  { id := 0, who := ⟨g.place, l⟩, task := b.task, ins := s.nextLate, at_ := .home, scope := 0,
    loc := .spad (coreIx g.place) b.world b.spkey x.toNat, n := n, op := op, rel := false, rec_ := none }
def worldLate (s : State) (g : Grp) (l : Nat) (b : Bench) (at_ : SPlace) (scope : Nat) (loc : Loc) (n : Nat) (op : LateOp)
    (rel : Bool) (r : Option RelRec) : Late :=
  { id := 0, who := ⟨g.place, l⟩, task := b.task, ins := s.nextLate, at_ := at_, scope := scope, loc := .world loc, n := n, op := op,
    rel := rel, rec_ := r }

/-- A scratchpad load. -/
def spadLd (z : Nat) (d a i : BitVec 7) (s : State) : Out :=
  issueWith s [wV d (z / 4), rAddr a 1] [] fun g s on =>
    (s.countPasses g on (z / 4) fun b t => spadAddr b t a i z, fun s l =>
      match s.bench? g.place, s.thread? g.place l with
      | some b, some t =>
        let x := spadAddr b t a i z
        match s.spadReadCheck (coreIx g.place) b.world x z with
        | .fault f => .trap s f.c f.sub f.v
        | .absent blk => s.parkAbsent g.place l blk
        | .go =>
          let y := spadLate s g l b x z (.load (t.wb + d.toNat))
          if s.late then .done (s.defer y)
          else
            let (ws, s) := (s.performIf (·.holds y)).spadLoads (coreIx g.place) b.world b.spkey x.toNat b.task (z / 4)
            .done (s.outV g.place l d ws)
      | _, _ => .done s)

/-- A scratchpad store; of lanes that write one byte the highest wins (R181). -/
def spadSt (z : Nat) (d a i : BitVec 7) (s : State) : Out :=
  issueWith s [rV d (z / 4), rAddr a 1] [] fun g s on =>
    (s.countPasses g on (z / 4) fun b t => spadAddr b t a i z, fun s l =>
      match s.bench? g.place, s.thread? g.place l with
      | some b, some t =>
        let x := spadAddr b t a i z
        match s.spadCheck (coreIx g.place) b.world x z with
        | .fault f => .trap s f.c f.sub f.v
        | .absent blk => s.parkAbsent g.place l blk
        | .go =>
          let ws := t.vs d (z / 4)
          let y := spadLate s g l b x z (.store (bytesOfWords ws))
          if s.late then .done (s.defer y)
          else .done (((s.performIf (·.holds y)).spadStores (coreIx g.place) b.world b.spkey x.toNat ws b.task).noteWrite
            .home (spadName (coreIx g.place) x.toNat) z false none)
      | _, _ => .done s)

/-! ### FIFO banks (R184) -/

/-- The physical bank of FIFO `q` of a world, if there is one. -/
def State.fifoBank (s : State) (cix w q : Nat) : Option Nat := ((s.core cix).banksOf w .fifo)[q]?

/-! ### Strong loads and stores (R198) -/

/-- The checks of a strong access: R197 with natural alignment, then data errors, the wait for a line that its lender has not given (R346), and of a write, which changes part of a block, the MAC
of that block (R373); MMIO is reached here only (R366). -/
def State.strongAccess (s : State) (b : Bench) (l : Nat) (k : AKind) (va : DWord) (z : Nat) (rd : Bool) : State × Except AFault Loc :=
  match s.access b k va z true with
  | (s, .error f) => (s, .error f)
  | (s, .ok loc) =>
    if dpaKind loc.dpa = .mmio then (s, .ok loc)
    else if s.dataError loc.dpa rd then (s, .error ⟨.ue, 0, blockVal loc.dpa⟩)
    else if !rd && s.macBad loc then (s, .error ⟨.integrity, 0, blockVal loc.dpa⟩)
    else if s.lineAway (loc.dpa / 64) then (s, .error ⟨.lease, waitSub, va⟩)
    else (if rd then s.noteCheck b.task loc (some ⟨b.place, l⟩) else s, .ok loc)

/-- Order field: release, acquire (R32). -/
def ordRel (o : BitVec 2) : Bool := o.getLsbD 1
def ordAcq (o : BitVec 2) : Bool := o.getLsbD 0

/-- A strong load of each lane (R198). -/
def strongLd (z : Nat) (d a : BitVec 7) (o : BitVec 2) (h : BitVec 3) (s : State) : Out :=
  issue s [wV d (z / 4), rAddr a 2] [] fun g s l =>
    match s.bench? g.place, s.thread? g.place l with
    | some b, some t =>
      let va := addrPair b t a
      match s.strongAccess b l .load va z true with
      | (s, .error f) => .trap s f.c f.sub f.v
      | (s, .ok loc) =>
        let s := s.pin b.task
        let at_ := s.strongAt g.place t h.toNat
        if dpaKind loc.dpa = .mmio then
          let (x, s) := s.mmioRead loc.dpa z
          let s := if ordAcq o then s.acquire at_ else s
          .done (s.outM g.place l d ([loWord x, hiWord x].take (z / 4)))
        else
          let y := worldLate s g l b at_ h.toNat loc z (.load (t.wb + d.toNat)) false none
          if s.mayDefer loc && !ordAcq o then .done (s.defer y)
          else
            let (bs, s) := (s.performIf (·.holds y)).strongRead g.place at_ loc z
            let s := s.noteLoad ⟨g.place, l⟩ at_ h.toNat loc z t.grp (ordAcq o)
            let s := if ordAcq o then s.acquire at_ else s
            .done (s.outM g.place l d (wordsOfBytes bs))
    | _, _ => .done s

/-- A strong store of each lane (R198); a release at fabric scope waits until the lenders have the lines it pushes (R34, R45). -/
def strongSt (z : Nat) (d a : BitVec 7) (o : BitVec 2) (h : BitVec 3) (s : State) : Out :=
  issue s [rV d (z / 4), rAddr a 2] [] fun g s l =>
    match s.bench? g.place, s.thread? g.place l with
    | some b, some t =>
      let va := addrPair b t a
      match s.strongAccess b l .store va z false with
      | (s, .error f) => .trap s f.c f.sub f.v
      | (s, .ok loc) =>
        if s.unchecked b.task then .poll s .engine
        else
          let s := s.pin b.task
          let at_ := s.strongAt g.place t h.toNat
          let bs := bytesOfWords (t.vs d (z / 4))
          let y := worldLate s g l b at_ h.toNat loc z (.store bs) (ordRel o) (t.relRec g.place at_ h.toNat loc z (ordRel o))
          if dpaKind loc.dpa = .mmio then
            let s := if ordRel o then (s.performFor ⟨g.place, l⟩).release g.place at_ else s
            .done (s.mmioWrite loc.dpa z (BitVec.ofNat 64 (leNat bs)))
          else if s.mayDefer loc && !(ordRel o && at_ = .fabric) then .done (s.defer y)
          else
            let s := s.performIf (·.holds y)
            let s := if ordRel o then s.release g.place at_ else s
            if ordRel o && at_ = .fabric && s.awaitsLender then .poll s .engine else .done (s.performOp y)
    | _, _ => .done s

/-- R196. Plain load of a zero-extended byte. -/
def execLd8 (d a i : BitVec 7) (s : State) : Out :=
  plainLd 1 false d a i s

/-- R196. Plain load of a sign-extended byte. -/
def execLd8s (d a i : BitVec 7) (s : State) : Out :=
  plainLd 1 true d a i s

/-- R196. Plain load of a zero-extended halfword. -/
def execLd16 (d a i : BitVec 7) (s : State) : Out :=
  plainLd 2 false d a i s

/-- R196. Plain load of a sign-extended halfword. -/
def execLd16s (d a i : BitVec 7) (s : State) : Out :=
  plainLd 2 true d a i s

/-- R196. Plain load of a word. -/
def execLd32 (d a i : BitVec 7) (s : State) : Out :=
  plainLd 4 false d a i s

/-- R196. Plain load of a pair. -/
def execLd64 (d a i : BitVec 7) (s : State) : Out :=
  plainLd 8 false d a i s

/-- R196. Plain load of a quad. -/
def execLd128 (d a i : BitVec 7) (s : State) : Out :=
  plainLd 16 false d a i s

/-- R196. Plain store of 1 byte into the task's version. -/
def execSt8 (d a i : BitVec 7) (s : State) : Out :=
  plainSt 1 d a i s

/-- R196. Plain store of 2 bytes into the task's version. -/
def execSt16 (d a i : BitVec 7) (s : State) : Out :=
  plainSt 2 d a i s

/-- R196. Plain store of 4 bytes into the task's version. -/
def execSt32 (d a i : BitVec 7) (s : State) : Out :=
  plainSt 4 d a i s

/-- R196. Plain store of 8 bytes into the task's version. -/
def execSt64 (d a i : BitVec 7) (s : State) : Out :=
  plainSt 8 d a i s

/-- R196. Plain store of 16 bytes into the task's version. -/
def execSt128 (d a i : BitVec 7) (s : State) : Out :=
  plainSt 16 d a i s

/-- R196. Scratchpad load of 4 bytes. -/
def execLs32 (d a i : BitVec 7) (s : State) : Out :=
  spadLd 4 d a i s

/-- R196. Scratchpad load of 8 bytes. -/
def execLs64 (d a i : BitVec 7) (s : State) : Out :=
  spadLd 8 d a i s

/-- R196. Scratchpad load of 16 bytes. -/
def execLs128 (d a i : BitVec 7) (s : State) : Out :=
  spadLd 16 d a i s

/-- R196. Scratchpad store of 4 bytes. -/
def execSs32 (d a i : BitVec 7) (s : State) : Out :=
  spadSt 4 d a i s

/-- R196. Scratchpad store of 8 bytes. -/
def execSs64 (d a i : BitVec 7) (s : State) : Out :=
  spadSt 8 d a i s

/-- R196. Scratchpad store of 16 bytes. -/
def execSs128 (d a i : BitVec 7) (s : State) : Out :=
  spadSt 16 d a i s

/-- R184. Pops the oldest row of a FIFO bank: each executing lane takes its word. -/
def execLq (q : BitVec 4) (d : BitVec 7) (s : State) : Out :=
  issueOnce s [wV d] fun s g _ on =>
    match s.bench? g.place with
    | none => .done s
    | some b =>
      match s.fifoBank (coreIx g.place) b.world q.toNat with
      | none => .trap s .worldfence 0 (q.setWidth 64)
      | some bank =>
        match mget [] (s.core (coreIx g.place)).fifos bank with
        | [] => .poll s (.fifo bank)
        | row :: rest =>
          let s := s.updCore (coreIx g.place) fun c => { c with fifos := mput [] c.fifos bank rest }
          .done (on.foldl (fun s l => s.outV g.place l d [nth 0 row l]) s)

/-- R184. Pushes one row into a FIFO bank: the words of the executing lanes, 0 elsewhere. -/
def execSq (q : BitVec 4) (a : BitVec 7) (s : State) : Out :=
  issueOnce s [rV a] fun s g _ on =>
    match s.bench? g.place with
    | none => .done s
    | some b =>
      match s.fifoBank (coreIx g.place) b.world q.toNat with
      | none => .trap s .worldfence 0 (q.setWidth 64)
      | some bank =>
        let rows := mget [] (s.core (coreIx g.place)).fifos bank
        if 512 ≤ rows.length then .poll s (.full bank)
        else
          let row : List Word := (upto 32).map fun l => match mget? b.threads l with
            | some t => if on.contains l then t.v a.toNat else 0
            | none => 0
          .done (s.updCore (coreIx g.place) fun c => { c with fifos := mput [] c.fifos bank (rows ++ [row]) })

/-- R196. Reads the block tag of the block of an address. -/
def execLtag (d a i : BitVec 7) (s : State) : Out :=
  issue s [wV d, rAddr a 2] [] fun g s l =>
    match s.bench? g.place, s.thread? g.place l with
    | some b, some t =>
      match s.plainAccess b .load (worldAddr b t a i 64) 64 false with
      | (s, .error f) => .trap s f.c f.sub f.v
      | (s, .ok loc) =>
        if s.dataError loc.dpa false then .trap s .ue 0 (blockVal loc.dpa)
        else match s.task? b.task with
          | none => .done s
          | some k =>
            let (x, s) := (s.noteCheck b.task loc (some ⟨g.place, l⟩)).plainTag k (s.reader ⟨g.place, l⟩) loc
            .done (s.outM g.place l d [x.setWidth 32])
    | _, _ => .done s

/-- R196. Writes the block tag of the block of an address, as a plain store of its 64 bytes (R94, R216). -/
def execStag (d a i : BitVec 7) (s : State) : Out :=
  issue s [rV d, rAddr a 2] [] fun g s l =>
    match s.bench? g.place, s.thread? g.place l with
    | some b, some t =>
      let va := worldAddr b t a i 64
      match s.plainAccess b .store va 64 false with
      | (s, .error f) => .trap s f.c f.sub f.v
      | (s, .ok loc) =>
        match s.task? b.task with
        | none => .done s
        | some k =>
          if !k.mayStore (va.toNat / 64 * 64) 64 then .trap s .undeclared 0 va
          else if s.retired.contains (loc.dpa / 65536) then .trap s .ue 0 (blockVal loc.dpa)
          else .done (s.plainTagStore ⟨g.place, l⟩ b.task loc ((t.v d.toNat).setWidth 16))
    | _, _ => .done s

/-- R198. Strong 32-bit load at a scope and order. -/
def execLda32 (d a : BitVec 7) (o : BitVec 2) (h : BitVec 3) (s : State) : Out :=
  strongLd 4 d a o h s

/-- R198. Strong 64-bit load at a scope and order. -/
def execLda64 (d a : BitVec 7) (o : BitVec 2) (h : BitVec 3) (s : State) : Out :=
  strongLd 8 d a o h s

/-- R198. Strong 32-bit store at a scope and order. -/
def execSta32 (d a : BitVec 7) (o : BitVec 2) (h : BitVec 3) (s : State) : Out :=
  strongSt 4 d a o h s

/-- R198. Strong 64-bit store at a scope and order. -/
def execSta64 (d a : BitVec 7) (o : BitVec 2) (h : BitVec 3) (s : State) : Out :=
  strongSt 8 d a o h s

/-- R200. Prefetch hint: it changes no value and never faults. -/
def execPref (a _i : BitVec 7) (s : State) : Out :=
  issue s [rAddr a 2] [] fun _ s _ => .done s

end Sys2Proof.Machine
end

