-- ==== Sys2Proof/Machine/Atomics.lean ====
section
/-! DEFINITION. Group G11: atomics (R54, R201) and the ordering instructions FENCE, FENCEX, PHASE and IFENCE (R36, R39, R42, R202, R218). -/

namespace Sys2Proof.Machine

/-- The size in bytes of the attribute word. -/
def atomBytes (t : AtomAttr) : Nat := if t.size.getLsbD 0 then 8 else 4

/-- The value of a register operand of an atomic. -/
def atomVal (t : Thread) (f : BitVec 7) (n : Nat) : Nat := leNat (bytesOfWords (t.vs f (n / 4)))

/-- A scratchpad atomic of one lane: on the words of its location, after presence (R183, R201). -/
def atomSpad (f : AtomOp) (d a b : BitVec 7) (t : AtomAttr) (g : Grp) (s : State) (l : Nat) : LaneRes :=
  match s.bench? g.place, s.thread? g.place l with
  | some bn, some th =>
    let n := atomBytes t
    let x := addrReg bn th a 0 + t.ofs.signExtend 32
    match s.spadReadCheck (coreIx g.place) bn.world x n with
    | .fault e => .trap s e.c e.sub e.v
    | .absent blk => s.parkAbsent g.place l blk
    | .go =>
      if s.unchecked bn.task then .poll s .engine
      else
        let s := s.pin bn.task
        let sc := Nat.min t.scope.toNat 2
        let at_ := spadName (coreIx g.place) x.toNat
        let y := { (spadLate s g l bn x n (.rmw f (atomVal th b n) (atomVal th t.cmp n) (if t.ret then some (th.wb + d.toNat) else none))) with
          scope := sc, rec_ := th.relRec g.place .home sc at_ n (ordRel t.ord) }
        if s.late && t.ord.toNat = 0 then .done (s.defer y)
        else
          let s := s.performIf fun z => z.holds { y with rel := ordRel t.ord }
          let (ws, s) := s.spadLoads (coreIx g.place) bn.world bn.spkey x.toNat bn.task (n / 4)
          let s := s.noteLoad ⟨g.place, l⟩ .home sc at_ n th.grp (ordAcq t.ord)
          let new := wordsOfBytes (natLe n (f.fn (8 * n) (leNat (bytesOfWords ws)) (atomVal th b n) (atomVal th t.cmp n)))
          let s := (s.spadStores (coreIx g.place) bn.world bn.spkey x.toNat new bn.task).noteWrite .home at_ n true
            (s.owing { y with rel := ordRel t.ord })
          .done (if t.ret then s.outV g.place l d ws else s)
  | _, _ => .done s

/-- A world atomic of one lane: one read-modify-write at its executing place (R33, R201). -/
def atomWorld (f : AtomOp) (d a b : BitVec 7) (t : AtomAttr) (g : Grp) (s : State) (l : Nat) : LaneRes :=
  match s.bench? g.place, s.thread? g.place l with
  | some bn, some th =>
    let n := atomBytes t
    let va := addrPair bn th a + t.ofs.signExtend 64
    let s0 := s
    match s.strongAccess bn l .store va n true with
    | (s, .error e) => .trap s e.c e.sub e.v
    | (s, .ok loc) =>
      if dpaKind loc.dpa = .mmio then .trap s .perm 0 va
      else if s0.unchecked bn.task then .poll s0 .engine
      else match s0.endChecks s with
      | .error v => .trap s .integrity 0 v
      | .ok s =>
        let s := s.pin bn.task
        let at_ := s.strongAt g.place th t.scope.toNat
        let r : TRef := ⟨g.place, l⟩
        let y := worldLate s g l bn at_ t.scope.toNat loc n
          (.rmw f (atomVal th b n) (atomVal th t.cmp n) (if t.ret then some (th.wb + d.toNat) else none)) (ordRel t.ord)
          (th.relRec g.place at_ t.scope.toNat loc n (ordRel t.ord))
        if s.mayDefer loc && t.ord.toNat = 0 then .done (s.defer y)
        else
          let s := s.performIf (·.holds y)
          let s := if ordRel t.ord then s.release g.place at_ else s
          if ordRel t.ord && at_ = .fabric && s.awaitsLender then .poll s .engine else
          let (old, s) := s.strongRead g.place at_ loc n
          let s := s.noteLoad r at_ t.scope.toNat loc n th.grp (ordAcq t.ord)
          let s := (s.strongWrite g.place at_ loc (natLe n (f.fn (8 * n) (leNat old) (atomVal th b n) (atomVal th t.cmp n)))).noteWrite
            at_ loc n true (s.owing y)
          let s := if ordAcq t.ord then s.acquire at_ else s
          .done (if t.ret then s.outM g.place l d (wordsOfBytes old) else s)
  | _, _ => .done s

/-- An atomic (R201): its lanes in ascending order, scratchpad ones in passes (R179). -/
def atomic (f : AtomOp) (cas : Bool) (d a b : BitVec 7) (t : AtomAttr) (s : State) : Out :=
  let n := atomBytes t / 4
  let ops := (if t.ret then [wV d n] else []) ++ [rAddr a (if t.space then 1 else 2), rV b n] ++ (if cas then [rV t.cmp n] else [])
  if t.space then
    issueWith s ops [] fun g s on =>
      let waits : Bool := match s.bench? g.place with
        | some bn => s.unchecked bn.task
        | none => false
      (if waits then s else s.countPasses g on n fun bn th => addrReg bn th a 0 + t.ofs.signExtend 32, atomSpad f d a b t g)
  else issue s ops [] (atomWorld f d a b t)

/-- R201. Atomic add. -/
def execAadd (d a b : BitVec 7) (t : AtomAttr) (s : State) : Out :=
  atomic .add false d a b t s

/-- R201. Atomic signed minimum. -/
def execAmin (d a b : BitVec 7) (t : AtomAttr) (s : State) : Out :=
  atomic .min false d a b t s

/-- R201. Atomic signed maximum. -/
def execAmax (d a b : BitVec 7) (t : AtomAttr) (s : State) : Out :=
  atomic .max false d a b t s

/-- R201. Atomic unsigned minimum. -/
def execAminu (d a b : BitVec 7) (t : AtomAttr) (s : State) : Out :=
  atomic .minu false d a b t s

/-- R201. Atomic unsigned maximum. -/
def execAmaxu (d a b : BitVec 7) (t : AtomAttr) (s : State) : Out :=
  atomic .maxu false d a b t s

/-- R201. Atomic AND. -/
def execAand (d a b : BitVec 7) (t : AtomAttr) (s : State) : Out :=
  atomic .and false d a b t s

/-- R201. Atomic OR. -/
def execAor (d a b : BitVec 7) (t : AtomAttr) (s : State) : Out :=
  atomic .or false d a b t s

/-- R201. Atomic XOR. -/
def execAxor (d a b : BitVec 7) (t : AtomAttr) (s : State) : Out :=
  atomic .xor false d a b t s

/-- R201. Atomic exchange. -/
def execAxchg (d a b : BitVec 7) (t : AtomAttr) (s : State) : Out :=
  atomic .xchg false d a b t s

/-- R201. Atomic compare-and-swap. -/
def execAcas (d a b : BitVec 7) (t : AtomAttr) (s : State) : Out :=
  atomic .cas true d a b t s

/-- R201. Atomic FP32 add rounded to nearest. -/
def execAfadd (d a b : BitVec 7) (t : AtomAttr) (s : State) : Out :=
  atomic .fadd false d a b t s

/-- R201. Atomic FP32 maximum ignoring NaN. -/
def execAfmax (d a b : BitVec 7) (t : AtomAttr) (s : State) : Out :=
  atomic .fmax false d a b t s

/-- R201. Atomic wrapping increment. -/
def execAinc (d a b : BitVec 7) (t : AtomAttr) (s : State) : Out :=
  atomic .inc false d a b t s

/-- R201. Atomic wrapping decrement. -/
def execAdec (d a b : BitVec 7) (t : AtomAttr) (s : State) : Out :=
  atomic .dec false d a b t s

/-- R36. Orders strong and scratchpad accesses at a scope: the kinds REL, AR and SC push as a release (R34, R202), the kinds ACQ, AR and
SC acquire. The accesses it orders that are not performed yet are performed: the loads for ACQ and AR, all for SC; the push of REL and
AR may itself come later, after every earlier access and before every later store (Table 2.3). At fabric scope it waits until the lenders have the lines it pushes (R45). -/
def execFence (k : BitVec 2) (h : BitVec 3) (s : State) : Out :=
  issue s [] [] fun g s l => match s.thread? g.place l, s.bench? g.place with
    | some t, some b =>
      let r : TRef := ⟨g.place, l⟩
      let at_ := s.strongAt g.place t h.toNat
      let rec_ : RelRec := { dpa := 0, n := 0, at_ := at_, scope := h.toNat, who := g.place, grp := t.grp, view := t.view, owed := [] }
      let rel (s : State) : State := s.updThread g.place l fun t => { t with frel := some rec_ }
      let acq (s : State) : State :=
        ((s.payOwed (t.facq.filter fun x => x.syncs h.toNat g.place t.grp)).acquire at_).updThread g.place l fun t =>
          { t with view := (t.facq.filter fun x => x.syncs h.toNat g.place t.grp).foldl (fun v x => v.join x.view) t.view, facq := [] }
      let early (s : State) : State := if k.toNat = 1 then s else s.performIf fun x => x.who = r && x.loads
      match k.toNat with
      | 0 => .done (acq (early s))
      | 3 =>
        let w := (s.performFor r).release g.place at_
        if at_ = .fabric && w.awaitsLender then .poll w .engine else .done (acq (rel w))
      | _ =>
        let end_ (s : State) : LaneRes := .done (if k.toNat = 1 then rel s else acq (rel s))
        let w := ((early s).performFor r).release g.place at_
        if at_ = .fabric && w.awaitsLender then .poll w .engine
        else if s.late && at_ ≠ .fabric then
          let s := early s
          end_ (s.defer { (worldLate s g l b at_ h.toNat ⟨0, 0, 0, false⟩ 0 .fence false none) with loc := .fence })
        else end_ w
    | _, _ => .done s

/-- R39. Every earlier generic-path scratchpad store is performed in its bank. -/
def execFencex (s : State) : Out :=
  issue s [] [] fun g s _ => .done ((s.performSpad (coreIx g.place)).settleSpad (coreIx g.place))

/-- R218. The thread parks until every live thread of its task has parked at PHASE; the task unit then commits the phase
(PHASE_COMMIT). -/
def execPhase (s : State) : Out :=
  issue s [] [] fun g s l => .ok (s.settleLane g.place l) none fun t => { t with atStop := false, wait := .phase }

/-- R42. Later fetches of the thread see the words of its snapshot. -/
def execIfence (s : State) : Out :=
  issue s [] [] fun g s _ =>
    let k := match s.bench? g.place with
      | some b => b.task
      | none => 0
    .ok s none fun t => { t with fetchEp := s.snapOf k }

end Sys2Proof.Machine
end

