-- ==== Sys2Proof/Machine/Barriers.lean ====
section
/-! DEFINITION. Groups and barrier slots of G12: GNEW to GMASK (R108, R223, R224), BARR to BDONE and BQRY (R222, R226, R227). -/

namespace Sys2Proof.Machine

/-- The physical slot a barrier instruction names (R222): the task's own slots, physical ones for world 0; the fault else. -/
def State.slotOf (s : State) (b : Bench) (g : Grp) (n : BitVec 6) (e : BitVec 2) : Except (Cause × DWord) (Node × Nat) :=
  let nd := nodeOf g.place e.toNat
  if b.world = 0 then .ok (nd, n.toNat)
  else if e.toNat = 2 then .error (.priv, wordVal g.w g.w2)
  else
    let own : List Nat := match s.task? b.task with
      | none => []
      | some t => if e.toNat = 0 then ((t.coreSlots.find? fun p => p.1 = coreIx g.place).map Prod.snd).getD [] else t.cluSlots
    match own[n.toNat]? with
    | some i => .ok (nd, i)
    | none => .error (.barovf, n.setWidth 64)

/-- The physical slot of a core slot that an engine's work names (R254, R284): one of the task's own, below its NCB. -/
def State.engSlot (s : State) (b : Bench) (g : Grp) (n : Nat) : Except (Cause × DWord) Nat :=
  let own := ((s.task? b.task).bind fun t => t.coreSlots.find? fun p => p.1 = coreIx g.place).map Prod.snd
  match (own.getD [])[n]? with
  | some i => .ok i
  | none => .error (.barovf, BitVec.ofNat 64 n)

/-- The executing place of the scope of a slot (R35). -/
def slotScope (p : Place) : Node → SPlace
  | .core _ => .copy (.core (coreIx p))
  | .cluster _ => .copy (.cluster (clusterOf p))
  | .device => .home

/-- The value register of a barrier instruction. -/
def valOpnd (v : BitVec 7) (u : Bool) (n : Nat) (write : Bool) : Opnd := ⟨if u then .uni else .vec, v.toNat, n, write⟩
def valReg (b : Bench) (t : Thread) (v : BitVec 7) (u : Bool) : Word := if u then b.u t v.toNat else t.v v.toNat
def State.outVal (s : State) (p : Place) (l : Nat) (v : BitVec 7) (u : Bool) (ws : List Word) : State :=
  if u then s.outU p l [l] v ws else s.outV p l v ws

/-- A barrier instruction: its slot resolved per executing thread, then `body`. -/
def barrier (ops : List Opnd) (n : BitVec 6) (e : BitVec 2) (s : State)
    (body : Grp → State → Nat → Bench → Thread → Node → Nat → LaneRes) : Out :=
  issue s ops [] fun g s l =>
    match s.bench? g.place, s.thread? g.place l with
    | some b, some t =>
      match s.slotOf b g n e with
      | .error (c, v) => .trap s c 0 v
      | .ok (nd, i) => body g s l b t nd i
    | _, _ => .done s

/-- The arrival of BARR and BSYNC: a release at the slot's scope, then arrive() (R35, R227). BSYNC's arrival that completes the
generation returns at once, with the acquire. -/
def arriveLane (n : BitVec 6) (v : BitVec 7) (r u : Bool) (wait : Bool) (g : Grp) (s : State) (l : Nat) (nd : Node) (i : Nat) : LaneRes :=
  match ((s.performFor ⟨g.place, l⟩).release g.place (slotScope g.place nd)).arrive nd i ⟨g.place, l⟩ with
  | none => .trap s .barovf 0 (n.setWidth 64)
  | some (gen, s) =>
    let s := if r then s.outVal g.place l v u [BitVec.ofNat 32 gen] else s
    if wait && (s.slot nd i).gen = gen then .ok s none fun t => { t with wait := .barrier nd i gen }
    else .done (if wait then s.updThread g.place l fun t => { t with view := t.view.join (s.slot nd i).done } else s)

/-- A GJOIN that is accepted (R224): slots of the new group with an open generation hold the thread; the others count it at
once (log entry 21). -/
def State.joinGroup (s : State) (r : TRef) (h : Word) : State :=
  let s := s.departFor r
  let mine := s.slotsFor h r
  let held := mine.filterMap fun (nd, i) => let x := s.slot nd i; if x.isOpen then some (nd, i, x.gen) else none
  let s := s.updThread r.place r.lane fun t =>
    if held.isEmpty then { t with grp := h, left := false } else { t with wait := .join h held }
  s.recount h

/-- R223. Creates an empty group: a free record of the issuing thread's cluster. -/
def execGnew (d : BitVec 7) (s : State) : Out :=
  issueOnce s [wV d] fun s g _ on =>
    let clu := clusterOf g.place
    let used := (s.groups.filter fun x => x.clu = clu).map Group.recd
    match (upto 512).filter fun i => !used.contains i with
    | [] => .trap s .grouplimit 0 0
    | r :: _ =>
      let k := match s.bench? g.place with
        | some b => b.task
        | none => 0
      let new : Group := { clu := clu, recd := r, serial := s.serial, task := k }
      .done ({ s with groups := new :: s.groups, serial := s.serial + 1 }.outAll g.place on d [groupHandle new])

/-- R223. Leaves the current group and joins another. -/
def execGjoin (a : BitVec 7) (s : State) : Out :=
  issue s [rV a] [] fun g s l => match s.thread? g.place l with
    | none => .done s
    | some t =>
      let h := t.v a.toNat
      match s.groups.find? fun x => groupHandle x = h with
      | none => .trap s .grouplimit 0 0
      | some x =>
        let m := (s.allThreads.filter fun e => e.2.counts h).length + (if t.counts h then 0 else 1)
        if 24576 < m || x.clu ≠ clusterOf g.place then .trap s .grouplimit 0 (BitVec.ofNat 64 m)
        else .ok (s.joinGroup ⟨g.place, l⟩ h) none id

/-- R223. Leaves the current group. -/
def execGleave (s : State) : Out :=
  issue s [] [] fun g s l => .done (s.leaveGroup ⟨g.place, l⟩)

/-- R223. Frees a group record if it has no members. -/
def execGfree (d a : BitVec 7) (s : State) : Out :=
  issue s [wV d, rV a] [] fun g s l => match s.thread? g.place l with
    | none => .done s
    | some t =>
      let h := t.v a.toNat
      if !s.groupLive h then .done (s.outV g.place l d [2])
      else if 0 < s.members h then .done (s.outV g.place l d [1])
      else .done ((s.freeGroup h).outV g.place l d [0])

/-- R223. Writes the mask of live group members in the bench. -/
def execGmask (d : BitVec 7) (s : State) : Out :=
  issue s [wV d] [] fun g s l => match s.bench? g.place, s.thread? g.place l with
    | some b, some t =>
      let m : Word := b.threads.foldl (fun m (i, x) =>
        if x.live && (i = l || (t.grp ≠ 0 && x.grp = t.grp)) then m ||| BitVec.ofNat 32 (2 ^ i) else m) 0
      .done (s.outV g.place l d [m])
    | _, _ => .done s

/-- R227. Arrives at a barrier slot. -/
def execBarr (n : BitVec 6) (v : BitVec 7) (r u : Bool) (e : BitVec 2) (s : State) : Out :=
  barrier (if r then [valOpnd v u 1 true] else []) n e s fun g s l _ _ nd i => arriveLane n v r u false g s l nd i

/-- R227. Parks until the slot's generation changes. -/
def execBwait (n : BitVec 6) (v : BitVec 7) (r u : Bool) (e : BitVec 2) (s : State) : Out :=
  barrier (if r then [valOpnd v u 1 false] else []) n e s fun g s l b t nd i =>
    let x := s.slot nd i
    let gen := if r then (valReg b t v u).toNat else x.gen
    if x.gen = gen then .ok s none fun t => { t with wait := .barrier nd i gen }
    else .done ((s.acquire (slotScope g.place nd)).updThread g.place l fun t => { t with view := t.view.join x.done })

/-- R227. Arrives and waits for the arrival generation. -/
def execBsync (n : BitVec 6) (v : BitVec 7) (r u : Bool) (e : BitVec 2) (s : State) : Out :=
  barrier (if r then [valOpnd v u 1 true] else []) n e s fun g s l _ _ nd i => arriveLane n v r u true g s l nd i

/-- R227. Adds expectations to a slot. -/
def execBexpect (n : BitVec 6) (v : BitVec 7) (u : Bool) (e : BitVec 2) (s : State) : Out :=
  barrier [valOpnd v u 1 false] n e s fun _ s _ b t nd i =>
    let x := s.slot nd i
    let k := (valReg b t v u).toNat
    if 1048575 < x.pend + k then .trap s .barovf 0 (n.setWidth 64)
    else .done (s.putSlot { x with pend := x.pend + k })

/-- R227. Satisfies one expectation of a slot. -/
def execBdone (n : BitVec 6) (_u : Bool) (e : BitVec 2) (s : State) : Out :=
  barrier [] n e s fun _ s _ _ _ nd i =>
    match s.bdone nd i false with
    | (true, s') => .done s'
    | (false, _) => .trap s .barovf 0 (n.setWidth 64)

/-- R226. Reads a barrier slot's state snapshot. -/
def execBqrySlot (n : BitVec 6) (v : BitVec 7) (u : Bool) (e : BitVec 2) (s : State) : Out :=
  barrier [valOpnd v u 2 true] n e s fun g s l _ _ nd i =>
    let x := s.slot nd i
    let hi := (if x.bound = none then 0 else 2 ^ 31) + x.arr % 2 ^ 15 * 2 ^ 16 + x.gen
    .done (s.outVal g.place l v u [BitVec.ofNat 32 (x.pend % 2 ^ 20), BitVec.ofNat 32 hi])

end Sys2Proof.Machine
end

