-- ==== Sys2Proof/Machine/MxExec.lean ====
section
/-! DEFINITION. The execution of matrix-unit commands in number order (R234, R240 to R258): operand reads with their tags,
products, drains, folds, peer rows, faults. -/

namespace Sys2Proof.Machine

/-- The disposition of an engine's fault for a task (R258, R282): D, S, W and E act; H is left to the engine. The flag says
that the work is held until service. -/
def State.engineTrap (s : State) (who : Who) (c : Cause) (sub : Nat) (v : DWord) : State × Bool :=
  match s.task? who.task with
  | none => match c.disp false with
    | .w => (s.stopWorld who.world v.toNat, false)
    | .e => (if sub = 1 then s.escalateSpad who.task who.world who.place else s.escalate who.task who.world (v.toNat / 64) who.place, false)
    | _ => (s, false)
  | some t =>
    match c.disp t.pinned with
    | .d => ((s.postTask who.task c sub v who.place).discardTask who.task, false)
    | .s => ((s.postTask who.task c sub v who.place).stopTask who.task who.place, true)
    | .w => (s.stopWorld who.world v.toNat, false)
    | .e => (if sub = 1 then s.escalateSpad who.task who.world who.place else s.escalate who.task who.world (v.toNat / 64) who.place, false)
    | .h => (s, false)

/-- An operand block of a command (R240): engine-path bytes, stored tag or OVR. -/
def State.mxBlk (s : State) (core : Nat) (c : MxCmd) (x : Nat) : OBlk × State :=
  let (bs, s) := s.spadEngineBytes core c.who.world c.who.key x 64 c.who.task
  let (t, p) := tagFor (s.spadTag core c.who.world (x / 64)).toNat c.ovr
  (⟨x, bs, t, p⟩, s)
def State.mxBlks (s : State) (core : Nat) (c : MxCmd) : List Nat → List OBlk × State
  | [] => ([], s)
  | x :: xs =>
    let (b, s) := s.mxBlk core c x
    let (bs, s) := State.mxBlks s core c xs
    (b :: bs, s)

/-- Offsets of the blocks of A, by row and block (R242). -/
def MxCmd.aOfs (c : MxCmd) (blocks : Nat) : List Nat :=
  (upto c.m).flatMap fun m => (upto blocks).map fun j => c.ofs + m * c.str + 64 * j

/-- The size of a destination element and the row size of a drain (R250). -/
def drainElem (ctl : Word) : Elem := (elemOf (ctl.toNat % 256)).getD .fp32
def rowSize (ctl : Word) : Nat := 64 * ((drainElem ctl).bits / 8)

/-- The scratchpad blocks that a drain writes whole (R250, R251). -/
def MxCmd.drains (c : MxCmd) : List Nat :=
  ((upto c.m).flatMap fun m => (upto (rowSize c.ctl / 64)).map fun j => (c.ofs + m * c.str) / 64 + j) ++
  if c.kind = .drainT then (upto 64).map fun r => (c.tofs + r * c.str) / 64 else []

/-- Every scratchpad block a command reads or writes: it waits until all are present (R183, R240, R251). Of MSCAN, the first block of
each row: the second is read for the 16-bit class alone (R248). -/
def MxCmd.touches (c : MxCmd) : List Nat :=
  match c.kind with
  | .ldw => (upto (64 * c.b)).map fun i => c.ofs / 64 + i
  | .ldwd => (upto (96 * c.b)).map fun i => c.ofs / 64 + i
  | .mma | .mmad | .reds => (c.aOfs c.b).map (· / 64)
  | .scan => (c.aOfs 1).map (· / 64)
  | .drain | .drainT => c.drains ++ match c.fold with
      | .spad x => [x / 64]
      | _ => []
  | .ldz | .stz => (upto (16 * c.m)).map fun i => c.ofs / 64 + i
  | _ => []

/-- The second blocks of the rows of an MSCAN whose first blocks have the 16-bit class (R248). -/
def State.scanMore (s : State) (core : Nat) (c : MxCmd) : List Nat :=
  let tagOf (x : Nat) : OBlk :=
    let (t, p) := tagFor (s.spadTag core c.who.world (x / 64)).toNat c.ovr
    ⟨x, [], t, p⟩
  match c.kind, classOf ((c.aOfs 1).map tagOf) with
  | .scan, .ok (some .c16) => (c.aOfs 1).map fun x => x / 64 + 1
  | _, _ => []

/-- What a command does to the unit's data and to scratchpad; or the tag fault it finds first, with its address. -/
structure MxRes where
  s      : State
  data   : MxData
  status : Nat

/-- Lands the sets of elements `(n, sets)` of row `m` of a tile, flags into the tile's. `r` gives the free order of the sets. -/
def landRow (d : MxData) (t m : Nat) (xs : List (Nat × List (List Fp))) (r : Nat) : MxData :=
  xs.foldl (fun d (n, sets) =>
    let (x, f) := landSets (d.elem t m n) sets (Config.freeNat (r + 64 * m + n))
    (d.setElem t m n x).orFlags t f) d

/-- Whether any block of a list is poisoned, as the status flag PSN. -/
def psnOf (bs : List OBlk) : Nat := if bs.any fun b => b.psn then 32 else 0

/-- MMA and MMAD (R242, R246): `wt j n` is the weight block of group j and column n. -/
def mulRows (d : MxData) (c : MxCmd) (k : Nat) (as : List OBlk) (wt : Nat → Nat → List Fp × Int) (r : Nat) : MxData :=
  let ws := (upto c.b).map fun j => (upto 64).map fun n => wt j n
  (upto c.m).foldl (fun d m =>
    let row := (upto c.b).map fun j => match as[m * c.b + j]? with
      | some b => (b.vals k, b.scale)
      | none => ([], 0)
    landRow d c.t m ((upto 64).map fun n => (n, (row.zip ws).map fun ((xs, ea), wj) =>
      let (ys, eb) := nth ([], 0) wj n
      (xs.zip ys).map fun (x, y) => product x y (ea + eb))) r) d

/-- Executes a command's effect on tiles, weight buffer and scratchpad. TC_TAG of a bad unit of the weight buffer, or of a record missing at W,
carries its offset in the weight buffer (DEDUCED, log entry 53). A poisoned block that MLDZ loads as NaN leaves the value part 0, which MSTZ
then shows (DESIGN CHOICE, log entry 120). -/
def State.mxRun (s : State) (i : Nat) (c : MxCmd) : Except (Cause × Nat) MxRes :=
  let core := i / 8
  let op := some (i % 8, c.num)
  let d := (s.mxu i).data
  let ok (s : State) (d : MxData) (st : Nat) : Except (Cause × Nat) MxRes := .ok ⟨s, d, st⟩
  let r0 := s.draws
  let s := { s with draws := s.draws + 4096 }
  match c.kind with
  | .ldw =>
    let (bs, s) := s.mxBlks core c ((upto (64 * c.b)).map fun j => c.ofs + 64 * j)
    let d := d.dropRecs c.w (4096 * c.b)
    ok s (((upto bs.length).zip bs).foldl (fun d (j, b) => d.setUnit (c.w / 64 + j) (b.bs, BitVec.ofNat 16 b.tag)) d) 0
  | .ldwd =>
    let (bs, s) := s.mxBlks core c ((upto (96 * c.b)).map fun j => c.ofs + 64 * j)
    let all := bs.flatMap fun b => b.bs
    let blk (x : Nat) : OBlk := nth ⟨0, [], 0, false⟩ bs (x / 64)
    let recs := (upto (64 * c.b)).map fun k =>
      let b0 := blk (96 * k)
      let b1 := blk (96 * k + 95)
      let bad (b : OBlk) : Bool := !b.psn && b.tag / 256 ≠ 0x10
      let pos := c.w + 96 * k
      if bad b0 || bad b1 then (c.ofs + 96 * k, none)
      else if b0.psn || b1.psn then (0, some ⟨pos, [], [], b0.tag % 256, true⟩)
      else (c.ofs + 96 * k, odfOf pos ((all.drop (96 * k)).take 96) (b0.tag % 256))
    match recs.find? fun p => p.2.isNone with
    | some (a, _) => .error (.tag, a)
    | none =>
      let d := d.dropRecs c.w (6144 * c.b)
      let d := ((upto bs.length).zip bs).foldl (fun d (j, b) => d.setUnit (c.w / 64 + j) (b.bs, BitVec.ofNat 16 b.tag)) d
      ok s { d with recs := d.recs ++ recs.filterMap Prod.snd } 0
  | .mma =>
    let (as, s) := s.mxBlks core c (c.aOfs c.b)
    let us := (upto (64 * c.b)).map fun j =>
      let (bs, t) := d.unit (c.w / 64 + j)
      (⟨c.w + 64 * j, bs, t.toNat, t.toNat % 256 = 255⟩ : OBlk)
    match classOf (as ++ us) with
    | .error a => .error (.tag, a)
    | .ok k =>
      let n := (k.getD .c8).count
      let wt (j n' : Nat) : List Fp × Int := match us[64 * j + n']? with
        | some u => (u.vals n, u.scale)
        | none => ([], 0)
      ok s (mulRows d c n as wt r0) (psnOf (as ++ us))
  | .mmad =>
    let (as, s) := s.mxBlks core c (c.aOfs c.b)
    match classOf as with
    | .error a => .error (.tag, a)
    | .ok k =>
      if k.getD .c8 ≠ .c8 then .error (.tag, c.ofs)
      else
        let recs := (upto (64 * c.b)).map fun j => (c.w + 96 * j, d.recs.find? fun x => x.pos = c.w + 96 * j)
        match recs.find? fun p => p.2.isNone with
        | some (a, _) => .error (.tag, a)
        | none =>
          let wt (j n : Nat) : List Fp × Int := match (nth (0, none) recs (64 * j + n)).2 with
            | some x => (if x.poison then List.replicate 64 (.nan false) else (upto 64).map x.weight, (x.scale : Int) - 127)
            | none => ([], 0)
          let psn := if recs.any (fun p => match p.2 with
            | some x => x.poison
            | none => false) then 32 else psnOf as
          ok s (mulRows d c 64 as wt r0) psn
  | .zero => let d := d.zeroRows c.t c.m; ok s { d with flags := mdel d.flags c.t } 0
  | .reds =>
    let (as, s) := s.mxBlks core c (c.aOfs c.b)
    match classOf as with
    | .error a => .error (.tag, a)
    | .ok k =>
      let n := (k.getD .c8).count
      let one := Fp.ofInt 1
      let d := (upto c.m).foldl (fun d m =>
        let sets := ((as.drop (m * c.b)).take c.b).map fun b => (b.vals n).map fun x => product x one b.scale
        landRow d c.t m [(0, sets)] r0) d
      ok s d (psnOf as)
  | .scan =>
    let (fs, s) := s.mxBlks core c (c.aOfs 1)
    match classOf fs with
    | .error a => .error (.tag, a)
    | .ok (some .c4) => .error (.tag, c.ofs)
    | .ok k =>
      let wide := k = some .c16
      let (gs, s) := if wide then s.mxBlks core c ((c.aOfs 1).map (· + 64)) else ([], s)
      match classOf (fs ++ gs) with
      | .error a => .error (.tag, a)
      | .ok _ =>
        let one := Fp.ofInt 1
        let vals (b : OBlk) : List Fp := (b.vals (if wide then 32 else 64)).map fun x => product x one b.scale
        let d := (upto c.m).foldl (fun d m =>
          let lo := match fs[m]? with
            | some b => vals b
            | none => []
          let hi := match gs[m]? with
            | some b => vals b
            | none => []
          landRow d c.t m ((upto 64).map fun n => (n, [lo.take (n + 1), hi.take (n + 1 - lo.length)])) r0) d
        ok s d (psnOf (fs ++ gs))
  | .ldz =>
    let (bs, s) := s.mxBlks core c ((upto (16 * c.m)).map fun j => c.ofs + 64 * j)
    let cls (b : OBlk) (e : Nat) : Nat := (nth 0 b.bs (16 * e + 12)).toNat
    match bs.find? fun b => !b.psn && (b.tag / 256 ≠ 0x11 || (upto 4).any fun e => 3 < cls b e) with
    | some b => .error (.tag, b.at_)
    | none =>
      let elem (b : OBlk) (e : Nat) : Deep :=
        if b.psn then ⟨0, .nan⟩
        else ⟨sx 96 (leNat ((b.bs.drop (16 * e)).take 12)), match cls b e with
          | 0 => .fin
          | 1 => .pinf
          | 2 => .ninf
          | _ => .nan⟩
      let d := ((upto bs.length).zip bs).foldl (fun d (j, b) =>
        (upto 4).foldl (fun d e => d.setElem c.t (j / 16) (j % 16 * 4 + e) (elem b e)) d) d
      ok s d (psnOf bs)
  | .stz =>
    let code (x : Deep) : Nat := match x.cls with
      | .fin => 0
      | .pinf => 1
      | .ninf => 2
      | .nan => 3
    let s := (upto (16 * c.m)).foldl (fun (s : State) j =>
      let bs := (upto 4).flatMap fun e =>
        let x := d.elem c.t (j / 16) (j % 16 * 4 + e)
        natLe 12 (x.d % 2 ^ 96).toNat ++ [BitVec.ofNat 8 (code x), 0, 0, 0]
      (s.spadEnginePut core c.who.world c.who.key (c.ofs + 64 * j) bs c.who.task op).putSpadTag core c.who.world (c.ofs / 64 + j) 0x117F#16) s
    ok s (if bitAt c.ctl.toNat 15 then d.zeroRows c.t c.m else d) 0
  | .drain | .drainT =>
    let f := drainElem c.ctl
    let fmt := c.ctl.toNat % 256
    let rm := rmOf c.who.mode c.who.mode
    let put (s : State) (x e : Nat) (vals : List Deep) : State × Nat :=
      let (bs, t, fl) := drainBlock f fmt rm c.who.seed c.who.task (fun i => x + i * (f.bits / 8)) e vals
      ((s.spadEnginePut core c.who.world c.who.key x bs c.who.task op).putSpadTag core c.who.world (x / 64) t, fl &&& 0x17)
    let per := f.count
    let scaleOf (fix : Bool) (xs : List Deep) : Nat := if fix then bits c.ctl.toNat 23 16 else pickScale f (xs.map Deep.fp)
    let step (fix : Bool) (acc : State × Nat) (p : Nat × List Deep) : State × Nat :=
      let (s, fl) := put acc.1 p.1 (scaleOf fix p.2) p.2
      (s, acc.2 ||| fl)
    let rows := (upto c.m).flatMap fun m => (upto (rowSize c.ctl / 64)).map fun j =>
      (c.ofs + m * c.str + 64 * j, ((d.row c.t m).drop (j * per)).take per)
    let cols := if c.kind = .drainT then (upto 64).map fun n => (c.tofs + n * c.str, (upto 64).map fun m => d.elem c.t m n) else []
    let a1 := rows.foldl (step (bits c.ctl.toNat 12 11 = 0)) (s, 0)
    let a2 := cols.foldl (step false) a1
    let s := match foldMax ((upto c.m).flatMap fun m => d.row c.t m) with
      | none => a2.1
      | some v => match c.fold with
        | .none => a2.1
        | .spad x =>
          let old := a2.1.spadSeen core c.who.world c.who.key x c.who.task
          a2.1.spadPut core c.who.world c.who.key x (BitVec.ofNat 32 (aFmax 32 old.toNat v.toNat 0)) c.who.task op
        | .mem dpa wva => a2.1.homeRmw ⟨dpa, wva, c.who.world, false⟩ 4 fun old => aFmax 32 old v.toNat 0
    ok s (if bitAt c.ctl.toNat 15 then d.zeroRows c.t c.m else d) a2.2
  | .row =>
    match c.row with
    | none => ok s d 0
    | some p =>
      let d := ((upto p.vals.length).zip p.vals).foldl (fun d (n, y) =>
        let (x, f) := landDeep (d.elem c.t p.m n) y
        (d.setElem c.t p.m n x).orFlags c.t f) d
      ok { s with packs := s.packs ++ [⟨p.src, p.seq, true⟩] } d 0
  | .drainP => ok s d 0

/-- A data fault of a fold, checked before the drain has any effect (R258): of a scratchpad word, where its block is marked and the drain
does not write it whole (R331). -/
def State.foldFault (s : State) (i : Nat) (c : MxCmd) : Option AFault :=
  match c.fold with
  | .mem dpa wva =>
    match (s.dpaBar dpa).filter fun f => f.1 = .lease with
    | some f => some ⟨f.1, f.2, BitVec.ofNat 64 wva⟩
    | none =>
    if s.dataError dpa true then some ⟨.ue, 0, blockVal dpa⟩
    else if s.confW c.who.world && (match mget? s.macs (dpa / 64) with
      | some m => decide (m.mac ≠ s.macOf ⟨dpa, wva, c.who.world, false⟩)
      | none => false) then some ⟨.integrity, 0, blockVal dpa⟩
    else none
  | .spad x =>
    if s.spadMarked (i / 8) c.who.world x 4 && !c.drains.contains (x / 64) then some ⟨.ue, 1, BitVec.ofNat 64 (x / 64 * 64)⟩ else none
  | .none => none

/-- Multiply-accumulates of a command, counted as 2 each (R214). -/
def State.mxOps (s : State) (i : Nat) (c : MxCmd) : Nat :=
  if c.kind = .mma || c.kind = .mmad then
    match ((s.mxBlk (i / 8) c c.ofs).1).cls with
    | some k => 2 * c.m * 64 * c.b * k.count
    | none => 0
  else 0

/-- A fault that H keeps in the unit: the record, if none is valid, or the sequencer run's own (R258, R316). -/
def State.mxRecord (s : State) (i : Nat) (c : MxCmd) (cause : Cause) (v : DWord) : State :=
  match c.who.run with
  | some n => { s with asqs := mmap (fun core a => if core = i / 8 then
      { a with runs := a.runs.map fun r => if r.num = n && r.bad.isNone then { r with bad := some (cause, v) } else r } else a) s.asqs }
  | none => s.updMxu i fun x => { x with fault := some (x.fault.getD ⟨cause, c.num, v, c.who.task⟩) }

/-- A command leaves the queue: its BDONE on the task's slot SLOT (R254), the timeline, and the claim if it was the last (R233). -/
def State.mxFinish (s : State) (i : Nat) (c : MxCmd) : State :=
  let s := match c.who.slot with
    | none => s
    | some n =>
      let (ok, s) := s.bdone (.core (i / 8)) n true
      if ok then s else s.mxRecord i c .barovf (BitVec.ofNat 64 (bits c.ctl.toNat 29 24))
  let s := s.updMxu i fun x => { x with queue := x.queue.drop 1, send := none }.settleDone
  s.unclaimMx i

/-- Sends the rows of a peer drain that are not acknowledged yet, in sequence order (R255). -/
def State.sendRows (s : State) (i : Nat) (c : MxCmd) (p : PeerSend) : State :=
  let d := (s.mxu i).data
  let (core, drw, tile) := c.tgt
  let todo := (upto c.m).filter fun m => !p.acked.contains ((p.base + m) % 2 ^ 32)
  { s with pkts := s.pkts.filter (fun k => k.src ≠ i) ++
      todo.map fun m => ⟨i, c.who.world, (p.base + m) % 2 ^ 32, mxIx core drw, tile, m, d.row c.t m⟩ }

/-- The next command of a unit executes (R234), or waits: for presence, or for a peer's acknowledgements. -/
def State.mxStep (s : State) (i : Nat) : State :=
  let x := s.mxu i
  match x.queue with
  | [] => s
  | c :: _ =>
    if x.held then s
    else if c.kind = .drainP then
      match x.send with
      | some _ => s
      | none =>
        let p : PeerSend := ⟨x.pseq, [], []⟩
        let s := s.updMxu i fun x => { x with pseq := (x.pseq + c.m) % 2 ^ 32, send := some p }
        s.sendRows i c p
    else if c.touches.any (fun b => s.pres (i / 8) c.who.world b ≠ 0) || (s.scanMore (i / 8) c).any (fun b => s.pres (i / 8) c.who.world b ≠ 0) then s
    else match s.foldFault i c with
      | some f =>
        if f.waits then s
        else
        let (s, held) := s.engineTrap c.who f.c f.sub f.v
        if held then s.updMxu i fun x => { x with held := true } else s
      | none => match s.mxRun i c with
        | .error (cause, a) => (s.mxRecord i c cause (BitVec.ofNat 64 a)).mxFinish i c
        | .ok r =>
          let s := (r.s.countFor c.who.task (s.mxOps i c)).updMxu i fun x => { x with data := r.data, status := x.status ||| r.status }
          s.mxFinish i c

/-- An acknowledgement or refusal reaches the sender (R255): the last one completes the command, or, where a packet was
refused, stops its task with TC_WORLDFENCE (R258). -/
def State.mxAck (s : State) (i seq : Nat) (ok : Bool) : State :=
  let x := s.mxu i
  match x.queue, x.send with
  | c :: _, some p =>
    if (seq + 2 ^ 32 - p.base) % 2 ^ 32 < c.m && !x.held then
      let add (xs : List Nat) : List Nat := if xs.contains seq then xs else seq :: xs
      let p := if ok then { p with acked := add p.acked } else { p with refused := add p.refused }
      let s := s.updMxu i fun x => { x with send := some p }
      if p.acked.length + p.refused.length < c.m then s
      else if p.refused.isEmpty then
        let s := if bitAt c.ctl.toNat 15 then s.updMxu i fun x => { x with data := x.data.zeroRows c.t c.m } else s
        s.mxFinish i c
      else
        let (s, held) := s.engineTrap c.who .worldfence 0 0
        if held then s.updMxu i fun x => { x with held := true } else s
    else s
  | _, _ => s

/-- Service of an S fault: held commands of the task execute again from their start (R256, R258). -/
def State.mxUnhold (s : State) (k : Nat) : State :=
  (s.mxus.map Prod.fst).foldl (fun s i =>
    let x := s.mxu i
    match x.queue with
    | c :: _ =>
      if x.held && c.who.task = k then
        let s := s.updMxu i fun x => { x with held := false }
        match x.send with
        | some p =>
          let p := { p with acked := [], refused := [] }
          (s.updMxu i fun x => { x with send := some p }).sendRows i c p
        | none => s
      else s
    | [] => s) s

/-- A packet arrives at its target (R255): refused between worlds, enqueued once while the receive buffer has room, or
acknowledged as a duplicate. -/
def State.mxReceive (s : State) (p : PeerPkt) (world : Nat) (vac : Bool) : Option State :=
  let x := s.mxu p.dst
  if vac then none
  else if p.world ≠ world then some { s with packs := s.packs ++ [⟨p.src, p.seq, false⟩] }
  else
    let fresh := match mget? x.recv p.src with
      | none => true
      | some l => let g := (p.seq + 2 ^ 32 - l) % 2 ^ 32; 1 ≤ g && g < 2 ^ 31
    if !fresh then some { s with packs := s.packs ++ [⟨p.src, p.seq, true⟩] }
    else if 64 ≤ (x.queue.filter fun c => c.kind = .row).length then none
    else
      let who : Who := { task := 0, world := world, place := none, key := 0, seed := 0, mode := 0, slot := none, run := none }
      some (s.updMxu p.dst fun x =>
        let c : MxCmd := ⟨x.asn + 1, .row, who, p.tile, 1, 0, 0, 0, 0, 0, 0, 0, .none, (0, 0, 0), some p⟩
        { x with queue := x.queue ++ [c], asn := x.asn + 1, recv := mset x.recv p.src p.seq })

end Sys2Proof.Machine
end

