-- ==== Sys2Proof/Machine/Mxu.lean ====
section
/-! DEFINITION. Group G13 (R236 to R257): the operand checks of a matrix command (R239), its issue (R233 to R235), MSTAT, and the
unit's own steps: command execution, peer rows and acknowledgements (R255). -/

namespace Sys2Proof.Machine

/-- Shape codes (Table 9.4). -/
def mOf (m : BitVec 2) : Nat := 64 / 2 ^ m.toNat
def bOf (n : BitVec 3) : Nat := 2 ^ n.toNat

/-- The operands of a command: FB pair and FC registers. -/
structure MxOps where
  p0 : Word
  p1 : Word
  c  : List Word

/-- Reserved fields of a drain's control quad (R250, Table 9.8): the offending register. -/
def drainCtlBad (isT : Bool) (c : List Word) : Option Word :=
  let w := nth 0 c 0
  let x := w.toNat
  let fmtOk := match elemOf (x % 256) with
    | some (.int 8 _) | some (.b8 _) => true
    | some .fp16 | some .bf16 | some .fp32 => !isT
    | _ => false
  if bitAt x 30 || !fmtOk || 5 ≤ bits x 10 8 && bits x 10 8 ≤ 6 || 2 ≤ bits x 12 11 || (bits x 12 11 = 0 && bits x 23 16 = 255) then
    some w
  else if !isT && nth 0 c 1 ≠ 0 then some (nth 0 c 1)
  else if bitAt x 13 && bitAt x 14 && nth 0 c 3 ≠ 0 then some (nth 0 c 3)
  else none

/-- The registers' reserved fields (Table 9.5, R249, R250, R255). -/
def mxReserved (k : MxKind) (core : Nat) (o : MxOps) : Option Word :=
  let ctl := nth 0 o.c 0
  let slim : Option Word := if ctl &&& 0x40FF7FFF#32 ≠ 0 then some ctl else none
  match k with
  | .ldw | .ldwd => if o.p1.toNat % 65536 ≠ 0 then some o.p1 else none
  | .drain => if o.p1.toNat / 65536 ≠ 0 then some o.p1 else drainCtlBad false o.c
  | .drainT => if o.p1.toNat / 65536 ≠ 0 then some o.p1 else drainCtlBad true o.c
  | .ldz => if o.p1 ≠ 0 then some o.p1 else none
  | .stz => if o.p1 ≠ 0 then some o.p1 else slim
  | .drainP =>
    let tc := o.p0.toNat % 256
    if o.p0.toNat / 2 ^ 13 ≠ 0 then some o.p0
    else if o.p1 ≠ 0 then some o.p1
    else if 192 ≤ tc || tc / 48 ≠ core / 48 || tc / 4 = core / 4 then some o.p0
    else slim
  | _ => none

/-- The checks of R239 and Table 9.6 in order: reserved fields, alignment, scratchpad extents, weight-buffer extents, the
stride; `size` is the world's scratchpad. -/
def mxCheck (size core : Nat) (k : MxKind) (m b : Nat) (o : MxOps) : Option (Cause × DWord) :=
  let ofs := o.p0.toNat
  let str := o.p1.toNat % 65536
  let w := (nth 0 o.c 0).toNat
  let tofs := (nth 0 o.c 1).toNat
  let fofs := (nth 0 o.c 2).toNat
  let ctl := (nth 0 o.c 0)
  let v (x : Nat) : DWord := BitVec.ofNat 64 x
  let strided := k = .mma || k = .mmad || k = .reds || k = .scan || k = .drain || k = .drainT
  let drains := k = .drain || k = .drainT
  let usesSp := strided || k = .ldw || k = .ldwd || k = .ldz || k = .stz
  let usesW := k = .ldw || k = .ldwd || k = .mma || k = .mmad
  let wlen := if k = .ldwd || k = .mmad then 6144 * b else 4096 * b
  let row := rowSize ctl
  let ext : Nat := match k with
    | .ldw => 4096 * b
    | .ldwd => 6144 * b
    | .mma | .mmad | .reds => (m - 1) * str + 64 * b
    | .scan => (m - 1) * str + 128
    | .drain | .drainT => (m - 1) * str + row
    | .ldz | .stz => 1024 * m
    | _ => 0
  let folds := drains && bitAt ctl.toNat 13
  let spFold := folds && bitAt ctl.toNat 14
  match mxReserved k core o with
  | some x => some (.resfield, x.setWidth 64)
  | none =>
    if usesSp && ofs % 64 ≠ 0 then some (.align, v ofs)
    else if strided && str % 64 ≠ 0 then some (.align, v str)
    else if usesW && w % 64 ≠ 0 then some (.align, v w)
    else if k = .drainT && tofs % 64 ≠ 0 then some (.align, v tofs)
    else if folds && fofs % 4 ≠ 0 then some (.align, if spFold then v fofs else ofPair (nth 0 o.c 2) (nth 0 o.c 3))
    else if usesSp && size < ofs + ext then some (.worldfence, v ofs)
    else if k = .drainT && size < tofs + 63 * str + 64 then some (.worldfence, v tofs)
    else if spFold && size < fofs + 4 then some (.worldfence, v fofs)
    else if usesW && 262144 < w + wlen then some (.resfield, v w)
    else if drains && str < (if k = .drainT then 64 else row) then some (.resfield, v str)
    else none

/-- The command of checked operands. -/
def mxBuild (k : MxKind) (who : Who) (t m b : Nat) (o : MxOps) (fold : Fold) : MxCmd :=
  let isLd := k = .ldw || k = .ldwd
  let ctl := if k = .drain || k = .drainT || k = .drainP || k = .stz then nth 0 o.c 0 else 0
  { num := 0, kind := k, who := who, t := t, m := m, b := b, ofs := o.p0.toNat,
    ovr := if isLd || k = .mma || k = .mmad || k = .reds || k = .scan then o.p1.toNat / 65536 else 0,
    str := if isLd then 0 else o.p1.toNat % 65536, w := (nth 0 o.c 0).toNat, ctl := ctl, tofs := (nth 0 o.c 1).toNat,
    fold := fold, tgt := (o.p0.toNat % 256, bits o.p0.toNat 10 8, bits o.p0.toNat 12 11), row := none }

/-- Whether a command place is free (R235). -/
def Mxu.room (x : Mxu) : Bool := (x.queue.filter fun c => c.kind ≠ .row).length < 16
/-- A command enters the queue and takes the next timeline number (R234). -/
def State.mxPush (s : State) (i : Nat) (c : MxCmd) : State :=
  s.updMxu i fun x => { x with queue := x.queue ++ [{ c with num := x.asn + 1 }], asn := x.asn + 1 }

/-- The drawer's matrix unit. -/
def mxOf : Place → Nat
  | .drawer c d _ => mxIx c d
  | _ => 0

/-- The claim and the delivery of a fault record to a G13 instruction of the claimant (R233, R258). -/
def mxEnter (s : State) (i k : Nat) (go : State → LaneRes) : LaneRes :=
  match s.claimMx i k with
  | none => .poll s (.claim i)
  | some s => go s

/-- A world fold address (R253): the checks of a 4-byte strong store and of the declared regions. -/
def State.foldAddr (s : State) (b : Bench) (va : DWord) : State × Except AFault Fold :=
  match s.plainAccess b .store va 4 true with
  | (s, .error f) => (s, .error f)
  | (s, .ok l) =>
    match s.task? b.task with
    | some t => if t.mayStore va.toNat 4 then (s, .ok (.mem l.dpa l.wva)) else (s, .error ⟨.undeclared, 0, va⟩)
    | none => (s, .error ⟨.undeclared, 0, va⟩)

/-- A G13 command (R236): checks, claim, room, and the entry into the queue. `nc` registers from `c` are its FC operand. -/
def mxIssue (k : MxKind) (t m b : Nat) (a : Option (BitVec 7)) (c : BitVec 7) (nc : Nat) (s : State) : Out :=
  let ra := match a with
    | some a => [rU a 2]
    | none => []
  issueOnce s (ra ++ if nc = 0 then [] else [rU c nc]) fun s g l0 _ =>
    match s.bench? g.place, s.thread? g.place l0 with
    | some bn, some th =>
      let core := coreIx g.place
      let p := match a with
        | some a => bn.us th a 2
        | none => []
      let o : MxOps := ⟨nth 0 p 0, nth 0 p 1, bn.us th c nc⟩
      match mxCheck (s.spadSize core bn.world) core k m b o with
      | some (cause, v) => .trap s cause 0 v
      | none =>
        let ctl := (mxBuild k ⟨0, 0, none, 0, 0, 0, none, none⟩ t m b o .none).ctl.toNat
        let slot := if bitAt ctl 31 then some (s.engSlot bn g (bits ctl 29 24)) else none
        match slot with
        | some (.error (cause, v)) => .trap s cause 0 v
        | _ =>
          let sl := match slot with
            | some (.ok n) => some n
            | _ => none
          let (s, fold) : State × Except AFault Fold :=
            if (k = .drain || k = .drainT) && bitAt ctl 13 then
              if bitAt ctl 14 then (s, .ok (.spad (nth 0 o.c 2).toNat)) else s.foldAddr bn (ofPair (nth 0 o.c 2) (nth 0 o.c 3))
            else (s, .ok .none)
          match fold with
          | .error f => .trap s f.c f.sub f.v
          | .ok fold =>
            let i := mxOf g.place
            mxEnter s i bn.task fun s =>
              match (s.mxu i).fault with
              | some f => .trap s f.cause 0 f.addr
              | none =>
                let world := match fold with
                  | .mem _ _ => true
                  | _ => false
                if !(s.mxu i).room || s.unchecked bn.task || s.vacated.contains core then .poll s .engine
                else
                  let s := if world || k = .drainP then s.pin bn.task else s
                  let mode := if bits ctl 10 8 = 7 then fpcRm th.fpc else bits ctl 10 8
                  let who : Who := ⟨bn.task, bn.world, some g.place, bn.spkey, th.srseed, mode, sl, none⟩
                  .done (s.mxPush i (mxBuild k who t m b o fold))
    | _, _ => .done s

/-- R243. Loads dense weight blocks into the weight buffer. -/
def execMldw (n : BitVec 3) (a c : BitVec 7) (s : State) : Out := mxIssue .ldw 0 64 (bOf n) (some a) c 1 s

/-- R245. Loads and decodes ODF records into the weight buffer. -/
def execMldwd (n : BitVec 3) (a c : BitVec 7) (s : State) : Out := mxIssue .ldwd 0 64 (bOf n) (some a) c 1 s

/-- R242. Multiplies A rows by dense weights into a tile. -/
def execMma (t m : BitVec 2) (n : BitVec 3) (a c : BitVec 7) (s : State) : Out :=
  mxIssue .mma t.toNat (mOf m) (bOf n) (some a) c 1 s

/-- R246. Multiplies A rows by ODF records into a tile. -/
def execMmad (t m : BitVec 2) (n : BitVec 3) (a c : BitVec 7) (s : State) : Out :=
  mxIssue .mmad t.toNat (mOf m) (bOf n) (some a) c 1 s

/-- R248. Zeroes tile rows and clears the tile's flags. -/
def execMzero (t m : BitVec 2) (s : State) : Out := mxIssue .zero t.toNat (mOf m) 1 none 0 0 s

/-- R251. Drains tile rows to scratchpad with conversion. -/
def execMdrain (t m : BitVec 2) (a c : BitVec 7) (s : State) : Out := mxIssue .drain t.toNat (mOf m) 1 (some a) c 4 s

/-- R252. Drains a tile with a transposed copy. -/
def execMdraint (t : BitVec 2) (a c : BitVec 7) (s : State) : Out := mxIssue .drainT t.toNat 64 1 (some a) c 4 s

/-- R255. Adds tile rows into a tile of another drawer. -/
def execMdrainp (t m : BitVec 2) (a c : BitVec 7) (s : State) : Out := mxIssue .drainP t.toNat (mOf m) 1 (some a) c 1 s

/-- R248. Adds row sums of A into column 0 of a tile. -/
def execMreds (t m : BitVec 2) (n : BitVec 3) (a : BitVec 7) (s : State) : Out :=
  mxIssue .reds t.toNat (mOf m) (bOf n) (some a) 0 0 s

/-- R248. Adds prefix sums of A rows into a tile. -/
def execMscan (t m : BitVec 2) (a : BitVec 7) (s : State) : Out := mxIssue .scan t.toNat (mOf m) 1 (some a) 0 0 s

/-- R249. Loads tile rows from spill form. -/
def execMldz (t m : BitVec 2) (a : BitVec 7) (s : State) : Out := mxIssue .ldz t.toNat (mOf m) 1 (some a) 0 0 s

/-- R249. Stores tile rows in spill form. -/
def execMstz (t m : BitVec 2) (a c : BitVec 7) (s : State) : Out := mxIssue .stz t.toNat (mOf m) 1 (some a) c 1 s

/-- The status word (Table 9.10). -/
def Mxu.statusWord (x : Mxu) : Word :=
  BitVec.ofNat 32 (x.status % 64 + match x.fault with
    | some f => 2 ^ 31 + f.cause.code * 2 ^ 16
    | none => 0)

/-- The pair MSTAT reads (Table 9.9). -/
def Mxu.stat (x : Mxu) (sel t : Nat) : List Word :=
  let pr (n : Nat) : List Word := [BitVec.ofNat 32 n, BitVec.ofNat 32 (n / 2 ^ 32)]
  match sel with
  | 0 => pr x.asn
  | 1 => [x.statusWord, BitVec.ofNat 32 (mget 0 x.data.flags t)]
  | 2 => pr (match x.fault with
    | some f => f.num
    | none => 0)
  | _ => pr (match x.fault with
    | some f => f.addr.toNat
    | none => 0)

/-- R257. Reads matrix-unit status into a uniform pair, and clears what it read where CLR is set. -/
def execMstat (t : BitVec 2) (l : Bool) (sel : BitVec 3) (a : BitVec 7) (s : State) : Out :=
  issueOnce s [wU a 2] fun s g l0 on =>
    match s.bench? g.place with
    | none => .done s
    | some bn =>
      let i := mxOf g.place
      mxEnter s i bn.task fun s =>
        let x := s.mxu i
        let s := s.outU g.place l0 on a (x.stat sel.toNat t.toNat)
        .done (if !l then s
          else if sel.toNat = 1 then s.updMxu i fun x => { x with status := 0, data := { x.data with flags := mdel x.data.flags t.toNat } }
          else s.updMxu i fun x => { x with fault := none })

/-- R234. The matrix unit performs one queued command. -/
def execMxuCommandExecute (core drw : Nat) (s : State) : Out := .next (s.mxStep (mxIx core drw))

/-- R255. A received peer-drain row is checked and added: the `k`-th packet on the fabric arrives, the first of its source and
target. -/
def execPeerRowReceive (k : Nat) (s : State) : Out :=
  match s.pkts[k]? with
  | none => .next s
  | some p =>
    if (s.pkts.take k).any fun q => q.src = p.src && q.dst = p.dst then .next s
    else match s.mxReceive p (mget Drawer.init s.drawers p.dst).world (s.vacated.contains (p.dst / 8)) with
      | none => .next s
      | some s => .next { s with pkts := s.pkts.eraseIdx k }

/-- R255. A packet's acknowledgement reaches the sender. -/
def execPeerAckReceive (core drw : Nat) (seq : BitVec 32) (s : State) : Out :=
  let i := mxIx core drw
  match s.packs.find? fun a => a.dst = i && a.seq = seq.toNat with
  | none => .next s
  | some a => .next (({ s with packs := s.packs.erase a }).mxAck i a.seq a.ok)

/-- R255. The fabric resends unacknowledged packets. -/
def execPeerResend (core drw : Nat) (s : State) : Out :=
  let i := mxIx core drw
  match (s.mxu i).queue, (s.mxu i).send with
  | c :: _, some p => .next (if (s.mxu i).held then s else s.sendRows i c p)
  | _, _ => .next s

end Sys2Proof.Machine
end

