-- ==== Sys2Proof/Machine/BteData.lean ====
section
/-! DEFINITION. Packets and layout records of the block-transfer engine (Tables 10.2, 10.3, R268 to R270), and what its transforms
read and form (R271 to R273, R277): the destination blocks of an operation in traversal order. -/

namespace Sys2Proof.Machine

/-! ### Packets -/

def pkW (pk : List Word) (i : Nat) : Nat := (nth 0 pk i).toNat
def pkD (pk : List Word) (i : Nat) : Nat := pkW pk i + 2 ^ 32 * pkW pk (i + 1)
def pkOp (pk : List Word) : Nat := pkW pk 0 % 256
def pkFmt (pk : List Word) : Nat := bits (pkW pk 0) 15 8
def pkFlag (pk : List Word) (i : Nat) : Bool := bitAt (pkW pk 0) i
def pkOrd (pk : List Word) : Bool := pkFlag pk 27
def pkAcc (pk : List Word) : Bool := pkFlag pk 26
def pkLb (pk : List Word) : Bool := pkFlag pk 25
def pkFol (pk : List Word) : Bool := pkFlag pk 24
def pkBd (pk : List Word) : Bool := pkFlag pk 23
def pkFold (pk : List Word) : Bool := pkFlag pk 22
def pkScl (pk : List Word) : Nat := bits (pkW pk 1) 12 11
def pkMode (pk : List Word) : Nat := bits (pkW pk 1) 10 8
def pkEsc (pk : List Word) : Nat := pkW pk 1 % 256

/-- A one-byte format (R271). -/
def oneByte (fmt : Nat) : Bool := match elemOf fmt with
  | some (.int 8 _) | some (.b8 _) => true
  | _ => false
def fourBit (fmt : Nat) : Bool := fmt = 3 || fmt = 4
def wideFp (fmt : Nat) : Bool := fmt = 5 || fmt = 6 || fmt = 7

/-- The follow-on word's kind and shape (R275). -/
def folKind (w : Nat) : Option (MxKind × Nat × Nat × Nat) :=
  if bits w 31 27 ≠ 13 || w % 2 ^ 14 ≠ 0 then none
  else
    let t := bits w 20 19
    let m := 64 / 2 ^ bits w 18 17
    let b := 2 ^ bits w 16 14
    let shapeOk := bits w 16 14 < 4
    match bits w 26 21 with
    | 0 => if bits w 20 17 = 0 && shapeOk then some (.ldw, 0, 64, b) else none
    | 1 => if bits w 20 17 = 0 && shapeOk then some (.ldwd, 0, 64, b) else none
    | 2 => if shapeOk then some (.mma, t, m, b) else none
    | 3 => if shapeOk then some (.mmad, t, m, b) else none
    | 4 => if bits w 16 14 = 0 then some (.zero, t, m, 1) else none
    | 8 => if shapeOk then some (.reds, t, m, b) else none
    | 9 => if bits w 16 14 = 0 then some (.scan, t, m, 1) else none
    | _ => none

/-- A refusal of a packet (R268): its cause, and the byte offset of the field. -/
abbrev Refuse := Cause × Nat

/-- The checks of R268 on the packet's own words, in that rule's order; `mem` for a memory queue, `fol` where follow-ons are
accepted. -/
def pkCheck (pk : List Word) (mem sys fol : Bool) : Option Refuse :=
  let op := pkOp pk
  let quant := op = 2
  let usesFmt := quant || op = 3 || op = 4
  let usesMode := quant || op = 3 || (op = 4 && pkFmt pk ≠ 0) || (op = 0 && pkAcc pk)
  let aux := pkD pk 6
  let bad (b : Bool) (o : Nat) (k : Option Refuse) : Option Refuse := if b then some (.resfield, o) else k
  bad (bits (pkW pk 0) 31 28 ≠ 0) 0 <|
  bad (pkW pk 1 / 2 ^ 13 ≠ 0) 4 <|
  bad (pkW pk 9 / 8 ≠ 0) 0x24 <|
  bad (pkW pk 13 ≠ 0) 0x34 <|
  bad (8 < op) 0 <|
  bad (quant && (2 ≤ pkScl pk || (pkScl pk = 0 && pkEsc pk = 255))) 4 <|
  bad (usesMode && (pkMode pk = 5 || pkMode pk = 6)) 4 <|
  bad ((quant && !(oneByte (pkFmt pk) || fourBit (pkFmt pk))) || (op = 3 && !wideFp (pkFmt pk))
    || (op = 4 && pkFmt pk ≠ 0 && !oneByte (pkFmt pk))) 0 <|
  bad ((pkFol pk && !fol) || (pkAcc pk && op ≠ 0) || (pkLb pk && op ≠ 6) || (pkFold pk && !quant) || (op = 8 && (pkFol pk || pkBd pk))) 0 <|
  bad (!usesFmt && pkFmt pk ≠ 0) 0 <|
  bad (!quant && (pkScl pk ≠ 0 || pkEsc pk ≠ 0)) 4 <|
  bad (!usesMode && pkMode pk ≠ 0) 4 <|
  bad ((op = 0 || op = 1 || op = 3 || op = 7 || op = 8) && aux ≠ 0) 0x18 <|
  bad (op = 4 && (aux / 64 ≠ 0 || !([0x39, 0x2D, 0x36, 0x1E, 0x27, 0x1B].contains aux))) 0x18 <|
  bad (op = 6 && (aux / 2 ^ 32 ≠ 0 || aux % 256 = 0 || bits aux 15 8 = 0 || bits aux 19 16 = 0 || bits aux 23 20 = 0)) 0x18 <|
  bad (!pkBd pk && bits (pkW pk 0) 21 16 ≠ 0) 0 <|
  bad (!pkFol pk && pkW pk 8 ≠ 0) 0x20 <|
  bad (!pkFol pk && pkW pk 9 ≠ 0) 0x24 <|
  bad (!pkFol pk && (pkW pk 10 ≠ 0 || pkW pk 11 ≠ 0)) 0x28 <|
  bad (!pkFol pk && pkW pk 12 ≠ 0) 0x30 <|
  bad (mem && pkBd pk) 0 <|
  if op = 8 && !sys then some (if mem then .priv else .resfield, 0)
  else bad (pkFol pk && (folKind (pkW pk 8)).isNone) 0x20 none

/-! ### Layouts -/

def Layout.of (ws : List Word) : Layout :=
  let w (i : Nat) : Nat := (nth 0 ws i).toNat
  { base := w 0 + 2 ^ 32 * w 1, mod := bits (w 2) 31 20, ndim := bits (w 2) 17 16, esz := bits (w 2) 9 8, space := w 2 % 256,
    ext := [w 4, w 5, w 6, w 7], str := [sx 32 (w 8), sx 32 (w 9), sx 32 (w 10)], pad := w 12,
    key := BitVec.ofNat 32 (w 13 % 1024) }

/-- Elements, bytes and extents of a layout. -/
def Layout.x (l : Layout) (d : Nat) : Nat := nth 1 l.ext d
def Layout.count (l : Layout) : Nat := l.x 0 * l.x 1 * l.x 2 * l.x 3
def Layout.rowLen (l : Layout) : Nat := l.x 0 * 2 ^ l.esz
def Layout.bytes (l : Layout) : Nat := l.count * 2 ^ l.esz
def Layout.step (l : Layout) (d : Nat) : Int := nth 0 l.str (d - 1)

/-- The address of row (i1, i2, i3), modulo 2^64, or 2^32 for scratchpad. -/
def Layout.rowAt (l : Layout) (i1 i2 i3 : Nat) : Nat :=
  let a : Int := l.base + i1 * l.step 1 + i2 * l.step 2 + i3 * l.step 3
  (a % (if l.space = 1 then 2 ^ 32 else 2 ^ 64)).toNat
/-- The rows in traversal order. -/
def Layout.rows (l : Layout) : List Nat :=
  (upto (l.x 3)).flatMap fun k => (upto (l.x 2)).flatMap fun j => (upto (l.x 1)).map fun i => l.rowAt i j k
/-- The 64-byte blocks of a layout whose rows are whole blocks, in traversal order. -/
def Layout.blocks (l : Layout) : List Nat := l.rows.flatMap fun a => (upto (l.rowLen / 64)).map fun j => a + 64 * j
/-- The addresses of the elements in traversal order. -/
def Layout.elems (l : Layout) : List Nat := l.rows.flatMap fun a => (upto (l.x 0)).map fun i => a + i * 2 ^ l.esz

/-- Whether every row is whole 64-byte blocks (R270). -/
def Layout.blocky (l : Layout) : Bool :=
  l.base % 64 = 0 && l.rowLen % 64 = 0 && l.str.all fun s => s % 64 = 0
/-- Whether every element is aligned (R270); the stride of a dimension of one element is not used. -/
def Layout.elemAligned (l : Layout) : Bool :=
  l.base % 2 ^ l.esz = 0 && (upto 3).all fun d => l.x (d + 1) = 1 || l.step (d + 1) % (2 ^ l.esz : Nat) = 0

/-- The checks of a layout record (R269): its words, the transform, the privilege. -/
def layoutBad (ws : List Word) (op : Nat) (mem sys : Bool) : Option Cause :=
  let l := Layout.of ws
  let w (i : Nat) : Nat := (nth 0 ws i).toNat
  if bits (w 2) 19 18 ≠ 0 || bits (w 2) 15 10 ≠ 0 || w 3 ≠ 0 || w 11 ≠ 0 || w 13 / 1024 ≠ 0 || w 14 ≠ 0 || w 15 ≠ 0 then some .resfield
  else if 3 < l.space || (l.space ≠ 2 && l.mod ≠ 0) || (l.space = 1 && 2 ^ 32 ≤ l.base) then some .resfield
  else if l.ext.any fun x => x = 0 || 2 ^ 24 < x then some .resfield
  else if (upto 4).any fun d => l.ndim < d && l.x d ≠ 1 then some .resfield
  else if (l.space = 2 && op ≠ 0) || 2 ^ 32 < l.bytes then some .resfield
  else if l.space = 3 && !sys then some (if mem then .priv else .resfield)
  else none

/-- A scratchpad extent beyond the world's (R269). -/
def Layout.beyond (l : Layout) (size : Nat) : Bool := l.space = 1 && l.rows.any fun a => size < a + l.rowLen

/-- The source dimension of destination dimension d of a SWIZZLE (Table 10.4). -/
def swzDim (aux d : Nat) : Nat := bits aux (2 * d - 1) (2 * d - 2)

/-- IM2COL's shape (R272): KH KW SH SW PH PW. -/
def imShape (aux : Nat) : Nat × Nat × Nat × Nat × Nat × Nat :=
  (aux % 256, bits aux 15 8, bits aux 19 16, bits aux 23 20, bits aux 27 24, bits aux 31 28)
def imOut (n k st p : Nat) : Nat := if n + 2 * p < k then 0 else (n + 2 * p - k) / st + 1

/-- Whether the extents match the transform (Table 10.4). -/
def extentsOk (pk : List Word) (s d : Layout) : Bool :=
  let aux := pkD pk 6
  match pkOp pk with
  | 0 => s.count = d.count && s.esz = d.esz
  | 1 => s.ndim = 1 && d.ndim = 1 && d.x 0 = s.x 1 && d.x 1 = s.x 0 && s.esz = d.esz
  | 2 =>
    let n := if fourBit (pkFmt pk) then 128 else 64
    d.esz = 0 && (if n = 128 then 2 * d.count else d.count) = s.count && s.count % n = 0
  | 3 => d.esz = (if pkFmt pk = 7 then 2 else 1) && (d.count = s.count || (s.esz = 0 && d.count = 2 * s.count))
  | 4 => s.esz = d.esz && d.x 0 = s.x 0 && ((upto 3).all fun i => d.x (i + 1) = s.x (swzDim aux (i + 1)))
      && (pkFmt pk = 0 || s.esz = 0)
  | 5 => s.ndim = 1 && d.ndim = 1 && s.x 0 = d.x 0 && s.esz = d.esz
  | 6 =>
    let (kh, kw, sh, sw, ph, pw) := imShape aux
    s.ndim = 2 && d.ndim = 1 && s.esz = d.esz && d.x 0 = kh * kw * s.x 0 && d.x 1 = imOut (s.x 2) kh sh ph * imOut (s.x 1) kw sw pw
      && kh ≤ s.x 2 + 2 * ph && kw ≤ s.x 1 + 2 * pw
  | 7 => true
  | _ => s.space = 3 && d.space = 3 && s.bytes = d.bytes && s.bytes % 65536 = 0

/-- The address that a misaligned layout reports: its first misaligned row, or its base. -/
def Layout.badRow (l : Layout) (n : Nat) : Nat := (l.rows.find? fun a => a % n ≠ 0).getD l.base

/-- Alignment of both layouts (R270), the source's first; MIGRATE's are 64 KiB-aligned. -/
def alignBad (pk : List Word) (s d : Layout) : Option Nat :=
  let blk (l : Layout) (rest : Option Nat) : Option Nat := if l.blocky then rest else some (l.badRow 64)
  let page (l : Layout) (rest : Option Nat) : Option Nat :=
    if l.rows.all (fun a => a % 65536 = 0) && l.rowLen % 65536 = 0 then rest else some (l.badRow 65536)
  match pkOp pk with
  | 0 | 4 | 5 => blk s (blk d none)
  | 1 | 2 | 3 | 6 => if s.elemAligned then blk d none else some (s.badRow (2 ^ s.esz))
  | 7 => blk d none
  | _ => page s (page d none)

/-! ### Reading source blocks (R279, R283) -/

/-- A translation by an engine of a core, with the permission of a kind of access; MMIO takes TC_PERM. -/
def State.engAddr (s : State) (core w : Nat) (k : AKind) (va : Nat) : State × Except Flt Loc :=
  match s.translate core w k va with
  | (s, .ok l) => if dpaKind l.dpa = .mmio then (s, .error (.perm, 0)) else (s, .ok l)
  | r => r

/-- Data errors an engine meets when it reads a block, and the wait for a line that its lender has not given (R346); a reader that interprets tags sees a marked block as poisoned (R331). -/
def State.engError (s : State) (l : Loc) (interp : Bool := false) : Option AFault :=
  if s.dataError l.dpa (!interp) then some ⟨.ue, 0, blockVal l.dpa⟩
  else if s.macBad l then some ⟨.integrity, 0, blockVal l.dpa⟩
  else (s.awayBar l.dpa).map fun f => ⟨f.1, f.2, BitVec.ofNat 64 l.wva⟩

/-- Whether the transform of a packet interprets tags (R91). -/
def pkInterprets (pk : List Word) : Bool :=
  pkOp pk = 2 || pkOp pk = 3 || (pkOp pk = 4 && pkFmt pk ≠ 0) || (pkOp pk = 0 && pkAcc pk)

/-- A fault at an address. -/
def faultAt (c : Cause) (a : Nat) : AFault := ⟨c, 0, BitVec.ofNat 64 a⟩

/-- A source block: its bytes and tag, or the fault. -/
abbrev SBlk := Except AFault (List Byte × Tag)

/-- The causes another module may answer an access of SPACE 2 with (R283). -/
def remoteCauses : List Cause := [.page, .perm, .lease, .tag, .worldfence, .integrity, .ue]

/-- Reads one source block at its 64-byte-aligned address in a layout's space; one of another module is a free value, or a fault that
the module answers, which stands for what this module cannot see (R283; log entry 4). -/
def State.srcBlk (s : State) (o : BOp) (l : Layout) (a : Nat) : State × SBlk :=
  match l.space with
  | 1 =>
    if !pkInterprets o.pk && s.spadMarked o.core o.who.world a 64 then (s, .error ⟨.ue, 1, BitVec.ofNat 64 a⟩)
    else
      let (bs, s) := s.spadEngineBytes o.core o.who.world o.keyS a 64 o.who.task
      (s, .ok (bs, s.spadTag o.core o.who.world (a / 64)))
  | 0 =>
    match s.engAddr o.core o.who.world .load a with
    | (s, .error (c, k)) => (s, .error ⟨c, k, BitVec.ofNat 64 a⟩)
    | (s, .ok loc) =>
      match s.engError loc (pkInterprets o.pk) with
      | some e => (s, .error e)
      | none => (s.sdcFill loc, .ok (match o.snap with
        | some S => s.blockAt S loc
        | none => s.block loc))
  | 3 =>
    match s.dpaBar a with
    | some (c, k) => (s, .error ⟨c, k, BitVec.ofNat 64 a⟩)
    | none =>
      if s.dataError a (!pkInterprets o.pk) then (s, .error ⟨.ue, 0, blockVal a⟩)
      else (s, .ok (s.stored (a / 64), s.tag (a / 64)))
  | _ =>
    let (k, s) := s.draw
    match remoteCauses[k]? with
    | some c => (s, .error (faultAt c a))
    | none => let (n, s) := s.draw; (s, .ok (freeUnit n))

/-- The source blocks of an operation, read once each; a block that the line buffer holds gives its value there or the current
one, a free choice per block (R274). -/
def State.srcBlks (s : State) (o : BOp) (l : Layout) (buf : Map (List Byte × Tag)) : List Nat → Map SBlk → State × Map SBlk
  | [], m => (s, m)
  | a :: as, m =>
    match mget? m a with
    | some _ => State.srcBlks s o l buf as m
    | none =>
      let (s, b) := s.srcBlk o l a
      let (s, b) := match b, mget? buf a with
        | .ok x, some y => if x = y then (s, b) else let (n, s) := s.draw; (s, if n % 2 = 0 then b else .ok y)
        | _, _ => (s, b)
      State.srcBlks s o l buf as (mset m a b)

/-- The bytes of an element, or the fault of its block. -/
def elemOfMap (m : Map SBlk) (a n : Nat) : Except AFault (List Byte) :=
  match mget? m (a / 64 * 64) with
  | some (.ok (bs, _)) => .ok ((bs.drop (a % 64)).take n)
  | some (.error e) => .error e
  | none => .ok (List.replicate n 0)

/-! ### Forming destination blocks -/

/-- What a transform forms: blocks, the folded maximum, and the format of a reducing copy's operand. -/
structure Formed where
  blocks : List BBlk
  fold   : Option Word := none
  fmt    : Option Elem := none

/-- Record flags (Table 10.5) of `fpc` flags: NX UF OF at [2:0], NV [3], PSN [4], SAT [5]. -/
def recFlags (f : Nat) : Nat :=
  f % 8 + (if f &&& fNV ≠ 0 then 8 else 0) + (if f &&& fPSN ≠ 0 then 16 else 0) + (if f &&& fSAT ≠ 0 then 32 else 0)

/-- Elements that form one block at `a`: their bytes joined, or the first fault. -/
def joinBlk (a : Nat) (tag : Tag) (xs : List (Except AFault (List Byte))) : BBlk :=
  match xs.findSome? fun x => match x with
    | .error e => some e
    | .ok _ => none with
  | some e => .fault e
  | none => .data a (xs.flatMap fun x => match x with
    | .ok bs => bs
    | .error _ => []) tag

/-- Blocks up to and with the first fault: an operation stops there (R282). -/
def uptoFault : List BBlk → List BBlk
  | [] => []
  | .fault e :: _ => [.fault e]
  | b :: bs => b :: uptoFault bs

/-- Whole source blocks carried to destination blocks with their tags. -/
def carry (m : Map SBlk) (ps : List (Nat × Nat)) : List BBlk :=
  ps.map fun (a, d) => match mget? m a with
    | some (.ok (bs, t)) => .data d bs t
    | some (.error e) => .fault e
    | none => .data d (List.replicate 64 0) tag0

/-- The blocks that elements stand in. -/
def blocksOf (as : List Nat) : List Nat := as.map fun a => a / 64 * 64

/-- TRANSPOSE and IM2COL: every block read must carry one tag (R272). -/
def oneTag (m : Map SBlk) : Except AFault Tag :=
  (m.foldl (fun (acc : Except AFault (Option Tag)) p => match acc, p.2 with
    | .error e, _ => .error e
    | .ok t, .error _ => .ok t
    | .ok none, .ok (_, t) => .ok (some t)
    | .ok (some t), .ok (_, u) => if t = u then .ok (some t) else .error (faultAt .tag p.1)) (.ok none)).map fun t => t.getD tag0

/-- An element read with its tag: value, whether poisoned; or a fault (R91, R92). `wd` is the element's bytes. -/
def taggedElem (m : Map SBlk) (wd a : Nat) : Except AFault (Elem × Nat × Bool × List Byte) :=
  match mget? m (a / 64 * 64) with
  | some (.error e) => .error e
  | some (.ok (bs, t)) =>
    let ps := t.toNat % 256 = 255
    match elemOf (t.toNat / 256) with
    | some f => .ok (f, t.toNat % 256, ps, (bs.drop (a % 64)).take wd)
    | none => if ps then .ok (.int 8 true, 255, true, []) else .error (faultAt .tag (a / 64 * 64))
  | none => .error (faultAt .tag a)

/-- The values of a source element (two for a 4-bit format) at scale. -/
def elemVals (f : Elem) (e : Nat) (bs : List Byte) : List Fp :=
  let sc (x : Fp) : Fp := x.scale ((e : Int) - 127)
  match f with
  | .int 4 _ => let b := leNat bs; [sc (f.dec (b % 16)), sc (f.dec (b / 16))]
  | _ => [sc (f.dec (leNat bs))]

/-- Same format for one operand, binary8 of any precision together (R91). -/
def sameFmt : Elem → Elem → Bool
  | .b8 _, .b8 _ => true
  | a, b => a = b

/-- The interpreted elements of a source, in traversal order: `per` values each, with PSN, or a fault. The layout's element count
fixes how many values a poisoned element supplies where no block of the operand has a format (log entry 108). -/
def interpret (m : Map SBlk) (l : Layout) (accept : Elem → Bool) (intOut : Bool) (per : Nat) :
    List (Except AFault (List Fp × Bool)) :=
  let wd := 2 ^ l.esz
  let rs := l.elems.map fun a => (a, taggedElem m wd a)
  let fmt := rs.findSome? fun p => match p.2 with
    | .ok (f, _, false, _) => some f
    | _ => none
  rs.map fun (a, r) => match r with
    | .error e => .error e
    | .ok (f, e, ps, bs) =>
      if ps then
        if intOut then .error (faultAt .tag (a / 64 * 64)) else .ok (List.replicate per (.nan false), true)
      else if !accept f || (match fmt with
          | some g => !sameFmt f g
          | none => false) || (match f with
          | .int 4 _ => decide (wd ≠ 1)
          | _ => decide (8 * wd ≠ f.bits)) then .error (faultAt .tag (a / 64 * 64))
      else .ok (elemVals f e bs, false)

/-- Cuts a list of interpreted elements, of `per` values each, into sets of `n` values; a set with a faulting element faults. -/
def sets (n per : Nat) (xs : List (Except AFault (List Fp × Bool))) : List (Except AFault (List Fp × Bool)) :=
  let vals : List (Except AFault (Fp × Bool)) := xs.flatMap fun x => match x with
    | .error e => List.replicate per (.error e)
    | .ok (vs, p) => vs.map fun v => .ok (v, p)
  (chunk (vals.length / n) n vals).map fun c =>
    match c.findSome? fun x => match x with
      | .error e => some e
      | .ok _ => none with
    | some e => .error e
    | none =>
      let ok := c.filterMap fun x => match x with
        | .ok v => some v
        | .error _ => none
      .ok (ok.map Prod.fst, ok.any fun p => p.2)

/-- The address term of element `i` of a block at `a` (R86). -/
def srAddr (f : Elem) (a i : Nat) : DWord := BitVec.ofNat 64 (if f.bits = 4 then 2 * a + i else a + i * (f.bits / 8))

/-- Rounds a set of values into a destination block at scale byte `e` (R273); NaN and infinite elements poison an integer
block (R98). -/
def roundBlk (o : BOp) (fmt e a : Nat) (xs : List Fp) : List Byte × Tag × Nat :=
  match elemOf fmt with
  | none => ([], tag0, 0)
  | some f =>
    let rm := rmOf o.who.mode o.who.mode
    let cv := ((upto xs.length).zip xs).map fun (i, x) =>
      let r := if rm = .sr then srDraw o.who.seed o.who.task (srAddr f a i) else 0
      match f.isInt, x with
      | true, .nan _ => (0, (f.conv rm r x).2)
      | _, _ => f.conv rm r (x.scale (127 - (e : Int)))
    let bad := f.isInt && xs.any fun x => match x with
      | .fin _ _ _ => false
      | _ => true
    (packElems f (cv.map Prod.fst), BitVec.ofNat 16 (fmt * 256 + if bad then 255 else e), cv.foldl (fun z c => z ||| c.2) 0)

/-- A list of destination blocks formed from value sets. -/
def formSets (o : BOp) (fmt : Nat) (scale : List Fp → Nat) (ds : List Nat)
    (xs : List (Except AFault (List Fp × Bool))) : List BBlk :=
  (ds.zip xs).map fun (a, x) => match x with
    | .error e => .fault e
    | .ok (vs, p) =>
      let (bs, t, fl) := roundBlk o fmt (scale vs) a vs
      .data a bs t (recFlags (fl ||| if p then fPSN else 0))

/-- The largest magnitude among values, infinities counted, NaN omitted, rounded up to FP32 (R273). -/
def maxWord (xs : List Fp) : Option Word :=
  match (xs.filter fun x => !x.isNan).map Fp.abs with
  | [] => none
  | y :: ys => some (enc32 (roundTo fmt32 .ru 0 (ys.foldl (fun a b => if 0 < b.cmp a then b else a) y)).1)

/-- The index list of a GATHER (R271): each row's index, or the fault of its word. -/
def State.gatherRows (s : State) (o : BOp) : State × List (Except AFault Nat) :=
  let ixs := (upto (o.dst.x 1)).map fun r => (pkD o.pk 6 + 4 * r) % 2 ^ 64
  let (s, m) := s.srcBlks o { o.dst with space := 0 } [] (blocksOf ixs) []
  (s, ixs.map fun a => (elemOfMap m a 4).map leNat)
/-- The source blocks that those rows name. -/
def gatherBlks (l : Layout) (rows : List (Except AFault Nat)) : List Nat :=
  rows.flatMap fun r => match r with
    | .ok i => if i < l.x 1 then (upto (l.rowLen / 64)).map fun j => l.rowAt i 0 0 + 64 * j else []
    | .error _ => []

/-- The transform of an operation (Table 10.4): the source blocks are read, the destination blocks formed in traversal order. -/
def State.transform (s : State) (o : BOp) (buf : Map (List Byte × Tag)) : State × Map SBlk × Formed :=
  let d := o.dst
  let l := o.src.getD d
  let dbs := d.blocks
  let aux := pkD o.pk 6
  let rd (s : State) (as : List Nat) : State × Map SBlk := s.srcBlks o l buf (blocksOf as) []
  match pkOp o.pk with
  | 0 =>
    let (s, m) := rd s l.blocks
    let fmt (b : SBlk) : Option Elem := match b with
      | .ok (_, t) => if t.toNat % 256 ≠ 255 && wideFp (t.toNat / 256) then elemOf (t.toNat / 256) else none
      | .error _ => none
    (s, m, ⟨uptoFault (carry m (l.blocks.zip dbs)), none, m.findSome? fun p => fmt p.2⟩)
  | 1 =>
    let (s, m) := rd s l.elems
    let wd := 2 ^ d.esz
    (s, m, match oneTag m with
      | .error e => { blocks := [.fault e] }
      | .ok t =>
        let es := (upto (d.x 1)).flatMap fun i => (upto (d.x 0)).map fun j => elemOfMap m (l.rowAt j 0 0 + i * wd) wd
        { blocks := uptoFault ((dbs.zip (chunk dbs.length (64 / wd) es)).map fun (a, xs) => joinBlk a t xs) })
  | 2 =>
    let (s, m) := rd s l.elems
    let f := (elemOf (pkFmt o.pk)).getD (.int 8 true)
    let xs := interpret m l (fun e => e = .fp32 || e = .fp16 || e = .bf16) f.isInt 1
    let sc (vs : List Fp) : Nat := if pkScl o.pk = 0 then pkEsc o.pk else pickScale f vs
    let bs := formSets o (pkFmt o.pk) sc dbs (sets f.count 1 xs)
    let vals := xs.flatMap fun x => match x with
      | .ok (vs, _) => vs
      | .error _ => []
    (s, m, { blocks := uptoFault bs, fold := if pkFold o.pk then maxWord vals else none })
  | 3 =>
    let (s, m) := rd s l.elems
    let f := (elemOf (pkFmt o.pk)).getD .fp32
    let per := d.count / l.count
    let four (e : Elem) : Bool := match e with
      | .int 4 _ => true
      | _ => false
    let bs := formSets o (pkFmt o.pk) (fun _ => 127) dbs (sets f.count per (interpret m l (fun e => four e = (per = 2)) false per))
    (s, m, { blocks := uptoFault bs })
  | 4 =>
    let q (i j k : Nat) (e : Nat) : Nat :=
      if swzDim aux 1 = e then i else if swzDim aux 2 = e then j else k
    let srows := (upto (d.x 3)).flatMap fun k => (upto (d.x 2)).flatMap fun j => (upto (d.x 1)).map fun i =>
      l.rowAt (q i j k 1) (q i j k 2) (q i j k 3)
    let sbs := srows.flatMap fun a => (upto (l.rowLen / 64)).map fun j => a + 64 * j
    let (s, m) := rd s sbs
    if pkFmt o.pk = 0 then (s, m, { blocks := uptoFault (carry m (sbs.zip dbs)) })
    else
      let tgt := (elemOf (pkFmt o.pk)).getD (.int 8 true)
      let first := m.findSome? fun p => match p.2 with
        | .ok (_, t) => if t.toNat % 256 ≠ 255 then elemOf (t.toNat / 256) else none
        | .error _ => none
      let rs := (sbs.zip dbs).map fun (a, b) => match mget? m a with
        | some (.error e) => BBlk.fault e
        | some (.ok (bs, t)) =>
          let ps := t.toNat % 256 = 255
          let e := t.toNat % 256
          if ps then
            if tgt.isInt then .fault (faultAt .tag a)
            else
              let (x, _, fl) := roundBlk o (pkFmt o.pk) 127 b (List.replicate 64 (.nan false))
              .data b x (BitVec.ofNat 16 (pkFmt o.pk * 256 + 255)) (recFlags (fl ||| fPSN))
          else match elemOf (t.toNat / 256) with
            | some f =>
              if f.bits = 8 && first.all (sameFmt f) then
                let xs := (upto 64).map fun i => f.dec (elemAt f bs i)
                let (x, t', fl) := roundBlk o (pkFmt o.pk) 127 b xs
                .data b x (if t'.toNat % 256 = 255 then t' else BitVec.ofNat 16 (pkFmt o.pk * 256 + e)) (recFlags fl)
              else .fault (faultAt .tag a)
            | none => .fault (faultAt .tag a)
        | none => .fault (faultAt .tag a)
      (s, m, { blocks := uptoFault rs })
  | 5 =>
    let (s, rows) := s.gatherRows o
    let (s, m) := s.srcBlks o l buf (gatherBlks l rows) []
    let bs := ((upto rows.length).zip rows).flatMap fun (r, x) =>
      let out := (upto (d.rowLen / 64)).map fun j => d.rowAt r 0 0 + 64 * j
      match x with
      | .error e => [BBlk.fault e]
      | .ok i =>
        if i < l.x 1 then carry m (((upto (l.rowLen / 64)).map fun j => l.rowAt i 0 0 + 64 * j).zip out)
        else out.map fun a => .data a (List.replicate 64 0) tag0 64
    (s, m, { blocks := uptoFault bs })
  | 6 =>
    let (kh, kw, sh, sw, ph, pw) := imShape aux
    let wd := 2 ^ d.esz
    let oh := imOut (l.x 2) kh sh ph
    let ow := imOut (l.x 1) kw sw pw
    let at_ (h w i j c : Nat) : Option Nat :=
      let y := h * sh + i
      let x := w * sw + j
      if ph ≤ y && y - ph < l.x 2 && pw ≤ x && x - pw < l.x 1 then some (l.rowAt (x - pw) (y - ph) 0 + c * wd) else none
    let idx := (upto oh).flatMap fun h => (upto ow).flatMap fun w => (upto kh).flatMap fun i => (upto kw).flatMap fun j =>
      (upto (l.x 0)).map fun c => at_ h w i j c
    let (s, m) := rd s (idx.filterMap id)
    (s, m, match oneTag m with
      | .error e => { blocks := [.fault e] }
      | .ok t =>
        let es := idx.map fun a => match a with
          | some a => elemOfMap m a wd
          | none => .ok (natLe wd l.pad)
        { blocks := uptoFault ((dbs.zip (chunk dbs.length (64 / wd) es)).map fun (a, xs) => joinBlk a t xs) })
  | 7 => (s, [], { blocks := dbs.map fun a => .data a (List.replicate 64 0) tag0 })
  | _ => (s, [], { blocks := (l.blocks.zip dbs).map fun (a, b) => .move a b })

end Sys2Proof.Machine
end

