-- ==== Sys2Proof/Machine/Leases.lean ====
section
/-! DEFINITION. The lease table as state (R342), the pages a borrower keeps (R353), and where a line's home stands (R43, R372). -/

namespace Sys2Proof.Machine

def State.updLse (s : State) (f : Lse → Lse) : State := { s with hub := { s.hub with lse := f s.hub.lse } }
def State.lease (s : State) (i : Nat) : Lease := mget Lease.none s.leases i
def State.setLease (s : State) (i : Nat) (l : Lease) : State := { s with leases := mput Lease.none s.leases i l }
def State.send (s : State) (m : OutMsg) : State := { s with hub := { s.hub with outbox := s.hub.outbox ++ [m] } }

/-- What the LSE holds of a borrowed extent. -/
def State.bor (s : State) (i : Nat) : Borrow := mget Borrow.none s.hub.lse.bor i
def State.updBor (s : State) (i : Nat) (f : Borrow → Borrow) : State :=
  s.updLse fun l => { l with bor := mupd Borrow.none l.bor i f }

/-- The packet of the LSE that is operation `n` of memory queue `q` (R353), with its lease. -/
def State.askOf (s : State) (q n : Nat) : Option (Nat × Ask) :=
  (s.hub.lse.bor.filterMap fun e => (e.2.asked.find? fun a => a.queue = q ∧ a.num = n).map fun a => (e.1, a)).head?

/-- The first block of page `p` of a borrowed extent's window (R13), and of a local frame. -/
def windowBlk (lid p : Nat) : Nat := (windowBase + lid * gib) / 64 + 1024 * p
def frameBlk (f : Nat) : Nat := 1024 * f
/-- Whether a line lies in the window of a lease. -/
def inWindow (lid l : Nat) : Bool := windowBlk lid 0 ≤ l && l < windowBlk (lid + 1) 0

/-- A page placed into leased memory counts its VP up (R372), at its first block (log entry 25). -/
def State.placeVp (s : State) (dst : Nat) : State :=
  if dpaKind (64 * dst) = .window && dst % 1024 = 0 then { s with vps := mset s.vps (dst / 1024) (mget 0 s.vps (dst / 1024) + 1) } else s

/-- The MAC of a block made anew where its page's VP changes (R372). -/
def State.remac (s0 s : State) (blk : Nat) : State :=
  match mget? s0.macs blk with
  | none => s
  | some m =>
    let mac (x : State) : Nat := macBlock (x.world m.world).mkey (x.stored blk) (x.tag blk) m.wva (vpOf x blk)
    if m.mac = mac s0 then { s with macs := mset s.macs blk { m with mac := mac s } } else s

/-- A line's home moves, with every epoch copy, as one unit (R43): its value stays under its DPA. Of one that moves from the pool to HBM
the pool copy is kept, until the line is written or the placement unit gives it up (Table 12.4). -/
def State.rehome (s : State) (blk home : Nat) : State :=
  let keep : Bool := dpaKind (64 * s.homeOf blk) = .pool && dpaKind (64 * home) = .hbm
  let kept := s.hub.plc.kept.filter (· ≠ blk)
  let s1 := { s with hub := { s.hub with plc := { s.hub.plc with
    homes := if home = blk then mdel s.hub.plc.homes blk else mset s.hub.plc.homes blk home, kept := if keep then blk :: kept else kept } } }
  State.remac s (s1.placeVp home) blk

/-- A line of a packet of the LSE has moved (R353): to its frame, or back to the lender. -/
def State.lseMoved (s : State) (back : Bool) (src dst : Nat) : State := if back then s.rehome dst dst else s.rehome src dst

/-- The lines of a page that were written while it was served locally (R353). -/
def Borrow.owed (b : Borrow) (lid page : Nat) : List Nat := b.dirty.filter fun l => (l - windowBlk lid 0) / 1024 = page
/-- They are owed no more. -/
def State.settled (s : State) (lid page : Nat) : State :=
  s.updBor lid fun b => { b with dirty := b.dirty.filter fun l => (l - windowBlk lid 0) / 1024 ≠ page }

/-- Lines of a page served locally go home again. -/
def State.unplace (s : State) (lid page : Nat) : State :=
  (upto 1024).foldl (fun s i => s.rehome (windowBlk lid page + i) (windowBlk lid page + i)) s

/-- A packet of the LSE has completed (R353): a page prefetched is local, a page written back is not. -/
def State.lseDone (s : State) (q n : Nat) (ok : Bool) : State :=
  match s.askOf q n with
  | none => s
  | some (i, a) =>
    let s := s.updBor i fun b => { b with asked := b.asked.filter fun x => !(x.queue = q && x.num = n) }
    if !a.live then s
    else if a.back then
      if ok then (s.settled i a.page).updBor i fun b => { b with pages := b.pages.filter fun p => p.1 ≠ a.page } else s
    else if ok then s.updBor i fun b => { b with pages := b.pages ++ [(a.page, a.frame)] }
    else s.unplace i a.page

/-- The layout of 64 KiB from a DPA. -/
def pageLayout (dpa : Nat) : Layout :=
  { base := dpa, mod := 0, ndim := 0, esz := 0, space := 3, ext := [65536, 1, 1, 1], str := [0, 0, 0], pad := 0, key := 0 }
/-- Source and destination of a packet of the LSE. -/
def Ask.layouts (a : Ask) (lid : Nat) : Layout × Layout :=
  let w := pageLayout (64 * windowBlk lid a.page)
  let f := pageLayout (64 * frameBlk a.frame)
  if a.back then (f, w) else (w, f)

end Sys2Proof.Machine
end

