-- ==== Sys2Proof/Machine/Bte.lean ====
section
/-! DEFINITION. The block-transfer engine (chapter 10): BCOPY, BCANCEL and BQRY (R284 to R286, R289), queue consumption (R265), the start
of an operation's transform, the landing of its blocks and its completion (R275, R277, R280 to R283), reducing blocks from
other modules (R278). -/

namespace Sys2Proof.Machine

/-! ### Queues -/

/-- The key of a queue. -/
def qKey : QId → Nat
  | .mem q => q
  | .loc c w => 4096 + c * 65536 + w
  | .stw k => 2 ^ 40 + k
  | .asq c => 2 ^ 41 + c
/-- An empty local queue. -/
def BQueue.init (q : QId) (w core : Nat) : BQueue :=
  { qid := q, world := w, sys := core ≥ 192, eng := false, bind := core, hdr := 0, ring := 0, cring := 0, log2n := 0, cidx := 0,
    next := 1, tl := 0, fin := [], ops := [], lbuf := [], fault := none, closed := false }
/-- The local queue of a thread's place (R284, R289). -/
def localQ (p : Place) (w : Nat) : QId :=
  match p with
  | .steward k _ => .stw k
  | p => .loc (coreIx p) w
def State.queue (s : State) (q : QId) : Option BQueue :=
  match mget? s.queues (qKey q), q with
  | some x, _ => some x
  | none, .mem _ => none
  | none, .loc c w => some (BQueue.init q w c)
  | none, .stw k => some (BQueue.init q 0 (192 + k))
  | none, .asq _ => none
def State.updQ (s : State) (q : QId) (f : BQueue → BQueue) : State :=
  match s.queue q with
  | some x => { s with queues := mset s.queues (qKey q) (f x) }
  | none => s
def State.op? (s : State) (q : QId) (n : Nat) : Option BOp := (s.queue q).bind fun x => x.ops.find? fun o => o.n = n
def State.updOp (s : State) (q : QId) (n : Nat) (f : BOp → BOp) : State :=
  s.updQ q fun x => { x with ops := x.ops.map fun o => if o.n = n then f o else o }
def isMemQ : QId → Bool
  | .mem _ => true
  | _ => false

/-- Reads `n` bytes of a task's plain data piece by piece, each within one block (R208, R284): the fault of a piece carries its
address. -/
def State.plainSpan : Nat → State → Bench → Nat → DWord → Nat → State × Except AFault (List Byte)
  | 0, s, _, _, _, _ => (s, .ok [])
  | f + 1, s, b, l, va, n =>
    if n = 0 then (s, .ok [])
    else
      let k := Nat.min n (64 - va.toNat % 64)
      match s.plainLoad b l va k false with
      | (s, .error e) => (s, .error e)
      | (s, .ok bs) => match State.plainSpan f s b l (va + BitVec.ofNat 64 k) (n - k) with
        | (s, .error e) => (s, .error e)
        | (s, .ok rest) => (s, .ok (bs ++ rest))
def State.taskBytes (s : State) (b : Bench) (l : Nat) (va : DWord) (n : Nat) : State × Except AFault (List Byte) :=
  s.plainSpan (n / 64 + 2) b l va n

/-- The same, with the MAC checks of the bytes ended before they are used (R47). -/
def State.checkedBytes (s0 : State) (b : Bench) (l : Nat) (va : DWord) (n : Nat) : State × Except AFault (List Byte) :=
  match s0.taskBytes b l va n with
  | (s, .error e) => (s, .error e)
  | (s, .ok bs) => match s0.endChecks s with
    | .error v => (s, .error ⟨.integrity, 0, v⟩)
    | .ok s => (s, .ok bs)

/-- Reads current bytes of world memory at device scope, for the engines: none where an access faults. -/
def State.devSpan : Nat → State → Nat → Nat → Nat → Nat → State × Except AFault (List Byte)
  | 0, s, _, _, _, _ => (s, .ok [])
  | f + 1, s, core, w, va, n =>
    if n = 0 then (s, .ok [])
    else
      let k := Nat.min n (64 - va % 64)
      match s.engAddr core w .load va with
      | (s, .error (c, i)) => (s, .error ⟨c, i, BitVec.ofNat 64 va⟩)
      | (s, .ok loc) =>
        match s.engError loc with
        | some e => (s, .error e)
        | none => match State.devSpan f s core w (va + k) (n - k) with
          | (s, .error e) => (s, .error e)
          | (s, .ok rest) => (s, .ok (s.readNow loc k ++ rest))
def State.devBytes (s : State) (core w va n : Nat) : State × Except AFault (List Byte) := s.devSpan (n / 64 + 2) core w va n

/-- Writes bytes within one block at a world address at device scope; the access's fault, if any, leaves memory unchanged. In a
confidential world the block is read, so that its MAC is checked first (R283). -/
def State.devWrite (s : State) (core w va : Nat) (bs : List Byte) : State × Option AFault :=
  match s.engAddr core w .store va with
  | (s, .error (c, i)) => (s, some ⟨c, i, BitVec.ofNat 64 va⟩)
  | (s, .ok loc) =>
    if s.dataError loc.dpa false then (s, some ⟨.ue, 0, blockVal loc.dpa⟩)
    else if s.macBad loc then (s, some ⟨.integrity, 0, blockVal loc.dpa⟩)
    else if s.lineAway (loc.dpa / 64) then (s, some ⟨.lease, waitSub, BitVec.ofNat 64 va⟩)
    else (s.homeWrite loc bs, none)
/-- A read-modify-write there: the block it reads is checked first (R283). -/
def State.devRmw (s : State) (core w va n : Nat) (f : Nat → Nat) : State × Option AFault :=
  match s.engAddr core w .store va with
  | (s, .error (c, i)) => (s, some ⟨c, i, BitVec.ofNat 64 va⟩)
  | (s, .ok loc) => match s.engError loc with
    | some e => (s, some e)
    | none => (s.homeRmw loc n f, none)

/-! ### Presence (R182) -/

/-- The destination blocks whose presence an operation raises: scratchpad of a core; steward SRAM has none (R289). -/
def presRows (d : Layout) (core : Nat) : List Nat := if d.space = 1 && core < 192 then d.blocks.map (· / 64) else []
def State.presFits (s : State) (core w : Nat) (rows : List Nat) : Bool :=
  rows.all fun b => s.pres core w b + (rows.filter fun c => c = b).length ≤ 15
def State.raise (s : State) (core w : Nat) (rows : List Nat) : State := rows.foldl (fun s b => s.addPres core w b true) s

/-! ### Building an operation -/

def BProg.start (rows : List Nat) (fol : Option MxCmd) : BProg :=
  { state := .pending, comp := false, blocks := [], landed := 0, rows := rows, flags := 0, fold := none, cause := none, status := 0,
    fol := fol, sent := 0, held := false, fmt := none, sq := 0 }
/-- An operation refused or faulted before any byte moved (R268): it completes at once. -/
def BProg.dead (status : Nat) (f : AFault) : BProg :=
  { BProg.start [] none with state := .running, comp := true, status := status, cause := some (f.c.code, f.v) }

/-- The follow-on command of a packet (R275), or the refusal of its operands, with the byte offset of the field. -/
def folCmd (pk : List Word) (who : Who) (size core : Nat) : Except Refuse (Option MxCmd) :=
  if !pkFol pk then .ok none
  else match folKind (pkW pk 8) with
    | none => .error (.resfield, 0x20)
    | some (k, t, m, b) =>
      let o : MxOps := ⟨nth 0 pk 10, nth 0 pk 11, [nth 0 pk 12]⟩
      match mxCheck size core k m b o with
      | some (c, _) => .error (c, if (mxCheck size core k m b { o with c := [0] }).isSome then 0x28 else 0x30)
      | none => .ok (some (mxBuild k { who with slot := none } t m b o .none))

/-- Checks of both layouts (R269 to R271): the cause, and the packet field or the address it concerns. -/
def layoutsCheck (pk : List Word) (sw dw : List Word) (mem sys : Bool) (size : Nat) : Option (Cause × Nat) :=
  let op := pkOp pk
  let s := Layout.of sw
  let d := Layout.of dw
  let srcUsed := op ≠ 7
  match if srcUsed then layoutBad sw op mem sys else none, layoutBad dw op mem sys with
  | some c, _ => some (c, 8)
  | none, some c => some (c, 0x10)
  | none, none =>
    if !extentsOk pk s d then some (.resfield, 0x10)
    else match alignBad pk s d with
    | some a => some (.align, a)
    | none =>
    if (op = 5 || (op = 2 && pkFold pk)) && pkD pk 6 % 4 ≠ 0 then some (.align, pkD pk 6)
    else if srcUsed && s.beyond size then some (.worldfence, s.base)
    else if d.beyond size then some (.worldfence, d.base)
    else none

/-- Whether an operation writes world memory (R27, R216, R217). -/
def toWorld (pk : List Word) (d : Layout) : Bool := d.space = 0 || d.space = 2 || pkFold pk

/-- R216 over the whole destination, and the fold word. -/
def Task.mayBcopy (t : Task) (pk : List Word) (d : Layout) : Option Nat :=
  let rows := if d.space = 0 || d.space = 2 then d.rows else []
  match rows.find? fun a => !t.mayStore a d.rowLen with
  | some a => some a
  | none => if pkFold pk && !t.mayStore (pkD pk 6) 4 then some (pkD pk 6) else none

/-- The source-queue number of R278: QNUM, or that of the local queue. The local slot of a world on a core is its rank among the
worlds of the core's drawers (log entry 23). -/
def State.srcQueue (s : State) (q : QId) : Nat :=
  match q with
  | .mem n => n
  | .loc c w =>
    let ws := (upto 8).map fun d => (mget Drawer.init s.drawers (8 * c + d)).world
    0x8000 + 8 * c + (ws.filter fun x => x < w).dedup.length
  | .stw k => 0x8000 + 8 * (192 + k)
  | .asq c => 0x10000 + c

/-- Enqueues an operation; its source-queue number is that of its queue now (R278). -/
def State.enqueueOp (s : State) (q : QId) (o : BOp) : State :=
  s.updQ q fun x => { x with ops := x.ops ++ [{ o with prog := { o.prog with sq := s.srcQueue q } }], next := o.n + 1 }

/-- R284. Enqueues a packet on the local queue. -/
def execBcopy (d p : BitVec 7) (s : State) : Out :=
  issueOnce s [rU p 16, wV d 2] fun s g l0 on =>
    match s.bench? g.place, s.thread? g.place l0, s.bench? g.place |>.bind fun b => s.task? b.task with
    | some bn, some th, some tk =>
      let core := coreIx g.place
      let stw := 192 ≤ core
      let pk := bn.us th p 16
      let q := localQ g.place bn.world
      let size := s.spadSize core bn.world
      let v (x : Nat) : DWord := BitVec.ofNat 64 x
      let slot := if pkBd pk then some (s.engSlot bn g (bits (pkW pk 0) 21 16)) else none
      let sl := match slot with
        | some (.ok n) => some n
        | _ => none
      let mode := if pkMode pk = 7 then fpcRm th.fpc else pkMode pk
      let who : Who := ⟨bn.task, bn.world, some g.place, bn.spkey, th.srseed, mode, sl, none⟩
      match pkCheck pk false stw (!stw), folCmd pk who size core with
      | some (c, o), _ => .trap s c 0 (v o)
      | none, .error (_, o) => .trap s .resfield 0 (v o)
      | none, .ok fol =>
        let rec? (s : State) (use : Bool) (va : Nat) : State × Except AFault (List Word) :=
          if !use then (s, .ok [])
          else if va / 2 ^ 56 = 0 && va % 8 ≠ 0 then (s, .error ⟨.align, 0, v va⟩)
          else match s.checkedBytes bn l0 (v va) 64 with
            | (s, .ok bs) => (s, .ok (wordsOfBytes bs))
            | (s, .error e) => (s, .error e)
        match rec? s (pkOp pk ≠ 7) (pkD pk 2) with
        | (s, .error e) => .trap s e.c e.sub e.v
        | (s, .ok sw) => match rec? s true (pkD pk 4) with
          | (s, .error e) => .trap s e.c e.sub e.v
          | (s, .ok dw) => match layoutsCheck pk sw dw false stw size with
            | some (c, x) => .trap s c 0 (v x)
            | none =>
              let lay := Layout.of dw
              match tk.mayBcopy pk lay, slot with
              | some a, _ => .trap s .undeclared 0 (v a)
              | _, some (.error (c, x)) => .trap s c 0 x
              | none, _ =>
                let rows := presRows lay core
                match s.queue q with
                | none => .done s
                | some x =>
                  match x.fault with
                  | some f => .trap s f.cause 0 f.addr
                  | none =>
                  if 64 ≤ x.ops.length || s.vacated.contains core || s.unchecked bn.task || !s.presFits core bn.world rows then .poll s .engine
                  else
                    let s := s.raise core bn.world rows
                    let s := if toWorld pk lay then s.pin bn.task else s
                    let s := s.updTask bn.task fun t => { t with bqs := insertNat t.bqs (qKey q) }
                    let op : BOp :=
                      ⟨x.next, pk, if pkOp pk = 7 then none else some (Layout.of sw), lay, who, core, bn.spkey, bn.spkey,
                        some tk.snap, BProg.start rows fol⟩
                    .done ((s.enqueueOp q op).outAll g.place on d [BitVec.ofNat 32 x.next, BitVec.ofNat 32 (x.next / 2 ^ 32)])
    | _, _, _ => .done s

/-- The operation numbers a queue has given out or consumed; 0 is none (R263). -/
def BQueue.consumed (x : BQueue) (n : Nat) : Bool := 0 < n && if x.eng then n ≤ x.cidx else n < x.next
/-- The queue a selector names (R285): none for another world's, or for no queue. -/
def State.selQueue (s : State) (p : Place) (w n : Nat) : Option (QId × BQueue) :=
  if n = 0xFFF then (s.queue (localQ p w)).map fun x => (localQ p w, x)
  else (s.queue (.mem n)).bind fun x => if x.world = w then some (.mem n, x) else none

/-- R285. Cancels a queue operation. -/
def execBcancel (d a c : BitVec 7) (s : State) : Out :=
  issueOnce s [rU a 2, rU c 1, wV d 1] fun s g l0 on =>
    match s.bench? g.place, s.thread? g.place l0 with
    | some bn, some th =>
      let n := (ofPair (nth 0 (bn.us th a 2) 0) (nth 0 (bn.us th a 2) 1)).toNat
      let sel := nth 0 (bn.us th c 1) 0
      if sel.toNat / 4096 ≠ 0 then .trap s .resfield 0 (wordVal g.w g.w2)
      else match s.selQueue g.place bn.world sel.toNat with
        | none => .trap s .worldfence 0 (sel.setWidth 64)
        | some (q, x) =>
          let res (s : State) (r : Nat) : LaneRes := .done (s.outAll g.place on d [BitVec.ofNat 32 r])
          if !x.consumed n then res s 2
          else match x.ops.find? fun o => o.n = n && o.prog.state ≠ .cancelled with
            | none => res s 1
            | some o =>
              if o.prog.comp && o.prog.blocks.isEmpty && o.prog.status ≠ 0 then res s 1
              else res (s.cancelOps (qKey q) x fun o => o.n = n) 0
    | _, _ => .done s

/-- R286. Reads a BTE queue's status pair. -/
def execBqryQueue (d a : BitVec 7) (s : State) : Out :=
  issueOnce s [rU a 1, wV d 2] fun s g l0 on =>
    match s.bench? g.place, s.thread? g.place l0 with
    | some bn, some th =>
      let sel := bn.u th a.toNat
      if bits sel.toNat 30 12 ≠ 0 then .trap s .resfield 0 (wordVal g.w g.w2)
      else match s.selQueue g.place bn.world (sel.toNat % 4096) with
        | none => .trap s .worldfence 0 (sel.setWidth 64)
        | some (q, x) =>
          let fv := match x.fault with
            | some f => 2 ^ 31 + f.cause.code * 2 ^ 16
            | none => 0
          let num := match x.fault with
            | some f => f.num
            | none => 0
          let free := if isMemQ q then 0 else 64 - x.ops.length
          let s := if bitAt sel.toNat 31 then s.updQ q fun x => { x with fault := none } else s
          .done (s.outAll g.place on d [BitVec.ofNat 32 (fv + (x.ops.filter fun o => o.prog.state ≠ .pending).length * 256 + free), BitVec.ofNat 32 num])
    | _, _ => .done s

/-! ### Consumption (R265) -/

/-- Whether a memory queue may consume: registered, its engine's core not vacated, its world not stopped (R287, R367, R374). -/
def State.qOpen (s : State) (x : BQueue) : Bool := !x.closed && !s.vacated.contains x.bind && !(s.world x.world).stopped

/-- A fault of a memory queue's engine on its own packets and records (R282): TC_INTEGRITY and TC_UE take their effect. -/
def State.queueFault (s : State) (w : Nat) (f : AFault) : State := (s.engineTrap ⟨0, w, none, 0, 0, 0, none, none⟩ f.c f.sub f.v).1

/-- The stamped slot of a queue that is ready: its index and bytes. -/
def State.readySlot (s : State) (x : BQueue) (core : Nat) : State × Option (List Byte) :=
  match s.devBytes core x.world x.hdr 8 with
  | (s, .error f) => (s.queueFault x.world f, none)
  | (s, .ok wb) =>
    if leNat wb ≤ x.cidx then (s, none)
    else match s.devBytes core x.world (x.ring + 64 * (x.cidx % 2 ^ x.log2n)) 64 with
      | (s, .error f) => (s.queueFault x.world f, none)
      | (s, .ok bs) => (s, if leNat (bs.drop 56) = x.cidx + 1 then some bs else none)

/-- CIDX advances past the slot. -/
def State.takeSlot (s : State) (q : QId) (x : BQueue) (core : Nat) : State :=
  let s := (s.devWrite core x.world (x.hdr + 0x40) (natLe 8 (x.cidx + 1))).1
  s.updQ q fun x => { x with cidx := x.cidx + 1 }

/-- The operation a consumed packet becomes (R268, R275, R282); one whose layouts a lender does not give yet is held, and not consumed
(R346). -/
def State.memOp (s : State) (x : BQueue) (n : Nat) (pk : List Word) : State × BOp :=
  let core := x.bind
  let q := x.qid
  let who : Who := ⟨0, x.world, none, 0, 0, if pkMode pk = 7 then 0 else pkMode pk, none, none⟩
  let dl := Layout.of []
  let mk (s : State) (src : Option Layout) (d : Layout) (k : Word) (p : BProg) : State × BOp :=
    (s, ⟨n, pk, src, d, { who with key := k }, core, match src with
      | some l => l.key
      | none => 0, d.key, none, p⟩)
  match s.askOf (match q with
    | .mem n => n
    | _ => 4095) n with
  | some (i, a) =>
    let (sl, d) := a.layouts i
    mk s (some sl) d 0 (if a.live then BProg.start [] none else { BProg.start [] none with state := .running, comp := true, status := 1 })
  | none =>
  match pkCheck pk true x.sys true with
  | some (c, _) => mk s none dl 0 (BProg.dead 3 ⟨c, 0, 0⟩)
  | none =>
    let rec? (s : State) (use : Bool) (va : Nat) : State × Except AFault (List Word) :=
      if !use then (s, .ok [])
      else if va % 8 ≠ 0 then (s, .error (faultAt .align va))
      else match s.devBytes core x.world va 64 with
        | (s, .ok bs) => (s, .ok (wordsOfBytes bs))
        | (s, .error e) => (s.queueFault x.world e, .error e)
    match rec? s (pkOp pk ≠ 7) (pkD pk 2) with
    | (s, .error f) => mk s none dl 0 { BProg.dead (if f.c = .align then 3 else 2) f with held := f.waits }
    | (s, .ok sw) => match rec? s true (pkD pk 4) with
      | (s, .error f) => mk s none dl 0 { BProg.dead (if f.c = .align then 3 else 2) f with held := f.waits }
      | (s, .ok dw) =>
        let size := s.spadSize core x.world
        match layoutsCheck pk sw dw true x.sys size with
        | some (c, _) => mk s none dl 0 (BProg.dead 3 ⟨c, 0, 0⟩)
        | none =>
          let d := Layout.of dw
          let sl := if pkOp pk = 7 then none else some (Layout.of sw)
          let key := if d.space = 1 then d.key else match sl with
            | some l => l.key
            | none => 0
          match folCmd pk { who with key := key } size core with
          | .error (c, _) => mk s none dl 0 (BProg.dead 3 ⟨c, 0, 0⟩)
          | .ok fol => mk s sl d key (BProg.start (presRows d core) fol)

/-- Consumes the next slot of a memory queue bound to a BTE. -/
def State.consumeBte (s : State) (q : QId) : State :=
  match s.queue q with
  | none => s
  | some x =>
    if x.eng || !isMemQ q || !s.qOpen x || 8 ≤ x.ops.length then s
    else match s.readySlot x x.bind with
      | (s, none) => s
      | (s, some bs) =>
        let (s, o) := s.memOp x (x.cidx + 1) ((wordsOfBytes bs).take 16)
        if !s.presFits o.core o.who.world o.prog.rows || o.prog.held then s
        else ((s.takeSlot q x x.bind).raise o.core o.who.world o.prog.rows).enqueueOp q o

/-- R265. The bound BTE consumes a ready memory-queue slot. -/
def execQueueSlotConsume (q : Nat) (s : State) : Out := .next (s.consumeBte (.mem q))

/-! ### Starting a transform (R280) -/

/-- Whether the operation may start: in number order, at most 8 in flight, after every earlier one where ORD is set, after the
earlier LB ones. -/
def BQueue.mayStart (x : BQueue) (o : BOp) : Bool :=
  let before := x.ops.takeWhile fun p => p.n ≠ o.n
  o.prog.state = .pending && before.all (fun p => p.prog.state ≠ .pending)
    && (x.ops.filter fun p => p.prog.state = .running).length < 8
    && (!pkOrd o.pk || before.isEmpty) && (!pkLb o.pk || before.all fun p => !pkLb p.pk)
def BOp.started (o : BOp) : BOp := { o with prog := { o.prog with state := .running } }

/-- Whether an operation that has started may read its source, which it has not: not held, its scratchpad blocks present (R183, R279;
log entry 113). -/
def State.mayRead (s : State) (o : BOp) : Bool :=
  o.prog.state = .running && !o.prog.comp && !o.prog.held && match o.src with
    | some l => l.space ≠ 1 || 192 ≤ o.core ||
      (if pkOp o.pk = 5 then gatherBlks l (s.gatherRows o).2 else blocksOf l.elems).all fun a => s.pres o.core o.who.world (a / 64) = 0
    | none => true

/-- The element format of a format byte that a reducing copy accepts. -/
def wideFmt (b : Nat) : Option Elem := if wideFp b then elemOf b else none

def fmtCode : Option Elem → Nat
  | some .fp16 => 5
  | some .bf16 => 6
  | some .fp32 => 7
  | _ => 0

/-- The format of a reducing copy's unpoisoned destination blocks (R92). -/
def State.dstFmt (s : State) (o : BOp) : Option Elem :=
  o.dst.blocks.findSome? fun a =>
    let t? : Option Tag := match o.dst.space with
      | 0 => match (s.engAddr o.core o.who.world .store a).2 with
        | .ok loc => some (s.tag (loc.dpa / 64))
        | .error _ => none
      | 1 => some (s.spadTag o.core o.who.world (a / 64))
      | 3 => some (s.tag (a / 64))
      | _ => none
    t?.bind fun t => if t.toNat % 256 = 255 then none else wideFmt (t.toNat / 256)

/-- An operation's source is read and its destination blocks are formed. An operation that resumes after service drops the blocks it
has landed (R282). -/
def State.readOp (s : State) (q : QId) (x : BQueue) (o : BOp) : State :=
  let (s, m, f) := s.transform o (if pkLb o.pk then x.lbuf else [])
  let keep : Map (List Byte × Tag) := if pkLb o.pk then
      (m.filterMap fun p => match p.2 with
        | .ok v => some (p.1, v)
        | .error _ => none).take 1024
    else []
  (s.updQ q fun x => { x with lbuf := keep }).updOp q o.n fun o =>
    let fmt := if pkAcc o.pk then f.fmt.orElse fun _ => s.dstFmt o else none
    { o with prog := { o.prog with comp := true, blocks := f.blocks.drop o.prog.landed, fold := f.fold, fmt := fmt } }

/-- The common part of the transform rows: operation `n` of queue `q` starts, and reads its source, if its packet is of the row. -/
def startRow (row : List Word → Bool) (q : QId) (n : Nat) (s : State) : Out :=
  match s.queue q, s.op? q n with
  | some x, some o =>
    if !row o.pk then .next s
    else
      let go := x.mayStart o
      let s := if go then s.updOp q n BOp.started else s
      let o := if go then o.started else o
      .next (if s.mayRead o then s.readOp q x o else s)
  | _, _ => .next s

/-- R271. Copies blocks with their tags. -/
def execCopy (q : QId) (n : Nat) (s : State) : Out := startRow (fun p => pkOp p = 0 && !pkAcc p) q n s
/-- R277. Adds source blocks into destination blocks. -/
def execReducingCopy (q : QId) (n : Nat) (s : State) : Out := startRow (fun p => pkOp p = 0 && pkAcc p) q n s
/-- R272. Transposes a 2-D array. -/
def execTranspose (q : QId) (n : Nat) (s : State) : Out := startRow (fun p => pkOp p = 1) q n s
/-- R273. Quantises floating-point blocks. -/
def execQuant (q : QId) (n : Nat) (s : State) : Out := startRow (fun p => pkOp p = 2) q n s
/-- R273. Decodes tagged blocks to floating point. -/
def execDequant (q : QId) (n : Nat) (s : State) : Out := startRow (fun p => pkOp p = 3) q n s
/-- R273. Permutes dimensions, with optional re-encoding. -/
def execSwizzle (q : QId) (n : Nat) (s : State) : Out := startRow (fun p => pkOp p = 4) q n s
/-- R271. Gathers rows by an index list. -/
def execGather (q : QId) (n : Nat) (s : State) : Out := startRow (fun p => pkOp p = 5) q n s
/-- R272. Forms convolution columns. -/
def execIm2col (q : QId) (n : Nat) (s : State) : Out := startRow (fun p => pkOp p = 6) q n s
/-- R271. Zeroes the destination. -/
def execZero (q : QId) (n : Nat) (s : State) : Out := startRow (fun p => pkOp p = 7) q n s
/-- R43. Moves lines with tags and epoch copies. -/
def execMigrate (q : QId) (n : Nat) (s : State) : Out := startRow (fun p => pkOp p = 8) q n s

/-! ### Landing (R280, R282, R283) -/

/-- The MAC of a line that moves to a block (R372, R373): made anew with the VP of its new page where it was good. -/
def State.moveMac (s : State) (src dst : Nat) : Map MacRec :=
  match mget? s.macs src with
  | none => mdel s.macs dst
  | some m =>
    let mac (blk : Nat) : Nat := macBlock (s.world m.world).mkey (s.stored src) (s.tag src) m.wva (vpOf s blk)
    mset s.macs dst (if m.mac = mac src then { m with mac := mac dst } else m)

/-- Moves a line to another home with its tag, its epoch copies, its MAC and its marks (R43). -/
def State.moveLine (s : State) (src dst : Nat) : State :=
  let s := (s.placeVp dst).dropClean fun l => l = src || l = dst
  let re (a : Nat) : Nat := a - 64 * src + 64 * dst
  let bs := s.stored src
  let here (a : Nat) : Bool := a / 64 = src
  let put (xs : List Nat) : List Nat :=
    if xs.contains src then insertNat (xs.filter (· ≠ dst)) dst else xs.filter (· ≠ dst)
  let j := s.jrnl.filter fun e => e.addr / 64 ≠ dst
  let tj := s.tjrnl.filter fun e => e.addr ≠ dst
  let w := match s.hub.sdc.find src with
    | some x => x.world
    | none => 0
  let s := { s with mem := mputs 0 s.mem (64 * dst) bs, tags := mput tag0 s.tags dst (s.tag src), macs := s.moveMac src dst,
                    jrnl := j.flatMap fun (e : Jr Byte) => if here e.addr then [e, { e with addr := re e.addr }] else [e],
                    tjrnl := tj.flatMap fun (e : Jr Tag) => if e.addr = src then [e, { e with addr := dst }] else [e] }
  let s := { s with marked := put s.marked, bad := put s.bad, written := insertNat s.written (dst / 64),
                    copies := s.copies.map fun (c : Copy) => if c.line = src then { c with line := dst } else c }
  let s := s.sdcWrite ⟨64 * dst, 64 * dst, w, false⟩ none
  if s.watched dst then s.touched dst else s

/-- The reducing add of a block (R277): both formats alike and wide floating point; the destination keeps its tag. A poisoned block
supplies NaN in the format of the other, which must be an accepted one; two poisoned blocks in that of the operands' unpoisoned
blocks, `fmt`; where they have none, in a one-byte format, with or without a sign as the free number `n` says (R92; log entry 103). -/
def accBlk (o : Who) (fmt : Option Elem) (n : Nat) (a : Nat) (sb : List Byte) (st : Tag) (db : List Byte) (dt : Tag) :
    Except Cause (List Byte × Nat) :=
  let wide (t : Tag) : Option Elem := wideFmt (t.toNat / 256)
  let nans (f : Elem) : List Byte × Nat := (packElems f (List.replicate f.count (f.enc (.nan false))), fPSN)
  let one (f : Option Elem) : Except Cause (List Byte × Nat) := match f with
    | some f => .ok (nans f)
    | none => .error .tag
  match decide (st.toNat % 256 = 255), decide (dt.toNat % 256 = 255) with
  | true, true => .ok (nans (fmt.getD (.b8 ⟨4, n % 2 = 0, false⟩)))
  | true, false => one (wide dt)
  | false, true => one (wide st)
  | false, false => match wide st, wide dt with
    | some f, some g =>
      if f = g then
        let e : Int := (dt.toNat % 256 : Nat) - 127
        let rm := rmOf o.mode o.mode
        let cv := (upto f.count).map fun i =>
          let x := (f.dec (elemAt f db i)).scale e
          let y := (f.dec (elemAt f sb i)).scale ((st.toNat % 256 : Nat) - 127)
          let (z, bad) := addFp (rm = .rd) x y
          let r := if rm = .sr then srDraw o.seed o.task (srAddr f a i) else 0
          let (c, fl) := f.conv rm r (z.scale (-e))
          (c, fl ||| if bad then fNV else 0)
        .ok (packElems f (cv.map Prod.fst), cv.foldl (fun z c => z ||| c.2) 0)
      else .error .tag
    | _, _ => .error .tag

/-- An operation stops at a fault (R282): a memory queue's shows FAULT; BCOPY's takes the task's disposition, and one held for
service starts again there. One that waits for a lender goes on from that block (R346). -/
def State.opFault (s : State) (q : QId) (o : BOp) (f : AFault) : State :=
  if f.waits then match o.prog.blocks with
    | .fault _ :: _ => s.updOp q o.n fun o => { o with prog := { o.prog with comp := false, blocks := [] } }
    | _ => s
  else
  let c := f.c
  let v := f.v
  let die (s : State) : State := (s.dropPresence o.core o.who.world o.prog.rows).updOp q o.n fun o =>
    { o with prog := { o.prog with blocks := [], rows := [], fol := none, fold := none, status := 2, cause := some (c.code, v) } }
  if isMemQ q then (die s).engineTrap o.who c f.sub v |>.1
  else
    let gone : Bool := match s.task? o.who.task with
      | some t => t.state = .done || t.state = .failed
      | none => true
    let pinned := match s.task? o.who.task with
      | some t => t.pinned
      | none => false
    match c.disp pinned with
    | .h =>
      let s := die s
      s.updQ q fun x => { x with fault := some (x.fault.getD ⟨c, o.n, v, o.who.task⟩) }
    | .s =>
      if gone then die s
      else (s.engineTrap o.who c f.sub v).1.updOp q o.n fun o =>
        { o with prog := { o.prog with comp := false, blocks := [], held := true } }
    | .d => if gone then die s else (s.engineTrap o.who c f.sub v).1
    | _ => ((die s).engineTrap o.who c f.sub v).1

/-- A block has landed: presence falls, the count rises, its flags join the record's. -/
def State.landed (s : State) (q : QId) (o : BOp) (a : Nat) (fl : Nat) : State :=
  let s := if o.prog.rows.contains (a / 64) then s.addPres o.core o.who.world (a / 64) false else s
  s.updOp q o.n fun o =>
    let p := { o.prog with blocks := o.prog.blocks.drop 1, landed := o.prog.landed + 1, rows := o.prog.rows.erase (a / 64) }
    { o with prog := { p with flags := p.flags ||| fl } }

/-- A block written to leased memory counts as performed once the lender has acknowledged it (R40); `s0` stands before the write. -/
def State.awaitHome (s s0 : State) (q : QId) (o : BOp) (a blk : Nat) : State :=
  if s.leased blk then
    let h := s.homeOf blk
    { (s.updOp q o.n fun o => { o with prog := { o.prog with sent := o.prog.sent + 1 } }) with
      remotes := s0.remotes ++ [⟨(mget Lease.none s.leases (leaseAt (64 * h))).lender, o.prog.sq, o.n, none, o.who.world, a, 0, 0, 0,
        o.prog.landed, s.stored blk, s.tag blk, some h, 0⟩] }
  else s

/-- A block lands at its home, added to what stands there where the copy reduces (R277). -/
def State.landHome (s : State) (q : QId) (o : BOp) (a : Nat) (loc : Loc) (bs : List Byte) (t : Tag) (rf : Nat) : State :=
  if s.retired.contains (loc.dpa / 65536) then s.opFault q o ⟨.ue, 0, blockVal loc.dpa⟩
  else if pkAcc o.pk then match s.engError loc true with
    | some e => s.opFault q o e
    | none =>
      let (db, dt) := s.block loc
      let (n, s) := s.draw
      match accBlk o.who o.prog.fmt n a bs t db dt with
      | .error c => s.opFault q o (faultAt c a)
      | .ok (x, fl) => ((s.engineBlock loc x dt).awaitHome s q o a (loc.dpa / 64)).landed q o a (recFlags fl)
  else ((s.engineBlock loc bs t).awaitHome s q o a (loc.dpa / 64)).landed q o a rf

/-- A block lands in scratchpad; in a steward's, loads may see the old words until its timeline reaches the copy (R289). -/
def State.landSpad (s : State) (q : QId) (o : BOp) (a : Nat) (bs : List Byte) (t : Tag) (rf : Nat) : State :=
  let w := o.who.world
  let put (s : State) (x : List Byte) (tg : Tag) : State :=
    let olds := if 192 ≤ o.core then (upto 16).map fun i => let l := s.spadLoc o.core w o.keyD (a + 4 * i); (l, mget 0 (s.core o.core).spad l)
      else []
    let s := (s.spadEnginePut o.core w o.keyD a x o.who.task).putSpadTag o.core w (a / 64) tg
    if olds.isEmpty then s
    else s.updCore o.core fun c => { c with landing := olds.foldl (fun m (e : Nat × Word) => mset m e.1 (o.n, e.2)) c.landing }
  if pkAcc o.pk then
    let (db, s) := s.spadEngineBytes o.core w o.keyD a 64 o.who.task
    let dt := s.spadTag o.core w (a / 64)
    let (n, s) := s.draw
    match accBlk o.who o.prog.fmt n a bs t db dt with
    | .error c => s.opFault q o (faultAt c a)
    | .ok (x, fl) => (put s x dt).landed q o a (recFlags fl)
  else (put s bs t).landed q o a rf

/-- What bars a MIGRATE from a line to another: an address it may not name, an error of the line, a retired page (R282, R347). -/
def State.moveBar (s : State) (a b : Nat) : Option AFault :=
  match s.dpaBar a, s.dpaBar b with
  | some (c, k), _ => some ⟨c, k, BitVec.ofNat 64 a⟩
  | none, some (c, k) => some ⟨c, k, BitVec.ofNat 64 b⟩
  | none, none =>
    if s.dataError a false then some ⟨.ue, 0, blockVal a⟩
    else if s.retired.contains (b / 65536) then some ⟨.ue, 0, blockVal b⟩ else none

/-- Lands the next block of an operation. -/
def State.landOp (s : State) (q : QId) (o : BOp) : State :=
  match o.prog.blocks with
  | [] => s
  | .fault f :: _ => s.opFault q o f
  | .move a b :: _ =>
    match s.askOf (match q with
      | .mem n => n
      | _ => 4095) o.n with
    | some (_, k) =>
      if !k.back && s.lineAway (a / 64) then s
      else
      let t := s.lseMoved k.back (a / 64) (b / 64)
      (if k.back then t.awaitHome t q o b (b / 64) else t).landed q o b 0
    | none => match s.moveBar a b with
      | some f => s.opFault q o f
      | none => let t := s.moveLine (a / 64) (b / 64); (t.awaitHome t q o b (b / 64)).landed q o b 0
  | .data a bs t rf :: _ =>
    match o.dst.space with
    | 1 => s.landSpad q o a bs t rf
    | 0 =>
      match s.engAddr o.core o.who.world .store a with
      | (s, .error (c, k)) => s.opFault q o ⟨c, k, BitVec.ofNat 64 a⟩
      | (s, .ok loc) => s.landHome q o a loc bs t rf
    | 3 =>
      match s.dpaBar a with
      | some (c, k) => s.opFault q o ⟨c, k, BitVec.ofNat 64 a⟩
      | none => (s.staleMac (a / 64)).landHome q o a ⟨a, a, 0, false⟩ bs t rf
    | _ =>
      let r : Remote := ⟨o.dst.mod, o.prog.sq, o.n, if pkAcc o.pk then some o.prog.landed else none, o.who.world, a, o.who.mode,
        o.who.seed, o.who.task, o.prog.landed, bs, t, none, fmtCode o.prog.fmt⟩
      let s := { s with remotes := s.remotes ++ [r] }
      (s.updOp q o.n fun o => { o with prog := { o.prog with sent := o.prog.sent + 1 } }).landed q o a rf

/-- The follow-on enters its matrix unit once the last block has landed, at another module too (R275, R40): refused for another
world's drawer, which is a fault of the operation, waiting while the unit has no room. -/
def State.tryFollow (s : State) (q : QId) (n : Nat) : State :=
  match s.op? q n with
  | none => s
  | some o =>
    match o.prog.fol with
    | none => s
    | some c =>
      if !o.prog.comp || !o.prog.blocks.isEmpty || o.prog.sent ≠ 0 || o.prog.held then s
      else
        let i := mxIx o.core (pkW o.pk 9 % 8)
        let clear (s : State) (f : BProg → BProg) : State := s.updOp q n fun o => { o with prog := f { o.prog with fol := none } }
        if (mget Drawer.init s.drawers i).world ≠ o.who.world then
          if isMemQ q then clear s fun p => { p with status := 2, cause := some (Cause.code .worldfence, 0) }
          else s.opFault q o ⟨.worldfence, 0, 0⟩
        else if (s.mxu i).room then clear (s.mxPush i c) id
        else s

/-! ### Completion (R281) -/

/-- The timeline follows the completed prefix. -/
def prefixTl : Nat → Nat → List Nat → Nat × List Nat
  | 0, tl, fin => (tl, fin)
  | k + 1, tl, fin => if fin.contains (tl + 1) then prefixTl k (tl + 1) (fin.erase (tl + 1)) else (tl, fin)

/-- The completion record (Table 10.5). -/
def compRecord (n bytes flags cause status : Nat) (addr : DWord) : List Byte :=
  natLe 8 n ++ natLe 8 bytes ++ natLe 4 (flags * 65536 + cause * 256 + status) ++ natLe 4 0 ++ natLe 8 addr.toNat

/-- Writes a memory queue's completion record and advances its timeline word (R281). -/
def State.postRecord (s : State) (q : QId) (n : Nat) (record : List Byte) : State :=
  match s.queue q with
  | none => s
  | some x =>
    let core := if x.eng then 208 else x.bind
    let s := if isMemQ q then (s.devWrite core x.world (x.cring + 32 * ((n - 1) % 2 ^ x.log2n)) record).1 else s
    let (tl, fin) := prefixTl (x.fin.length + 1) x.tl (n :: x.fin)
    let s := s.updQ q fun x => { x with tl := tl, fin := fin }
    let s := match q with
      | .stw k => s.updCore (192 + k) fun c => { c with landing := c.landing.filter fun e => tl < e.2.1 }
      | _ => s
    if isMemQ q && x.tl < tl then (s.devRmw core x.world (x.hdr + 0x80) 8 fun m => Nat.max m tl).1 else s

/-- An operation completes: its record, its timeline, its BDONE. -/
def State.completeOp (s : State) (q : QId) (o : BOp) : State :=
  let st := o.prog.status
  let (code, addr) := o.prog.cause.getD (0, 0)
  let s := s.postRecord q o.n (compRecord o.n (64 * o.prog.landed) o.prog.flags code st addr)
  let s := match q with
    | .mem k => s.lseDone k o.n (st = 0)
    | _ => s
  let s := s.updQ q fun x => { x with ops := x.ops.filter fun p => p.n ≠ o.n, lbuf := if pkLb o.pk && st = 0 then x.lbuf else [] }
  let s := { s with queues := s.queues.filter fun e => !(e.2.closed && e.2.ops.isEmpty) }
  match o.who.slot with
  | some n =>
    let (ok, s) := s.bdone (.core o.core) n true
    if ok then s else s.updQ q fun x => { x with fault := some (x.fault.getD ⟨.barovf, o.n, BitVec.ofNat 64 n, o.who.task⟩) }
  | none => s

/-- An operation that has nothing left to land makes its fold, which may fault (R273, R282), and completes. -/
def State.finishOp (s : State) (q : QId) (o : BOp) : State :=
  match o.prog.fold, o.prog.status with
  | some v, 0 => match s.devRmw o.core o.who.world (pkD o.pk 6) 4 fun m => aFmax 32 m v.toNat 0 with
    | (s, none) => s.completeOp q o
    | (s, some f) => s.opFault q o f
  | _, _ => s.completeOp q o

/-- R281. An operation completes with its record and timeline advance. -/
def execBteOperationComplete (q : QId) (n : Nat) (s : State) : Out :=
  let s := s.tryFollow q n
  match s.op? q n with
  | none => .next s
  | some o =>
    if o.prog.comp && o.prog.blocks.isEmpty && o.prog.fol.isNone && o.prog.sent = 0 && !o.prog.held then .next (s.finishOp q o)
    else .next s

/-- Service of an S fault: held operations of the task start again at their faulting block (R282). -/
def State.bteUnhold (s : State) (k : Nat) : State :=
  let f (o : BOp) : BOp := if o.who.task = k then { o with prog := { o.prog with held := false } } else o
  { s with queues := mmap (fun _ x => { x with ops := x.ops.map f }) s.queues }

/-! ### Other modules -/

/-- The receiver's window (R278): whether a block is applied, and the window after it. -/
def RWin.take (w : RWin) (seq idx : Nat) : Bool × RWin :=
  let ahead := (seq + 2 ^ 32 - w.newest) % 2 ^ 32
  if 0 < ahead && ahead < 2 ^ 31 then
    let keep := w.counts.filter fun p => (seq + 2 ^ 32 - p.1) % 2 ^ 32 < 4096
    (idx = 0, { w with newest := seq, counts := if idx = 0 then mset keep seq 1 else keep })
  else if 4096 ≤ (w.newest + 2 ^ 32 - seq) % 2 ^ 32 then (false, w)
  else
    let c := mget 0 w.counts seq
    if idx = c then (true, { w with counts := mset w.counts seq (c + 1) }) else (false, w)

/-- Whether a sequence is 4096 or more behind the newest (R278). -/
def RWin.stale (w : RWin) (seq : Nat) : Bool :=
  let behind := (w.newest + 2 ^ 32 - seq) % 2 ^ 32
  4096 ≤ behind && behind < 2 ^ 31

/-- R278. A reducing-copy block arrives at the receiving module: added once, at the line's home, with the rounding of the thread that
issued the copy (R86), else discarded; the sender gets an answer. Without the world's key context here it is barred (R283). -/
def execReduceBlockReceive (pkt : ReducePkt) (s : State) : Out :=
  let answer (s : State) (a : RemoteAns) : Out := .next (s.send (.blockAck pkt.mid pkt.queue pkt.seq.toNat pkt.idx a))
  let who : Who := ⟨0, pkt.world, none, 0, pkt.seed, pkt.mode.toNat, none, none⟩
  let fault (s : State) (f : AFault) : Out := if f.waits then .next s else answer (s.engineTrap who f.c f.sub f.v).1 (.fault f.c.code)
  let old := (s.rwins.find? fun w => w.mid = pkt.mid && w.queue = pkt.queue).getD
    ⟨pkt.mid, pkt.queue, (pkt.seq.toNat + 2 ^ 32 - 1) % 2 ^ 32, []⟩
  let (app, w) := old.take pkt.seq.toNat pkt.idx
  let keep (s : State) : State := { s with rwins := w :: s.rwins.filter fun x => !(x.mid = pkt.mid && x.queue = pkt.queue) }
  if !(s.world pkt.world).live then answer s (.fault (Cause.code .worldfence))
  else if old.stale pkt.seq.toNat then answer s .stale
  else if !app then answer (keep s) (.done 0)
  else match s.engAddr 208 pkt.world .store pkt.wva.toNat with
    | (s, .error (c, k)) => fault s ⟨c, k, pkt.wva⟩
    | (s, .ok loc) =>
      match s.engError loc true with
      | some e => fault s e
      | none =>
        let (db, dt) := s.block loc
        let (n, s) := s.draw
        match accBlk { who with task := pkt.task.toNat } (wideFmt pkt.fmt.toNat) n pkt.wva.toNat pkt.data pkt.tag db dt with
        | .error c => fault s (faultAt c pkt.wva.toNat)
        | .ok (x, fl) => answer ((keep s).engineBlock loc x dt) (.done (recFlags fl))

end Sys2Proof.Machine
end

