-- ==== Sys2Proof/Machine/Kv.lean ====
section
/-! DEFINITION. The KV arena (R290 to R295), the KV instructions (R296 to R304) and the KV loads (R199). -/

namespace Sys2Proof.Machine

/-! ### The arena's records -/

/-- An arena address: bound to its DPA (R373). -/
def kvLoc (w a : Nat) : Loc := ⟨a, a, w, false⟩
/-- Device-scope reads and writes of `n` bytes of the arena, outside every version. -/
def State.kvRd (s : State) (w a n : Nat) : Nat := leNat (s.readNow (kvLoc w a) n)
def State.kvWr (s : State) (w a n x : Nat) : State := s.homeWrite (kvLoc w a) (natLe n x)

def kvEmpty : Nat := 0xFFFFFFFF

/-- The arena header (Table 11.1). -/
structure Arena where
  w      : Nat
  hdr    : Nat
  pgbase : Nat
  dtab   : Nat
  stab   : Nat
  bpool  : Nat
  ptab   : Nat
  npage  : Nat
  nseq   : Nat
  nbkt   : Nat
  nkvh   : Nat
  nlayer : Nat
  deriving DecidableEq, Repr

def State.arena? (s : State) (w : Nat) : Option Arena :=
  (mget? s.arenas w).map fun h =>
    let r (o n : Nat) : Nat := s.kvRd w (h + o) n
    ⟨w, h, r 0 8, r 8 8, r 0x10 8, r 0x18 8, r 0x20 8, r 0x28 4, r 0x2C 4, r 0x30 4, r 0x35 1, r 0x34 1⟩

/-- A fault of an arena operation. -/
def kflt {α : Type} (c : Cause) (x : Nat) : Except AFault α := .error (faultAt c x)

/-- What bars a whole block of the arena to a write: an address that memory-side structures may not name (R14, R347), a retired page
(R332). -/
def State.kvBar (s : State) (a : Nat) : Except AFault Unit :=
  match s.dpaBar a with
  | some (c, k) => .error ⟨c, k, BitVec.ofNat 64 a⟩
  | none => if s.retired.contains (a / 65536) then .error ⟨.ue, 0, blockVal a⟩ else .ok ()
/-- The same of a block that is read, with its data errors (R330, R373). -/
def State.kvGood (s : State) (w a : Nat) : Except AFault Unit :=
  match s.dpaBar a with
  | some (c, k) => .error ⟨c, k, BitVec.ofNat 64 a⟩
  | none => match s.engError (kvLoc w a) with
    | some e => .error e
    | none => .ok ()
/-- The same of the arena header. -/
def State.kvHeader (s : State) (w : Nat) : Except AFault Unit :=
  match mget? s.arenas w with
  | none => .ok ()
  | some h => s.kvGood w h
def State.kvGoods (s : State) (w : Nat) : List Nat → Except AFault Unit
  | [] => .ok ()
  | a :: as => match s.kvGood w a with
    | .ok () => s.kvGoods w as
    | .error e => .error e

/-- Blocks of a key row (R293). -/
def keyBlocks (hdim esz : Nat) : Nat :=
  let n := (hdim * 2 ^ esz + 63) / 64
  if n ≤ 1 then 1 else if n ≤ 2 then 2 else 4
def KvParams.bk (p : KvParams) : Nat := keyBlocks p.hdim p.esz
/-- Slots of a value block, and bytes of an element. -/
def KvParams.e (p : KvParams) : Nat := 64 / 2 ^ p.esz
def KvParams.ez (p : KvParams) : Nat := 2 ^ p.esz

/-- The address of a projection record (R295). -/
def Arena.proj (a : Arena) (layer head : Nat) : Nat := a.ptab + 512 * (layer * a.nkvh + head)

/-- Opens (handle, layer, head) (R291): the records of Tables 11.2, 11.3 and 11.7. `word` is what TC_RESFIELD reports. -/
def State.kvOpen (s : State) (w seq layer head : Nat) (word : DWord) : Except AFault (Arena × KvParams) := do
  match mget? s.arenas w with
  | none => kflt .perm 0
  | some h => s.kvGood w h
  match s.arena? w with
  | none => kflt .perm 0
  | some a =>
    if a.nseq ≤ seq then kflt .perm seq
    else
      let r := a.stab + 64 * seq
      s.kvGood w r
      let w0 := s.kvRd w r 4
      if !bitAt w0 31 then kflt .perm seq
      else if a.nlayer ≤ layer || a.nkvh ≤ head then .error ⟨.resfield, 0, word⟩
      else
        let h := s.kvRd w (r + 8) 8 + 64 * (layer * a.nkvh + head)
        let p := a.proj layer head
        s.kvGoods w ([h] ++ (upto 8).map fun i => p + 64 * i)
        let b := bits (s.kvRd w (p + 4) 4) 3 0
        .ok (a, { hdim := bits w0 8 0, esz := bits w0 17 16, vtag := s.kvRd w (r + 6) 2, ktag := s.kvRd w (r + 4) 2,
                  maxp := s.kvRd w (r + 16) 4, plist := s.kvRd w (h + 8) 8, roots := s.kvRd w (h + 0x10) 8, head := h,
                  len := s.kvRd w h 4, repoch := s.kvRd w (h + 4) 4, b := b, epoch := s.kvRd w p 4,
                  rows := (upto 12).map fun i => s.kvRd w (p + 0x40 + 32 * i) 32 })

/-- What a page-list word names (R291). -/
inductive PEnt where
  | empty | out | page (p : Nat)
  deriving DecidableEq, Repr
def entOf (e : Nat) : PEnt := if e = kvEmpty then .empty else if bitAt e 31 then .out else .page (e % 2 ^ 24)
def State.kvEnt (s : State) (w : Nat) (p : KvParams) (k : Nat) : PEnt := entOf (s.kvRd w (p.plist + 4 * k) 4)

/-- Addresses of a page and of its descriptor (R292, R293). -/
def Arena.page (a : Arena) (p : Nat) : Nat := a.pgbase + 65536 * p
def Arena.desc (a : Arena) (p : Nat) : Nat := a.dtab + 16 * p
def State.seqctr (s : State) (a : Arena) (p : Nat) : Nat := s.kvRd a.w (a.desc p + 8) 4
def State.addSeqctr (s : State) (a : Arena) (p n : Nat) : State := s.kvWr a.w (a.desc p + 8) 4 ((s.seqctr a p + n) % 2 ^ 32)
def State.refc (s : State) (a : Arena) (p : Nat) : Nat := s.kvRd a.w (a.desc p + 0xC) 2
def State.pinc (s : State) (a : Arena) (p : Nat) : Nat := s.kvRd a.w (a.desc p + 0xE) 2
def State.setPinc (s : State) (a : Arena) (p n : Nat) : State := s.kvWr a.w (a.desc p + 0xE) 2 n
def State.deferred (s : State) (a : Arena) (p : Nat) : Bool := bitAt (s.kvRd a.w (a.desc p) 8) 62

/-- Frees a page (R304): SEQCTR + 2, V and DF cleared, the page pushed on PFREE. -/
def State.freePage (s : State) (a : Arena) (p : Nat) : State :=
  let s := s.addSeqctr a p 2
  let s := s.kvWr a.w (a.desc p) 8 (s.kvRd a.w (a.hdr + 0x38) 4)
  s.kvWr a.w (a.hdr + 0x38) 4 p

/-- Drops one pin (R303): the new count, the deferred free made when it reaches 0. -/
def State.unpinPage (s : State) (a : Arena) (p : Nat) : State :=
  let n := s.pinc a p - 1
  let s := s.setPinc a p n
  if n = 0 && s.deferred a p then s.freePage a p else s

/-- Allocates a page (R293): none where PFREE is empty. -/
def State.allocPage (s : State) (a : Arena) (p : KvParams) (seq layer head k : Nat) : Option (Nat × State) :=
  let pg := s.kvRd a.w (a.hdr + 0x38) 4
  if pg = kvEmpty then none
  else
    let s := s.kvWr a.w (a.hdr + 0x38) 4 (s.kvRd a.w (a.desc pg) 4)
    let z : List Byte := List.replicate 64 0
    let tagOf (i : Nat) : Tag := if 512 ≤ i then BitVec.ofNat 16 p.vtag else if i % 4 < p.bk then BitVec.ofNat 16 p.ktag else tag0
    let s := (upto 1024).foldl (fun (s : State) i => s.engineBlock (kvLoc a.w (a.page pg + 64 * i)) z (tagOf i)) s
    let s := s.kvWr a.w (a.desc pg) 8 (2 ^ 63 + k % 2 ^ 16 * 2 ^ 40 + head * 2 ^ 32 + layer * 2 ^ 24 + seq % 2 ^ 24)
    some (pg, s.kvWr a.w (a.desc pg + 0xC) 2 1)

/-! ### Signatures (R295) -/

/-- The decoded values of a row's blocks with their scales: none for a poisoned block or a format without elements. -/
def rowVals (bs : List (List Byte × Nat)) : Option (List Fp) :=
  bs.foldl (fun acc (b, t) => match acc, elemOf (t / 256) with
    | some xs, some f => if t % 256 = 255 then none
        else some (xs ++ (upto f.count).map fun i => (f.dec (elemAt f b i)).scale ((t % 256 : Nat) - 127))
    | _, _ => none) (some [])

/-- The exact sum of ±x(i), by the bits of a row. -/
def signedSum (row : Nat) (xs : List Fp) : Fp :=
  ((upto xs.length).zip xs).foldl (fun y (i, x) => (addFp false y (if bitAt row i then x else x.negate)).1) (.fin false 0 0)

/-- The signature of a vector, none where it has none. -/
def signature (b : Nat) (rows : List Nat) (hdim : Nat) (v : Option (List Fp)) : Option Nat :=
  match v with
  | none => none
  | some xs =>
    let xs := xs.take hdim
    let finite := xs.all fun x => match x with
      | .fin _ _ _ => true
      | _ => false
    if !finite then none
    else some (sumNat ((upto b).map fun i => if 0 < (signedSum (nth 0 rows i) xs).cmp (.fin false 0 0) then 2 ^ i else 0))

/-- The class of a block tag (R237). -/
def tagCls (t : Nat) : Option ECls := (elemOf (t / 256)).bind Elem.cls

/-! ### KV loads (R199) -/

/-- The page an address lies in, if it lies in the arena's pages. -/
def Arena.pageOf (a : Arena) (x n : Nat) : Option Nat :=
  if a.pgbase ≤ x && x + n ≤ a.pgbase + 65536 * a.npage then some ((x - a.pgbase) / 65536) else none

/-- LDK32 and LDK64. -/
def kvLoad (z : Nat) (d a i : BitVec 7) (s : State) : Out :=
  issue s [wV d (z / 4), rAddr a 2] [] fun g s l =>
    match s.bench? g.place, s.thread? g.place l with
    | some b, some t =>
      let va := worldAddr b t a i z
      if va.toNat % z ≠ 0 then .trap s .align 0 va
      else match s.kvHeader b.world with
      | .error f => .trap s f.c f.sub f.v
      | .ok () => match (s.arena? b.world).bind fun (ar : Arena) => ar.pageOf va.toNat z with
        | none => .trap s .perm 0 va
        | some _ =>
          let loc := kvLoc b.world va.toNat
          match s.dpaBar va.toNat with
          | some (c, k) => .trap s c k va
          | none =>
            if s.dataError va.toNat true then .trap s .ue 0 (blockVal va.toNat)
            else .done ((s.noteCheck b.task loc (some ⟨g.place, l⟩)).outV g.place l d (wordsOfBytes (s.readNow loc z)))
    | _, _ => .done s

/-- R199. Reads 4 bytes of a KV row by DPA. -/
def execLdk32 (d a i : BitVec 7) (s : State) : Out := kvLoad 4 d a i s
/-- R199. Reads 8 bytes of a KV row by DPA. -/
def execLdk64 (d a i : BitVec 7) (s : State) : Out := kvLoad 8 d a i s

/-- R199. Reads the sequence counter of a KV page, an acquire at device scope. -/
def execLsk32 (d a : BitVec 7) (s : State) : Out :=
  issue s [wV d, rAddr a 2] [] fun g s l =>
    match s.bench? g.place, s.thread? g.place l with
    | some b, some t =>
      let va := addrPair b t a
      match s.kvHeader b.world with
      | .error f => .trap s f.c f.sub f.v
      | .ok () => match s.arena? b.world with
      | none => .trap s .perm 0 va
      | some ar => match ar.pageOf va.toNat 1 with
        | none => .trap s .perm 0 va
        | some p => match s.kvGood b.world (ar.desc p) with
          | .error f => .trap s f.c f.sub f.v
          | .ok () => .done ((s.acquire .home).outV g.place l d [BitVec.ofNat 32 (s.seqctr ar p)])
    | _, _ => .done s

/-! ### Instructions on sequences -/

/-- The fault or the result of one lane. -/
inductive KRes where
  | fault (f : AFault)
  | absent (t : Nat)
  | ok (ws : List Word)
  deriving DecidableEq, Repr

/-- Completes an instruction with a lane operand (R296): each lane's result or fault; TC_KVABSENT reports the position of the
lowest lane that takes it (R297). -/
def kvFinish (d : BitVec 7) (g : Grp) (rs : List (Nat × KRes)) : State → Nat → LaneRes :=
  let low := (rs.filterMap fun r => match r.2 with
    | .absent t => some t
    | _ => none).head?.getD 0
  fun s l => match rs.find? fun r => r.1 = l with
    | some (_, .fault f) => .trap s f.c f.sub f.v
    | some (_, .absent _) => .trap s .kvabsent 0 (BitVec.ofNat 64 low)
    | some (_, .ok ws) => .done (s.outV g.place l d ws)
    | none => .done s

/-- The layer, head operand of Table 11.8. -/
def lhOf (w : Word) : Nat × Nat := (w.toNat % 256, bits w.toNat 15 8)

/-- R297. Translates token positions into KV row addresses. -/
def execKvx (d a b : BitVec 7) (s : State) : Out :=
  issueWith s [wV d 2, rV a, rU b 2] [] fun g s on =>
    match s.bench? g.place, on.head?.bind fun l0 => s.thread? g.place l0 with
    | some bn, some th =>
      let w1 := bn.u th (b.toNat + 1)
      let (ly, hd) := lhOf w1
      let word := wordVal g.w g.w2
      if bits w1.toNat 31 17 ≠ 0 then (s, fun s _ => .trap s .resfield 0 word)
      else match s.kvOpen bn.world (bn.u th b.toNat).toNat ly hd word with
        | .error f => (s, fun s _ => .trap s f.c f.sub f.v)
        | .ok (ar, p) =>
          let one (l : Nat) : Nat × KRes :=
            let t := match s.thread? g.place l with
              | some x => (x.v a.toNat).toNat
              | none => 0
            let k := t / 128
            let i := t % 128
            (l, if p.maxp ≤ k then .fault (faultAt .perm t)
              else match s.kvGood bn.world (p.plist + 4 * k) with
                | .error f => .fault f
                | .ok () => match s.kvEnt bn.world p k with
                  | .page pg =>
                    let x := if bitAt w1.toNat 16 then ar.page pg + 32768 + p.ez * i else ar.page pg + 256 * i
                    .ok [BitVec.ofNat 32 x, BitVec.ofNat 32 (x / 2 ^ 32)]
                  | _ => .absent t)
          (s, kvFinish d g (on.map one))
    | _, _ => (s, skipLane)

/-! ### KVPUT (R298, R299) -/

/-- Engine-path bytes at any scratchpad offset, for a task. -/
def State.wideBytes (s : State) (core w : Nat) (key : Word) (x n task : Nat) : List Byte × State :=
  let (bs, s) := s.spadEngineBytes core w key (x / 4 * 4) (n + x % 4) task
  (bs.drop (x % 4), s)

/-- Pushes every block of a chain to BFREE (fuel: the number of blocks). -/
def State.freeChain : Nat → State → Arena → Nat → State
  | 0, s, _, _ => s
  | f + 1, s, a, b =>
    if a.nbkt ≤ b then s
    else
      let nx := s.kvRd a.w (a.bpool + 64 * b + 0x3C) 4
      let s := s.kvWr a.w (a.bpool + 64 * b + 0x3C) 4 (s.kvRd a.w (a.hdr + 0x3C) 4)
      State.freeChain f (s.kvWr a.w (a.hdr + 0x3C) 4 b) a nx

/-- Empties the chains of a head record built for an older epoch (R299, step 4). -/
def State.renewRoots (s : State) (a : Arena) (p : KvParams) : State :=
  let s := (upto 4096).foldl (fun (s : State) i =>
    let x := p.roots + 4 * i
    let r := s.kvRd a.w x 4
    if r = kvEmpty then s else (s.freeChain a.nbkt a r).kvWr a.w x 4 kvEmpty) s
  let s := s.kvWr a.w (p.head + 4) 4 p.epoch
  s.kvWr a.w (p.head + 0x18) 4 (s.kvRd a.w (p.head + 0x18) 4 / 16 * 16 + p.b)

/-- Links position `t` into the bucket of its signature (R299, step 4): whether a link was made. -/
def State.kvLink (s : State) (a : Arena) (p : KvParams) (t : Nat) (sig : Option Nat) : Bool × State :=
  let s := if s.kvRd a.w (p.head + 4) 4 ≠ p.epoch then s.renewRoots a p else s
  match sig with
  | none => (false, s)
  | some g =>
    if p.b = 0 then (false, s)
    else
      let root := p.roots + 4 * g
      let hb := s.kvRd a.w root 4
      let blk (b : Nat) : Nat := a.bpool + 64 * b
      let cnt := bits (s.kvRd a.w (blk hb + 0x38) 4) 3 0
      if hb ≠ kvEmpty && cnt < 14 then
        let s := s.kvWr a.w (blk hb + 4 * cnt) 4 t
        (true, s.kvWr a.w (blk hb + 0x38) 4 (s.kvRd a.w (blk hb + 0x38) 4 + 1))
      else
        let nb := s.kvRd a.w (a.hdr + 0x3C) 4
        if nb = kvEmpty then (false, s)
        else
          let s := s.kvWr a.w (a.hdr + 0x3C) 4 (s.kvRd a.w (blk nb + 0x3C) 4)
          let s := s.kvWr a.w (blk nb) 4 t
          let s := s.kvWr a.w (blk nb + 0x38) 4 (s.kvRd a.w (blk nb + 0x38) 4 / 16 * 16 + 1)
          let s := s.kvWr a.w (blk nb + 0x3C) 4 hb
          (true, s.kvWr a.w root 4 nb)

/-- The blocks of the chain that starts at a bucket block (fuel: the number of blocks). -/
def State.chainBlks (s : State) (a : Arena) : Nat → Nat → List Nat
  | 0, _ => []
  | f + 1, b => if a.nbkt ≤ b then [] else (a.bpool + 64 * b) :: s.chainBlks a f (s.kvRd a.w (a.bpool + 64 * b + 0x3C) 4)
/-- The blocks that linking a signature reads or writes, beside the head record and the header (R299, step 4). -/
def State.linkBlks (s : State) (a : Arena) (p : KvParams) (sig : Option Nat) : List Nat :=
  let rootOf (i : Nat) : Nat := s.kvRd a.w (p.roots + 4 * i) 4
  let blk (b : Nat) : List Nat := if a.nbkt ≤ b then [] else [a.bpool + 64 * b]
  let stale := if s.kvRd a.w (p.head + 4) 4 = p.epoch then []
    else ((upto 256).map fun i => p.roots + 64 * i) ++ (upto 4096).flatMap fun i => s.chainBlks a a.nbkt (rootOf i)
  stale ++ match if p.b = 0 then none else sig with
    | none => []
    | some g => [p.roots + 4 * g] ++ blk (rootOf g) ++ blk (s.kvRd a.w (a.hdr + 0x3C) 4)

/-- The operands of a KVPUT that all lanes share. -/
structure PutOps where
  core : Nat
  task : Nat
  key  : Word
  seq  : Nat
  ly   : Nat
  hd   : Nat
  kovr : Nat
  relink : Bool
  kofs : Nat
  vofs : Nat

/-- A key block with the elements beyond HDIM zero (R293); `j` is its place in the row. -/
def KvParams.keyBlk (p : KvParams) (j : Nat) (bs : List Byte) : List Byte :=
  let n := p.hdim * p.ez - 64 * j
  if 64 ≤ n then bs else bs.take n ++ List.replicate (64 - n) 0

/-- The address of value element `d` of slot `i` of a page (R293). -/
def KvParams.elemAt (p : KvParams) (a : Arena) (pg i d : Nat) : Nat := a.page pg + 32768 + 128 * p.ez * d + p.ez * i

/-- What keeps a lane from writing the row of a page, before any of it is written: the page's addresses, data errors of the blocks its
elements change in part, and a marked block of the value row (R331). -/
def State.putBar (s : State) (a : Arena) (p : KvParams) (o : PutOps) (l pg i : Nat) : Except AFault Unit :=
  match s.kvBar (a.page pg) with
  | .error f => .error f
  | .ok () => match s.kvGoods a.w ((upto p.hdim).map fun d => p.elemAt a pg i d / 64 * 64).dedup with
    | .error f => .error f
    | .ok () => match s.firstMarked o.core a.w (o.vofs + 256 * l) (p.hdim * p.ez) with
      | some b => .error ⟨.ue, 1, BitVec.ofNat 64 (64 * b)⟩
      | none => .ok ()

/-- The page that the put of a lane finds or allocates, with its descriptor checked; or the result without one. -/
def State.putPage (s : State) (a : Arena) (p : KvParams) (o : PutOps) (t : Nat) : Except (State × KRes) (Nat × State) :=
  let k := t / 128
  let st (n : Nat) : Except (State × KRes) (Nat × State) := .error (s, .ok [BitVec.ofNat 32 n])
  match s.kvEnt a.w p k with
  | .out => .error (s, .absent t)
  | .page pg => match s.kvGood a.w (a.desc pg) with
    | .error f => .error (s, .fault f)
    | .ok () => .ok (pg, s)
  | .empty =>
    let pf := s.kvRd a.w (a.hdr + 0x38) 4
    if o.relink then st 5
    else if pf = kvEmpty then st 1
    else match s.kvBar (a.page pf), s.kvGood a.w (a.desc pf) with
      | .error f, _ => .error (s, .fault f)
      | .ok (), .error f => .error (s, .fault f)
      | .ok (), .ok () => match s.allocPage a p o.seq o.ly o.hd k with
        | none => st 1
        | some (pg, s) => .ok (pg, s.kvWr a.w (p.plist + 4 * k) 4 pg)

/-- Whether a lane's relink waits for an even sequence counter (R299). -/
def State.relinkWaits (s : State) (a : Arena) (p : KvParams) (t : Nat) : Bool :=
  t / 128 < p.maxp && match s.kvGood a.w (p.plist + 4 * (t / 128)), s.kvEnt a.w p (t / 128) with
    | .ok (), .page pg => (match s.kvGood a.w (a.desc pg) with
      | .ok () => s.seqctr a pg % 2 = 1
      | .error _ => false)
    | _, _ => false

/-- The steps of one lane (R299), for position `t`. -/
def State.kvPutLane (s : State) (a : Arena) (p : KvParams) (o : PutOps) (l t : Nat) : State × KRes :=
  let k := t / 128
  let i := t % 128
  let st (s : State) (n : Nat) : State × KRes := (s, .ok [BitVec.ofNat 32 n])
  if p.maxp ≤ k then st s 4
  else match s.kvGood a.w (p.plist + 4 * k) with
  | .error f => (s, .fault f)
  | .ok () =>
    match s.putPage a p o t with
    | .error r => r
    | .ok (pg, s) =>
      if 1 < s.refc a pg && !o.relink then st s 2
      else
        let kx (j : Nat) : Nat := o.kofs + 256 * l + 64 * j
        let (blks, s) := (upto p.bk).foldl (fun (acc : List (List Byte × Nat) × State) j =>
          let (bs, s) := acc.2.wideBytes o.core a.w o.key (kx j) 64 o.task
          let tg := if o.kovr = 0 then (s.spadTag o.core a.w (kx j / 64)).toNat else o.kovr
          (acc.1 ++ [(bs, tg)], s)) ([], s)
        let bad := ((upto p.bk).zip blks).find? fun (_, _, tg) => tg % 256 ≠ 255 && tagCls tg ≠ tagCls p.ktag
        match bad with
        | some (j, _) => (s, .fault (faultAt .tag (kx j)))
        | none =>
          let row := a.page pg + 256 * i
          match if o.relink then s.kvGoods a.w ((upto p.bk).map fun j => row + 64 * j) else s.putBar a p o l pg i with
          | .error f => (s, .fault f)
          | .ok () =>
          let put (s : State) : State :=
            let s := s.addSeqctr a pg 1
            let s := ((upto p.bk).zip blks).foldl (fun (s : State) (j, bs, tg) =>
              s.engineBlock (kvLoc a.w (row + 64 * j)) (p.keyBlk j bs) (BitVec.ofNat 16 tg)) s
            let (vs, s) := s.wideBytes o.core a.w o.key (o.vofs + 256 * l) (p.hdim * p.ez) o.task
            let s := (upto p.hdim).foldl (fun (s : State) d =>
              s.homeWrite (kvLoc a.w (p.elemAt a pg i d)) ((vs.drop (p.ez * d)).take p.ez)) s
            s.addSeqctr a pg 1
          let s := if o.relink then s else put s
          let key := (upto p.bk).map fun j =>
            let (bs, tg) := s.block (kvLoc a.w (row + 64 * j))
            (bs, tg.toNat)
          let sig := signature p.b p.rows p.hdim (rowVals key)
          match s.kvGoods a.w (s.linkBlks a p sig) with
          | .error f => (s, .fault f)
          | .ok () =>
          let (ok, s) := s.kvLink a p t sig
          let s := s.kvWr a.w p.head 4 (Nat.max (s.kvRd a.w p.head 4) ((t + 1) % 2 ^ 32))
          st s (if ok then 0 else 3)

/-- A scratchpad extent of a lane that lies beyond the world's scratchpad: the offending offset (R298). -/
def PutOps.beyond (o : PutOps) (p : KvParams) (size l : Nat) : Option Nat :=
  if size < o.kofs + 256 * l + 64 * p.bk then some (o.kofs + 256 * l)
  else if size < o.vofs + 256 * l + p.hdim * p.ez then some (o.vofs + 256 * l)
  else none

/-- R299. Writes and links one token per lane into the KV arena. -/
def execKvput (d a b : BitVec 7) (s : State) : Out :=
  issueWith s [wV d, rV a, rU b 4] [] fun g s on =>
    match s.bench? g.place, on.head?.bind fun l0 => s.thread? g.place l0 with
    | some bn, some th =>
      let c (i : Nat) : Nat := (bn.u th (b.toNat + i)).toNat
      let word := wordVal g.w g.w2
      if bits (c 1) 31 16 ≠ 0 then (s, fun s _ => .trap s .resfield 0 word)
      else match s.kvOpen bn.world (c 0) (c 1 % 256) (bits (c 1) 15 8) word with
        | .error f => (s, fun s _ => .trap s f.c f.sub f.v)
        | .ok (ar, p) =>
          let core := coreIx g.place
          let o : PutOps := ⟨core, bn.task, bn.spkey, c 0, c 1 % 256, bits (c 1) 15 8, bits (c 2) 31 16, bitAt (c 2) 15, 64 * (c 2 % 2 ^ 15), c 3⟩
          let size := s.spadSize core bn.world
          let inside := on.filter fun l => (o.beyond p size l).isNone
          let away := inside.any fun l =>
            (blkSpan (o.kofs + 256 * l) (64 * p.bk) ++ blkSpan (o.vofs + 256 * l) (p.hdim * p.ez)).any fun x =>
              s.pres core bn.world x ≠ 0
          let posOf (l : Nat) : Nat := match s.thread? g.place l with
            | some x => (x.v a.toNat).toNat
            | none => 0
          if away || s.unchecked bn.task || (o.relink && inside.any fun l => s.relinkWaits ar p (posOf l)) then (s, fun s _ => .poll s .engine)
          else
            let s := s.pin bn.task
            let (s, rs) := on.foldl (fun (acc : State × List (Nat × KRes)) l =>
              match o.beyond p size l with
              | some x => (acc.1, acc.2 ++ [(l, .fault (faultAt .worldfence x))])
              | none =>
                let (s, r) := acc.1.kvPutLane ar p o l (posOf l)
                (s, acc.2 ++ [(l, r)])) (s, [])
            (s, kvFinish d g rs)
    | _, _ => (s, skipLane)

/-! ### Pins, frees and projections -/

/-- The common part of KVPIN, KVUNPIN and KVFREE: checks, the pin of the task, the page-list entry; `f` gives the result. -/
def kvPage (d a b : BitVec 7) (f : State → Arena → KvParams → Nat → PEnt → Option (Word × State)) (s : State) : Out :=
  issueOnce s [rU a 2, rU b 1, wV d] fun s g l0 on =>
    match s.bench? g.place, s.thread? g.place l0 with
    | some bn, some th =>
      let w1 := bn.u th (a.toNat + 1)
      let k := (bn.u th b.toNat).toNat
      let (ly, hd) := lhOf w1
      let word := wordVal g.w g.w2
      if bits w1.toNat 31 16 ≠ 0 then .trap s .resfield 0 word
      else match s.kvOpen bn.world (bn.u th a.toNat).toNat ly hd word with
        | .error f => .trap s f.c f.sub f.v
        | .ok (ar, p) =>
          if p.maxp ≤ k then .trap s .perm 0 (BitVec.ofNat 64 k)
          else match s.kvGood bn.world (p.plist + 4 * k) with
            | .error f => .trap s f.c f.sub f.v
            | .ok () =>
              if s.unchecked bn.task then .poll s .engine
              else
                let e := s.kvEnt bn.world p k
                let good : Except AFault Unit := match e with
                  | .page pg => s.kvGood bn.world (ar.desc pg)
                  | _ => .ok ()
                match good with
                | .error f => .trap s f.c f.sub f.v
                | .ok () =>
                  let s := s.pin bn.task
                  match f s ar p k e with
                  | none => .trap s .kvabsent 0 (BitVec.ofNat 64 (128 * k))
                  | some (w, s) => .done (s.outAll g.place on d [w])
    | _, _ => .done s

/-- R303. Raises a KV page's pin count. -/
def execKvpin (d a b : BitVec 7) (s : State) : Out :=
  kvPage d a b (fun s ar _ _ e => match e with
    | .empty => some (0xFFFFFFFF#32, s)
    | .out => none
    | .page p =>
      let n := s.pinc ar p
      if n = 65535 then some (0xFFFFFFFE#32, s) else some (BitVec.ofNat 32 (n + 1), s.setPinc ar p (n + 1))) s

/-- R303. Lowers a KV page's pin count, freeing a deferred page. -/
def execKvunpin (d a b : BitVec 7) (s : State) : Out :=
  kvPage d a b (fun s ar _ _ e => match e with
    | .empty | .out => some (0xFFFFFFFF#32, s)
    | .page p =>
      let n := s.pinc ar p
      if n = 0 then some (0xFFFFFFFF#32, s) else some (BitVec.ofNat 32 (n - 1), s.unpinPage ar p)) s

/-- R304. Drops a sequence's reference to a KV page. -/
def execKvfree (d a b : BitVec 7) (s : State) : Out :=
  kvPage d a b (fun s ar p k e => match e with
    | .empty => some (3, s)
    | .out => none
    | .page pg =>
      let r := s.refc ar pg - 1
      let s := (s.kvWr ar.w (p.plist + 4 * k) 4 kvEmpty).kvWr ar.w (ar.desc pg + 0xC) 2 r
      if r ≠ 0 then some (2, s)
      else if s.pinc ar pg = 0 then some (0, s.freePage ar pg)
      else
        let x := s.kvRd ar.w (ar.desc pg) 8
        some (1, s.kvWr ar.w (ar.desc pg) 8 (if bitAt x 62 then x else x + 2 ^ 62))) s

/-- R302. Loads a projection matrix and raises its epoch. -/
def execAproj (d a b : BitVec 7) (s : State) : Out :=
  issueOnce s [rU a 1, rU b 1, wV d] fun s g l0 on =>
    match s.bench? g.place, s.thread? g.place l0 with
    | some bn, some th =>
      let w := (bn.u th a.toNat).toNat
      let ofs := (bn.u th b.toNat).toNat
      let core := coreIx g.place
      let bb := bits w 19 16
      let word := wordVal g.w g.w2
      if bits w 31 20 ≠ 0 || bb < 6 || 12 < bb then .trap s .resfield 0 word
      else match s.kvHeader bn.world with
        | .error f => .trap s f.c f.sub f.v
        | .ok () => match s.arena? bn.world with
        | none => .trap s .perm 0 0
        | some ar =>
          let ly := w % 256
          let hd := bits w 15 8
          if ar.nlayer ≤ ly || ar.nkvh ≤ hd then .trap s .resfield 0 word
          else if ofs % 64 ≠ 0 then .trap s .align 0 (BitVec.ofNat 64 ofs)
          else if s.spadSize core bn.world < ofs + 32 * bb then .trap s .worldfence 0 (BitVec.ofNat 64 ofs)
          else if s.unchecked bn.task || (blkSpan ofs (32 * bb)).any (fun x => s.pres core bn.world x ≠ 0) then .poll s .engine
          else
            let r := ar.proj ly hd
            match s.firstMarked core bn.world ofs (32 * bb), s.kvGoods bn.world ((upto 8).map fun i => r + 64 * i) with
            | some x, _ => .trap s .ue 1 (BitVec.ofNat 64 (64 * x))
            | none, .error f => .trap s f.c f.sub f.v
            | none, .ok () =>
              let s := s.pin bn.task
              let (bs, s) := s.wideBytes core bn.world bn.spkey ofs (32 * bb) bn.task
              let s := s.homeWrite (kvLoc bn.world (r + 0x40)) bs
              let s := s.kvWr bn.world (r + 4) 4 (s.kvRd bn.world (r + 4) 4 / 16 * 16 + bb)
              let e := (s.kvRd bn.world r 4 + 1) % 2 ^ 32
              .done ((s.kvWr bn.world r 4 e).outAll g.place on d [BitVec.ofNat 32 e])
    | _, _ => .done s

end Sys2Proof.Machine
end

