-- ==== Sys2Proof/Machine/Asq.lean ====
section
/-! DEFINITION. The attention sequencer (R305 to R317): ASTART, AMLOAD and ASTAT, the start of a run, the micro-ops of Table 11.13, the
ends of a run. -/

namespace Sys2Proof.Machine

def Asq.init : Asq := { store := [], last := none, runs := [], next := 1, done := 0, recs := [], fault := none }
def State.asq (s : State) (core : Nat) : Asq := mget Asq.init s.asqs core
def State.updAsq (s : State) (core : Nat) (f : Asq → Asq) : State := { s with asqs := mupd Asq.init s.asqs core f }

/-! ### The control store (R307, R309, R317) -/

/-- The default microprogram (R317): its 33 words. -/
def microDefault : List Nat :=
  let op (n : Nat) : Nat := n * 2 ^ 58
  let ra (n : Nat) : Nat := n * 2 ^ 54
  let rb (n : Nat) : Nat := n * 2 ^ 50
  let tg (n : Nat) : Nat := n * 2 ^ 24
  let cnt (k a b n : Nat) : Nat := op 5 + ra a + rb b + k * 2 ^ 20 + n
  let brc (a b t c : Nat) : Nat := op 21 + ra a + rb b + tg t + c
  [op 1, brc 0 15 29 0, op 4, brc 15 15 8 6, op 2, op 3, op 4 + 1, op 19, cnt 1 1 0 0, brc 1 15 29 0, cnt 4 2 15 0,
   op 6 + ra 2, op 7, brc 15 15 11 3, op 8, op 9, op 10, op 11, op 12, op 13, op 14, op 15, op 16, cnt 4 2 2 1,
   op 22 + ra 1 + tg 11, op 23, op 17, op 18, op 24, op 23, op 17, op 18, op 24 + 1]
/-- A microword of the store. -/
def Asq.word (a : Asq) (i : Nat) : DWord := (mget? a.store i).getD (BitVec.ofNat 64 (nth 0 microDefault i))
/-- The store is reloaded for a world other than the last to use the sequencer (R307). -/
def Asq.enter (a : Asq) (w : Nat) : Asq := if a.last = some w then a else { a with store := [], last := some w }

/-! ### Run records (R308, R316) -/

def stDone : Nat := 0
def stEmpty : Nat := 1
def stDense : Nat := 2
def stFault : Nat := 3
def stCancelled : Nat := 4

def ARun.attended (r : ARun) : Nat := sumNat (r.att.map Prod.snd)

/-- A field of the start block (Table 11.10). -/
def ARun.b (r : ARun) (i : Nat) : Nat := (nth 0 r.blk i).toNat
def ARun.qrows (r : ARun) : Nat := r.b 1 % 256
def ARun.qstr (r : ARun) : Nat := bits (r.b 1) 31 16
def ARun.drw (r : ARun) : Nat := bits (r.b 3) 18 16
def ARun.pfmt (r : ARun) : Nat := bits (r.b 4) 15 8
def ARun.sparse (r : ARun) : Bool := bitAt (r.b 4) 0
def ARun.fbtrap (r : ARun) : Bool := bitAt (r.b 4) 1
def ARun.win (r : ARun) : Nat := bits (r.b 5) 31 16
def ARun.glim (r : ARun) : Nat := bits (r.b 5) 15 0
def ARun.chmax (r : ARun) : Nat := bits (r.b 6) 15 8
def ARun.hr (r : ARun) : Nat := bits (r.b 6) 3 0
def ARun.stg (r : ARun) : Nat := r.b 8
def ARun.oofs (r : ARun) : Nat := r.b 9
def ARun.lofs (r : ARun) : Nat := r.b 10
def ARun.qovr (r : ARun) : Nat := r.b 12 % 65536
/-- M (R306). -/
def rowsM (q : Nat) : Nat := if q ≤ 8 then 8 else if q ≤ 16 then 16 else if q ≤ 32 then 32 else 64
def ARun.m? (r : ARun) : Nat := rowsM r.qrows
/-- Nv (R310). -/
def KvParams.nv (p : KvParams) : Nat := if p.hdim ≤ 64 then 1 else if p.hdim ≤ 128 then 2 else 4

/-- The matrix unit of a run. -/
def ARun.mx (r : ARun) (core : Nat) : Nat := mxIx core r.drw

/-- Whether a command of the run is outstanding. -/
def State.runBusy (s : State) (core : Nat) (r : ARun) : Bool := (s.mxu (r.mx core)).queue.any fun c => c.who.run = some r.num

/-- Drops the pins of the run's chunk (R315, R316). -/
def State.dropPins (s : State) (r : ARun) : State :=
  match s.arena? r.who.world with
  | none => s
  | some a => r.pins.foldl (fun s p => match s.kvGood a.w (a.desc p.1) with
    | .ok () => s.unpinPage a p.1
    | .error _ => s) s

/-- The record of the last 16 runs. -/
def Asq.record (a : Asq) (x : ARec) : Asq := { a with recs := (x :: a.recs).take 16 }

/-- Gathers that have not landed are dropped, with the presence they raised (R182). -/
def State.dropGathers (s : State) (core : Nat) (r : ARun) : State := s.dropPresence core r.who.world (r.gath.map fun g => g.x / 64)

/-- A run leaves the sequencer (R316): its gathers and pins, its record, `t8`, the contents of the tiles and units it used, a claim that
waited for it. -/
def State.endRun (s : State) (core : Nat) (r : ARun) (status cause : Nat) : State :=
  let s := (s.dropGathers core r).dropPins r
  let b := s.draws
  let s := { s with draws := b + 32768 }
  let s := s.updMxu (r.mx core) fun x => { x with data := x.data.freeRun b }
  let s := s.updAsq core fun a => { a.record ⟨r.num, status, cause, r.attended⟩ with runs := a.runs.drop 1, done := r.num }
  s.unclaimMx (r.mx core)

/-- The status word (Table 11.11). -/
def statusWord (status cause : Nat) : Nat := cause * 2 ^ 16 + status

/-- The scratchpad words a cancelled run leaves unspecified: its outputs and logsumexps (R316). -/
def State.scrambleRun (s : State) (core : Nat) (r : ARun) : State :=
  let words := (upto r.qrows).flatMap fun q => (r.lofs + 4 * q) :: (upto r.kv.hdim).map fun d => r.oofs + 1024 * q + 4 * d
  s.scramble (words.map fun x => (core, s.spadLoc core r.who.world r.who.key x))

/-- A run ends with STATUS FAULT (R316): H causes are delivered through the fault record, with the status word as `tval` of
TC_MICRO and TC_DENSEFB; of a run whose task has ended there is none. -/
def State.failRun (s : State) (core : Nat) (r : ARun) (c : Cause) (v : DWord) : State :=
  let s := s.endRun core r stFault c.code
  let v := if c = .micro || c = .densefb then BitVec.ofNat 64 (statusWord stFault c.code) else v
  let live : Bool := match s.task? r.who.task with
    | some t => t.state.reads
    | none => false
  if c.disp false = .h && live then
    s.updAsq core fun a => { a with fault := some (a.fault.getD ⟨c, r.num, v, r.who.task⟩) }
  else s

/-! ### The frame of a micro-op -/

/-- What a micro-op leads to. -/
inductive MicroRes where
  | go (s : State) (r : ARun)
  | jump (s : State) (r : ARun) (pc : Nat)
  | wait (s : State) (r : ARun)
  /-- a fault that takes its disposition for the starting task -/
  | data (s : State) (r : ARun) (f : AFault)
  /-- a fault that ends the run -/
  | bad (s : State) (r : ARun) (c : Cause) (v : DWord)
  | halt (s : State) (r : ARun) (status : Nat)

/-- Puts the run in execution back. -/
def State.putRun (s : State) (core : Nat) (r : ARun) : State :=
  s.updAsq core fun a => { a with runs := match a.runs with
    | _ :: rest => r :: rest
    | [] => [] }

/-- Whether a task may still take an engine's fault (R316). -/
def State.taskLive (s : State) (k : Nat) : Bool :=
  match s.task? k with
  | some t => match t.state with
    | .running | .stopped | .saved => true
    | _ => false
  | none => false

/-- A data fault of a run (R316). -/
def State.runFault (s : State) (core : Nat) (r : ARun) (f : AFault) : State :=
  if f.waits then s.putRun core r
  else if s.taskLive r.who.task then
    let (s, held) := (s.putRun core r).engineTrap r.who f.c f.sub f.v
    if held then s.putRun core { r with held := true } else s
  else s.putRun core { r with bad := some (f.c, f.v) }

/-- Puts the outcome of a micro-op into effect. -/
def MicroRes.apply (core : Nat) : MicroRes → State
  | .go s r => s.putRun core { r with pc := r.pc + 1, sub := 0 }
  | .jump s r pc => s.putRun core { r with pc := pc, sub := 0 }
  | .wait s r => s.putRun core r
  | .data s r f => s.runFault core r f
  | .bad s r c v => s.putRun core { r with bad := some (c, v) }
  | .halt s r st => s.endRun core r st 0

/-- One micro-op of the run in execution (R310): a cancelled run ends at this boundary (R316), a faulted one once its commands
have completed, and a held one waits for service. -/
def micro (s : State) (f : State → Nat → ARun → MicroRes) : Out :=
  match s.cur with
  | .micro core =>
    let s := { s with cur := .idle }
    match (s.asq core).runs with
    | [] => .next s
    | r :: _ =>
      if !r.on || r.held && !r.cancel then .next s
      else if r.cancel then .next ((s.scrambleRun core r).endRun core r stCancelled 0)
      else match r.bad with
        | some (c, v) => .next (if s.runBusy core r || !r.gath.isEmpty then s else s.failRun core r c v)
        | none => .next ((f s core r).apply core)
  | _ => .fault .noContext

/-- A micro-op that works on the current chunk (R309). -/
def microChunk (s : State) (f : State → Nat → ARun → List (Option Nat) → MicroRes) : Out :=
  micro s fun s core r => match r.d.ct with
    | some ct => f s core r ct
    | none => .bad s r .micro 0

/-- A microword that is no micro-op, or the PC past 4095 (R309). -/
def microBad (s : State) : Out := micro s fun s _ r => .bad s r .micro 0

/-! ### Micro registers and branches -/

def ARun.reg (r : ARun) (i : BitVec 4) : Word := nth 0 r.m i.toNat
def ARun.setReg (r : ARun) (i : BitVec 4) (x : Nat) : ARun := { r with m := setNth r.m i.toNat (BitVec.ofNat 32 x) }
def ARun.m0 (r : ARun) : Nat := (nth 0 r.m 0).toNat

/-- R310. ra := |TL|. -/
def execCntTl (ra : BitVec 4) (s : State) : Out := micro s fun s _ r => .go s (r.setReg ra r.d.tl.length)
/-- R310. ra := ceil(|TL| ÷ E). -/
def execCntChunks (ra : BitVec 4) (s : State) : Out :=
  micro s fun s _ r => .go s (r.setReg ra ((r.d.tl.length + r.kv.e - 1) / r.kv.e))
/-- R310. ra := m0. -/
def execCntLen (ra : BitVec 4) (s : State) : Out := micro s fun s _ r => .go s (r.setReg ra r.m0)
/-- R310. ra := the valid entries of CT. -/
def execCntAct (ra : BitVec 4) (s : State) : Out :=
  microChunk s fun s _ r ct => .go s (r.setReg ra (ct.filter Option.isSome).length)
/-- R310. ra := rb + sext(n). -/
def execCntAdd (ra rb : BitVec 4) (n : BitVec 20) (s : State) : Out :=
  micro s fun s _ r => .go s (r.setReg ra (r.reg rb + n.signExtend 32).toNat)
/-- R310. Branch. -/
def execBr (tgt : BitVec 12) (s : State) : Out := micro s fun s _ r => .jump s r tgt.toNat
/-- R310. Conditional branch; testing RETRY clears it. -/
def execBrc (ra rb : BitVec 4) (tgt : BitVec 12) (cond : BitVec 4) (s : State) : Out :=
  micro s fun s _ r =>
    let a := r.reg ra
    let b := r.reg rb
    let go (c : Bool) (r : ARun) : MicroRes := if c then .jump s r tgt.toNat else .go s r
    match cond.toNat with
    | 0 => go (a = b) r
    | 1 => go (a ≠ b) r
    | 2 => go (a.toNat < b.toNat) r
    | 3 => go r.retry { r with retry := false }
    | 4 => go r.fb r
    | 5 => go r.sparse r
    | 6 => go (!r.sparse) r
    | _ => .bad s r .micro 0
/-- R310. Decrement and branch. -/
def execLoop (ra : BitVec 4) (tgt : BitVec 12) (s : State) : Out :=
  micro s fun s _ r =>
    let x := r.reg ra - 1
    let r := r.setReg ra x.toNat
    if x ≠ 0 then .jump s r tgt.toNat else .go s r

/-! ### Queries, lists and walks -/

/-- Query blocks of row q: offsets. -/
def ARun.qblocks (r : ARun) (q : Nat) : List Nat := (upto r.kv.bk).map fun j => r.b 0 + q * r.qstr + 64 * j

/-- Reads query blocks through the wide port, with QOVR (R310). -/
def State.queryBlks (s : State) (core : Nat) (r : ARun) : List Nat → List (Nat × List Byte × Nat) × State
  | [] => ([], s)
  | x :: xs =>
    let (bs, s) := s.spadEngineBytes core r.who.world r.who.key x 64 r.who.task
    let (t, _) := tagFor (s.spadTag core r.who.world (x / 64)).toNat r.qovr
    let (rest, s) := State.queryBlks s core r xs
    ((x, bs, t) :: rest, s)

def negInf : Word := 0xFF800000#32

/-- Whether scratchpad blocks await a landing (R183). -/
def State.anyAbsent (s : State) (core w : Nat) (xs : List Nat) : Bool := xs.any fun x => s.pres core w (x / 64) ≠ 0

/-- R310. Reads the records and checks the query blocks and PFMT; clears the state of the run. -/
def execQload (s : State) : Out :=
  micro s fun s core r =>
    match s.kvOpen r.who.world (r.b 2) (r.b 3 % 256) (bits (r.b 3) 15 8) 0 with
    | .error f => .data s r f
    | .ok (_, p) =>
      let r := { r with kv := p }
      let xs := (upto r.qrows).flatMap r.qblocks
      if s.anyAbsent core r.who.world xs then .wait s r
      else
        let (bs, s) := s.queryBlks core r xs
        match bs.find? fun b => b.2.2 % 256 ≠ 255 && tagCls b.2.2 ≠ tagCls p.ktag with
        | some (x, _, _) => .bad s r .tag (BitVec.ofNat 64 x)
        | none =>
          if (elemOf r.pfmt).bind Elem.cls ≠ tagCls p.vtag then .bad s r .tag 0
          else
            let d : AData := { r.d with tl := [], gl := [], mr := List.replicate 64 negInf, lr := List.replicate 64 0, o := [] }
            .go s { (r.setReg 0 p.len) with d := d, retry := false, fb := false, dns := false }

/-- R295, R310. Signatures of the query rows. -/
def execSig (s : State) : Out :=
  micro s fun s core r =>
    let xs := (upto r.qrows).flatMap r.qblocks
    if s.anyAbsent core r.who.world xs then .wait s r
    else
      let (bs, s) := s.queryBlks core r xs
      let sg := (upto r.qrows).map fun q =>
        signature r.kv.b r.kv.rows r.kv.hdim (rowVals (((bs.drop (q * r.kv.bk)).take r.kv.bk).map Prod.snd))
      let fb := r.kv.b = 0 || r.kv.repoch ≠ r.kv.epoch || sg.any Option.isNone
      .go s { r with d := { r.d with sig := some sg }, fb := r.fb || fb }

/-- Number of ones. -/
def popcount (x : Nat) : Nat := ((upto 16).filter fun i => bitAt x i).length

/-- Positions below `bound` enter the gather list until it passes `lim` (R312): the list, and whether it has not. -/
def gatherIn (bound lim : Nat) : List Nat → List Nat → List Nat × Bool
  | [], gl => (gl, true)
  | x :: xs, gl =>
    let gl := if x < bound then insertNat gl x else gl
    if lim < gl.length then (gl, false) else gatherIn bound lim xs gl

/-- A chain's positions enter the gather list (R312): the list, and whether the walk goes on; or a data fault. -/
def State.walkChain (s : State) (a : Arena) (bound lim : Nat) : Nat → Nat → List Nat → Except AFault (List Nat × Bool)
  | n, b, gl =>
    if b = kvEmpty then .ok (gl, true)
    else if a.nbkt ≤ b then .ok (gl, false)
    else match n with
      | 0 => .ok (gl, false)
      | n + 1 =>
        let x := a.bpool + 64 * b
        match s.kvGood a.w x with
        | .error e => .error e
        | .ok () =>
          let cnt := bits (s.kvRd a.w (x + 0x38) 4) 3 0
          if 14 < cnt then .ok (gl, false)
          else match gatherIn bound lim ((upto cnt).map fun i => s.kvRd a.w (x + 4 * i) 4) gl with
            | (gl, false) => .ok (gl, false)
            | (gl, true) => s.walkChain a bound lim n (s.kvRd a.w (x + 0x3C) 4) gl

/-- The arena of a run's world, with its header checked. -/
def State.runArena (s : State) (r : ARun) : Except AFault Arena :=
  match s.kvHeader r.who.world, s.arena? r.who.world with
  | .error f, _ => .error f
  | .ok (), none => kflt .perm 0
  | .ok (), some a => .ok a

/-- R312. Walks the bucket chains near the query signatures into the gather list. -/
def execKwalk (s : State) : Out :=
  micro s fun s _ r =>
    match r.d.sig, s.runArena r with
    | none, _ => .bad s r .micro 0
    | some _, .error f => .data s r f
    | some sg, .ok a =>
      let near (x : Nat) : Bool := sg.any fun q => match q with
        | some y => popcount (x ^^^ y) ≤ r.hr
        | none => false
      let bound := r.m0 - r.win
      let wide := Nat.min r.win r.m0
      let res := ((upto (2 ^ r.kv.b)).filter near).foldl (fun (acc : Except AFault (List Nat × Bool)) sig =>
        match acc with
        | .ok (gl, true) => match s.kvGood a.w (r.kv.roots + 4 * sig) with
          | .error e => .error e
          | .ok () => s.walkChain a bound (r.glim - wide) r.chmax (s.kvRd a.w (r.kv.roots + 4 * sig) 4) gl
        | acc => acc) (.ok ([], decide (wide ≤ r.glim)))
      match res with
      | .error f => .data s r f
      | .ok (gl, ok) => .go s { r with d := { r.d with gl := gl }, fb := r.fb || !ok }

/-- R310. TL := every position below m0. -/
def execTlstDense (s : State) : Out := micro s fun s _ r => .go s { r with d := { r.d with tl := upto r.m0 } }
/-- R310. TL := GL, then the window. -/
def execTlstGathered (s : State) : Out :=
  micro s fun s _ r =>
    let lo := r.m0 - r.win
    .go s { r with d := { r.d with tl := r.d.gl ++ (upto (r.m0 - lo)).map fun i => lo + i } }
/-- R313. Falls back to dense, or ends with TC_DENSEFB. -/
def execFbk (s : State) : Out :=
  micro s fun s _ r =>
    if !r.fb then .go s r
    else if r.fbtrap then .bad s r .densefb 0
    else .go s { r with d := { r.d with tl := upto r.m0 }, dns := true, fb := false }

/-! ### Chunks (R315) -/

/-- The page-list entries of a chunk: each position's page, or a fault. -/
def State.chunkEnts (s : State) (w : Nat) (p : KvParams) : List (Option Nat) → Except AFault (List (Option (Nat × Nat)))
  | [] => .ok []
  | x :: xs =>
    let one : Except AFault (Option (Nat × Nat)) := match x with
      | none => .ok none
      | some x =>
        if p.maxp ≤ x / 128 then .ok none
        else match s.kvGood w (p.plist + 4 * (x / 128)) with
          | .error e => .error e
          | .ok () => match s.kvEnt w p (x / 128) with
            | .empty => .ok none
            | .out => kflt .kvabsent x
            | .page pg => .ok (some (x, pg))
    match one, s.chunkEnts w p xs with
    | .error e, _ => .error e
    | .ok _, .error e => .error e
    | .ok y, .ok ys => .ok (y :: ys)

/-- The gathers of a chunk into staging (R315, step 4), in the order they land. -/
def ARun.gathers (r : ARun) (a : Arena) (es : List (Option (Nat × Nat))) : List GBlk :=
  let p := r.kv
  let keys := (upto 64).flatMap fun n => (upto p.bk).map fun j =>
    (⟨r.stg + 4096 * j + 64 * n, match (es[n]?).join with
      | some (x, pg) => .key (a.page pg + 256 * (x % 128) + 64 * j)
      | none => .zero p.ktag⟩ : GBlk)
  let value (d : Nat) (e : Option (Nat × Nat)) : Option Nat := e.bind fun (x, pg) =>
    if d < p.hdim then some (a.page pg + 32768 + 128 * p.ez * d + p.ez * (x % 128)) else none
  keys ++ (upto (64 * p.nv)).map fun d =>
    (⟨r.stg + 0x4000 + 64 * d, .value ((upto p.e).map fun n => value d (es[n]?).join) p.ez p.vtag⟩ : GBlk)

/-- What a gather reads when it lands: bytes and tag, or a data fault. -/
def State.gathered (s : State) (w : Nat) : GSrc → Except AFault (List Byte × Tag)
  | .key a => match s.kvGood w a with
    | .error e => .error e
    | .ok () => .ok (s.block (kvLoc w a))
  | .value as ez tag => match s.kvGoods w (as.filterMap id) with
    | .error e => .error e
    | .ok () => .ok (as.flatMap fun (a : Option Nat) => match a with
        | some a => s.readNow (kvLoc w a) ez
        | none => List.replicate ez 0, BitVec.ofNat 16 tag)
  | .zero tag => .ok (List.replicate 64 0, BitVec.ofNat 16 tag)

/-- The next gather of a core's run lands, as a block of its BTE does (R94, R182, R315). A data fault takes its disposition; under S
the run resumes at the GATH (R316). -/
def State.landGather (s : State) (core : Nat) : State :=
  match (s.asq core).runs with
  | [] => s
  | r :: _ => match r.gath with
    | [] => s
    | g :: rest => match s.gathered r.who.world g.src with
      | .error f => if f.waits then s else (s.dropGathers core r).runFault core { r with gath := [], pc := r.gpc, sub := 0 } f
      | .ok (bs, t) =>
        let s := (s.spadEnginePut core r.who.world r.who.key g.x bs r.who.task (some (8, r.num))).putSpadTag core r.who.world (g.x / 64) t
        (s.addPres core r.who.world (g.x / 64) false).putRun core { r with gath := rest }

/-- R182. One destination block of a BTE operation, or of a sequencer's gather, is written whole with its tag. -/
def execBteBlockLand (q : QId) (n : Nat) (s : State) : Out :=
  match q with
  | .asq core => .next (s.landGather core)
  | _ => match s.op? q n with
    | none => .next s
    | some o =>
      if o.prog.state = .running && o.prog.comp && !o.prog.held then .next ((s.landOp q o).tryFollow q n) else .next s

/-- R315. Pins the pages of chunk ra, records their counters and starts the gathers of its rows on the core's BTE; it waits while
staging blocks still await a landing. -/
def execGath (ra : BitVec 4) (s : State) : Out :=
  micro s fun s core r =>
    match s.runArena r with
    | .error f => .data s r f
    | .ok a =>
      if !r.gath.isEmpty then .wait s r
      else
      let s := s.dropPins r
      let r := { r with pins := [] }
      let c := (r.reg ra).toNat
      let xs := (upto r.kv.e).map fun n => r.d.tl[r.kv.e * c + n]?
      match s.chunkEnts r.who.world r.kv xs with
      | .error f => .data s r f
      | .ok es =>
        let pages := (es.filterMap fun e => e.map Prod.snd).foldl insertNat []
        match s.kvGoods r.who.world (pages.map a.desc) with
        | .error f => .data s r f
        | .ok () =>
          let gs := r.gathers a es
          let rows := gs.map fun g => g.x / 64
          if (pages.any fun p => s.pinc a p = 65535 || s.seqctr a p % 2 = 1) || !s.presFits core r.who.world rows then .wait s r
          else
            let s := pages.foldl (fun (s : State) p => s.setPinc a p (s.pinc a p + 1)) s
            let ct := es.map fun e => e.map Prod.fst
            let r := { r with pins := pages.map fun p => (p, s.seqctr a p), d := { r.d with ct := some ct },
                              att := mset r.att c (ct.filter Option.isSome).length, gath := gs, gpc := r.pc }
            .go (s.raise core r.who.world rows) r

/-- R315. Waits for the gathers and compares the page counters. -/
def execSync (s : State) : Out :=
  microChunk s fun s _ r _ =>
    if !r.gath.isEmpty then .wait s r
    else match s.runArena r with
    | .error f => .data s r f
    | .ok a => match s.kvGoods r.who.world (r.pins.map fun p => a.desc p.1) with
    | .error f => .data s r f
    | .ok () => .go s { r with retry := r.retry || r.pins.any fun p => s.seqctr a p.1 ≠ p.2 }

/-- Whether the matrix unit has room for `n` more commands of the run. -/
def State.roomFor (s : State) (i n : Nat) : Bool := ((s.mxu i).queue.filter fun c => c.kind ≠ .row).length + n ≤ 16

def ARun.cmd (r : ARun) (k : MxKind) (t m b x ovr str w : Nat) : MxCmd :=
  mxBuild k { r.who with run := some r.num, slot := none } t m b
    ⟨BitVec.ofNat 32 x, BitVec.ofNat 32 (ovr * 65536 + str), [BitVec.ofNat 32 w]⟩ .none

/-- A micro-op that issues commands and goes on. -/
def ARun.issue (r : ARun) (s : State) (core : Nat) (cs : List MxCmd) (next : State → MicroRes) : MicroRes :=
  if s.roomFor (r.mx core) cs.length then next (cs.foldl (fun s c => s.mxPush (r.mx core) c) s) else .wait s r

/-- R310. Issues MLDW of the staged keys. -/
def execKload (s : State) : Out :=
  microChunk s fun s core r _ => r.issue s core [r.cmd .ldw 0 64 r.kv.bk r.stg 0 0 0] fun s => .go s r
/-- R310. Issues MLDW of the staged values. -/
def execVload (s : State) : Out :=
  microChunk s fun s core r _ => r.issue s core [r.cmd .ldw 0 64 r.kv.nv (r.stg + 0x4000) 0 0 0x10000] fun s => .go s r

/-! ### Arithmetic -/

/-- FP32 arithmetic, each result rounded once to nearest even (R310). -/
def rne32 (x : Fp) : Word := enc32 (roundTo fmt32 .rne 0 x).1
def mul32 (a b : Word) : Word := rne32 (mulFp (dec32 a) (dec32 b)).1
def sub32 (a b : Word) : Word := rne32 (addFp false (dec32 a) (dec32 b).negate).1
def max32 (a b : Word) : Word := if (dec32 a).ltSigned (dec32 b) then b else a
def noNan32 (a : Word) : Word := if (dec32 a).isNan then negInf else a
def isZero32 (a : Word) : Bool := (dec32 a).isZero

def ARun.sb (r : ARun) (q n : Nat) : Word := mget 0 r.d.sb (64 * q + n)
def ARun.mrq (r : ARun) (q : Nat) : Word := nth negInf r.d.mr q
def ARun.mnq (r : ARun) (q : Nat) : Word := nth negInf r.d.mn q
def ARun.lrq (r : ARun) (q : Nat) : Word := nth 0 r.d.lr q
def ARun.oq (r : ARun) (q d : Nat) : Word := mget 0 r.d.o (256 * q + d)

/-- R310. Scores: MZERO and MMA on tile 0, then SB. -/
def execSmm (s : State) : Out :=
  microChunk s fun s core r _ =>
    let i := r.mx core
    if r.sub = 0 then
      r.issue s core [r.cmd .zero 0 r.m? 1 0 0 0 0, r.cmd .mma 0 r.m? r.kv.bk (r.b 0) r.qovr r.qstr 0] fun s => .wait s { r with sub := 1 }
    else if s.runBusy core r then .wait s r
    else
      let d := (s.mxu i).data
      let sb := (upto r.qrows).foldl (fun (m : Map Word) q => (upto 64).foldl (fun (m : Map Word) n =>
        mput 0 m (64 * q + n) (mul32 (rne32 (d.elem 0 q n).fp) (nth 0 r.blk 7))) m) r.d.sb
      .go s { r with d := { r.d with sb := sb } }

/-- R310. Masks invalid columns. -/
def execMask (s : State) : Out :=
  microChunk s fun s _ r ct =>
    let bad (n : Nat) : Bool := r.kv.e ≤ n || ((ct[n]?).join).isNone
    let sb := (upto 64).foldl (fun (m : Map Word) q => (upto 64).foldl (fun (m : Map Word) n =>
      if bad n then mput 0 m (64 * q + n) negInf else m) m) r.d.sb
    .go s { r with d := { r.d with sb := sb } }

/-- R310. New running maxima. -/
def execRmax (s : State) : Out :=
  microChunk s fun s _ r _ =>
    let mn := (upto 64).map fun q => (upto 64).foldl (fun a n => max32 a (noNan32 (r.sb q n))) (noNan32 (r.mrq q))
    .go s { r with d := { r.d with mn := mn } }

/-- R310. Rescales LR and O to the new maxima. -/
def execResc (s : State) : Out :=
  microChunk s fun s _ r _ =>
    let fac (q : Nat) : Word :=
      if r.mnq q = negInf then 0x3F800000#32
      else if r.mrq q = negInf then 0
      else rne32 (ex2Fp (dec32 (sub32 (r.mrq q) (r.mnq q)))).1
    let fs := (upto 64).map fac
    let o := (upto r.qrows).foldl (fun (m : Map Word) q => (upto r.kv.hdim).foldl (fun (m : Map Word) d =>
      mput 0 m (256 * q + d) (mul32 (r.oq q d) (nth 0 fs q))) m) r.d.o
    let lr := (upto 64).map fun q => mul32 (r.lrq q) (nth 0 fs q)
    .go s { r with d := { r.d with lr := lr, o := o, mr := (upto 64).map r.mnq } }

/-- The format of the probabilities. -/
def ARun.pelem (r : ARun) : Elem := (elemOf r.pfmt).getD .bf16

/-- R310, R151. Probabilities, rounded once to PFMT, written to staging. -/
def execExps (s : State) : Out :=
  microChunk s fun s core r _ =>
    let f := r.pelem
    let one (q n : Nat) : Nat :=
      if r.sb q n = negInf then 0 else (f.conv .rne 0 (ex2Fp (dec32 (sub32 (r.sb q n) (r.mrq q)))).1).1
    let rows := (upto r.qrows).map fun q => (upto r.kv.e).map fun n => one q n
    let pq := ((upto rows.length).zip rows).foldl (fun (m : Map Word) (q, row) =>
      ((upto row.length).zip row).foldl (fun (m : Map Word) (n, c) => mput 0 m (64 * q + n) (BitVec.ofNat 32 c)) m) []
    let s := (upto r.m?).foldl (fun (s : State) q =>
      let bs := (packElems f (nth [] rows q) ++ List.replicate 64 0).take 64
      let x := r.stg + 0x8000 + 64 * q
      (s.spadEnginePut core r.who.world r.who.key x bs r.who.task (some (8, r.num))).putSpadTag core r.who.world (x / 64) (BitVec.ofNat 16 (r.pfmt * 256 + 127))) s
    .go s { r with d := { r.d with pq := pq } }

/-- R310. LR + Σ p, one rounding. -/
def execRsum (s : State) : Out :=
  microChunk s fun s _ r _ =>
    let sum (q : Nat) : Word := rne32 ((upto r.kv.e).foldl (fun y n =>
      (addFp false y (r.pelem.dec (mget 0 r.d.pq (64 * q + n)).toNat)).1) (dec32 (r.lrq q)))
    .go s { r with d := { r.d with lr := (upto 64).map fun q => if q < r.qrows then sum q else r.lrq q } }

/-- R310. P × V, 64 dimensions at a time, added into O. -/
def execPmm (s : State) : Out :=
  microChunk s fun s core r _ =>
    let i := r.mx core
    let h := r.sub / 2
    if (r.kv.hdim + 63) / 64 ≤ h then .go s r
    else if r.sub % 2 = 0 then
      r.issue s core [r.cmd .zero 1 r.m? 1 0 0 0 0, r.cmd .mma 1 r.m? 1 (r.stg + 0x8000) 0 64 (0x10000 + 4096 * h)] fun s =>
        .wait s { r with sub := r.sub + 1 }
    else if s.runBusy core r then .wait s r
    else
      let d := (s.mxu i).data
      let o := (upto r.qrows).foldl (fun (m : Map Word) q => (upto 64).foldl (fun (m : Map Word) n =>
        let k := 64 * h + n
        if k < r.kv.hdim then
          mput 0 m (256 * q + k) (rne32 (addFp false (dec32 (mget 0 m (256 * q + k))) (d.elem 1 q n).fp).1)
        else m) m) r.d.o
      let r := { r with d := { r.d with o := o }, sub := r.sub + 1 }
      if (r.kv.hdim + 63) / 64 ≤ h + 1 then .go s r else .wait s r

/-- R310. Writes the normalised output. -/
def execSto (s : State) : Out :=
  micro s fun s core r =>
    let w := r.who.world
    let s := (upto r.qrows).foldl (fun (s : State) q =>
      let rc := rne32 (rcpFp (dec32 (r.lrq q))).1
      let out (d : Nat) : Word := if isZero32 (r.lrq q) then 0 else mul32 (r.oq q d) rc
      let x := r.oofs + 1024 * q
      let s := (upto r.kv.hdim).foldl (fun (s : State) d => s.spadPut core w r.who.key (x + 4 * d) (out d) r.who.task (some (8, r.num))) s
      (upto (r.kv.hdim / 16)).foldl (fun (s : State) j => s.putSpadTag core w (x / 64 + j) 0x077F#16) s) s
    .go s r

/-- R310. Writes the logsumexp. -/
def execLse (s : State) : Out :=
  micro s fun s core r =>
    let out (q : Nat) : Word :=
      if isZero32 (r.lrq q) then negInf
      else rne32 (addFp false (dec32 (r.mrq q)) (dec32 (rne32 (lg2Fp (dec32 (r.lrq q))).1))).1
    .go ((upto r.qrows).foldl (fun (s : State) q => s.spadPut core r.who.world r.who.key (r.lofs + 4 * q) (out q) r.who.task (some (8, r.num))) s) r

/-- R310. Waits for the run's commands. -/
def execWaitz (s : State) : Out := micro s fun s core r => if s.runBusy core r || !r.gath.isEmpty then .wait s r else .go s r

/-- R316. Ends the run: DONE, or DENSE where it fell back, or EMPTY. -/
def execMicroHalt (code : Bool) (s : State) : Out :=
  micro s fun s core r =>
    if s.runBusy core r || !r.gath.isEmpty then .wait s r
    else .halt s r (if code then stEmpty else if r.dns then stDense else stDone)

/-- R305. The sequencer begins the next queued run at its entry. -/
def execAsqRunStart (core : Nat) (s : State) : Out :=
  match (s.asq core).runs with
  | r :: _ =>
    if r.on then .next s
    else .next ((s.updAsq core fun a => a.enter r.who.world).putRun core { r with on := true, pc := r.b 11 % 4096 })
  | [] => .next s

/-- Service of an S fault: held runs of the task resume at their micro-op (R316). -/
def State.asqUnhold (s : State) (k : Nat) : State :=
  let f (r : ARun) : ARun := if r.who.task = k then { r with held := false } else r
  { s with asqs := mmap (fun _ a => { a with runs := a.runs.map f }) s.asqs }

/-! ### ASTART, AMLOAD, ASTAT -/

/-- The static checks of a start block (R306, Table 11.10). -/
def startBad (blk : List Word) : Bool :=
  let w (i : Nat) : Nat := (nth 0 blk i).toNat
  let fmtOk := match elemOf (bits (w 4) 15 8) with
    | some (.int 8 _) | some (.b8 _) | some .fp16 | some .bf16 => true
    | _ => false
  bits (w 1) 15 8 ≠ 0 || w 1 % 256 = 0 || 64 < w 1 % 256 || bits (w 1) 31 16 % 64 ≠ 0 || bits (w 3) 31 19 ≠ 0 || bits (w 4) 31 16 ≠ 0
    || bits (w 4) 7 2 ≠ 0 || !fmtOk || 4096 < bits (w 5) 31 16 || bits (w 5) 15 0 = 0 || 8192 < bits (w 5) 15 0
    || bits (w 6) 31 16 ≠ 0 || bits (w 6) 7 4 ≠ 0 || bits (w 6) 15 8 = 0 || 12 < bits (w 6) 3 0 || bits (w 11) 31 12 ≠ 0
    || bits (w 12) 31 16 ≠ 0 || w 13 ≠ 0 || w 14 ≠ 0 || w 15 ≠ 0
/-- A misaligned offset. -/
def startAlign (blk : List Word) : Option Nat :=
  let w (i : Nat) : Nat := (nth 0 blk i).toNat
  if w 0 % 64 ≠ 0 then some (w 0) else if w 8 % 64 ≠ 0 then some (w 8) else if w 9 % 64 ≠ 0 then some (w 9)
  else if w 10 % 4 ≠ 0 then some (w 10) else none
/-- An extent beyond the scratchpad: its offset. -/
def startBeyond (blk : List Word) (p : KvParams) (size : Nat) : Option Nat :=
  let w (i : Nat) : Nat := (nth 0 blk i).toNat
  let q := w 1 % 256
  if size < w 0 + (rowsM q - 1) * bits (w 1) 31 16 + 64 * p.bk then some (w 0)
  else if size < w 8 + 36864 then some (w 8)
  else if size < w 9 + 1024 * (q - 1) + 4 * p.hdim then some (w 9)
  else if size < w 10 + 4 * q then some (w 10)
  else none

/-- The fault record of the sequencer reaches the task that started the run (R316). -/
def Asq.deliver (a : Asq) (k : Nat) : Option FaultRec := a.fault.bind fun f => if f.task = k then some f else none

/-- R306. Checks a start block, claims the MXU and queues an attention run. -/
def execAstart (d a : BitVec 7) (s : State) : Out :=
  issueOnce s [rU a 16, wV d 2] fun s g l0 on =>
    match s.bench? g.place, s.thread? g.place l0 with
    | some bn, some th =>
      let blk := bn.us th a 16
      let w (i : Nat) : Nat := (nth 0 blk i).toNat
      let word := wordVal g.w g.w2
      let core := coreIx g.place
      let v (x : Nat) : DWord := BitVec.ofNat 64 x
      if startBad blk then .trap s .resfield 0 word
      else match startAlign blk with
        | some x => .trap s .align 0 (v x)
        | none => match s.kvOpen bn.world (w 2) (w 3 % 256) (bits (w 3) 15 8) word with
          | .error f => .trap s f.c f.sub f.v
          | .ok (_, p) =>
            if bits (w 1) 31 16 < 64 * p.bk then .trap s .resfield 0 word
            else match startBeyond blk p (s.spadSize core bn.world) with
              | some x => .trap s .worldfence 0 (v x)
              | none =>
                let i := mxIx core (bits (w 3) 18 16)
                if (mget Drawer.init s.drawers i).world ≠ bn.world then .trap s .worldfence 0 (v (bits (w 3) 18 16))
                else match (s.asq core).deliver bn.task with
                  | some f => .trap s f.cause 0 f.addr
                  | none =>
                    if 4 ≤ (s.asq core).runs.length || s.vacated.contains core || s.unchecked bn.task then .poll s .engine
                    else match s.claimMx i bn.task with
                      | none => .poll s .engine
                      | some s =>
                        let n := (s.asq core).next
                        let who : Who := ⟨bn.task, bn.world, some g.place, bn.spkey, 0, 0, none, some n⟩
                        let data : AData := { tl := [], gl := [], sig := none, ct := none, mr := List.replicate 64 negInf,
                                              mn := List.replicate 64 negInf, lr := List.replicate 64 0, o := [], sb := [], pq := [] }
                        let r : ARun := { num := n, who := who, blk := blk, kv := p, d := data, pc := 0, m := List.replicate 16 0,
                                          retry := false, fb := false, dns := false, att := [], pins := [], gath := [], gpc := 0, sub := 0, bad := none,
                                          on := false, held := false, cancel := false }
                        let s := s.updAsq core fun x => { x with runs := x.runs ++ [r], next := n + 1 }
                        .done (s.outAll g.place on d [BitVec.ofNat 32 n, BitVec.ofNat 32 (n / 2 ^ 32)])
    | _, _ => .done s

/-- R307. Writes microwords into the control store. -/
def execAmload (d a : BitVec 7) (s : State) : Out :=
  issueOnce s [rU a 2, wV d] fun s g l0 on =>
    match s.bench? g.place, s.thread? g.place l0 with
    | some bn, some th =>
      let x := (bn.u th a.toNat).toNat
      let c := (bn.u th (a.toNat + 1)).toNat
      let core := coreIx g.place
      let first := c % 4096
      let n := bits c 27 16 + 1
      if bits c 31 28 ≠ 0 || bits c 15 12 ≠ 0 || 4096 < first + n then .trap s .resfield 0 (wordVal g.w g.w2)
      else if x % 8 ≠ 0 then .trap s .align 0 (BitVec.ofNat 64 x)
      else if s.spadSize core bn.world < x + 8 * n then .trap s .worldfence 0 (BitVec.ofNat 64 x)
      else match (s.asq core).deliver bn.task with
        | some f => .trap s f.cause 0 f.addr
        | none =>
          if !(s.asq core).runs.isEmpty || s.unchecked bn.task || s.anyAbsent core bn.world ((blkSpan x (8 * n)).map (· * 64)) then .poll s .engine
          else match s.firstMarked core bn.world x (8 * n) with
          | some m => .trap s .ue 1 (BitVec.ofNat 64 (64 * m))
          | none =>
            let (bs, s) := s.wideBytes core bn.world bn.spkey x (8 * n) bn.task
            let ws := (chunk n 8 bs).map fun b => BitVec.ofNat 64 (leNat b)
            let s := s.updAsq core fun q => { q.enter bn.world with store := msets (q.enter bn.world).store first ws }
            .done (s.outAll g.place on d [0])
    | _, _ => .done s

/-- The record ASTAT reports (R308): status word and count. A number not assigned yet reads as pending. -/
def Asq.stat (a : Asq) (n : Nat) : Nat × Nat :=
  match a.recs.find? fun r => r.num = n with
  | some r => (statusWord r.status r.cause, r.att)
  | none => match a.runs.find? fun r => r.num = n with
    | some r => (0xFF, r.attended)
    | none => if a.next ≤ n then (0xFF, 0) else (0xFE, 0)

/-- R308. Reads an attention run's record. -/
def execAstat (d a : BitVec 7) (s : State) : Out :=
  issueOnce s [rAddr a 2, wV d 2] fun s g l0 on =>
    match s.bench? g.place, s.thread? g.place l0 with
    | some bn, some th =>
      let n := (addrPair bn th a).toNat
      let core := coreIx g.place
      let (st, c) := (s.asq core).stat n
      let s := s.updAsq core fun q => { q with fault := match q.fault with
        | some f => if f.num = n then none else some f
        | none => none }
      .done (s.outAll g.place on d [BitVec.ofNat 32 st, BitVec.ofNat 32 c])
    | _, _ => .done s

end Sys2Proof.Machine
end

