-- ==== Sys2Proof/Machine/Control.lean ====
section
/-! DEFINITION. Group G9 and the prefixes: control transfer and the return stack (R109, R163, R164), EXIT, traps, waits, windows, ERET and
HALT (R165 to R171), GRD and REP (R60 to R62), and the fates of malformed words and failed fetches (R70, R71, R113). -/

namespace Sys2Proof.Machine

/-- The 64-bit value of a vector pair. -/
def Thread.target (t : Thread) (a : BitVec 7) : DWord := ofPair (t.v a.toNat) (t.v (a.toNat + 1))

/-- The checks of a register branch target (R53, R163). -/
def targetFault (x : DWord) : Option Cause :=
  if x.toNat / 2 ^ 56 ≠ 0 then some .page else if x.toNat % 4 ≠ 0 then some .align else none

/-- A return-stack spill or fill is a plain world access of the task, exempt from the declared-region check (R109): its faults are
those of R197 and R330 to R332, and a fill's data is checked as a load's (R47). -/
def State.rsAccess (s : State) (p : Place) (l : Nat) (k : AKind) (va : DWord) : State × Except AFault (Loc × Task) :=
  match s.bench? p with
  | none => (s, .error ⟨.page, 0, va⟩)
  | some b =>
    match s.task? b.task, s.translate (coreIx p) b.world k va.toNat with
    | some t, (s, .ok loc) =>
      if dpaKind loc.dpa = .mmio then (s, .error ⟨.perm, 0, va⟩)
      else if s.dataError loc.dpa (k = .load) then (s, .error ⟨.ue, 0, blockVal loc.dpa⟩)
      else (if k = .load then (s.sdcFill loc).noteCheck b.task loc (some ⟨p, l⟩) else s, .ok (loc, t))
    | _, (s, .error (c, sub)) => (s, .error ⟨c, sub, va⟩)
    | none, (s, .ok _) => (s, .error ⟨.page, 0, va⟩)

/-- `rsbase` and `rslim` with bits [2:0] ignored (Table 5.2). -/
def rsAligned (x : DWord) : Nat := x.toNat / 8 * 8

/-- CALL's push and branch (R109, R164): the oldest of eight held entries is spilled first. -/
def pushAndGo (g : Grp) (s : State) (l : Nat) (tgt : DWord) : LaneRes :=
  match s.thread? g.place l, s.bench? g.place with
  | some t, some b =>
    let push (s : State) (held : List DWord) : LaneRes :=
      .ok (s.updThread g.place l fun t => { t with rstack := (g.pc + 4) :: held, rdepth := t.rdepth + 1 }) (some tgt) id
    if t.rdepth = 2 ^ 24 - 1 then .trap s .rsunder 0 1
    else if t.rstack.length < 8 then push s t.rstack
    else
      let va := (rsAligned t.rsbase + 8 * (t.rdepth - 8)) % 2 ^ 64
      if rsAligned t.rslim < va + 8 then .trap s .rsunder 0 1
      else match s.rsAccess g.place l .store (BitVec.ofNat 64 va) with
        | (s, .error f) => .trap s f.c f.sub f.v
        | (s, .ok (loc, _)) => push (s.plainStore ⟨g.place, l⟩ b.task loc (natLe 8 (nth 0 t.rstack 7).toNat)) (t.rstack.take 7)
  | _, _ => .done s

/-- RET (R109, R164): pops, filling from memory when nothing is held; a bad target restores the entry. -/
def popAndGo (g : Grp) (s : State) (l : Nat) : LaneRes :=
  match s.thread? g.place l with
  | none => .done s
  | some t =>
    let go (s : State) (x : DWord) (held : List DWord) : LaneRes :=
      match targetFault x with
      | some c => .trap s c 0 x
      | none => .ok (s.updThread g.place l fun t => { t with rstack := held, rdepth := t.rdepth - 1 }) (some x) id
    if t.rdepth = 0 then .trap s .rsunder 0 0
    else match t.rstack with
      | x :: held => go s x held
      | [] =>
        let va := (rsAligned t.rsbase + 8 * (t.rdepth - 1)) % 2 ^ 64
        match s.rsAccess g.place l .load (BitVec.ofNat 64 va) with
        | (s, .error f) => .trap s f.c f.sub f.v
        | (s, .ok (loc, k)) =>
          let (bs, s) := s.plainRead k (s.reader ⟨g.place, l⟩) loc 8
          go s (BitVec.ofNat 64 (leNat bs)) []

/-- Whether every drawer thread of a task has executed EXIT (access-processor programs apart, R217). -/
def State.allExited (s : State) (k : Nat) : Bool :=
  (s.benches ++ s.saved).all fun b => b.task ≠ k || isAp b.place || b.threads.all fun (_, t) => !t.live

/-- EXIT of one thread (R165): results complete, membership ends, and the last thread's EXIT makes the task COMMITTING, or
ends an access processor's program. -/
def State.exitThread (s : State) (p : Place) (l : Nat) : State :=
  let k := match s.bench? p with
    | some b => b.task
    | none => 0
  let h := match s.thread? p l with
    | some t => t.grp
    | none => 0
  let s := (s.settleLane p l).updThread p l fun t => { t with grp := 0, left := false, wait := .exited, atStop := false }
  let s := s.depart h ⟨p, l⟩
  if isAp p then
    match s.bench? p with
    | some b => if b.threads.all fun (_, t) => !t.live then { s with benches := s.benches.filter fun b => b.place ≠ p } else s
    | none => s
  else if s.allExited k then s.updTask k fun t => if t.state = .running then { t with state := .committing } else t
  else s

/-- When every live thread of a bench has yielded, the bench leaves the active set and is ready again (R167). -/
def State.yieldBench (s : State) (p : Place) : State :=
  match s.bench? p with
  | none => s
  | some b =>
    if b.threads.all fun (_, t) => !t.live || t.wait = .yielded then
      s.updBench p fun b => { b with active := false, since := none, threads := b.threads.map fun (l, t) =>
        (l, if t.wait = .yielded then { t with wait := .ready } else t) }
    else s
def yieldOut (g : Option Grp) (o : Out) : Out :=
  match o, g with
  | .next s, some g => .next (s.yieldBench g.place)
  | o, _ => o

/-- A prefix that its next word makes illegal (R60 to R62): a REP with an invalid target or a step on a field that is no register,
a GRD followed by a GRD. -/
def prefixIllegal (w w2 : Word) : Bool :=
  (isRep w && !(repTargetOk w2 && repStepsOk (fld 3 11 w.toNat) (fld 3 7 w.toNat) (fld 3 0 w.toNat) w2)) || (isGrd w && isGrd w2)

/-- The cause of a malformed word and its `tval` (R70, R71): of a repeat, on the target word, or TC_REGRANGE on the REP for a
field beyond 127, before any cause that another field of the repeat would give, and in the lanes whose guard is 1 (DEDUCED, log entry 13). -/
def malformedCause (s : State) (g : Grp) : Option (Cause × DWord) :=
  let word (w w2 : Word) (v : DWord) : Option (Cause × DWord) :=
    let world := match s.bench? g.place with
      | some b => b.world
      | none => 0
    if illegalWord w w2 then some (.illegal, v)
    else if !profileOk g.place w then some (.profile, v)
    else if privWord w && world ≠ 0 then some (.priv, v)
    else some (.resfield, v)
  match g.rep with
  | some (k, _) => match stepWord g.w g.w2 k with
    | none => some (.regrange, wordVal g.w 0)
    | some w => word w 0 (wordVal g.w2 0)
  | none => if prefixIllegal g.w g.w2 then some (.illegal, wordVal g.w g.w2) else word g.w g.w2 (wordVal g.w g.w2)

/-- The address a malformed word is reported at (R70): of a target's first repeat, the target word; between repeats the REP
(R63; log entry 13). -/
def malformedAt (g : Grp) (c : Cause) : DWord :=
  match g.rep with
  | some (0, _) => if c = .regrange then g.pc else g.pc + 4
  | _ => g.pc

/-- TC_ILLEGAL on a prefix (R60 to R62), whatever the guard (R71). -/
def prefixTrap (g : Grp) (s : State) : Out :=
  .next (((({ s with cur := .idle }).noteIssue g).countIssue g).takeTraps g.place g.pc (g.lanes.map fun l => ⟨l, .illegal, 0, wordVal g.w g.w2⟩))

/-- R163. PC-relative branch. -/
def execBra (i : BitVec 21) (s : State) : Out :=
  issue s [] [] fun g s _ => .ok s (some (g.pc + 4 * i.signExtend 64)) id

/-- R163. Branch to a 64-bit register pair. -/
def execBrx (a : BitVec 7) (s : State) : Out :=
  issue s [rV a 2] [] fun g s l => match s.thread? g.place l with
    | some t => 
      let x := t.target a
      match targetFault x with
      | some c => .trap s c 0 x
      | none => .ok s (some x) id
    | none => .done s

/-- R164. Pushes the return address and branches. -/
def execCall (i : BitVec 21) (s : State) : Out :=
  issue s [] [] fun g s l => pushAndGo g s l (g.pc + 4 * i.signExtend 64)

/-- R164. Pushes the return address and branches to a register pair. -/
def execCallx (a : BitVec 7) (s : State) : Out :=
  issue s [rV a 2] [] fun g s l => match s.thread? g.place l with
    | some t => 
      let x := t.target a
      match targetFault x with
      | some c => .trap s c 0 x
      | none => pushAndGo g s l x
    | none => .done s

/-- R164. Pops the return stack and branches. -/
def execRet (s : State) : Out :=
  issue s [] [] fun g s l => popAndGo g s l

/-- R165. Ends the thread and leaves its group. The thread ends; the last one of its task starts the commit,
the last one of an access processor ends its program. -/
def execExit (s : State) : Out :=
  issue s [] [] fun g s l => .ok (s.exitThread g.place l) (some (g.pc + 4)) id

/-- R166. Takes TC_SOFT. -/
def execTrap (i : BitVec 14) (s : State) : Out :=
  issue s [] [] fun _ s _ => .trap s .soft 0 (i.setWidth 64)

/-- R166. Takes TC_BPT. -/
def execBpt (i : BitVec 14) (s : State) : Out :=
  issue s [] [] fun _ s _ => .trap s .bpt 0 (i.setWidth 64)

/-- R166. No effect; with S set a pure stop. -/
def execNop (s : State) : Out :=
  issue s [] [] fun _ s _ => .done s

/-- R167. Parks the thread for one issue opportunity. -/
def execYield (s : State) : Out :=
  yieldOut s.grp? (issue s [] [] fun g s l =>
    .ok (s.settleLane g.place l) none fun t => { t with atStop := false, wait := .yielded })

/-- R168. Arms a watch on a 64-byte block. -/
def execMarm (a : BitVec 7) (s : State) : Out :=
  issue s [rV a 2] [] fun g s l => match s.thread? g.place l with
    | some t => 
      let x := t.target a
      match s.bench? g.place with
      | none => .done s
      | some b =>
        match s.translate (coreIx g.place) b.world .load x.toNat with
        | (s, .error (c, sub)) => .trap s c sub x
        | (s, .ok loc) =>
          if dpaKind loc.dpa = .mmio then .trap s .perm 0 x
          else .done (s.updThread g.place l fun t => { t with watch := some ⟨loc.dpa / 64, false⟩ })
    | none => .done s

/-- R168. Parks until the watched block is written. -/
def execMwait (s : State) : Out :=
  issue s [] [] fun g s l => match s.thread? g.place l with
    | some t => 
      match t.watch with
      | none => .done s
      | some w =>
        if w.hit then .ok s none fun t => { t with watch := none }
        else .ok s none fun t => { t with wait := .mwait }
    | none => .done s

/-- R169. Sets the vector window base. -/
def execWinv (i : BitVec 14) (s : State) : Out :=
  issue s [] [⟨.vec, none, true⟩] fun _ s _ => .ok s none fun t => { t with wb := i.toNat }

/-- R169. Sets the uniform window base. In an access processor WINS has no effect (R185). -/
def execWins (i : BitVec 14) (s : State) : Out :=
  issue s [] [⟨.uni, none, true⟩] fun g s _ => .ok s none fun t => if isAp g.place then t else { t with ws := i.toNat }

/-- R170. Returns from a trap handler to tpc. -/
def execEret (s : State) : Out :=
  issue s [] [] fun g s l => match s.thread? g.place l with
    | some t => 
      if !bitAt t.tstat.toNat 0 then .trap s .illegal 0 (wordVal g.w g.w2)
      else .ok s (some t.tpc) Thread.eret
    | none => .done s

/-- R171. Stops the bench precisely, `tpc` at the next instruction, and raises a Bureau event. -/
def execHalt (s : State) : Out :=
  issueAll s [] fun g s on =>
    if on.isEmpty then (s, fun _ => id)
    else
      let s := on.foldl (fun s l => s.settleLane g.place l) s
      match s.bench? g.place with
      | none => (s, fun _ => id)
      | some b =>
        let user := match s.task? b.task with
          | some k => k.desc.user
          | none => 0
        ((s.stopBench g.place [] .halt).post b.world 0 3 b.task user 0 0 (some g.place),
          fun _ t => { t with atStop := false, tpc := g.pc + 4 })

/-- R60. Guards the next 1 to 8 instructions by a predicate. A GRD inside an open span is an instruction of that span: a lane whose guard is 0
skips it, and its own span replaces the rest of the open one in the lanes that execute it (DEDUCED, log entry 34). -/
def execGrd (p : BitVec 7) (n : Bool) (l' : BitVec 3) (s : State) : Out :=
  match s.grp? with
  | none => .fault .noContext
  | some g =>
    if isGrd g.w2 then prefixTrap g s
    else issue s [rP p] [] fun g s l => match s.thread? g.place l with
      | some t => .ok s none fun t' => { t' with span := some (t.p p.toNat != n, l'.toNat + 1) }
      | none => .done s

/-- R61. Issues the next instruction 1 to 64 times with stepped fields: a thread that retires a REP stands at its first repeat,
whatever its guard. The count stays in the REP word, which each repeat reads again. -/
def execRep (_c : BitVec 6) (x y z : BitVec 3) (s : State) : Out :=
  match s.grp? with
  | none => .fault .noContext
  | some g =>
    if repTargetOk g.w2 && repStepsOk x y z g.w2 then
      issue s [] [] fun _ s _ => .done s
    else prefixTrap g s

/-- R70. A thread issues a word that is not a valid instruction in its position and takes TC_ILLEGAL, TC_PROFILE, TC_PRIV, TC_RESFIELD or TC_REGRANGE on it. A repeat whose field
passes 127 only moves on in a lane whose guard is 0, and its other register names are neither checked nor recorded there in run-check mode
(DEDUCED, log entry 13). -/
def execMalformedWord (s : State) : Out :=
  match s.grp? with
  | none => .fault .noContext
  | some g =>
    match malformedCause s g with
    | none => .next { s with cur := .idle }
    | some (c, v) =>
      let s' := (({ s with cur := .idle }).noteIssue g).countIssue g
      let ls := if c = .regrange then s.executing g else g.lanes
      let s' := (g.lanes.filter fun l => !ls.contains l).foldl (fun s l => s.updThread g.place l fun t => t.retire g [] none) s'
      .next (s'.takeTraps g.place (malformedAt g c) (ls.map fun l => ⟨l, c, 0, v⟩))

/-- R113. An instruction fetch fails translation or permission, including the fetch of a handler's first instruction or an X instruction's second word, and the trap is taken with no instruction issued. -/
def execFetchFault (s : State) : Out :=
  match s.grp? with
  | none => .fault .noContext
  | some g =>
    let s := { s with cur := .idle }
    match g.lanes with
    | [] => .next s
    | l0 :: _ =>
      let trap (s : State) (f : AFault) : Out := .next (if f.waits then s else s.takeTraps g.place g.pc (g.lanes.map fun l => ⟨l, f.c, f.sub, f.v⟩) true)
      match s.fetchWord g.place l0 g.pc with
      | (s, .error f) => trap s f
      | (s, .ok _) => match s.fetchWord g.place l0 (g.pc + 4) with
        | (s, .error f) => trap s f
        | (s, .ok _) => .next s

end Sys2Proof.Machine
end

