-- ==== Sys2Proof/Machine/TaskUnit.lean ====
section
/-! DEFINITION. The task unit (chapter 8): descriptors and submission (R205 to R210), dependences (R211, R212), dispatch and placement
(R213, R214, R101, R102, R387), commits (R217, R218), task states (R219), timelines (R229, R230). -/

namespace Sys2Proof.Machine

/-! ### Descriptors -/

/-- The descriptor in 64 bytes (Table 8.1). -/
def Desc.of (bs : List Byte) : Desc :=
  let d (o : Nat) : DWord := BitVec.ofNat 64 (leNat ((bs.drop o).take 8))
  let w (o : Nat) : Nat := leNat ((bs.drop o).take 4)
  { entry := d 0, param := d 8, nthr := bits (w 0x10) 14 0, vreg := bits (w 0x10) 22 16, sreg := bits (w 0x10) 29 24,
    preg := bits (w 0x14) 7 0, quota := bits (w 0x14) 25 16, nreg := bits (w 0x14) 15 12, pcls := bits (w 0x14) 11 8,
    rtab := d 0x18, nlb := bits (w 0x20) 28 23, ncb := bits (w 0x20) 22 16, domain := bits (w 0x20) 15 0, user := w 0x24,
    tltab := d 0x28, done := d 0x30 }

/-- The reserved fields of a descriptor are zero. -/
def descRsv (bs : List Byte) : Bool :=
  let w (o : Nat) : Nat := leNat ((bs.drop o).take 4)
  bits (w 0x10) 31 30 == 0 && !bitAt (w 0x10) 23 && !bitAt (w 0x10) 15 && bits (w 0x14) 31 26 == 0 && bits (w 0x20) 31 29 == 0

/-- The first and second words of each region table entry (Table 8.2). -/
def regEntries (bs : List Byte) : List (Nat × Nat) :=
  (upto (bs.length / 16)).map fun i => (leNat ((bs.drop (16 * i)).take 8), leNat ((bs.drop (16 * i + 8)).take 8))
/-- A used entry that is malformed (Table 8.3, code 4). -/
def regBad (e : Nat × Nat) : Bool :=
  bits e.1 57 56 ≠ 0 && (bits e.1 63 58 ≠ 0 || e.2 = 0 || 2 ^ 56 < bits e.1 55 0 + e.2)
/-- The declared regions of a table (R206). -/
def regionsOf (bs : List Byte) : List Region :=
  (regEntries bs).filterMap fun e =>
    if bits e.1 57 56 = 0 then none else some ⟨bits e.1 55 0, e.2, bitAt e.1 56, bitAt e.1 57⟩

/-- The 8-byte entries of a timeline table. -/
def tlEntries (bs : List Byte) : List DWord :=
  (upto (bs.length / 8)).map fun i => BitVec.ofNat 64 (leNat ((bs.drop (8 * i)).take 8))

/-- Where a submission may be placed: the drawers of a world within one cluster, or one steward (R213, R362). -/
inductive Target where
  | drawers
  | steward (k : Nat)
  deriving DecidableEq, Repr

/-- The target of a task of a world: a queue of world 0 bound to domain 0xFF00 + k reaches steward k. -/
def targetOf (world : Nat) (queue : Bool) (domain : Nat) : Target :=
  if world = 0 && queue && 0xFF00 ≤ domain && domain < 0xFF10 then .steward (domain % 16) else .drawers

/-- Benches a task takes: one per 32 threads on drawers, one per thread on a steward (R101, R361). -/
def benchesOf (tg : Target) (nthr : Nat) : Nat :=
  match tg with
  | .drawers => (nthr + 31) / 32
  | .steward _ => nthr

/-- Drawers of a world in a cluster. -/
def State.worldDrawers (s : State) (w clu : Nat) : List (Nat × Nat) :=
  ((upto 32).map fun i => (4 * clu + i / 8, i % 8)).filter fun p => (mget Drawer.init s.drawers (8 * p.1 + p.2)).world = w

/-- Whether a task can ever be placed (Table 8.3, code 9). -/
def State.placeable (s : State) (w : Nat) (tg : Target) (nthr : Nat) : Bool :=
  (match tg with
    | .steward k => 1 ≤ k && nthr ≤ 8
    | .drawers => (upto 48).any fun c => benchesOf .drawers nthr ≤ 24 * (s.worldDrawers w c).length) &&
  ((s.world w).tlSize = 0 || nthr ≤ (s.world w).tlSize)

/-- The refusal code of a submission, 0 where every check passes (R207, Table 8.3). -/
def State.refusal (s : State) (w : Nat) (queue : Bool) (tg : Target) (raw regs : List Byte) (tl : List DWord) : Nat :=
  let d := Desc.of raw
  if d.entry.toNat / 2 ^ 56 ≠ 0 || d.entry.toNat % 4 ≠ 0 then 1
  else if d.nthr = 0 || 24576 < d.nthr then 2
  else if d.vreg = 0 || 64 < d.vreg || 48 < d.sreg || 128 < d.preg then 3
  else if 8 < d.nreg || (d.nreg ≠ 0 && d.rtab.toNat % 16 ≠ 0) || (regEntries regs).any regBad then 4
  else if 4 < d.pcls || (queue && d.pcls = 4) || 512 < d.quota then 5
  else if 64 < d.ncb || 32 < d.nlb then 6
  else if !descRsv raw then 7
  else if tl.any fun x => x.toNat % 8 ≠ 0 then 8
  else if !s.placeable w tg d.nthr then 9
  else 0

/-! ### Acceptance (R210, R211) -/

/-- Pending tasks (R208); the stewards' boot threads were never accepted and are none of them (log entry 31). -/
def State.pendingTasks (s : State) : List (Nat × Task) := s.tasks.filter fun p => p.2.state.pending && p.1 < 2 ^ 31
/-- Regions in flight (R208). -/
def State.inFlight (s : State) : Nat := sumNat (s.pendingTasks.map fun p => p.2.regions.length)

/-- Room for one more task with its regions (R208). -/
def State.tkuRoom (s : State) (n : Nat) : Bool := s.pendingTasks.length < 65536 && s.inFlight + n ≤ 16384

/-- The next identifier: increasing, wrapping after 2^31 − 1, none of a pending task (R210). -/
def State.freeId : Nat → State → Nat → Nat
  | 0, _, i => i
  | f + 1, s, i =>
    match s.task? i with
    | some t => if t.state.pending then State.freeId f s (if i = 2 ^ 31 - 1 then 1 else i + 1) else i
    | none => i

def Region.overlaps (a b : Region) : Bool := a.base < b.base + b.size && b.base < a.base + a.size
/-- RAW or WAW of a later task on an earlier one; WAR (R211). -/
def dependsOn (old new : List Region) : Bool := old.any fun a => new.any fun b => a.overlaps b && a.write
def warOn (old new : List Region) : Bool := old.any fun a => new.any fun b => a.overlaps b && a.read && b.write

/-- Accepts a submission: an identifier, its dependences, SUBMITTED or READY (R210, R211, R219). -/
def State.acceptTask (s : State) (w : Nat) (sub : Option Place) (tg : Target) (raw regs : List Byte) (tl : List DWord) : Nat × State :=
  let id := State.freeId (s.tasks.length + 1) s s.nextTask
  let d := Desc.of raw
  let rs := regionsOf regs
  let peers := s.pendingTasks.filter fun p => p.2.world = w && p.2.desc.domain = d.domain
  let deps := (peers.filter fun p => dependsOn p.2.regions rs).map Prod.fst
  let war := (peers.filter fun p => warOn p.2.regions rs).map Prod.fst
  let t : Task :=
    { id := id, world := w, desc := d, regions := rs, tl := tl, sub := sub,
      stw := match tg with
        | .steward k => some k
        | .drawers => none,
      state := if deps.isEmpty then .ready else .submitted,
      deps := deps, war := war, snap := 0, ver := [], vtags := [], vloc := [], vout := [], pinned := false, held := false, snapLost := false,
      clu := 0, cores := [], coreSlots := [], cluSlots := [], grp := 0, areas := [], spw := [], bqs := [], hist := [], run := 0,
      preds := [], commitHeld := false, passed := 0, acc := s.accepts }
  (id, { s with tasks := mset s.tasks id t, accepts := s.accepts + 1, nextTask := if id = 2 ^ 31 - 1 then 1 else id + 1 })

/-- R208. A TSUB lane reads its descriptor and tables and hands them to the home task unit; its result comes when the
submission has been accepted or refused. `first` is the number of the TSUB's first submission. -/
def tsubLane (d a : BitVec 7) (first : Nat) (g : Grp) (s : State) (l : Nat) : LaneRes :=
  match s.bench? g.place, s.thread? g.place l with
  | some b, some t =>
    let va := addrPair b t a
    if va.toNat / 2 ^ 56 ≠ 0 then .trap s .page 0 va
    else if va.toNat % 64 ≠ 0 then .trap s .align 0 va
    else if s.unchecked b.task then .poll s .engine
    else match s.checkedBytes b l va 64 with
      | (s, .error e) => .trap s e.c e.sub e.v
      | (s, .ok raw) =>
        let ds := Desc.of raw
        match s.checkedBytes b l ds.rtab (16 * ds.nreg) with
        | (s, .error e) => .trap s e.c e.sub e.v
        | (s, .ok regs) => match s.checkedBytes b l ds.tltab (if ds.tltab = 0 then 0 else 384) with
          | (s, .error e) => .trap s e.c e.sub e.v
          | (s, .ok tl) =>
            let x : Sub := ⟨s.nextSub, first, ⟨g.place, l⟩, b.world, raw, regs, tlEntries tl⟩
            .done ({ s with subs := s.subs ++ [x], nextSub := s.nextSub + 1 }.out g.place l [.await (t.wb + d.toNat) x.key])
  | _, _ => .done s

/-- R208. Submits task descriptors. -/
def execTsub (d a : BitVec 7) (s : State) : Out :=
  issueWith s [wV d, rAddr a 2] [] fun g s _ => (s, tsubLane d a s.nextSub g)

/-- The answer of the task unit becomes a long-latency result of the lane (R208). -/
def State.answerSub (s : State) (x : Sub) (r : Nat) : State :=
  let s := { s with subs := s.subs.filter fun y => y.key ≠ x.key }
  s.mapThreads fun p l t => if p = x.thread.place && l = x.thread.lane then
    { t with out := t.out.map fun (o : Pend) => match o with
      | .await i k => if k = x.key then .vec i (BitVec.ofNat 32 r) else o
      | o => o } else t

/-- R207, R210. The home task unit accepts or refuses the `k`-th submission that waits: in program order for each thread, and the lanes
of one TSUB in ascending order; it waits while the device has no room. -/
def execTaskAccept (k : Nat) (s : State) : Out :=
  match s.subs[k]? with
  | none => .next s
  | some x =>
    if (s.subs.take k).any fun y => y.thread = x.thread || y.batch = x.batch then .next s
    else match s.refusal x.world false .drawers x.raw x.regs x.tl with
      | 0 =>
        if s.tkuRoom (regionsOf x.regs).length then
          let (id, s) := s.acceptTask x.world (some x.thread.place) .drawers x.raw x.regs x.tl
          .next (s.answerSub x id)
        else .next s
      | c => .next (s.answerSub x (2 ^ 31 + c))

/-- R209. The task unit consumes a stamped task-queue slot: the descriptor and its tables from committed memory at device
scope, then R207, with the answer in the completion ring. -/
def execTaskQueueConsume (q : Nat) (s : State) : Out :=
  match s.queue (.mem q) with
  | none => .next s
  | some x =>
    if !x.eng || x.closed || (s.world x.world).stopped then .next s
    else match s.readySlot x 208 with
      | (s, none) => .next s
      | (s1, some raw) =>
        let ds := Desc.of raw
        let n := x.cidx + 1
        let fin (s : State) (r : List Byte) : Out := .next ((s.takeSlot (.mem q) x 208).postRecord (.mem q) n r)
        let rd (s : State) (va : DWord) (k : Nat) := if k = 0 then (s, Except.ok []) else s.devBytes 208 x.world va.toNat k
        match rd s1 ds.rtab (16 * ds.nreg) with
        | (s, .error e) => fin (s.queueFault x.world e) (compRecord n 0 0 e.c.code 2 e.v)
        | (s, .ok regs) => match rd s ds.tltab (if ds.tltab = 0 then 0 else 384) with
          | (s, .error e) => fin (s.queueFault x.world e) (compRecord n 0 0 e.c.code 2 e.v)
          | (s, .ok tlb) =>
            let tl := tlEntries tlb
            match s.refusal x.world true (targetOf x.world true x.bind) raw regs tl with
            | 0 =>
              if s.tkuRoom (regionsOf regs).length then
                let (id, s) := s.acceptTask x.world none (targetOf x.world true x.bind) raw regs tl
                fin s (compRecord n id 0 0 0 0)
              else .next s1
            | c => fin s (compRecord n 0 0 c 3 0)

/-! ### Dispatch (R213, R214) -/

/-- A thread at task entry (R102). -/
def Thread.start (pc : DWord) (tid : Nat) (grp : Word) (rsb rsl : DWord) (snap : Nat) : Thread :=
  { pc := pc, vregs := [], preds := 0, wb := 0, ws := 0, rstack := [], rdepth := 0, fpc := 0, srseed := 0, srseq := 0, tid := tid,
    grp := grp, rsbase := rsb, rslim := rsl, tcause := 0, tval := 0, tpc := 0, tstat := 0, repc := 0, gspan := 0, dbg := 0,
    span := none, rep := none, out := [], atStop := false, used := [], watch := none, wait := .ready, polled := none,
    fetchEp := snap, entering := false, left := false, resumed := false, missed := 0, view := [], frel := none, facq := [] }

/-- A bench at task entry (R102): the parameter pointer in s0:s1 where the uniform footprint holds them. -/
def Bench.start (p : Place) (task w : Nat) (d : Desc) (now : Nat) (threads : Map Thread) : Bench :=
  { place := p, task := task, world := w, vfoot := 8 * d.vreg, sfoot := 8 * d.sreg, pfoot := d.preg,
    uregs := if d.sreg = 0 then [] else mput 0 (mput 0 [] 1 (hiWord d.param)) 0 (loWord d.param),
    spkey := 0, rmask := 0, uout := [], threads := threads, active := false, spilled := [], since := none, lastIssue := now,
    stopped := none }

/-- Slots of a barrier node that no task holds (R225). -/
def State.coreFree (s : State) (c : Nat) : List Nat :=
  let held := s.tasks.flatMap fun p => (p.2.coreSlots.filter fun x => x.1 = c).flatMap Prod.snd
  (upto 64).filter fun i => !held.contains i
def State.cluFree (s : State) (c : Nat) : List Nat :=
  let held := s.tasks.flatMap fun p => if p.2.clu = c then p.2.cluSlots else []
  (upto 32).filter fun i => !held.contains i

/-- Thread-local areas of a world's pool that no thread holds (R387). -/
def State.freeAreas (s : State) (w : Nat) : List Nat :=
  let held := s.tasks.flatMap fun p => if p.2.world = w then p.2.areas else []
  (upto (s.world w).tlSize).filter fun i => !held.contains i

/-- Whether a place takes a bench of the task: a free slot of its world, not vacated; a steward's slot for a steward task. -/
def State.slotFits (s : State) (t : Task) (p : Place) : Bool :=
  (s.bench? p).isNone && (match p, t.stw with
    | .drawer c d k, none =>
      c < 192 && d < 8 && k < 24 && (mget Drawer.init s.drawers (8 * c + d)).world = t.world && !s.vacated.contains c
        && t.desc.ncb ≤ (s.coreFree c).length
    | .steward st k, some j => st = j && k < 8 && t.desc.ncb ≤ (s.coreFree (192 + st)).length
    | _, _ => false)

/-- Whether a task fits in a cluster at all (R214, class 3). -/
def State.fitsIn (s : State) (t : Task) (clu : Nat) : Bool :=
  let free := ((s.worldDrawers t.world clu).flatMap fun p => (upto 24).map fun k => Place.drawer p.1 p.2 k).filter fun p => s.slotFits t p
  benchesOf .drawers t.desc.nthr ≤ free.length && t.desc.nlb ≤ (s.cluFree clu).length
    && (s.groups.filter fun x => x.clu = clu).length < 512

/-- The places satisfy R213 and the placement class (R214). -/
def State.placesOk (s : State) (t : Task) (ps : List Place) : Bool :=
  let tg : Target := match t.stw with
    | some k => .steward k
    | none => .drawers
  let clu := match ps with
    | p :: _ => clusterOf p
    | [] => 0
  ps.length = benchesOf tg t.desc.nthr && ps.Nodup && ps.all (fun p => s.slotFits t p && clusterOf p = clu)
    && t.desc.nlb ≤ (s.cluFree clu).length && (s.groups.filter fun x => x.clu = clu).length < 512
    && ((s.world t.world).tlSize = 0 || t.desc.nthr ≤ (s.freeAreas t.world).length)
    && (match t.desc.pcls, t.sub with
      | 4, some q => ps.all fun p => coreIx p = coreIx q
      | 3, some q => !s.fitsIn t (clusterOf q) || clu = clusterOf q
      | _, _ => true)

/-- READY tasks that are the oldest of their placement class, by acceptance, and older than the task `id` (R213). -/
def State.olderReady (s : State) (id : Nat) : List Nat :=
  let mine := match s.task? id with
    | some t => t.acc
    | none => 0
  (upto 5).filterMap fun c =>
    let xs := s.tasks.filter fun p => p.2.state = .ready && p.2.desc.pcls = c
    (xs.find? fun p => p.1 ≠ id && p.2.acc < mine && xs.all fun q => p.2.acc ≤ q.2.acc).map Prod.fst

/-- The benches of a task at its places. -/
def Task.mkBenches (t : Task) (now tlBase : Nat) (areas : List Nat) (h : Word) (ps : List Place) : List Bench :=
  let width := if t.stw.isSome then 1 else 32
  ((upto ps.length).zip ps).map fun (k, p) =>
    let tids := (upto width).filterMap fun l => if width * k + l < t.desc.nthr then some (l, width * k + l) else none
    Bench.start p t.id t.world t.desc now (tids.map fun (l, tid) =>
      let rsb : DWord := match areas[tid]? with
        | some a => BitVec.ofNat 64 (tlBase + 4096 * a)
        | none => 0
      (l, Thread.start t.desc.entry tid h rsb (if areas.isEmpty then 0 else rsb + 4096) t.snap))

/-- Binds a task's slots to its group with generation 0 (R213). -/
def State.bindAll (s : State) (h : Word) (xs : List (Node × Nat)) : State :=
  xs.foldl (fun s x => (s.putSlot (BSlot.empty x.1 x.2)).bindSlot x.1 x.2 h none) s

/-- Places a READY task whole (R213): snapshot epoch, group record, areas, benches, barrier slots. -/
def State.dispatch (s : State) (t : Task) (ps : List Place) : State :=
  let clu := match ps with
    | p :: _ => clusterOf p
    | [] => 0
  let used := (s.groups.filter fun x => x.clu = clu).map Group.recd
  let rec_ := ((upto 512).filter fun i => !used.contains i).headD 0
  let grp : Group := { clu := clu, recd := rec_, serial := s.serial, task := t.id }
  let areas := if (s.world t.world).tlSize = 0 then [] else (s.freeAreas t.world).take t.desc.nthr
  let cores := (ps.map coreIx).dedup
  let coreSlots := cores.map fun c => (c, (s.coreFree c).take t.desc.ncb)
  let cluSlots := (s.cluFree clu).take t.desc.nlb
  let t := { t with state := .running, snap := s.epoch, clu := clu, cores := cores, coreSlots := coreSlots, cluSlots := cluSlots,
                    grp := groupHandle grp, areas := areas, ver := [], vtags := [], vloc := [], vout := [], pinned := false, spw := [],
                    bqs := [], hist := [], run := s.runs + 1, passed := 0 }
  let s := s.classify t.world t.desc.domain
  let s := { s with groups := grp :: s.groups, serial := s.serial + 1, runs := s.runs + 1, tasks := mset s.tasks t.id t,
                    benches := s.benches ++ t.mkBenches s.cycle (s.world t.world).tlBase areas (groupHandle grp) ps }
  s.bindAll (groupHandle grp) ((coreSlots.flatMap fun x => x.2.map fun i => (Node.core x.1, i)) ++ cluSlots.map fun i => (Node.cluster clu, i))

/-- R213. Places a READY task whole and binds its slots: bench k of the task at the k-th place. A re-run waits for the cancellations of its
copies into scratchpad (R182). -/
def execTaskDispatch (id : Nat) (ps : List Place) (s : State) : Out :=
  match s.task? id with
  | none => .next s
  | some t =>
    let older := s.olderReady id
    if t.state = .ready && !(s.world t.world).stopped && !s.copying id && s.placesOk t ps
        && older.all (fun i => match s.task? i with
          | some o => o.passed < 64
          | none => true) then
      .next (older.foldl (fun s i => s.updTask i fun o => { o with passed := o.passed + 1 }) (s.dispatch t ps))
    else .next s

/-! ### Commit (R217, R218) -/

/-- Every scratchpad store and every strong access of a task is performed: its cores' stores settle, its dirty strong lines go
home (R217, step 2; R34). -/
def State.pushTask (s : State) (t : Task) : State :=
  let s := t.cores.foldl (fun s c => s.settleSpad c) (s.performIf fun x => x.task = t.id)
  let mine (x : Copy) : Bool := x.dirty && (match x.at_ with
    | .core c => t.cores.contains c
    | .cluster c => c = t.clu)
  let s := ((s.copies.filter fun x => mine x).filterMap fun x => match x.at_ with
    | .core c => some (c, x.line)
    | .cluster _ => none).foldl (fun s x => s.pushCore x.1 x.2) s
  ((s.copies.filter fun x => mine x).filterMap fun x => match x.at_ with
    | .cluster c => some (c, x.line)
    | .core _ => none).foldl (fun s x => s.pushCluster x.1 x.2) s

/-- The task unit's own read-modify-write of a world's 8-byte word at device scope, with release (R217, step 8). -/
def State.tkuAdd (s : State) (w : Nat) (va : DWord) : State × Option AFault :=
  if va.toNat % 8 ≠ 0 then (s, some ⟨.align, 0, va⟩)
  else match s.translate 208 w .store va.toNat with
    | (s, .error (c, k)) => (s, some ⟨c, k, va⟩)
    | (s, .ok loc) =>
      if dpaKind loc.dpa = .mmio then (s, some ⟨.perm, 0, va⟩)
      else match s.engError loc with
        | some e => (s.queueFault w e, some e)
        | none => (s.homeRmw loc 8 fun m => (m + 1) % 2 ^ 64, none)

/-- Whether a commit waits for lines that lenders have not given (R346): one that the version changes in part, or the completion counter's. -/
def State.commitWaits (s : State) (t : Task) : Bool :=
  t.vblocks.any (fun blk => s.lineAway blk && !t.whole blk) || (t.desc.done ≠ 0 && (s.tkuAdd t.world t.desc.done).2.any AFault.waits)

/-- Whether steps 1 to 5 of R217 are done: no access-processor program, no engine operation to world memory, no check and no
WAR predecessor is pending. -/
def State.mayCommit (s : State) (k : Nat) (t : Task) : Bool :=
  (s.benches ++ s.saved).all (fun b => b.task ≠ k || !isAp b.place) && !s.engineBusy k && !s.unchecked k && !s.commitWaits t
    && t.war.all fun i => match s.task? i with
      | some o => !o.state.pending
      | none => true

/-- Step 6: the next commit epoch, the version applied at it, the lines' clean copies invalidated (R24, R188). -/
def State.commitVersion (s : State) (k : Nat) (t : Task) : State :=
  let ep := s.epoch + 1
  let s := ({ s with epoch := ep }).applyVersion ep t
  let lines := (t.ver.map fun e => e.1 / 64) ++ t.vtags.map Prod.fst
  let s := { s with copies := s.copies.filter fun c => c.dirty || !lines.contains c.line }
  s.updTask k fun t => { t with ver := [], vtags := [], vloc := [], vout := [], hist := [] }

/-- Step 6, but where a block's MAC fails that the version changes in part, the world stops (R373, R374). -/
def State.commitOr (s : State) (t : Task) (f : State → State) : State :=
  match s.versionBad t with
  | some blk => s.stopWorld t.world (64 * blk)
  | none => f s

/-- Tasks that depend on a run that has committed may rely on what it left in scratchpad (R29). -/
def State.tellDependents (s : State) (k run : Nat) : State :=
  { s with tasks := mmap (fun _ (t : Task) => if t.deps.contains k then { t with preds := run :: t.preds } else t) s.tasks }

/-- A task's predecessors have all committed: SUBMITTED becomes READY. -/
def State.readyDependents (s : State) : State :=
  { s with tasks := mmap (fun _ (t : Task) =>
      if t.state = .submitted && t.deps.all (fun i => match s.task? i with
        | some o => !o.state.pending
        | none => true) then { t with state := .ready } else t) s.tasks }

/-- Steps 7 and 8: resources back, DONE, the completion counter, dependents. -/
def State.finishTask (s : State) (k : Nat) (t : Task) : State :=
  let s := (s.dropBenches k).releaseTask k
  let s := (s.updTask k fun t => { t with state := .done, spw := [], commitHeld := false }).clearEngineFault k
  let s := s.unclaimAll.prune
  let s := if t.desc.done = 0 then s else match s.tkuAdd t.world t.desc.done with
    | (s, none) => s
    | (s, some e) => s.postTask k e.c e.sub t.desc.done none
  (s.tellDependents k t.run).readyDependents

/-- A valid engine fault record stops a commit before step 6 (R217, R258): an unpinned task is discarded with its event, a
pinned one is STOPPED with its commit held. -/
def State.holdCommit (s : State) (k : Nat) (t : Task) (c : Cause) (v : DWord) : State :=
  let s := s.postTask k c 0 v none
  if t.pinned then s.updTask k fun t => { t with state := .stopped, commitHeld := true } else s.discardTask k

/-- R217. Performs the final commit after the last EXIT. -/
def execTaskCommit (id : Nat) (s : State) : Out :=
  match s.task? id with
  | none => .next s
  | some t =>
    if t.state ≠ .committing || !s.mayCommit id t then .next s
    else
      let s := s.pushTask t
      match s.engineFault id with
      | some (c, v) => .next (s.holdCommit id t c v)
      | none => .next (s.commitOr t fun s => (s.commitVersion id t).finishTask id t)

/-- Whether every live thread of a task, saved ones included, has parked at PHASE. -/
def State.allPhase (s : State) (k : Nat) : Bool :=
  let ts := ((s.benches ++ s.saved).filter fun b => b.task = k && !isAp b.place).flatMap fun b => b.threads.map Prod.snd
  ts.any (fun t => t.wait = .phase) && ts.all fun t => !t.live || t.wait = .phase

/-- Step 6 of a PHASE commit, then the new snapshot and the threads' resumption (R218). -/
def State.finishPhase (s : State) (k : Nat) (t : Task) : State :=
  let s := s.commitVersion k t
  let busy := s.benches.any fun b => b.task = k && b.stopped.isSome
  let s := s.updTask k fun t => { t with snap := s.epoch, commitHeld := false, state := if busy then .stopped else .running }
  (s.mapThreads fun p _ th =>
    if th.wait = .phase && ((s.benches ++ s.saved).any fun b => b.place = p && b.task = k) then { th with wait := .ready } else th).prune

/-- R218. Pins, commits the version so far and renews the snapshot. The pin comes first; the commit follows when steps 1 to 5
allow it. -/
def execPhaseCommit (id : Nat) (s : State) : Out :=
  match s.task? id with
  | none => .next s
  | some t =>
    if !(t.state = .running || t.state = .stopped) || t.commitHeld || !s.allPhase id then .next s
    else if !t.pinned then .next (s.pin id)
    else if !s.mayCommit id t then .next s
    else
      let s := s.pushTask t
      match s.engineFault id with
      | some (c, v) => .next (s.holdCommit id t c v)
      | none => .next (s.commitOr t fun s => s.finishPhase id t)

/-- R219. The Bureau resumes a pinned task whose commit was held: the record is cleared, held engine work goes on, and the commit,
final or of a PHASE, goes on from step 6, with the late accesses and dirty lines of step 2 gone first, or, while an engine still works for the task, from step 1 (log entry 107). -/
def execHeldCommitResume (id : Nat) (s : State) : Out :=
  match s.task? id with
  | none => .next s
  | some t =>
    if t.state = .stopped && t.commitHeld then
      let s := ((((s.clearEngineFault id).mxUnhold id).bteUnhold id).asqUnhold id).pushTask t
      .next (match s.mayCommit id t, s.allPhase id with
        | true, true => s.commitOr t fun s => s.finishPhase id t
        | true, false => s.commitOr t fun s => (s.commitVersion id t).finishTask id t
        | false, true => s.updTask id fun t => { t with state := .running, commitHeld := false }
        | false, false => s.updTask id fun t => { t with state := .committing, commitHeld := false })
    else .next s

/-! ### The Bureau's service (R112, R212, R219) -/

/-- R112. The Bureau requeues a discarded task: READY once its scratchpad copies are cancelled (R182). -/
def execTaskRequeue (id : Nat) (s : State) : Out :=
  match s.task? id with
  | none => .next s
  | some t =>
    if t.state = .discarded && !s.copying id then .next (s.updTask id fun t => { t with state := .ready, pinned := false }) else .next s

/-- R212. The Bureau fails a task and its dependents. -/
def execTaskFail (id : Nat) (s : State) : Out :=
  match s.task? id with
  | none => .next s
  | some t => match t.state with
    | .submitted | .ready | .stopped | .saved | .discarded => .next (s.failTask id)
    | _ => .next s

/-- A stopped task whose benches are all resumed is RUNNING again (R219); a commit held by a fault record is not resumed here. -/
def State.resumeTask (s : State) (k : Nat) : State :=
  if (s.benches ++ s.saved).any fun b => b.task = k && b.stopped.isSome then s
  else s.updTask k fun t => if t.state = .stopped && !t.commitHeld then
    { t with state := if s.allExited k then .committing else .running } else t

/-- R219, R187. The Bureau discards an unpinned STOPPED task, such as one with a halted bench; of a pinned one, a stopped program of
an access processor. -/
def execStoppedTaskDiscard (id : Nat) (s : State) : Out :=
  match s.task? id with
  | none => .next s
  | some t =>
    if t.state ≠ .stopped then .next s
    else if !t.pinned then .next (s.discardTask id)
    else match s.benches.find? fun b => b.task = id && isAp b.place && b.stopped.isSome with
      | some b => .next ({ s with benches := s.benches.filter fun x => x.place ≠ b.place }.resumeTask id)
      | none => .next s

/-! ### Timelines (R229, R230) -/

/-- What a handle names: a hardware timeline with its value and its fault record, or a timeline word. -/
inductive TLine where
  | hw (v : Nat) (f : Option FaultRec)
  | word (va : DWord)

/-- A handle of a thread (Table 8.8), or the trap. -/
def State.tline (s : State) (g : Grp) (b : Bench) (h : Nat) : Except (Cause × DWord) TLine :=
  let bad : Except (Cause × DWord) TLine := .error (.resfield, wordVal g.w g.w2)
  let core := coreIx g.place
  let stw := 192 ≤ core
  if h < 8 then
    if stw then bad
    else
      let x := s.mxu (mxIx core h)
      .ok (.hw x.done x.fault)
  else if h = 8 then
    if stw then bad
    else .ok (.hw (s.asq core).done (s.asq core).fault)
  else if h = 9 then match s.queue (localQ g.place b.world) with
    | some q => .ok (.hw q.tl q.fault)
    | none => bad
  else if h = 10 then
    if b.world = 0 then .ok (.hw s.hub.dce.done none) else .error (.priv, wordVal g.w g.w2)
  else if h < 16 then bad
  else match (s.task? b.task).bind fun t => t.tl[h - 16]? with
    | some va => if va = 0 then bad else .ok (.word va)
    | none => bad

/-- The value operand of TLWAIT, TLREAD and TLSIG (R195, for FA or FB). -/
def tlOpnd (f : BitVec 7) (write : Bool) : Opnd := ⟨if f.getLsbD 0 then .uni else .vec, f.toNat / 2 * 2, 2, write⟩

/-- R230. Parks until a timeline reaches a value; an engine's fault record that it covers is delivered (R258, R282, R316). -/
def execTlwait (h : BitVec 6) (v : BitVec 7) (s : State) : Out :=
  issue s [tlOpnd v false] [] fun g s l => match s.bench? g.place, s.thread? g.place l with
    | some b, some t =>
      let n := (addrPair b t v).toNat
      match s.tline g b h.toNat with
      | .error (c, x) => .trap s c 0 x
      | .ok (.hw now f) =>
        if now < n then .poll s .engine
        else
          let s := (s.acquire .home).waitedOn (coreIx g.place) h.toNat n b.task
          match f with
          | some r => if r.num ≤ n then .trap s r.cause 0 r.addr else .done s
          | none => .done s
      | .ok (.word va) => match s.strongAccess b l .load va 8 true with
        | (s, .error e) => .trap s e.c e.sub e.v
        | (s, .ok loc) =>
          if dpaKind loc.dpa = .mmio then .trap s .perm 0 va
          else
            let s := s.pin b.task
            let s := s.performIf (·.holds (worldLate s g l b .home 4 loc 8 (.load 0) false none))
            let (bs, s) := s.strongRead g.place .home loc 8
            let s := s.noteLoad ⟨g.place, l⟩ .home 4 loc 8 t.grp true
            if leNat bs < n then .poll s .engine else .done (s.acquire .home)
    | _, _ => .done s

/-- The results of TLREAD: each executing thread's own pair, or the bench's. -/
def State.outTl (s : State) (p : Place) (l : Nat) (d : BitVec 7) (x : Nat) : State :=
  let d' := BitVec.ofNat 7 (d.toNat / 2 * 2)
  let ws := [BitVec.ofNat 32 x, BitVec.ofNat 32 (x / 2 ^ 32)]
  if d.getLsbD 0 then s.outU p l [l] d' ws else s.outV p l d' ws

/-- R230. Reads a timeline: a hardware one at its value now or at an older one (R40; log entry 15). -/
def execTlread (d : BitVec 7) (h : BitVec 6) (s : State) : Out :=
  issue s [tlOpnd d true] [] fun g s l => match s.bench? g.place, s.thread? g.place l with
    | some b, some t =>
      match s.tline g b h.toNat with
      | .error (c, x) => .trap s c 0 x
      | .ok (.hw now _) => let (r, s) := s.draw; .done (s.outTl g.place l d (now - r))
      | .ok (.word va) => match s.strongAccess b l .load va 8 true with
        | (s, .error e) => .trap s e.c e.sub e.v
        | (s, .ok loc) =>
          if dpaKind loc.dpa = .mmio then .trap s .perm 0 va
          else
            let s := s.pin b.task
            let y := worldLate s g l b .home 4 loc 8 (.load (t.wb + d.toNat / 2 * 2)) false none
            if s.mayDefer loc && !d.getLsbD 0 then .done (s.defer y)
            else
              let (bs, s) := (s.performIf (·.holds y)).strongRead g.place .home loc 8
              .done ((s.noteRead ⟨g.place, l⟩ .home 4 loc 8 false).outTl g.place l d (leNat bs))
    | _, _ => .done s

/-- R230. AMAXU.D of a value on a timeline word at device scope with release order. -/
def execTlsig (h : BitVec 6) (v : BitVec 7) (s : State) : Out :=
  issue s [tlOpnd v false] [] fun g s l => match s.bench? g.place, s.thread? g.place l with
    | some b, some t =>
      match if h.toNat < 16 then .error (.resfield, wordVal g.w g.w2) else s.tline g b h.toNat with
      | .error (c, x) => .trap s c 0 x
      | .ok (.hw _ _) => .done s
      | .ok (.word va) =>
        let s0 := s
        match s.strongAccess b l .store va 8 true with
        | (s, .error e) => .trap s e.c e.sub e.v
        | (s, .ok loc) =>
          if dpaKind loc.dpa = .mmio then .trap s .perm 0 va
          else if s0.unchecked b.task then .poll s0 .engine
          else match s0.endChecks s with
            | .error x => .trap s .integrity 0 x
            | .ok s =>
              let s := ((s.pin b.task).performFor ⟨g.place, l⟩).release g.place .home
              let (old, s) := s.strongRead g.place .home loc 8
              let s := s.strongWrite g.place .home loc (natLe 8 (Nat.max (leNat old) (addrPair b t v).toNat))
              .done (s.noteWrite .home loc 8 true (t.relRec g.place .home 4 loc 8 true))
    | _, _ => .done s

end Sys2Proof.Machine
end

