-- ==== Sys2Proof/Machine/Benches.lean ====
section
/-! DEFINITION. Events of the drawers: outstanding results return (R56), the two-level scheduler (R105, R107), the watchdog (R368),
MAC checks (R47), wake-ups (R116, R168), the resumption of stopped benches (R114) and the restore of saved ones (R115, R221). -/

namespace Sys2Proof.Machine

/-- R56. The `k`-th outstanding result of a thread returns: its own results first, then the bench-uniform ones its stop waits
for. A submission that is not accepted yet, and a load that is not performed yet, does not return. -/
def execResultWriteback (p : Place) (lane k : Nat) (s : State) : Out :=
  match s.bench? p, s.thread? p lane with
  | some b, some t =>
    match t.out[k]? with
    | some r =>
      if r.isHeld then .next s
      else .next (s.updThread p lane fun t => { (t.land r) with out := t.out.eraseIdx k })
    | none =>
      match (b.uout.filter fun u => u.lanes.contains lane)[k - t.out.length]? with
      | some u => .next (s.updBench p fun b => { (b.landU u) with uout := b.uout.erase u })
      | none => .next s
  | _, _ => .next s

/-! ### The two-level scheduler -/

/-- Whether every live thread of a bench is parked (R105); one that has yielded goes at the bench's next issue opportunity (R167). -/
def Bench.blocked (b : Bench) : Bool :=
  b.threads.all fun e => !e.2.live || (match e.2.wait, e.2.polled with
    | .ready, none => b.waits e.1 e.2
    | .yielded, _ => false
    | _, _ => true)

/-- Whether a bench leaves the active set (R105): it is blocked, one of its threads for a reason that gives the place up; a thread
that only waits at a stop keeps it, but see `swapStop`. R105 names MWAIT, a barrier wait, an empty bank and an absent line; GJOIN, PHASE, a
full bank, a mailbox and a matrix unit's claim give it up too (DESIGN CHOICE, log entry 75). -/
def Bench.leaves (b : Bench) : Bool :=
  b.blocked && (b.threads.all (fun e => !e.2.live) || b.threads.any fun e => e.2.live && (match e.2.wait, e.2.polled with
    | .ready, some .engine | .ready, none => false
    | _, _ => true))

/-- Whether a bench is blocked at a stop with memory requests outstanding, as many as the drawer's adaptive threshold, a free
value, may ask for (R105). -/
def Bench.mayLeave (b : Bench) : Bool := b.blocked && b.threads.any fun e => e.2.live && b.waits e.1 e.2 && e.2.out.any Pend.isMem

/-- The reservation of a bench (R107). -/
def Bench.chunks (b : Bench) : Nat := 4 * b.vfoot

/-- A bench leaves its drawer's active set (R105). -/
def State.swapBench (s : State) (i : Nat) (p : Place) : State :=
  { (s.updBench p fun b => { b with active := false, since := none }) with
    drawers := mupd Drawer.init s.drawers i fun d => { d with swapout := d.swapout + 1 } }

/-- Blocked benches of a drawer leave the active set (R105). -/
def State.swapOut (s : State) (i : Nat) : State :=
  (s.benches.filter fun b => drawerOf b.place = some i && b.active && b.leaves).foldl (fun s b => s.swapBench i b.place) s

/-- A bench blocked at a stop above the threshold leaves the active set (R105). -/
def State.swapStop (s : State) (p : Place) : State :=
  match drawerOf p, s.bench? p with
  | some i, some b => if b.active && b.mayLeave then s.swapBench i p else s
  | _, _ => s

/-- Whether what a thread was parked on is over, so far as the core shows it. -/
def State.pollOver (s : State) (b : Bench) : PollOn → Bool
  | .fifo k => !(mget [] (s.core (coreIx b.place)).fifos k).isEmpty
  | .full k => (mget [] (s.core (coreIx b.place)).fifos k).length < 512
  | .absent k => s.pres (coreIx b.place) b.world k = 0
  | .claim i => (s.mxu i).claim.isNone
  | .mailbox | .engine => true

/-- Whether a bench of the pending set is ready: one of its threads is, or has yielded (R105, R167). -/
def State.benchReady (s : State) (b : Bench) : Bool :=
  b.stopped.isNone && b.threads.any fun e => e.2.wait = .yielded || (b.ready e.1 e.2 && (match e.2.polled with
    | some k => s.pollOver b k
    | none => true))

/-- The mark of when each pending bench became ready, kept before every step: benches that became ready since the last mark get
one later than every earlier one (R105). -/
def State.noteReady (s : State) : State :=
  let now := maxNat (s.benches.filterMap Bench.since) + 1
  { s with benches := s.benches.map fun b =>
      if (drawerOf b.place).isNone || b.active then b
      else if s.benchReady b then (if b.since.isNone then { b with since := some now } else b)
      else { b with since := none } }

/-- Whether a bench fits in the active set of its drawer (R105, R107). -/
def State.fits (s : State) (i : Nat) (b : Bench) : Bool :=
  let act := s.benches.filter fun x => drawerOf x.place = some i && x.active
  act.length < 8 && sumNat (act.map Bench.chunks) + b.chunks ≤ 12288

/-- The slot of a bench in its drawer. -/
def slotIx : Place → Nat
  | .drawer _ _ k => k
  | .steward _ k => k
  | .ap _ k => k

/-- The ready pending benches of a drawer that fit, those that have been ready longest (R105): one with no mark yet has become ready
last. -/
def State.candidates (s : State) (i : Nat) : List Bench :=
  let xs := s.benches.filter fun b => drawerOf b.place = some i && !b.active && s.benchReady b && s.fits i b
  let now := maxNat (s.benches.filterMap Bench.since) + 1
  let m := match xs.map fun b => b.since.getD now with
    | [] => 0
    | x :: r => minNat x r
  xs.filter fun b => b.since.getD now = m

/-! ### The compressed register store -/

/-- Spills one line of a pending bench (R107); which one is the model's choice (log entry 50). -/
def State.spillLine (s : State) (i : Nat) : Option State :=
  (s.benches.filter fun b => drawerOf b.place = some i && !b.active).findSome? fun b =>
    ((upto b.vfoot).find? fun r => !b.spilled.contains r).map fun r =>
      { (s.updBench b.place fun b => { b with spilled := insertNat b.spilled r }) with
        drawers := mupd Drawer.init s.drawers i fun d => { d with spill := d.spill + 1 } }

/-- Lines of pending benches are spilled until what write-backs have stored fits (fuel: the lines that can be spilled) (R107). -/
def State.spillAux (i : Nat) : Nat → State → State
  | 0, s => s
  | n + 1, s => if s.chunksOf i ≤ 12288 then s else match s.spillLine i with
    | some t => spillAux i n t
    | none => s

/-- The store of a drawer after write-backs (R107): it can overflow only where the reservations of its benches do. -/
def State.spillFor (s : State) (i : Nat) : State :=
  let bs := s.benches.filter fun x => drawerOf x.place = some i
  if sumNat (bs.map Bench.chunks) ≤ 12288 then s else State.spillAux i (sumNat (bs.map Bench.vfoot)) s

/-- Every drawer's store after the write-backs of a step (R107). -/
def State.spillAll (s : State) : State :=
  ((s.benches.filterMap fun b => drawerOf b.place).dedup).foldl State.spillFor s

/-- R105, R107. A free active place of the drawer of `p` is filled by the bench at `p`, which has been ready longest among those
that fit. -/
def execBenchAdmit (p : Place) (s : State) : Out :=
  match drawerOf p with
  | none => .next s
  | some i =>
    let s := s.swapOut i
    match (s.candidates i).find? fun b => b.place = p with
    | none => .next s
    | some b =>
      let s := { s with drawers := mupd Drawer.init s.drawers i fun d =>
        { d with swapin := d.swapin + 1, refill := d.refill + BitVec.ofNat 64 b.spilled.length } }
      .next ((s.updBench p fun b => { b with active := true, spilled := [], since := none }).spillFor i)

/-! ### Watchdog, checks, wake-ups -/

/-- R368. A bench of a RUNNING task with a live thread that has issued nothing for WDOG clocks takes TC_WATCHDOG. -/
def execWatchdogExpiry (p : Place) (s : State) : Out :=
  match s.bench? p with
  | none => .next s
  | some b =>
    let lim := (s.ctlReg 0x80).toNat
    let n := s.cycle - b.lastIssue
    let run := match s.task? b.task with
      | some t => t.state = .running
      | none => false
    match b.threads.find? fun e => e.2.live with
    | some (l, t) =>
      if run && lim ≠ 0 && lim ≤ n && b.stopped.isNone then .next (s.takeTraps p t.pc [⟨l, .watchdog, 0, BitVec.ofNat 64 n⟩])
      else .next s
    | none => .next s

/-- R47. The `k`-th MAC check ends: it passes, or the world stops with TC_INTEGRITY. -/
def execIntegrityCheckComplete (k : Nat) (s : State) : Out :=
  match s.checks[k]? with
  | none => .next s
  | some c =>
    let s := { s with checks := s.checks.eraseIdx k }
    .next (if c.good then s else s.stopWorld c.world (64 * c.blk))

/-- R168. A thread wakes from MWAIT without a write. -/
def execSpuriousWakeup (p : Place) (lane : Nat) (s : State) : Out :=
  .next (s.updThread p lane fun t => if t.wait = .mwait then { t with wait := .ready, watch := none } else t)

/-! ### Resumption and restore -/

/-- R114. The Bureau resumes a stopped bench: the instruction at `tpc` executes again in the lanes of `rmask`, and engine work
held by the fault goes on (R258, R282, R316). -/
def execBenchResume (p : Place) (s : State) : Out :=
  match s.bench? p with
  | none => .next s
  | some b =>
    if b.stopped.isNone then .next s
    else
      let s := s.updBench p fun b => { b.mapThreads fun _ t => t.resumePrefix with stopped := none, lastIssue := s.cycle }
      .next ((((s.mxUnhold b.task).bteUnhold b.task).asqUnhold b.task).resumeTask b.task)

/-- The slot a bench returns to is free and its place takes work again (R115, R220). -/
def State.canRestore (s : State) (p : Place) : Bool := (s.bench? p).isNone && !s.vacated.contains (coreIx p)

/-- A restored thread (R56, R63, R116): a new run begins, the prefix state goes on, MWAIT returns, an armed watch is found
triggered, barrier waits are looked up again. -/
def State.wakeThread (s : State) (t : Thread) : Thread :=
  let t := match t.wait with
    | .mwait => { t with wait := .ready, watch := none }
    | .barrier nd i g => if (s.slot nd i).gen = g then t else { t with wait := .ready, view := t.view.join (s.slot nd i).done }
    | _ => t
  { t.resumePrefix with watch := t.watch.map fun w => { w with hit := true }, used := [] }

/-- The matrix-unit state saved for a task returns first (R233). -/
def State.restoreMx (s : State) (k : Nat) (p : Place) : State :=
  match drawerOf p with
  | none => s
  | some i => match s.msaves.find? fun m => m.task = k ∧ m.mx = i with
    | none => s
    | some m =>
      { (s.updMxu i fun x => { x with data := m.data, status := m.status, pseq := m.pseq, claim := some k }) with
        msaves := s.msaves.filter fun x => !(x.task = k && x.mx = i) }

/-- R115, R221. Restores a saved bench to the slot it left, with the acquire of a barrier its threads waited at (R35); a SAVED task is RUNNING
again, a STOPPED one stays so (Table 8.5). A saved bench keeps the clocks it had idled (R368). -/
def execBenchRestore (p : Place) (s : State) : Out :=
  match s.saved.find? fun b => b.place = p with
  | none => .next s
  | some b =>
    let mxBusy := match drawerOf p with
      | some i => (s.msaves.any fun m => m.task = b.task && m.mx = i) && (s.mxu i).claim.isSome
      | none => false
    if !s.canRestore p || mxBusy then .next s
    else
      let s := s.restoreMx b.task p
      let b' := { b with threads := b.threads.map fun (l, t) => (l, s.wakeThread t), lastIssue := s.cycle - b.lastIssue, since := none }
      let s := { (s.acquire .home) with saved := s.saved.filter fun b => b.place ≠ p, benches := s.benches ++ [b'],
                                        wakes := s.wakes.filter fun w => w.bench ≠ p }
      .next (s.updTask b.task fun t => if t.state = .saved then { t with state := .running } else t)

end Sys2Proof.Machine
end

