-- ==== Sys2Proof/Machine/Banks.lean ====
section
/-! DEFINITION. BANKCFG (R174, R175), TLBINV (R193), and the access processors (R185 to R187). -/

namespace Sys2Proof.Machine

def bitsOf (n : Nat) (x : Word) : List Nat := (upto n).filter fun i => x.getLsbD i

/-- Whether an engine operation of a core reads or writes a world's scratchpad (R175). -/
def State.spadBusy (s : State) (c w : Nat) : Bool :=
  (upto 8).any (fun d => (s.mxu (mxIx c d)).queue.any fun x => x.who.world = w && !x.touches.isEmpty)
    || s.queues.any (fun q => q.2.ops.any fun o => o.core = c && o.who.world = w && (o.dst.space = 1 || match o.src with
      | some l => l.space = 1
      | none => false))
    || (s.asq c).runs.any fun r => r.who.world = w

/-- A FIFO bank that holds rows, or on which a thread is parked (R175). -/
def State.fifoBusy (s : State) (c i : Nat) : Bool :=
  !(mget [] (s.core c).fifos i).isEmpty ||
    s.benches.any fun b => coreIx b.place = c && b.threads.any fun e => e.2.polled = some (.fifo i)

/-- The refusal or the effect of BANKCFG on a core: its result, and the state (R175). The scratchpad accesses issued before it are
performed first. Which lines of L1 a bank holds the spec leaves open: all of the world's on the core leave when one bank leaves
cache mode, as any line may at any time (R188). -/
def State.bankcfg (s : State) (c w : Nat) (sa sb : Word) : Nat × State :=
  let sp := bitsOf 32 sa
  let ff := bitsOf 32 sb
  let s := s.performSpad c
  let x := s.core c
  let modeOf (i : Nat) : BMode := if sp.contains i then .spad else if ff.contains i then .fifo else .cache
  let own := (upto 32).filter fun i => match x.banks[i]? with
    | some b => b.owner = w
    | none => false
  let oldF := x.banksOf w .fifo
  let spadMoves : Bool := x.banksOf w .spad ≠ sp
  if sa &&& sb ≠ 0 || !([0, 1, 2, 4, 8, 16, 32].contains sp.length) || 16 < ff.length then (2, s)
  else if oldF.any (fun i => !ff.contains i && s.fifoBusy c i)
      || (spadMoves && (x.pres.any (fun e => e.1 / 2 ^ 16 = w) || s.spadBusy c w)) then (1, s)
  else
    let s := s.settleSpad c
    let s := if (x.banksOf w .cache).any fun i => modeOf i ≠ .cache then s.flushCore c [w] else s
    (0, s.updCore c fun x =>
      let banks := ((upto 32).zip x.banks).map fun (i, b) => if own.contains i then { b with mode := modeOf i } else b
      let keepF (i : Nat) : Bool := ff.contains i && oldF.findIdx? (· = i) = ff.findIdx? (· = i)
      { (x.clearBanks fun i => own.contains i && (!sp.contains i || spadMoves)) with
        banks := banks,
        stags := if spadMoves then x.stags.filter fun e => e.1 / 2 ^ 16 ≠ w else x.stags,
        smarked := if spadMoves then x.smarked.filter fun k => k / 2 ^ 16 ≠ w else x.smarked,
        fifos := x.fifos.filter fun e => !own.contains e.1 || keepF e.1 })

/-- R175. Sets the modes of a world's core SRAM banks. -/
def execBankcfg (d a b : BitVec 7) (s : State) : Out :=
  issueOnce s [rU a, rU b, wU d] fun s g l0 on => match s.bench? g.place, s.thread? g.place l0 with
    | some bn, some t =>
      let sa := bn.u t a.toNat
      let sb := bn.u t b.toNat
      let c := coreIx g.place
      let own (i : Nat) : Bool := c < 192 && (match (s.core c).banks[i]? with
        | some k => k.owner = bn.world
        | none => false)
      if !(bitsOf 32 (sa ||| sb)).all own then .trap s .worldfence 0 ((sa ||| sb).setWidth 64)
      else
        let (r, s) := if 192 ≤ c then (0, s) else s.bankcfg c bn.world sa sb
        .done (s.outU g.place l0 on d [BitVec.ofNat 32 r])
    | _, _ => .done s

/-- The translations that a TLBINV of a kind removes: whether a page of `n` bytes at `base` of world `u` is one. -/
def tlbHit (kind w va : Nat) (u base n : Nat) : Bool :=
  match kind with
  | 0 => u = w && base ≤ va && va < base + n
  | 1 => u = w
  | _ => true

/-- Whether a queued drain still has to use a translation that is removed: its page, of whatever size, lies in the same 1 GiB
(R193, R253). -/
def State.foldsThrough (s : State) (kind w va : Nat) : Bool :=
  s.mxus.any fun e => e.2.queue.any fun c => match c.fold with
    | .mem _ a => tlbHit kind w va c.who.world (a / gib * gib) gib
    | _ => false

/-- TLBINV (R193): the operand word names the kind and the world; kind 3 is refused. Accesses that used an entry are completed: those
not performed yet are, and a queued drain is waited for. -/
def tlbinv (a b : BitVec 7) (s : State) : Out :=
  issueOnce s [rU a 2, rU b] fun s g l0 _ => match s.bench? g.place, s.thread? g.place l0 with
    | some bn, some t =>
      let va := (ofPair (bn.u t a.toNat) (bn.u t (a.toNat + 1))).toNat
      let c := (bn.u t b.toNat).toNat
      let w := c % 2 ^ 16
      let k := bits c 17 16
      if k = 3 then .trap s .resfield 0 (wordVal g.w g.w2)
      else if s.foldsThrough k w va then .poll s .engine
      else
        let s := s.performIf fun x => match x.loc with
          | .world l => tlbHit k w va l.world (l.wva / gib * gib) gib
          | _ => false
        .done { s with tlbs := s.tlbs.filter fun e => !tlbHit k w va e.world e.base e.size }
    | _, _ => .done s

/-- R193. Removes the translations of one address of a world (kind 0). -/
def execTlbinvAddress (a b : BitVec 7) (s : State) : Out := tlbinv a b s
/-- R193. Removes every translation of a world (kind 1). -/
def execTlbinvWorld (a b : BitVec 7) (s : State) : Out := tlbinv a b s
/-- R193. Removes every translation of every world (kind 2). -/
def execTlbinvAll (a b : BitVec 7) (s : State) : Out := tlbinv a b s

/-! ### Access processors -/

/-- The operands of an access-processor instruction: uniform ones in a drawer, vector ones in a processor (R186). -/
def apOpnd (p : Place) (f : BitVec 7) (n : Nat) (write : Bool) : Opnd := ⟨if isAp p then .vec else .uni, f.toNat, n, write⟩
def apReg (p : Place) (b : Bench) (t : Thread) (f : Nat) : Word := if isAp p then t.v f else b.u t f
/-- The result of APSTART and APSTOP: a uniform register in a drawer, a vector register in a processor (log entry 36). -/
def State.apOut (s : State) (p : Place) (l0 : Nat) (on : List Nat) (d : BitVec 7) (x : Nat) : State :=
  if isAp p then s.outAll p on d [BitVec.ofNat 32 x] else s.outU p l0 on d [BitVec.ofNat 32 x]
def placeOf (s : State) : Place :=
  match s.grp? with
  | some g => g.place
  | none => .ap 0 0

/-- Whether a processor runs a program. -/
def State.apRuns (s : State) (p : Place) : Bool := s.benches.any fun b => b.place = p

/-- A program at its start (R185): 32 threads in the world, task and snapshot of the starting thread, whose plain stores so far are
ordered before it. -/
def apBench (p : Place) (k w snap now : Nat) (view : View) (entry arg : DWord) : Bench :=
  let th (l : Nat) : Thread :=
    { Thread.start entry l 0 0 0 snap with vregs := mput 0 (mput 0 [] 1 (hiWord arg)) 0 (loWord arg), view := view }
  { place := p, task := k, world := w, vfoot := 128, sfoot := 0, pfoot := 32, uregs := [], spkey := 0, rmask := 0, uout := [],
    threads := (upto 32).map fun l => (l, th l), active := false, spilled := [], since := none, lastIssue := now,
    stopped := none }

/-- R186. Starts a program on an access processor. The words in its mailboxes stay, from program to program (log entry 109). -/
def execApstart (d a b : BitVec 7) (s : State) : Out :=
  let p := placeOf s
  issueOnce s [apOpnd p a 4 false, apOpnd p b 1 false, apOpnd p d 1 true] fun s g l0 on =>
    match s.bench? g.place, s.thread? g.place l0 with
    | some bn, some t =>
      let r (i : Nat) : Word := apReg g.place bn t (a.toNat + i)
      let q : Place := .ap (coreIx g.place) ((apReg g.place bn t b.toNat).toNat % 2)
      if s.apRuns q then .done (s.apOut g.place l0 on d 1)
      else
        let new := apBench q bn.task bn.world (s.snapOf bn.task) s.cycle t.view (ofPair (r 0) (r 1)) (ofPair (r 2) (r 3))
        .done ({ s with benches := s.benches ++ [new] }.apOut g.place l0 on d 0)
    | _, _ => .done s

/-- R186. Stops the program of an access processor, after its outstanding results. -/
def execApstop (d b : BitVec 7) (s : State) : Out :=
  let p := placeOf s
  issueOnce s [apOpnd p b 1 false, apOpnd p d 1 true] fun s g l0 on =>
    match s.bench? g.place, s.thread? g.place l0 with
    | some bn, some t =>
      let q : Place := .ap (coreIx g.place) ((apReg g.place bn t b.toNat).toNat % 2)
      if s.apRuns q then
        let s := ((s.bench? q).map fun b => b.threads.map Prod.fst).getD [] |>.foldl (fun s l => s.settleLane q l) s
        .done ({ s with benches := s.benches.filter fun x => x.place ≠ q }.apOut g.place l0 on d 0)
      else .done (s.apOut g.place l0 on d 1)
    | _, _ => .done s

/-- The processor whose mailbox a word goes to or comes from: in a drawer that of b[0], in a processor its own. -/
def mailbox (p : Place) (b : Bench) (t : Thread) (f : BitVec 7) : Nat :=
  match p with
  | .ap _ i => i
  | _ => (b.u t f.toNat).toNat % 2
def mailOpnd (p : Place) (f : BitVec 7) : List Opnd := if isAp p then [] else [rU f]

/-- A mailbox of a core: the outbox or the inbox of processor `i`, its words and the views they carry. -/
def Core.box (c : Core) (out : Bool) (i : Nat) : List Word := nth [] (if out then c.outbox else c.inbox) i
def boxKey (out : Bool) (i : Nat) : Nat := (if out then 2 else 0) + i
def Core.setBox (c : Core) (out : Bool) (i : Nat) (ws : List Word) (vs : List View) : Core :=
  let c := { c with boxv := mput [] c.boxv (boxKey out i) vs }
  if out then { c with outbox := setNth c.outbox i ws } else { c with inbox := setNth c.inbox i ws }

/-- R186. Pushes a word of each executing lane into a mailbox: a release at core scope of each lane's earlier accesses. -/
def execAppush (a b : BitVec 7) (s : State) : Out :=
  issueOnce s (rV a :: mailOpnd (placeOf s) b) fun s g l0 on =>
    match s.bench? g.place, s.thread? g.place l0 with
    | some bn, some t =>
      let core := coreIx g.place
      let i := mailbox g.place bn t b
      let ths := on.filterMap fun l => mget? bn.threads l
      let box := (s.core core).box (isAp g.place) i
      if 256 < box.length + ths.length then .poll s .mailbox
      else
        let s := (on.foldl (fun s l => s.performFor ⟨g.place, l⟩) s).release g.place (.copy (.core core))
        let vs := mget [] (s.core core).boxv (boxKey (isAp g.place) i)
        .done (s.updCore core fun c => c.setBox (isAp g.place) i (box ++ ths.map fun t => t.v a.toNat) (vs ++ ths.map Thread.view))
    | _, _ => .done s

/-- R186. Pops a word into each executing lane: the matching acquire. -/
def execApfetch (d b : BitVec 7) (s : State) : Out :=
  issueOnce s (wV d :: mailOpnd (placeOf s) b) fun s g l0 on =>
    match s.bench? g.place, s.thread? g.place l0 with
    | some bn, some t =>
      let core := coreIx g.place
      let i := mailbox g.place bn t b
      let box := (s.core core).box (!isAp g.place) i
      let vs := mget [] (s.core core).boxv (boxKey (!isAp g.place) i)
      if box.length < on.length then .poll s .mailbox
      else
        let s := s.updCore core fun c => c.setBox (!isAp g.place) i (box.drop on.length) (vs.drop on.length)
        let s := (on.zip vs).foldl (fun s x => s.updThread g.place x.1 fun t => { t with view := t.view.join x.2 })
          (s.acquire (.copy (.core core)))
        .done ((on.zip box).foldl (fun s x => s.outV g.place x.1 d [x.2]) s)
    | _, _ => .done s

end Sys2Proof.Machine
end

