-- ==== Sys2Proof/Machine/Ecdsa.lean ====
section
/-! DEFINITION. ECDSA over the curve P-384 with the deterministic nonces of RFC 6979 (R376), and the device identity (log entry 18). -/

namespace Sys2Proof.Machine

/-! ### The curve P-384 -/

def pP : Nat := 2 ^ 384 - 2 ^ 128 - 2 ^ 96 + 2 ^ 32 - 1
def pN : Nat := 0xFFFFFFFFFFFFFFFFFFFFFFFFFFFFFFFFFFFFFFFFFFFFFFFFC7634D81F4372DDF581A0DB248B0A77AECEC196ACCC52973
def pGx : Nat := 0xAA87CA22BE8B05378EB1C71EF320AD746E1D3B628BA79B9859F741E082542A385502F25DBF55296C3A545E3872760AB7
def pGy : Nat := 0x3617DE4A96262C6F5D9E98BF9292DC29F8F41DBD289A147CE9DA3113B5F0B8C00A60B1CE1D7E819D7A431D7C90EA0E5F

/-- `x ^ e mod m` by squaring, for `e` below `2 ^ f`. -/
def powMod : Nat → Nat → Nat → Nat → Nat
  | 0, _, _, m => 1 % m
  | f + 1, x, e, m => let r := powMod f (x * x % m) (e / 2) m; if e % 2 = 1 then r * x % m else r
/-- The inverse modulo a prime. -/
def invMod (x m : Nat) : Nat := powMod 384 (x % m) (m - 2) m

/-- A point of the curve; none is the point at infinity. -/
abbrev EcPoint := Option (Nat × Nat)

def ecAdd : EcPoint → EcPoint → EcPoint
  | none, q => q
  | p, none => p
  | some (x1, y1), some (x2, y2) =>
    if x1 = x2 && (y1 + y2) % pP = 0 then none
    else
      let l := if x1 = x2 then (3 * x1 * x1 + (pP - 3)) * invMod (2 * y1) pP % pP
        else (y2 + pP - y1) * invMod (x2 + pP - x1) pP % pP
      let x := (l * l + 2 * pP - x1 - x2) % pP
      some (x, (l * (x1 + pP - x) + (pP - y1)) % pP)
/-- `k · p`, for `k` below `2 ^ f`. -/
def ecMul : Nat → Nat → EcPoint → EcPoint
  | 0, _, _ => none
  | f + 1, k, p => let r := ecMul f (k / 2) (ecAdd p p); if k % 2 = 1 then ecAdd p r else r
def ecG : EcPoint := some (pGx, pGy)

/-! ### Signatures -/

/-- One step of the nonce generator of RFC 6979: the key and the value after a candidate that is not used. -/
def nonceNext (k v : List Byte) : List Byte × List Byte :=
  let k := hmac384 k (v ++ [0])
  (k, hmac384 k v)

/-- The first candidate nonce that gives a signature. -/
def signWith (d z : Nat) : Nat → List Byte → List Byte → Nat × Nat
  | 0, _, _ => (0, 0)
  | f + 1, key, v =>
    let v := hmac384 key v
    let k := beNat v
    let r := match ecMul 384 k ecG with
      | some (x, _) => x % pN
      | none => 0
    let s := invMod k pN * (z + d * r) % pN
    if k = 0 || pN ≤ k || r = 0 || s = 0 then let (key, v) := nonceNext key v; signWith d z f key v else (r, s)

/-- The signature of a digest under the private key `d`: r ‖ s, each 48 bytes big-endian (R376). -/
def ecdsaSign (d : Nat) (digest : List Byte) : List Byte :=
  let x := natBe 48 d
  let h := natBe 48 (beNat digest % pN)
  let v := List.replicate 48 (1 : Byte)
  let k := hmac384 (List.replicate 48 (0 : Byte)) (v ++ [0] ++ x ++ h)
  let v := hmac384 k v
  let k := hmac384 k (v ++ [1] ++ x ++ h)
  let (r, s) := signWith d (beNat digest) 64 k (hmac384 k v)
  natBe 48 r ++ natBe 48 s

/-- Whether a signature of a digest verifies under a public key. -/
def ecdsaVerify (q : EcPoint) (digest sig : List Byte) : Bool :=
  let r := beNat (sig.take 48)
  let s := beNat (sig.drop 48)
  let w := invMod s pN
  decide (0 < r) && decide (r < pN) && decide (0 < s) && decide (s < pN) &&
    match ecAdd (ecMul 384 (beNat digest * w % pN) ecG) (ecMul 384 (r * w % pN) q) with
    | some (x, _) => decide (x % pN = r)
    | none => false

/-! ### The device identity -/

/-- The private key, in its range. -/
def deviceSecret : Nat := Config.deviceKey % (pN - 1) + 1
def devicePublic : EcPoint := ecMul 384 deviceSecret ecG
/-- The public key as bytes, x ‖ y, each 48 bytes big-endian (log entry 18). -/
def publicBytes : EcPoint → List Byte
  | some (x, y) => natBe 48 x ++ natBe 48 y
  | none => []
/-- DEVID: SHA-384 of the device identity public key (Table 14.6). -/
def deviceId : List Byte := sha384 (publicBytes devicePublic)

def asciiBytes (s : String) : List Byte := s.toList.map fun c => BitVec.ofNat 8 c.toNat
/-- The labels of R376. -/
def lblSign : List Byte := asciiBytes "SCAIVO-KZ40-SIGN"
def lblRcpt : List Byte := asciiBytes "SCAIVO-KZ40-RCPT"
def lblSeal : List Byte := asciiBytes "SCAIVO-KZ40-SEAL"

/-- A signature of the trust root over labelled bytes (R376). -/
def trtSign (label bs : List Byte) : List Byte := ecdsaSign deviceSecret (sha384 (label ++ bs))

/-- Whether a token's signature is good under the key that DEVID names (R379): this device's, or another's, known by its
DEVID alone (log entry 18). -/
def trtVerify (devid label bs sig : List Byte) : Bool :=
  if devid = deviceId then ecdsaVerify devicePublic (sha384 (label ++ bs)) sig
  else Config.peerSigned devid (sha384 (label ++ bs)) sig

end Sys2Proof.Machine
end

