-- ==== Sys2Proof/Machine/Trust.lean ====
section
/-! DEFINITION. The hash and trust-root instructions (R375 to R379), counter records and their export (R378, R380), and the SPDM
responder (R381). -/

namespace Sys2Proof.Machine

/-! ### Byte spans of scratchpad -/

inductive Span where
  | fault (f : AFault)
  | absent (blk : Nat)
  | go
  deriving DecidableEq, Repr

/-- The checks of `n` bytes of scratchpad at an offset (R375): alignment, the extent, presence (R183). -/
def State.spanCheck (s : State) (cix w : Nat) (x : Word) (n al : Nat) : Span :=
  if x.toNat % al ≠ 0 then .fault ⟨.align, 0, x.setWidth 64⟩
  else if s.spadSize cix w < x.toNat + n then .fault ⟨.worldfence, 0, x.setWidth 64⟩
  else match ((upto ((x.toNat % 64 + n + 63) / 64)).map fun i => x.toNat / 64 + i).find? fun b => s.pres cix w b ≠ 0 with
    | some b => .absent b
    | none => .go

/-- The same for a read, which takes TC_UE in a marked block (R331). -/
def State.spanRdCheck (s : State) (cix w : Nat) (x : Word) (n al : Nat) : Span :=
  match s.spanCheck cix w x n al with
  | .go => if s.spadMarked cix w x.toNat n then .fault ⟨.ue, 1, BitVec.ofNat 64 (x.toNat / 64 * 64)⟩ else .go
  | r => r

/-- Generic-path bytes of scratchpad, as a thread reads them. -/
def State.spanRead (s : State) (bn : Bench) (x n : Nat) : List Byte × State :=
  let (ws, s) := (s.performSpad (coreIx bn.place)).spadLoads (coreIx bn.place) bn.world bn.spkey x bn.task ((n + 3) / 4)
  ((bytesOfWords ws).take n, s)
/-- Whole words stored to scratchpad through the generic path by a thread (R28), as one write (R331). -/
def State.spanPut (s : State) (bn : Bench) (x : Nat) (bs : List Byte) : State :=
  let c := coreIx bn.place
  let s := (s.performSpad c).spadStores c bn.world bn.spkey x (wordsOfBytes bs) bn.task
  if s.spadMarked c bn.world x bs.length then s.unmark c bn.world x bs.length else s

/-- The bench, its first executing lane's view, and what an instruction of the group needs. -/
def withBench (s : State) (g : Grp) (l0 : Nat) (f : Bench → Thread → LaneRes) : LaneRes :=
  match s.bench? g.place, s.thread? g.place l0 with
  | some b, some t => f b t
  | _, _ => .done s

/-- Goes on once every span is there; a fault of the first that has one; a wait otherwise. -/
def spans (s : State) (g : Grp) (l0 : Nat) : List Span → LaneRes → LaneRes
  | [], k => k
  | .go :: xs, k => spans s g l0 xs k
  | .fault f :: _, _ => .trap s f.c f.sub f.v
  | .absent b :: _, _ => s.parkAbsent g.place l0 b

/-! ### SHA-384 (R375) -/

/-- The hash state in twenty uniform registers: eight 64-bit words and the length in bits. -/
def hashRegs (h : List Nat) (n : Nat) : List Word :=
  (h.flatMap fun x => [BitVec.ofNat 32 x, BitVec.ofNat 32 (x / 2 ^ 32)]) ++ (upto 4).map fun i => BitVec.ofNat 32 (n / 2 ^ (32 * i))
def hashOf (ws : List Word) : List Nat × Nat :=
  ((upto 8).map fun i => (nth 0 ws (2 * i)).toNat + 2 ^ 32 * (nth 0 ws (2 * i + 1)).toNat,
    ((upto 4).foldl (fun n i => n + (nth 0 ws (16 + i)).toNat * 2 ^ (32 * i)) 0))

/-- R375. Writes the initial SHA-384 state. -/
def execHinit (d : BitVec 7) (s : State) : Out :=
  issueOnce s [wU d 20] fun s g l0 on => .done (s.outU g.place l0 on d (hashRegs sha384Iv 0))

/-- The generic-path passes of `n` bytes, one word each (R179; log entry 27). -/
def State.hashPasses (s : State) (cix n : Nat) : State :=
  if 192 ≤ cix then s else s.updCore cix fun c => { c with cnt := { c.cnt with npass := c.cnt.npass + BitVec.ofNat 64 ((n + 3) / 4) } }

/-- R375. Absorbs 128-byte blocks. -/
def execHabs (d a b : BitVec 7) (s : State) : Out :=
  issueOnce s [rU d 20, rU a, rU b, wU d 20] fun s g l0 on => withBench s g l0 fun bn t =>
    let x := bn.u t a.toNat
    let n := (bn.u t b.toNat).toNat
    let c := coreIx g.place
    if 512 < n then .trap s .resfield 0 (wordVal g.w g.w2)
    else spans s g l0 [s.spanRdCheck c bn.world x (128 * n) 128] <|
      let (h, len) := hashOf (bn.us t d 20)
      let (bs, s) := s.spanRead bn x.toNat (128 * n)
      let h := shaBlocks h bs
      .done ((s.hashPasses c (128 * n)).outU g.place l0 on d (hashRegs h (len + 1024 * n)))

/-- R375. Absorbs the last bytes, pads, and writes the digest. -/
def execHfin (d a b : BitVec 7) (s : State) : Out :=
  issueOnce s [rU d 20, rU a, rU b, wU d 20] fun s g l0 on => withBench s g l0 fun bn t =>
    let x := bn.u t a.toNat
    let n := (bn.u t b.toNat).toNat
    let c := coreIx g.place
    if 127 < n then .trap s .resfield 0 (wordVal g.w g.w2)
    else spans s g l0 [s.spanRdCheck c bn.world x n 4] <|
      let (h, len) := hashOf (bn.us t d 20)
      let (bs, s) := s.spanRead bn x.toNat n
      let h := shaBlocks h (shaPad (len / 8 + n) bs)
      let dig := wordsOfBytes ((h.take 6).flatMap (natBe 8))
      .done ((s.hashPasses c n).outU g.place l0 on d (dig ++ List.replicate 8 0))

/-! ### The trust root -/

def State.updTrt (s : State) (f : Trt → Trt) : State := { s with hub := { s.hub with trt := f s.hub.trt } }
def devidBits : BitVec 384 := BitVec.ofNat 384 (beNat deviceId)
/-- A counter record (R378): record 0 is always LIVE and owned by world 0. -/
def State.crec (s : State) (r : Nat) : CRec :=
  match mget? s.hub.trt.recs r with
  | some x => x
  | none => if r = 0 then ⟨.live, 0, 0, devidBits⟩ else CRec.free
def State.setRec (s : State) (r : Nat) (x : CRec) : State := s.updTrt fun t => { t with recs := mset t.recs r x }
/-- `meas`i, 48 bytes, zero at reset (R365). -/
def State.meas (s : State) (i : Nat) : List Byte := mget (List.replicate 48 0) s.hub.trt.meas i
/-- Extends a measurement register (R365). -/
def State.extend (s : State) (i : Nat) (x : List Byte) : State :=
  s.updTrt fun t => { t with meas := mset t.meas i (sha384 (s.meas i ++ x)) }
/-- The module's incarnation: the value of record 0 after boot's increment (R348, R378). -/
def State.incarn (s : State) : Nat := s.hub.trt.incarn

/-- A trust-root instruction of a steward: its status or value goes to the vector destination of each executing thread. -/
def trt (ops : List Opnd) (f : State → Grp → Nat → List Nat → Bench → Thread → LaneRes) (s : State) : Out :=
  issueOnce s ops fun s g l0 on => withBench s g l0 fun b t => f s g l0 on b t
def State.status (s : State) (g : Grp) (on : List Nat) (d : BitVec 7) (r : Nat) : LaneRes :=
  .done (s.outAll g.place on d [BitVec.ofNat 32 r])

/-- R376. Signs a digest with the device identity key. -/
def execSign (d a b : BitVec 7) (s : State) : Out :=
  trt [wV d, rU a, rU b] (fun s g l0 on bn t =>
    let c := coreIx g.place
    let x := bn.u t a.toNat
    let y := bn.u t b.toNat
    spans s g l0 [s.spanRdCheck c bn.world x 48 64, s.spanCheck c bn.world y 96 64] <|
      let (bs, s) := s.spanRead bn x.toNat 48
      (s.spanPut bn y.toNat (trtSign lblSign bs)).status g on d 0) s

/-- R377. Extends a measurement register from 4 on. -/
def execMext (d a b : BitVec 7) (s : State) : Out :=
  trt [wV d, rU a, rU b] (fun s g l0 on bn t =>
    let c := coreIx g.place
    let i := (bn.u t a.toNat).toNat
    let x := bn.u t b.toNat
    if 15 < i then .trap s .resfield 0 (wordVal g.w g.w2)
    else spans s g l0 [s.spanRdCheck c bn.world x 48 64] <|
      if i < 4 then s.status g on d 1
      else
        let (bs, s) := s.spanRead bn x.toNat 48
        (s.extend i bs).status g on d 0) s

/-- The record after NVINC for world `w`, and the value it returns (R378); none where it changes nothing. -/
def CRec.inc (x : CRec) (w : Nat) : Option CRec :=
  match x.st with
  | .free => some ⟨.live, w, 1, devidBits⟩
  | .live => if x.owner = w && x.value + 1 < 2 ^ 64 then some { x with value := x.value + 1 } else none
  | _ => none

/-- R378. Increments or creates a counter record. -/
def execNvinc (d a : BitVec 7) (s : State) : Out :=
  trt [wV d 2, rU a] (fun s g _ on bn t =>
    let x := (bn.u t a.toNat).toNat
    if x / 2 ^ 16 ≠ 0 then .trap s .resfield 0 (wordVal g.w g.w2)
    else match (s.crec (x % 256)).inc (bits x 15 8) with
      | some r => .done ((s.setRec (x % 256) r).outAll g.place on d [BitVec.ofNat 32 r.value, BitVec.ofNat 32 (r.value / 2 ^ 32)])
      | none => .done (s.outAll g.place on d [0, 0])) s

/-- The signed bytes of a seal token (Table 14.6). -/
def tokenBytes (r kind value : Nat) (root : List Byte) : List Byte :=
  natLe 4 1 ++ natLe 4 (kind * 256 + r) ++ natLe 8 value ++ root ++ deviceId ++ List.replicate 48 0

/-- R379. Seals: increments the record and writes the token; record 0, which is always LIVE (R378), stays so under KIND 2 (log entry 114). -/
def execSeal (d a b : BitVec 7) (s : State) : Out :=
  trt [wV d, rU a, rU b] (fun s g l0 on bn t =>
    let c := coreIx g.place
    let k := (bn.u t a.toNat).toNat
    let kind := bits k 9 8
    let x := bn.u t b.toNat
    if k / 2 ^ 10 ≠ 0 || kind = 3 then .trap s .resfield 0 (wordVal g.w g.w2)
    else spans s g l0 [s.spanRdCheck c bn.world x 256 256] <|
      let r := s.crec (k % 256)
      if r.st ≠ .live || r.value + 1 = 2 ^ 64 then s.status g on d 1
      else
        let (root, s) := s.spanRead bn (x.toNat + 16) 48
        let body := tokenBytes (k % 256) kind (r.value + 1) root
        let s := s.setRec (k % 256) { r with value := r.value + 1, st := if kind = 2 && k % 256 ≠ 0 then .exporting else .live }
        (s.spanPut bn x.toNat (body ++ trtSign lblSeal body)).status g on d 0) s

/-- The checks of a token, in their order (R379): 2 BADSIG, 3 NOREC, 1 STALE, 0 ACCEPT. -/
def State.unsealStatus (s : State) (tok : List Byte) : Nat :=
  let at_ (o n : Nat) : List Byte := (tok.drop o).take n
  let w1 := leNat (at_ 4 4)
  let r := s.crec (w1 % 256)
  let devid := at_ 0x40 48
  if leNat (at_ 0 4) ≠ 1 || w1 / 2 ^ 10 ≠ 0 || leNat (at_ 0x70 48) ≠ 0 then 2
  else if devid ≠ deviceId && devid ≠ natBe 48 r.origin.toNat then 2
  else if !trtVerify devid lblSeal (at_ 0 0xA0) (at_ 0xA0 96) then 2
  else if r.st ≠ .live then 3
  else if leNat (at_ 8 8) ≠ r.value then 1
  else 0

/-- R379. Checks a seal token against its record; it changes nothing. -/
def execUnseal (d a : BitVec 7) (s : State) : Out :=
  trt [wV d, rU a] (fun s g l0 on bn t =>
    let c := coreIx g.place
    let x := bn.u t a.toNat
    spans s g l0 [s.spanRdCheck c bn.world x 256 256] <|
      let (tok, s) := s.spanRead bn x.toNat 256
      s.status g on d (s.unsealStatus tok)) s

/-! ### Export of a counter record (R380) -/

/-- R380. System software's write of XPEER: the request goes to the peer; a record that is not EXPORTING is refused at once. -/
def execXpeerExport (s : State) : Out :=
  if s.stat 0x50 ≠ 0xFF || s.hub.trt.exp.isSome then .next s
  else
    let x := (s.ctlReg 0x50).toNat
    let i := bits x 15 8
    let r := s.crec i
    if r.st ≠ .exporting then .next (s.setStat 0x50 2)
    else
      let m : RecordMsg := { mid := bits x 63 52, idx := i, value := BitVec.ofNat 64 r.value, origin := r.origin, world := bits x 31 24 }
      .next ((s.updTrt fun t => { t with exp := some m }).send (.record m))

/-- Whether an answer belongs to the export in progress. -/
def State.exports (s : State) (x : RecordMsg) : Bool :=
  match s.hub.trt.exp with
  | some m => m.mid = x.mid && m.idx = x.idx
  | none => false

/-- R380. The peer acknowledges: the record is RETIRED, XSTAT becomes 0. -/
def execRecordExportAck (x : RecordMsg) (s : State) : Out :=
  if s.exports x then
    .next (((s.setRec x.idx { s.crec x.idx with st := .retired }).updTrt fun t => { t with exp := none }).setStat 0x50 0)
  else .next s
/-- R380. The peer refuses: XSTAT becomes 2, the record stays EXPORTING. -/
def execRecordBusy (x : RecordMsg) (s : State) : Out :=
  if s.exports x then .next ((s.updTrt fun t => { t with exp := none }).setStat 0x50 2) else .next s
/-- R380. No answer arrives: XSTAT becomes 1, the record stays EXPORTING. -/
def execRecordExportTimeout (s : State) : Out :=
  if s.hub.trt.exp.isSome then .next ((s.updTrt fun t => { t with exp := none }).setStat 0x50 1) else .next s

/-- R380. A peer's export arrives: it takes a FREE record, is acknowledged again when it is the same, else refused. -/
def execRecordExport (x : RecordMsg) (s : State) : Out :=
  let r := s.crec x.idx
  let new : CRec := ⟨.live, x.world, x.value.toNat, x.origin⟩
  if 256 ≤ x.idx then .next (s.send (.recordBusy x))
  else if r.st = .free then .next ((s.setRec x.idx new).send (.recordAck x))
  else if r = new then .next (s.send (.recordAck x))
  else .next (s.send (.recordBusy x))

/-! ### The SPDM responder (R381; log entry 19) -/

/-- An answer whose body the spec does not give. -/
def State.spdmFree (s : State) (ses code : Nat) : State := let (n, s) := s.draw; s.send (.spdmFree ses code n)
/-- The error UnsupportedRequest. -/
def State.spdmUnsupported (s : State) (ses : Nat) : State := s.send (.spdm ses 0x7F [0x07])
def State.sess? (s : State) (ses : Nat) : Option Sess := s.hub.trt.sess.find? fun x => x.id = ses
def State.updSess (s : State) (ses : Nat) (f : Sess → Sess) : State :=
  s.updTrt fun t => { t with sess := t.sess.map fun x => if x.id = ses then f x else x }

/-- R381. Answers with the version, SPDM 1.3. -/
def execGetVersion (ses : Nat) (s : State) : Out := .next (s.send (.spdm ses 0x04 [0x13]))
/-- R381. Answers with the capabilities. -/
def execGetCapabilities (ses : Nat) (s : State) : Out := .next (s.spdmFree ses 0x61)
/-- R381. Answers with the algorithms; their encoding is a free value. -/
def execNegotiateAlgorithms (ses : Nat) (s : State) : Out :=
  let (n, s) := s.draw
  .next (s.send (.algorithms ses n [.ecdsaP384, .sha384, .ecdheSecp384r1, .aes256gcm]))
/-- R381. Answers with the digests of the certificate chain. -/
def execGetDigests (ses : Nat) (s : State) : Out := .next (s.spdmFree ses 0x01)
/-- R381. Answers with the certificate chain, of slot 0 only: its bytes are a free value, and it ends in the device identity key, here by
its digest. -/
def execGetCertificate (ses slot : Nat) (s : State) : Out :=
  if slot = 0 then let (n, s) := s.draw; .next (s.send (.certificate ses n deviceId)) else .next (s.spdmUnsupported ses)
/-- R381. Answers a challenge, signed with the device identity key. -/
def execChallenge (ses : Nat) (s : State) : Out := .next (s.spdmFree ses 0x03)
/-- R381. Reports measurement registers: index i + 1 is `meas`i, 0xFF all sixteen. -/
def execGetMeasurements (ses : Nat) (i : BitVec 8) (s : State) : Out :=
  .next (if i = 0xFF then s.send (.spdm ses 0x60 ((upto 16).flatMap fun k => s.meas k))
    else if 1 ≤ i.toNat && i.toNat ≤ 16 then s.send (.spdm ses 0x60 (s.meas (i.toNat - 1)))
    else if i = 0 then s.send (.spdm ses 0x60 [16])
    else s.spdmUnsupported ses)
/-- R381. A session begins with a key exchange. -/
def execKeyExchange (ses : Nat) (approved : Bool) (s : State) : Out :=
  .next ((s.updTrt fun t => { t with sess := ⟨ses, false, approved⟩ :: t.sess.filter fun x => x.id ≠ ses }).spdmFree ses 0x64)
/-- R381. The session is complete. -/
def execFinish (ses : Nat) (s : State) : Out :=
  .next (if (s.sess? ses).isSome then (s.updSess ses fun x => { x with finished := true }).spdmFree ses 0x65 else s.spdmUnsupported ses)
/-- R381. Answers a heartbeat of a session. -/
def execHeartbeat (ses : Nat) (s : State) : Out :=
  .next (if (s.sess? ses).isSome then s.send (.spdm ses 0x68 []) else s.spdmUnsupported ses)
/-- R381. A session's keys are updated. -/
def execKeyUpdate (ses : Nat) (s : State) : Out :=
  .next (if (s.sess? ses).isSome then s.spdmFree ses 0x69 else s.spdmUnsupported ses)
/-- R381. The session ends. -/
def execEndSession (ses : Nat) (s : State) : Out :=
  .next (if (s.sess? ses).isSome then (s.updTrt fun t => { t with sess := t.sess.filter fun x => x.id ≠ ses }).send (.spdm ses 0x6C [])
    else s.spdmUnsupported ses)

end Sys2Proof.Machine
end

