-- ==== Sys2Proof/Machine/Worlds.lean ====
section
/-! DEFINITION. Worlds (R369, R387) and the keys of confidential ones (R370). -/

namespace Sys2Proof.Machine

/-- The STAT codes of R367. -/
inductive Stat where
  | ok | busy | badState | range
  deriving DecidableEq, Repr
def Stat.code : Stat → Nat
  | .ok => 0
  | .busy => 1
  | .badState => 2
  | .range => 3

/-- A drawer that holds bench state, an MXU claim or a queued command (Table 14.4). -/
def State.drawerBusy (s : State) (i : Nat) : Bool :=
  (s.benches ++ s.saved).any (fun b => drawerOf b.place = some i) || (s.mxu i).claim.isSome || !(s.mxu i).queue.isEmpty

/-- An engine operation of a world in flight. -/
def State.engineOf (s : State) (w : Nat) : Bool :=
  many (fun _ (x : Mxu) => x.queue.any fun c => c.who.world = w) s.mxus
    || many (fun _ (q : BQueue) => q.ops.any fun o => o.who.world = w) s.queues
    || many (fun _ (a : Asq) => a.runs.any fun r => r.who.world = w) s.asqs

/-- Free bytes for keys: the trust root's random source, and a key not yet installed (log entries 4, 18). -/
def State.drawKey (s : State) (n : Nat) : List Byte × State := let (x, s) := s.draw; (natLe n x, s)

def State.setWorld (s : State) (w : Nat) (x : World) : State := { s with worlds := mset s.worlds w x }

/-- The lines of a world leave the deduplicating cache with their entries and leads, so that no line of a later world of that number
shares with them (R325). -/
def State.forgetSdc (s : State) (w : Nat) : State :=
  s.updSdc fun c =>
    let c := c.remove fun x => x.world = w
    { c with mode := mdel c.mode w, leads := c.leads.filter fun l => l.dom ≠ w }

/-- CREATE: a world with no drawers, no banks and no pool, and its dedup mode as at reset. -/
def State.createWorld (s : State) (w root : Nat) (conf : Bool) : State :=
  let (k, s) := if conf then s.drawKey 96 else ([], s)
  (s.setWorld w { live := true, root := root, conf := conf, tvec := 0, tlBase := 0, tlSize := 0, stopped := false,
                  dkey := k.take 64, mkey := k.drop 64 }).forgetSdc w

/-- DRAWERS: the drawers move to the world, cleared (R117), with what other drawers remember of their rows (R232). -/
def State.moveDrawers (s : State) (w core : Nat) (mask : Nat) : State :=
  ((upto 8).filter fun d => bitAt mask d).foldl (fun s d =>
    let i := mxIx core d
    let s := s.updMxu i fun x => { x with data := MxData.init, status := 0, fault := none, pseq := 0, recv := [] }
    let s := { s with mxus := mmap (fun _ (x : Mxu) => { x with recv := mdel x.recv i }) s.mxus }
    { s with drawers := mupd Drawer.init s.drawers i fun x => { x with world := w } }) s

/-- BANKS: the banks that the world does not own join it in cache mode, zero-filled with tags 0x007F. Accesses to scratchpad that are
not performed yet are, first. -/
def State.moveBanks (s : State) (w core : Nat) (mask : Nat) : State :=
  let bs := (s.core core).banks
  let go := (upto 32).filter fun i => bitAt mask i && (match bs[i]? with
    | some b => b.owner ≠ w
    | none => false)
  let s := (s.performSpad core).flushCore core (go.filterMap fun i => bs[i]?.map Bank.owner)
  s.updCore core fun c =>
    { (c.clearBanks go.contains) with
      banks := ((upto 32).zip c.banks).map fun (i, b) => if go.contains i then ⟨w, .cache⟩ else b,
      fifos := c.fifos.filter fun e => !go.contains e.1 }

/-- A bank that is scratchpad or FIFO in another world. -/
def State.bankBusy (s : State) (w core mask : Nat) : Bool :=
  (upto 32).any fun i => bitAt mask i && (match (s.core core).banks[i]? with
    | some b => b.owner ≠ w && b.mode ≠ .cache
    | none => false)

/-- What keeps a world from being destroyed (Table 14.4). -/
def State.worldHolds (s : State) (w : Nat) : Bool :=
  (upto 1536).any (fun i => (mget Drawer.init s.drawers i).world = w)
    || (upto 192).any (fun c => (s.core c).banks.any fun b => b.owner = w)
    || s.queues.any (fun q => isMemQ q.2.qid && q.2.world = w)
    || (mget? s.arenas w).isSome
    || s.tasks.any fun p => p.2.world = w && p.2.state.pending

/-- DESTROY: the world, its keys and its local queues go; its counter records stay (R378). -/
def State.destroyWorld (s : State) (w : Nat) : State :=
  { s with worlds := mdel s.worlds w, queues := s.queues.filter fun q => isMemQ q.2.qid || q.2.world ≠ w }.forgetSdc w

/-- The check and the effect of a WORLDCFG operation (Table 14.4): OP, world, and the arguments. RANGE comes first, then BADSTATE,
then BUSY. -/
def State.worldcfg (s : State) (op w : Nat) (a1 a2 a3 : Word) : Stat × State :=
  let x := s.world w
  let dw := (ofPair a1 a2).toNat
  let core := a1.toNat % 256
  let on (bad : Bool) (r : Stat) (k : Stat × State) : Stat × State := if bad then (r, s) else k
  match op with
  | 0 => on (dw % 65536 ≠ 0 || a3.toNat / 2 ≠ 0) .range <| on (x.live || w = 0) .badState (.ok, s.createWorld w dw (a3.getLsbD 0))
  | 1 => on (!x.live) .badState (.ok, s.setWorld w { x with tvec := ofPair a1 a2 })
  | 2 =>
    let ds := (upto 8).filter fun d => bitAt (bits a1.toNat 15 8) d
    on (a1.toNat / 2 ^ 16 ≠ 0 || 191 < core) .range <| on (!x.live) .badState <|
      on (ds.any fun d => s.drawerBusy (mxIx core d)) .busy (.ok, s.moveDrawers w core (bits a1.toNat 15 8))
  | 3 =>
    on (a1.toNat / 2 ^ 8 ≠ 0 || 191 < core) .range <| on (!x.live) .badState <|
      on (s.bankBusy w core a2.toNat) .busy (.ok, s.moveBanks w core a2.toNat)
  | 4 => on (!x.live) .badState (.ok, s.setWorld w { x with root := dw })
  | 5 => on (!x.live || w = 0) .badState <| on (s.worldHolds w) .busy (.ok, s.destroyWorld w)
  | _ =>
    on (dw % 65536 ≠ 0 || dw / 2 ^ 56 ≠ 0) .range <| on (!x.live) .badState <|
      on (s.tasks.any fun p => p.2.world = w && !p.2.areas.isEmpty) .busy
        (.ok, s.setWorld w { x with tlBase := dw, tlSize := 16 * a3.toNat })

/-- WORLDCFG (R369): the operation is the command word's (log entry 12). -/
def worldcfgOp (d a : BitVec 7) (s : State) : Out :=
  trt [wV d, rU a 4] (fun s g _ on bn t =>
    let r (i : Nat) : Word := bn.u t (a.toNat + i)
    let c := (r 0).toNat
    if 7 ≤ c % 16 then .trap s .resfield 0 (wordVal g.w g.w2)
    else if bits c 7 4 ≠ 0 || c / 2 ^ 16 ≠ 0 then s.status g on d Stat.range.code
    else
      let (st, s) := s.worldcfg (c % 16) (bits c 15 8) (r 1) (r 2) (r 3)
      s.status g on d st.code) s

/-- R369. Creates a world with a translation root. -/
def execWorldcfgCreate (d a : BitVec 7) (s : State) : Out := worldcfgOp d a s
/-- R369. Sets a world's trap vector. -/
def execWorldcfgTvec (d a : BitVec 7) (s : State) : Out := worldcfgOp d a s
/-- R369. Moves drawers to a world and clears them. -/
def execWorldcfgDrawers (d a : BitVec 7) (s : State) : Out := worldcfgOp d a s
/-- R369. Moves core SRAM banks to a world. -/
def execWorldcfgBanks (d a : BitVec 7) (s : State) : Out := worldcfgOp d a s
/-- R369. Replaces a world's translation root. -/
def execWorldcfgRoot (d a : BitVec 7) (s : State) : Out := worldcfgOp d a s
/-- R369. Destroys a world. -/
def execWorldcfgDestroy (d a : BitVec 7) (s : State) : Out := worldcfgOp d a s
/-- R387. Sets a world's thread-local pool. -/
def execWorldcfgTlpool (d a : BitVec 7) (s : State) : Out := worldcfgOp d a s

/-- Whether KEYLD must wait: a drawer of the world with bench state, or an engine operation in flight. -/
def State.keysBusy (s : State) (w : Nat) : Bool :=
  (s.benches ++ s.saved).any (fun b => (drawerOf b.place).isSome && b.world = w) || s.engineOf w

/-- A dirty copy of a confidential world's line is ciphertext in its cache (R189), so that under another data key it stands for other
bytes. -/
def State.rekeyed (s t : State) (c : Copy) : Copy :=
  let l : Loc := { dpa := 64 * c.line, wva := c.wva, world := c.world, sc := false }
  let (cs, ct) := xtsBlockEnc (s.world c.world).dkey (tweakOf l) c.data (s.block l).2
  { c with data := (xtsBlockDec (t.world c.world).dkey (tweakOf l) cs ct).1 }

/-- Installs a key (R370); clean copies of the world's lines, which may be evicted at any time (R188), leave with the data key. -/
def State.installKey (s : State) (w : Nat) (mac : Bool) (k : List Byte) : State :=
  if mac then s.setWorld w { s.world w with mkey := k }
  else
    let t := s.setWorld w { s.world w with dkey := k }
    { t with clean := t.clean.filter (fun c => c.world ≠ w), copies := (t.copies.filter fun c => c.world ≠ w || c.dirty).map fun c => if c.world = w then s.rekeyed t c else c }

/-- R370. Installs a confidential world's data or MAC key, and overwrites its source with zero. -/
def execKeyld (d a : BitVec 7) (s : State) : Out :=
  trt [wV d, rU a 2] (fun s g l0 on bn t =>
    let c := (bn.u t a.toNat).toNat
    let x := bn.u t (a.toNat + 1)
    let w := c % 256
    let slot := bits c 9 8
    let n := if slot = 0 then 64 else 32
    let core := coreIx g.place
    if 2 ≤ slot || c / 2 ^ 11 ≠ 0 then .trap s .resfield 0 (wordVal g.w g.w2)
    else if !(s.world w).live || !(s.world w).conf then s.status g on d Stat.badState.code
    else if s.keysBusy w then s.status g on d Stat.busy.code
    else if bitAt c 10 then
      let (k, s) := s.drawKey n
      (s.installKey w (slot = 1) k).status g on d 0
    else spans s g l0 [s.spanRdCheck core bn.world x n 64] <|
      let (k, s) := s.spanRead bn x.toNat n
      ((s.installKey w (slot = 1) k).spanPut bn x.toNat (List.replicate n 0)).status g on d 0) s

end Sys2Proof.Machine
end

