-- ==== Sys2Proof/Machine/Bureau.lean ====
section
/-! DEFINITION. The Bureau's instructions and events (R382 to R386): IPI, EVTPOP, PLACE, CAPR, RESYNC, sensors, the classifier's window
(R214), and migration (R43). -/

namespace Sys2Proof.Machine

/-- The steward of a place. -/
def stewardOf : Place → Nat
  | .steward k _ => k
  | _ => 0

/-! ### Events (R382) -/

/-- R382. Posts a message to a steward's event queue, as a release at device scope. -/
def execIpi (a b : BitVec 7) (s : State) : Out :=
  trt [rU a, rU b] (fun s g _ on bn t =>
    let k := (bn.u t a.toNat).toNat % 16
    if k = 0 then .trap s .resfield 0 (wordVal g.w g.w2)
    else
      let s := (on.foldl (fun s l => s.performFor ⟨g.place, l⟩) s).release g.place .home
      .done (s.pushEvent k ⟨[8, bn.u t b.toNat, 0, 0, 0, 0, BitVec.ofNat 32 (placeWord (some g.place)), BitVec.ofNat 32 s.mstime]⟩)) s

/-- R382. Pops the oldest event record of the steward's queue; it waits while the queue is empty, or with NB returns 0. -/
def execEvtpop (d : BitVec 7) (n : Bool) (s : State) : Out :=
  trt [wV d 8] (fun s g _ on _ _ =>
    let k := stewardOf g.place
    match mget [] s.evq k with
    | r :: rest => .done ({ s with evq := mput [] s.evq k rest }.outAll g.place on d r.words)
    | [] => if n then .done (s.outAll g.place on d [0]) else .poll s .engine) s

/-- R386. A die sensor passes its limit: the clock is lowered a step and a THERMAL event posted. -/
def execThermalLimit (s : State) : Out :=
  .next ({ s with hub := { s.hub with clock := s.hub.clock + 1 } }.post 0 0 10 0 0 0 0 none)

/-- R386. A power or coolant failure beyond limits is a device-level error. -/
def execPowerFailure (s : State) : Out := .next (s.deviceError 0)

/-- R214. A 100 µs window ends: its counts become the last complete window's. The bytes moved on a domain's behalf depend on the
caches, and are free (log entry 4). -/
def execClassifierWindow (s : State) : Out :=
  let (cs, s) := s.hub.clsf.foldl (fun (acc : List Cls × State) c =>
    let (n, s) := acc.2.draw
    (acc.1 ++ [{ c with ops := 0, last := some (c.ops, n) }], s)) ([], s)
  .next { s with hub := { s.hub with clsf := cs } }

/-! ### Placement (R383, R43) -/

def State.updPlc (s : State) (f : Plc → Plc) : State := { s with hub := { s.hub with plc := f s.hub.plc } }

/-- PLACE (R383): the operation is the command word's (log entry 12). -/
def placeOp (d a b : BitVec 7) (s : State) : Out :=
  trt [wV d, rU a 4, rU b] (fun s g _ on bn t =>
    let r (i : Nat) : Word := bn.u t (a.toNat + i)
    let o := (bn.u t b.toNat).toNat
    let op := o % 16
    let tier := bits o 5 4
    let va := (ofPair (r 0) (r 1)).toNat
    let w := (r 3).toNat
    let rng (v : Nat) : PRange := ⟨w % 256, va / 65536, (r 2).toNat, v⟩
    if 4 ≤ op || o / 64 ≠ 0 || (op ≠ 0 && tier ≠ 0) || tier = 3 || w / 256 ≠ 0 then .trap s .resfield 0 (wordVal g.w g.w2)
    else if op ≠ 3 && va % 65536 ≠ 0 then .trap s .align 0 (ofPair (r 0) (r 1))
    else
      let s := match op with
        | 0 => s.updPlc fun p => { p with prefer := rng tier :: p.prefer }
        | 1 => s.updPlc fun p => { p with pins := rng 1 :: p.pins }
        | 2 => s.updPlc fun p => { p with pins := rng 0 :: p.pins }
        | _ => s.updLse fun l => { l with frames := mset l.frames (va % 4096) (r 2).toNat }
      s.status g on d 0) s

/-- R383. Sets the preferred tier of pages. -/
def execPlacePrefer (d a b : BitVec 7) (s : State) : Out := placeOp d a b s
/-- R383. Stops pages from migrating. -/
def execPlacePin (d a b : BitVec 7) (s : State) : Out := placeOp d a b s
/-- R383. Lets pinned pages migrate again. -/
def execPlaceUnpin (d a b : BitVec 7) (s : State) : Out := placeOp d a b s
/-- R383. Limits local frames for prefetch of a lease. -/
def execPlaceFrames (d a b : BitVec 7) (s : State) : Out := placeOp d a b s

/-- The 64 KiB DPA page that a world's page is mapped to. -/
def State.mappedPage (s : State) (w page : Nat) : Option Nat :=
  match s.walk w (65536 * page) with
  | .ok lf => some ((bits lf.pte 51 16 * 65536 + (65536 * page - lf.base)) / 65536)
  | .error _ => none

/-- Whether a world's page is pinned: the newest range that names it says so. -/
def Plc.pinned (p : Plc) (w page : Nat) : Bool :=
  match p.pins.find? fun r => r.world = w ∧ r.first ≤ page ∧ page < r.first + r.count with
  | some r => r.v = 1
  | none => false
/-- Whether a DPA page is pinned through some world's mapping. -/
def State.pinnedDpa (s : State) (page : Nat) : Bool :=
  s.hub.plc.pins.any fun r => (upto r.count).any fun i =>
    s.hub.plc.pinned r.world (r.first + i) && s.mappedPage r.world (r.first + i) = some page

/-- First page of world 0's boot tables (R388). -/
def tablePage : Nat := (768 * gib - 3 * 65536) / 65536
/-- Where the placement unit may put data: populated DRAM outside HSS, the boot tables and retired pages, or a granted window. -/
def State.placeablePage (s : State) (p : Nat) : Bool :=
  !s.retired.contains p && !(tablePage ≤ p && p < tablePage + 3) &&
    (match dpaKind (65536 * p) with
      | .hbm => true
      | .pool => let e := (65536 * p - tib) / gib; !s.hssExtent e && !s.lentExtent e
      | .window => (s.lease ((65536 * p - windowBase) / gib)).state = .granted
      | _ => false)

/-- R43. A migrating line moves to its new home as one unit. -/
def execMigrationSwitchover (line : Nat) (s : State) : Out :=
  match s.hub.plc.migr.find? fun m => m.1 = line / 1024 with
  | none => .next s
  | some m =>
    let s := s.rehome line (1024 * m.2 + line % 1024)
    let all := (upto 1024).all fun i => s.homeOf (1024 * m.1 + i) = 1024 * m.2 + i
    .next (if all then s.updPlc fun p => { p with migr := p.migr.filter fun x => x.1 ≠ m.1 } else s)

/-! ### Capabilities and the summary record (R384, R385) -/

/-- The capability list (Table 14.9): identifier, next offset, payload. -/
def capList : List (Nat × List Nat) :=
  [(0, [0x10001, 16, 0x0101, 0]), (16, [0x10002, 32, 4 + 48 * 2 ^ 8 + 192 * 2 ^ 16 + 8 * 2 ^ 24, 0]), (32, [0x10003, 48, 768, 2048]),
   (48, [0x10004, 64, 8 + 16 * 2 ^ 8 + 128 * 2 ^ 16, 0]), (64, [0x10005, 0, 0x13 + 256 * 2 ^ 8 + 16 * 2 ^ 24, 0])]

/-- R385. Reads one capability entry. -/
def execCapr (d a : BitVec 7) (s : State) : Out :=
  trt [wV d 4, rU a] (fun s g _ on bn t =>
    let e := (capList.find? fun e => e.1 = (bn.u t a.toNat).toNat).map Prod.snd
    .done (s.outAll g.place on d ((e.getD [0, 0, 0, 0]).map (BitVec.ofNat 32)))) s

def RState.code : RState → Nat
  | .free => 0
  | .live => 1
  | .exporting => 2
  | .retired => 3
def LState.code : LState → Nat
  | .free => 0
  | .offered => 1
  | .granted => 2
  | .recalling => 3
  | .expired => 4
  | .failed => 5

/-- The own election state as the bulletin shows it (Table 13.5): EPOCH, MGRV, MGR. -/
def State.bullWord (s : State) (i : Nat) : DWord := mget 0 s.hub.lse.bull i
def State.epochWord (s : State) : Nat := (s.bullWord 1).toNat
def State.mgr (s : State) : Option Nat := if bitAt s.epochWord 63 then some (bits s.epochWord 43 32) else none

/-- Per world: banks, drawers, flags, queues (Table 14.8). -/
def State.worldSummary (s : State) (w : Nat) : List Byte :=
  let banks := sumNat ((upto 192).map fun c => ((s.core c).banks.filter fun b => b.owner = w).length)
  let drawers := ((upto 1536).filter fun i => (mget Drawer.init s.drawers i).world = w).length
  let x := s.world w
  let qs := (s.queues.filter fun q => isMemQ q.2.qid && q.2.world = w).length
  let f (b : Bool) (i : Nat) : Nat := if b then 2 ^ i else 0
  natLe 4 (banks % 2 ^ 16 * 2 ^ 16 + drawers) ++ natLe 4 (f x.live 31 + f x.conf 30 + f x.stopped 29 + qs % 2 ^ 12)

/-- Per core: vacated, ASQ run in flight, BTE busy, stopped benches. -/
def State.coreSummary (s : State) (c : Nat) : Byte :=
  let stopped := (s.benches.filter fun b => coreIx b.place = c && b.stopped.isSome).length
  BitVec.ofNat 8 ((if s.vacated.contains c then 1 else 0) + (if (s.asq c).runs.isEmpty then 0 else 2)
    + (if s.queues.any fun q => q.2.ops.any fun o => o.core = c then 4 else 0) + 8 * Nat.min stopped 31)

/-- A section of the record, filled with zeros to its length. -/
def padTo (n : Nat) (bs : List Byte) : List Byte := (bs ++ List.replicate n 0).take n

/-- The record of Table 14.8; where several values share a section they stand in order as 8-byte words (log entry 28). -/
def State.summary (s : State) (seq : Nat) : List Byte :=
  let n8 (x : Nat) : List Byte := natLe 8 x
  let cnt (st : LState) : Nat := (s.leases.filter fun e => e.2.state = st).length
  let role (r : LRole) : Nat := (s.leases.filter fun e => e.2.state ≠ .free && e.2.role = r).length
  let errs (f : ErrCnt → DWord) : Nat := sumNat (s.hub.errs.map fun e => (f e.2).toNat)
  let free := 4095 - (s.leases.filter fun e => e.2.state ≠ .free).length
  padTo 64 (n8 1 ++ n8 seq ++ n8 s.mstime ++ n8 s.incarn ++ n8 s.epoch ++ natLe 2 s.hub.flash.mid ++ natLe 2 (s.mgr.getD 0)
      ++ natLe 4 (s.epochWord % 2 ^ 32))
    ++ (upto 16).flatMap (fun i => s.meas i)
    ++ (upto 256).flatMap s.worldSummary
    ++ (upto 192).map s.coreSummary
    ++ padTo 128 (n8 s.pendingTasks.length ++ n8 s.inFlight ++ n8 (s.tasks.filter fun p => p.2.state = .ready).length ++ n8 s.hub.failed
      ++ n8 s.dropped)
    ++ padTo 128 (([free, cnt .offered, cnt .granted, cnt .recalling, cnt .expired, cnt .failed, role .lent, role .borrowed]).flatMap (natLe 4))
    ++ (upto 256).flatMap (fun r => natLe 2 ((s.crec r).st.code * 2 ^ 14 + (s.crec r).owner % 256))
    ++ padTo 256 (n8 s.hub.flash.hext ++ n8 (errs ErrCnt.corr) ++ n8 (errs ErrCnt.unc) ++ n8 s.retired.length
      ++ (upto 10).flatMap fun i => n8 (s.sdcCounter s.hub.sdc.tot (fun _ => true) (8 * i)).toNat)

/-- A new record: SEQ counts up. -/
def State.makeSummary (s : State) : List Byte × State :=
  let s := s.updTrt fun t => { t with seq := t.seq + 1 }
  (s.summary s.hub.trt.seq, s)

/-- The first fault that a check of addresses finds among the 1 GiB units that `n` bytes touch: what an address names does not change
within one. -/
def spanFault (f : Nat → Option Flt) (a n : Nat) : Option Flt := (upto ((a % gib + n + gib - 1) / gib)).findSome? fun i => f ((a / gib + i) * gib)

/-- What bars `n` bytes by DPA (R13, R14, R328, R345, R347). -/
def State.dpaFault (s : State) (a n : Nat) : Option Flt := spanFault s.dpaBar a n

/-- Bytes written at a DPA, as stored (R373). -/
def State.dpaWrite (s : State) (a : Nat) (bs : List Byte) : State := s.homeWrite ⟨a, a, 0, false⟩ bs

/-- R384. Writes the summary record to a buffer. -/
def execResync (d a : BitVec 7) (s : State) : Out :=
  trt [wV d, rU a 2] (fun s g _ on bn t =>
    let x := ofPair (bn.u t a.toNat) (bn.u t (a.toNat + 1))
    if x.toNat % 4096 ≠ 0 then .trap s .align 0 x
    else match s.dpaFault x.toNat 4096 with
      | some (c, k) => .trap s c k x
      | none =>
        let (bs, s) := s.makeSummary
        (s.dpaWrite x.toNat bs).status g on d 0) s

/-- R384. RESYNC over SPDM: only inside a session whose requester the package kernel has approved. -/
def execSpdmResync (ses : Nat) (s : State) : Out :=
  match s.sess? ses with
  | some x => if x.finished && x.approved then let (bs, s) := s.makeSummary; .next (s.send (.spdm ses 0x7E bs)) else .next (s.spdmUnsupported ses)
  | none => .next (s.spdmUnsupported ses)

end Sys2Proof.Machine
end

