-- ==== Sys2Proof/Machine/Dce.lean ====
section
/-! DEFINITION. The delta checkpoint engine (R333 to R339): SNAP, SCRUB and their execution; and the eviction of a line of the
deduplicating cache (R26, R326). -/

namespace Sys2Proof.Machine

def State.updDce (s : State) (f : Dce → Dce) : State := { s with hub := { s.hub with dce := f s.hub.dce } }
/-- Queues an operation: its number on `t10`. -/
def State.dcePush (s : State) (op : Nat → DceOp) : Nat × State :=
  let n := s.hub.dce.next
  (n, s.updDce fun d => { d with ops := d.ops ++ [op n], next := n + 1 })
/-- The head operation finishes: `t10` advances (R335). -/
def State.dceFinish (s : State) (n : Nat) : State := s.updDce fun d => { d with ops := d.ops.drop 1, done := n, hdr := none }

/-! ### SNAP (R334) -/

/-- What bars the DCE from an address of its own (R334): as any agent, but an extent lent out is open to it (R347). -/
def State.snapBar (s : State) (a : Nat) : Option Flt :=
  if dpaKind a = .pool && !s.hssExtent ((a - tib) / gib) then none else s.dpaBar a
/-- A source lies in populated HBM or pool (R334). -/
def sourceBar (a : Nat) : Option Flt := if dpaKind a = .hbm || dpaKind a = .pool then none else some (.page, 0)

/-- The first fault of a list of conditions, each with what it reports. -/
def firstFault : List (Option Flt × DWord) → Option (Flt × DWord)
  | [] => none
  | (some f, v) :: _ => some (f, v)
  | (none, _) :: xs => firstFault xs

/-- The checks of a SNAP descriptor, in the order of R334. Of the delta stream, whose length is not known yet, the address is
checked (log entry 110). -/
def State.snapCheck (s : State) (bs : List Byte) (word : DWord) : Option (Flt × DWord) :=
  let d (o n : Nat) : Nat := leNat ((bs.drop o).take n)
  let v (x : Nat) : DWord := BitVec.ofNat 64 x
  let src := d 0 8
  let nblk := d 8 4
  let w := d 0xC 4
  let pman := d 0x10 8
  let nman := d 0x18 8
  let dst := d 0x20 8
  let peer := bitAt w 31
  let msz := 128 + 64 * nblk
  let olap (m : Nat) : Bool := m < src + 4096 * nblk && src < m + msz
  let odd (b : Bool) (c : Cause) : Option Flt := if b then some (c, 0) else none
  let own (b : Bool) (a n : Nat) : Option Flt := if b then spanFault s.snapBar a n else none
  firstFault
    [(odd (src % 4096 ≠ 0) .align, v src), (odd (pman % 64 ≠ 0) .align, v pman), (odd (nman % 64 ≠ 0) .align, v nman),
     (odd (dst % 64 ≠ 0) .align, v dst),
     (odd (bits w 30 13 ≠ 0 || (!peer && w % 2 ^ 12 ≠ 0) || leNat (bs.drop 0x28) ≠ 0 || nblk = 0 || 2 ^ 28 < nblk
        || olap nman || (pman ≠ 0 && olap pman)) .resfield, word),
     (spanFault sourceBar src (4096 * nblk), v src), (own (pman ≠ 0) pman msz, v pman), (own true nman msz, v nman),
     (own (!peer) dst 1, v dst)]

/-- R334. Checks a descriptor and queues a delta checkpoint. -/
def execSnap (d a : BitVec 7) (s : State) : Out :=
  trt [wV d 2, rU a 2] (fun s g _ on bn t =>
    let x := ofPair (bn.u t a.toNat) (bn.u t (a.toNat + 1))
    if x.toNat % 64 ≠ 0 then .trap s .align 0 x
    else match s.snapBar x.toNat with
      | some (c, k) => .trap s c k x
      | none =>
        if s.dataError x.toNat true then .trap s .ue 0 x
        else
          let bs := s.stored (x.toNat / 64)
          match s.snapCheck bs (wordVal g.w g.w2) with
          | some ((c, k), v) => .trap s c k v
          | none =>
            if 16 ≤ s.hub.dce.ops.length then .poll s .engine
            else
              let f (o n : Nat) : Nat := leNat ((bs.drop o).take n)
              let w := f 0xC 4
              let (n, s) := s.dcePush fun n =>
                .snap n (f 0 8) (f 8 4) (bitAt w 31) (bitAt w 12) (w % 2 ^ 12) (f 0x10 8) (f 0x18 8) (f 0x20 8)
              .done (s.outAll g.place on d [BitVec.ofNat 32 n, BitVec.ofNat 32 (n / 2 ^ 32)])) s

/-! ### Execution of a SNAP (R335 to R337) -/

/-- Bytes at a DPA, as stored. -/
def State.dpaRead (s : State) (a n : Nat) : List Byte := (upto n).map fun i => s.byte (a + i)

/-- What a SNAP has done so far: the entries, the records written, the entries flagged UE or RET. -/
structure SnapAcc where
  s   : State
  ent : List Byte
  k   : Nat
  bad : Nat

/-- A manifest entry (Table 12.6). -/
def manEntry (hash : List Byte) (didx flags addr : Nat) : List Byte := hash ++ natLe 4 didx ++ natLe 4 flags ++ natLe 8 addr

/-- The blocks of a record, each with its tag (R337): the 64 blocks, and the MAC lines where CONF asks for them. -/
def State.snapRecord (s : State) (a : Nat) (conf : Bool) : List (List Byte × Tag) :=
  let mac (blk : Nat) : Nat := match mget? s.macs blk with
    | some m => m.mac
    | none => 0
  ((upto 64).map fun i => (s.stored (a / 64 + i), s.tag (a / 64 + i))) ++
    if conf then (upto 8).map fun j => (padTo 64 ((upto 8).flatMap fun i => natLe 7 (mac (a / 64 + 8 * j + i))), (0 : Tag)) else []

/-- Writes record blocks at an address: here, where memory stands there (log entry 110), or to a peer, whose acknowledgements are
awaited (R40). -/
def State.snapWrite (s : State) (num : Nat) (peer : Bool) (mid a : Nat) (bs : List (List Byte × Tag)) : State :=
  if peer then
    { (s.updDce fun d => { d with sent := d.sent + bs.length }) with remotes := s.remotes ++ ((upto bs.length).zip bs).map fun (i, b, t) =>
        (⟨mid, 0x10000, num, none, 0, a + 64 * i, 0, 0, 0, i, b, t, none, 0⟩ : Remote) }
  else ((upto bs.length).zip bs).foldl (fun s (i, b, t) =>
    if (s.snapBar (a + 64 * i)).isSome then s else s.engineBlock ⟨a + 64 * i, a + 64 * i, 0, false⟩ b t) s

/-- Whether the newest checkpoint holds a 4 KiB block (Table 12.4). -/
def State.noteCkpt (s : State) (blk : Nat) (held : Bool) : State :=
  s.updDce fun d => { d with ckpt := if held then insertNat d.ckpt blk else d.ckpt.filter (· ≠ blk) }

/-- The world a committed line belongs to, as the device can tell (R330; log entry 111): that of its SDC line, its MAC, or a cached line; else
world 0. -/
def State.lineWorld (s : State) (l : Nat) : Nat :=
  ((((s.hub.sdc.find l).map LLine.world).orElse fun _ => (mget? s.macs l).map MacRec.world).orElse fun _ =>
    (s.clean.find? fun c => c.line = l).map Clean.world).getD 0

/-- One 4 KiB block of a SNAP, which clears its written bit (R333): a line with a good copy elsewhere is read from it; one with none is
resolved by Table 12.4, and the block is flagged (R330, R335). -/
def SnapAcc.block (num src : Nat) (peer conf : Bool) (mid pman dst : Nat) (x : SnapAcc) (b : Nat) : SnapAcc :=
  let a := src + 4096 * b
  let flag (s : State) (f : Nat) : SnapAcc :=
    { x with s := s.noteCkpt (a / 4096) false, ent := x.ent ++ manEntry (List.replicate 48 0) 0xFFFFFFFF f a, bad := x.bad + 1 }
  let read (s : State) : State := { s with written := s.written.filter (· ≠ a / 4096) }
  let lines := (upto 64).map fun i => a / 64 + i
  let lost := lines.filter fun l => x.s.dataError (64 * l) true
  if x.s.retired.contains (a / 65536) then flag x.s 4
  else if !lost.isEmpty then
    flag (read ((lost.filter x.s.bad.contains).foldl (fun s l => s.escalate 0 (s.lineWorld l) l none) x.s)) 2
  else
    let s := (read { x.s with bad := x.s.bad.filter fun l => !lines.contains l }).noteCkpt (a / 4096) true
      let h := sha384 (s.dpaRead a 4096 ++ (upto 64).flatMap fun i => natLe 2 (s.tag (a / 64 + i)).toNat)
      let pe := s.dpaRead (pman + 128 + 64 * b) 64
      if pman = 0 || bits (leNat ((pe.drop 0x34).take 4)) 2 1 ≠ 0 || pe.take 48 ≠ h then
        let z := if conf then 4608 else 4096
        { s := s.snapWrite num peer mid (dst + x.k * z) (s.snapRecord a conf), ent := x.ent ++ manEntry h x.k 1 a, k := x.k + 1, bad := x.bad }
      else { x with s := s, ent := x.ent ++ manEntry h 0xFFFFFFFF 0 a }

/-- The manifest header (Table 12.6). -/
def manHeader (src nblk status es nchg nbad dlen num : Nat) (root : List Byte) : List Byte :=
  natLe 8 src ++ natLe 4 nblk ++ natLe 4 status ++ natLe 8 es ++ natLe 4 nchg ++ natLe 4 nbad ++ natLe 8 dlen ++ natLe 8 num ++ root
    ++ List.replicate 32 0

/-- Writes the header and finishes, once every record sent to a peer is acknowledged. -/
def State.snapEnd (s : State) (num nman : Nat) (hdr : List Byte) : State :=
  if s.hub.dce.sent = 0 then (s.dpaWrite nman hdr).dceFinish num else s.updDce fun d => { d with hdr := some hdr }

/-- R335. The DCE runs the SNAP at its head: the image is that of the moment it runs (R336). -/
def execSnapExecute (s : State) : Out :=
  match s.hub.dce.ops, s.hub.dce.hdr with
  | .snap num src nblk peer conf mid pman nman dst :: _, none =>
    let es := s.epoch
    if pman ≠ 0 && (leNat (s.dpaRead pman 8) ≠ src || leNat (s.dpaRead (pman + 8) 4) ≠ nblk) then
      let (r, s) := s.draw
      .next (s.snapEnd num nman (manHeader src nblk 2 es 0 0 0 num (natLe 48 r)))
    else
      let x := (upto nblk).foldl (SnapAcc.block num src peer conf mid pman dst) ⟨s, [], 0, 0⟩
      let s := x.s.dpaWrite (nman + 128) x.ent
      let z := if conf then 4608 else 4096
      .next (s.snapEnd num nman (manHeader src nblk (if x.bad = 0 then 0 else 1) es x.k x.bad (x.k * z) num (sha384 x.ent)))
  | _, _ => .next s

/-- A peer acknowledges a block of a record (R40). -/
def State.dceAck (s : State) : State :=
  let s := s.updDce fun d => { d with sent := d.sent - 1 }
  match s.hub.dce.ops, s.hub.dce.hdr with
  | .snap num _ _ _ _ _ _ nman _ :: _, some h => s.snapEnd num nman h
  | _, _ => s

/-! ### SCRUB (R338, R339) -/

/-- R338. Queues a scrub of a pool extent. -/
def execScrub (d a b : BitVec 7) (s : State) : Out :=
  trt [wV d 2, rU a 2, rU b 2] (fun s g _ on bn t =>
    let x := ofPair (bn.u t a.toNat) (bn.u t (a.toNat + 1))
    let e := (bn.u t b.toNat).toNat
    if e / 2 ^ 11 ≠ 0 then .trap s .resfield 0 (wordVal g.w g.w2)
    else if x.toNat % 256 ≠ 0 then .trap s .align 0 x
    else match s.dpaFault x.toNat 256 with
      | some (c, k) => .trap s c k x
      | none =>
        if 16 ≤ s.hub.dce.ops.length then .poll s .engine
        else
          let (n, s) := s.dcePush fun n => .scrub n e (bn.u t (b.toNat + 1)) x.toNat
          .done (s.outAll g.place on d [BitVec.ofNat 32 n, BitVec.ofNat 32 (n / 2 ^ 32)])) s

/-- Tasks that lose their snapshot when the copies of a line retained below `u` go (R26): those that need it. -/
def State.needers (s : State) (line : Nat) (u : Nat) : List (Nat × Task) :=
  let older := s.hub.sdc.lines.filterMap fun x => if x.line = line then x.upto.filter fun v => v < u else none
  s.tasks.filter fun p => p.2.state.reads && p.2.snap < u && !older.any fun v => p.2.snap < v

/-- A copy retained below an epoch leaves the cache (R26): to HSS where a pinned or held task needs it, else it is gone, which costs the
tasks that need it their snapshots. -/
def State.evictKept (s : State) (x : LLine) : State :=
  let u := x.upto.getD 0
  let ks := s.needers x.line u
  if x.hss then s
  else if ks.any fun p => p.2.pinned || p.2.held then
    (s.hspill x.world 1).updSdc fun c =>
      let c := c.unref x.ent
      { c with lines := c.lines.map fun (y : LLine) => if y = x then { y with ent := 0, hss := true } else y }
  else
    let s := (ks.map Prod.fst).foldl (fun s k => s.snapLost k) s
    s.updSdc fun c => c.remove fun y => y.line = x.line && y.upto = some u

/-- Every copy of an extent's lines goes, dirty or not (R339): in the caches and, of the committed values, in the SDC. -/
def State.dropCopies (s : State) (base : Nat) : State :=
  let inE (l : Nat) : Bool := base / 64 ≤ l && l < base / 64 + 2 ^ 24
  { s.dropClean inE with hub := { s.hub with plc := { s.hub.plc with kept := s.hub.plc.kept.filter fun l => !inE l } }, copies := s.copies.filter fun c => !inE c.line, unpushed := s.unpushed.filter fun e => !inE e.1 }.updSdc fun c =>
    c.remove fun x => inE x.line && x.upto = none

/-- Zeroes the lines of an extent outside its retired pages (R339): bytes, tags, MACs, written bits, marks; no checkpoint holds them
any more. The old values stay for the snapshots that need them. -/
def State.zeroExtent (s : State) (base : Nat) : State :=
  let inP (p : Nat) : Bool := base / 65536 ≤ p && p < base / 65536 + 16384 && !s.retired.contains p
  let inL (l : Nat) : Bool := inP (l / 1024)
  let ep := s.epoch + 1
  let gone := s.mem.filter fun e => inP (e.1 / 65536)
  let tgone := s.tags.filter fun e => inL e.1
  { s with mem := s.mem.filter fun e => !inP (e.1 / 65536), tags := s.tags.filter fun e => !inL e.1,
           jrnl := (gone.map fun (e : Nat × Byte) => (⟨e.1, ep, e.2⟩ : Jr Byte)) ++ s.jrnl,
           tjrnl := (tgone.map fun (e : Nat × Tag) => (⟨e.1, ep, e.2⟩ : Jr Tag)) ++ s.tjrnl,
           macs := s.macs.filter fun e => !inL e.1, written := s.written.filter fun b => !inP (b / 16),
           marked := s.marked.filter fun l => !inL l }.updDce fun d => { d with ckpt := d.ckpt.filter fun b => !inP (b / 16) }

/-- Retained copies in an extent that a snapshot needs are evicted (R26). -/
def State.evictRetained (s : State) (base : Nat) : State :=
  (s.hub.sdc.lines.filter fun x => base / 64 ≤ x.line && x.line < base / 64 + 2 ^ 24 && x.upto ≠ none).foldl State.evictKept s

/-- The receipt (Table 12.7), signed. -/
def receipt (ext : Nat) (nonce : Word) (status lines skipped uecnt first nvcnt : Nat) : List Byte :=
  let body := natLe 4 1 ++ natLe 4 ext ++ natLe 4 nonce.toNat ++ natLe 4 status ++ natLe 8 lines ++ natLe 4 skipped ++ natLe 4 uecnt
    ++ natLe 8 first ++ natLe 8 nvcnt ++ deviceId ++ List.replicate 64 0
  body ++ trtSign lblRcpt body

/-- Verifies the lines that were bad: whether each still reads back wrong is free (log entry 4). -/
def State.verifyBad (s : State) (ls : List Nat) : List Nat × State :=
  ls.foldl (fun (acc : List Nat × State) l =>
    let (n, s) := acc.2.draw
    if n % 2 = 0 then (acc.1, { s with bad := s.bad.filter (· ≠ l) }) else (acc.1 ++ [l], s)) ([], s)

/-- R339. The DCE runs the SCRUB at its head. -/
def execScrubExecute (s : State) : Out :=
  match s.hub.dce.ops with
  | .scrub num ext nonce rcpt :: _ =>
    let base := tib + ext * gib
    if s.lentExtent ext || s.hssExtent ext then
      .next ((s.dpaWrite rcpt (receipt ext nonce 2 0 0 0 0 s.incarn)).dceFinish num)
    else
      let skipped := s.retired.filter fun p => base / 65536 ≤ p && p < base / 65536 + 16384
      let s := ((s.evictRetained base).dropCopies base).zeroExtent base
      let hit := (s.benches.flatMap fun b => b.threads.filterMap fun e => e.2.watch.map Watch.blk).filter fun l =>
        base / 64 ≤ l && l < base / 64 + 2 ^ 24 && !skipped.contains (l / 1024)
      let s := hit.foldl State.touched s
      let (ue, s) := s.verifyBad (s.bad.filter fun l => base / 64 ≤ l && l < base / 64 + 2 ^ 24 && !skipped.contains (l / 1024))
      let noted := skipped.map (65536 * ·) ++ ue.map (64 * ·)
      let first := match noted with
        | [] => 0
        | x :: xs => minNat x xs
      let st := if skipped.isEmpty && ue.isEmpty then 0 else 1
      .next ((s.dpaWrite rcpt (receipt ext nonce st (2 ^ 24 - 1024 * skipped.length - ue.length) skipped.length ue.length first
        s.incarn)).dceFinish num)
  | _ => .next s

/-! ### Eviction (R326) -/

/-- A line of a task's version leaves the data store for HSS, which keeps its bytes (R326, R328). -/
def State.evictVersion (s : State) (k line : Nat) : State :=
  match s.task? k with
  | none => s
  | some t =>
    if t.vblocks.contains line && !t.vout.contains line then
      ((s.updTask k fun t => { t with vout := line :: t.vout }).updSdc fun c => { c with hssl := c.hssl + 1 }).sdcKeep
    else s

/-- R326. The SDC evicts a logical line: a committed one; the copy retained below an epoch, whose loss costs the snapshots that need it,
and which goes to HSS instead where a pinned or held task needs it (R26); or a line of a task's version, which goes to HSS. -/
def execSdcEvict (line : Nat) (copy : SdcCopy) (s : State) : Out :=
  match copy with
  | .committed => .next (if (s.hub.sdc.find line).isSome then s.evictLine line none else s)
  | .retained epoch => .next (match s.hub.sdc.lines.find? fun x => x.line = line ∧ x.upto = some epoch with
    | some x => s.evictKept x
    | none => s)
  | .version task => .next (s.evictVersion task line)

/-- The SDC at its limits once more lines cannot leave otherwise (R322, R326): version lines go to HSS, then retained copies leave (R26)
(fuel: the lines it holds). -/
def State.sdcTrim : Nat → State → State
  | 0, s => s
  | n + 1, s =>
    if !s.sdcFull (s.vlines fun _ => true) then s
    else match s.tasks.findSome? fun e => (e.2.vblocks.find? fun b => !e.2.vout.contains b).map fun b => (e.1, b) with
      | some (k, b) => State.sdcTrim n (s.evictVersion k b)
      | none => match (s.hub.sdc.lines.filter fun x => x.upto ≠ none && !x.hss).getLast? with
        | some x => State.sdcTrim n (s.evictKept x)
        | none => s
/-- The SDC holds no more than its stores do (R322). -/
def State.sdcFit (s : State) : State :=
  if s.sdcFull (s.vlines fun _ => true) then
    let s := s.sdcKeep
    s.sdcTrim (s.vlines (fun _ => true) + s.hub.sdc.lines.length)
  else s

end Sys2Proof.Machine
end

