-- ==== Sys2Proof/Machine/Election.lean ====
section
/-! DEFINITION. Peers and the fabric-manager election (R348 to R352): the election is a state machine that takes every step it can and
then waits for an acknowledgement, for a word of its own bulletin, or for its deadline. -/

namespace Sys2Proof.Machine

/-! ### Peers -/

/-- A peer in the routing table that is not excluded (R348). -/
def State.peerLive (s : State) (mid : Nat) : Bool :=
  match mget? s.hub.lse.peers mid with
  | some p => p.excl.isNone
  | none => false
def State.peerIncarn (s : State) (mid : Nat) : Nat :=
  match mget? s.hub.lse.peers mid with
  | some p => p.incarn
  | none => 0
def State.livePeers (s : State) : List Nat := (s.hub.lse.peers.filter fun e => e.2.excl.isNone).map Prod.fst
/-- Posts a lease event (Table 14.7). -/
def State.leaseEvent (s : State) (sub i : Nat) : State := s.post 0 sub 6 0 0 i 0 none

/-! ### The own bulletin (Table 13.5) -/

def State.putBull (s : State) (i : Nat) (v : DWord) : State := s.updLse fun l => { l with bull := mput 0 l.bull i (v &&& bullMask i) }
def State.el (s : State) : Elect := s.hub.lse.el
def State.updEl (s : State) (f : Elect → Elect) : State := s.updLse fun l => { l with el := f l.el }
def State.eEpoch (s : State) : Nat := s.epochWord % 2 ^ 32
/-- The confirm word: epoch, FINAL, module. -/
def State.confirmed (s : State) : Nat × Bool × Nat :=
  let w := (s.bullWord 8).toNat
  (bits w 63 32, bitAt w 31, w % 2 ^ 12)

/-- The bids of live modules (R350): key and module. -/
def State.liveBids (s : State) : List (Nat × Nat) :=
  ((upto 192).map fun c => ((s.bullWord (32 + 2 * c)).toNat, (s.bullWord (33 + 2 * c)).toNat % 2 ^ 12)).filter fun b =>
    b.1 ≠ 0 && (b.2 = s.hub.flash.mid || s.peerLive b.2)
/-- The live bid of highest key in an epoch, the higher module number on a tie. -/
def State.bestBid (s : State) (e : Nat) : Option Nat :=
  ((s.liveBids.filter fun b => bits b.1 63 32 = e).foldl (fun (acc : Option (Nat × Nat)) b => match acc with
    | none => some b
    | some m => if m.1 < b.1 || (m.1 = b.1 && m.2 < b.2) then some b else some m) none).map Prod.snd
/-- The highest epoch above the own one that a live bid or confirm in the own bulletin shows. -/
def State.laterEpoch (s : State) : Option Nat :=
  let (ce, _, cm) := s.confirmed
  let es := (s.liveBids.map fun b => bits b.1 63 32) ++ (if cm = s.hub.flash.mid || s.peerLive cm then [ce] else [])
  let m := maxNat es
  if s.eEpoch < m then some m else none

/-! ### Steps -/

/-- `elect(e)` begins: EPOCH, MGRV, and the own bids to every live peer and here. -/
def State.enterElection (s : State) (e : Nat) : State :=
  let c := s.hub.lse.cfg
  let own := s.hub.flash.mid
  let key : DWord := BitVec.ofNat 64 (e * 2 ^ 32 + c.prio * 2 ^ 24 + s.hub.flash.serial % 2 ^ 24)
  let bids := if c.cslot = 0xFF then [] else (s.livePeers ++ [own]).flatMap fun m =>
    [(⟨m, 0x108 + 16 * c.cslot, BitVec.ofNat 64 own, false⟩ : EWrite), ⟨m, 0x100 + 16 * c.cslot, key, false⟩]
  (s.putBull 1 (BitVec.ofNat 64 (e % 2 ^ 32 + bits s.epochWord 62 32 * 2 ^ 32))).updEl fun _ =>
    { phase := .bids, until_ := 0, settle := c.settle, todo := bids, sent := false, best := 4096, acked := false, next := none }

/-- The election waits in a phase for at most SETTLE, as it was when the election began. -/
def State.elWait (s : State) (p : EPhase) : State := s.updEl fun x => { x with phase := p, until_ := s.mstime + x.settle }

/-- The best bid is known: the winner-elect confirms itself to every live peer, any other module waits for its confirm. -/
def State.elChoose (s : State) (best : Nat) : State :=
  let s := s.updEl fun x => { x with best := best }
  let own := s.hub.flash.mid
  if best = own then
    let w : DWord := BitVec.ofNat 64 (s.eEpoch * 2 ^ 32 + own)
    (s.putBull 9 0).updEl fun x => { x with phase := .confirms, todo := s.livePeers.map fun m => ⟨m, 0x40, w, false⟩ }
  else s.elWait .waitConfirm

/-- One write of the election: here, or to a live peer, which must acknowledge it; it waits while no path to the peer is up (R340). -/
def State.elWrite (s : State) (w : EWrite) (rest : List EWrite) : Option State :=
  let drop (s : State) : State := s.updEl fun x => { x with todo := rest, sent := false }
  if w.mid = s.hub.flash.mid then
    some (drop (s.putBull (w.off / 8) (if w.add then s.bullWord (w.off / 8) + w.v else w.v)))
  else if !s.peerLive w.mid then some (drop s)
  else if s.el.sent || s.pathsDown w.mid then none
  else
    let r : Remote := ⟨w.mid, 0x20000, s.eEpoch, none, 0, w.off, 0, 0, 0, 0, natLe 8 w.v.toNat, 0, none, 0⟩
    some (({ s with remotes := s.remotes ++ [r] }.send (.bulletin w.mid w.off w.v w.add)).updEl fun x => { x with sent := true })

/-- A step of a phase whose writes are done (R350); none while it waits. -/
def State.elPhase (s : State) : Option State :=
  let x := s.el
  let e := s.eEpoch
  let late := decide (x.until_ ≤ s.mstime)
  let (ce, fin, cm) := s.confirmed
  match x.phase with
  | .idle => none
  | .bids => some (s.elWait .settle)
  | .settle =>
    if late then match s.bestBid e with
      | some b => some (s.elChoose b)
      | none => some (s.updEl fun x => { x with phase := .waitBid })
    else none
  | .waitBid => match s.bestBid e with
    | some b => some (s.elChoose b)
    | none => if ce = e && (cm = s.hub.flash.mid || s.peerLive cm) then some (s.elWait .waitConfirm) else none
  | .confirms => some (s.elWait .waitAck)
  | .waitAck =>
    if (s.bullWord 9).toNat = s.livePeers.length then
      let w : DWord := BitVec.ofNat 64 (e * 2 ^ 32 + 2 ^ 31 + s.hub.flash.mid)
      some (s.updEl fun x => { x with phase := .finals, todo := (s.livePeers ++ [s.hub.flash.mid]).map fun m => ⟨m, 0x40, w, false⟩ })
    else if late then some (s.elWait .waitFinal)
    else none
  | .finals => some (s.elWait .waitFinal)
  | .waitConfirm =>
    if ce = e && !fin then
      if cm = x.best && !x.acked then
        some (s.updEl fun x => { x with phase := .ack, acked := true, todo := [⟨cm, 0x48, 1, true⟩] })
      else some (s.elWait .waitFinal)
    else if late then some (s.elWait .waitFinal)
    else none
  | .ack => some (s.elWait .waitFinal)
  | .waitFinal =>
    if ce = e && fin && cm = x.best then
      some (((s.putBull 1 (BitVec.ofNat 64 (e + cm * 2 ^ 32 + 2 ^ 63))).updEl fun x => { x with phase := .idle }).leaseEvent 4 0)
    else if late then some (s.enterElection (e + 1))
    else none

/-- One step of the election; none while it waits. An acknowledgement under way ends before a later epoch begins. -/
def State.elStep (s : State) : Option State :=
  let x := s.el
  match x.phase, x.todo, x.next, s.laterEpoch with
  | .ack, w :: rest, _, _ => s.elWrite w rest
  | _, _, some n, l => some (s.enterElection (Nat.max n (l.getD 0)))
  | _, _, none, some l => some (s.enterElection l)
  | _, w :: rest, none, none => s.elWrite w rest
  | _, [], none, none => s.elPhase

/-- The election takes every step it can. -/
def State.elRun : Nat → State → State
  | 0, s => s
  | f + 1, s => match s.elStep with
    | some s => elRun f s
    | none => s
def State.elGo (s : State) : State := State.elRun (64 + 4 * s.hub.lse.peers.length) s

/-- An election at epoch `e` is asked for. -/
def State.askElection (s : State) (e : Nat) : State :=
  (s.updEl fun x => { x with next := some (Nat.max e (x.next.getD 0)) }).elGo

/-- R350. An election wait of SETTLE ms ends. -/
def execSettleExpiry (s : State) : Out := .next s.elGo

end Sys2Proof.Machine
end

