-- ==== Sys2Proof/Machine/Lse.lean ====
section
/-! DEFINITION. The lease engine (chapter 13): transitions of lease entries (R343 to R346), flushes and prefetch (R344, R353), the lease
instructions (R355 to R359). -/

namespace Sys2Proof.Machine

/-! ### Messages, events -/

/-- What a lease message about an entry carries (R341). -/
def State.leaseMsg (s : State) (l : Lease) (dur : Nat) : LeaseMsg :=
  { mid := s.hub.flash.mid, incarn := s.incarn, gen := l.gen, lid := l.lid, lidx := l.lidx, ext := l.ext, dur := dur }
/-- Sends a lease message about an entry to its other side (R341), over a port that carries them (R340). -/
def State.leaseSend (s : State) (k : LKind) (l : Lease) (dur : Nat) : State :=
  let mid := if l.role = .lent then l.borrower else l.lender
  if s.pathsDown mid then s else s.send (.lease mid k (s.leaseMsg l dur))

/-- Accesses issued to the window or the extent of an entry are performed: each is ordered before its next transition (R346). -/
def State.settleLease (s : State) (i : Nat) : State :=
  let l := s.lease i
  s.performIf fun x => match x.loc with
    | .world a => inWindow i (a.dpa / 64) || (l.role = .lent && dpaKind a.dpa = .pool && (a.dpa - tib) / gib = l.ext)
    | _ => false
/-- Threads that wait in MWAIT for a block of a window that they cannot reach any more wake (R168). -/
def State.wakeWindow (s : State) (i : Nat) : State :=
  let ls := s.benches.flatMap fun b => b.threads.filterMap fun e => e.2.watch.map Watch.blk
  (ls.filter (inWindow i)).foldl State.touched s
/-- An entry changes state, with its event: any transition of a borrower, and a lender's to FAILED (R344). -/
def State.toState (s : State) (i : Nat) (st : LState) (sub : Nat) : State :=
  let s := s.settleLease i
  let l := s.lease i
  let s := s.setLease i { l with state := st }
  let s := if l.role = .borrowed && l.state = .granted && st ≠ .granted then s.wakeWindow i else s
  let s := s.updLse fun x => { x with until_ := mdel x.until_ i }
  if l.role = .borrowed || st = .failed || sub = 2 then s.leaseEvent sub i else s
/-- EXPIRY of a duration from now; 0xFFFF_FFFF is no expiry (R343). -/
def State.expiryOf (s : State) (d grace : Nat) : Option Nat := if d = 0xFFFFFFFF then none else some (s.mstime + d + grace)
/-- Opens the answer window of an entry (RCWIN). -/
def State.openWindow (s : State) (i : Nat) : State :=
  s.updLse fun x => { x with until_ := mset x.until_ i (s.mstime + x.cfg.rcwin) }

/-! ### Prefetch and write-back (R353) -/

/-- The system queue of a BTE that QNUM names. -/
def State.prefetchQueue (s : State) : Option BQueue :=
  (s.queue (.mem s.hub.lse.cfg.qnum)).bind fun x => if x.sys && !x.eng && !x.closed then some x else none

/-- The LSE appends a MIGRATE packet to the prefetch queue as a device-scope agent (R264, R353), where there is room: SRC and DST
hold the two DPAs, with no layout record in world memory (log entry 29). -/
def State.lseAppend (s : State) (i page frame : Nat) (back : Bool) : State :=
  match s.prefetchQueue with
  | none => s
  | some x =>
    match s.devBytes x.bind x.world x.hdr 8 with
    | (_, .error _) => s
    | (s1, .ok wb) =>
      let n := leNat wb
      if x.cidx + 2 ^ x.log2n ≤ n then s
      else
        let s := (s1.devRmw x.bind x.world x.hdr 8 fun w => (w + 1) % 2 ^ 64).1
        let w := 64 * windowBlk i page
        let f := 64 * frameBlk frame
        let slot := x.ring + 64 * (n % 2 ^ x.log2n)
        let s := (s.devWrite x.bind x.world slot (natLe 8 8 ++ natLe 8 (if back then f else w) ++ natLe 8 (if back then w else f) ++ List.replicate 32 0)).1
        let s := (s.devWrite x.bind x.world (slot + 0x38) (natLe 8 (n + 1))).1
        s.updBor i fun b => { b with asked := b.asked ++ [⟨page, frame, s.hub.lse.cfg.qnum, n + 1, back, true⟩] }

/-- A local page goes back to the lender with no packet: its dirty lines are sent, which the lender has to acknowledge (R344). -/
def State.sendPage (s : State) (i page : Nat) : State :=
  let owed := (s.bor i).owed i page
  (owed.foldl State.sendLine (s.unplace i page)).settled i page

/-- Local pages go back to the lender: by packets, or, with no queue, line by line (log entry 29). -/
def State.writeBack (s : State) (i : Nat) (p : Nat → Bool) : State :=
  let todo := (s.bor i).pages.filter fun e => p e.1 && !(s.bor i).asked.any fun a => a.back && a.page = e.1
  match s.prefetchQueue with
  | some _ => todo.foldl (fun s e => s.lseAppend i e.1 e.2 true) s
  | none =>
    let s := todo.foldl (fun s e => s.sendPage i e.1) s
    s.updBor i fun b => { b with pages := b.pages.filter fun e => !p e.1 }

/-- Dirty copies of window lines go to the lender (R34), and every copy is dropped (R344). -/
def State.dropWindow (s : State) (lid : Nat) (p : Nat → Bool) : State :=
  let mine (l : Nat) : Bool := inWindow lid l && p ((l - windowBlk lid 0) / 1024)
  let s := ((s.copies.filter fun x => mine x.line).filterMap fun x => match x.at_ with
    | .core c => some (c, x.line)
    | .cluster _ => none).foldl (fun s x => s.pushCore x.1 x.2) s
  let s := ((s.copies.filter fun x => mine x.line).filterMap fun x => match x.at_ with
    | .cluster c => some (c, x.line)
    | .core _ => none).foldl (fun s x => s.pushCluster x.1 x.2) s
  let s := ((s.unpushed.map Prod.fst).filter mine).foldl State.pushSlice s
  { s.dropClean mine with copies := s.copies.filter fun x => !mine x.line }.updSdc fun c => c.remove fun x => mine x.line && x.upto = none

/-- Lines of other pages whose home the placement unit has put into a window come back to their own (R43, R344). -/
def State.recallHomes (s : State) (i : Nat) : State :=
  (s.hub.plc.homes.filter fun e => inWindow i e.2 && !inWindow i e.1).foldl (fun s e => s.rehome e.1 e.1) s

/-- A flush begins (R344): prefetch stops, dirty lines and local pages go back. -/
def State.startFlush (s : State) (i : Nat) : State :=
  let s := ((s.dropWindow i fun _ => true).recallHomes i).updBor i fun b => { b with flush := true }
  s.writeBack i fun _ => true
/-- Whether the lender has not acknowledged every write to a window (R40, R344). -/
def State.windowBusy (s : State) (i : Nat) : Bool := s.remotes.any fun r => r.line.any (inWindow i)

/-- R353. The LSE asks for a page of the range that is not local, the hottest by the placement unit's measure (a free choice, log
entry 4), within the frames PLACE allows. -/
def execLeasePrefetch (i : Nat) (s : State) : Out :=
  let l := s.lease i
  let b := s.bor i
  let have_ (p : Nat) : Bool := b.pages.any (fun e => e.1 = p) || b.asked.any fun a => a.page = p
  let cand := ((upto b.count).map fun k => b.first + k).filter fun p => !have_ p
  let used := b.pages.length + (b.asked.filter fun a => !a.back).length
  let room := match mget? s.hub.lse.frames i with
    | some m => decide (used < m)
    | none => true
  if l.state ≠ .granted || l.role ≠ .borrowed || !l.pfon || b.flush || cand.isEmpty || !room then .next s
  else
    let (r, s) := s.draw
    let (f, s) := s.draw
    let frame := f % (768 * gib / 65536)
    let taken := s.hub.plc.homes.any (fun e => e.2 / 1024 = frame) || s.hub.lse.bor.any fun e => e.2.asked.any fun a => a.frame = frame
    if taken || !s.placeablePage frame then .next s
    else .next (s.lseAppend i (nth 0 cand (r % cand.length)) frame false)

/-- R344. A flush whose write-backs are all acknowledged ends: RELEASE is sent. -/
def execLeaseFlushComplete (i : Nat) (s : State) : Out :=
  let b := s.bor i
  if !b.flush || !b.asked.isEmpty || s.windowBusy i then .next s
  else if !b.pages.isEmpty then .next (s.writeBack i fun _ => true)
  else
    let l := s.lease i
    let s := (s.dropWindow i fun _ => true).updBor i fun b => { b with flush := false }
    if l.role = .borrowed && (l.state = .recalling || l.state = .expired) then
      .next ((s.setLease i { l with released := true }).leaseSend .release l 0)
    else .next s

/-! ### Messages (Table 13.4) -/

/-- Whether a receiver keeps a message (R341): over a port that carries it (R340), from a live peer of the recorded incarnation, about the entry's generation. -/
def State.hears (s : State) (m : LeaseMsg) : Bool := s.reaches m.mid && s.peerLive m.mid && s.peerIncarn m.mid = m.incarn
def State.names (s : State) (m : LeaseMsg) (i : Nat) (r : LRole) : Bool :=
  let l := s.lease i
  s.hears m && 0 < i && i < 4096 && l.role = r && l.gen = m.gen && l.pinc = m.incarn
    && m.mid = (if r = .lent then l.borrower else l.lender)
def State.lenderMsg (s : State) (m : LeaseMsg) (f : Lease → State) : Out := .next (if s.names m m.lidx .lent then f (s.lease m.lidx) else s)
def State.borrowerMsg (s : State) (m : LeaseMsg) (f : Lease → State) : Out := .next (if s.names m m.lid .borrowed then f (s.lease m.lid) else s)

/-- R344. An offer takes the FREE entry it names, or the lowest; with none it is declined. -/
def execOffer (m : LeaseMsg) (s : State) : Out :=
  if !s.hears m then .next s
  else
    let free (i : Nat) : Bool := 0 < i && i < 4096 && (s.lease i).state = .free
    let slot := if m.lid = 0 then (upto 4096).find? free else if free m.lid then some m.lid else none
    let own := s.hub.flash.mid
    match slot with
    | none => .next (s.leaseSend .decline { Lease.none with role := .borrowed, lidx := m.lidx, lender := m.mid, gen := m.gen } 0)
    | some i =>
      let s := s.updLse fun x => { x with durs := mset x.durs i m.dur, bor := mdel x.bor i, wblead := x.wblead.filter (· ≠ i) }
      .next ((s.setLease i { Lease.none with role := .borrowed, lid := i, lidx := m.lidx, lender := m.mid, borrower := own, ext := m.ext,
                                             gen := m.gen, pinc := m.incarn }).toState i .offered 1)

/-- R344. The borrower accepts: GRANTED, with its expiry, and GRANT is sent; in any other state NAK. A message about an
entry whose borrower, or whose borrower's incarnation, is another is dropped (R341). -/
def execAccept (m : LeaseMsg) (s : State) : Out :=
  let l := s.lease m.lidx
  if s.names m m.lidx .lent && l.state = .offered then
    let l := { l with lid := m.lid, expiry := s.expiryOf (mget 0 s.hub.lse.durs m.lidx) s.hub.lse.cfg.grace }
    .next (((s.setLease m.lidx l).toState m.lidx .granted 5).leaseSend .grant l 0)
  else if s.hears m && 0 < m.lidx && m.lidx < 4096 && l.gen = m.gen
      && (l.role = .none || (l.role = .lent && l.pinc = m.incarn && l.borrower = m.mid)) then
    .next (s.leaseSend .nak { l with role := .lent, borrower := m.mid, lid := m.lid, lidx := m.lidx } 0)
  else .next s

/-- R344. The borrower declines: FREE. -/
def execDecline (m : LeaseMsg) (s : State) : Out :=
  s.lenderMsg m fun l => if l.state = .offered then s.toState m.lidx .free 5 else s

/-- What a lease's window holds of an earlier lease is not its contents (log entry 3). -/
def State.clearWindow (s : State) (i : Nat) : State :=
  let inW (l : Nat) : Bool := inWindow i l
  { s with fetched := s.fetched.filter fun l => !inW l, mem := s.mem.filter fun e => !inW (e.1 / 64), tags := s.tags.filter fun e => !inW e.1,
           unpushed := s.unpushed.filter fun e => !inW e.1, marked := s.marked.filter fun l => !inW l,
           bad := s.bad.filter fun l => !inW l,
           jrnl := s.jrnl.filter fun e => !inW (e.addr / 64), tjrnl := s.tjrnl.filter fun e => !inW e.addr,
           clean := s.clean.filter fun c => !inW c.line, macs := s.macs.filter fun e => !inW e.1 }.updSdc fun c => c.remove fun x => inW x.line

/-- R344. The lender grants: the lease runs from now (R343). -/
def execGrant (m : LeaseMsg) (s : State) : Out :=
  s.borrowerMsg m fun l =>
    if l.state = .offered then
      let s := s.clearWindow m.lid
      (s.setLease m.lid { l with expiry := s.expiryOf (mget 0 s.hub.lse.durs m.lid) 0 }).toState m.lid .granted 5
    else s

/-- R344. The lender takes its offer back: FREE. -/
def execNak (m : LeaseMsg) (s : State) : Out :=
  s.borrowerMsg m fun l => if l.state = .offered then s.toState m.lid .free 5 else s

/-- R344. The lender recalls: RECALLING, and a flush begins. -/
def execRecall (m : LeaseMsg) (s : State) : Out :=
  s.borrowerMsg m fun l => if l.state = .granted then (s.toState m.lid .recalling 5).startFlush m.lid else s

/-- R344. The borrower has released: FREE, with its event. -/
def execRelease (m : LeaseMsg) (s : State) : Out :=
  s.lenderMsg m fun l =>
    if l.state = .granted || l.state = .recalling || l.state = .expired then s.toState m.lidx .free 2 else s

/-- R344. The borrower asks for a new duration: RENEWED while GRANTED, else REFUSED. -/
def execRenew (m : LeaseMsg) (s : State) : Out :=
  s.lenderMsg m fun l =>
    match l.state with
    | .granted => (s.setLease m.lidx { l with expiry := s.expiryOf m.dur s.hub.lse.cfg.grace }).leaseSend .renewed l m.dur
    | .recalling | .expired => s.leaseSend .refused l m.dur
    | _ => s

/-- R344. The lender has renewed. -/
def execRenewed (m : LeaseMsg) (s : State) : Out :=
  s.borrowerMsg m fun l =>
    if l.state = .granted then
      (s.setLease m.lid { l with expiry := s.expiryOf m.dur 0 }).updLse fun x => { x with wblead := x.wblead.filter (· ≠ m.lid) }
    else s

/-- R344. The lender refuses to renew: no state changes. -/
def execRefused (m : LeaseMsg) (s : State) : Out := s.borrowerMsg m fun _ => s

/-- A snoop of pages (R359): it stays at the port until the local pages it names are written back; then their lines'
copies go to the lender, and once it has acknowledged them it answers. -/
def snoop (k : LKind) (m : LeaseMsg) (first count : Nat) (s : State) : Out :=
  s.borrowerMsg m fun l =>
    let inR (p : Nat) : Bool := first ≤ p && p < first + count
    if l.state ≠ .granted && l.state ≠ .recalling then s
    else if (s.bor m.lid).pages.any (fun e => inR e.1) || (s.bor m.lid).asked.any fun a => inR a.page then s.writeBack m.lid inR
    else
      let s := s.dropWindow m.lid inR
      if s.windowBusy m.lid then s else s.leaseSend k l 0

/-- R359. A data snoop. -/
def execBisnpdata (m : LeaseMsg) (first count : Nat) (s : State) : Out := snoop .bisnpData m first count s
/-- R359. An invalidating snoop. -/
def execBisnpinv (m : LeaseMsg) (first count : Nat) (s : State) : Out := snoop .bisnpInv m first count s

/-! ### Clocks (Table 13.4) -/

/-- Whether MSTIME has reached an entry's expiry, less a lead. -/
def State.reached (s : State) (l : Lease) (lead : Nat) : Bool :=
  match l.expiry with
  | some e => decide (e ≤ s.mstime + lead)
  | none => false

/-- R344. MSTIME reaches EXPIRY. -/
def execLeaseExpiry (i : Nat) (s : State) : Out :=
  let l := s.lease i
  if l.state ≠ .granted || !s.reached l 0 then .next s
  else match l.role with
    | .lent => .next ((s.toState i .expired 5).openWindow i)
    | _ => .next ((s.toState i .expired 5).startFlush i)

/-- R344. MSTIME reaches EXPIRY − WBLEAD: prefetch stops and local pages are written back; those that the queue had no room for follow. -/
def execWbleadExpiry (i : Nat) (s : State) : Out :=
  let l := s.lease i
  if l.state ≠ .granted || l.role ≠ .borrowed || !s.reached l s.hub.lse.cfg.wblead then .next s
  else if s.hub.lse.wblead.contains i then .next (s.writeBack i fun _ => true)
  else
    let s := s.updLse fun x => { x with wblead := i :: x.wblead }
    .next ((s.setLease i { l with pfon := false }).writeBack i fun _ => true)

/-- R344. RCWIN passes without an answer: an offer ends FREE, a recall or an expiry FAILED. -/
def execRcwinExpiry (i : Nat) (s : State) : Out :=
  let l := s.lease i
  match mget? s.hub.lse.until_ i with
  | none => .next s
  | some u =>
    if s.mstime < u || l.role ≠ .lent then .next s
    else match l.state with
      | .offered => .next (s.toState i .free 5)
      | .recalling | .expired => .next (s.toState i .failed 3)
      | _ => .next s

/-! ### Instructions (R355 to R359) -/

/-- A configuration in its ranges (Table 13.8). -/
def cfgOf (a0 a1 a2 a3 : Nat) : Option LseCfg :=
  let c : LseCfg := ⟨bits a0 15 8, a0 % 256, bits a1 31 16, a1 % 2 ^ 16, bits a2 31 16, a2 % 2 ^ 16, bits a3 31 16, a3 % 2 ^ 16⟩
  if a0 / 2 ^ 16 = 0 && (c.cslot < 192 || c.cslot = 255) && 10 ≤ c.failt && c.failt ≤ 10000 && 1 ≤ c.settle && c.settle ≤ 1000
      && 1 ≤ c.grace && c.grace ≤ 10000 && 1 ≤ c.rcwin && c.rcwin ≤ 60000 && (c.qnum ≤ 4094 || c.qnum = 0xFFFF) && 1 ≤ c.wblead
      && c.wblead ≤ 10000 then some c else none

/-- LSET OFFER (Table 13.7): its status, and the state. -/
def State.lsetOffer (s : State) (i ext mid d rlid : Nat) : Nat × State :=
  let l := s.lease i
  if l.state ≠ .free then (1, s)
  else if s.hssExtent ext || s.leases.any (fun e => e.1 ≠ i && e.2.role = .lent && e.2.state ≠ .free && e.2.ext = ext) then (3, s)
  else if !s.peerLive mid then (4, s)
  else
    let n : Lease :=
      { Lease.none with role := .lent, lid := rlid, lidx := i, lender := s.hub.flash.mid, borrower := mid, ext := ext,
                        gen := l.gen + 1, pinc := s.peerIncarn mid }
    let s := s.updLse fun x => { x with durs := mset x.durs i d }
    (0, (((s.setLease i n).toState i .offered 5).openWindow i).leaseSend .offer n d)

/-- Whether LSET FREE applies (Table 13.4). -/
def Lease.freeable (l : Lease) : Bool :=
  l.state = .failed || ((l.state = .recalling || l.state = .expired) && l.released) || (l.state = .free && l.role = .lent)

/-- LSET FREE (R356): the translations of a borrowed window go first; every field but GEN becomes 0. -/
def State.lsetFree (s : State) (i : Nat) : Nat × State :=
  let l := s.lease i
  if !l.freeable then (1, s)
  else
    let s := if l.role = .borrowed then { s with tlbs := s.tlbs.filter fun e => bits e.pte.toNat 63 52 ≠ i } else s
    let s := if l.role = .borrowed then s.toState i .free 5 else s
    let s := s.updLse fun x => { x with durs := mdel x.durs i, until_ := mdel x.until_ i, wblead := x.wblead.filter (· ≠ i) }
    (0, s.setLease i { Lease.none with gen := l.gen })

/-- Why an operation of a borrowed entry in state `st` is turned away, 0 if it is not. -/
def Lease.turned (l : Lease) (st : LState) : Nat := if l.state ≠ st then 1 else if l.role ≠ .borrowed then 2 else 0

/-- LSET (R356): operation, entry, arguments; none where it takes TC_RESFIELD. -/
def State.lset (s : State) (op i : Nat) (a : Nat → Nat) : Option (Nat × State) :=
  let l := s.lease i
  match op with
  | 0 => if i = 0 then (cfgOf (a 0) (a 1) (a 2) (a 3)).map fun c => (0, s.updLse fun x => { x with cfg := c }) else none
  | 7 => if i = 0 then some (0, s.askElection (s.eEpoch + 1)) else none
  | 1 =>
    if i = 0 || a 0 / 2 ^ 11 ≠ 0 || a 1 / 2 ^ 12 ≠ 0 || a 2 = 0 || a 3 / 2 ^ 12 ≠ 0 then none
    else some (s.lsetOffer i (a 0) (a 1) (a 2) (a 3))
  | 2 =>
    if i = 0 then none
    else some (match l.turned .offered with
      | 0 => (0, s.leaseSend .accept l 0)
      | r => (r, s))
  | 3 =>
    if i = 0 then none
    else some (match l.turned .offered with
      | 0 => (0, (s.toState i .free 5).leaseSend .decline l 0)
      | r => (r, s))
  | 4 =>
    if i = 0 then none
    else some (match l.turned .granted with
      | 0 => (0, s.leaseSend .renew l (a 2))
      | r => (r, s))
  | 5 =>
    if i = 0 || a 0 / 2 ^ 14 ≠ 0 || a 1 / 2 ^ 15 ≠ 0 || a 1 = 0 || 16384 < a 0 + a 1 || 1 < a 2 then none
    else some (match l.turned .granted with
      | 0 =>
        if s.prefetchQueue.isNone then (3, s)
        else (0, (s.setLease i { l with pfon := a 2 = 1 }).updBor i fun b => { b with first := a 0, count := a 1 })
      | r => (r, s))
  | 6 => if i = 0 then none else some (s.lsetFree i)
  | _ => none

/-- LSET: the operation is the command word's (log entry 12). -/
def lsetOp (d a b : BitVec 7) (s : State) : Out :=
  trt [wV d, rU a, rU b 4] (fun s g _ on bn t =>
    let w := (bn.u t a.toNat).toNat
    if bits w 27 12 ≠ 0 then .trap s .resfield 0 (wordVal g.w g.w2)
    else match s.lset (bits w 31 28) (w % 4096) fun i => (bn.u t (b.toNat + i)).toNat with
      | none => .trap s .resfield 0 (wordVal g.w g.w2)
      | some (r, s) => s.status g on d r) s

/-- R356. Writes the configuration of the lease engine. -/
def execLsetConfig (d a b : BitVec 7) (s : State) : Out := lsetOp d a b s
/-- R356. Offers a pool extent. -/
def execLsetOffer (d a b : BitVec 7) (s : State) : Out := lsetOp d a b s
/-- R356. Accepts an offer. -/
def execLsetAccept (d a b : BitVec 7) (s : State) : Out := lsetOp d a b s
/-- R356. Declines an offer. -/
def execLsetDecline (d a b : BitVec 7) (s : State) : Out := lsetOp d a b s
/-- R356. Asks for a renewal. -/
def execLsetRenew (d a b : BitVec 7) (s : State) : Out := lsetOp d a b s
/-- R356. Sets the prefetch range. -/
def execLsetPfetch (d a b : BitVec 7) (s : State) : Out := lsetOp d a b s
/-- R356. Frees an entry. -/
def execLsetFree (d a b : BitVec 7) (s : State) : Out := lsetOp d a b s
/-- R350, R356. Starts an election. -/
def execLsetElect (d a b : BitVec 7) (s : State) : Out := lsetOp d a b s

/-- The words of an entry (Table 13.3). -/
def Lease.words (l : Lease) (high : Bool) : List Nat :=
  let role := match l.role with
    | .none => 0
    | .lent => 1
    | .borrowed => 2
  let f (b : Bool) (i : Nat) : Nat := if b then 2 ^ i else 0
  if high then
    let e := l.expiry.getD (2 ^ 64 - 1)
    [e % 2 ^ 32, e / 2 ^ 32, l.pinc % 2 ^ 32, l.pinc / 2 ^ 32]
  else
    [l.state.code * 2 ^ 28 + role * 2 ^ 26 + f l.released 25 + f l.pfon 24 + l.lid % 4096 * 4096 + l.lidx % 4096,
     l.lender % 4096 * 4096 + l.borrower % 4096, l.ext, l.gen.toNat]

/-- The fabric status (R357). -/
def State.fabricStatus (s : State) : List Nat :=
  let e := s.epochWord
  let f (b : Bool) (i : Nat) : Nat := if b then 2 ^ i else 0
  [f (bitAt e 63) 31 + f (s.hub.lse.el.phase ≠ .idle || s.hub.lse.el.next.isSome) 30 + bits e 43 32 * 4096 + s.hub.flash.mid % 4096,
   e % 2 ^ 32, s.mstime % 2 ^ 32, s.mstime / 2 ^ 32]

/-- LGET (R357): the kind is the selector's (log entry 12). -/
def lgetOp (d a : BitVec 7) (s : State) : Out :=
  trt [wV d 4, rU a] (fun s g _ on bn t =>
    let w := (bn.u t a.toNat).toNat
    let k := bits w 31 30
    let i := w % 4096
    if bits w 29 12 ≠ 0 || k = 3 || (k < 2 && i = 0) || (k = 2 && i ≠ 0) then .trap s .resfield 0 (wordVal g.w g.w2)
    else
      let ws := if k = 2 then s.fabricStatus else (s.lease i).words (k = 1)
      .done (s.outAll g.place on d (ws.map (BitVec.ofNat 32)))) s

/-- R357. Reads bytes 0x00 to 0x0F of an entry. -/
def execLgetEntryLow (d a : BitVec 7) (s : State) : Out := lgetOp d a s
/-- R357. Reads bytes 0x10 to 0x1F of an entry. -/
def execLgetEntryHigh (d a : BitVec 7) (s : State) : Out := lgetOp d a s
/-- R357. Reads the fabric status. -/
def execLgetFabricStatus (d a : BitVec 7) (s : State) : Out := lgetOp d a s

/-- R358. Recalls a lent lease, or gives a borrowed one back. -/
def execLrecall (d a : BitVec 7) (s : State) : Out :=
  trt [wV d, rU a] (fun s g _ on bn t =>
    let i := (bn.u t a.toNat).toNat
    if i = 0 || 4096 ≤ i then .trap s .resfield 0 (wordVal g.w g.w2)
    else
      let l := s.lease i
      if l.role = .none then s.status g on d 2
      else if l.state ≠ .granted then s.status g on d 1
      else if l.role = .lent then (((s.toState i .recalling 5).openWindow i).leaseSend .recall l 0).status g on d 0
      else ((s.toState i .recalling 5).startFlush i).status g on d 0) s

/-- The answer of the lease engine to an instruction that waits for it. -/
def State.answerKey (s : State) (k r : Nat) : State :=
  s.mapThreads fun _ _ t => { t with out := t.out.map fun (o : Pend) => match o with
    | .await i x => if x = k then .vec i (BitVec.ofNat 32 r) else o
    | o => o }

/-- R359. Snoops a borrower's copies of a lent extent: the result comes when the borrower has answered. -/
def execBisnp (d a b : BitVec 7) (s : State) : Out :=
  trt [wV d, rU a, rU b 2] (fun s g _ on bn t =>
    let w := (bn.u t a.toNat).toNat
    let i := w % 4096
    let first := (bn.u t b.toNat).toNat
    let count := (bn.u t (b.toNat + 1)).toNat
    if w / 2 ^ 13 ≠ 0 || i = 0 || 16383 < first || count = 0 || 16384 < first + count then .trap s .resfield 0 (wordVal g.w g.w2)
    else
      let l := s.lease i
      if l.role ≠ .lent || (l.state ≠ .granted && l.state ≠ .recalling) then s.status g on d 1
      else if !s.peerLive l.borrower then s.status g on d 2
      else if s.pathsDown l.borrower then .poll s .engine
      else
        let k := s.nextSub
        let r : Remote := ⟨l.borrower, 0x30000, k, none, 0, first, 0, 0, 0, 0, natLe 4 count, 0, none, 0⟩
        let s := s.send (.snoop l.borrower (bitAt w 12) (s.leaseMsg l 0) ((tib + l.ext * gib) / 64 + 1024 * first) (1024 * count))
        let s := { s with nextSub := k + 1, remotes := s.remotes ++ [r] }
        .done (s.updBench g.place fun bn => { bn with threads := bn.threads.map fun (l, t) =>
          (l, if on.contains l then { t with out := t.out ++ [.await (t.wb + d.toNat) k] } else t) })) s

/-! ### Placement of borrowed pages -/

/-- R43. The placement unit starts moving a page, named by its DPA, to a new home; of a borrowed page that is served locally, it asks for the
write-back (R353). -/
def execPageMigration (src dst : Nat) (s : State) : Out :=
  let i := leaseAt (65536 * src)
  let page := (65536 * src - windowBase - i * gib) / 65536
  if dpaKind (65536 * src) = .window && (s.bor i).pages.any (fun e => e.1 = page) then .next (s.writeBack i fun p => p = page)
  else
    let busy := s.hub.plc.migr.any (fun m => m.1 = src || m.2 = dst) || s.hub.plc.homes.any (fun e => e.2 / 1024 = dst)
    .next (if s.placeablePage src && s.placeablePage dst && src ≠ dst && !busy && !s.pinnedDpa src then
      s.updPlc fun p => { p with migr := (src, dst) :: p.migr } else s)

end Sys2Proof.Machine
end

