-- ==== Sys2Proof/Machine/Fabric.lean ====
section
/-! DEFINITION. What reaches the module over its ports: heartbeats and failures (R348), links (R340), bulletin accesses (R349),
acknowledgements of remote writes (R40), requests of a borrower (R340) and of a host (R264, R366). -/

namespace Sys2Proof.Machine

/-! ### Heartbeats and failure (R348) -/

/-- What a peer's bulletin shows is recorded: a new peer joins the routing table (log entry 30); a change of HBEAT is noted; an exclusion
ends with an incarnation above the recorded one. -/
def State.observe (s : State) (o : PeerObs) : State :=
  s.updLse fun l => { l with peers := mset l.peers o.mid (match mget? l.peers o.mid with
    | none => ⟨o.hbeat, s.mstime, o.incarn, none, [o.port], false⟩
    | some p =>
      { hbeat := o.hbeat, at_ := if o.hbeat = p.hbeat then p.at_ else s.mstime, incarn := o.incarn,
        excl := p.excl.filter fun r => o.incarn ≤ r, paths := insertNat p.paths o.port, silent := p.silent && o.incarn ≤ p.incarn }) }

/-- Whether a read of a peer's bulletin comes back (R340, R348): over a port that carries it, from a peer that has not died, or that has
booted again since. -/
def State.sees (s : State) (o : PeerObs) : Bool :=
  o.mid ≠ s.hub.flash.mid && o.port < 8 && !s.portDown o.port
    && !(mget? s.hub.lse.peers o.mid).any fun p => p.silent && o.incarn ≤ p.incarn
/-- A peer dies: nothing of it reaches the module any more (R346; log entry 117). -/
def State.peerDies (s : State) (mid : Nat) : State :=
  match mget? s.hub.lse.peers mid with
  | none => s
  | some p => s.updLse fun l => { l with peers := mset l.peers mid { p with silent := true } }

/-- R348. Every millisecond the LSE writes its heartbeat and reads its peers', over a port that carries it (R340). A manager that shows MGRV = 0 at an epoch above the own
one starts an election (R350). -/
def execHbeatTick (obs : List PeerObs) (s : State) : Out :=
  if s.mstime ≤ s.hub.lse.beat then .next s
  else
    let s := (s.updLse fun l => { l with beat := s.mstime }).putBull 0 (s.bullWord 0 + 1)
    let obs := obs.filter s.sees
    let s := obs.foldl State.observe s
    let lost := obs.any fun o => s.mgr = some o.mid && s.peerLive o.mid && !o.mgrv && s.eEpoch < o.epoch
    .next (if lost then s.askElection (s.eEpoch + 1) else s.elGo)

/-- The operation of a block transfer that a remote write belongs to. -/
def State.remoteOp (s : State) (r : Remote) : Option (QId × BOp) :=
  s.queues.findSome? fun e => (e.2.ops.find? fun o => o.n = r.op && o.prog.sq = r.queue).map fun o => (e.2.qid, o)

/-- A write of the BTE is answered (R40): the flags of an addition join the record's (R277); a reducing block whose sequence was too old shows
STALE (R278); a fault there stops the operation at that block (R282). -/
def State.bteAck (s : State) (r : Remote) (ans : RemoteAns) : State :=
  match s.remoteOp r with
  | none => s
  | some (q, o) =>
    let upd (f : BProg → BProg) : State := s.updOp q o.n fun o => { o with prog := f { o.prog with sent := o.prog.sent - 1 } }
    match ans with
    | .done fl => upd fun p => { p with flags := p.flags ||| fl }
    | .stale => upd fun p => { p with status := 4 }
    | .fault c =>
      if o.prog.status ≠ 0 || o.prog.held then upd id
      else
        let f : AFault := ⟨(remoteCauses.find? fun x => x.code = c % 256).getD .ue, c / 256, BitVec.ofNat 64 r.wva⟩
        (upd fun p => { p with landed := Nat.min p.landed r.pos }).opFault q o f

/-- Writes under way to a lender that has failed are lost; an operation that waits for one takes TC_LEASE, sub-code 3 (R45, R346). -/
def State.failWrites (s : State) (i : Nat) : State :=
  let mine (r : Remote) : Bool := r.line.any (inWindow i)
  (s.remotes.filter mine).foldl (fun s r => s.bteAck r (.fault (Cause.code .lease + 256 * 3)))
    { s with remotes := s.remotes.filter fun r => !mine r }

/-- Local pages of a lease whose lender has failed are lost, and its packets complete CANCELLED (R353). Lines of other pages that
stood at the lender have no good copy (log entry 25). -/
def State.loseBorrowed (s : State) (i : Nat) : State :=
  let b := s.bor i
  let inW (l : Nat) : Bool := inWindow i l
  let s := b.asked.foldl (fun s a => match s.queue (.mem a.queue) with
    | some x => s.cancelOps a.queue x fun o => o.n = a.num
    | none => s) s
  let away := (s.hub.plc.homes.filter fun e => inW e.2 && !inW e.1).map Prod.fst
  let s := { (s.updPlc fun p => { p with homes := p.homes.filter fun e => !inW e.1 }) with
    copies := s.copies.filter fun c => !inW c.line, clean := s.clean.filter fun c => !inW c.line, unpushed := s.unpushed.filter fun e => !inW e.1, bad := away.foldl insertNat s.bad }
  let s := s.failWrites i
  s.updBor i fun b => { b with pages := [], flush := false, dirty := [], asked := b.asked.map fun a => { a with live := false } }

/-- Every entry that names a failed peer becomes FAILED (Table 13.4). -/
def State.failEntries (s : State) (mid : Nat) : State :=
  (s.leases.filter fun e => (e.2.state = .offered || e.2.state = .granted || e.2.state = .recalling || e.2.state = .expired)
      && (if e.2.role = .lent then e.2.borrower else e.2.lender) = mid).foldl (fun s e =>
    let s := s.toState e.1 .failed 3
    if e.2.role = .borrowed then s.loseBorrowed e.1 else s) s

/-- Snoops of a failed borrower return 2 (R359), and writes to its bulletin are no longer awaited (R350). -/
def State.dropRemotes (s : State) (mid : Nat) : State :=
  let s := (s.remotes.filter fun r => r.mid = mid && r.queue = 0x30000).foldl (fun s r => s.answerKey r.op 2) s
  { s with remotes := s.remotes.filter fun r => !(r.mid = mid && (r.queue = 0x20000 || r.queue = 0x30000)) }

/-- R348. A silent peer is declared failed and excluded; a failed manager starts an election at the next epoch (R352). -/
def execPeerDeclaredFailed (mid : Nat) (s : State) : Out :=
  match mget? s.hub.lse.peers mid with
  | none => .next s
  | some p =>
    if p.excl.isSome || !(p.at_ + s.hub.lse.cfg.failt ≤ s.mstime || s.pathsDown mid) then .next s
    else
      let was := s.mgr
      let s := s.updLse fun l => { l with peers := mset l.peers mid { p with excl := some p.incarn } }
      let s := (s.failEntries mid).dropRemotes mid
      .next (if was = some mid then s.askElection (s.eEpoch + 1) else s.elGo)

/-- R348. A port reports link down. -/
def execLinkDown (port : Nat) (s : State) : Out :=
  .next (if port < 8 then s.updLse fun l => { l with ports := mset l.ports port { ((mget? l.ports port).getD ⟨false, true, 16⟩) with up := false } }
    else s)
/-- R340. A port finishes training; an election that waited for a path goes on. -/
def execLinkUp (port : Nat) (cxl : Bool) (width : Nat) (s : State) : Out :=
  .next (if port < 8 && (width = 16 || width = 8 || width = 4) then
      (s.updLse fun l => { l with ports := mset l.ports port ⟨true, cxl, width⟩ }).elGo
    else s)

/-! ### Bulletins and acknowledgements -/

/-- The `z` bytes of a word from byte `o` on, and the word with them replaced. -/
def partOf (w : DWord) (o z : Nat) : DWord := BitVec.ofNat 64 (w.toNat / 2 ^ (8 * o) % 2 ^ (8 * z))
def putPart (w : DWord) (o z : Nat) (v : DWord) : DWord :=
  w - BitVec.ofNat 64 ((partOf w o z).toNat * 2 ^ (8 * o)) + BitVec.ofNat 64 (v.toNat % 2 ^ (8 * z) * 2 ^ (8 * o))

/-- R349. A peer's access of 4 or 8 bytes to the own bulletin (R366), in one order for each 8-byte word; an excluded peer's writes are
dropped (R348). -/
def execBulletinAccess (r : BulletinReq) (s : State) : Out :=
  if !s.reaches r.mid then .next s
  else if (r.size ≠ 4 && r.size ≠ 8) || 4096 ≤ r.off || r.off % r.size ≠ 0 then .next (s.send (.nothing r.mid))
  else
    let i := r.off / 8
    let old := partOf (s.bullWord i) (r.off % 8) r.size
    let put (s : State) (v : DWord) : State := (s.putBull i (putPart (s.bullWord i) (r.off % 8) r.size v)).elGo
    let excl := (mget? s.hub.lse.peers r.mid).any fun p => p.excl.isSome
    match r.op with
    | .read => .next (s.send (.word r.mid old))
    | .write v => .next (if excl then s else put s v)
    | .fetchAdd v => .next (if excl then s else put (s.send (.word r.mid old)) (old + v))

/-- A bulletin write of the election is acknowledged (R350). -/
def State.bullAck (s : State) (r : Remote) : State :=
  match s.el.todo with
  | w :: rest =>
    if s.el.sent && w.mid = r.mid && w.off = r.wva && r.op = s.eEpoch then
      (s.updEl fun x => { x with todo := rest, sent := false }).elGo
    else s
  | [] => s

/-- R40. A remote home answers the `k`-th outstanding write: of a BTE operation, of a SNAP's record, of an election, a line that goes back to
its lender, or a snoop; one that is not reached answers nothing (R346). -/
def execRemoteWriteAck (k : Nat) (ans : RemoteAns) (s : State) : Out :=
  match s.remotes[k]? with
  | none => .next s
  | some r =>
    if !s.reaches r.mid then .next s
    else
    let s := { s with remotes := s.remotes.eraseIdx k }
    .next (match r.queue with
      | 0x10000 => s.dceAck
      | 0x20000 => s.bullAck r
      | 0x30000 => s.answerKey r.op 0
      | 0x40000 => s
      | _ => s.bteAck r ans)

/-! ### Requests -/

/-- R340. A borrower's CXL.mem request for a line of an extent lent to it, executed at the line's home. Of a line that commits here have
changed and no fabric-scope release has pushed, the borrower sees what stood there before (R30). -/
def execCxlMemRequest (r : CxlReq) (s : State) : Out :=
  let a := r.dpa / 64 * 64
  let lent := dpaKind a = .pool && s.leases.any fun e => e.2.role = .lent && e.2.borrower = r.mid && e.2.ext = (a - tib) / gib
    && (e.2.state = .granted || e.2.state = .recalling || e.2.state = .expired)
  if !s.reaches r.mid then .next s
  else if !lent then .next (s.send (.nothing r.mid))
  else match r.write with
    | some (bs, t) => .next { (s.engineBlock ⟨a, a, 0, false⟩ (padTo 64 bs) t) with unpushed := mdel s.unpushed (a / 64) }
    | none =>
      if s.dataError a true then .next ((if s.bad.contains (a / 64) then s.countError (a / 64) true else s).send
        (.line r.mid (List.replicate 64 0) (s.tag (a / 64) ||| 0xFF)))
      else .next (s.send (let x := (mget? s.unpushed (a / 64)).getD (s.stored (a / 64), s.tag (a / 64)); .line r.mid x.1 x.2))

/-- R264, R366. A host's request: a read, a posted write or a FetchAdd of device memory at device scope, or 4 or 8 bytes of MMIO. Any
other address gives nothing. -/
def execPcieMemoryRequest (r : HostReq) (s : State) : Out :=
  let a := r.dpa
  let n := match r.op with
    | .read k => k
    | .write bs => bs.length
    | .fetchAdd _ => 8
  let none_ : Out := .next (s.send (.nothing 4096))
  if !s.hub.lse.ports.isEmpty && s.hub.lse.ports.all (fun e => !e.2.up) then .next s
  else if dpaKind a = .mmio then
    if (n ≠ 4 && n ≠ 8) || a % n ≠ 0 then none_
    else match r.op with
      | .read _ => let (x, s) := s.mmioRead a n; .next (s.send (.bytes (natLe n x.toNat)))
      | .write bs => .next (s.mmioWrite a n (BitVec.ofNat 64 (leNat bs)))
      | .fetchAdd _ => none_
  else if (s.dpaFault a n).any fun f => f.1 = .lease && f.2 = waitSub then .next s
  else if n = 0 || (s.dpaFault a n).isSome then none_
  else match r.op with
    | .read _ =>
      if (upto ((a % 64 + n + 63) / 64)).any fun i => s.dataError (a / 64 * 64 + 64 * i) true then none_
      else .next (s.send (.bytes (s.dpaRead a n)))
    | .write bs => .next (s.dpaWrite a bs)
    | .fetchAdd v =>
      if a % 8 ≠ 0 || s.dataError a true then none_
      else .next ((s.send (.bytes (s.dpaRead a 8))).homeRmw ⟨a, a, 0, false⟩ 8 fun m => (m + v.toNat) % 2 ^ 64)

end Sys2Proof.Machine
end

