-- ==== Sys2Proof/Machine/Commands.lean ====
section
/-! DEFINITION. The commands of the control block (R367): registration of queues (R262) and arenas (R290), vacating cores (R115, R220,
R221, R233). -/

namespace Sys2Proof.Machine

/-! ### Queues (R262) -/

/-- Whether every page of a range of a world's memory translates with R and W (fuel: 64 KiB pages). -/
def State.mapsRW (s : State) (w va n : Nat) : Bool :=
  (upto ((va % 65536 + n + 65535) / 65536)).all fun i =>
    let a := if i = 0 then va else va / 65536 * 65536 + 65536 * i
    let ok (k : AKind) : Bool := match (s.engAddr 208 w k a).2 with
      | .ok _ => true
      | .error _ => false
    ok .load && ok .store

/-- The STAT code of a registration (Table 14.3). -/
def State.queueStat (s : State) (hdr ring cring w cfg : Nat) (dom : Nat) : Stat :=
  let n := 2 ^ bits cfg 23 16
  let q := cfg % 2 ^ 12
  let eng := bitAt cfg 14
  if (s.queue (.mem q)).isSome || !(s.world w).live then .badState
  else if hdr % 256 ≠ 0 || ring % 64 ≠ 0 || cring % 32 ≠ 0 || bits cfg 23 16 < 4 || 16 < bits cfg 23 16
      || (!eng && 191 < bits cfg 31 24) || bits cfg 13 12 ≠ 0 || q = 4095 || 65536 ≤ dom then .range
  else if !(s.mapsRW w hdr 256 && s.mapsRW w ring (64 * n) && s.mapsRW w cring (32 * n)) then .range
  else .ok

/-- The header and the stamps as registration writes them, and the queue's record. -/
def State.registerQueue (s : State) (hdr ring cring w cfg dom : Nat) : State :=
  let eng := bitAt cfg 14
  let bind := if eng then dom else bits cfg 31 24
  let put (s : State) (a : Nat) (bs : List Byte) : State := (s.devWrite 208 w a bs).1
  let s := put s hdr (natLe 8 0)
  let s := put s (hdr + 0x40) (natLe 8 0)
  let s := put s (hdr + 0x80) (natLe 8 0)
  let s := put s (hdr + 0xC0) (natLe 8 ring ++ natLe 8 cring ++ natLe 4 (cfg % 2 ^ 24) ++ natLe 4 bind ++ List.replicate 40 0)
  let s := (upto (2 ^ bits cfg 23 16)).foldl (fun s i => put s (ring + 64 * i + 0x38) (natLe 8 0)) s
  let q : QId := .mem (cfg % 2 ^ 12)
  let x : BQueue := { BQueue.init q w bind with sys := bitAt cfg 15, eng := eng, hdr := hdr, ring := ring, cring := cring, log2n := bits cfg 23 16 }
  { s with queues := mset s.queues (qKey q) x }

/-- R262, R367. Registers a memory queue. -/
def execQcmdRegister (s : State) : Out :=
  let c := (s.ctlReg 0x10).toNat
  if s.stat 0x10 ≠ 0xFF || bits c 9 8 ≠ 1 then .next s
  else
    let r (o : Nat) : Nat := (s.ctlReg o).toNat
    let w := bits (r 0x08) 63 56
    let cfg := r 0x08 % 2 ^ 32
    let dom := bits c 63 48
    let st := s.queueStat (r 0) (r 0x88) (r 0x90) w cfg dom
    let s := if st = .ok then s.registerQueue (r 0) (r 0x88) (r 0x90) w cfg dom else s
    .next (s.setStat 0x10 st.code)

/-- R367. Unregisters a memory queue: it consumes no further slot, and its operations complete. -/
def execQcmdUnregister (s : State) : Out :=
  if s.stat 0x10 ≠ 0xFF || bits (s.ctlReg 0x10).toNat 9 8 ≠ 2 then .next s
  else
    let q : QId := .mem ((s.ctlReg 0x08).toNat % 2 ^ 12)
    match s.queue q with
    | none => .next (s.setStat 0x10 2)
    | some x =>
      if x.closed || !(s.world (bits (s.ctlReg 0x08).toNat 63 56)).live then .next (s.setStat 0x10 2)
      else
        let s := s.updQ q fun x => { x with closed := true }
        .next ({ s with queues := s.queues.filter fun e => !(e.2.closed && e.2.ops.isEmpty) }.setStat 0x10 0)

/-! ### Arenas (R290) -/

/-- R367. Registers a world's KV arena. -/
def execArenaRegister (s : State) : Out :=
  let a := (s.ctlReg 0x18).toNat
  let w := bits (s.ctlReg 0x20).toNat 15 8
  if s.stat 0x20 ≠ 0xFF || a = 0 then .next s
  else if !(s.world w).live then .next (s.setStat 0x20 2)
  else if a % 4096 ≠ 0 || (s.dpaFault a 4096).isSome then .next (s.setStat 0x20 3)
  else .next ({ s with arenas := mset s.arenas w a }.setStat 0x20 0)

/-- R367. Unregisters a world's KV arena: BUSY while a run of the world is in flight. -/
def execArenaUnregister (s : State) : Out :=
  let w := bits (s.ctlReg 0x20).toNat 15 8
  if s.stat 0x20 ≠ 0xFF || s.ctlReg 0x18 ≠ 0 then .next s
  else if many (fun _ (a : Asq) => a.runs.any fun r => r.who.world = w) s.asqs then .next (s.setStat 0x20 1)
  else .next ({ s with arenas := mdel s.arenas w }.setStat 0x20 0)

/-! ### Vacating cores (R220) -/

/-- The cores the masks name. -/
def State.maskCores (s : State) : List Nat := (upto 192).filter fun c => bitAt (s.ctlReg (0x28 + 8 * (c / 64))).toNat (c % 64)

/-- The wake records a bench is saved with (R221): each node holds 64, and a generation that is complete fires at once. -/
def State.wakesOf (s : State) (b : Bench) : List Wake :=
  let waits : List (Node × Nat × Nat) := (b.threads.filterMap fun e => match e.2.wait with
    | .barrier .device _ _ => none
    | .barrier nd i g => some (nd, i, g)
    | _ => none).dedup
  waits.foldl (fun ws (nd, i, g) =>
    if ((s.wakes ++ ws).filter fun w => w.node = nd).length < 64 then ws ++ [⟨nd, i, g, b.place, decide ((s.slot nd i).gen ≠ g)⟩]
    else ws) []

/-- A bench that a vacation saves now: of a pinned task that is not committing, with nothing that waits for an answer. -/
def State.savable (s : State) (b : Bench) : Bool :=
  s.vacated.contains (coreIx b.place) && b.threads.all (fun e => !e.2.out.any Pend.isAwait) &&
    match s.task? b.task with
    | some t => t.pinned && (t.state = .running || t.state = .stopped || t.state = .saved)
    | none => false

/-- Saves a bench whole (R115): its results return first, and its prefix state goes into `repc` and `gspan` (R63); of its watchdog, the
clocks it has idled are kept (R368). A RUNNING task all of whose benches are saved is SAVED; a STOPPED one stays STOPPED (Table 8.5). -/
def State.saveBench (s : State) (b : Bench) : State :=
  let s := (b.threads.map Prod.fst).foldl (fun s l => s.settleLane b.place l) s
  match s.bench? b.place with
  | none => s
  | some b =>
    let ws := s.wakesOf b
    let s := { s with benches := s.benches.filter fun x => x.place ≠ b.place,
                      saved := s.saved ++ [{ b.mapThreads fun _ t => t.savePrefix with active := false, lastIssue := s.cycle - b.lastIssue }],
                      wakes := s.wakes ++ ws }
    if s.benches.any fun x => x.task = b.task then s
    else s.updTask b.task fun t => if t.state = .running then { t with state := .saved } else t

/-- Saves every bench on vacated cores that can be saved: those parked at a barrier first. -/
def State.saveBenches (s : State) : State :=
  let at_ (b : Bench) : Bool := b.threads.any fun e => match e.2.wait with
    | .barrier _ _ _ => true
    | _ => false
  let bs := s.benches.filter s.savable
  (bs.filter at_ ++ bs.filter fun b => !at_ b).foldl State.saveBench s

/-- R220. Starts vacating cores: unpinned tasks with a bench there are discarded and requeued, pinned tasks' benches are saved; line
buffers of queues bound there are emptied (R274). -/
def execVcmdVacate (s : State) : Out :=
  let c := s.maskCores
  if s.stat 0x40 ≠ 0xFF || bits (s.ctlReg 0x40).toNat 9 8 ≠ 1 || c.all s.vacated.contains then .next s
  else
    let empty (x : BQueue) : BQueue := if !x.eng && c.contains x.bind then { x with lbuf := [] } else x
    let s := { s with vacated := c.foldl insertNat s.vacated, queues := mmap (fun _ x => empty x) s.queues }
    let ks := (s.tasks.filter fun p => p.2.state = .running && !p.2.pinned
      && s.benches.any fun b => b.task = p.1 && s.vacated.contains (coreIx b.place)).map Prod.fst
    .next (ks.foldl (fun s k => s.abandon k .ready) s).saveBenches

/-- The state of a saved claimant's matrix unit leaves with its benches once its commands are done (R233). -/
def State.saveMx (s : State) (i : Nat) : State :=
  let x := s.mxu i
  match x.claim with
  | none => s
  | some k =>
    if !x.queue.isEmpty || s.benches.any (fun b => b.task = k && drawerOf b.place = some i) || !s.saved.any (fun b => b.task = k) then s
    else
      { (s.updMxu i fun x => { x with claim := none }) with
        msaves := ⟨k, i, x.data, x.status, x.pseq⟩ :: s.msaves.filter fun m => !(m.task = k && m.mx = i) }

/-- Whether a core holds nothing any more (R220, step 6). -/
def State.coreClear (s : State) (c : Nat) : Bool :=
  s.benches.all (fun b => coreIx b.place ≠ c) && (upto 8).all (fun d => (s.mxu (mxIx c d)).queue.isEmpty && (s.mxu (mxIx c d)).claim.isNone)
    && s.queues.all (fun q => q.2.ops.all fun o => o.core ≠ c) && (s.asq c).runs.isEmpty

/-- R220. The vacation goes on, and is complete when the cores hold no bench state and no engine operation: VSTAT 0 and VACATED. -/
def execVacationComplete (s : State) : Out :=
  let c := s.maskCores
  if s.stat 0x40 ≠ 0xFF || bits (s.ctlReg 0x40).toNat 9 8 ≠ 1 || !c.all s.vacated.contains then .next s
  else
    let s := c.foldl (fun s c => (upto 8).foldl (fun s d => s.saveMx (mxIx c d)) s) s.saveBenches
    .next (if c.all s.coreClear then (s.setStat 0x40 0).post 0 0 7 0 0 0 0 none else s)

/-- R220. Returns vacated cores. -/
def execVcmdReturn (s : State) : Out :=
  if s.stat 0x40 ≠ 0xFF || bits (s.ctlReg 0x40).toNat 9 8 ≠ 2 then .next s
  else
    let c := s.maskCores
    .next ({ s with vacated := s.vacated.filter fun x => !c.contains x }.setStat 0x40 0)

end Sys2Proof.Machine
end

