-- ==== Sys2Proof/Machine/BootUp.lean ====
section
/-! DEFINITION. Boot and measurement (R364, R365, R388, R389), and the start of the package kernel (R363). -/

namespace Sys2Proof.Machine

/-- Bytes placed in memory before anything runs. -/
def State.placeBytes (s : State) (a : Nat) (bs : List Byte) : State :=
  let n := bs.length
  let new := (((upto n).zip bs).map fun e => (a + e.1, e.2)).filter fun e => e.2 ≠ 0
  { s with mem := (s.mem.filter fun e => e.1 < a) ++ new ++ s.mem.filter fun e => a + n ≤ e.1,
           written := (upto ((a % 4096 + n + 4095) / 4096)).foldl (fun m i => insertNat m (a / 4096 + i)) s.written }

/-- World 0's root, and its two L2 tables (R388). -/
def bootRoot : Nat := 0xBFFFFD0000
def bootL2 (i : Nat) : Nat := 0xBFFFFE0000 + 0x10000 * i
/-- A 1 GiB leaf (Table 7.6): address, permission bits, lease. -/
def leaf1G (g perm lid : Nat) : Nat := lid * 2 ^ 52 + g * gib + perm
/-- Entry `i` of the L2 table for WVA[55:43] = `t` (Table 14.12). -/
def bootEntry (t i : Nat) : Nat :=
  if t = 1 then (if i < 1024 then leaf1G (8192 + i) 0x1F 0 else 0)
  else if i < 768 then leaf1G i 0x3F 0
  else if 1024 ≤ i && i < 3072 then leaf1G i 0x3F 0
  else if 4097 ≤ i && i < 8192 then leaf1G i 0x1F (i - 4096)
  else 0
/-- The three tables as bytes. -/
def bootTables : List Byte :=
  (natLe 8 (bootL2 0 + 1) ++ natLe 8 (bootL2 1 + 1) ++ List.replicate 65520 0)
    ++ (upto 8192).flatMap (fun i => natLe 8 (bootEntry 0 i)) ++ (upto 8192).flatMap fun i => natLe 8 (bootEntry 1 i)

/-- A field of the image header (Table 14.13). -/
def hdrField (image : List Byte) (o n : Nat) : Nat := leNat ((image.drop o).take n)

/-- Whether the image header passes the checks of R389. -/
def imageOk (image : List Byte) : Bool :=
  let f := hdrField image
  let load := f 8 8
  let size := f 0x10 8
  let entry := f 0x18 8
  let foot := f 0x20 4
  f 0 4 == 0x4B505A4B && f 4 4 == 1 && f 0x24 28 == 0 && bits foot 31 30 == 0 && !bitAt foot 23 && bits foot 15 8 == 0
    && load % 65536 == 0 && decide (64 ≤ size) && decide (size ≤ image.length) && decide (load + size ≤ bootRoot)
    && decide (load ≤ entry) && decide (entry < load + size) && entry % 4 == 0
    && decide (1 ≤ bits foot 22 16) && decide (bits foot 22 16 ≤ 64) && decide (bits foot 29 24 ≤ 48) && decide (foot % 256 ≤ 128)

/-- The package kernel's task of a steward: its one region is the whole address space, and it is pinned (log entry 31). -/
def kernelTask (k : Nat) (d : Desc) (snap : Nat) : Task :=
  { id := 2 ^ 31 + k, world := 0, desc := d, regions := [⟨0, 2 ^ 56, true, true⟩], tl := [], sub := none, stw := some k, state := .running,
    deps := [], war := [], snap := snap, ver := [], vtags := [], vloc := [], vout := [], pinned := true, held := false, snapLost := false, clu := 48 + k / 4,
    cores := [192 + k], coreSlots := [], cluSlots := [], grp := 0, areas := [], spw := [], bqs := [], hist := [],
    run := 2 ^ 31 + k, preds := [], commitHeld := false, passed := 0, acc := 0 }

/-- Starts the package kernel on steward `k` (R363): v0 holds `k`, s0:s1 the address of the image header. -/
def State.startKernel (s : State) (load entry foot : Nat) (k : Nat) : State :=
  let d : Desc :=
    { entry := BitVec.ofNat 64 entry, param := BitVec.ofNat 64 load, nthr := 1, vreg := bits foot 22 16, sreg := bits foot 29 24,
      preg := foot % 256, quota := 0, nreg := 1, pcls := 0, rtab := 0, nlb := 0, ncb := 0, domain := 0, user := 0, tltab := 0, done := 0 }
  let t := Thread.start d.entry 0 0 0 0 s.epoch
  let b := Bench.start (.steward k 0) (2 ^ 31 + k) 0 d s.cycle [(0, { t with vregs := mput 0 [] 0 (BitVec.ofNat 32 k) })]
  { s with tasks := mset s.tasks (2 ^ 31 + k) (kernelTask k d s.epoch), benches := s.benches ++ [b] }

def State.setBoot (s : State) (b : Boot) : State := { s with hub := { s.hub with boot := b } }

/-- Step 5 of boot: the image at LOAD, world 0's tables and root, the package kernel on stewards 1 to 15. -/
def State.bootKernel (s : State) : State :=
  let im := s.hub.flash.image
  let f := hdrField im
  let s := (s.placeBytes (f 8 8) (im.take (f 0x10 8))).placeBytes bootRoot bootTables
  let s := s.setWorld 0 { s.world 0 with root := bootRoot }
  let s := ((upto 15).map (· + 1)).foldl (fun s k => s.startKernel (f 8 8) (f 0x18 8) (f 0x20 4) k) s
  (s.putBull 2 (BitVec.ofNat 64 s.incarn)).setBoot .running

/-- R364. Boot runs the steps of Table 14.1; a step that fails halts it. The training record that step 4 measures ends with H (R328; log
entry 20). -/
def execBoot (s : State) : Out :=
  if s.hub.boot ≠ .reset then .next s
  else
    let fl := s.hub.flash
    let n := (s.crec 0).value + 1
    let s := (s.setRec 0 { s.crec 0 with value := n }).updTrt fun t => { t with incarn := n }
    if !Config.firmwareSigned fl.trt then .next (s.setBoot .halted)
    else
      let s := s.extend 0 (sha384 fl.trt)
      if !Config.firmwareSigned fl.bureau then .next (s.setBoot .halted)
      else
        let s := s.extend 1 (sha384 fl.bureau)
        if !imageOk fl.image then .next (s.setBoot .halted)
        else
          let s := s.extend 2 (sha384 (fl.image.take (hdrField fl.image 0x10 8)))
          if fl.hext = 0 || 1024 < fl.hext then .next (s.setBoot .halted)
          else .next (s.extend 3 (sha384 (fl.train ++ natLe 4 fl.hext))).bootKernel

end Sys2Proof.Machine
end

