-- ==== Sys2Proof/Machine/Compare.lean ====
section
/-! DEFINITION. Group G7: compares and predicates (R155 to R157). -/

namespace Sys2Proof.Machine

/-- A predicate operation (R157). -/
def predOp (d a b : BitVec 7) (f : Bool → Bool → Bool) (s : State) : Out :=
  issue s [rP a, rP b, wP d] [] fun g s l => match s.thread? g.place l with
    | some t => .done (s.out g.place l [.pred d.toNat (f (t.p a.toNat) (t.p b.toNat))])
    | none => .done s

/-- R155. Writes a = b to a predicate. -/
def execIseteq (m : OpMode) (d a b : BitVec 7) (s : State) : Out :=
  compare m d a b (fun _ x y => (x == y, 0)) s

/-- R155. Writes a != b to a predicate. -/
def execIsetne (m : OpMode) (d a b : BitVec 7) (s : State) : Out :=
  compare m d a b (fun _ x y => (x != y, 0)) s

/-- R155. Signed less-than compare. -/
def execIsetlt (m : OpMode) (d a b : BitVec 7) (s : State) : Out :=
  compare m d a b (fun _ x y => (x.slt y, 0)) s

/-- R155. Signed less-or-equal compare. -/
def execIsetle (m : OpMode) (d a b : BitVec 7) (s : State) : Out :=
  compare m d a b (fun _ x y => (x.sle y, 0)) s

/-- R155. Unsigned less-than compare. -/
def execIsetltu (m : OpMode) (d a b : BitVec 7) (s : State) : Out :=
  compare m d a b (fun _ x y => (x.ult y, 0)) s

/-- R155. Unsigned less-or-equal compare. -/
def execIsetleu (m : OpMode) (d a b : BitVec 7) (s : State) : Out :=
  compare m d a b (fun _ x y => (x.ule y, 0)) s

/-- R156. FP32 equality compare. -/
def execFseteq (m : OpMode) (d a b : BitVec 7) (s : State) : Out :=
  compare m d a b (fcmpX false (noNan fun x y => x.cmp y = 0)) s

/-- R156. FP32 inequality compare. -/
def execFsetne (m : OpMode) (d a b : BitVec 7) (s : State) : Out :=
  compare m d a b (fcmpX false (fun x y => !(noNan (fun x y => x.cmp y = 0) x y))) s

/-- R156. FP32 less-than compare. -/
def execFsetlt (m : OpMode) (d a b : BitVec 7) (s : State) : Out :=
  compare m d a b (fcmpX true (noNan fun x y => x.cmp y < 0)) s

/-- R156. FP32 less-or-equal compare. -/
def execFsetle (m : OpMode) (d a b : BitVec 7) (s : State) : Out :=
  compare m d a b (fcmpX true (noNan fun x y => x.cmp y ≤ 0)) s

/-- R156. FP32 unordered test. -/
def execFsetun (m : OpMode) (d a b : BitVec 7) (s : State) : Out :=
  compare m d a b (fun _ x y => ((dec32 x).isNan || (dec32 y).isNan, 0)) s

/-- R157. Predicate AND. -/
def execPand (d a b : BitVec 7) (s : State) : Out :=
  predOp d a b (fun x y => x && y) s

/-- R157. Predicate OR. -/
def execPor (d a b : BitVec 7) (s : State) : Out :=
  predOp d a b (fun x y => x || y) s

/-- R157. Predicate XOR. -/
def execPxor (d a b : BitVec 7) (s : State) : Out :=
  predOp d a b (fun x y => x != y) s

/-- R157. Predicate AND-NOT. -/
def execPandn (d a b : BitVec 7) (s : State) : Out :=
  predOp d a b (fun x y => x && !y) s

/-- R157. Writes a predicate as 0 or 1 to a vector register. -/
def execPtov (d a : BitVec 7) (s : State) : Out :=
  issue s [rP a, wV d] [] fun g s l => match s.thread? g.place l with
    | some t => .done (s.outV g.place l d [if t.p a.toNat then 1 else 0])
    | none => .done s

end Sys2Proof.Machine
end

