-- ==== Sys2Proof/Machine/Convert.lean ====
section
/-! DEFINITION. Groups G5 and G6: conversions and the quantiser instructions (R136 to R146), special functions (R147 to R154). -/

namespace Sys2Proof.Machine

/-- The format byte a QPICK immediate names (R144). -/
def qpickFmt (i : BitVec 7) : Nat := if i.toNat < 64 then i.toNat else 0x80 + i.toNat / 16 % 4 * 32 + i.toNat % 8

/-- R136. Converts between floating-point formats. -/
def execCvtff (u : Bool) (d a : BitVec 7) (x y : BitVec 2) (m : BitVec 3) (s : State) : Out :=
  alu (modeU u) (opT1 d a) (cvtff x.toNat y.toNat m.toNat) s

/-- R137. Converts FP32 to an integer with saturation. -/
def execCvtfi (u : Bool) (d a : BitVec 7) (y : BitVec 2) (m : BitVec 3) (s : State) : Out :=
  alu (modeU u) (opT1 d a) (cvtfi y.toNat m.toNat) s

/-- R138. Converts an integer to a floating-point format. -/
def execCvtif (u : Bool) (d a : BitVec 7) (y : BitVec 2) (g : Bool) (m : BitVec 3) (s : State) : Out :=
  alu (modeU u) (opT1 d a) (cvtif y.toNat g m.toNat) s

/-- R139. Saturates an integer to another width or signedness. -/
def execCvtii (u : Bool) (d a : BitVec 7) (w : BitVec 2) (t v : Bool) (s : State) : Out :=
  alu (modeU u) (opT1 d a) (cvtii w.toNat t v) s

/-- R140. Packs four FP32 values into binary8 codes. -/
def execPackb8 (m : OpMode) (d a b : BitVec 7) (s : State) : Out :=
  alu m ⟨d, 1, some a, 4, some b, false⟩ packb8 s

/-- R141. Decodes one binary8 code to FP32. -/
def execUnpkb8 (u : Bool) (d a : BitVec 7) (p : BitVec 3) (e x : Bool) (j : BitVec 2) (s : State) : Out :=
  alu (modeU u) (opT1 d a) (unpkb8 p.toNat e x j.toNat) s

/-- R142. Packs eight bytes into saturated INT4 elements. -/
def execPacki4 (m : OpMode) (d a b : BitVec 7) (s : State) : Out :=
  alu m (opT d a b) packi4 s

/-- R142. Extracts one 4-bit element. -/
def execUnpki4 (u : Bool) (d a : BitVec 7) (x : Bool) (j : BitVec 3) (s : State) : Out :=
  alu (modeU u) (opT1 d a) (unpki4 x j.toNat) s

/-- R143. Absolute maximum over the issue group. -/
def execQmaxb (d a : BitVec 7) (s : State) : Out :=
  cross [rV a, wV d] (fun _ _ ts =>
    let x := enc32 (absMax (ts.map fun (_, t) => dec32 (t.v a.toNat)))
    ts.map fun (l, t) => (l, [.vec (t.wb + d.toNat) x], id)) s

/-- R144. Computes the block tag of the quantiser rule for 64 values. The zeros of lanes that do not execute, and the repeats of the
uniform pair, are left out of the sum: an element 0.0 adds no error (R99), and 32 equal copies scale every candidate's error alike. -/
def execQpick (u : Bool) (d a i : BitVec 7) (s : State) : Out :=
  match elemOf (qpickFmt i) with
  | none => issue s [] [] fun _ s _ => .done s
  | some f =>
    let word (xs : List Fp) : Word := BitVec.ofNat 32 (qpickFmt i * 256 + pickScale f xs)
    if u then alu .u ⟨d, 1, some a, 2, none, false⟩ (fun _ ws =>
        .word (word (ws.map dec32))) s
    else cross [rV a 2, wV d] (fun _ _ ts =>
        let x := word (ts.flatMap fun (_, t) => (t.vs a 2).map dec32)
        ts.map fun (l, t) => (l, [.vec (t.wb + d.toNat) x], id)) s

/-- R145. Returns a stochastic-rounding draw. -/
def execSrnd (u : Bool) (d i : BitVec 7) (s : State) : Out :=
  alu (modeU u) (opD d false) (fun e _ => ⟨[BitVec.ofNat 32 (e.draw i.toNat)], 0, true, none⟩) s

/-- R146. Returns the unbiased exponent of an FP32 value. -/
def execFexp (u : Bool) (d a : BitVec 7) (s : State) : Out :=
  alu (modeU u) (opT1 d a) (i1 fexpW) s

/-- R149. Table-based reciprocal. -/
def execRcp (u : Bool) (d a : BitVec 7) (s : State) : Out :=
  alu (modeU u) (opT1 d a) (sfu rcpFp) s

/-- R149. Table-based reciprocal square root. -/
def execRsq (u : Bool) (d a : BitVec 7) (s : State) : Out :=
  alu (modeU u) (opT1 d a) (sfu rsqFp) s

/-- R150. Correctly rounded square root. -/
def execSqrt (u : Bool) (d a : BitVec 7) (s : State) : Out :=
  alu (modeU u) (opT1 d a) (sqrtF) s

/-- R151. Base-2 exponential on the exponent engine. -/
def execEx2 (u : Bool) (d a : BitVec 7) (s : State) : Out :=
  alu (modeU u) (opT1 d a) (sfu ex2Fp) s

/-- R149. Base-2 logarithm. -/
def execLg2 (u : Bool) (d a : BitVec 7) (s : State) : Out :=
  alu (modeU u) (opT1 d a) (sfu lg2Fp) s

/-- R152. Sine of pi times x. -/
def execSinpi (u : Bool) (d a : BitVec 7) (s : State) : Out :=
  alu (modeU u) (opT1 d a) (sfu sinpiFp) s

/-- R152. Cosine of pi times x. -/
def execCospi (u : Bool) (d a : BitVec 7) (s : State) : Out :=
  alu (modeU u) (opT1 d a) (sfu cospiFp) s

/-- R153. Hyperbolic tangent. -/
def execTanh (u : Bool) (d a : BitVec 7) (s : State) : Out :=
  alu (modeU u) (opT1 d a) (sfu tanhFp) s

/-- R154. Reciprocal of two FP16 elements. -/
def execRcph (u : Bool) (d a : BitVec 7) (s : State) : Out :=
  alu (modeU u) (opT1 d a) (sfuH rcpFp) s

/-- R154. Base-2 exponential of two FP16 elements. -/
def execEx2h (u : Bool) (d a : BitVec 7) (s : State) : Out :=
  alu (modeU u) (opT1 d a) (sfuH ex2Fp) s

end Sys2Proof.Machine
end

