-- ==== Sys2Proof/Machine/Cross.lean ====
section
/-! DEFINITION. Group G8: cross-lane operations over the participating set (R158 to R162). On a steward the set is at most the one lane. -/

namespace Sys2Proof.Machine

/-- A result for each lane of the set. -/
def each (ts : List (Nat × Thread)) (f : Nat → Thread → List Pend) : List (Nat × List Pend × (Thread → Thread)) :=
  ts.map fun (l, t) => (l, f l t, id)

/-- The mask of a set of lanes (R160). -/
def laneMask (ts : List (Nat × Thread)) : Word := ts.foldl (fun m (l, _) => m ||| BitVec.ofNat 32 (2 ^ l)) 0
def lowest (ts : List (Nat × Thread)) : Nat := match ts with
  | (l, _) :: _ => l
  | [] => 0

/-- A shuffle (R159): the source lane's a, or the lane's own where the source is outside the set. -/
def shuffle (ops : List Opnd) (d a : BitVec 7) (src : Thread → Nat → Option Nat) (s : State) : Out :=
  cross ops (fun _ _ ts => each ts fun l t =>
    let own := t.v a.toNat
    let x := match src t l with
      | some k => match ts.find? fun p => p.1 = k with
        | some (_, t') => t'.v a.toNat
        | none => own
      | none => own
    [.vec (t.wb + d.toNat) x]) s

def sumI (a : BitVec 7) (ts : List (Nat × Thread)) : Word := ts.foldl (fun x (_, t) => x + t.v a.toNat) 0

/-- Lands values into a deep accumulator as products with 1 (R161): the accumulator and its flags. NaNs arising from
opposite infinities, and signalling NaNs, set NV. Lanes land in ascending order, which shows where a sum saturates, or NaNs and infinities
meet, and which R96 leaves open (DESIGN CHOICE, log entry 119). -/
def landAll (xs : List Fp) : Deep × Nat :=
  xs.foldl (fun (acc : Deep × Nat) x =>
    let (y, fl) := landP acc.1 x (.ofInt 1) 0
    let nv := x.isSig || (y.cls = .nan && acc.1.cls ≠ .nan && !x.isNan)
    (y, acc.2 ||| fl ||| inv nv)) (⟨0, .fin⟩, 0)

/-- REDSUMF and SCANSUMF (R161): the exact sum over the lanes `sel` picks, rounded once. -/
def crossF (a d : BitVec 7) (sel : Nat → List (Nat × Thread) → List (Nat × Thread)) (s : State) : Out :=
  cross [rV a, wV d] (fun s g ts =>
    ts.map fun (l, t) =>
      let (x, fl) := landAll ((sel l ts).map fun (_, t) => dec32 (t.v a.toNat))
      let k := match s.bench? g.place with
        | some b => b.task
        | none => 0
      let rm := rmOf (fpcRm t.fpc) (fpcRm t.fpc)
      let r := if rm = .sr then srDraw t.srseed k (srTerm t.tid t.srseq 0) else 0
      let (z, fl') := roundTo fmt32 rm r x.fp
      (l, .vec (t.wb + d.toNat) (enc32 z) :: flagPend (fl ||| fl'), srBump (rm = .sr))) s

/-- R159. Indexed lane shuffle. -/
def execShfli (d a b : BitVec 7) (s : State) : Out :=
  shuffle [rV a, rV b, wV d] d a (fun t _ => some ((t.v b.toNat).toNat % 32)) s

/-- R159. Shuffle from lane l minus k. -/
def execShflu (d a k : BitVec 7) (s : State) : Out :=
  shuffle [rV a, wV d] d a (fun _ l => if k.toNat ≤ l then some (l - k.toNat) else none) s

/-- R159. Shuffle from lane l plus k. -/
def execShfld (d a k : BitVec 7) (s : State) : Out :=
  shuffle [rV a, wV d] d a (fun _ l => some (l + k.toNat)) s

/-- R159. Shuffle from lane l xor k. -/
def execShflx (d a k : BitVec 7) (s : State) : Out :=
  shuffle [rV a, wV d] d a (fun _ l => some (l ^^^ k.toNat)) s

/-- R159. Broadcasts lane k's value. -/
def execRdlane (d a k : BitVec 7) (s : State) : Out :=
  shuffle [rV a, wV d] d a (fun _ _ => some k.toNat) s

/-- R160. Vote: predicate true in every participating lane. -/
def execVall (d a : BitVec 7) (s : State) : Out :=
  cross [rP a, wP d] (fun _ _ ts => each ts fun _ _ => ([.pred d.toNat (ts.all fun (_, t) => t.p a.toNat)])) s

/-- R160. Vote: predicate true in some participating lane. -/
def execVany (d a : BitVec 7) (s : State) : Out :=
  cross [rP a, wP d] (fun _ _ ts => each ts fun _ _ => ([.pred d.toNat (ts.any fun (_, t) => t.p a.toNat)])) s

/-- R160. Ballot mask of a predicate. -/
def execVbal (d a : BitVec 7) (s : State) : Out :=
  cross [rP a, wV d] (fun _ _ ts => each ts fun _ t =>
    [.vec (t.wb + d.toNat) (laneMask (ts.filter fun (_, t) => t.p a.toNat))]) s

/-- R160. Mask of lanes with an equal value. -/
def execVmatch (d a : BitVec 7) (s : State) : Out :=
  cross [rV a, wV d] (fun _ _ ts => each ts fun _ t =>
    [.vec (t.wb + d.toNat) (laneMask (ts.filter fun (_, t') => t'.v a.toNat = t.v a.toNat))]) s

/-- R160. Sets the predicate true only in the lowest participating lane. -/
def execElect (d : BitVec 7) (s : State) : Out :=
  cross [wP d] (fun _ _ ts => each ts fun l _ => [.pred d.toNat (lowest ts = l)]) s

/-- R160. Writes the mask of participating lanes. -/
def execBmask (d : BitVec 7) (s : State) : Out :=
  cross [wV d] (fun _ _ ts => each ts fun _ t => [.vec (t.wb + d.toNat) (laneMask ts)]) s

/-- R161. Integer sum over participating lanes. -/
def execRedsumi (d a : BitVec 7) (s : State) : Out :=
  cross [rV a, wV d] (fun _ _ ts => each ts fun _ t =>
    [.vec (t.wb + d.toNat) (sumI a ts)]) s

/-- R161. Inclusive integer prefix sum. -/
def execScansumi (d a : BitVec 7) (s : State) : Out :=
  cross [rV a, wV d] (fun _ _ ts => each ts fun l t =>
    [.vec (t.wb + d.toNat) (sumI a (ts.filter fun (k, _) => k ≤ l))]) s

/-- R161. Exact FP32 sum over lanes rounded once. -/
def execRedsumf (d a : BitVec 7) (s : State) : Out :=
  crossF a d (fun _ ts => ts) s

/-- R161. Inclusive exact FP32 prefix sum. -/
def execScansumf (d a : BitVec 7) (s : State) : Out :=
  crossF a d (fun l ts => ts.filter fun (k, _) => k ≤ l) s

end Sys2Proof.Machine
end

