-- ==== Sys2Proof/Machine/Fp32.lean ====
section
/-! DEFINITION. Groups G3 and G4: FP32 arithmetic (R128 to R131) and packed and narrow arithmetic (R132 to R135). -/

namespace Sys2Proof.Machine

/-- R128. FP32 addition rounded by fpc.RM. -/
def execFadd (m : OpMode) (d a b : BitVec 7) (s : State) : Out :=
  alu m (opT d a b) (f2 addX) s

/-- R128. FP32 subtraction. -/
def execFsub (m : OpMode) (d a b : BitVec 7) (s : State) : Out :=
  alu m (opT d a b) (f2 fun e x y => addX e x y.negate) s

/-- R128. FP32 multiplication. -/
def execFmul (m : OpMode) (d a b : BitVec 7) (s : State) : Out :=
  alu m (opT d a b) (f2 fun _ => mulX) s

/-- R128. FP32 fused multiply-add with one rounding. -/
def execFfma (m : OpMode) (d a b : BitVec 7) (s : State) : Out :=
  alu m (opT3 d a b) (f3 fmaX) s

/-- R128. FP32 fused multiply-subtract. -/
def execFfms (m : OpMode) (d a b : BitVec 7) (s : State) : Out :=
  alu m (opT3 d a b) (f3 fun e x y z => fmaX e x y z.negate) s

/-- R129. FP32 minimum, NaN if either input is NaN. -/
def execFmin (m : OpMode) (d a b : BitVec 7) (s : State) : Out :=
  alu m (opT d a b) (fmm false false) s

/-- R129. FP32 maximum, NaN if either input is NaN. -/
def execFmax (m : OpMode) (d a b : BitVec 7) (s : State) : Out :=
  alu m (opT d a b) (fmm true false) s

/-- R129. FP32 minimum ignoring a single NaN. -/
def execFminn (m : OpMode) (d a b : BitVec 7) (s : State) : Out :=
  alu m (opT d a b) (fmm false true) s

/-- R129. FP32 maximum ignoring a single NaN. -/
def execFmaxn (m : OpMode) (d a b : BitVec 7) (s : State) : Out :=
  alu m (opT d a b) (fmm true true) s

/-- R128. Clears the sign bit. -/
def execFabs (u : Bool) (d a : BitVec 7) (s : State) : Out :=
  alu (modeU u) (opT1 d a) (i1 fun x => x &&& 0x7FFFFFFF#32) s

/-- R128. Inverts the sign bit. -/
def execFneg (u : Bool) (d a : BitVec 7) (s : State) : Out :=
  alu (modeU u) (opT1 d a) (i1 fun x => x ^^^ 0x80000000#32) s

/-- R128. Copies the sign of b onto a. -/
def execFcpys (m : OpMode) (d a b : BitVec 7) (s : State) : Out :=
  alu m (opT d a b) (i2 fun x y => (x &&& 0x7FFFFFFF#32) ||| (y &&& 0x80000000#32)) s

/-- R130. Rounds to an integral FP32 value by a given mode. -/
def execFrnd (u : Bool) (d a : BitVec 7) (m : BitVec 3) (s : State) : Out :=
  alu (modeU u) (opT1 d a) (frndX m.toNat) s

/-- R131. Writes a one-hot class mask of an FP32 value. -/
def execFclass (u : Bool) (d a : BitVec 7) (s : State) : Out :=
  alu (modeU u) (opT1 d a) (i1 fclassW) s

/-- R128. Multiplies by a power of two. -/
def execFscale (m : OpMode) (d a b : BitVec 7) (s : State) : Out :=
  alu m (opT d a b) (fscaleX) s

/-- R128. Correctly rounded FP32 division. -/
def execFdiv (m : OpMode) (d a b : BitVec 7) (s : State) : Out :=
  alu m (opT d a b) (f2 fun _ => divX) s

/-- R132. Packed FP16 addition. -/
def execHadd2 (m : OpMode) (d a b : BitVec 7) (s : State) : Out :=
  alu m (opT d a b) (pAdd cod16) s

/-- R132. Packed FP16 multiplication. -/
def execHmul2 (m : OpMode) (d a b : BitVec 7) (s : State) : Out :=
  alu m (opT d a b) (pMul cod16) s

/-- R132. Packed FP16 fused multiply-add. -/
def execHfma2 (m : OpMode) (d a b : BitVec 7) (s : State) : Out :=
  alu m (opT3 d a b) (pFma cod16) s

/-- R132. Packed FP16 minimum. -/
def execHmin2 (m : OpMode) (d a b : BitVec 7) (s : State) : Out :=
  alu m (opT d a b) (pMm cod16 false) s

/-- R132. Packed FP16 maximum. -/
def execHmax2 (m : OpMode) (d a b : BitVec 7) (s : State) : Out :=
  alu m (opT d a b) (pMm cod16 true) s

/-- R132. Packed BF16 addition. -/
def execBadd2 (m : OpMode) (d a b : BitVec 7) (s : State) : Out :=
  alu m (opT d a b) (pAdd codBf) s

/-- R132. Packed BF16 multiplication. -/
def execBmul2 (m : OpMode) (d a b : BitVec 7) (s : State) : Out :=
  alu m (opT d a b) (pMul codBf) s

/-- R132. Packed BF16 fused multiply-add. -/
def execBfma2 (m : OpMode) (d a b : BitVec 7) (s : State) : Out :=
  alu m (opT3 d a b) (pFma codBf) s

/-- R132. Packed BF16 minimum. -/
def execBmin2 (m : OpMode) (d a b : BitVec 7) (s : State) : Out :=
  alu m (opT d a b) (pMm codBf false) s

/-- R132. Packed BF16 maximum. -/
def execBmax2 (m : OpMode) (d a b : BitVec 7) (s : State) : Out :=
  alu m (opT d a b) (pMm codBf true) s

/-- R133. FP16 pair dot product accumulated into FP32. -/
def execHdot2 (m : OpMode) (d a b : BitVec 7) (s : State) : Out :=
  alu m (opT3 d a b) (dot2 cod16) s

/-- R133. BF16 pair dot product accumulated into FP32. -/
def execBdot2 (m : OpMode) (d a b : BitVec 7) (s : State) : Out :=
  alu m (opT3 d a b) (dot2 codBf) s

/-- R134. Four binary8 products accumulated into FP32. -/
def execQdot4 (m : OpMode) (d a b : BitVec 7) (s : State) : Out :=
  alu m (opT3 d a b) (qdot4) s

/-- R135. Signed byte dot product accumulation. -/
def execIdot4s (m : OpMode) (d a b : BitVec 7) (s : State) : Out :=
  alu m (opT3 d a b) (idot 8 4 true) s

/-- R135. Unsigned byte dot product accumulation. -/
def execIdot4u (m : OpMode) (d a b : BitVec 7) (s : State) : Out :=
  alu m (opT3 d a b) (idot 8 4 false) s

/-- R135. Signed INT4 dot product accumulation. -/
def execIdot8 (m : OpMode) (d a b : BitVec 7) (s : State) : Out :=
  alu m (opT3 d a b) (idot 4 8 true) s

end Sys2Proof.Machine
end

