-- ==== Sys2Proof/Machine/Dispatch.lean ====
section
/-! DEFINITION. The meaning of every instruction: one arm per constructor of `Instr`, in the order of the opcode table. -/

namespace Sys2Proof.Machine

def exec (i : Instr) (s : State) : Host.Outcome State Fault Refusal :=
  match i with
  | .iadd m d a b => Sys2Proof.Machine.execIadd m d a b s
  | .isub m d a b => Sys2Proof.Machine.execIsub m d a b s
  | .imul m d a b => Sys2Proof.Machine.execImul m d a b s
  | .imulhs m d a b => Sys2Proof.Machine.execImulhs m d a b s
  | .imulhu m d a b => Sys2Proof.Machine.execImulhu m d a b s
  | .imad m d a b => Sys2Proof.Machine.execImad m d a b s
  | .imulw m d a b => Sys2Proof.Machine.execImulw m d a b s
  | .iadd64 m d a b => Sys2Proof.Machine.execIadd64 m d a b s
  | .isub64 m d a b => Sys2Proof.Machine.execIsub64 m d a b s
  | .imins m d a b => Sys2Proof.Machine.execImins m d a b s
  | .iminu m d a b => Sys2Proof.Machine.execIminu m d a b s
  | .imaxs m d a b => Sys2Proof.Machine.execImaxs m d a b s
  | .imaxu m d a b => Sys2Proof.Machine.execImaxu m d a b s
  | .idivu m d a b => Sys2Proof.Machine.execIdivu m d a b s
  | .idivs m d a b => Sys2Proof.Machine.execIdivs m d a b s
  | .and m d a b => Sys2Proof.Machine.execAnd m d a b s
  | .or m d a b => Sys2Proof.Machine.execOr m d a b s
  | .xor m d a b => Sys2Proof.Machine.execXor m d a b s
  | .andn m d a b => Sys2Proof.Machine.execAndn m d a b s
  | .shl m d a b => Sys2Proof.Machine.execShl m d a b s
  | .shr m d a b => Sys2Proof.Machine.execShr m d a b s
  | .sar m d a b => Sys2Proof.Machine.execSar m d a b s
  | .rol m d a b => Sys2Proof.Machine.execRol m d a b s
  | .fshl m d a b => Sys2Proof.Machine.execFshl m d a b s
  | .fshr m d a b => Sys2Proof.Machine.execFshr m d a b s
  | .bfxu m d a b => Sys2Proof.Machine.execBfxu m d a b s
  | .bfxs m d a b => Sys2Proof.Machine.execBfxs m d a b s
  | .bfi m d a b => Sys2Proof.Machine.execBfi m d a b s
  | .popc u d a => Sys2Proof.Machine.execPopc u d a s
  | .clz u d a => Sys2Proof.Machine.execClz u d a s
  | .brev u d a => Sys2Proof.Machine.execBrev u d a s
  | .mov u d a => Sys2Proof.Machine.execMov u d a s
  | .movi u d i_ => Sys2Proof.Machine.execMovi u d i_ s
  | .movhi u d i_ => Sys2Proof.Machine.execMovhi u d i_ s
  | .ldi32 u d lit => Sys2Proof.Machine.execLdi32 u d lit s
  | .iaddi u d a i_ => Sys2Proof.Machine.execIaddi u d a i_ s
  | .imuli u d a i_ => Sys2Proof.Machine.execImuli u d a i_ s
  | .andi u d a i_ => Sys2Proof.Machine.execAndi u d a i_ s
  | .ori u d a i_ => Sys2Proof.Machine.execOri u d a i_ s
  | .xori u d a i_ => Sys2Proof.Machine.execXori u d a i_ s
  | .shli u d a i_ => Sys2Proof.Machine.execShli u d a i_ s
  | .shri u d a i_ => Sys2Proof.Machine.execShri u d a i_ s
  | .sari u d a i_ => Sys2Proof.Machine.execSari u d a i_ s
  | .lea4 u d a b => Sys2Proof.Machine.execLea4 u d a b s
  | .lea8 u d a b => Sys2Proof.Machine.execLea8 u d a b s
  | .csrr u d i_ => Sys2Proof.Machine.execCsrr u d i_ s
  | .csrw u d i_ => Sys2Proof.Machine.execCsrw u d i_ s
  | .fadd m d a b => Sys2Proof.Machine.execFadd m d a b s
  | .fsub m d a b => Sys2Proof.Machine.execFsub m d a b s
  | .fmul m d a b => Sys2Proof.Machine.execFmul m d a b s
  | .ffma m d a b => Sys2Proof.Machine.execFfma m d a b s
  | .ffms m d a b => Sys2Proof.Machine.execFfms m d a b s
  | .fmin m d a b => Sys2Proof.Machine.execFmin m d a b s
  | .fmax m d a b => Sys2Proof.Machine.execFmax m d a b s
  | .fminn m d a b => Sys2Proof.Machine.execFminn m d a b s
  | .fmaxn m d a b => Sys2Proof.Machine.execFmaxn m d a b s
  | .fabs u d a => Sys2Proof.Machine.execFabs u d a s
  | .fneg u d a => Sys2Proof.Machine.execFneg u d a s
  | .fcpys m d a b => Sys2Proof.Machine.execFcpys m d a b s
  | .frnd u d a m => Sys2Proof.Machine.execFrnd u d a m s
  | .fclass u d a => Sys2Proof.Machine.execFclass u d a s
  | .fscale m d a b => Sys2Proof.Machine.execFscale m d a b s
  | .fdiv m d a b => Sys2Proof.Machine.execFdiv m d a b s
  | .hadd2 m d a b => Sys2Proof.Machine.execHadd2 m d a b s
  | .hmul2 m d a b => Sys2Proof.Machine.execHmul2 m d a b s
  | .hfma2 m d a b => Sys2Proof.Machine.execHfma2 m d a b s
  | .hmin2 m d a b => Sys2Proof.Machine.execHmin2 m d a b s
  | .hmax2 m d a b => Sys2Proof.Machine.execHmax2 m d a b s
  | .badd2 m d a b => Sys2Proof.Machine.execBadd2 m d a b s
  | .bmul2 m d a b => Sys2Proof.Machine.execBmul2 m d a b s
  | .bfma2 m d a b => Sys2Proof.Machine.execBfma2 m d a b s
  | .bmin2 m d a b => Sys2Proof.Machine.execBmin2 m d a b s
  | .bmax2 m d a b => Sys2Proof.Machine.execBmax2 m d a b s
  | .hdot2 m d a b => Sys2Proof.Machine.execHdot2 m d a b s
  | .bdot2 m d a b => Sys2Proof.Machine.execBdot2 m d a b s
  | .qdot4 m d a b => Sys2Proof.Machine.execQdot4 m d a b s
  | .idot4s m d a b => Sys2Proof.Machine.execIdot4s m d a b s
  | .idot4u m d a b => Sys2Proof.Machine.execIdot4u m d a b s
  | .idot8 m d a b => Sys2Proof.Machine.execIdot8 m d a b s
  | .cvtff u d a x y m => Sys2Proof.Machine.execCvtff u d a x y m s
  | .cvtfi u d a y m => Sys2Proof.Machine.execCvtfi u d a y m s
  | .cvtif u d a y g m => Sys2Proof.Machine.execCvtif u d a y g m s
  | .cvtii u d a w t v => Sys2Proof.Machine.execCvtii u d a w t v s
  | .packb8 m d a b => Sys2Proof.Machine.execPackb8 m d a b s
  | .unpkb8 u d a p e x j => Sys2Proof.Machine.execUnpkb8 u d a p e x j s
  | .packi4 m d a b => Sys2Proof.Machine.execPacki4 m d a b s
  | .unpki4 u d a x j => Sys2Proof.Machine.execUnpki4 u d a x j s
  | .qmaxb d a => Sys2Proof.Machine.execQmaxb d a s
  | .qpick u d a i_ => Sys2Proof.Machine.execQpick u d a i_ s
  | .srnd u d i_ => Sys2Proof.Machine.execSrnd u d i_ s
  | .fexp u d a => Sys2Proof.Machine.execFexp u d a s
  | .rcp u d a => Sys2Proof.Machine.execRcp u d a s
  | .rsq u d a => Sys2Proof.Machine.execRsq u d a s
  | .sqrt u d a => Sys2Proof.Machine.execSqrt u d a s
  | .ex2 u d a => Sys2Proof.Machine.execEx2 u d a s
  | .lg2 u d a => Sys2Proof.Machine.execLg2 u d a s
  | .sinpi u d a => Sys2Proof.Machine.execSinpi u d a s
  | .cospi u d a => Sys2Proof.Machine.execCospi u d a s
  | .tanh u d a => Sys2Proof.Machine.execTanh u d a s
  | .rcph u d a => Sys2Proof.Machine.execRcph u d a s
  | .ex2h u d a => Sys2Proof.Machine.execEx2h u d a s
  | .iseteq m d a b => Sys2Proof.Machine.execIseteq m d a b s
  | .isetne m d a b => Sys2Proof.Machine.execIsetne m d a b s
  | .isetlt m d a b => Sys2Proof.Machine.execIsetlt m d a b s
  | .isetle m d a b => Sys2Proof.Machine.execIsetle m d a b s
  | .isetltu m d a b => Sys2Proof.Machine.execIsetltu m d a b s
  | .isetleu m d a b => Sys2Proof.Machine.execIsetleu m d a b s
  | .fseteq m d a b => Sys2Proof.Machine.execFseteq m d a b s
  | .fsetne m d a b => Sys2Proof.Machine.execFsetne m d a b s
  | .fsetlt m d a b => Sys2Proof.Machine.execFsetlt m d a b s
  | .fsetle m d a b => Sys2Proof.Machine.execFsetle m d a b s
  | .fsetun m d a b => Sys2Proof.Machine.execFsetun m d a b s
  | .pand d a b => Sys2Proof.Machine.execPand d a b s
  | .por d a b => Sys2Proof.Machine.execPor d a b s
  | .pxor d a b => Sys2Proof.Machine.execPxor d a b s
  | .pandn d a b => Sys2Proof.Machine.execPandn d a b s
  | .ptov d a => Sys2Proof.Machine.execPtov d a s
  | .shfli d a b => Sys2Proof.Machine.execShfli d a b s
  | .shflu d a k => Sys2Proof.Machine.execShflu d a k s
  | .shfld d a k => Sys2Proof.Machine.execShfld d a k s
  | .shflx d a k => Sys2Proof.Machine.execShflx d a k s
  | .vall d a => Sys2Proof.Machine.execVall d a s
  | .vany d a => Sys2Proof.Machine.execVany d a s
  | .vbal d a => Sys2Proof.Machine.execVbal d a s
  | .vmatch d a => Sys2Proof.Machine.execVmatch d a s
  | .rdlane d a k => Sys2Proof.Machine.execRdlane d a k s
  | .redsumi d a => Sys2Proof.Machine.execRedsumi d a s
  | .redsumf d a => Sys2Proof.Machine.execRedsumf d a s
  | .scansumi d a => Sys2Proof.Machine.execScansumi d a s
  | .scansumf d a => Sys2Proof.Machine.execScansumf d a s
  | .elect d => Sys2Proof.Machine.execElect d s
  | .bmask d => Sys2Proof.Machine.execBmask d s
  | .bra i_ => Sys2Proof.Machine.execBra i_ s
  | .brx a => Sys2Proof.Machine.execBrx a s
  | .call i_ => Sys2Proof.Machine.execCall i_ s
  | .callx a => Sys2Proof.Machine.execCallx a s
  | .ret => Sys2Proof.Machine.execRet s
  | .exit => Sys2Proof.Machine.execExit s
  | .trap i_ => Sys2Proof.Machine.execTrap i_ s
  | .bpt i_ => Sys2Proof.Machine.execBpt i_ s
  | .nop => Sys2Proof.Machine.execNop s
  | .yield => Sys2Proof.Machine.execYield s
  | .marm a => Sys2Proof.Machine.execMarm a s
  | .mwait => Sys2Proof.Machine.execMwait s
  | .winv i_ => Sys2Proof.Machine.execWinv i_ s
  | .wins i_ => Sys2Proof.Machine.execWins i_ s
  | .eret => Sys2Proof.Machine.execEret s
  | .halt => Sys2Proof.Machine.execHalt s
  | .ld8 d a i_ => Sys2Proof.Machine.execLd8 d a i_ s
  | .ld8s d a i_ => Sys2Proof.Machine.execLd8s d a i_ s
  | .ld16 d a i_ => Sys2Proof.Machine.execLd16 d a i_ s
  | .ld16s d a i_ => Sys2Proof.Machine.execLd16s d a i_ s
  | .ld32 d a i_ => Sys2Proof.Machine.execLd32 d a i_ s
  | .ld64 d a i_ => Sys2Proof.Machine.execLd64 d a i_ s
  | .ld128 d a i_ => Sys2Proof.Machine.execLd128 d a i_ s
  | .st8 d a i_ => Sys2Proof.Machine.execSt8 d a i_ s
  | .st16 d a i_ => Sys2Proof.Machine.execSt16 d a i_ s
  | .st32 d a i_ => Sys2Proof.Machine.execSt32 d a i_ s
  | .st64 d a i_ => Sys2Proof.Machine.execSt64 d a i_ s
  | .st128 d a i_ => Sys2Proof.Machine.execSt128 d a i_ s
  | .ls32 d a i_ => Sys2Proof.Machine.execLs32 d a i_ s
  | .ls64 d a i_ => Sys2Proof.Machine.execLs64 d a i_ s
  | .ls128 d a i_ => Sys2Proof.Machine.execLs128 d a i_ s
  | .ss32 d a i_ => Sys2Proof.Machine.execSs32 d a i_ s
  | .ss64 d a i_ => Sys2Proof.Machine.execSs64 d a i_ s
  | .ss128 d a i_ => Sys2Proof.Machine.execSs128 d a i_ s
  | .lq q d => Sys2Proof.Machine.execLq q d s
  | .sq q a => Sys2Proof.Machine.execSq q a s
  | .ltag d a i_ => Sys2Proof.Machine.execLtag d a i_ s
  | .stag d a i_ => Sys2Proof.Machine.execStag d a i_ s
  | .lda32 d a o h => Sys2Proof.Machine.execLda32 d a o h s
  | .lda64 d a o h => Sys2Proof.Machine.execLda64 d a o h s
  | .sta32 d a o h => Sys2Proof.Machine.execSta32 d a o h s
  | .sta64 d a o h => Sys2Proof.Machine.execSta64 d a o h s
  | .pref a i_ => Sys2Proof.Machine.execPref a i_ s
  | .ldk32 d a i_ => Sys2Proof.Machine.execLdk32 d a i_ s
  | .ldk64 d a i_ => Sys2Proof.Machine.execLdk64 d a i_ s
  | .lsk32 d a => Sys2Proof.Machine.execLsk32 d a s
  | .aadd d a b t => Sys2Proof.Machine.execAadd d a b t s
  | .amin d a b t => Sys2Proof.Machine.execAmin d a b t s
  | .amax d a b t => Sys2Proof.Machine.execAmax d a b t s
  | .aminu d a b t => Sys2Proof.Machine.execAminu d a b t s
  | .amaxu d a b t => Sys2Proof.Machine.execAmaxu d a b t s
  | .aand d a b t => Sys2Proof.Machine.execAand d a b t s
  | .aor d a b t => Sys2Proof.Machine.execAor d a b t s
  | .axor d a b t => Sys2Proof.Machine.execAxor d a b t s
  | .axchg d a b t => Sys2Proof.Machine.execAxchg d a b t s
  | .acas d a b t => Sys2Proof.Machine.execAcas d a b t s
  | .afadd d a b t => Sys2Proof.Machine.execAfadd d a b t s
  | .afmax d a b t => Sys2Proof.Machine.execAfmax d a b t s
  | .ainc d a b t => Sys2Proof.Machine.execAinc d a b t s
  | .adec d a b t => Sys2Proof.Machine.execAdec d a b t s
  | .fence k h => Sys2Proof.Machine.execFence k h s
  | .fencex => Sys2Proof.Machine.execFencex s
  | .phase => Sys2Proof.Machine.execPhase s
  | .ifence => Sys2Proof.Machine.execIfence s
  | .gnew d => Sys2Proof.Machine.execGnew d s
  | .gjoin a => Sys2Proof.Machine.execGjoin a s
  | .gleave => Sys2Proof.Machine.execGleave s
  | .gfree d a => Sys2Proof.Machine.execGfree d a s
  | .gmask d => Sys2Proof.Machine.execGmask d s
  | .barr n v r u e => Sys2Proof.Machine.execBarr n v r u e s
  | .bwait n v r u e => Sys2Proof.Machine.execBwait n v r u e s
  | .bsync n v r u e => Sys2Proof.Machine.execBsync n v r u e s
  | .bexpect n v u e => Sys2Proof.Machine.execBexpect n v u e s
  | .bdone n u e => Sys2Proof.Machine.execBdone n u e s
  | .tsub d a => Sys2Proof.Machine.execTsub d a s
  | .tlwait h v => Sys2Proof.Machine.execTlwait h v s
  | .tlread v h => Sys2Proof.Machine.execTlread v h s
  | .tlsig h v => Sys2Proof.Machine.execTlsig h v s
  | .bqrySlot n v u e => Sys2Proof.Machine.execBqrySlot n v u e s
  | .mldw n a c => Sys2Proof.Machine.execMldw n a c s
  | .mldwd n a c => Sys2Proof.Machine.execMldwd n a c s
  | .mma t m n a c => Sys2Proof.Machine.execMma t m n a c s
  | .mmad t m n a c => Sys2Proof.Machine.execMmad t m n a c s
  | .mzero t m => Sys2Proof.Machine.execMzero t m s
  | .mdrain t m a c => Sys2Proof.Machine.execMdrain t m a c s
  | .mdraint t a c => Sys2Proof.Machine.execMdraint t a c s
  | .mdrainp t m a c => Sys2Proof.Machine.execMdrainp t m a c s
  | .mreds t m n a => Sys2Proof.Machine.execMreds t m n a s
  | .mscan t m a => Sys2Proof.Machine.execMscan t m a s
  | .mldz t m a => Sys2Proof.Machine.execMldz t m a s
  | .mstz t m a c => Sys2Proof.Machine.execMstz t m a c s
  | .mstat t l sel a => Sys2Proof.Machine.execMstat t l sel a s
  | .bcopy d a => Sys2Proof.Machine.execBcopy d a s
  | .bcancel d a b => Sys2Proof.Machine.execBcancel d a b s
  | .bqryQueue d a => Sys2Proof.Machine.execBqryQueue d a s
  | .kvx d a b => Sys2Proof.Machine.execKvx d a b s
  | .kvput d a b => Sys2Proof.Machine.execKvput d a b s
  | .kvpin d a b => Sys2Proof.Machine.execKvpin d a b s
  | .kvunpin d a b => Sys2Proof.Machine.execKvunpin d a b s
  | .kvfree d a b => Sys2Proof.Machine.execKvfree d a b s
  | .astart d a => Sys2Proof.Machine.execAstart d a s
  | .amload d a => Sys2Proof.Machine.execAmload d a s
  | .aproj d a b => Sys2Proof.Machine.execAproj d a b s
  | .astat d a => Sys2Proof.Machine.execAstat d a s
  | .apstart d a b => Sys2Proof.Machine.execApstart d a b s
  | .apstop d b => Sys2Proof.Machine.execApstop d b s
  | .appush a b => Sys2Proof.Machine.execAppush a b s
  | .apfetch d b => Sys2Proof.Machine.execApfetch d b s
  | .grd p n l => Sys2Proof.Machine.execGrd p n l s
  | .rep c x y z => Sys2Proof.Machine.execRep c x y z s
  | .bankcfg d a b => Sys2Proof.Machine.execBankcfg d a b s
  | .worldcfgCreate d a => Sys2Proof.Machine.execWorldcfgCreate d a s
  | .worldcfgTvec d a => Sys2Proof.Machine.execWorldcfgTvec d a s
  | .worldcfgDrawers d a => Sys2Proof.Machine.execWorldcfgDrawers d a s
  | .worldcfgBanks d a => Sys2Proof.Machine.execWorldcfgBanks d a s
  | .worldcfgRoot d a => Sys2Proof.Machine.execWorldcfgRoot d a s
  | .worldcfgDestroy d a => Sys2Proof.Machine.execWorldcfgDestroy d a s
  | .worldcfgTlpool d a => Sys2Proof.Machine.execWorldcfgTlpool d a s
  | .tlbinvAddress a b => Sys2Proof.Machine.execTlbinvAddress a b s
  | .tlbinvWorld a b => Sys2Proof.Machine.execTlbinvWorld a b s
  | .tlbinvAll a b => Sys2Proof.Machine.execTlbinvAll a b s
  | .keyld d a => Sys2Proof.Machine.execKeyld d a s
  | .lsetConfig d a b => Sys2Proof.Machine.execLsetConfig d a b s
  | .lsetOffer d a b => Sys2Proof.Machine.execLsetOffer d a b s
  | .lsetAccept d a b => Sys2Proof.Machine.execLsetAccept d a b s
  | .lsetDecline d a b => Sys2Proof.Machine.execLsetDecline d a b s
  | .lsetRenew d a b => Sys2Proof.Machine.execLsetRenew d a b s
  | .lsetPfetch d a b => Sys2Proof.Machine.execLsetPfetch d a b s
  | .lsetFree d a b => Sys2Proof.Machine.execLsetFree d a b s
  | .lsetElect d a b => Sys2Proof.Machine.execLsetElect d a b s
  | .lgetEntryLow d a => Sys2Proof.Machine.execLgetEntryLow d a s
  | .lgetEntryHigh d a => Sys2Proof.Machine.execLgetEntryHigh d a s
  | .lgetFabricStatus d a => Sys2Proof.Machine.execLgetFabricStatus d a s
  | .lrecall d a => Sys2Proof.Machine.execLrecall d a s
  | .bisnp d a b => Sys2Proof.Machine.execBisnp d a b s
  | .hinit d => Sys2Proof.Machine.execHinit d s
  | .habs d a b => Sys2Proof.Machine.execHabs d a b s
  | .hfin d a b => Sys2Proof.Machine.execHfin d a b s
  | .sign d a b => Sys2Proof.Machine.execSign d a b s
  | .mext d a b => Sys2Proof.Machine.execMext d a b s
  | .nvinc d a => Sys2Proof.Machine.execNvinc d a s
  | .seal d a b => Sys2Proof.Machine.execSeal d a b s
  | .unseal d a => Sys2Proof.Machine.execUnseal d a s
  | .snap d a => Sys2Proof.Machine.execSnap d a s
  | .scrub d a b => Sys2Proof.Machine.execScrub d a b s
  | .resync d a => Sys2Proof.Machine.execResync d a s
  | .ipi a b => Sys2Proof.Machine.execIpi a b s
  | .capr d a => Sys2Proof.Machine.execCapr d a s
  | .placePrefer d a b => Sys2Proof.Machine.execPlacePrefer d a b s
  | .placePin d a b => Sys2Proof.Machine.execPlacePin d a b s
  | .placeUnpin d a b => Sys2Proof.Machine.execPlaceUnpin d a b s
  | .placeFrames d a b => Sys2Proof.Machine.execPlaceFrames d a b s
  | .evtpop d n => Sys2Proof.Machine.execEvtpop d n s
  | .qload => Sys2Proof.Machine.execQload s
  | .sig => Sys2Proof.Machine.execSig s
  | .kwalk => Sys2Proof.Machine.execKwalk s
  | .tlstDense => Sys2Proof.Machine.execTlstDense s
  | .tlstGathered => Sys2Proof.Machine.execTlstGathered s
  | .cntTl ra => Sys2Proof.Machine.execCntTl ra s
  | .cntChunks ra => Sys2Proof.Machine.execCntChunks ra s
  | .cntLen ra => Sys2Proof.Machine.execCntLen ra s
  | .cntAct ra => Sys2Proof.Machine.execCntAct ra s
  | .cntAdd ra rb n => Sys2Proof.Machine.execCntAdd ra rb n s
  | .gath ra => Sys2Proof.Machine.execGath ra s
  | .sync => Sys2Proof.Machine.execSync s
  | .kload => Sys2Proof.Machine.execKload s
  | .vload => Sys2Proof.Machine.execVload s
  | .smm => Sys2Proof.Machine.execSmm s
  | .mask => Sys2Proof.Machine.execMask s
  | .rmax => Sys2Proof.Machine.execRmax s
  | .resc => Sys2Proof.Machine.execResc s
  | .exps => Sys2Proof.Machine.execExps s
  | .rsum => Sys2Proof.Machine.execRsum s
  | .pmm => Sys2Proof.Machine.execPmm s
  | .sto => Sys2Proof.Machine.execSto s
  | .lse => Sys2Proof.Machine.execLse s
  | .fbk => Sys2Proof.Machine.execFbk s
  | .br tgt => Sys2Proof.Machine.execBr tgt s
  | .brc ra rb tgt cond => Sys2Proof.Machine.execBrc ra rb tgt cond s
  | .loop ra tgt => Sys2Proof.Machine.execLoop ra tgt s
  | .waitz => Sys2Proof.Machine.execWaitz s
  | .microHalt code => Sys2Proof.Machine.execMicroHalt code s
  | .resultWriteback p lane k => Sys2Proof.Machine.execResultWriteback p lane k s
  | .benchAdmit p => Sys2Proof.Machine.execBenchAdmit p s
  | .watchdogExpiry p => Sys2Proof.Machine.execWatchdogExpiry p s
  | .integrityCheckComplete k => Sys2Proof.Machine.execIntegrityCheckComplete k s
  | .taskAccept k => Sys2Proof.Machine.execTaskAccept k s
  | .taskQueueConsume q => Sys2Proof.Machine.execTaskQueueConsume q s
  | .taskDispatch id ps => Sys2Proof.Machine.execTaskDispatch id ps s
  | .taskCommit id => Sys2Proof.Machine.execTaskCommit id s
  | .phaseCommit id => Sys2Proof.Machine.execPhaseCommit id s
  | .taskRequeue id => Sys2Proof.Machine.execTaskRequeue id s
  | .taskFail id => Sys2Proof.Machine.execTaskFail id s
  | .benchResume p => Sys2Proof.Machine.execBenchResume p s
  | .benchRestore p => Sys2Proof.Machine.execBenchRestore p s
  | .spuriousWakeup p lane => Sys2Proof.Machine.execSpuriousWakeup p lane s
  | .mxuCommandExecute core drw => Sys2Proof.Machine.execMxuCommandExecute core drw s
  | .peerRowReceive k => Sys2Proof.Machine.execPeerRowReceive k s
  | .peerAckReceive core drw seq => Sys2Proof.Machine.execPeerAckReceive core drw seq s
  | .peerResend core drw => Sys2Proof.Machine.execPeerResend core drw s
  | .queueSlotConsume q => Sys2Proof.Machine.execQueueSlotConsume q s
  | .copy q n => Sys2Proof.Machine.execCopy q n s
  | .reducingCopy q n => Sys2Proof.Machine.execReducingCopy q n s
  | .transpose q n => Sys2Proof.Machine.execTranspose q n s
  | .quant q n => Sys2Proof.Machine.execQuant q n s
  | .dequant q n => Sys2Proof.Machine.execDequant q n s
  | .swizzle q n => Sys2Proof.Machine.execSwizzle q n s
  | .gather q n => Sys2Proof.Machine.execGather q n s
  | .im2col q n => Sys2Proof.Machine.execIm2col q n s
  | .zero q n => Sys2Proof.Machine.execZero q n s
  | .migrate q n => Sys2Proof.Machine.execMigrate q n s
  | .bteBlockLand q n => Sys2Proof.Machine.execBteBlockLand q n s
  | .bteOperationComplete q n => Sys2Proof.Machine.execBteOperationComplete q n s
  | .reduceBlockReceive pkt => Sys2Proof.Machine.execReduceBlockReceive pkt s
  | .asqRunStart core => Sys2Proof.Machine.execAsqRunStart core s
  | .snapExecute => Sys2Proof.Machine.execSnapExecute s
  | .scrubExecute => Sys2Proof.Machine.execScrubExecute s
  | .sdcEvict line copy => Sys2Proof.Machine.execSdcEvict line copy s
  | .pageMigration src dst => Sys2Proof.Machine.execPageMigration src dst s
  | .migrationSwitchover line => Sys2Proof.Machine.execMigrationSwitchover line s
  | .classifierWindow => Sys2Proof.Machine.execClassifierWindow s
  | .offer msg => Sys2Proof.Machine.execOffer msg s
  | .accept msg => Sys2Proof.Machine.execAccept msg s
  | .decline msg => Sys2Proof.Machine.execDecline msg s
  | .grant msg => Sys2Proof.Machine.execGrant msg s
  | .nak msg => Sys2Proof.Machine.execNak msg s
  | .recall msg => Sys2Proof.Machine.execRecall msg s
  | .release msg => Sys2Proof.Machine.execRelease msg s
  | .renew msg => Sys2Proof.Machine.execRenew msg s
  | .renewed msg => Sys2Proof.Machine.execRenewed msg s
  | .refused msg => Sys2Proof.Machine.execRefused msg s
  | .bisnpdata msg first count => Sys2Proof.Machine.execBisnpdata msg first count s
  | .bisnpinv msg first count => Sys2Proof.Machine.execBisnpinv msg first count s
  | .leaseFlushComplete idx => Sys2Proof.Machine.execLeaseFlushComplete idx s
  | .leaseExpiry idx => Sys2Proof.Machine.execLeaseExpiry idx s
  | .wbleadExpiry idx => Sys2Proof.Machine.execWbleadExpiry idx s
  | .rcwinExpiry idx => Sys2Proof.Machine.execRcwinExpiry idx s
  | .hbeatTick obs => Sys2Proof.Machine.execHbeatTick obs s
  | .peerDeclaredFailed mid => Sys2Proof.Machine.execPeerDeclaredFailed mid s
  | .linkDown port => Sys2Proof.Machine.execLinkDown port s
  | .bulletinAccess req => Sys2Proof.Machine.execBulletinAccess req s
  | .settleExpiry => Sys2Proof.Machine.execSettleExpiry s
  | .leasePrefetch idx => Sys2Proof.Machine.execLeasePrefetch idx s
  | .cxlMemRequest req => Sys2Proof.Machine.execCxlMemRequest req s
  | .pcieMemoryRequest req => Sys2Proof.Machine.execPcieMemoryRequest req s
  | .getVersion ses => Sys2Proof.Machine.execGetVersion ses s
  | .getCapabilities ses => Sys2Proof.Machine.execGetCapabilities ses s
  | .negotiateAlgorithms ses => Sys2Proof.Machine.execNegotiateAlgorithms ses s
  | .getDigests ses => Sys2Proof.Machine.execGetDigests ses s
  | .getCertificate ses slot => Sys2Proof.Machine.execGetCertificate ses slot s
  | .challenge ses => Sys2Proof.Machine.execChallenge ses s
  | .getMeasurements ses index => Sys2Proof.Machine.execGetMeasurements ses index s
  | .keyExchange ses approved => Sys2Proof.Machine.execKeyExchange ses approved s
  | .finish ses => Sys2Proof.Machine.execFinish ses s
  | .heartbeat ses => Sys2Proof.Machine.execHeartbeat ses s
  | .keyUpdate ses => Sys2Proof.Machine.execKeyUpdate ses s
  | .endSession ses => Sys2Proof.Machine.execEndSession ses s
  | .recordExport x => Sys2Proof.Machine.execRecordExport x s
  | .spdmResync ses => Sys2Proof.Machine.execSpdmResync ses s
  | .recordExportAck x => Sys2Proof.Machine.execRecordExportAck x s
  | .recordBusy x => Sys2Proof.Machine.execRecordBusy x s
  | .recordExportTimeout => Sys2Proof.Machine.execRecordExportTimeout s
  | .qcmdRegister => Sys2Proof.Machine.execQcmdRegister s
  | .qcmdUnregister => Sys2Proof.Machine.execQcmdUnregister s
  | .arenaRegister => Sys2Proof.Machine.execArenaRegister s
  | .arenaUnregister => Sys2Proof.Machine.execArenaUnregister s
  | .vcmdVacate => Sys2Proof.Machine.execVcmdVacate s
  | .vcmdReturn => Sys2Proof.Machine.execVcmdReturn s
  | .vacationComplete => Sys2Proof.Machine.execVacationComplete s
  | .xpeerExport => Sys2Proof.Machine.execXpeerExport s
  | .classifierSelect v => Sys2Proof.Machine.execClassifierSelect v s
  | .ddcfgWrite w v => Sys2Proof.Machine.execDdcfgWrite w v s
  | .counterClear dpa => Sys2Proof.Machine.execCounterClear dpa s
  | .mmioRegisterWrite dpa size v => Sys2Proof.Machine.execMmioRegisterWrite dpa size v s
  | .boot => Sys2Proof.Machine.execBoot s
  | .thermalLimit => Sys2Proof.Machine.execThermalLimit s
  | .powerFailure => Sys2Proof.Machine.execPowerFailure s
  | .malformedWord => Sys2Proof.Machine.execMalformedWord s
  | .fetchFault => Sys2Proof.Machine.execFetchFault s
  | .heldCommitResume id => Sys2Proof.Machine.execHeldCommitResume id s
  | .stoppedTaskDiscard id => Sys2Proof.Machine.execStoppedTaskDiscard id s
  | .linkUp port cxl width => Sys2Proof.Machine.execLinkUp port cxl width s
  | .remoteWriteAck k stale => Sys2Proof.Machine.execRemoteWriteAck k stale s

end Sys2Proof.Machine
end

