-- ==== Sys2Proof/Machine/Issue.lean ====
section
/-! DEFINITION. What one step runs: the issue group a pick names and its fetch (R42, R61, R104, R113), micro-ops (R309), items of the
schedule, and the default order of a machine whose schedule is empty (log entry 2). Decoding is an argument, `dec`. -/

namespace Sys2Proof.Machine

/-- A decoder of words. -/
abbrev Decoder := Word → Word → Except Reject (Bool × Instr)

/-! ### Issue groups -/

/-- Whether a resumed bench still has faulting lanes to replay: only they issue then (R114). -/
def Bench.replaying (b : Bench) : Bool := b.threads.any fun e => b.rmask.getLsbD e.1 && b.ready e.1 e.2

/-- Whether a thread may issue: its bench is not stopped and, on a drawer, in the active set, and replays no other lane; a thread
that has yielded goes when no other thread of the bench is ready (R56, R104, R105, R114, R167). -/
def Bench.mayIssue (b : Bench) (l : Nat) (t : Thread) : Bool :=
  b.stopped.isNone && ((drawerOf b.place).isNone || b.active) && (!b.replaying || b.rmask.getLsbD l)
    && (b.ready l t || (t.wait = .yielded && !b.anyReady))

/-- Threads of one PC group: the same instruction, the same repeat of it, the same view of the code (R42, R61). -/
def Thread.sameGroup (a b : Thread) : Bool := a.pc = b.pc && a.rep = b.rep && a.fetchEp = b.fetchEp

/-- Of each PC group that may issue, the thread that has been passed over most (the lowest lane of those). -/
def Bench.heads (b : Bench) : List (Nat × Thread) :=
  b.threads.filter fun e => b.mayIssue e.1 e.2 && b.threads.all fun x => !(b.mayIssue x.1 x.2 && e.2.sameGroup x.2)
    || x.2.missed < e.2.missed || (x.2.missed = e.2.missed && e.1 ≤ x.1)

/-- The thread whose group a pick of the bench issues (R104): no ready thread waits longer than 65 picks. Where `j` groups must all go
within the next `j` picks, one of them goes: the picked one if it is of these, else the one passed over most. -/
def Bench.chosen (b : Bench) (l : Nat) (t : Thread) : Nat × Thread :=
  if b.threads.all fun e => e.2.missed < 33 then (l, t)
  else
    let hs := b.heads
    let within (j : Nat) (e : Nat × Thread) : Bool := 65 ≤ e.2.missed + j
    match (upto 33).find? fun j => 0 < j && j ≤ (hs.filter (within j)).length with
    | none => (l, t)
    | some j =>
      if hs.any fun e => within j e && t.sameGroup e.2 then (l, t)
      else
        let m := maxNat (hs.map fun e => e.2.missed)
        (hs.find? fun e => e.2.missed = m).getD (l, t)

/-- The lanes that issue with a thread. -/
def Bench.groupOf (b : Bench) (t : Thread) : List Nat :=
  (b.threads.filter fun e => b.mayIssue e.1 e.2 && t.sameGroup e.2).map Prod.fst

/-- What fetching an instruction gives. -/
inductive Fetched where
  | fault
  | words (s : State) (w w2 : Word)

/-- Fetches the instruction of a thread (R42): the second word of an X instruction, the target of a REP, and the word after a
GRD, which reads as 0 where it cannot be fetched. -/
def State.fetchIssue (s : State) (p : Place) (l : Nat) (pc : DWord) : Fetched :=
  match s.fetchWord p l pc with
  | (_, .error _) => .fault
  | (s, .ok w) =>
    if isX w.toNat || isRep w then match s.fetchWord p l (pc + 4) with
      | (_, .error _) => .fault
      | (s, .ok w2) => .words s w w2
    else if isGrd w then match s.fetchWord p l (pc + 4) with
      | (s, .error _) => .words s w 0
      | (s, .ok w2) => .words s w w2
    else .words s w 0

/-- Runs the words an issue group has fetched: the decoded instruction, in a repeat the stepped target (R61), and
MALFORMED_WORD for words that are no instruction (R70): of a prefix that is none, on the prefix, at whatever repeat ERET resumed it.
A repeat that ERET resumed at a word that is no REP is none: the word is issued as it stands (R63; log entry 100). -/
def State.runWords (dec : Decoder) (s : State) (p : Place) (ls : List Nat) (pc : DWord) (rep : Option Nat) (w w2 : Word) : Out :=
  match if isRep w then rep else none, dec w w2 with
  | none, .ok (st, i) => exec i { s with cur := .grp p ls pc w w2 st none }
  | some k, .ok _ =>
    if prefixIllegal w w2 then exec .malformedWord { s with cur := .grp p ls pc w w2 false none }
    else match (stepWord w w2 k).map fun x => dec x 0 with
    | some (.ok (st, i)) => exec i { s with cur := .grp p ls pc w w2 st (some (k, repCount w)) }
    | _ => exec .malformedWord { s with cur := .grp p ls pc w w2 (w2.getLsbD 31) (some (k, repCount w)) }
  | _, .error _ => exec .malformedWord { s with cur := .grp p ls pc w w2 false none }

/-- The requests of a core that are outstanding: accesses not performed, words of load data not returned (R197; log entry 112). -/
def State.requests (s : State) (core : Nat) : Nat :=
  (s.lates.filter fun x => coreIx x.who.place = core).length +
    sumNat ((s.benches.filter fun b => coreIx b.place = core).map fun b => sumNat (b.threads.map fun e => (e.2.out.filter Pend.isMem).length))
/-- A word of G10 or G11, or a REP of one. -/
def memWord (w w2 : Word) : Bool :=
  let g := bits (if isRep w then w2 else w).toNat 30 27
  g = 10 || g = 11
/-- Whether an instruction waits at issue: a memory instruction, where 8192 requests of its core are outstanding (R197). -/
def State.waitsAtIssue (s : State) (p : Place) (w w2 : Word) : Bool := memWord w w2 && 8192 ≤ s.requests (coreIx p)

/-- One issue: the group of the thread at lane `l` of the bench at `p`, or of the one that may not wait any longer. A thread that
may not issue, or whose instruction waits at issue, is not picked. -/
def State.issueAt (dec : Decoder) (s : State) (p : Place) (l : Nat) : Out :=
  match s.bench? p, s.thread? p l with
  | some b, some t =>
    if b.mayIssue l t then
      let (l, t) := b.chosen l t
      match s.fetchIssue p l t.pc with
      | .fault => exec .fetchFault { s with cur := .grp p (b.groupOf t) t.pc 0 0 false none }
      | .words s' w w2 => if s.waitsAtIssue p w w2 then .next s else s'.runWords dec p (b.groupOf t) t.pc t.rep w w2
    else .next s
  | _, _ => .next s

/-! ### The attention sequencer -/

/-- Whether the sequencer of a core has a run to go on with. -/
def State.asqReady (s : State) (core : Nat) : Bool :=
  match (s.asq core).runs with
  | r :: _ => r.on && (!r.held || r.cancel)
  | [] => false

/-- The next micro-op of a core's run: at the PC, or TC_MICRO for a word that is none and past the store (R309). -/
def State.microAt (s : State) (core : Nat) : Out :=
  if s.asqReady core then
    let s' := { s with cur := .micro core }
    match (s.asq core).runs with
    | r :: _ =>
      if 4096 ≤ r.pc then microBad s'
      else match decodeMicro ((s.asq core).word r.pc) with
        | .ok i => exec i s'
        | .error _ => microBad s'
    | [] => .next s
  else .next s

/-! ### Items of the schedule -/

/-- An event outside any issue group; a row that needs one is no event and does nothing. -/
def State.eventAt (s : State) (i : Instr) : Out :=
  match exec i { s with cur := .idle } with
  | .fault .noContext => .next s
  | o => o

/-- A strong copy leaves its place: a dirty one goes outwards, a clean one is dropped (R188). -/
def State.evictCopy (s : State) (k : Nat) : State :=
  match s.copies[k]? with
  | none => s
  | some x => match x.at_ with
    | .core c => s.pushCore c x.line
    | .cluster c => s.pushCluster c x.line

/-- An uncorrectable error in the data entry of a line is one in every line that shares it (R330): a clean one is refetched from its
home, a dirty one has no other copy, and a copy retained for a snapshot stops its world. -/
def State.entryError (s : State) (line : Nat) : State :=
  match s.hub.sdc.find line with
  | none => s
  | some x =>
    let xs := s.hub.sdc.lines.filter fun y => y.ent = x.ent
    let lost := (xs.filter fun y => y.upto = none && y.dirty).map LLine.line
    let s := (s.countUnit (28 + homeSlice line) (64 * line) true).updSdc fun c => c.remove fun y => y.ent = x.ent
    let s := { s with bad := lost.foldl insertNat s.bad }
    (xs.filter fun y => y.upto ≠ none).foldl (fun s y => s.stopWorld y.world (64 * y.line)) s

/-- An error in a block (R329, R330): corrected and counted; uncorrectable, found at its next use, or, in HSS, by the units that use it;
or undetected, which leaves the block's MAC as it was. -/
def State.eccAt (s : State) (blk : Nat) : EccAt → State
  | .corrected => s.countError blk false
  | .home =>
    if dpaKind (64 * blk) = .hss then s.deviceError (64 * blk) else { s with bad := insertNat s.bad blk }
  | .entry => s.entryError blk
  | .silent i x => { s with mem := mput 0 s.mem (64 * blk + i % 64) x, clean := s.clean.filter fun c => c.line ≠ blk }

/-- An error that goes undetected (R329): the value is another one, and nothing shows it. -/
def State.silentAt (s : State) : Silent → State
  | .tag blk t => { s with tags := mput tag0 s.tags blk t, clean := s.clean.filter fun c => c.line ≠ blk }
  | .spad core loc x => s.updCore core fun c => { c with spad := mput 0 c.spad loc x }
  | .spadTag core w blk t => s.putSpadTag core w blk t
  | .copy k i x => match s.copies[k]? with
    | some c => { s with copies := s.copies.set k { c with data := setNth c.data (i % 64) x } }
    | none => s
  | .vreg r i x => s.updThread r.place r.lane fun t => { t with vregs := mput 0 t.vregs i x }
  | .pred r i => s.updThread r.place r.lane fun t => { t with preds := t.preds ^^^ BitVec.ofNat 128 (2 ^ (i % 128)) }
  | .ureg p i x => s.updBench p fun b => { b with uregs := mput 0 b.uregs i x }
  | .tile i t m n x => s.updMxu i fun y => { y with data := y.data.setElem (t % 4) (m % 64) (n % 64) x }
  | .weight i u x => s.updMxu i fun y => { y with data := y.data.setUnit u x }

/-- Worlds with data in the queues and buffers of a core (Table 12.4): accesses, checks and copies of its threads, operations of its
engines. -/
def State.worldsAt (s : State) (core : Nat) : List Nat :=
  ((s.benches.filter fun b => coreIx b.place = core
      && (!b.uout.isEmpty || b.threads.any (fun e => !e.2.out.isEmpty) || s.lates.any fun x => x.who.place = b.place)).map Bench.world
    ++ (s.copies.filter fun c => c.at_ = .core core).map Copy.world
    ++ (s.queues.filterMap fun e => if e.2.ops.any fun o => o.core = core then some e.2.world else none)
    ++ (s.asq core).runs.map fun r => r.who.world).dedup

/-- A scratchpad block is marked (R331): zero, its scale byte 0xFF. -/
def State.markSpad (s : State) (core w : Nat) (key : Word) (x : Nat) (task : Nat) : State :=
  let x := x / 64 * 64
  let s := (upto 16).foldl (fun s i => s.spadPut core w key (x + 4 * i) 0 task) s
  (s.putSpadTag core w (x / 64) (s.spadTag core w (x / 64) ||| 0xFF#16)).updCore core fun c =>
    { c with smarked := insertNat c.smarked (pkey w (x / 64)) }

/-- An uncorrectable error in the state of a task, or in the queues of a core (Table 12.4): the task is discarded, or, where it is pinned,
its world stops; every world with data in the queues stops; a spilled register line is committed data of its bench's world, of which
there is no other copy (R107); a dirty strong copy is a committed line without a good copy, a clean one is refetched; an error in the lease table, the
Bureau's or the trust root's state is one of the device. -/
def State.localError (s : State) (k : Nat) (e : LocalErr) : State :=
  match e, s.task? k with
  | .queues c, _ => (s.worldsAt c).foldl (fun s w => s.stopWorld w 0) (s.countUnit (sramUnit c) 0 true)
  | _, none => s
  | .own, some t => if !t.state.reads then s
    else if t.pinned then (s.countUnit (780 + nth 0 t.cores 0) 0 true).stopWorld t.world 0
    else ((s.countUnit (780 + nth 0 t.cores 0) 0 true).discardTask k).postTask k .ue 0 0 none
  | .root, _ => (s.countUnit 988 0 true).deviceError 0
  | .copy k, _ => match s.copies[k]? with
    | none => s
    | some x =>
      let s := (s.countUnit (copyUnit x.at_) (64 * x.line) true).dropCopy x.at_ x.line
      if x.dirty then s.escalate 0 x.world x.line none else s
  | .spilled p, _ => match s.bench? p with
    | some b => if b.spilled.isEmpty then s else (s.countUnit (sramUnit (coreIx p)) 0 true).stopWorld b.world 0
    | none => s
  | .spad core key x, some t => if !t.state.reads then s
    else
      let s := (s.countUnit (sramUnit core) x true).markSpad core t.world key x k
      if t.pinned then s.stopWorld t.world 0 else (s.discardTask k).postTask k .ue 0 0 none

/-- The Bureau retires a page of DRAM in which an uncorrectable error was found (R332). -/
def State.retirePage (s : State) (page : Nat) : State :=
  let hit := (s.bad ++ s.marked).any (fun b => b / 1024 = page) || s.hub.errs.any fun e => 0 < e.2.unc.toNat && e.2.lastu.toNat / 65536 = page
  if hit && !s.retired.contains page then { s with retired := s.retired ++ [page] } else s

/-- After an issue whose accesses may be performed later (R34): the number that names its instruction among them is used up. -/
def lateDone : Out → Out
  | .next s => .next { s with late := false, nextLate := s.nextLate + 1 }
  | o => o

/-- The instruction that an issue of a thread runs, where it computes results of its own lane (G0 to G7, no U): it may read its sources
late (R57). -/
def State.calcAt (dec : Decoder) (s : State) (p : Place) (l : Nat) (t : Thread) : Option (Instr × Word × Word × Option (Nat × Nat)) :=
  match s.fetchIssue p l t.pc with
  | .fault => none
  | .words _ w w2 =>
    let rep := if isRep w then t.rep else none
    let x := match rep with
      | some k => (stepWord w w2 k).getD w
      | none => w
    if bits x.toNat 30 27 < 8 && !x.getLsbD 22 then
      match dec x (if isRep w then 0 else w2) with
      | .ok (_, i) => some (i, w, w2, rep.map fun k => (k, repCount w))
      | .error _ => none
    else none

/-- After such an issue of the bench at `p`, the lanes whose results are outstanding may read their sources anew while they are. -/
def State.noteCalcs (dec : Decoder) (s0 s : State) (p : Place) : State :=
  let one (e : Nat × Thread) : Option Calc :=
    match s.thread? p e.1 with
    | some t =>
      let outs := t.out.drop e.2.out.length
      if outs.isEmpty || t.out.take e.2.out.length ≠ e.2.out then none
      else (s0.calcAt dec p e.1 e.2).map fun x => ⟨⟨p, e.1⟩, e.2, x.1, x.2.1, x.2.2.1, x.2.2.2, outs⟩
    | none => none
  match s0.bench? p with
  | some b => { s with calcs := s.calcs ++ b.threads.filterMap one }
  | none => s

/-- The `k`-th of these reads its sources again, where a later instruction of its run may have written by now (R57, Table 3.4, write after
read): its outstanding results become those of the registers as they stand; its other state is that of its issue. -/
def State.reread (s : State) (k : Nat) : State :=
  match s.calcs[k]? with
  | none => s
  | some c =>
    let again (t : Thread) : Option (List Pend) :=
      match exec c.i { s.updThread c.who.place c.who.lane (fun _ => { c.t with vregs := t.vregs, preds := t.preds, out := [] }) with
          cur := .grp c.who.place [c.who.lane] c.t.pc c.w c.w2 false c.rep } with
      | .next s' => (s'.thread? c.who.place c.who.lane).map Thread.out
      | _ => none
    match s.thread? c.who.place c.who.lane with
    | none => s
    | some t => match again t, c.outs with
      | some (r :: rs), o :: _ =>
        let n := (t.out.takeWhile (· ≠ o)).length
        let rest := c.outs.foldl List.erase t.out
        { s.updThread c.who.place c.who.lane fun t => { t with out := rest.take n ++ r :: rs ++ rest.drop n } with
          calcs := s.calcs.set k { c with outs := r :: rs } }
      | _, _ => s

/-- Whether all results of such an instruction are still outstanding. -/
def State.pendingCalc (s : State) (c : Calc) : Bool :=
  match s.thread? c.who.place c.who.lane with
  | some t => c.outs.all fun o => t.out.contains o
  | none => false

/-- One item of the schedule. -/
def State.runItem (dec : Decoder) (s : State) : Sched → Out
  | .issue p l => s.issueAt dec p l
  | .issueLate p l => match lateDone (({ s with late := true }).issueAt dec p l) with
    | .next t => .next (s.noteCalcs dec t p)
    | o => o
  | .reread k => .next (s.reread k)
  | .perform k => .next (s.performAt k)
  | .event i => s.eventAt i
  | .micro c => s.microAt c
  | .swapStop p => .next (s.swapStop p)
  | .tick n ms => .next { s with cycle := s.cycle + n, mstime := s.mstime + ms }
  | .evictCopy k => .next (s.evictCopy k)
  | .evictClean k => .next { s with clean := s.clean.eraseIdx k }
  | .dropPool l => .next (s.dropPool l)
  | .silent x => .next (s.silentAt x)
  | .evictTlb k => .next { s with tlbs := s.tlbs.eraseIdx k }
  | .settle c => .next (s.settleSpad c)
  | .ecc blk e => .next (s.eccAt blk e)
  | .eccUnit u off => .next (if u < 989 then s.countUnit u off false else s)
  | .ueOf k e => .next (s.localError k e)
  | .retire p => .next (s.retirePage p)
  | .hssFill n => .next ((s.updSdc fun c => { c with hssl := n }).sdcKeep)
  | .spdmOther ses => .next (s.spdmUnsupported ses)
  | .peerDies mid => .next (s.peerDies mid)
  | .lineArrives blk bs t => .next (s.lineArrives blk bs t)
  | .askStatus => .next (if s.hub.boot = .halted then s.send .errorStatus else s)

/-! ### The default order (log entry 2) -/

/-- Every access that is issued is performed, every outstanding result returns, and each drawer's free place is filled. -/
def State.prepare (s : State) : State :=
  let s := { s.performIf fun _ => true with calcs := [] }
  let s := s.benches.foldl (fun s b => (b.threads.map Prod.fst).foldl (fun s l => s.settleLane b.place l) s) s
  ((s.benches.filterMap fun b => drawerOf b.place).dedup).foldl (fun s i =>
    match (s.swapOut i).candidates i with
    | b :: _ => match execBenchAdmit b.place s with
      | .next t => t
      | _ => s
    | [] => s) s

/-- What can issue now: threads of benches, and sequencers. -/
def State.issuable (s : State) : List Sched :=
  (s.benches.flatMap fun b => (b.threads.filter fun e => b.mayIssue e.1 e.2).map fun e => Sched.issue b.place e.1) ++
    (s.asqs.filter fun e => s.asqReady e.1).map fun e => Sched.micro e.1

/-- Where the task unit would place a READY task: the first cluster with room, the submitter's core or cluster first. -/
def State.defaultPlaces (s : State) (t : Task) : List Place :=
  match t.stw with
  | some k => (((upto 8).map fun i => Place.steward k i).filter fun p => s.slotFits t p).take t.desc.nthr
  | none =>
    let n := benchesOf .drawers t.desc.nthr
    let at_ (clu : Nat) : List Place :=
      ((s.worldDrawers t.world clu).flatMap fun p => (upto 24).map fun k => Place.drawer p.1 p.2 k).filter fun p =>
        s.slotFits t p && (match t.desc.pcls, t.sub with
          | 4, some q => coreIx p = coreIx q
          | _, _ => true)
    let first := match t.sub with
      | some q => [clusterOf q]
      | none => []
    match (first ++ upto 48).find? fun c => n ≤ (at_ c).length with
    | some c => (at_ c).take n
    | none => []

/-- The events of the engines and of the task unit that might have something to do, in a fixed order. -/
def State.engineEvents (s : State) : List (State → Out) :=
  ((upto s.subs.length).map execTaskAccept) ++
  (s.tasks.flatMap fun e => if e.2.state = .ready then [execTaskDispatch e.1 (s.defaultPlaces e.2)]
    else if e.2.state.pending then [execTaskCommit e.1, execPhaseCommit e.1] else []) ++
  (s.saved.map fun b => execBenchRestore b.place) ++
  (s.mxus.flatMap fun e => if e.2.queue.isEmpty then [] else [execMxuCommandExecute (e.1 / 8) (e.1 % 8)]) ++
  ((upto s.pkts.length).map execPeerRowReceive) ++
  (s.packs.map fun a => execPeerAckReceive (a.dst / 8) (a.dst % 8) (BitVec.ofNat 32 a.seq)) ++
  (s.queues.flatMap fun e => (match e.2.qid with
      | .mem q => [execTaskQueueConsume q, execQueueSlotConsume q]
      | _ => []) ++
    e.2.ops.flatMap fun o => [startRow (fun _ => true) e.2.qid o.n, execBteBlockLand e.2.qid o.n, execBteOperationComplete e.2.qid o.n]) ++
  (s.asqs.map fun e => execAsqRunStart e.1) ++
  (s.asqs.map fun e => execBteBlockLand (.asq e.1) 0) ++
  [execSnapExecute, execScrubExecute, execQcmdRegister, execQcmdUnregister, execArenaRegister, execArenaUnregister, execVcmdVacate,
   execVcmdReturn, execVacationComplete, execXpeerExport, execIntegrityCheckComplete 0, execSettleExpiry] ++
  (s.benches.map fun b => execWatchdogExpiry b.place) ++
  (s.leases.flatMap fun e => [execLeaseExpiry e.1, execWbleadExpiry e.1, execRcwinExpiry e.1]) ++
  (s.hub.lse.bor.flatMap fun e => [execLeaseFlushComplete e.1, execLeasePrefetch e.1])

/-- The first of the events, from the `k`-th on, that does something. -/
def State.firstEvent (s : State) (k : Nat) : Option Out :=
  let es := s.engineEvents
  let n := k % Nat.max es.length 1
  (es.drop n ++ es.take n).findSome? fun f => match f s with
    | .next t => if t = s then none else some (.next t)
    | o => some o

/-- A step with an empty schedule: threads and engines take turns; time passes. -/
def State.defaultStep (dec : Decoder) (s : State) : Out :=
  let s := { s.prepare with cycle := s.cycle + 1, turn := s.turn + 1 }
  let xs := s.issuable
  let thread (_ : Unit) : Option Out := (xs[s.turn / 2 % Nat.max xs.length 1]?).map fun x => s.runItem dec x
  let first := if s.turn % 2 = 0 then (thread ()).orElse fun _ => s.firstEvent (s.turn / 2)
    else (s.firstEvent (s.turn / 2)).orElse thread
  first.getD (.next s)

/-! ### The step -/

/-- What holds before every step of a running machine: benches that became ready are marked (R105), register lines that the store has
no chunks for are spilled (R107), and the SDC's stores hold what they can (R322), and instructions whose results are not all outstanding keep them (R57). -/
def State.kept (s : State) : State :=
  let s := s.noteReady.spillAll.sdcFit
  { s with calcs := s.calcs.filter s.pendingCalc }

/-- Whether an item is one that a halted boot still answers: SPDM GET_VERSION and the error status of the management port (R364). -/
def answeredHalted : Sched → Bool
  | .event (.getVersion _) | .askStatus => true
  | _ => false

/-- One step with a decoder: a module stopped by a device-level error does nothing; from reset, boot runs first (R364); then the
next item of the schedule, or the default order. -/
def State.stepWith (dec : Decoder) (s : State) : Out :=
  if s.hub.devErr then .fault .deviceError
  else match s.hub.boot with
  | .reset => exec .boot s
  | .halted => match s.agenda with
    | x :: rest => if answeredHalted x then ({ s with agenda := rest }).runItem dec x else .next { s with agenda := rest }
    | [] => .next { s with cycle := s.cycle + 1 }
  | .running => match s.agenda with
    | x :: rest => ({ s.kept with agenda := rest }).runItem dec x
    | [] => s.kept.defaultStep dec

/-! ### Placing an instruction for the host -/

/-- Where the host's instruction runs: a drawer's bench, or a steward's for the words only stewards execute (R66). -/
def hostPlace (w : Word) : Place := if profileOk (.drawer 0 0 0) w then .drawer 0 0 0 else .steward 1 0

/-- Its task: world 0, one region that is the whole address space. -/
def hostTask (p : Place) (snap : Nat) : Task :=
  { kernelTask 0 { entry := 0x20000, param := 0, nthr := 1, vreg := 64, sreg := 48, preg := 128, quota := 0, nreg := 1, pcls := 0,
                   rtab := 0, nlb := 0, ncb := 0, domain := 0, user := 0, tltab := 0, done := 0 } snap with
    id := 1, pinned := false, clu := clusterOf p, cores := [coreIx p], stw := match p with
      | .steward k _ => some k
      | _ => none }

/-- Writes bytes as they stand at every epoch. -/
def State.pokeBytes (s : State) (a : Nat) (bs : List Byte) : State :=
  { s with mem := mputs 0 s.mem a bs, jrnl := s.jrnl.filter fun e => e.addr < a || a + bs.length ≤ e.addr }

/-- `s` with one thread at address 0x20000, where the instruction stands, and the schedule naming that thread next: world 0 mapped
one to one by one 1 GiB page, its root at 0, boot past (log entry 5). -/
def State.placeWords (s : State) (w0 w1 : Nat) : State :=
  let p := hostPlace (BitVec.ofNat 32 w0)
  let t := hostTask p s.epoch
  let th := Thread.start 0x20000 0 0 0 0 s.epoch
  let b := { Bench.start p 1 0 t.desc s.cycle [(0, th)] with active := true }
  let s := ((s.pokeBytes 0 (natLe 8 0x10001)).pokeBytes 0x10000 (natLe 8 0x3F)).pokeBytes 0x20000 (natLe 4 w0 ++ natLe 4 w1)
  { s with worlds := mset s.worlds 0 { s.world 0 with live := true, root := 0, conf := false, stopped := false },
           tasks := mset s.tasks 1 t, benches := b :: s.benches.filter fun x => x.place ≠ p,
           bad := s.bad.filter (· ≠ 2048), marked := s.marked.filter (· ≠ 2048), tlbs := [],
           hub := { s.hub with boot := .running, devErr := false }, agenda := [.issue p 0], cur := .idle }

end Sys2Proof.Machine
end

