-- ==== Sys2Proof/Safety.lean ====
section
/-! DEFINITION. Safe runs, and the terms the statements use: a group that issues, the state an issue opens, and the state after every lane
of the group has retired. -/

namespace Sys2Proof.Machine

/-- A state is safe when its step answers a next state. -/
def Safe (s : State) : Prop := ∃ t, step s = .next t

/-- The sparse maps that are read with a default are in canonical form: home memory, home tags, the cores. -/
def Canonical (s : State) : Prop := Memory.wf s.mem = true ∧ mwf tag0 s.tags = true ∧ mwf Core.init s.cores = true

/-- The lanes of a group in which the instruction executes: those whose guard is 1 (R60). -/
def Bench.executing (b : Bench) (g : Grp) : List Nat :=
  g.lanes.filter fun l => match mget? b.threads l with
    | some t => t.guard
    | none => false

/-- The group `g`, of threads of bench `b`, is being executed, and its word meets neither TC_PROFILE nor TC_PRIV (R66, R67). -/
structure Issuing (s : State) (g : Grp) (b : Bench) : Prop where
  cur       : s.grp? = some g
  bench     : s.bench? g.place = some b
  rising    : mrising b.threads = true
  some_lane : g.lanes ≠ []
  nodup     : g.lanes.Nodup
  present   : ∀ l ∈ g.lanes, ∃ t, mget? b.threads l = some t
  word      : wordCause s g = none

/-- Every lane passes the checks before execution: registers below the footprint, and the run check (R65, R58). -/
def Passes (b : Bench) (g : Grp) (ops : List Opnd) (xs : List Use) : Prop :=
  ∀ l ∈ g.lanes, ∀ t, mget? b.threads l = some t → t.checks b g ops xs = none

/-- The state in which the lanes of a group run: nothing else is being executed, the issue is noted, its operations counted (R214). -/
def State.opened (s : State) (g : Grp) (b : Bench) : State :=
  (({ s with cur := .idle }).noteIssue g).countFor b.task ((b.executing g).length * fpOps g.word)

/-- Changes the threads of a group's lanes, and nothing else. -/
def State.retireLanes (s : State) (g : Grp) (f : Nat → Thread → Thread) : State :=
  s.updBench g.place fun b => b.mapThreads fun l t => if l ∈ g.lanes then f l t else t

/-- What an ALU instruction does: its mode, its operands, and its results from the thread's environment and the source words. -/
abbrev AluSem := OpMode × AluOps × (FEnv → List Word → AluRes)

/-- Results that land in the vector registers from field `f` on, when the thread's outstanding results return (R56). -/
def vecPend (t : Thread) (f : BitVec 7) (ws : List Word) : List Pend := ((upto ws.length).zip ws).map fun e => .vec (t.wb + f.toNat + e.1) e.2

/-- What a group leaves when no lane faults or waits, from the state `s0` in which its effects on anything but its own threads stand: the
executing lanes have the outstanding results `out`, their jumps and the further change `post`; every lane of the group moves on, and the
issue is counted (R56, R60, R112, R368). -/
def State.finish (s0 : State) (g : Grp) (on : List Nat) (ops : List Opnd) (xs : List Use) (out : Nat → Thread → List Pend)
    (jump : Nat → Thread → Option DWord) (post : Nat → Thread → Thread → Thread) : State :=
  let uses (t : Thread) : List Use := (ops.flatMap fun o => o.uses t) ++ xs
  (s0.retireLanes g fun l t =>
    if l ∈ on then post l t ({ t with out := t.out ++ out l t }.retire g (uses t) (jump l t)) else t.retire g (uses t) none).countIssue g

/-- Results that land in the uniform registers from field `f` on; the stop of each executing lane waits for them (R51, R56). -/
def Bench.uniResults (b : Bench) (t : Thread) (f : BitVec 7) (ws : List Word) (on : List Nat) : Bench :=
  { b with uout := b.uout ++ ((upto ws.length).zip ws).map fun e => ⟨false, t.ws + f.toNat + e.1, e.2.setWidth 64, on⟩ }

/-- The state after an instruction that only gives its executing lanes results. -/
def laneAfter (s : State) (g : Grp) (b : Bench) (ops : List Opnd) (out : Nat → Thread → List Pend) : State :=
  (s.opened g b).finish g (b.executing g) ops [] out (fun _ _ => none) (fun _ _ t => t)

/-- The state after an ALU instruction of `g` (R118, R51): with per-thread modes every executing lane gets its own results and flags; under
U=1 the results of the lowest executing lane go to the uniform register once, its flags to every executing lane. A rounding under SR
advances `srseq` (R86). -/
def aluAfter (x : AluSem) (s : State) (g : Grp) (b : Bench) : State :=
  let (m, o, f) := x
  let on := b.executing g
  let s0 := s.opened g b
  if m = .u then
    match on with
    | [] => s0.finish g on (o.regs m) [] (fun _ _ => []) (fun _ _ => none) (fun _ _ t => t)
    | l0 :: _ =>
      let t0 := ((mget? b.threads l0).getD (Thread.start 0 0 0 0 0 0))
      let r := f (fenv b t0) (o.srcs .u b t0)
      (s0.updBench g.place fun b' => b'.uniResults t0 o.d r.out on).finish
        g on (o.regs m) [] (fun _ _ => flagPend r.flags) (fun _ _ => none) (fun _ _ t => srBump r.sr t)
  else
    s0.finish g on (o.regs m) []
      (fun _ t => vecPend t o.d (f (fenv b t) (o.srcs m b t)).out ++ flagPend (f (fenv b t) (o.srcs m b t)).flags)
      (fun _ _ => none) (fun _ t t' => srBump (f (fenv b t) (o.srcs m b t)).sr t')

end Sys2Proof.Machine
end

