-- ==== Sys2Proof/Certificates/Slice0/Obligations.lean ====
section
/-! DEFINITION. The statements for the provers, in the terms of Sys2Proof/Safety.lean. A statement that covers several instructions is the
conjunction of parts, `Sys2Proof.Says.<part>`. -/

/-! ### Issue groups: ALU instructions -/

namespace Sys2Proof.Machine

/-- An ALU instruction completes with exactly that state, in every group all of whose lanes pass their checks, unless its values
raise the one trap such an instruction has. -/
def AluCompletes (i : Instr) (x : AluSem) : Prop :=
  ∀ s g b, Issuing s g b → Passes b g (x.2.1.regs x.1) [] →
    (∀ l ∈ (if x.1 = .u then (b.executing g).take 1 else b.executing g), ∀ t, mget? b.threads l = some t → (x.2.2 (fenv b t) (x.2.1.srcs x.1 b t)).trap = none) →
    exec i s = .next (aluAfter x s g b)

/-- A result of one, two or three words, and one of a 64-bit pair and a word. -/
def on1 (f : Word → Word) : FEnv → List Word → AluRes
  | _, x :: _ => ⟨[f x], 0, false, none⟩
  | _, [] => ⟨[f 0], 0, false, none⟩
def on2 (f : Word → Word → Word) : FEnv → List Word → AluRes
  | _, x :: y :: _ => ⟨[f x y], 0, false, none⟩
  | _, _ => ⟨[f 0 0], 0, false, none⟩
def on3 (f : Word → Word → Word → Word) : FEnv → List Word → AluRes
  | _, x :: y :: z :: _ => ⟨[f x y z], 0, false, none⟩
  | _, _ => ⟨[f 0 0 0], 0, false, none⟩
/-- A 64-bit number as a pair: the low word first. -/
def inPair (v : Int) : AluRes := ⟨[BitVec.ofInt 32 v, BitVec.ofInt 32 (v / 2 ^ 32)], 0, false, none⟩
def onPair (f : Nat → Nat → Int) : FEnv → List Word → AluRes
  | _, lo :: hi :: y :: _ => inPair (f (lo.toNat + 2 ^ 32 * hi.toNat) y.toNat)
  | _, _ => inPair 0

/-- Table 6.1, on integers. -/
def integerSem : Instr → Option AluSem
  | .iadd m d a b => some (m, opT d a b, on2 fun x y => BitVec.ofNat 32 (x.toNat + y.toNat))
  | .isub m d a b => some (m, opT d a b, on2 fun x y => BitVec.ofInt 32 (x.toNat - y.toNat : Int))
  | .imul m d a b => some (m, opT d a b, on2 fun x y => BitVec.ofNat 32 (x.toNat * y.toNat))
  | .imulhs m d a b => some (m, opT d a b, on2 fun x y => BitVec.ofInt 32 (x.toInt * y.toInt / 2 ^ 32))
  | .imulhu m d a b => some (m, opT d a b, on2 fun x y => BitVec.ofNat 32 (x.toNat * y.toNat / 2 ^ 32))
  | .imad m d a b => some (m, opT3 d a b, on3 fun x y z => BitVec.ofNat 32 (x.toNat * y.toNat + z.toNat))
  | .imulw m d a b => some (m, opTw d a b 1, fun _ ws => match ws with
      | x :: y :: _ => inPair (x.toInt * y.toInt)
      | _ => inPair 0)
  | .iadd64 m d a b => some (m, opTw d a b 2, onPair fun x y => (x + y : Nat))
  | .isub64 m d a b => some (m, opTw d a b 2, onPair fun x y => (x : Int) - y)
  | .imins m d a b => some (m, opT d a b, on2 fun x y => BitVec.ofInt 32 (min x.toInt y.toInt))
  | .iminu m d a b => some (m, opT d a b, on2 fun x y => BitVec.ofNat 32 (min x.toNat y.toNat))
  | .imaxs m d a b => some (m, opT d a b, on2 fun x y => BitVec.ofInt 32 (max x.toInt y.toInt))
  | .imaxu m d a b => some (m, opT d a b, on2 fun x y => BitVec.ofNat 32 (max x.toNat y.toNat))
  | .idivu m d a b => some (m, opT d a b, on2 fun x y => if y.toNat = 0 then 0xFFFFFFFF#32 else BitVec.ofNat 32 (x.toNat / y.toNat))
  | .idivs m d a b => some (m, opT d a b, on2 fun x y => if y.toNat = 0 then 0xFFFFFFFF#32 else BitVec.ofInt 32 (x.toInt.tdiv y.toInt))
  | _ => none

/-- The 64-bit number with high word `x` and low word `z`. -/
def joined (x z : Word) : Nat := x.toNat * 2 ^ 32 + z.toNat

/-- Table 6.2 and R125: shift counts are b[4:0]; a bit field has position b[4:0] and length min(b[13:8], 32). -/
def logicSem : Instr → Option AluSem
  | .and m d a b => some (m, opT d a b, on2 fun x y => x &&& y)
  | .or m d a b => some (m, opT d a b, on2 fun x y => x ||| y)
  | .xor m d a b => some (m, opT d a b, on2 fun x y => x ^^^ y)
  | .andn m d a b => some (m, opT d a b, on2 fun x y => x &&& ~~~y)
  | .shl m d a b => some (m, opT d a b, on2 fun x y => BitVec.ofNat 32 (x.toNat * 2 ^ (y.toNat % 32)))
  | .shr m d a b => some (m, opT d a b, on2 fun x y => BitVec.ofNat 32 (x.toNat / 2 ^ (y.toNat % 32)))
  | .sar m d a b => some (m, opT d a b, on2 fun x y => BitVec.ofInt 32 (x.toInt / 2 ^ (y.toNat % 32)))
  | .rol m d a b => some (m, opT d a b, on2 fun x y => (x <<< (y.toNat % 32)) ||| (x >>> (32 - y.toNat % 32)))
  | .fshl m d a b => some (m, opT3 d a b, on3 fun x y z => BitVec.ofNat 32 (joined x z * 2 ^ (y.toNat % 32) / 2 ^ 32))
  | .fshr m d a b => some (m, opT3 d a b, on3 fun x y z => BitVec.ofNat 32 (joined x z / 2 ^ (y.toNat % 32)))
  | .bfxu m d a b => some (m, opT d a b, on2 fun x y => BitVec.ofNat 32 (x.toNat / 2 ^ (y.toNat % 32) % 2 ^ min (y.toNat / 2 ^ 8 % 2 ^ 6) 32))
  | .bfxs m d a b => some (m, opT d a b, on2 fun x y =>
      let n := min (y.toNat / 2 ^ 8 % 2 ^ 6) 32
      let f := x.toNat / 2 ^ (y.toNat % 32) % 2 ^ n
      if n = 0 then 0 else if f < 2 ^ (n - 1) then BitVec.ofNat 32 f else BitVec.ofInt 32 (f - 2 ^ n))
  | .bfi m d a b => some (m, opT3 d a b, on3 fun x y z =>
      let k : Word := BitVec.ofNat 32 ((2 ^ min (y.toNat / 2 ^ 8 % 2 ^ 6) 32 - 1) * 2 ^ (y.toNat % 32))
      ((x <<< (y.toNat % 32)) &&& k) ||| (z &&& ~~~k))
  | .popc u d a => some (modeU u, opT1 d a, on1 fun x => BitVec.ofNat 32 ((List.range 32).countP fun k => x.getLsbD k))
  | .clz u d a => some (modeU u, opT1 d a, on1 fun x => BitVec.ofNat 32 ((List.range 32).countP fun k => x.toNat < 2 ^ k))
  | .brev u d a => some (modeU u, opT1 d a, on1 fun x => x.reverse)
  | _ => none

/-- Table 6.3, but for CSRR and CSRW. -/
def moveSem : Instr → Option AluSem
  | .mov u d a => some (modeU u, opT1 d a, on1 fun x => x)
  | .movi u d k => some (modeU u, opD d false, fun _ _ => ⟨[BitVec.ofInt 32 k.toInt], 0, false, none⟩)
  | .movhi u d k => some (modeU u, opD d true, on1 fun x => BitVec.ofNat 32 (k.toNat * 2 ^ 18 + x.toNat % 2 ^ 18))
  | .ldi32 u d w => some (modeU u, opD d false, fun _ _ => ⟨[w], 0, false, none⟩)
  | .iaddi u d a k => some (modeU u, opT1 d a, on1 fun x => BitVec.ofInt 32 (x.toNat + k.toInt))
  | .imuli u d a k => some (modeU u, opT1 d a, on1 fun x => BitVec.ofInt 32 (x.toNat * k.toInt))
  | .andi u d a k => some (modeU u, opT1 d a, on1 fun x => x &&& BitVec.ofInt 32 k.toInt)
  | .ori u d a k => some (modeU u, opT1 d a, on1 fun x => x ||| BitVec.ofInt 32 k.toInt)
  | .xori u d a k => some (modeU u, opT1 d a, on1 fun x => x ^^^ BitVec.ofInt 32 k.toInt)
  | .shli u d a k => some (modeU u, opT1 d a, on1 fun x => BitVec.ofNat 32 (x.toNat * 2 ^ k.toNat))
  | .shri u d a k => some (modeU u, opT1 d a, on1 fun x => BitVec.ofNat 32 (x.toNat / 2 ^ k.toNat))
  | .sari u d a k => some (modeU u, opT1 d a, on1 fun x => BitVec.ofInt 32 (x.toInt / 2 ^ k.toNat))
  | .lea4 u d a b => some (modeU u, opTw d a b 2, onPair fun x y => (x + 4 * y : Nat))
  | .lea8 u d a b => some (modeU u, opTw d a b 2, onPair fun x y => (x + 8 * y : Nat))
  | _ => none

/-- Table 6.4 and R129 to R131: `f2 op` and `f3 op` round the exact result once in the thread's mode (R84, R128). -/
def fp32Sem : Instr → Option AluSem
  | .fadd m d a b => some (m, opT d a b, f2 addX)
  | .fsub m d a b => some (m, opT d a b, f2 fun e x y => addX e x y.negate)
  | .fmul m d a b => some (m, opT d a b, f2 fun _ => mulX)
  | .ffma m d a b => some (m, opT3 d a b, f3 fmaX)
  | .ffms m d a b => some (m, opT3 d a b, f3 fun e x y z => fmaX e x y z.negate)
  | .fmin m d a b => some (m, opT d a b, fmm false false)
  | .fmax m d a b => some (m, opT d a b, fmm true false)
  | .fminn m d a b => some (m, opT d a b, fmm false true)
  | .fmaxn m d a b => some (m, opT d a b, fmm true true)
  | .fabs u d a => some (modeU u, opT1 d a, on1 fun x => BitVec.ofNat 32 (x.toNat % 2 ^ 31))
  | .fneg u d a => some (modeU u, opT1 d a, on1 fun x => BitVec.ofNat 32 (x.toNat + 2 ^ 31))
  | .fcpys m d a b => some (m, opT d a b, on2 fun x y => BitVec.ofNat 32 (x.toNat % 2 ^ 31 + y.toNat / 2 ^ 31 * 2 ^ 31))
  | .frnd u d a m => some (modeU u, opT1 d a, frndX m.toNat)
  | .fclass u d a => some (modeU u, opT1 d a, on1 fclassW)
  | .fscale m d a b => some (m, opT d a b, fscaleX)
  | .fdiv m d a b => some (m, opT d a b, f2 fun _ => divX)
  | _ => none

/-- R132 to R135: packed arithmetic on two 16-bit elements, and the dot products accumulated into d. -/
def packedSem : Instr → Option AluSem
  | .hadd2 m d a b => some (m, opT d a b, pAdd cod16)
  | .hmul2 m d a b => some (m, opT d a b, pMul cod16)
  | .hfma2 m d a b => some (m, opT3 d a b, pFma cod16)
  | .hmin2 m d a b => some (m, opT d a b, pMm cod16 false)
  | .hmax2 m d a b => some (m, opT d a b, pMm cod16 true)
  | .badd2 m d a b => some (m, opT d a b, pAdd codBf)
  | .bmul2 m d a b => some (m, opT d a b, pMul codBf)
  | .bfma2 m d a b => some (m, opT3 d a b, pFma codBf)
  | .bmin2 m d a b => some (m, opT d a b, pMm codBf false)
  | .bmax2 m d a b => some (m, opT d a b, pMm codBf true)
  | .hdot2 m d a b => some (m, opT3 d a b, dot2 cod16)
  | .bdot2 m d a b => some (m, opT3 d a b, dot2 codBf)
  | .qdot4 m d a b => some (m, opT3 d a b, qdot4)
  | .idot4s m d a b => some (m, opT3 d a b, on3 fun x y z => BitVec.ofInt 32 (z.toNat +
      (byte x 0 * byte y 0 + byte x 1 * byte y 1 + byte x 2 * byte y 2 + byte x 3 * byte y 3)))
  | .idot4u m d a b => some (m, opT3 d a b, on3 fun x y z => BitVec.ofNat 32 (z.toNat +
      (byteOf x 0 * byteOf y 0 + byteOf x 1 * byteOf y 1 + byteOf x 2 * byteOf y 2 + byteOf x 3 * byteOf y 3)))
  | .idot8 m d a b => some (m, opT3 d a b, on3 fun x y z => BitVec.ofInt 32 (z.toNat +
      (nib x 0 * nib y 0 + nib x 1 * nib y 1 + nib x 2 * nib y 2 + nib x 3 * nib y 3 +
       nib x 4 * nib y 4 + nib x 5 * nib y 5 + nib x 6 * nib y 6 + nib x 7 * nib y 7)))
  | _ => none
where
  /-- Byte `j` and nibble `j` of a word, as signed numbers. -/
  byte (x : Word) (j : Nat) : Int := (BitVec.ofNat 8 (x.toNat / 2 ^ (8 * j))).toInt
  nib (x : Word) (j : Nat) : Int := (BitVec.ofNat 4 (x.toNat / 2 ^ (4 * j))).toInt

/-- R136 to R142, R145, R146: conversions, packing, the software draw and the exponent. -/
def convertSem : Instr → Option AluSem
  | .cvtff u d a x y m => some (modeU u, opT1 d a, cvtff x.toNat y.toNat m.toNat)
  | .cvtfi u d a y m => some (modeU u, opT1 d a, cvtfi y.toNat m.toNat)
  | .cvtif u d a y g m => some (modeU u, opT1 d a, cvtif y.toNat g m.toNat)
  | .cvtii u d a w t v => some (modeU u, opT1 d a, cvtii w.toNat t v)
  | .packb8 m d a b => some (m, ⟨d, 1, some a, 4, some b, false⟩, packb8)
  | .unpkb8 u d a p e x j => some (modeU u, opT1 d a, unpkb8 p.toNat e x j.toNat)
  | .packi4 m d a b => some (m, opT d a b, packi4)
  | .unpki4 u d a x j => some (modeU u, opT1 d a, on1 fun w =>
      let n : BitVec 4 := BitVec.ofNat 4 (w.toNat / 2 ^ (4 * j.toNat))
      if x then BitVec.ofInt 32 n.toInt else BitVec.ofNat 32 n.toNat)
  | .srnd u d i => some (modeU u, opD d false, fun e _ => ⟨[BitVec.ofNat 32 (e.draw i.toNat)], 0, true, none⟩)
  | .fexp u d a => some (modeU u, opT1 d a, on1 fexpW)
  | _ => none

/-- R149 to R154: the special functions. -/
def specialSem : Instr → Option AluSem
  | .rcp u d a => some (modeU u, opT1 d a, sfu rcpFp)
  | .rsq u d a => some (modeU u, opT1 d a, sfu rsqFp)
  | .sqrt u d a => some (modeU u, opT1 d a, sqrtF)
  | .ex2 u d a => some (modeU u, opT1 d a, sfu ex2Fp)
  | .lg2 u d a => some (modeU u, opT1 d a, sfu lg2Fp)
  | .sinpi u d a => some (modeU u, opT1 d a, sfu sinpiFp)
  | .cospi u d a => some (modeU u, opT1 d a, sfu cospiFp)
  | .tanh u d a => some (modeU u, opT1 d a, sfu tanhFp)
  | .rcph u d a => some (modeU u, opT1 d a, sfuH rcpFp)
  | .ex2h u d a => some (modeU u, opT1 d a, sfuH ex2Fp)
  | _ => none

end Sys2Proof.Machine

open Sys2Proof Sys2Proof.Machine

/-- R122, R123. Every G0 instruction, in each of its modes, writes the result of Table 6.1 (on integers, wrapping modulo 2^32 or 2^64;
division without traps) and sets no flag; nothing else changes.
The model's own choices it rests on: log entry 1. -/
def Obligations.IntegerArithmetic : Prop := ∀ i x, integerSem i = some x → AluCompletes i x

/-- R124, R125. Every G1 instruction writes the result of Table 6.2. -/
def Sys2Proof.Says.LogicShiftsBitFields : Prop := ∀ i x, logicSem i = some x → AluCompletes i x

/-- R126. The moves and immediates of G2 write the results of Table 6.3. -/
def Sys2Proof.Says.MovesAndImmediates : Prop := ∀ i x, moveSem i = some x → AluCompletes i x

/-- R128 to R131. The G3 instructions write their exact result rounded once, with its flags.
The model's own choices it rests on: log entry 1. -/
def Obligations.Fp32Arithmetic : Prop := ∀ i x, fp32Sem i = some x → AluCompletes i x

/-- R132 to R135. The G4 instructions: packed arithmetic and dot products. -/
def Sys2Proof.Says.PackedArithmetic : Prop := ∀ i x, packedSem i = some x → AluCompletes i x

/-- R136 to R142, R145, R146. The conversions of G5 that act on one thread's values. -/
def Sys2Proof.Says.Conversions : Prop := ∀ i x, convertSem i = some x → AluCompletes i x

/-- R147 to R154. The special functions of G6. -/
def Sys2Proof.Says.SpecialFunctions : Prop := ∀ i x, specialSem i = some x → AluCompletes i x

namespace Sys2Proof.Machine

/-- A compare: mode, operands, and the truth and flags of two words in an environment. -/
abbrev CmpSem := OpMode × BitVec 7 × BitVec 7 × BitVec 7 × (FEnv → Word → Word → Bool × Nat)

/-- R155, R156. The truth of each compare. -/
def compareSem : Instr → Option CmpSem
  | .iseteq m d a b => some (m, d, a, b, fun _ x y => (x.toNat == y.toNat, 0))
  | .isetne m d a b => some (m, d, a, b, fun _ x y => (x.toNat != y.toNat, 0))
  | .isetlt m d a b => some (m, d, a, b, fun _ x y => (decide (x.toInt < y.toInt), 0))
  | .isetle m d a b => some (m, d, a, b, fun _ x y => (decide (x.toInt ≤ y.toInt), 0))
  | .isetltu m d a b => some (m, d, a, b, fun _ x y => (decide (x.toNat < y.toNat), 0))
  | .isetleu m d a b => some (m, d, a, b, fun _ x y => (decide (x.toNat ≤ y.toNat), 0))
  | .fseteq m d a b => some (m, d, a, b, fcmpX false (noNan fun x y => x.cmp y = 0))
  | .fsetne m d a b => some (m, d, a, b, fcmpX false fun x y => x.isNan || y.isNan || x.cmp y ≠ 0)
  | .fsetlt m d a b => some (m, d, a, b, fcmpX true (noNan fun x y => x.cmp y < 0))
  | .fsetle m d a b => some (m, d, a, b, fcmpX true (noNan fun x y => x.cmp y ≤ 0))
  | .fsetun m d a b => some (m, d, a, b, fun _ x y => ((dec32 x).isNan || (dec32 y).isNan, 0))
  | _ => none

/-- The register operands of a compare, by mode (R51, R155). -/
def cmpOps (m : OpMode) (d a b : BitVec 7) : List Opnd :=
  [⟨if m = .u then .uni else .vec, a.toNat, 1, false⟩, ⟨if m = .v then .vec else .uni, b.toNat, 1, false⟩, ⟨.pred, d.toNat, 1, true⟩]

/-- The truth and flags a thread gives. -/
def cmpOf (x : CmpSem) (b : Bench) (t : Thread) : Bool × Nat :=
  let (m, _, a, c, f) := x
  f (fenv b t) (if m = .u then b.u t a.toNat else t.v a.toNat) (if m = .v then t.v c.toNat else b.u t c.toNat)

/-- An instruction that gives each executing lane the results `out`, and changes nothing else. -/
def LaneResults (i : Instr) (ops : List Opnd) (out : Nat → Bench → Nat → Thread → List Pend) : Prop :=
  ∀ s g b, Issuing s g b → Passes b g ops [] → exec i s = .next (laneAfter s g b ops (out s.cycle b))

/-- The executing lanes with their threads, in ascending order of the group. -/
def members (b : Bench) (g : Grp) : List (Nat × Thread) := (b.executing g).filterMap fun l => (mget? b.threads l).map fun t => (l, t)

/-- The predicate operations (R157). -/
def predSem : Instr → Option (List Opnd × (Thread → Pend))
  | .pand d a b => some ([rP a, rP b, wP d], fun t => .pred d.toNat (t.preds.getLsbD a.toNat && t.preds.getLsbD b.toNat))
  | .por d a b => some ([rP a, rP b, wP d], fun t => .pred d.toNat (t.preds.getLsbD a.toNat || t.preds.getLsbD b.toNat))
  | .pxor d a b => some ([rP a, rP b, wP d], fun t => .pred d.toNat (t.preds.getLsbD a.toNat ^^ t.preds.getLsbD b.toNat))
  | .pandn d a b => some ([rP a, rP b, wP d], fun t => .pred d.toNat (t.preds.getLsbD a.toNat && !t.preds.getLsbD b.toNat))
  | .ptov d a => some ([rP a, wV d], fun t => .vec (t.wb + d.toNat) (if t.preds.getLsbD a.toNat then 1 else 0))
  | _ => none

/-- The value lane `k` of the set gives in register `a`; `own` where the lane is not in the set (R159). -/
def laneVal (ms : List (Nat × Thread)) (a : BitVec 7) (k : Nat) (own : Word) : Word :=
  match ms.find? fun e => e.1 = k with
  | some e => e.2.v a.toNat
  | none => own

/-- The word whose bit `k` tells whether lane `k` of the set satisfies `p` (R160). -/
def maskOf (ms : List (Nat × Thread)) (p : Thread → Bool) : Word :=
  (ms.filter fun e => p e.2).foldl (fun m e => m ||| BitVec.ofNat 32 (2 ^ e.1)) 0

/-- The sum modulo 2^32 over the set (R161). -/
def sumOf (ms : List (Nat × Thread)) (a : BitVec 7) : Word := BitVec.ofNat 32 ((ms.map fun e => (e.2.v a.toNat).toNat).sum)

/-- The exact sum over the set, rounded once to FP32 in a thread's mode, with the flags (R161). -/
def exactSum (k : Nat) (ms : List (Nat × Thread)) (a : BitVec 7) (t : Thread) : Word × Nat × Bool :=
  let (x, fl) := landAll (ms.map fun e => dec32 (e.2.v a.toNat))
  let rm := rmOf (fpcRm t.fpc) (fpcRm t.fpc)
  let (z, fl') := roundTo fmt32 rm (if rm = .sr then srDraw t.srseed k (srTerm t.tid t.srseq 0) else 0) x.fp
  (enc32 z, fl ||| fl', rm = .sr)

/-- Cross-lane operations over the set of executing lanes (R143, R159 to R161): the operands, and the result of each lane. -/
def crossSem : Instr → Option (List Opnd × (List (Nat × Thread) → Nat → Thread → List Pend))
  | .qmaxb d a => some ([rV a, wV d], fun ms _ t => [put t d (enc32 (absMax (ms.map fun e => dec32 (e.2.v a.toNat))))])
  | .shfli d a c => some ([rV a, rV c, wV d], fun ms _ t => [put t d (laneVal ms a ((t.v c.toNat).toNat % 32) (t.v a.toNat))])
  | .shflu d a k => some ([rV a, wV d], fun ms l t => [put t d (if k.toNat ≤ l then laneVal ms a (l - k.toNat) (t.v a.toNat) else t.v a.toNat)])
  | .shfld d a k => some ([rV a, wV d], fun ms l t => [put t d (laneVal ms a (l + k.toNat) (t.v a.toNat))])
  | .shflx d a k => some ([rV a, wV d], fun ms l t => [put t d (laneVal ms a (l ^^^ k.toNat) (t.v a.toNat))])
  | .rdlane d a k => some ([rV a, wV d], fun ms _ t => [put t d (laneVal ms a k.toNat (t.v a.toNat))])
  | .vall d a => some ([rP a, wP d], fun ms _ _ => [.pred d.toNat (ms.all fun e => e.2.preds.getLsbD a.toNat)])
  | .vany d a => some ([rP a, wP d], fun ms _ _ => [.pred d.toNat (ms.any fun e => e.2.preds.getLsbD a.toNat)])
  | .vbal d a => some ([rP a, wV d], fun ms _ t => [put t d (maskOf ms fun t' => t'.preds.getLsbD a.toNat)])
  | .vmatch d a => some ([rV a, wV d], fun ms _ t => [put t d (maskOf ms fun t' => t'.v a.toNat = t.v a.toNat)])
  | .elect d => some ([wP d], fun ms l _ => [.pred d.toNat ((ms.head?.map Prod.fst) = some l)])
  | .bmask d => some ([wV d], fun ms _ t => [put t d (maskOf ms fun _ => true)])
  | .redsumi d a => some ([rV a, wV d], fun ms _ t => [put t d (sumOf ms a)])
  | .scansumi d a => some ([rV a, wV d], fun ms l t => [put t d (sumOf (ms.filter fun e => e.1 ≤ l) a)])
  | _ => none
where
  put (t : Thread) (d : BitVec 7) (x : Word) : Pend := .vec (t.wb + d.toNat) x

end Sys2Proof.Machine

/-- R155, R156, R51. A compare writes its truth to a predicate of each executing lane; under U=1 the one truth of the uniform operands goes
to every executing lane. -/
def Sys2Proof.Says.Compares : Prop :=
  ∀ i x, compareSem i = some x → ∀ s g b, Issuing s g b → Passes b g (cmpOps x.1 x.2.1 x.2.2.1 x.2.2.2.1) [] →
    exec i s = .next (laneAfter s g b (cmpOps x.1 x.2.1 x.2.2.1 x.2.2.2.1) fun _ t =>
      let r := cmpOf x b (if x.1 = .u then ((b.executing g).head?.bind (mget? (b.noted g).threads)).getD t else t)
      .pred x.2.1.toNat r.1 :: flagPend r.2)

/-- R157. The predicate operations, and PTOV. -/
def Sys2Proof.Says.PredicateOperations : Prop :=
  ∀ i x, predSem i = some x → LaneResults i x.1 fun _ _ _ t => [x.2 t]

/-- R143, R158 to R161. The shuffles, votes, masks and integer sums over the executing lanes of the group. -/
def Sys2Proof.Says.CrossLane : Prop :=
  ∀ i x, crossSem i = some x → ∀ s g b, Issuing s g b → Passes b g x.1 [] →
    exec i s = .next (laneAfter s g b x.1 fun l t => x.2 (members (b.noted g) g) l t)

/-- R161. REDSUMF and SCANSUMF give the exact sum of all executing lanes, or of those up to the lane, rounded once; a rounding under SR
advances `srseq`. -/
def Sys2Proof.Says.CrossLaneFloatSums : Prop :=
  ∀ s g b d a, Issuing s g b → Passes b g [rV a, wV d] [] →
    let after (sel : Nat → List (Nat × Thread)) : State :=
      (s.opened g b).finish g (b.executing g) [rV a, wV d] []
        (fun l t => let r := exactSum b.task (sel l) a t; .vec (t.wb + d.toNat) r.1 :: flagPend r.2.1) (fun _ _ => none)
        (fun l t t' => srBump (exactSum b.task (sel l) a t).2.2 t')
    exec (.redsumf d a) s = .next (after fun _ => members (b.noted g) g) ∧
    exec (.scansumf d a) s = .next (after fun l => (members (b.noted g) g).filter fun e => e.1 ≤ l)

/-- R144, R100. QPICK gives the tag, format byte and scale byte, of the 64 values its executing lanes hold in pairs (a lane that does not execute
adds zeros, which change no scale, R99); under U=1 of the uniform pair repeated, for the uniform register. -/
def Sys2Proof.Says.BlockTags : Prop := ∀ s g b d a (i : BitVec 7) fb f, Issuing s g b → elemOf fb = some f →
  (i = 1#7 ∧ fb = 1 ∨ i = 2#7 ∧ fb = 2 ∨ 64 ≤ i.toNat ∧ i.toNat % 16 / 8 = 0 ∧ 1 ≤ i.toNat % 8 ∧ fb = 128 + 32 * (i.toNat / 16 % 4) + i.toNat % 8) →
  let tag (xs : List Word) : Word := BitVec.ofNat 32 (256 * fb + pickScale f (xs.map dec32))
  (Passes b g [rV a 2, wV d] [] → exec (.qpick false d a i) s = .next (laneAfter s g b [rV a 2, wV d] fun _ t =>
    vecPend t d [tag ((members (b.noted g) g).flatMap fun e => [e.2.v a.toNat, e.2.v (a.toNat + 1)])])) ∧
  (Passes b g [rU a 2, wU d] [] → exec (.qpick true d a i) s =
    .next (aluAfter (.u, ⟨d, 1, some a, 2, none, false⟩, fun _ ws => ⟨[tag ws], 0, false, none⟩) s g b))

namespace Sys2Proof.Machine

/-- The state after an instruction of `g` that gives no results: the lanes' jumps, and the further change of each executing thread. -/
def moved (s : State) (g : Grp) (b : Bench) (ops : List Opnd) (xs : List Use) (jump : Nat → Thread → Option DWord)
    (post : Nat → Thread → Thread → Thread) : State :=
  (s.opened g b).finish g (b.executing g) ops xs (fun _ _ => []) jump post

/-- The 64-bit value of the vector pair at field `a` (R119). -/
def pairAt (t : Thread) (a : BitVec 7) : DWord := BitVec.ofNat 64 ((t.v a.toNat).toNat + 2 ^ 32 * (t.v (a.toNat + 1)).toNat)

/-- A branch target that faults neither way: bits [63:56] and [1:0] are zero (R163). -/
def goodTarget (x : DWord) : Prop := x.toNat < 2 ^ 56 ∧ x.toNat % 4 = 0

/-- The executing lanes of a group all satisfy `p`. -/
def Executing (b : Bench) (g : Grp) (p : Thread → Prop) : Prop := ∀ e ∈ members (b.noted g) g, p e.2

/-- A thread that calls: its return address is pushed (R164, R109). -/
def pushed (pc : DWord) (t : Thread) : Thread := { t with rstack := (pc + 4) :: t.rstack, rdepth := t.rdepth + 1 }

/-- A CSR that CSRW may write and CSRR may read, all 64 bits or 32 (Table 5.2). -/
def csrWidth (i : BitVec 14) : Nat := match csrInfo i.toNat with
  | some (wide, _) => if wide then 2 else 1
  | none => 1
def csrUniform (i : BitVec 14) : Bool := match csrInfo i.toNat with
  | some (_, u) => u
  | none => false

/-- The words of a CSR's value: the low word, and the high word of a 64-bit CSR (R127). -/
def csrWords (i : BitVec 14) (x : DWord) : List Word :=
  if csrWidth i = 2 then [BitVec.ofNat 32 x.toNat, BitVec.ofNat 32 (x.toNat / 2 ^ 32)] else [BitVec.ofNat 32 x.toNat]

/-- What the bits of a CSR take from a write (Table 5.2, R83, R111): none for a read-only one. -/
def csrTakes (t : Thread) (i : BitVec 14) (x : DWord) : Thread := t.land (.csr i.toNat x)

end Sys2Proof.Machine

/-- R163, R166, R169. BRA and BRX move each executing thread to its target; NOP has no effect; WINV and WINS set the window bases (an access
processor has no uniform window). -/
def Sys2Proof.Says.BranchesWindowsNop : Prop := ∀ s g b, Issuing s g b →
  (∀ i, Passes b g [] [] → exec (.bra i) s = .next (moved s g b [] [] (fun _ _ => some (g.pc + BitVec.ofInt 64 (4 * i.toInt))) fun _ _ t => t)) ∧
  (∀ a, Passes b g [rV a 2] [] → Executing b g (fun t => goodTarget (pairAt t a)) →
    exec (.brx a) s = .next (moved s g b [rV a 2] [] (fun _ t => some (pairAt t a)) fun _ _ t => t)) ∧
  (Passes b g [] [] → exec .nop s = .next (moved s g b [] [] (fun _ _ => none) fun _ _ t => t)) ∧
  (∀ i, Passes b g [] [⟨.vec, none, true⟩] →
    exec (.winv i) s = .next (moved s g b [] [⟨.vec, none, true⟩] (fun _ _ => none) fun _ _ t => { t with wb := i.toNat })) ∧
  (∀ i, Passes b g [] [⟨.uni, none, true⟩] →
    exec (.wins i) s = .next (moved s g b [] [⟨.uni, none, true⟩] (fun _ _ => none) fun _ _ t =>
      if isAp g.place then t else { t with ws := i.toNat }))

/-- R164, R109. CALL and CALLX push the address of the call plus 4 and branch; RET pops it. Here every thread holds fewer than eight entries
for a call and at least one for a return, so that memory is not needed. -/
def Sys2Proof.Says.CallsAndReturns : Prop := ∀ s g b, Issuing s g b →
  let room (t : Thread) : Prop := t.rstack.length < 8 ∧ t.rdepth < 2 ^ 24 - 1
  (∀ i, Passes b g [] [] → Executing b g room → exec (.call i) s =
    .next (moved s g b [] [] (fun _ _ => some (g.pc + BitVec.ofInt 64 (4 * i.toInt))) fun _ _ t => pushed g.pc t)) ∧
  (∀ a, Passes b g [rV a 2] [] → Executing b g (fun t => room t ∧ goodTarget (pairAt t a)) → exec (.callx a) s =
    .next (moved s g b [rV a 2] [] (fun _ t => some (pairAt t a)) fun _ _ t => pushed g.pc t)) ∧
  (Passes b g [] [] → Executing b g (fun t => t.rdepth ≠ 0 ∧ ∃ x r, t.rstack = x :: r ∧ goodTarget x) → exec .ret s =
    .next (moved s g b [] [] (fun _ t => t.rstack.head?) fun _ _ t => { t with rstack := t.rstack.tail, rdepth := t.rdepth - 1 }))

/-- R127, R110. CSRR gives each executing thread the CSR's value (the bench's one value of a bench-uniform CSR), the U=1 form gives it to
the uniform register; CSRW writes the thread's register to the CSR, outstanding until the thread's stop. -/
def Sys2Proof.Says.ControlRegisters : Prop := ∀ s g b, Issuing s g b → ∀ d i,
  (Passes b g [wV d (csrWidth i)] [] → exec (.csrr false d i) s = .next (laneAfter s g b [wV d (csrWidth i)] fun l t =>
    vecPend t d (csrWords i (s.csrRead (b.noted g) t l i.toNat)))) ∧
  (∀ l0 ls t0, b.executing g = l0 :: ls → mget? b.threads l0 = some t0 → Passes b g [wU d (csrWidth i)] [] →
    exec (.csrr true d i) s = .next (((s.opened g b).updBench g.place fun b' =>
      b'.uniResults t0 d (csrWords i (s.csrRead (b.noted g) t0 l0 i.toNat)) (l0 :: ls)).finish
      g (l0 :: ls) [wU d (csrWidth i)] [] (fun _ _ => []) (fun _ _ => none) fun _ _ t => t)) ∧
  (csrUniform i = false → Passes b g [rV d (csrWidth i)] [] → exec (.csrw false d i) s = .next (laneAfter s g b [rV d (csrWidth i)] fun _ t =>
    [.csr i.toNat (BitVec.ofNat 64 ((t.v d.toNat).toNat + if csrWidth i = 2 then 2 ^ 32 * (t.v (d.toNat + 1)).toNat else 0))]))

/-- R110, R111, Table 5.2. What a CSR reads as, in a thread of a drawer's bench: each register of the table its own part of the thread, its bench, its task,
its world or the drawer's clock; which of them hold 64 bits, and which are bench-uniform. -/
def Sys2Proof.Says.CsrReads : Prop := ∀ (s : State) (b : Bench) (t : Thread) (l core dr slot : Nat), b.place = .drawer core dr slot →
  let r (n : Nat) : DWord := s.csrRead b t l n
  let is (n : Nat) (x : Nat) : Prop := r n = BitVec.ofNat 64 x
  is 0x000 t.fpc.toNat ∧ r 0x001 = t.srseed ∧ is 0x002 t.srseq.toNat ∧ is 0x010 t.tid ∧ is 0x011 l ∧ is 0x012 slot ∧ is 0x013 slot ∧ is 0x014 dr ∧
  is 0x015 core ∧ is 0x016 (core / 4) ∧ is 0x017 b.task ∧ is 0x018 t.grp.toNat ∧ (∀ k, s.task? b.task = some k → is 0x019 k.snap) ∧
  is 0x01A (t.ws * 2 ^ 16 + t.wb) ∧ is 0x01B b.world ∧ is 0x020 b.spkey.toNat ∧ r 0x021 = t.rsbase ∧ is 0x022 (t.rstack.length * 2 ^ 24 + t.rdepth) ∧
  r 0x023 = t.rslim ∧ r 0x030 = (s.world b.world).tvec ∧ is 0x031 t.tcause.toNat ∧ r 0x032 = t.tval ∧ r 0x033 = t.tpc ∧ is 0x034 t.tstat.toNat ∧
  is 0x035 t.repc.toNat ∧ is 0x036 t.gspan.toNat ∧ is 0x038 b.rmask.toNat ∧ is 0x040 t.dbg.toNat ∧ is 0x041 s.cycle ∧
  ∀ n, csrInfo n ≠ none ↔ (n ≤ 2 ∨ (0x10 ≤ n ∧ n ≤ 0x1B) ∨ (0x20 ≤ n ∧ n ≤ 0x23) ∨ (0x30 ≤ n ∧ n ≤ 0x36) ∨ n = 0x38 ∨ n = 0x40 ∨ n = 0x41) ∧
    csrInfo n = some (decide (n ∈ [0x01, 0x19, 0x21, 0x23, 0x30, 0x32, 0x33, 0x41]),
      decide (n ∈ [0x12, 0x13, 0x14, 0x15, 0x16, 0x17, 0x19, 0x1B, 0x20, 0x30, 0x38, 0x41]))

/-- R127, R107. CSRW to a bench-uniform CSR: only `spkey` takes the write, once for the bench; under U=0 the value is that of one executing
thread, which one is open (log entry 14). -/
def Sys2Proof.Says.BenchUniformCsrWrites : Prop := ∀ s g b d i, Issuing s g b → csrUniform i = true → ∀ l0 ls t0, b.executing g = l0 :: ls →
  mget? b.threads l0 = some t0 →
  let pend (x : Nat) (b' : Bench) : Bench := if i = 0x20 then { b' with uout := b'.uout ++ [⟨true, 0x20, BitVec.ofNat 64 x, l0 :: ls⟩] } else b'
  (Passes b g [rU d (csrWidth i)] [] → exec (.csrw true d i) s =
    .next (((s.opened g b).updBench g.place (pend (b.u t0 d.toNat).toNat)).finish g (l0 :: ls) [rU d (csrWidth i)] [] (fun _ _ => [])
      (fun _ _ => none) fun _ _ t => t)) ∧
  (Passes b g [rV d (csrWidth i)] [] → ∃ l t, l ∈ l0 :: ls ∧ mget? b.threads l = some t ∧ ∃ n, exec (.csrw false d i) s =
    .next (({ s.opened g b with draws := n }.updBench g.place (pend (t.v d.toNat).toNat)).finish g (l0 :: ls) [rV d (csrWidth i)] []
      (fun _ _ => []) (fun _ _ => none) fun _ _ t => t))

/-- R110, R111, R83. What a CSR write leaves when it takes effect: the writable fields take their bits, a reserved rounding mode keeps the
old one, and read-only CSRs keep their value; no register changes. -/
def Sys2Proof.Says.CsrWriteFields : Prop := ∀ (t : Thread) (x : DWord),
  (∀ i, (csrTakes t i x).vregs = t.vregs ∧ (csrTakes t i x).preds = t.preds ∧ (csrTakes t i x).pc = t.pc) ∧
  (∀ k : Nat, k < 12 ∨ 15 ≤ k → (csrTakes t 0 x).fpc.getLsbD k = ((k ≤ 6 ∨ k = 15) && x.getLsbD k)) ∧
  (bits x.toNat 14 12 < 5 → fpcRm (csrTakes t 0 x).fpc = bits x.toNat 14 12) ∧
  (5 ≤ bits x.toNat 14 12 → fpcRm (csrTakes t 0 x).fpc = fpcRm t.fpc) ∧
  (csrTakes t 1 x).srseed = x ∧ (csrTakes t 0x32 x).tval = x ∧ (csrTakes t 0x33 x).tpc = x ∧
  (csrTakes t 0x31 x).tcause.toNat = x.toNat % 2 ^ 16 + x.toNat / 2 ^ 31 % 2 * 2 ^ 31 ∧
  (csrTakes t 0x34 x).tstat.toNat = x.toNat % 4 ∧ (csrTakes t 0x35 x).repc.toNat = x.toNat % 2 ^ 7 ∧
  (csrTakes t 0x36 x).gspan.toNat = x.toNat % 2 ^ 6 ∧ (csrTakes t 0x40 x).dbg.toNat = x.toNat % 2 ∧
  csrTakes t 0x10 x = t ∧ csrTakes t 0x17 x = t ∧ csrTakes t 0x1B x = t ∧ csrTakes t 0x30 x = t

namespace Sys2Proof.Machine

/-- `t'` is thread `t` in its handler (R113): the trap CSRs hold code and pin bit, `tval` and the address, H is set over its old value, the
prefixes are saved, every outstanding result but an unaccepted submission has landed, and the next fetch is at `tvec`. -/
structure InHandler (t t' : Thread) (code : Nat) (pin : Bool) (v tpc tvec : DWord) : Prop where
  tcause : t'.tcause.toNat = code + if pin then 2 ^ 31 else 0
  tval   : t'.tval = v
  tpc    : t'.tpc = tpc
  tstat  : t'.tstat.toNat = 1 + 2 * (t.tstat.toNat % 2)
  pc     : t'.pc = tvec
  vregs  : t'.vregs = t.settle.vregs
  preds  : t'.preds = t.settle.preds
  out    : ∀ p ∈ t'.out, p.isAwait = true
  bases  : t'.wb = t.wb ∧ t'.ws = t.ws ∧ t'.rstack = t.rstack ∧ t'.tid = t.tid
  prefixes : t'.rep = none ∧ t'.span = none
  ready  : t'.wait = .ready

/-- What the guarded span of a trapped thread is saved as (R60, R63): TRAP ends it, BPT counts it down, any other cause keeps it. -/
def savedSpanOf (c : Nat) (t : Thread) : Word :=
  match t.span with
  | none => 0
  | some (g, n) => if c = 0x18 then 0 else if c = 0x17 then (if n ≤ 1 then 0 else BitVec.ofNat 32 (32 + (if g then 16 else 0) + (n - 1)))
    else BitVec.ofNat 32 (32 + (if g then 16 else 0) + n)

/-- The task of a bench is pinned (R27). -/
def pinnedOf (s : State) (b : Bench) : Bool := match s.task? b.task with
  | some k => k.pinned
  | none => false

/-- A thread of bench `b` may enter its handler: the world has one, the executor is no access processor, H is 0 (R113, R187). -/
def HandlerReady (s : State) (b : Bench) (t : Thread) : Prop :=
  isAp b.place = false ∧ (s.world b.world).tvec ≠ 0 ∧ t.tstat.toNat % 2 = 0

/-- The lanes `ls` of the group take a trap: each that may enters its handler. Nothing else of the machine's memory, tasks and events
changes. -/
def TakesTrap (s t : State) (g : Grp) (b : Bench) (ls : List Nat) (code : Nat) (v : DWord) (tpc : DWord) : Prop :=
  (∀ l ∈ ls, ∀ th, mget? (b.noted g).threads l = some th → HandlerReady s b th →
    ∃ th', t.thread? g.place l = some th' ∧ InHandler th th' code (pinnedOf s b) v tpc (s.world b.world).tvec ∧ th'.gspan = savedSpanOf code th)

/-- No access of the group's lanes is issued and still to be performed (R34): what completes an instruction's results performs none. -/
def Performed (s : State) (g : Grp) : Prop := ∀ x ∈ s.lates, x.who.place = g.place → x.who.lane ∉ g.lanes

/-- Every lane of `ls` may enter its handler. -/
def AllHandlersReady (s : State) (g : Grp) (b : Bench) (ls : List Nat) : Prop :=
  Performed s g ∧ ∀ l ∈ ls, ∀ th, mget? (b.noted g).threads l = some th → HandlerReady s b th

/-- The lanes of the group outside `ls` only move past the instruction. -/
def OthersMove (_s t : State) (g : Grp) (b : Bench) (ls : List Nat) : Prop :=
  ∀ l ∈ g.lanes, l ∉ ls → ∀ th, mget? (b.noted g).threads l = some th → t.thread? g.place l = some (th.retire g [] none)

/-- Memory, tasks, worlds and event queues are as before. -/
def OnlyThreads (s t : State) : Prop :=
  t.mem = s.mem ∧ t.tags = s.tags ∧ t.tasks = s.tasks ∧ t.worlds = s.worlds ∧ t.evq = s.evq ∧ t.epoch = s.epoch ∧ t.cores = s.cores ∧
    t.mxus = s.mxus ∧ t.queues = s.queues

end Sys2Proof.Machine

/-- R166, R113. TRAP and BPT take TC_SOFT and TC_BPT: each executing thread enters its handler with `tval` the immediate and `tpc` the next
instruction; lanes whose guard is 0 only move on. -/
def Sys2Proof.Says.SoftwareTraps : Prop := ∀ s g b, Issuing s g b → Passes b g [] [] → AllHandlersReady s g b (b.executing g) → ∀ i : BitVec 14,
  (∃ t, exec (.trap i) s = .next t ∧ TakesTrap s t g b (b.executing g) 0x18 (BitVec.ofNat 64 i.toNat) (g.pc + 4) ∧
    OthersMove s t g b (b.executing g) ∧ OnlyThreads s t) ∧
  (∃ t, exec (.bpt i) s = .next t ∧ TakesTrap s t g b (b.executing g) 0x17 (BitVec.ofNat 64 i.toNat) (g.pc + 4) ∧
    OthersMove s t g b (b.executing g) ∧ OnlyThreads s t)

/-- R166. TRAP takes TC_SOFT and BPT TC_BPT: in each executing thread `tcause` holds the code, `tval` imm14 zero-extended and `tpc` the next
instruction, and the thread goes to its handler; FA is reserved in both. NOP has no effect, and with S=1 is a pure stop. -/
def Sys2Proof.Says.TrapAndNop : Prop := (∀ s g b, Issuing s g b → Passes b g [] [] →
    (AllHandlersReady s g b (b.executing g) → ∀ (i : BitVec 14) (soft : Bool),
      ∃ t, exec (if soft then .trap i else .bpt i) s = .next t ∧ ∀ l ∈ b.executing g, ∃ th, t.thread? g.place l = some th ∧
        th.tcause.toNat % 2 ^ 31 = (if soft then 0x18 else 0x17) ∧ th.tval.toNat = i.toNat ∧ th.tpc = g.pc + 4 ∧ th.pc = (s.world b.world).tvec) ∧
    exec .nop s = .next (((s.opened g b).retireLanes g fun _ t => t.retire g [] none).countIssue g)) ∧
  (∀ (w w2 : Word), w.toNat / 2 ^ 27 % 16 = 9 → w.toNat / 2 ^ 22 % 32 = 3 → w.toNat / 2 ^ 14 % 2 ^ 7 ≠ 0 → decode w w2 = .error .resfield)

/-- R170, R63. ERET, in a handler: H becomes PVH, the thread goes to `tpc`, a valid `repc` or `gspan` continues the repeat or the span there
(`gspan` is consumed, `repc` only when the REP finishes); the registers stay. With H = 0 it takes TC_ILLEGAL. -/
def Sys2Proof.Says.ReturnFromHandler : Prop := ∀ s g b, Issuing s g b → Passes b g [] [] →
  (Executing b g (fun t => t.tstat.toNat % 2 = 1) → exec .eret s = .next (moved s g b [] [] (fun _ t => some t.tpc) fun _ _ t =>
    { t with tstat := BitVec.ofNat 32 (t.tstat.toNat / 2 % 2 + 2 * (t.tstat.toNat / 2 % 2)), pc := t.tpc,
             rep := if t.repc.getLsbD 6 then some (t.repc.toNat % 64) else none,
             span := if t.gspan.getLsbD 5 ∧ 1 ≤ t.gspan.toNat % 16 ∧ t.gspan.toNat % 16 ≤ 8 then
               some (t.gspan.getLsbD 4, t.gspan.toNat % 16) else none,
             resumed := t.repc.getLsbD 6, gspan := 0, used := [], entering := false })) ∧
  (Executing b g (fun t => t.tstat.toNat % 2 = 0) → AllHandlersReady s g b (b.executing g) → ¬ isX g.w.toNat →
    ∃ t, exec .eret s = .next t ∧ TakesTrap s t g b (b.executing g) 0x01 (g.w.setWidth 64) g.pc ∧ OnlyThreads s t)

/-- R113. An H cause taken while H is 1 is a double trap: no handler is entered; an unpinned task is discarded, a pinned one is STOPPED and its
bench stops with the faulting lanes in `rmask`; one HANDLER_FAULT event, and no TASK event, is posted. -/
def Sys2Proof.Says.DoubleTrap : Prop := ∀ s g b k, Issuing s g b → Passes b g [] [] → isAp g.place = false → (s.world b.world).tvec ≠ 0 →
  s.task? b.task = some k → b.executing g = g.lanes → Executing b g (fun t => t.tstat.toNat % 2 = 1) → b.rmask = 0 → ∀ i : BitVec 14,
  ∃ t, exec (.trap i) s = .next t ∧
    (k.pinned = true → (t.bench? g.place).map (fun x => x.stopped) = some (some .fault) ∧ (t.task? b.task).map (fun x => x.state) = some .stopped ∧
      (∀ l < 32, ((t.bench? g.place).map fun x => x.rmask.getLsbD l) = some (decide (l ∈ g.lanes)))) ∧
    (k.pinned = false → (t.task? b.task).map (fun x => (x.state, x.ver)) = some (.discarded, []) ∧ ∀ x ∈ t.benches, x.task ≠ b.task) ∧
    (((mget [] s.evq ((s.ctlReg 0x58).toNat % 16)).length < 1024) →
      ∃ r, mget [] t.evq ((s.ctlReg 0x58).toNat % 16) = mget [] s.evq ((s.ctlReg 0x58).toNat % 16) ++ [r] ∧ (nth 0 r.words 0).toNat % 256 = 2)

/-- R171, R67. HALT stops the bench after the instruction, with `tpc` at the next one and its results complete; the task is STOPPED and an event of
KIND 3 naming the bench is posted. -/
def Sys2Proof.Says.Halt : Prop := ∀ s g b k, Issuing s g b → Passes b g [] [] → Performed s g → s.task? b.task = some k → b.executing g = g.lanes →
  ∃ t, exec .halt s = .next t ∧ (t.bench? g.place).map (fun x => x.stopped) = some (some .halt) ∧
    (t.task? b.task).map (fun x => x.state) = some .stopped ∧ t.mem = s.mem ∧
    (∀ l ∈ g.lanes, ∀ th, mget? (b.noted g).threads l = some th → ∃ th', t.thread? g.place l = some th' ∧ th'.tpc = g.pc + 4 ∧
      (g.rep = none → th'.pc = g.pc + BitVec.ofNat 64 g.len) ∧ th'.vregs = th.settle.vregs) ∧
    (((mget [] s.evq ((s.ctlReg 0x58).toNat % 16)).length < 1024) →
      ∃ r, mget [] t.evq ((s.ctlReg 0x58).toNat % 16) = mget [] s.evq ((s.ctlReg 0x58).toNat % 16) ++ [r] ∧ (nth 0 r.words 0).toNat % 256 = 3 ∧
        nth 0 r.words 6 = BitVec.ofNat 32 (placeWord (some g.place)))

/-- R165, R217. EXIT ends each executing thread; when no thread of the task is left, the task is COMMITTING. -/
def Sys2Proof.Says.Exit : Prop := ∀ s g b k, Issuing s g b → Passes b g [] [] → Performed s g → isAp g.place = false → s.task? b.task = some k → k.state = .running →
  (∀ l ∈ b.executing g, ∀ th, mget? b.threads l = some th → th.grp = 0 ∧ th.live = true) → b.executing g ≠ [] →
  ∃ t, exec .exit s = .next t ∧ t.mem = s.mem ∧ (∀ l ∈ b.executing g, (t.thread? g.place l).map (fun x => x.wait) = some .exited) ∧
    ((∀ x ∈ s.benches ++ s.saved, x.task = b.task → x.place = g.place) → (∀ e ∈ b.threads, e.2.live = true → e.1 ∈ b.executing g) →
      (∀ x ∈ s.benches, ∀ y ∈ s.benches, x.place = y.place → x = y) → s.saved = [] → (t.task? b.task).map (fun x => x.state) = some .committing) ∧
    ((∃ e ∈ b.threads, e.2.live = true ∧ e.1 ∉ b.executing g) → (t.task? b.task).map (fun x => x.state) = some .running)

namespace Sys2Proof.Machine

/-- The privileged instructions (R67), one of each word. -/
def systemOnly : Instr → Bool
  | .halt | .tlbinvAddress _ _ | .snap _ _ | .scrub _ _ _ | .placePrefer _ _ _ | .worldcfgCreate _ _ | .keyld _ _ | .lsetConfig _ _ _
  | .lgetEntryLow _ _ | .lrecall _ _ | .bisnp _ _ _ | .sign _ _ _ | .mext _ _ _ | .nvinc _ _ | .seal _ _ _ | .unseal _ _ | .resync _ _
  | .ipi _ _ | .capr _ _ | .evtpop _ _ => true
  | _ => false

end Sys2Proof.Machine

/-- R60. GRD captures the guard of each thread and opens a span of n instructions, a span already open ending; it guards nothing itself. -/
def Sys2Proof.Says.GuardPrefix : Prop := ∀ s g b p n k, Issuing s g b → g.rep = none → isGrd g.w2 = false → Passes b g [rP p] [] →
  exec (.grd p n k) s = .next (moved s g b [rP p] [] (fun _ _ => none) fun _ t t' =>
    { t' with span := some (t.preds.getLsbD p.toNat ^^ n, k.toNat + 1) })

/-- R61, R118. REP puts every thread of the group, whatever its guard, before repeat 0 of its target, the span and the address kept; the
target's k-th repeat is then issued at the same address, and the last one moves past both words. Where the target is no repeatable
instruction or a step falls on a field that names no register, every lane takes TC_ILLEGAL. -/
def Sys2Proof.Says.RepeatPrefix : Prop := ∀ s g b c x y z, Issuing s g b → g.rep = none → isRep g.w = true → Passes b g [] [] →
  (repTargetOk g.w2 = true → repStepsOk x y z g.w2 = true →
    exec (.rep c x y z) s = .next (((s.opened g b).retireLanes g fun _ t => { t with polled := none, entering := false, rep := some 0 }).countIssue g)) ∧
  ((repTargetOk g.w2 && repStepsOk x y z g.w2) = false → AllHandlersReady s g b g.lanes → ¬ isX g.w.toNat →
    ∃ t, exec (.rep c x y z) s = .next t ∧ TakesTrap s t g b g.lanes 0x01 (g.w.setWidth 64) g.pc ∧ OnlyThreads s t)

/-- R61, R56, R60, R63. How a completed thread moves: from a REP to its first repeat, inside a repeat to the next one, at its end past REP and
target with a resumed `repc` cleared; otherwise to its jump or past the instruction's words; the span is counted down once per instruction, a
REP and its target together, and ended by a taken transfer; a stop ends the run's names. -/
def Sys2Proof.Says.MovingOn : Prop := ∀ (t : Thread) (g : Grp) (us : List Use) (j : Option DWord),
  let t' := t.retire g us j
  let counted : Option (Bool × Nat) := t.span.bind fun (v, n) => if n ≤ 1 then none else some (v, n - 1)
  (∀ k c, g.rep = some (k, c) → k + 1 < c → t'.rep = some (k + 1) ∧ t'.pc = t.pc ∧ t'.span = t.span ∧ t'.repc = t.repc) ∧
  (∀ k c, g.rep = some (k, c) → c ≤ k + 1 → t'.rep = none ∧ t'.pc = g.pc + 8 ∧ t'.atStop = g.stop ∧ t'.span = counted ∧
    t'.repc = (if t.resumed then 0 else t.repc)) ∧
  (g.rep = none → isRep g.w = true → t'.rep = some 0 ∧ t'.pc = t.pc ∧ t'.span = t.span ∧ t'.used = t.used) ∧
  (g.rep = none → isRep g.w = false → j = none → t'.pc = g.pc + BitVec.ofNat 64 (if isX g.w.toNat then 8 else 4) ∧ t'.atStop = g.stop ∧
    t'.span = counted) ∧
  (∀ x, g.rep = none → isRep g.w = false → j = some x → t'.pc = x ∧ t'.span = none) ∧
  (g.rep = none → isRep g.w = false → g.stop = true → t'.used = []) ∧
  t'.vregs = t.vregs ∧ t'.preds = t.preds ∧ t'.out = t.out ∧ t'.fpc = t.fpc ∧ t'.wait = t.wait ∧ t'.rstack = t.rstack ∧ t'.tstat = t.tstat ∧
  t'.wb = t.wb ∧ t'.ws = t.ws

/-- R167. YIELD: the thread's results complete, and it is parked until its bench issues again; a bench all of whose live threads have yielded
leaves the active set, ready again. -/
def Sys2Proof.Says.Yield : Prop := ∀ s g b, Issuing s g b → Passes b g [] [] → Performed s g → b.executing g = g.lanes → (∀ l ∈ g.lanes, ∀ t, mget? b.threads l = some t → t.live = true) →
  ∃ t, exec .yield s = .next t ∧ t.mem = s.mem ∧ t.tasks = s.tasks ∧
    (∀ l ∈ g.lanes, ∀ th, mget? (b.noted g).threads l = some th → ∃ th', t.thread? g.place l = some th' ∧ th'.vregs = th.settle.vregs ∧
      th'.pc = (th.retire g [] none).pc) ∧
    ((∃ e ∈ b.threads, e.2.live = true ∧ e.1 ∉ g.lanes) → (t.bench? g.place).map (fun x => x.active) = some b.active ∧
      ∀ l ∈ g.lanes, (t.thread? g.place l).map (fun x => x.wait) = some .yielded) ∧
    ((∀ e ∈ b.threads, e.2.live = true → e.1 ∈ g.lanes) → (t.bench? g.place).map (fun x => x.active) = some false ∧
      ∀ l ∈ g.lanes, (t.thread? g.place l).map (fun x => x.wait) = some .ready)

/-- R168. MARM translates its address and arms the thread's one watch on the 64-byte block (one thread issuing; the translation may fill the
TLBs). MWAIT parks a thread whose watched block has not been written, and otherwise returns at once, disarmed. -/
def Sys2Proof.Says.WatchAndWait : Prop := ∀ s g b, Issuing s g b →
  (∀ a l t s' loc, g.lanes = [l] → b.executing g = [l] → Passes b g [rV a 2] [] → mget? (b.noted g).threads l = some t →
    (s.opened g b).translate (coreIx g.place) b.world .load (pairAt t a).toNat = (s', .ok loc) → dpaKind loc.dpa ≠ .mmio →
    ∃ s2 t', exec (.marm a) s = .next s2 ∧ s2.thread? g.place l = some t' ∧ t'.watch = some ⟨loc.dpa / 64, false⟩ ∧ t'.vregs = t.vregs ∧
      s2.mem = s.mem) ∧
  (Passes b g [] [] → exec .mwait s = .next (moved s g b [] [] (fun _ _ => none) fun _ t t' => match t.watch with
    | none => t'
    | some w => if w.hit then { t' with watch := none } else { t' with wait := .mwait }))

/-- R70, R71, Table 3.9. A word that is no instruction is executed by no lane: every lane of its group takes the trap of the first cause in the
order TC_ILLEGAL, TC_PROFILE, TC_PRIV, TC_RESFIELD, whatever its guard, with the word (and the second word of an X instruction) in `tval`. The
target of a REP takes it at its own address, and between repeats at the REP's. -/
def Sys2Proof.Says.MalformedWords : Prop := ∀ s g b, Issuing s g b → AllHandlersReady s g b g.lanes →
  (g.rep = none → isRep g.w = false ∧ isGrd g.w = false →
    let v : DWord := if isX g.w.toNat then g.w2 ++ g.w else g.w.setWidth 64
    ∃ t, exec .malformedWord s = .next t ∧ TakesTrap s t g b g.lanes (if illegalWord g.w g.w2 then 0x01 else 0x02) v g.pc ∧ OnlyThreads s t) ∧
  (∀ k c w, g.rep = some (k, c) → stepWord g.w g.w2 k = some w → isX g.w2.toNat = false →
    let code := if illegalWord w 0 then 0x01 else if profileOk g.place w = false then 0x04 else if privWord w && b.world ≠ 0 then 0x03 else 0x02
    ∃ t, exec .malformedWord s = .next t ∧ TakesTrap s t g b g.lanes code (g.w2.setWidth 64) (if k = 0 then g.pc + 4 else g.pc) ∧ OnlyThreads s t)

/-- R66, R67, R71. A word outside the executing profile takes TC_PROFILE, and a privileged word in a user world TC_PRIV, in every lane,
whatever its guard, and has no effect. -/
def Sys2Proof.Says.ProfileAndPrivilege : Prop := ∀ (i : Instr) s g b, i.wf = true → i.legal = true → encode g.stop i = [g.w] → s.grp? = some g → s.bench? g.place = some b →
  mrising b.threads = true → g.lanes.Nodup → g.lanes ≠ [] → (∀ l ∈ g.lanes, ∃ t, mget? b.threads l = some t) → AllHandlersReady s g b g.lanes → g.rep = none →
  (profileOk g.place g.w = false → (∀ c x y z, i ≠ .rep c x y z) → (∀ p n k, i ≠ .grd p n k) →
    ∃ t, exec i s = .next t ∧ TakesTrap s t g b g.lanes 0x04 (g.w.setWidth 64) g.pc ∧ OnlyThreads s t) ∧
  (profileOk g.place g.w = true → b.world ≠ 0 → systemOnly i = true →
    ∃ t, exec i s = .next t ∧ TakesTrap s t g b g.lanes 0x03 (g.w.setWidth 64) g.pc ∧ OnlyThreads s t)

namespace Sys2Proof.Machine

/-- Two uses of a register in one run conflict, one of them a write, or a window instruction against a register of its class (R57, R58). -/
def Conflict (o n : Use) : Prop := o.cls = n.cls ∧ (o.i = n.i ∨ o.i = none ∨ n.i = none) ∧ (o.write = true ∨ n.write = true)

/-- The case of a conflict in the order of Table 3.4, and the code of a register class (R58). -/
def conflictCase (o n : Use) : Nat := if o.write then (if n.write then 1 else 0) else 2
def classCode : RClass → Nat
  | .vec => 0
  | .uni => 1
  | .pred => 2

/-- The uses of an instruction's register operands by a thread. -/
def usesOf (ops : List Opnd) (t : Thread) : List Use := ops.flatMap fun o => o.uses t

end Sys2Proof.Machine

/-- R65, R71, R58, R118. A lane whose guard is 1 and that names a register at or above the footprint takes TC_REGRANGE; a lane in run-check mode,
whatever its guard, whose instruction would make a hazard takes TC_HAZARD, with `tval` naming it; no other lane is held up by either, and one
whose guard is 0 moves on. Shown for the instructions of G0. -/
def Sys2Proof.Says.FootprintChecked : Prop := ∀ (i : Instr) (x : AluSem) s g b, integerSem i = some x → Issuing s g b →
  AllHandlersReady s g b g.lanes → ¬ isX g.w.toNat →
  let ops := x.2.1.regs x.1
  let outside (t : Thread) : Prop := t.guard = true ∧ ∃ o ∈ ops, o.inFoot b t = false
  ∃ t', exec i s = .next t' ∧ OnlyThreads s t' ∧ ∀ l ∈ g.lanes, ∀ th, mget? (b.noted g).threads l = some th →
    (outside th → TakesTrap s t' g b [l] 0x06 (g.w.setWidth 64) g.pc) ∧
    (∀ v, ¬ outside th → th.dbg.getLsbD 0 = true → th.hazard (usesOf ops th) = some v → TakesTrap s t' g b [l] 0x05 v g.pc) ∧
    (th.guard = false → th.dbg.getLsbD 0 = false ∨ th.hazard (usesOf ops th) = none →
      t'.thread? g.place l = some (th.retire g (usesOf ops th) none))

/-- R58. An instruction makes a hazard exactly where it names a register that an earlier instruction of the run names, one of the two writing it, or
where one of the two is a window instruction of that class. `tval` names the first one, by the earlier instruction, then by the later one's
operands: index, class, case of Table 3.4; of a window instruction the lowest index that the other names in its class, or 0. -/
def Sys2Proof.Says.RunCheck : Prop := ∀ (t : Thread) (us : List Use),
  ((t.hazard us).isSome = true ↔ ∃ old ∈ t.used, ∃ o ∈ old, ∃ n ∈ us, Conflict o n) ∧
  ∀ old rest, t.used = old :: rest →
    ((∀ o ∈ old, ∀ n ∈ us, ¬ Conflict o n) → t.hazard us = ({ t with used := rest } : Thread).hazard us) ∧
    ∀ o1 o o2 n1 n n2, old = o1 ++ o :: o2 → us = n1 ++ n :: n2 → (∀ y ∈ old, ∀ z ∈ n1, ¬ Conflict y z) → (∀ y ∈ o1, ¬ Conflict y n) →
      Conflict o n → ∃ v, t.hazard us = some v ∧ v.toNat / 2 ^ 9 = classCode n.cls + 4 * conflictCase o n ∧
        (∀ a, o.i = some a → n.i = some a → v.toNat % 2 ^ 9 = a % 2 ^ 9) ∧
        (o.i = none → n.i = none → v.toNat % 2 ^ 9 = 0) ∧
        (∀ a, o.i = none → n.i = some a → ∃ m ∈ us, m.cls = n.cls ∧ ∃ c, m.i = some c ∧ v.toNat % 2 ^ 9 = c % 2 ^ 9 ∧
          ∀ z ∈ us, z.cls = n.cls → ∀ e, z.i = some e → c ≤ e) ∧
        (∀ a, o.i = some a → n.i = none → ∃ m ∈ old, m.cls = n.cls ∧ ∃ c, m.i = some c ∧ v.toNat % 2 ^ 9 = c % 2 ^ 9 ∧
          ∀ z ∈ old, z.cls = n.cls → ∀ e, z.i = some e → c ≤ e)

/-! ### Memory -/

namespace Sys2Proof.Machine

/-- The group is one lane, whose guard is 1; `t` is its thread as the instruction finds it, with every earlier access performed; its own
are performed at once. (The lanes of a larger group act one after another, in ascending order, R118; later accesses are those of
`LateAccesses`.) -/
structure Alone (s : State) (g : Grp) (b : Bench) (l : Nat) (t : Thread) : Prop where
  issuing : Issuing s g b
  canon   : Canonical s
  lanes   : g.lanes = [l]
  thread  : mget? (b.noted g).threads l = some t
  guard   : t.guard = true
  now     : s.late = false
  done    : ∀ x ∈ s.lates, x.who ≠ ⟨g.place, l⟩ ∧ x.ins ≠ s.nextLate

/-- A thread after an instruction that gave it the outstanding results `rs` and moved it on. -/
def Thread.after (t : Thread) (g : Grp) (ops : List Opnd) (rs : List Pend) : Thread :=
  { t with out := t.out ++ rs }.retire g (ops.flatMap fun (o : Opnd) => o.uses t) none

/-- The lane's thread is `th`, every other thread is as the issue left it, and nothing is being executed. -/
def LaneIs (s t : State) (g : Grp) (l : Nat) (th : Thread) : Prop :=
  t.thread? g.place l = some th ∧ (∀ p m, (p, m) ≠ (g.place, l) → t.thread? p m = (s.noteIssue g).thread? p m) ∧ t.cur = .idle

/-- Nothing but translation caches, clean cached lines, counters and the SDC changed outside the threads: home memory and tags, strong copies,
tasks with their versions, worlds, scratchpad contents, events, barriers, queues. -/
def Quiet (s t : State) : Prop :=
  t.mem = s.mem ∧ t.tags = s.tags ∧ t.copies = s.copies ∧ t.tasks = s.tasks ∧ t.worlds = s.worlds ∧ t.evq = s.evq ∧ t.epoch = s.epoch ∧
    t.slots = s.slots ∧ t.queues = s.queues ∧ t.mxus = s.mxus ∧ t.saved = s.saved ∧
    (∀ c, (t.core c).spad = (s.core c).spad ∧ (t.core c).fifos = (s.core c).fifos ∧ (t.core c).banks = (s.core c).banks)

/-- The strong copies that L1 and the cluster cache hold leave room there (Table 7.4), so that a line may be filled without a write-back. -/
def CacheRoom (s : State) (g : Grp) (b : Bench) : Prop :=
  ∀ c, c = .core (coreIx g.place) ∨ c = .cluster (clusterOf g.place) → (s.copies.filter fun y => y.at_ = c).length < s.copyRoom c b.world

/-- The address operand of R195: an even vector pair, or the uniform pair below an odd index, plus the signed offset in units of `z`. -/
def effective (b : Bench) (t : Thread) (a i : BitVec 7) (z : Nat) : DWord :=
  let lo : Word := if a.toNat % 2 = 1 then b.u t (a.toNat - 1) else t.v a.toNat
  let hi : Word := if a.toNat % 2 = 1 then b.u t a.toNat else t.v (a.toNat + 1)
  BitVec.ofInt 64 ((lo.toNat : Int) + 2 ^ 32 * hi.toNat + i.toInt * z)

/-- What a plain load may read of a byte or tag with the stores `xs` of the phase to it, newest first, and the value `base` at the task's
snapshot (R23): the latest store that is ordered before the load, the reader's own or one in its view; where there is none, any of the
stores, or the value at the snapshot. -/
def MaySee (r : Reader) (xs : List PStore) (base x : Nat) : Prop :=
  match xs.find? fun y => y.key = r.key || y.n ≤ mget 0 r.view y.key with
  | some y => x = y.x
  | none => x = base ∨ ∃ y ∈ xs, x = y.x

/-- Data of a memory request that return to the vector registers from field `f` on. -/
def memPend (t : Thread) (f : BitVec 7) (ws : List Word) : List Pend := ((upto ws.length).zip ws).map fun e => .mem (t.wb + f.toNat + e.1) e.2

/-- Plain loads: bytes, sign extension, destination, base, offset (Table 7.7). -/
def loadForm : Instr → Option (Nat × Bool × BitVec 7 × BitVec 7 × BitVec 7)
  | .ld8 d a i => some (1, false, d, a, i)
  | .ld8s d a i => some (1, true, d, a, i)
  | .ld16 d a i => some (2, false, d, a, i)
  | .ld16s d a i => some (2, true, d, a, i)
  | .ld32 d a i => some (4, false, d, a, i)
  | .ld64 d a i => some (8, false, d, a, i)
  | .ld128 d a i => some (16, false, d, a, i)
  | _ => none

/-- Plain stores: bytes, data, base, offset. -/
def storeForm : Instr → Option (Nat × BitVec 7 × BitVec 7 × BitVec 7)
  | .st8 d a i => some (1, d, a, i)
  | .st16 d a i => some (2, d, a, i)
  | .st32 d a i => some (4, d, a, i)
  | .st64 d a i => some (8, d, a, i)
  | .st128 d a i => some (16, d, a, i)
  | _ => none

/-- The words a load gives: a narrow datum extended to one word, else the bytes four at a time, little-endian. -/
def loadedWords (sgn : Bool) (z : Nat) (byte : Nat → Byte) : List Word :=
  match z with
  | 1 => [if sgn then BitVec.ofInt 32 (byte 0).toInt else BitVec.ofNat 32 (byte 0).toNat]
  | 2 => [if sgn then BitVec.ofInt 32 (byte 1 ++ byte 0).toInt else BitVec.ofNat 32 (byte 1 ++ byte 0).toNat]
  | _ => (upto (z / 4)).map fun k => (byte (4 * k + 3) ++ byte (4 * k + 2) ++ byte (4 * k + 1) ++ byte (4 * k) : Word)

/-- Byte `i` of the data of a store. -/
def dataByte (t : Thread) (d : BitVec 7) (i : Nat) : Byte := BitVec.ofNat 8 ((t.v (d.toNat + i / 4)).toNat / 2 ^ (8 * (i % 4)))

/-- The end of a task whose thread took a trap of disposition D or S (R112, R114): unpinned, its version is dropped and its threads are gone;
pinned, the bench stops with the lane in `rmask` and the task is STOPPED. -/
def WorldFault (t : State) (p : Place) (b : Bench) (l : Nat) (k : Task) : Prop :=
  (k.pinned = false → (t.task? b.task).map (fun x => (x.state, x.ver)) = some (.discarded, []) ∧ ∀ x ∈ t.benches, x.task ≠ b.task) ∧
  (k.pinned = true → (t.task? b.task).map (fun x => (x.state, x.ver)) = some (.stopped, k.ver) ∧
    (t.bench? p).map (fun x => (x.stopped, x.rmask.getLsbD l)) = some (some .fault, decide (l < 32)))

/-- A plain access passes its checks (R197, R366): below 2^56, aligned, translated to `loc`, which is no MMIO; the translation keeps the
offset in the page, as every walk's does (R190). -/
def Reaches (s : State) (g : Grp) (b : Bench) (k : AKind) (va : DWord) (z : Nat) (s1 : State) (loc : Loc) : Prop :=
  va.toNat < 2 ^ 56 ∧ va.toNat % z = 0 ∧ (s.opened g b).translate (coreIx g.place) b.world k va.toNat = (s1, .ok loc) ∧ dpaKind loc.dpa ≠ .mmio ∧
    loc.dpa % 2 ^ 16 = va.toNat % 2 ^ 16

end Sys2Proof.Machine

/-- R23, R195, R196. A plain load reads at its address, byte by byte, the latest store of the task that is ordered before it, else another store
of the phase or the value at the task's snapshot; the datum is extended to the destination register or fills the registers from it. Nothing
else changes. -/
def Sys2Proof.Says.PlainLoads : Prop := ∀ i z sg d a ix, loadForm i = some (z, sg, d, a, ix) → ∀ s g b l t k s1 loc, Alone s g b l t →
  Passes b g [wV d ((z + 3) / 4), rAddr a 2] [] → s.task? b.task = some k → Reaches s g b .load (effective b t a ix z) z s1 loc →
  s1.dataError loc.dpa true = false → CacheRoom s g b →
  ∃ (t' : State) (v : Nat → Nat), (∀ j < z, MaySee (s.reader ⟨g.place, l⟩) (mget [] k.hist (loc.dpa + j)) (nth 0 (s.readAt k.snap loc z) j).toNat (v j)) ∧
    exec i s = .next t' ∧ Quiet s t' ∧
    LaneIs s t' g l (t.after g [wV d ((z + 3) / 4), rAddr a 2] (memPend t d (loadedWords sg z fun j => BitVec.ofNat 8 (v j))))

/-- R23, R215, R216, R27. A plain store writes its bytes into the task's version, at the address its operands give; a version past its quota
pins the task. It joins the stores of the phase as the thread's next. No byte of memory changes, nor any other byte of the version. -/
def Sys2Proof.Says.PlainStores : Prop := ∀ i z d a ix, storeForm i = some (z, d, a, ix) → ∀ s g b l t k s1 loc, Alone s g b l t →
  Passes b g [rV d ((z + 3) / 4), rAddr a 2] [] → s.task? b.task = some k → Reaches s g b .store (effective b t a ix z) z s1 loc →
  k.mayStore (effective b t a ix z).toNat z = true → s1.dataError loc.dpa false = false →
  let key := (s.reader ⟨g.place, l⟩).key
  let n := mget 0 t.view key + 1
  ∃ t' k', exec i s = .next t' ∧ LaneIs s t' g l { t.after g [rV d ((z + 3) / 4), rAddr a 2] [] with view := mset t.view key n } ∧
    t'.task? b.task = some k' ∧ (∀ j < z, mget? k'.ver (loc.dpa + j) = some (dataByte t d j) ∧
      mget [] k'.hist (loc.dpa + j) = ⟨key, n, (dataByte t d j).toNat⟩ :: mget [] k.hist (loc.dpa + j)) ∧
    (∀ x, (x < loc.dpa ∨ loc.dpa + z ≤ x) → mget? k'.ver x = mget? k.ver x) ∧ k'.vtags = k.vtags ∧
    k'.pinned = (k.pinned || decide ((if k.desc.quota = 0 then 32 else k.desc.quota) * 1024 < linesOf k'.ver)) ∧
    k'.state = k.state ∧ k'.snap = k.snap ∧
    t'.mem = s.mem ∧ t'.tags = s.tags ∧ t'.copies = s.copies ∧ t'.evq = s.evq ∧ t'.epoch = s.epoch ∧
    ∀ j ≠ b.task, t'.task? j = s.task? j

/-- R197, R216. A plain access that is not aligned takes TC_ALIGN and a store outside the task's writable regions TC_UNDECLARED, with the
address in `tval`; nothing is loaded or stored. -/
def Sys2Proof.Says.AccessFaults : Prop := ∀ s g b l t, Alone s g b l t → HandlerReady s b t →
  (∀ i z sg d a ix, loadForm i = some (z, sg, d, a, ix) → Passes b g [wV d ((z + 3) / 4), rAddr a 2] [] →
    (effective b t a ix z).toNat < 2 ^ 56 → (effective b t a ix z).toNat % z ≠ 0 →
    ∃ t', exec i s = .next t' ∧ TakesTrap s t' g b [l] 0x08 (effective b t a ix z) g.pc ∧ OnlyThreads s t') ∧
  (∀ i z d a ix, storeForm i = some (z, d, a, ix) → Passes b g [rV d ((z + 3) / 4), rAddr a 2] [] →
    (effective b t a ix z).toNat < 2 ^ 56 → (effective b t a ix z).toNat % z ≠ 0 →
    ∃ t', exec i s = .next t' ∧ TakesTrap s t' g b [l] 0x08 (effective b t a ix z) g.pc ∧ OnlyThreads s t') ∧
  (∀ i z d a ix k s1 loc, storeForm i = some (z, d, a, ix) → Passes b g [rV d ((z + 3) / 4), rAddr a 2] [] →
    Reaches s g b .store (effective b t a ix z) z s1 loc → s.task? b.task = some k → k.mayStore (effective b t a ix z).toNat z = false →
    isAp g.place = false → (∀ x ∈ s.lates, x.task ≠ b.task) → ∃ t', exec i s = .next t' ∧ t'.mem = s.mem ∧ WorldFault t' g.place b l k)

namespace Sys2Proof.Machine

/-- Scratchpad loads and stores: words, data, base, offset (Table 7.7). -/
def spadLoadForm : Instr → Option (Nat × BitVec 7 × BitVec 7 × BitVec 7)
  | .ls32 d a i => some (1, d, a, i)
  | .ls64 d a i => some (2, d, a, i)
  | .ls128 d a i => some (4, d, a, i)
  | _ => none
def spadStoreForm : Instr → Option (Nat × BitVec 7 × BitVec 7 × BitVec 7)
  | .ss32 d a i => some (1, d, a, i)
  | .ss64 d a i => some (2, d, a, i)
  | .ss128 d a i => some (4, d, a, i)
  | _ => none

/-- The scratchpad offset of an access: one register plus the signed offset in units of `z` bytes, modulo 2^32. -/
def spadOffset (b : Bench) (t : Thread) (a : BitVec 7) (i : Int) (z : Nat) : Nat :=
  let r : Word := if a.toNat % 2 = 1 then b.u t (a.toNat - 1) else t.v a.toNat
  ((r.toNat + i * z) % 2 ^ 32).toNat

/-- The physical word of a core that offset `x` names for the bench, by its world's banks and its `spkey` (R176). -/
def wordAt (s : State) (g : Grp) (b : Bench) (x : Nat) : Nat := s.spadLoc (coreIx g.place) b.world b.spkey x

/-- The checks of a scratchpad access of `z` bytes at `x` (R197, R183): aligned, inside the world's scratchpad, the block present. -/
def SpadReady (s : State) (g : Grp) (b : Bench) (x z : Nat) : Prop :=
  x % z = 0 ∧ x < s.spadSize (coreIx g.place) b.world ∧ s.pres (coreIx g.place) b.world (x / 64) = 0

/-- A read may take place too (R331): the block is not marked. -/
def SpadReadable (s : State) (g : Grp) (b : Bench) (x z : Nat) : Prop :=
  SpadReady s g b x z ∧ s.spadMarked (coreIx g.place) b.world x z = false

/-- What a load of the word at offset `x` may show: the stored word where the task may rely on it (R29), else an unspecified one; of a
block that a steward's copy has landed in and not reported yet, also the word before (R289). -/
def Shows (s : State) (g : Grp) (b : Bench) (x : Nat) (w : Word) : Prop :=
  let p := wordAt s g b x
  let c := s.core (coreIx g.place)
  w = (if s.spadSure (coreIx g.place) p b.spkey b.task then mget 0 c.spad p
    else BitVec.ofNat 32 (Config.strayWord (s.runOf b.task) (coreIx g.place) p)) ∨ ∃ old, mget? c.landing p = some old ∧ w = old.2

/-- What the releases that a strong read has read give its thread (R32, R36): an acquire joins the views of those it synchronises with; a
relaxed read keeps them for a later fence. -/
def Synced (s : State) (g : Grp) (t : Thread) (at_ : SPlace) (h : Nat) (loc : Loc) (z : Nat) (acq : Bool) (th : Thread) : Thread :=
  let xs := s.relvs.filter fun x => x.at_.store = at_.store && x.dpa < loc.dpa + z && loc.dpa < x.dpa + x.n
  if acq then { th with view := (xs.filter fun x => x.syncs h g.place t.grp).foldl (fun v x => v.join x.view) t.view }
  else { th with facq := xs ++ t.facq }

/-- No access that an earlier release has not waited for is still to be performed (R34). -/
def NoneOwed (s : State) (xs : List RelRec) : Prop := ∀ r ∈ xs, ∀ z ∈ s.lates, z.id ∉ r.owed

/-- No line of leased memory waits to be sent to its lender, or for its answer (R34, R45). -/
def LendersQuiet (s : State) : Prop :=
  s.awaitsLender = false ∧ (∀ e ∈ s.unpushed, s.leased e.1 = false) ∧ ∀ x ∈ s.copies, s.leased x.line = false

/-- The words of a scratchpad changed to `w` at `n` offsets from `x`, and nowhere else on any core. -/
def SpadWrote (s t : State) (g : Grp) (b : Bench) (x n : Nat) (w : Nat → Word) : Prop :=
  (∀ k < n, mget 0 (t.core (coreIx g.place)).spad (wordAt s g b (x + 4 * k)) = w k) ∧
  (∀ p, (∀ k < n, p ≠ wordAt s g b (x + 4 * k)) → mget 0 (t.core (coreIx g.place)).spad p = mget 0 (s.core (coreIx g.place)).spad p) ∧
  (∀ c ≠ coreIx g.place, (t.core c).spad = (s.core c).spad)

/-- Home memory, its tags and copies, worlds, events and the commit epoch are as before. -/
def HomeSame (s t : State) : Prop :=
  t.mem = s.mem ∧ t.tags = s.tags ∧ t.copies = s.copies ∧ t.worlds = s.worlds ∧ t.evq = s.evq ∧ t.epoch = s.epoch

/-- The version, snapshot and state of the task of a bench are as before; a strong access or an atomic pins it (R27). -/
def TaskPinned (s t : State) (b : Bench) (pin : Bool) : Prop :=
  ∀ k, s.task? b.task = some k → ∃ k', t.task? b.task = some k' ∧ k'.pinned = (k.pinned || pin) ∧ k'.ver = k.ver ∧ k'.snap = k.snap ∧ k'.state = k.state

/-- Each word list of a map of scratchpad words is canonical on the core. -/
def SpadCanonical (s : State) (g : Grp) : Prop := mwf 0 (s.core (coreIx g.place)).spad = true

/-- A strong access's checks pass, in a world that is not confidential: as those of a plain access, no data error, a line that
its lender has given (R346), no load check pending. -/
def ReachesStrong (s : State) (g : Grp) (b : Bench) (k : AKind) (va : DWord) (z : Nat) (rd : Bool) (s1 : State) (loc : Loc) : Prop :=
  Reaches s g b k va z s1 loc ∧ s1.dataError loc.dpa rd = false ∧ s1.lineAway (loc.dpa / 64) = false ∧ s.confW b.world = false ∧ s.unchecked b.task = false

/-- A scope whose executing place is the home (Table 2.2), with no copy of any line on the thread's own path to it. -/
def AtHome (s : State) (g : Grp) (h : BitVec 3) : Prop :=
  4 ≤ h.toNat ∧ ∀ x ∈ s.copies, x.at_ ≠ .core (coreIx g.place) ∧ x.at_ ≠ .cluster (clusterOf g.place)

/-- A scope whose executing place holds copy `x` of the line of `loc`; no copy of it stands nearer to the thread. -/
def AtCopy (s : State) (g : Grp) (t : Thread) (h : BitVec 3) (loc : Loc) (x : Copy) : Prop :=
  s.strongAt g.place t h.toNat = .copy x.at_ ∧ s.copy? x.at_ (loc.dpa / 64) = some x ∧
    (x.at_ = .core (coreIx g.place) ∨ s.copy? (.core (coreIx g.place)) (loc.dpa / 64) = none) ∧ x.data.length = 64

/-- The place of copy `x` has room for it beside the other lines there: in L1 those of its world, in the cluster cache all (Table 7.4). -/
def RoomAt (s : State) (b : Bench) (x : Copy) : Prop :=
  (s.copies.filter fun y => y.at_ = x.at_ && y.line ≠ x.line && (match x.at_ with
    | .core _ => decide (y.world = b.world)
    | .cluster _ => true)).length < s.copyRoom x.at_ b.world

/-- Home memory changed to the `z` bytes `w` at `a`, and nowhere else; every earlier epoch still reads as it did (R25). -/
def HomeWrote (s t : State) (a z : Nat) (w : Nat → Byte) : Prop :=
  (∀ j < z, t.byte (a + j) = w j) ∧ (∀ x, (x < a ∨ a + z ≤ x) → t.byte x = s.byte x) ∧
    (∀ e ≤ s.epoch, ∀ x, t.byteAt e x = s.byteAt e x) ∧ t.tags = s.tags ∧ t.epoch = s.epoch ∧ t.worlds = s.worlds ∧ t.evq = s.evq

/-- Strong loads and stores: bytes, data, address, order, scope (R198). -/
def strongLoadForm : Instr → Option (Nat × BitVec 7 × BitVec 7 × BitVec 2 × BitVec 3)
  | .lda32 d a o h => some (4, d, a, o, h)
  | .lda64 d a o h => some (8, d, a, o, h)
  | _ => none
def strongStoreForm : Instr → Option (Nat × BitVec 7 × BitVec 7 × BitVec 2 × BitVec 3)
  | .sta32 d a o h => some (4, d, a, o, h)
  | .sta64 d a o h => some (8, d, a, o, h)
  | _ => none

/-- A number of `n` bits read as signed. -/
def asInt (n m : Nat) : Int := if m < 2 ^ (n - 1) then m else (m : Int) - 2 ^ n

/-- The atomics (Table 7.8): destination, address, value, attributes, and the new value of `n` bits from memory `m`, value `v` and the
compare value `c`. The FP32 ones round to nearest and leave NaN operands out of a maximum. -/
def atomForm : Instr → Option (BitVec 7 × BitVec 7 × BitVec 7 × AtomAttr × (Nat → Nat → Nat → Nat → Nat))
  | .aadd d a b x => some (d, a, b, x, fun n m v _ => (m + v) % 2 ^ n)
  | .amin d a b x => some (d, a, b, x, fun n m v _ => if asInt n m ≤ asInt n v then m else v)
  | .amax d a b x => some (d, a, b, x, fun n m v _ => if asInt n v ≤ asInt n m then m else v)
  | .aminu d a b x => some (d, a, b, x, fun _ m v _ => min m v)
  | .amaxu d a b x => some (d, a, b, x, fun _ m v _ => max m v)
  | .aand d a b x => some (d, a, b, x, fun _ m v _ => m &&& v)
  | .aor d a b x => some (d, a, b, x, fun _ m v _ => m ||| v)
  | .axor d a b x => some (d, a, b, x, fun _ m v _ => m ^^^ v)
  | .axchg d a b x => some (d, a, b, x, fun _ _ v _ => v)
  | .acas d a b x => some (d, a, b, x, fun _ m v c => if m = c then v else m)
  | .afadd d a b x => some (d, a, b, x, aFadd)
  | .afmax d a b x => some (d, a, b, x, aFmax)
  | .ainc d a b x => some (d, a, b, x, fun _ m v _ => if m < v then m + 1 else 0)
  | .adec d a b x => some (d, a, b, x, fun _ m v _ => if m = 0 ∨ v < m then v else m - 1)
  | _ => none

/-- The register operands of an atomic: the returned value if asked for, the address, the value, and the compare value of ACAS. -/
def atomOps (i : Instr) (d a b : BitVec 7) (x : AtomAttr) (n : Nat) : List Opnd :=
  (if x.ret then [wV d n] else []) ++ [rAddr a (if x.space then 1 else 2), rV b n] ++
    (match i with
      | .acas _ _ _ _ => [rV x.cmp n]
      | _ => [])

/-- The words of an atomic's operand: one, or two with SIZE 1. -/
def atomSize (x : AtomAttr) : Nat := if x.size.toNat % 2 = 1 then 2 else 1
def operandAt (t : Thread) (f : BitVec 7) (n : Nat) : Nat := (t.v f.toNat).toNat + if n = 2 then 2 ^ 32 * (t.v (f.toNat + 1)).toNat else 0

/-- Byte `j` of a number, little-endian; the number of `n` words. -/
def numByte (m j : Nat) : Byte := BitVec.ofNat 8 (m / 2 ^ (8 * j))
def numWord (m k : Nat) : Word := BitVec.ofNat 32 (m / 2 ^ (32 * k))

end Sys2Proof.Machine

/-- R29, R176, R181, R195, R196. Scratchpad loads give the words of the bench's scratchpad at the hashed location of their offset, where the
task may rely on them; stores write them there, and no other word of any core changes.
The model's own choices it rests on: log entries 3, 8, 44. -/
def Obligations.ScratchpadAccesses : Prop := ∀ s g b l t, Alone s g b l t → SpadCanonical s g →
  (∀ i n d a ix, spadLoadForm i = some (n, d, a, ix) → Passes b g [wV d n, rAddr a 1] [] →
    let x := spadOffset b t a ix.toInt (4 * n)
    SpadReadable s g b x (4 * n) → ∃ t' w, (∀ k < n, Shows s g b (x + 4 * k) (w k)) ∧ exec i s = .next t' ∧ Quiet s t' ∧
      LaneIs s t' g l (t.after g [wV d n, rAddr a 1] (vecPend t d ((upto n).map w)))) ∧
  (∀ i n d a ix, spadStoreForm i = some (n, d, a, ix) → Passes b g [rV d n, rAddr a 1] [] →
    let x := spadOffset b t a ix.toInt (4 * n)
    SpadReady s g b x (4 * n) → ∃ t', exec i s = .next t' ∧ SpadWrote s t' g b x n (fun k => t.v (d.toNat + k)) ∧ HomeSame s t' ∧
      TaskPinned s t' b false ∧ LaneIs s t' g l (t.after g [rV d n, rAddr a 1] []))

/-- R20, R21, R31 to R33, R198, R27. A strong load reads at its executing place: the home's current bytes, or the copy the place holds. An
acquire above core scope drops clean copies, and takes the views of the releases it reads from. It pins the task and changes no memory. -/
def Sys2Proof.Says.StrongLoads : Prop := ∀ i z d a o h, strongLoadForm i = some (z, d, a, o, h) → ∀ s g b l t s1 loc, Alone s g b l t →
  Passes b g [wV d (z / 4), rAddr a 2] [] → ReachesStrong s g b .load (effective b t a 0 1) z true s1 loc → NoneOwed s s.relvs →
  (AtHome s g h → ∃ t', exec i s = .next t' ∧ t'.mem = s.mem ∧ t'.tags = s.tags ∧ TaskPinned s t' b true ∧
    t'.copies = (if o.toNat % 2 = 1 then s.copies.filter (fun x => x.dirty) else s.copies) ∧
    LaneIs s t' g l (Synced s g t (s.strongAt g.place t h.toNat) h.toNat loc z (o.getLsbD 0)
      (t.after g [wV d (z / 4), rAddr a 2] (memPend t d (loadedWords false z fun j => s.byte (loc.dpa + j)))))) ∧
  (∀ x, AtCopy s g t h loc x → ∃ t', exec i s = .next t' ∧ t'.mem = s.mem ∧ t'.tags = s.tags ∧ TaskPinned s t' b true ∧
    (∀ c y, s.copy? c y = none → t'.copy? c y = none) ∧
    LaneIs s t' g l (Synced s g t (.copy x.at_) h.toNat loc z (o.getLsbD 0)
      (t.after g [wV d (z / 4), rAddr a 2] (memPend t d (loadedWords false z fun j => nth 0 x.data (loc.dpa % 64 + j))))))

/-- R20, R34, R37. A relaxed strong load, and any strong store but a release at fabric scope, to memory that is not leased, may be performed later than it is issued: the
access joins those issued and not performed, with its place, bytes and data, the registers of a load wait for it, and nothing is read or
written yet. Which accesses are is the schedule's choice. -/
def Sys2Proof.Says.LateAccesses : Prop := ∀ s g b l t s1 loc, Alone { s with late := false } g b l t → s.late = true →
  dpaKind loc.dpa ≠ .window → s.leased (loc.dpa / 64) = false →
  (∀ i z d a o h, strongLoadForm i = some (z, d, a, o, h) → o.getLsbD 0 = false → Passes b g [wV d (z / 4), rAddr a 2] [] →
    ReachesStrong s g b .load (effective b t a 0 1) z true s1 loc →
    let at_ := s.strongAt g.place t h.toNat
    let y : Late := { id := 64 * s.nextLate + l, who := ⟨g.place, l⟩, task := b.task, ins := s.nextLate, at_ := at_, scope := h.toNat,
                      loc := .world loc, n := z, op := .load (t.wb + d.toNat), rel := false, rec_ := none }
    ∃ t', exec i s = .next t' ∧ t'.lates = s.lates ++ [y] ∧ t'.mem = s.mem ∧ t'.copies = s.copies ∧ TaskPinned s t' b true ∧
      LaneIs s t' g l (t.after g [wV d (z / 4), rAddr a 2] [.late y.id])) ∧
  (∀ i z d a o h, strongStoreForm i = some (z, d, a, o, h) → (o.getLsbD 1 = true → h.toNat ≠ 5) → Passes b g [rV d (z / 4), rAddr a 2] [] →
    ReachesStrong s g b .store (effective b t a 0 1) z false s1 loc →
    ∃ t' y, exec i s = .next t' ∧ t'.lates = s.lates ++ [y] ∧ y.who = ⟨g.place, l⟩ ∧ y.loc = .world loc ∧ y.n = z ∧
      y.at_ = s.strongAt g.place t h.toNat ∧ y.rel = o.getLsbD 1 ∧ y.op = .store ((upto z).map (dataByte t d)) ∧
      t'.mem = s.mem ∧ t'.copies = s.copies ∧ TaskPinned s t' b true ∧ LaneIs s t' g l (t.after g [rV d (z / 4), rAddr a 2] []))

/-- R25, R31, R33, R198, R27. A strong store writes at its executing place: its bytes at the home, in the next epoch, or in the copy the
place holds, which becomes dirty. No other byte changes; the task is pinned. -/
def Sys2Proof.Says.StrongStores : Prop := ∀ i z d a o h, strongStoreForm i = some (z, d, a, o, h) → ∀ s g b l t s1 loc, Alone s g b l t →
  Passes b g [rV d (z / 4), rAddr a 2] [] → ReachesStrong s g b .store (effective b t a 0 1) z false s1 loc → s.watched (loc.dpa / 64) = false →
  (2 ≤ o.toNat → h.toNat = 5 → LendersQuiet s) →
  (AtHome s g h → ∃ t', exec i s = .next t' ∧ HomeWrote s t' loc.dpa z (dataByte t d) ∧ TaskPinned s t' b true ∧ t'.copies = s.copies ∧
    LaneIs s t' g l (t.after g [rV d (z / 4), rAddr a 2] [])) ∧
  (∀ x, AtCopy s g t h loc x → RoomAt s b x → o.toNat < 2 → ∃ t' y, exec i s = .next t' ∧ t'.mem = s.mem ∧ TaskPinned s t' b true ∧
    t'.copy? x.at_ (loc.dpa / 64) = some y ∧ y.dirty = true ∧ (∀ j < z, nth 0 y.data (loc.dpa % 64 + j) = dataByte t d j) ∧
    (∀ j, (j < loc.dpa % 64 ∨ loc.dpa % 64 + z ≤ j) → nth 0 y.data j = nth 0 x.data j) ∧
    (∀ c m, (c, m) ≠ (x.at_, loc.dpa / 64) → t'.copy? c m = s.copy? c m) ∧ LaneIs s t' g l (t.after g [rV d (z / 4), rAddr a 2] []))

/-- R168. A write of a watched block wakes the threads that wait for it, and marks the watches of the others; here a strong store at the
home, and threads of other benches.
The model's own choices it rests on: log entry 7. -/
def Obligations.StoresWakeWatches : Prop := ∀ i z d a o h, strongStoreForm i = some (z, d, a, o, h) → ∀ s g b l t s1 loc, Alone s g b l t →
  Passes b g [rV d (z / 4), rAddr a 2] [] → ReachesStrong s g b .store (effective b t a 0 1) z false s1 loc → AtHome s g h →
  (2 ≤ o.toNat → h.toNat = 5 → LendersQuiet s) →
  ∃ t', exec i s = .next t' ∧ ∀ p m th, p ≠ g.place → s.thread? p m = some th → ∀ w, th.watch = some w →
    t'.thread? p m = some (if w.blk ≠ loc.dpa / 64 then th else if th.wait = .mwait then { th with wait := .ready, watch := none }
      else { th with watch := some { w with hit := true } })

/-- R33, R201, Table 7.8. An atomic at the home reads its bytes, writes the operation's result there in one step, and returns the old value
where asked; no other byte changes; the task is pinned. -/
def Sys2Proof.Says.AtomicsAtHome : Prop := ∀ i d a b' x f, atomForm i = some (d, a, b', x, f) → x.space = false → ∀ s g b l t s1 loc, Alone s g b l t →
  let n := atomSize x
  Passes b g (atomOps i d a b' x n) [] →
  ReachesStrong s g b .store (effective b t a 0 1 + BitVec.ofInt 64 x.ofs.toInt) (4 * n) true s1 loc → AtHome s g x.scope →
  s.watched (loc.dpa / 64) = false → (2 ≤ x.ord.toNat → x.scope.toNat = 5 → LendersQuiet s) → NoneOwed s s.relvs →
  let m := leNat ((upto (4 * n)).map fun j => s.byte (loc.dpa + j))
  ∃ t', exec i s = .next t' ∧ HomeWrote s t' loc.dpa (4 * n) (numByte (f (32 * n) m (operandAt t b' n) (operandAt t x.cmp n))) ∧
    TaskPinned s t' b true ∧ t'.copies = (if x.ord.toNat % 2 = 1 then s.copies.filter (fun y => y.dirty) else s.copies) ∧
    LaneIs s t' g l (Synced s g t (s.strongAt g.place t x.scope.toNat) x.scope.toNat loc (4 * n) (x.ord.getLsbD 0)
      (t.after g (atomOps i d a b' x n) (if x.ret then memPend t d ((upto n).map (numWord m)) else [])))

/-- R179, R181, R201. An atomic on the scratchpad does the same on the words of its hashed location, as a load may show them. -/
def Sys2Proof.Says.AtomicsOnScratchpad : Prop := ∀ i d a b' x f, atomForm i = some (d, a, b', x, f) → x.space = true → ∀ s g b l t, Alone s g b l t →
  SpadCanonical s g → s.unchecked b.task = false → NoneOwed s s.relvs →
  let n := atomSize x
  Passes b g (atomOps i d a b' x n) [] →
  let o := spadOffset b t a x.ofs.toInt 1
  SpadReadable s g b o (4 * n) →
  ∃ t' w, (∀ k < n, Shows s g b (o + 4 * k) (w k)) ∧
    let m := (w 0).toNat + if n = 2 then 2 ^ 32 * (w 1).toNat else 0
    exec i s = .next t' ∧ SpadWrote s t' g b o n (numWord (f (32 * n) m (operandAt t b' n) (operandAt t x.cmp n))) ∧ HomeSame s t' ∧
    TaskPinned s t' b true ∧ LaneIs s t' g l (Synced s g t .home (min x.scope.toNat 2) (spadName (coreIx g.place) o) (4 * n) (x.ord.getLsbD 0)
      (t.after g (atomOps i d a b' x n) (if x.ret then vecPend t d ((upto n).map w) else [])))

/-- R36, R34, R39, R42, R218. FENCE with a release at device scope or above leaves no dirty copy on the thread's path, and one that held the
only copy of a line wrote its 64 bytes home; an acquire drops clean copies. FENCEX performs every generic-path store of the core; PHASE parks the
thread with its results complete; IFENCE lets it fetch at its snapshot. -/
def Sys2Proof.Says.OrderingInstructions : Prop := ∀ s g b l t, Alone s g b l t → Passes b g [] [] →
  (NoneOwed s t.facq → ∀ k h, 4 ≤ h.toNat → (k.toNat ≠ 0 → h.toNat = 5 → LendersQuiet s) → ∃ t', exec (.fence k h) s = .next t' ∧ t'.tasks = s.tasks ∧
    ((∀ x ∈ s.copies, s.confW x.world = false) → t'.tags = s.tags) ∧ t'.epoch = s.epoch ∧
    (∃ th, t'.thread? g.place l = some th ∧ th.pc = (t.after g [] []).pc ∧ th.vregs = t.vregs ∧ th.polled = none) ∧
    (k.toNat ≠ 0 → ∀ x ∈ t'.copies, x.dirty = true → x.at_ ≠ .core (coreIx g.place) ∧ x.at_ ≠ .cluster (clusterOf g.place)) ∧
    (k.toNat ≠ 1 → ∀ x ∈ t'.copies, x.dirty = true) ∧
    (k.toNat = 0 → t'.mem = s.mem) ∧
    (k.toNat ≠ 0 → ∀ x, s.copies = [x] → x.at_ = .cluster (clusterOf g.place) → x.dirty = true → x.data.length = 64 → s.confW x.world = false →
      t'.copies = [] ∧ HomeWrote s t' (64 * x.line) 64 (nth 0 x.data))) ∧
  (∃ t', exec .fencex s = .next t' ∧ (t'.core (coreIx g.place)).fresh = [] ∧ Quiet s t' ∧ LaneIs s t' g l (t.after g [] [])) ∧
  (∃ t', exec .phase s = .next t' ∧ t'.mem = s.mem ∧ t'.tasks = s.tasks ∧
    ∃ th, t'.thread? g.place l = some th ∧ th.wait = .phase ∧ th.vregs = t.settle.vregs ∧ th.pc = (t.after g [] []).pc) ∧
  (∀ k, s.task? b.task = some k → ∃ t', exec .ifence s = .next t' ∧ Quiet s t' ∧ LaneIs s t' g l { t.after g [] [] with fetchEp := k.snap })

/-- R94, R196, R199, R200. LTAG gives the tag of the block as a plain load reads it (R23); STAG writes it into the version, as a
store of the block; the KV loads read the current bytes of an arena page by DPA, and LSK32 its sequence counter, as an acquire; PREF only moves on. -/
def Sys2Proof.Says.TagsArenaLoadsPrefetch : Prop := ∀ s g b l t k, Alone s g b l t → s.task? b.task = some k →
  (∀ d a ix s1 loc, Passes b g [wV d, rAddr a 2] [] → (effective b t a ix 64).toNat < 2 ^ 56 →
    (s.opened g b).translate (coreIx g.place) b.world .load (effective b t a ix 64).toNat = (s1, .ok loc) → dpaKind loc.dpa ≠ .mmio →
    s1.dataError loc.dpa false = false →
    ∃ t' v, MaySee (s.reader ⟨g.place, l⟩) (mget [] k.hist (tagKey (loc.dpa / 64))) (s.blockAt k.snap loc).2.toNat v ∧
      exec (.ltag d a ix) s = .next t' ∧ Quiet s t' ∧
      LaneIs s t' g l (t.after g [wV d, rAddr a 2] (memPend t d [(BitVec.ofNat 16 v).setWidth 32]))) ∧
  (∀ d a ix s1 loc, Passes b g [rV d, rAddr a 2] [] → (effective b t a ix 64).toNat < 2 ^ 56 →
    (s.opened g b).translate (coreIx g.place) b.world .store (effective b t a ix 64).toNat = (s1, .ok loc) → dpaKind loc.dpa ≠ .mmio →
    k.mayStore ((effective b t a ix 64).toNat / 64 * 64) 64 = true → s1.retired.contains (loc.dpa / 65536) = false →
    ∃ t' k', exec (.stag d a ix) s = .next t' ∧ t'.mem = s.mem ∧ t'.tags = s.tags ∧ t'.task? b.task = some k' ∧ k'.ver = k.ver ∧
      (∀ x, mget? k'.vtags x = if x = loc.dpa / 64 then some (BitVec.ofNat 16 (t.v d.toNat).toNat) else mget? k.vtags x) ∧
      let key := (s.reader ⟨g.place, l⟩).key
      LaneIs s t' g l { t.after g [rV d, rAddr a 2] [] with view := mset t.view key (mget 0 t.view key + 1) }) ∧
  (∀ (wide : Bool) d a ix ar, let z := if wide then 8 else 4
    let va := (effective b t a ix z).toNat
    Passes b g [wV d (z / 4), rAddr a 2] [] → va % z = 0 → s.arena? b.world = some ar → ar.pgbase ≤ va → va + z ≤ ar.pgbase + 65536 * ar.npage →
    s.kvHeader b.world = .ok () → s.dpaBar va = none → s.dataError va true = false → s.confW b.world = false →
    ∃ t', exec (if wide then .ldk64 d a ix else .ldk32 d a ix) s = .next t' ∧ Quiet s t' ∧
      LaneIs s t' g l (t.after g [wV d (z / 4), rAddr a 2] (vecPend t d (loadedWords false z fun j => s.byte (va + j))))) ∧
  (∀ d a ar p, Passes b g [wV d, rAddr a 2] [] → s.arena? b.world = some ar → ar.pageOf (effective b t a 0 1).toNat 1 = some p →
    s.kvHeader b.world = .ok () → s.kvGood b.world (ar.desc p) = .ok () → ∃ t', exec (.lsk32 d a) s = .next t' ∧ t'.mem = s.mem ∧ t'.tags = s.tags ∧ t'.tasks = s.tasks ∧
      t'.copies = s.copies.filter (fun x => x.dirty) ∧
      LaneIs s t' g l (t.after g [wV d, rAddr a 2] (vecPend t d [BitVec.ofNat 32 (s.seqctr ar p)]))) ∧
  (∀ a ix, Passes b g [rAddr a 2] [] → ∃ t', exec (.pref a ix) s = .next t' ∧ Quiet s t' ∧ LaneIs s t' g l (t.after g [rAddr a 2] []))

/-! ### Groups, barriers, tasks and timelines -/

namespace Sys2Proof.Machine

/-- The lane completed with the words `ws` for its value register (per thread, or the uniform register under U=1, R222) and the further change `post`. -/
def ValueIs (s t' : State) (g : Grp) (b : Bench) (l : Nat) (t : Thread) (ops : List Opnd) (v : BitVec 7) (u : Bool) (ws : List Word)
    (post : Thread → Thread) : Prop :=
  LaneIs s t' g l (post (t.after g ops (if u then [] else vecPend t v ws))) ∧
  (t'.bench? g.place).map (fun x => x.uout) =
    some (b.uout ++ if u then ((upto ws.length).zip ws).map fun e => ⟨false, t.ws + v.toNat + e.1, e.2.setWidth 64, [l]⟩ else [])

/-- A release at the slot's scope writes no line home: the scope is core or cluster, or no copy is dirty. -/
def NoPush (s : State) (e : BitVec 2) : Prop := e.toNat < 2 ∨ ∀ x ∈ s.copies, x.dirty = false

/-- The slot an instruction names, its thread able to arrive there: bound to the thread's group, of handle 0 to the thread itself, not
arrived on yet (R223, R227). -/
def SlotFor (s : State) (g : Grp) (b : Bench) (l : Nat) (t : Thread) (n : BitVec 6) (e : BitVec 2) (nd : Node) (i : Nat) : Prop :=
  s.slotOf b g n e = .ok (nd, i) ∧ (s.slot nd i).bound = some t.grp ∧ (t.grp = 0 → (s.slot nd i).solo = some ⟨g.place, l⟩) ∧
    ⟨g.place, l⟩ ∉ (s.slot nd i).arrived ∧ t.wait = .ready

/-- No thread waits in GJOIN. -/
def NoJoins (s : State) : Prop := ∀ e ∈ s.allThreads, ∀ h xs, e.2.wait ≠ .join h xs

/-- Every other slot is as before. -/
def OtherSlots (s t' : State) (nd : Node) (i : Nat) : Prop := ∀ n j, (n, j) ≠ (nd, i) → t'.slot n j = s.slot n j

/-- The operand of an arrival: the generation, where asked for. -/
def arriveOps (v : BitVec 7) (r u : Bool) (w : Bool) : List Opnd := if r then [valOpnd v u 1 w] else []

end Sys2Proof.Machine

/-- R108, R223, R224. GNEW takes the lowest free record of the cluster and gives its handle; GJOIN makes the thread a member, at once where no
slot of the new group has an open generation, else it parks, `grp` still the old handle, until that generation ends; GLEAVE makes it a member
of none, which counts as its arrival on a slot bound to the old group; GFREE frees a group without members (0), or tells that it has some (1)
or is none (2); GMASK gives the live members in the bench.
The model's own choices it rests on: log entry 21. -/
def Obligations.Groups : Prop := ∀ s g b l t, Alone s g b l t →
  (∀ d r, Passes b g [wV d] [] → r < 512 → (∀ x ∈ s.groups, x.clu = clusterOf g.place → x.recd ≠ r) →
    (∀ q < r, ∃ x ∈ s.groups, x.clu = clusterOf g.place ∧ x.recd = q) →
    ∃ t' x, exec (.gnew d) s = .next t' ∧ x.clu = clusterOf g.place ∧ x.recd = r ∧ x.serial = s.serial ∧ x.task = b.task ∧ t'.groups = x :: s.groups ∧ Quiet s t' ∧
      LaneIs s t' g l (t.after g [wV d] (vecPend t d
        [BitVec.ofNat 32 (x.serial % 2 ^ 16 * 2 ^ 16 + 2 ^ 15 + clusterOf g.place * 2 ^ 9 + r)]))) ∧
  (∀ a x, Passes b g [rV a] [] → s.groups.find? (fun y => groupHandle y = t.v a.toNat) = some x → x.clu = clusterOf g.place →
    (s.allThreads.filter fun e => e.2.counts (t.v a.toNat)).length < 24576 → (∀ y ∈ s.slots, y.bound ≠ some t.grp) →
    ((∀ y ∈ s.slots, y.bound ≠ some (t.v a.toNat)) →
      ∃ t', exec (.gjoin a) s = .next t' ∧ Quiet s t' ∧ LaneIs s t' g l { t.after g [rV a] [] with grp := t.v a.toNat, left := false }) ∧
    (∀ nd i, s.slotsFor (t.v a.toNat) ⟨g.place, l⟩ = [(nd, i)] → (s.slot nd i).isOpen = true →
      ∃ t', exec (.gjoin a) s = .next t' ∧ t'.mem = s.mem ∧ t'.tasks = s.tasks ∧
        LaneIs s t' g l { t.after g [rV a] [] with left := true, wait := .join (t.v a.toNat) [(nd, i, (s.slot nd i).gen)] })) ∧
  (Passes b g [] [] → (∀ y ∈ s.slots, y.bound ≠ some t.grp) →
    ∃ t', exec .gleave s = .next t' ∧ Quiet s t' ∧ LaneIs s t' g l { t.after g [] [] with grp := 0, left := false }) ∧
  (∀ nd i, Passes b g [] [] → s.slotsFor t.grp ⟨g.place, l⟩ = [(nd, i)] → ⟨g.place, l⟩ ∉ (s.slot nd i).arrived → 2 ≤ (s.slot nd i).pend →
    let x := s.slot nd i
    ∃ t', exec .gleave s = .next t' ∧ OtherSlots s t' nd i ∧
      t'.slot nd i = { x with arr := x.arr + 1, pend := x.pend - 1, arrived := ⟨g.place, l⟩ :: x.arrived } ∧
      LaneIs s t' g l { t.after g [] [] with grp := 0, left := false }) ∧
  (∀ d a, Passes b g [wV d, rV a] [] →
    let h := t.v a.toNat
    let w : Word := if ∀ y ∈ s.groups, groupHandle y ≠ h then 2 else if 0 < s.members h then 1 else 0
    ∃ t', exec (.gfree d a) s = .next t' ∧ t'.mem = s.mem ∧ t'.groups = (if w = 0 then s.groups.filter fun y => groupHandle y ≠ h else s.groups) ∧
      (t'.thread? g.place l).map (fun x => x.out) = some (t.out ++ vecPend t d [w])) ∧
  (∀ d, Passes b g [wV d] [] → ∃ t' m, exec (.gmask d) s = .next t' ∧ Quiet s t' ∧ LaneIs s t' g l (t.after g [wV d] (vecPend t d [m])) ∧
    ∀ i < 32, m.getLsbD i = true ↔ ∃ x, mget? b.threads i = some x ∧ x.live = true ∧ (i = l ∨ (t.grp ≠ 0 ∧ x.grp = t.grp)))

/-- R226, R227. BARR and BSYNC arrive: one pending arrival fewer, the generation given where asked for; BSYNC parks until it changes. The last
arrival completes the generation: the next one, its members counted anew, and every thread that waited for it ready; a BSYNC whose own arrival this is
returns at once, with what the members' arrivals released (R35). -/
def Sys2Proof.Says.BarrierArrivals : Prop := ∀ s g b l t n v r u e nd i (wait : Bool), Alone s g b l t → SlotFor s g b l t n e nd i → NoPush s e →
  Passes b g (arriveOps v r u true) [] →
  let ins : Instr := if wait then .bsync n v r u e else .barr n v r u e
  let x := s.slot nd i
  let ws : List Word := if r then [BitVec.ofNat 32 x.gen] else []
  (2 ≤ x.pend → ∃ t', exec ins s = .next t' ∧ t'.mem = s.mem ∧ t'.tags = s.tags ∧ t'.tasks = s.tasks ∧ OtherSlots s t' nd i ∧
    t'.slot nd i = { x with arr := x.arr + 1, pend := x.pend - 1, arrived := ⟨g.place, l⟩ :: x.arrived, view := x.view.join t.view } ∧
    ValueIs s t' g b l t (arriveOps v r u true) v u ws fun th => if wait then { th with wait := .barrier nd i x.gen } else th) ∧
  (x.pend = 1 → NoJoins s → ∃ t', exec ins s = .next t' ∧ t'.mem = s.mem ∧ t'.tags = s.tags ∧ t'.tasks = s.tasks ∧ OtherSlots s t' nd i ∧
    (let m := s.counted nd t.grp x.solo
     t'.slot nd i = { x with gen := (x.gen + 1) % 2 ^ 16, arr := 0, mem := m, pend := m, arrived := [], view := [], done := x.view.join t.view }) ∧
    (∃ th, t'.thread? g.place l = some th ∧ th.wait = .ready ∧ th.pc = (t.after g [] []).pc ∧
      th.view = (if wait then t.view.join (x.view.join t.view) else t.view) ∧ th.out = t.out ++ if u then [] else vecPend t v ws) ∧
    ∀ p m th, (p, m) ≠ (g.place, l) → s.thread? p m = some th → th.wait = .barrier nd i x.gen → (t'.thread? p m).map (fun y => y.wait) = some .ready)

/-- R226, R227. BWAIT parks until the slot's generation is another than the one it names, its own or the register's; BEXPECT and BDONE add and
satisfy expectations; BQRY reads the slot. -/
def Sys2Proof.Says.BarrierWaitsAndExpectations : Prop := ∀ s g b l t n v u e nd i, Alone s g b l t → s.slotOf b g n e = .ok (nd, i) →
  let x := s.slot nd i
  (∀ r, Passes b g (arriveOps v r u false) [] →
    let gen := if r then (if u then b.u t v.toNat else t.v v.toNat).toNat else x.gen
    ∃ t', exec (.bwait n v r u e) s = .next t' ∧ t'.mem = s.mem ∧ t'.tasks = s.tasks ∧ t'.slots = s.slots ∧
      LaneIs s t' g l (if x.gen = gen then { t.after g (arriveOps v r u false) [] with wait := .barrier nd i gen }
        else { t.after g (arriveOps v r u false) [] with view := t.view.join x.done })) ∧
  (Passes b g [valOpnd v u 1 false] [] → x.pend + (if u then b.u t v.toNat else t.v v.toNat).toNat < 2 ^ 20 →
    ∃ t', exec (.bexpect n v u e) s = .next t' ∧ t'.mem = s.mem ∧ t'.tasks = s.tasks ∧ OtherSlots s t' nd i ∧
      t'.slot nd i = { x with pend := x.pend + (if u then b.u t v.toNat else t.v v.toNat).toNat } ∧
      LaneIs s t' g l (t.after g [valOpnd v u 1 false] [])) ∧
  (Passes b g [] [] → x.mem - x.arr < x.pend → 2 ≤ x.pend → NoJoins s →
    ∃ t', exec (.bdone n u e) s = .next t' ∧ t'.mem = s.mem ∧ t'.tasks = s.tasks ∧ OtherSlots s t' nd i ∧
      t'.slot nd i = { x with pend := x.pend - 1 } ∧ LaneIs s t' g l (t.after g [] [])) ∧
  (Passes b g [valOpnd v u 2 true] [] →
    ∃ t', exec (.bqrySlot n v u e) s = .next t' ∧ Quiet s t' ∧ ValueIs s t' g b l t [valOpnd v u 2 true] v u
      [BitVec.ofNat 32 (x.pend % 2 ^ 20), BitVec.ofNat 32 ((if x.bound = none then 0 else 2 ^ 31) + x.arr % 2 ^ 15 * 2 ^ 16 + x.gen)] fun th => th)

namespace Sys2Proof.Machine

/-- The words of a 64-bit result. -/
def twoWords (x : Nat) : List Word := [BitVec.ofNat 32 x, BitVec.ofNat 32 (x / 2 ^ 32)]

/-- The pair operand of a timeline instruction: an even vector pair, or the uniform pair below an odd field. -/
def pairOf (b : Bench) (t : Thread) (v : BitVec 7) : Nat := (effective b t v 0 1).toNat

end Sys2Proof.Machine

/-- R208, R229, R230. TSUB hands the descriptor and its tables to the task unit and its result waits for the answer. TLREAD gives a hardware
timeline's value or an older one, and a timeline word's value; TLWAIT goes on where the value has reached its operand, dropping clean copies, and
otherwise waits; TLSIG writes the larger of the word and its operand.
The model's own choices it rests on: log entries 15, 40, 42. -/
def Obligations.SubmissionsAndTimelines : Prop := ∀ s g b l t, Alone s g b l t →
  (∀ d a s1 s2 s3 raw regs tl, Passes b g [wV d, rAddr a 2] [] → s.unchecked b.task = false →
    let va := effective b t a 0 1
    va.toNat < 2 ^ 56 → va.toNat % 64 = 0 → (s.opened g b).checkedBytes (b.noted g) l va 64 = (s1, .ok raw) →
    s1.checkedBytes (b.noted g) l (Desc.of raw).rtab (16 * (Desc.of raw).nreg) = (s2, .ok regs) →
    s2.checkedBytes (b.noted g) l (Desc.of raw).tltab (if (Desc.of raw).tltab = 0 then 0 else 384) = (s3, .ok tl) →
    ∃ t', exec (.tsub d a) s = .next t' ∧ t'.mem = s.mem ∧ t'.tasks = s.tasks ∧
      t'.subs = s.subs ++ [⟨s.nextSub, s.nextSub, ⟨g.place, l⟩, b.world, raw, regs, tlEntries tl⟩] ∧ t'.nextSub = s.nextSub + 1 ∧
      (t'.thread? g.place l).map (fun x => x.out) = some (t.out ++ [.await (t.wb + d.toNat) s.nextSub])) ∧
  (∀ d h now f, Passes b g [tlOpnd d true] [] → s.tline g b h.toNat = .ok (.hw now f) →
    ∃ t' x, x ≤ now ∧ exec (.tlread d h) s = .next t' ∧ Quiet s t' ∧
      ValueIs s t' g b l t [tlOpnd d true] (BitVec.ofNat 7 (d.toNat / 2 * 2)) (d.toNat % 2 = 1) (twoWords x) fun th => th) ∧
  (∀ v h now, Passes b g [tlOpnd v false] [] → s.tline g b h.toNat = .ok (.hw now none) →
    (pairOf b t v ≤ now → ∃ t', exec (.tlwait h v) s = .next t' ∧ t'.mem = s.mem ∧ t'.tasks = s.tasks ∧
      t'.copies = s.copies.filter (fun x => x.dirty) ∧ LaneIs s t' g l (t.after g [tlOpnd v false] [])) ∧
    (now < pairOf b t v → ∃ t', exec (.tlwait h v) s = .next t' ∧ Quiet s t' ∧ LaneIs s t' g l { t with polled := some .engine })) ∧
  (∀ d h va s1 loc, Passes b g [tlOpnd d true] [] → s.tline g b h.toNat = .ok (.word va) → ReachesStrong s g b .load va 8 true s1 loc →
    AtHome s g 4 →
    let x := leNat ((upto 8).map fun j => s.byte (loc.dpa + j))
    (∃ t', exec (.tlread d h) s = .next t' ∧ t'.mem = s.mem ∧ t'.copies = s.copies ∧ TaskPinned s t' b true ∧
      ValueIs s t' g b l t [tlOpnd d true] (BitVec.ofNat 7 (d.toNat / 2 * 2)) (d.toNat % 2 = 1) (twoWords x) (Synced s g t .home 4 loc 8 false)) ∧
    (Passes b g [tlOpnd d false] [] → NoneOwed s s.relvs → ∃ t', exec (.tlwait h d) s = .next t' ∧ t'.mem = s.mem ∧ TaskPinned s t' b true ∧
      LaneIs s t' g l (Synced s g t .home 4 loc 8 true
        (if x < pairOf b t d then { t with polled := some .engine } else t.after g [tlOpnd d false] [])))) ∧
  (∀ v h va s1 loc, Passes b g [tlOpnd v false] [] → 16 ≤ h.toNat → s.tline g b h.toNat = .ok (.word va) →
    ReachesStrong s g b .store va 8 true s1 loc → AtHome s g 4 → s.watched (loc.dpa / 64) = false →
    let x := leNat ((upto 8).map fun j => s.byte (loc.dpa + j))
    ∃ t', exec (.tlsig h v) s = .next t' ∧ HomeWrote s t' loc.dpa 8 (numByte (max x (pairOf b t v))) ∧ TaskPinned s t' b true ∧
      LaneIs s t' g l (t.after g [tlOpnd v false] []))

namespace Sys2Proof.Machine

/-- The memory after the version `ver` is applied to that of `s` (R24). -/
def Applied (s t' : State) (ver : Map Byte) : Prop := ∀ a, t'.byte a = match mget? ver a with
  | some x => x
  | none => s.byte a

/-- A commit that meets no fault, of a world that is not confidential, while no strong copy is dirty and no access of the task is still to be
performed (R217). -/
structure CommitReady (s : State) (id : Nat) (k : Task) : Prop where
  canon : Canonical s
  task  : s.task? id = some k
  ver   : mrising k.ver = true
  plain : s.confW k.world = false
  clean : ∀ x ∈ s.copies, x.dirty = false
  done  : ∀ x ∈ s.lates, x.task ≠ id

/-- A descriptor's submission `x` is the first that its thread waits for, and the first left of its TSUB (R208, R210). -/
def FirstSub (s : State) (k : Nat) (x : Sub) : Prop :=
  s.subs[k]? = some x ∧ ∀ j < k, ∀ y, s.subs[j]? = some y → y.thread ≠ x.thread ∧ y.batch ≠ x.batch

/-- The result register of the waiting lane gets `r`; every other thread is as before. -/
def Answered (s t' : State) (x : Sub) (r : Nat) : Prop :=
  t'.subs = s.subs.filter (fun y => y.key ≠ x.key) ∧
  (∀ p m, (p, m) ≠ (x.thread.place, x.thread.lane) → t'.thread? p m = s.thread? p m) ∧
  ∀ th i, s.thread? x.thread.place x.thread.lane = some th → .await i x.key ∈ th.out →
    ∃ th', t'.thread? x.thread.place x.thread.lane = some th' ∧ .vec i (BitVec.ofNat 32 r) ∈ th'.out ∧ th'.vregs = th.vregs ∧ th'.pc = th.pc

end Sys2Proof.Machine

/-- R207, R210, R211, R219. The task unit refuses a submission with 0x80000000 plus the code of the first check that fails, or accepts it with a new
identifier: SUBMITTED where a pending task of its world and domain writes a byte it names, on which it then depends, and else READY; on an earlier reader of
a byte it writes it does not depend: only its commits wait for that one. -/
def Sys2Proof.Says.TaskAcceptance : Prop := ∀ s k x, FirstSub s k x →
  let d := Desc.of x.raw
  (s.refusal x.world false .drawers x.raw x.regs x.tl ≠ 0 →
    ∃ t', exec (.taskAccept k) s = .next t' ∧ t'.tasks = s.tasks ∧ t'.mem = s.mem ∧
      Answered s t' x (2 ^ 31 + s.refusal x.world false .drawers x.raw x.regs x.tl)) ∧
  (s.refusal x.world false .drawers x.raw x.regs x.tl = 0 → s.tkuRoom (regionsOf x.regs).length = true →
    ∃ t' id k', exec (.taskAccept k) s = .next t' ∧ t'.mem = s.mem ∧ t'.task? id = some k' ∧ Answered s t' x id ∧
      k'.world = x.world ∧ k'.desc = d ∧ k'.regions = regionsOf x.regs ∧ k'.ver = [] ∧ k'.pinned = false ∧
      (let peer (e : Nat × Task) : Prop := e ∈ s.tasks ∧ e.1 < 2 ^ 31 ∧ e.2.state.pending = true ∧ e.2.world = x.world ∧ e.2.desc.domain = d.domain
       let meets (e : Nat × Task) (p : Region → Region → Prop) : Prop :=
         ∃ a ∈ e.2.regions, ∃ c ∈ regionsOf x.regs, p a c ∧ a.base < c.base + c.size ∧ c.base < a.base + a.size
       (∀ j, j ∈ k'.deps ↔ ∃ e, peer e ∧ e.1 = j ∧ meets e fun a _ => a.write = true) ∧
       (∀ j, j ∈ k'.war ↔ ∃ e, peer e ∧ e.1 = j ∧ meets e fun a c => a.read = true ∧ c.write = true)) ∧
      k'.state = (if k'.deps = [] then .ready else .submitted) ∧ ∀ j ≠ id, t'.task? j = s.task? j)

/-- R102, R213. Dispatch places a READY task whole: it is RUNNING on the commit epoch as its snapshot, with an empty version, and bench j at
the j-th place holds threads 32 j to 32 j + 31, each at the entry point with its registers clear.
The model's own choices it rests on: log entry 43. -/
def Obligations.TaskDispatch : Prop := ∀ s id k ps, s.task? id = some k → k.id = id → k.state = .ready → (s.world k.world).stopped = false →
  s.placesOk k ps = true → s.olderReady id = [] → s.copying id = false →
  ∃ t' k', exec (.taskDispatch id ps) s = .next t' ∧ t'.mem = s.mem ∧ t'.epoch = s.epoch ∧ t'.task? id = some k' ∧
    k'.state = .running ∧ k'.snap = s.epoch ∧ k'.ver = [] ∧ k'.pinned = false ∧ k'.desc = k.desc ∧ k'.regions = k.regions ∧
    (∀ j ≠ id, t'.task? j = s.task? j) ∧
    (k.stw = none → ∀ j p, ps[j]? = some p → ∃ bn, t'.bench? p = some bn ∧ bn.task = id ∧ bn.world = k.world ∧ bn.vfoot = 8 * k.desc.vreg ∧
      bn.sfoot = 8 * k.desc.sreg ∧ bn.pfoot = k.desc.preg ∧ ∀ l < 32,
        (32 * j + l < k.desc.nthr → ∃ th, mget? bn.threads l = some th ∧ th.pc = k.desc.entry ∧ th.tid = 32 * j + l ∧ th.grp = k'.grp ∧
          th.vregs = [] ∧ th.preds = 0 ∧ th.wait = .ready ∧ th.fetchEp = s.epoch) ∧
        (k.desc.nthr ≤ 32 * j + l → mget? bn.threads l = none))

/-- R24, R25, R217, R218, R219. A commit applies the task's version to memory at the next commit epoch, byte by byte and nothing else, and ends
the task; a PHASE commit pins the task first, then does the same, renews the snapshot and lets the threads go on. A held commit, once resumed, goes on
so. (Here without a completion counter.)
The model's own choices it rests on: log entry 76. -/
def Obligations.Commits : Prop := ∀ s id k, CommitReady s id k →
  (k.state = .committing → s.mayCommit id k = true → s.engineFault id = none → k.desc.done = 0 →
    ∃ t', exec (.taskCommit id) s = .next t' ∧ t'.epoch = s.epoch + 1 ∧ Applied s t' k.ver ∧
      (t'.task? id).map (fun x => (x.state, x.ver)) = some (.done, []) ∧ ∀ x ∈ t'.benches, x.task ≠ id) ∧
  (k.state = .running → k.commitHeld = false → s.allPhase id = true →
    (k.pinned = false → ∃ t', exec (.phaseCommit id) s = .next t' ∧ t'.mem = s.mem ∧ t'.benches = s.benches ∧
      (t'.task? id).map (fun x => x.pinned) = some true) ∧
    (k.pinned = true → s.mayCommit id k = true → s.engineFault id = none → (∀ x ∈ s.benches, x.task = id → x.stopped = none) →
      ∃ t', exec (.phaseCommit id) s = .next t' ∧ t'.epoch = s.epoch + 1 ∧ Applied s t' k.ver ∧
        (t'.task? id).map (fun x => (x.state, x.ver, x.snap)) = some (.running, [], s.epoch + 1) ∧
        ∀ x ∈ t'.benches, x.task = id → ∀ e ∈ x.threads, e.2.wait ≠ .phase)) ∧
  (k.state = .stopped → k.commitHeld = true → s.mayCommit id k = true → s.allPhase id = false → k.desc.done = 0 →
    ∃ t', exec (.heldCommitResume id) s = .next t' ∧ t'.epoch = s.epoch + 1 ∧ Applied s t' k.ver ∧
      (t'.task? id).map (fun x => (x.state, x.ver)) = some (.done, []))

namespace Sys2Proof.Machine

/-- The tasks that depend on a task, directly or through other tasks, and have not been dispatched (R212). -/
inductive Downstream (s : State) (id : Nat) : Nat → Prop
  | direct (j : Nat) (x : Task) : (j, x) ∈ s.tasks → x.state = .submitted ∨ x.state = .ready → id ∈ x.deps → Downstream s id j
  | through (i j : Nat) (x : Task) : Downstream s id i → (j, x) ∈ s.tasks → x.state = .submitted ∨ x.state = .ready → i ∈ x.deps → Downstream s id j

end Sys2Proof.Machine

/-- R112, R182, R212, R219. The Bureau's service: a discarded task, its copies into scratchpad landed or cancelled, is READY again; a task fails and
every task that depends on it, directly or through others, without commits and each with an event of KIND 9, the other tasks staying as they are; an
unpinned STOPPED task is discarded. -/
def Obligations.TaskService : Prop := ∀ s id k, s.task? id = some k →
  (k.state = .discarded → (∀ q ∈ s.queues, ∀ o ∈ q.2.ops, o.who.task = id → o.prog.rows = []) → (∀ a ∈ s.asqs, ∀ r ∈ a.2.runs, r.who.task = id → r.gath = []) →
    ∃ t', exec (.taskRequeue id) s = .next t' ∧ t'.mem = s.mem ∧ t'.benches = s.benches ∧
      (t'.task? id).map (fun x => (x.state, x.pinned)) = some (.ready, false)) ∧
  (k.state ∈ [TState.submitted, .ready, .stopped, .saved, .discarded] → s.lates = [] → mrising s.tasks = true →
    let q := (s.ctlReg 0x58).toNat % 16
    let fails (j : Nat) : Prop := j = id ∨ Downstream s id j
    (mget [] s.evq q).length + s.tasks.length ≤ 1024 →
    ∃ t' rs, exec (.taskFail id) s = .next t' ∧ t'.mem = s.mem ∧ mget [] t'.evq q = mget [] s.evq q ++ rs ∧
      (∀ j, fails j → (t'.task? j).map (fun x => (x.state, x.ver)) = some (.failed, []) ∧ (∀ x ∈ t'.benches, x.task ≠ j) ∧
        ∃ r ∈ rs, (nth 0 r.words 0).toNat % 256 = 9 ∧ nth 0 r.words 1 = BitVec.ofNat 32 j) ∧
      (∀ r ∈ rs, (nth 0 r.words 0).toNat % 256 = 9 ∧ ∃ j, fails j ∧ nth 0 r.words 1 = BitVec.ofNat 32 j) ∧
      ∀ j, ¬ fails j → t'.task? j = s.task? j) ∧
  (k.state = .stopped → k.pinned = false → (∀ x ∈ s.lates, x.task ≠ id) →
    ∃ t', exec (.stoppedTaskDiscard id) s = .next t' ∧ t'.mem = s.mem ∧ (t'.task? id).map (fun x => (x.state, x.ver)) = some (.discarded, []) ∧
      ∀ x ∈ t'.benches, x.task ≠ id)

/-- R209. The task unit consumes a stamped queue slot whose descriptor names no tables: it answers in the completion ring with the
identifier, or with status 3 and the refusal code. -/
def Sys2Proof.Says.TaskQueueSlots : Prop := ∀ s q x s1 raw, s.queue (.mem q) = some x → x.eng = true → x.closed = false → (s.world x.world).stopped = false →
  s.readySlot x 208 = (s1, some raw) → (Desc.of raw).nreg = 0 → (Desc.of raw).tltab = 0 →
  let c := s1.refusal x.world true (targetOf x.world true x.bind) raw [] []
  (c ≠ 0 → exec (.taskQueueConsume q) s = .next ((s1.takeSlot (.mem q) x 208).postRecord (.mem q) (x.cidx + 1) (compRecord (x.cidx + 1) 0 0 c 3 0))) ∧
  (c = 0 → s1.tkuRoom 0 = true → ∃ (id : Nat) (s2 : State), s2.task? id ≠ none ∧ s2.mem = s1.mem ∧
    exec (.taskQueueConsume q) s = .next ((s2.takeSlot (.mem q) x 208).postRecord (.mem q) (x.cidx + 1) (compRecord (x.cidx + 1) id 0 0 0 0)))

/-- R47, R56, R105, R107, R114, R116, R168, R368. The events of benches: an outstanding result lands, the thread else unchanged; a ready bench
that fits enters the active set; the watchdog ends an idle task; a MAC check passes, or stops the world; a thread wakes from MWAIT; a stopped bench
and its task run again; a saved bench returns. -/
def Sys2Proof.Says.BenchEvents : Prop := ∀ s p b, s.bench? p = some b →
  (∀ l t k r, mget? b.threads l = some t → t.out[k]? = some r → r.isHeld = false →
    ∃ t' th, exec (.resultWriteback p l k) s = .next t' ∧ t'.thread? p l = some th ∧ th.out = t.out.eraseIdx k ∧ t'.mem = s.mem ∧ t'.tasks = s.tasks ∧
      (∀ q m, (q, m) ≠ (p, l) → t'.thread? q m = s.thread? q m) ∧ th.pc = t.pc ∧ th.wait = t.wait ∧ th.atStop = t.atStop ∧
      (∀ i x, r = .vec i x ∨ r = .mem i x → th.preds = t.preds ∧ (mwf 0 t.vregs = true → ∀ j, mget 0 th.vregs j = if j = i then x else mget 0 t.vregs j)) ∧
      (∀ i v, r = .pred i v → i < 128 → th.vregs = t.vregs ∧ ∀ j, th.preds.getLsbD j = if j = i then v else t.preds.getLsbD j) ∧
      (∀ f, r = .flags f → th.vregs = t.vregs ∧ th.preds = t.preds ∧ th.fpc = t.fpc ||| (f &&& 0x7F))) ∧
  (∀ i, drawerOf p = some i → (∀ x ∈ s.benches, x.active = true → x.leaves = false) → (∃ x ∈ s.candidates i, x.place = p) →
    ∃ t', exec (.benchAdmit p) s = .next t' ∧ (t'.bench? p).map (fun x => x.active) = some true ∧ t'.mem = s.mem ∧ t'.tasks = s.tasks) ∧
  (∀ l t k, b.threads.find? (fun e => e.2.live) = some (l, t) → s.task? b.task = some k → k.state = .running → b.stopped = none →
    (s.ctlReg 0x80).toNat ≠ 0 → (s.ctlReg 0x80).toNat ≤ s.cycle - b.lastIssue → (∀ x ∈ s.lates, x.task ≠ b.task) →
    ∃ t', exec (.watchdogExpiry p) s = .next t' ∧ t'.mem = s.mem ∧ WorldFault t' p b l k) ∧
  (∀ k c, s.checks[k]? = some c → ∃ t', exec (.integrityCheckComplete k) s = .next t' ∧
    (c.good = true → t'.checks = s.checks.eraseIdx k ∧ t'.worlds = s.worlds ∧ t'.benches = s.benches ∧ t'.mem = s.mem) ∧
    (c.good = false → (s.lates = [] → t'.mem = s.mem) ∧ (t'.world c.world).stopped = true ∧ ∀ x ∈ t'.benches, x.world ≠ c.world)) ∧
  (∀ l t, mget? b.threads l = some t → ∃ t', exec (.spuriousWakeup p l) s = .next t' ∧ t'.mem = s.mem ∧
    t'.thread? p l = some (if t.wait = .mwait then { t with wait := .ready, watch := none } else t)) ∧
  (∀ k, b.stopped ≠ none → s.task? b.task = some k → k.state = .stopped → k.commitHeld = false →
    (∀ x ∈ s.benches ++ s.saved, x.task = b.task → x.place ≠ p → x.stopped = none) → (∀ x ∈ s.saved, x.place ≠ p) →
    s.benches.countP (fun x => x.place = p) = 1 → (∃ e ∈ b.threads, e.2.live = true) → isAp p = false →
    ∃ t', exec (.benchResume p) s = .next t' ∧ t'.mem = s.mem ∧ (t'.bench? p).map (fun x => (x.stopped, x.rmask)) = some (none, b.rmask) ∧
      (t'.task? b.task).map (fun x => x.state) = some .running)

/-- R115, R116, R219, R221, R368. A saved bench returns to its slot once that is free and its core takes work: its threads as saved, but for those that
waited in MWAIT, which go on, and barrier waits looked up again; the clocks it had idled before the save still count; a SAVED task is RUNNING, a STOPPED
one stays so. (Here without saved matrix-unit state.) -/
def Sys2Proof.Says.BenchRestore : Prop := ∀ s p b k, s.saved.find? (fun x => x.place = p) = some b → s.bench? p = none → s.vacated.contains (coreIx p) = false →
  (∀ m ∈ s.msaves, m.task ≠ b.task) → s.task? b.task = some k → k.state = .saved ∨ k.state = .stopped →
  ∃ t' b', exec (.benchRestore p) s = .next t' ∧ t'.bench? p = some b' ∧ t'.mem = s.mem ∧ b'.task = b.task ∧ b'.uregs = b.uregs ∧ b'.rmask = b.rmask ∧
    b'.lastIssue = s.cycle - b.lastIssue ∧ b'.stopped = b.stopped ∧
    (t'.task? b.task).map (fun x => x.state) = some (if k.state = .saved then .running else .stopped) ∧ (∀ x ∈ t'.saved, x.place ≠ p) ∧
    ∀ l th, mget? b.threads l = some th → ∃ th', mget? b'.threads l = some th' ∧ th'.pc = th.pc ∧ th'.vregs = th.vregs ∧ th'.preds = th.preds ∧
      (th.wait = .mwait → th'.wait = .ready) ∧ (∀ nd i n, th.wait = .barrier nd i n → th'.wait = if (s.slot nd i).gen = n then .barrier nd i n else .ready)

/-! ### Engines -/

namespace Sys2Proof.Machine

/-- A matrix command word (Table 9.3): kind, tile, rows, blocks, the FB pair, the FC registers and how many. -/
structure MxWord where
  kind : MxKind
  t : Nat
  m : Nat
  b : Nat
  a : Option (BitVec 7)
  c : BitVec 7
  nc : Nat

/-- M is 64, 32, 16 or 8 rows and B is 1 to 128 blocks, by their codes (Table 9.4). -/
def mxWord : Instr → Option MxWord
  | .mldw n a c => some ⟨.ldw, 0, 64, 2 ^ n.toNat, some a, c, 1⟩
  | .mldwd n a c => some ⟨.ldwd, 0, 64, 2 ^ n.toNat, some a, c, 1⟩
  | .mma t m n a c => some ⟨.mma, t.toNat, 2 ^ (6 - m.toNat), 2 ^ n.toNat, some a, c, 1⟩
  | .mmad t m n a c => some ⟨.mmad, t.toNat, 2 ^ (6 - m.toNat), 2 ^ n.toNat, some a, c, 1⟩
  | .mzero t m => some ⟨.zero, t.toNat, 2 ^ (6 - m.toNat), 1, none, 0, 0⟩
  | .mdrain t m a c => some ⟨.drain, t.toNat, 2 ^ (6 - m.toNat), 1, some a, c, 4⟩
  | .mdraint t a c => some ⟨.drainT, t.toNat, 64, 1, some a, c, 4⟩
  | .mdrainp t m a c => some ⟨.drainP, t.toNat, 2 ^ (6 - m.toNat), 1, some a, c, 1⟩
  | .mreds t m n a => some ⟨.reds, t.toNat, 2 ^ (6 - m.toNat), 2 ^ n.toNat, some a, 0, 0⟩
  | .mscan t m a => some ⟨.scan, t.toNat, 2 ^ (6 - m.toNat), 1, some a, 0, 0⟩
  | .mldz t m a => some ⟨.ldz, t.toNat, 2 ^ (6 - m.toNat), 1, some a, 0, 0⟩
  | .mstz t m a c => some ⟨.stz, t.toNat, 2 ^ (6 - m.toNat), 1, some a, c, 1⟩
  | _ => none

/-- Its register operands, and their values. -/
def MxWord.regs (x : MxWord) : List Opnd := (match x.a with
  | some a => [rU a 2]
  | none => []) ++ if x.nc = 0 then [] else [rU x.c x.nc]
def MxWord.vals (x : MxWord) (b : Bench) (t : Thread) : MxOps :=
  let p (j : Nat) : Word := match x.a with
    | some a => b.u t (a.toNat + j)
    | none => 0
  ⟨p 0, p 1, (upto x.nc).map fun j => b.u t (x.c.toNat + j)⟩

/-- The command's control word: FC of a drain or a store, 0 of any other. -/
def MxWord.ctl (x : MxWord) (o : MxOps) : Nat :=
  if x.kind = .drain ∨ x.kind = .drainT ∨ x.kind = .drainP ∨ x.kind = .stz then (nth 0 o.c 0).toNat else 0

/-- The barrier slot of its BDONE, physical (R254). -/
def SlotIs (s : State) (g : Grp) (b : Bench) (ctl : Nat) (sl : Option Nat) : Prop :=
  if bitAt ctl 31 then ∃ n, s.engSlot b g (bits ctl 29 24) = .ok n ∧ sl = some n else sl = none

/-- Where a drain folds its maximum (R253), its address checked; the state after that check. -/
def FoldIs (s0 : State) (b : Bench) (x : MxWord) (o : MxOps) (s1 : State) (fold : Fold) : Prop :=
  if (x.kind = .drain ∨ x.kind = .drainT) ∧ bitAt (x.ctl o) 13 = true then
    if bitAt (x.ctl o) 14 then s1 = s0 ∧ fold = .spad (nth 0 o.c 2).toNat
    else s0.foldAddr b (BitVec.ofNat 64 ((nth 0 o.c 2).toNat + 2 ^ 32 * (nth 0 o.c 3).toNat)) = (s1, .ok fold)
  else s1 = s0 ∧ fold = .none

/-- The fold goes to world memory. -/
def Fold.isMem : Fold → Bool
  | .mem _ _ => true
  | _ => false

end Sys2Proof.Machine

/-- R233 to R236, R238, R239. A matrix command that passes its checks takes the unit's next timeline number and enters its queue, with what the
thread's registers and CSRs hold at issue; the unit is claimed for the task. A unit claimed by another task, a full queue or a valid fault record
keep it out: it takes the record's cause with `tval` the record's address, polls for the claim, or polls for room, the end of the task's load
checks and of the core's vacation. MSTAT reads the unit and, with CLR, clears what it read: `.FLAGS` the status flags and the tile's flags, `.FNUM`
and `.FADDR` the fault record; a selector above 3, and CLR with `.ASN`, are refused with TC_RESFIELD.
The model's own choices it rests on: log entries 54, 122, 123. -/
def Obligations.MatrixCommands : Prop := ∀ s g b l t core drw slot, Alone s g b l t → g.place = .drawer core drw slot →
  (∀ i w s1 sl fold, mxWord i = some w → Passes b g w.regs [] →
    let o := w.vals b t
    let x := s.mxu (8 * core + drw)
    mxCheck (s.spadSize core b.world) core w.kind w.m w.b o = none → SlotIs s g b (w.ctl o) sl → FoldIs (s.opened g b) (b.noted g) w o s1 fold →
    (∀ j, x.claim = some j → j ≠ b.task → ∃ t', exec i s = .next t' ∧ t'.mem = s.mem ∧ t'.mxus = s.mxus ∧
      LaneIs s t' g l { t with polled := some (.claim (8 * core + drw)) }) ∧
    (∀ f, x.claim = some b.task → x.fault = some f → f.cause.disp (pinnedOf s b) = .h → HandlerReady s b t → ∃ t', exec i s = .next t' ∧
      t'.mem = s.mem ∧ t'.mxus = s.mxus ∧ TakesTrap s t' g b [l] f.cause.code f.addr g.pc) ∧
    ((x.claim = none ∨ x.claim = some b.task) → x.fault = none → s.unchecked b.task = false → s.vacated.contains core = false →
      (x.queue.filter fun c => c.kind ≠ .row).length < 16 →
      ∃ t' c, exec i s = .next t' ∧ t'.mem = s.mem ∧ LaneIs s t' g l (t.after g w.regs []) ∧ TaskPinned s t' b (fold.isMem || decide (w.kind = .drainP)) ∧
        (t'.mxu (8 * core + drw)).queue = x.queue ++ [c] ∧ (t'.mxu (8 * core + drw)).asn = x.asn + 1 ∧
        (t'.mxu (8 * core + drw)).claim = some b.task ∧ (t'.mxu (8 * core + drw)).done = x.done ∧
        (x.claim = some b.task → (t'.mxu (8 * core + drw)).data = x.data) ∧
        c.num = x.asn + 1 ∧ c.kind = w.kind ∧ c.t = w.t ∧ c.m = w.m ∧ c.b = w.b ∧ c.ofs = o.p0.toNat ∧ c.w = (nth 0 o.c 0).toNat ∧
        c.ctl.toNat = w.ctl o ∧ c.fold = fold ∧
        c.who = ⟨b.task, b.world, some g.place, b.spkey, t.srseed, if bits (w.ctl o) 10 8 = 7 then fpcRm t.fpc else bits (w.ctl o) 10 8, sl, none⟩) ∧
    ((x.claim = none ∨ x.claim = some b.task) → x.fault = none →
      (16 ≤ (x.queue.filter fun c => c.kind ≠ .row).length ∨ s.unchecked b.task = true ∨ s.vacated.contains core = true) → ∃ t', exec i s = .next t' ∧ t'.mem = s.mem ∧ LaneIs s t' g l { t with polled := some .engine })) ∧
  (∀ tl (cl : Bool) sel a, Passes b g [wU a 2] [] → (s.mxu (8 * core + drw)).claim = some b.task → sel.toNat < 4 → (cl = true → sel ≠ 0) →
    mrising (s.mxu (8 * core + drw)).data.flags = true →
    let x := s.mxu (8 * core + drw)
    ∃ t', exec (.mstat tl cl sel a) s = .next t' ∧ t'.mem = s.mem ∧ t'.tasks = s.tasks ∧ (t'.mxu (8 * core + drw)).queue = x.queue ∧
      ValueIs s t' g b l t [wU a 2] a true (match sel.toNat with
        | 0 => twoWords x.asn
        | 1 => [x.statusWord, BitVec.ofNat 32 (mget 0 x.data.flags tl.toNat)]
        | 2 => twoWords ((x.fault.map fun f => f.num).getD 0)
        | _ => twoWords ((x.fault.map fun f => f.addr.toNat).getD 0)) (fun th => th) ∧
      (t'.mxu (8 * core + drw)).fault = (if cl ∧ sel.toNat ≠ 1 then none else x.fault) ∧
      (t'.mxu (8 * core + drw)).status = (if cl ∧ sel.toNat = 1 then 0 else x.status) ∧
      ∀ k, mget 0 (t'.mxu (8 * core + drw)).data.flags k = (if cl ∧ sel.toNat = 1 ∧ k = tl.toNat then 0 else mget 0 x.data.flags k)) ∧
  (∀ w w2 : Word, w.toNat / 2 ^ 27 % 16 = 13 → w.toNat / 2 ^ 21 % 64 = 12 →
    (4 ≤ w.toNat / 2 ^ 14 % 8 ∨ (w.toNat / 2 ^ 17 % 2 = 1 ∧ w.toNat / 2 ^ 14 % 8 = 0)) → decode w w2 = .error .resfield)

namespace Sys2Proof.Machine

/-- The first command of a unit, ready to execute: not held, its blocks present, no fold, no BDONE, a drawer's command. -/
structure MxReady (s : State) (core drw : Nat) (c : MxCmd) (rest : List MxCmd) : Prop where
  drawer : drw < 8
  queue  : (s.mxu (8 * core + drw)).queue = c :: rest
  free   : (s.mxu (8 * core + drw)).held = false
  there  : ∀ k ∈ c.touches, s.pres core c.who.world k = 0
  fold   : c.fold = .none
  slot   : c.who.slot = none
  keys   : mrising s.mxus = true

/-- The unit's queue without its first command, its timeline at that command's number or beyond (R234). -/
def MxDone (s t' : State) (core drw : Nat) (rest : List MxCmd) : Prop :=
  let x := s.mxu (8 * core + drw)
  let y := t'.mxu (8 * core + drw)
  y.queue = rest ∧ y.asn = x.asn ∧ y.done = (match rest with
    | d :: _ => d.num - 1
    | [] => x.asn)

/-- The keys of the sparse parts of a unit's data rise. -/
def MxCanonical (d : MxData) : Prop := mrising d.tiles = true ∧ mrising d.units = true ∧ mrising d.flags = true

/-- Byte `k` of the scratchpad at an offset, with every generic store performed. -/
def spadByte (s : State) (core : Nat) (w : Nat) (key : Word) (x k : Nat) : Byte :=
  numByte (mget 0 (s.core core).spad (s.spadLoc core w key (x + k / 4 * 4))).toNat (k % 4)

/-- The word at an offset as a task's engines see it: where the task may not rely on it, it is unspecified (R29). -/
def seenWord (s : State) (core : Nat) (w : Nat) (key : Word) (task x : Nat) : Word :=
  let p := s.spadLoc core w key x
  if s.spadSure core p key task then mget 0 (s.core core).spad p else BitVec.ofNat 32 (Config.strayWord (s.runOf task) core p)

/-- Byte `k` from an offset on, so seen. -/
def seenByte (s : State) (core : Nat) (w : Nat) (key : Word) (task x k : Nat) : Byte :=
  numByte (seenWord s core w key task (x + k / 4 * 4)).toNat (k % 4)

end Sys2Proof.Machine

/-- R234, R240, R243, R248. A unit performs its first command and its timeline moves on: MZERO makes its rows zero, clears the tile's flags and
leaves every other element, MLDW copies blocks with their tags (OVR in place of a tag that is not poisoned) to the weight buffer and drops the
records it overwrites; a command whose blocks are not present waits. -/
def Sys2Proof.Says.MatrixExecution : Prop := ∀ s core drw c rest,
  (MxReady s core drw c rest → MxCanonical (s.mxu (8 * core + drw)).data → (s.core core).fresh = [] →
    (c.kind = .zero → c.m ≤ 64 → ∃ t', exec (.mxuCommandExecute core drw) s = .next t' ∧ t'.mem = s.mem ∧ MxDone s t' core drw rest ∧
      mget 0 (t'.mxu (8 * core + drw)).data.flags c.t = 0 ∧
      ∀ tl, ∀ m < 64, ∀ n < 64, (t'.mxu (8 * core + drw)).data.elem tl m n =
        if tl = c.t ∧ m < c.m then ⟨0, .fin⟩ else (s.mxu (8 * core + drw)).data.elem tl m n) ∧
    (c.kind = .ldw → ∃ t', exec (.mxuCommandExecute core drw) s = .next t' ∧ t'.mem = s.mem ∧ MxDone s t' core drw rest ∧
      (∀ r, r ∈ (t'.mxu (8 * core + drw)).data.recs ↔ r ∈ (s.mxu (8 * core + drw)).data.recs ∧ (r.pos + 96 ≤ c.w ∨ c.w + 4096 * c.b ≤ r.pos)) ∧
      ∀ j < 64 * c.b, let y := (t'.mxu (8 * core + drw)).data.unit (c.w / 64 + j)
        let tag := (s.spadTag core c.who.world ((c.ofs + 64 * j) / 64)).toNat
        y.2.toNat % 2 ^ 16 = (if tag % 256 = 255 ∨ c.ovr = 0 then tag else c.ovr) % 2 ^ 16 ∧
        ∀ k < 64, nth 0 y.1 k = seenByte s core c.who.world c.who.key c.who.task (c.ofs + 64 * j) k)) ∧
  (drw < 8 → (s.mxu (8 * core + drw)).queue = c :: rest → c.kind ≠ .drainP → (∃ k ∈ c.touches, s.pres core c.who.world k ≠ 0) →
    exec (.mxuCommandExecute core drw) s = .next s)

namespace Sys2Proof.Machine

/-- The block at a scratchpad offset as a command reads it: its bytes, its tag or OVR, and whether it is poisoned (R240). -/
def readBlock (s : State) (core : Nat) (c : MxCmd) (x : Nat) : OBlk :=
  let t := tagFor (s.spadTag core c.who.world (x / 64)).toNat c.ovr
  ⟨x, (upto 64).map (seenByte s core c.who.world c.who.key c.who.task x), t.1, t.2⟩
/-- The dense weight unit of group `j` and column `n`. -/
def weightUnit (d : MxData) (c : MxCmd) (j n : Nat) : OBlk :=
  let u := d.unit (c.w / 64 + (64 * j + n))
  ⟨c.w + 64 * (64 * j + n), u.1, u.2.toNat, u.2.toNat % 256 = 255⟩
/-- Element `i` of an operand block at scale 2^0; NaN of a poisoned one (R92). -/
def OBlk.elem (b : OBlk) (i : Nat) : Fp := if b.psn then .nan false else match elemOf (b.tag / 256) with
  | some f => f.dec (elemAt f b.bs i)
  | none => .nan false
/-- Block `j` of row `m` of A. -/
def aBlock (s : State) (core : Nat) (c : MxCmd) (m j : Nat) : OBlk := readBlock s core c (c.ofs + m * c.str + 64 * j)

/-- What a multiply, a reduction or a scan reads, where the class of its elements is `k` (R242, R246, R248). -/
def mxReads (s : State) (core drw : Nat) (c : MxCmd) (k : ECls) : List OBlk :=
  let rows (w : Nat) : List OBlk := (upto c.m).flatMap fun m => (upto w).map fun j => aBlock s core c m j
  match c.kind with
  | .mma => rows c.b ++ (upto c.b).flatMap fun j => (upto 64).map fun n => weightUnit (s.mxu (8 * core + drw)).data c j n
  | .mmad | .reds => rows c.b
  | .scan => rows (if k = .c16 then 2 else 1)
  | _ => []

/-- The products that element (m, n) of the tile receives: of A with the dense weights (R242), with the dense equivalent of the records (R246),
of row m with 1 into column 0 (R248), of the first n + 1 elements of row m with 1 (R248). -/
def mxTerms (s : State) (core drw : Nat) (c : MxCmd) (k : ECls) (m n : Nat) : List Fp :=
  let d := (s.mxu (8 * core + drw)).data
  let a := aBlock s core c m
  match c.kind with
  | .mma => (upto c.b).flatMap fun j => (upto k.count).map fun i =>
      product ((a j).elem i) ((weightUnit d c j n).elem i) ((a j).scale + (weightUnit d c j n).scale)
  | .mmad => (upto c.b).flatMap fun j => (upto 64).map fun i => match d.recs.find? fun r => r.pos = c.w + 96 * (64 * j + n) with
      | some r => product ((a j).elem i) (if r.poison then .nan false else r.weight i) ((a j).scale + ((r.scale : Int) - 127))
      | none => .nan false
  | .reds => if n = 0 then (upto c.b).flatMap fun j => (upto k.count).map fun i => product ((a j).elem i) (.ofInt 1) (a j).scale else []
  | .scan => (upto (n + 1)).map fun i => product ((a (i / k.count)).elem (i % k.count)) (.ofInt 1) (a (i / k.count)).scale
  | _ => []

/-- `trunc_toward_zero(p × 2^48)` of a finite product (R96). -/
def truncated : Fp → Int
  | .fin n m e => (trunc48 n m e).1
  | _ => 0

/-- Products land on a deep element (R96): its class, and, where no order of them saturates, the exact sum of the truncated products. -/
def Landed (old new : Deep) (ps : List Fp) : Prop :=
  new.cls = ps.foldl landCls old.cls ∧
  (new.cls = .fin → old.d + (ps.map fun p => max (truncated p) 0).sum ≤ 2 ^ 95 - 1 → -(2 ^ 95) ≤ old.d + (ps.map fun p => min (truncated p) 0).sum →
    new.d = old.d + (ps.map truncated).sum)

/-- The bytes of a record (R244): the entry of PERM at a sorted position, a difference code, and how many codes 7 stand before it. -/
def odfPerm (bs : List Byte) (p : Nat) : Nat := leNat (bs.take 48) / 2 ^ (6 * p) % 64
def odfDiff (bs : List Byte) (i : Nat) : Nat := leNat ((bs.drop 50).take 24) / 2 ^ (3 * i) % 8
def odfEsc (bs : List Byte) (i : Nat) : Nat := ((upto i).filter fun h => odfDiff bs h = 7).length
/-- The weight at sorted position `p`: BASE and the differences below it, an escape byte for each code 7. -/
def odfQ (bs : List Byte) (p : Nat) : Int :=
  (nth 0 bs 48).toInt + ((upto p).map fun i => ((if odfDiff bs i = 7 then (nth 0 bs (74 + odfEsc bs i)).toNat else odfDiff bs i : Nat) : Int)).sum
/-- A record is valid (R245). -/
structure OdfValid (bs : List Byte) : Prop where
  perm   : ∀ x < 64, ∃ p < 64, odfPerm bs p = x
  sevens : odfEsc bs 63 = (nth 0 bs 49).toNat
  nesc   : (nth 0 bs 49).toNat ≤ 22
  top    : leNat ((bs.drop 50).take 24) < 2 ^ 189
  range  : ∀ p < 64, -128 ≤ odfQ bs p ∧ odfQ bs p ≤ 127

/-- The code of a class in a spilled element (R249). -/
def clsCode : DCls → Nat
  | .fin => 0
  | .pinf => 1
  | .ninf => 2
  | .nan => 3

/-- The words of a command's scratchpad blocks stand at different places, and no block is written twice. -/
def Spread (s : State) (core : Nat) (c : MxCmd) : Prop := c.touches.Nodup ∧
  ∀ b ∈ c.touches, ∀ b' ∈ c.touches, ∀ i < 16, ∀ i' < 16,
    s.spadLoc core c.who.world c.who.key (64 * b + 4 * i) = s.spadLoc core c.who.world c.who.key (64 * b' + 4 * i') → b = b' ∧ i = i'

/-- Neither an infinity nor NaN. -/
def Fp.isFin : Fp → Bool
  | .fin _ _ _ => true
  | _ => false

/-- A block formed from values (R98, R99, R273): each code is that of the value times 2^`sh` in the format, NaN in an integer format 0; the tag
names the format and the scale byte `e`, or 0xFF where an integer format met a value that is not finite. -/
def Converted (f : Elem) (fmt e : Nat) (sh : Int) (who : Who) (adr : Nat) (xs : List Fp) (bs : List Byte) (tg : Tag) : Prop :=
  let rm := rmOf who.mode who.mode
  tg.toNat = 256 * fmt + (if f.isInt = true ∧ xs.any (fun y => !y.isFin) = true then 255 else e) ∧
  ∀ i < f.count, let y := nth (.nan false) xs i
    elemAt f bs i = (if f.isInt = true ∧ y.isNan = true then 0 else
      (f.conv rm (if rm = .sr then srDraw who.seed who.task (srAddr f adr i) else 0) (y.scale sh)).1) % 2 ^ f.bits

/-- A block of a drain holds a tile's elements, converted at scale byte `e`. -/
def Drained (s : State) (core : Nat) (c : MxCmd) (x e : Nat) (xs : List Deep) : Prop :=
  Converted (drainElem c.ctl) (c.ctl.toNat % 256) e (127 - (e : Int)) c.who x (xs.map Deep.fp)
    ((upto 64).map (spadByte s core c.who.world c.who.key x)) (s.spadTag core c.who.world (x / 64))

end Sys2Proof.Machine

/-- R240 to R246, R248 to R252, R258. The effects of the other commands. MMA, MMAD, MREDS and MSCAN land the products of R242, R246 and R248 on their
rows, leave the other elements, and set PSN where they read a poisoned block; a block without a class, or two of different classes, makes the
fault record instead, and the tiles stay. MLDWD keeps a valid record's permutation, codes and scale byte, and a poisoned one. MLDZ and MSTZ copy
elements from and to their spilled form. MDRAIN and MDRAINT write each row, and each column, block by block at the control word's scale byte or
that of R99; CLR zeroes the rows of a drain or a store after it. -/
def Sys2Proof.Says.MatrixResults : Prop := ∀ s core drw c rest, MxReady s core drw c rest → MxCanonical (s.mxu (8 * core + drw)).data →
  (s.core core).fresh = [] → c.t < 4 → c.m ≤ 64 → c.ofs % 64 = 0 → c.str % 64 = 0 → c.w % 64 = 0 →
  let d := (s.mxu (8 * core + drw)).data
  let runs (P : State → MxData → Prop) : Prop := ∃ t', exec (.mxuCommandExecute core drw) s = .next t' ∧ t'.mem = s.mem ∧ MxDone s t' core drw rest ∧
    P t' (t'.mxu (8 * core + drw)).data
  let sameTiles (d' : MxData) : Prop := ∀ tl, ∀ m < 64, ∀ n < 64, d'.elem tl m n = d.elem tl m n
  let cleared (d' : MxData) : Prop := ∀ tl, ∀ m < 64, ∀ n < 64,
    d'.elem tl m n = if bitAt c.ctl.toNat 15 = true ∧ tl = c.t ∧ m < c.m then ⟨0, .fin⟩ else d.elem tl m n
  (∀ k, c.kind = .mma ∨ c.kind = .mmad ∨ c.kind = .reds ∨ c.kind = .scan →
    (∀ b ∈ mxReads s core drw c k, b.psn = true ∨ b.cls = some k) →
    (k = .c8 ∨ ∃ b ∈ mxReads s core drw c k, b.psn = false) →
    (c.kind = .mmad → k = .c8 ∧ ∀ j < 64 * c.b, (d.recs.find? fun r => r.pos = c.w + 96 * j).isSome = true) →
    (c.kind = .scan → k ≠ .c4 ∧ (k = .c16 → (∃ m < c.m, (aBlock s core c m 0).psn = false) ∧
      ∀ m < c.m, s.pres core c.who.world ((c.ofs + m * c.str) / 64 + 1) = 0)) →
    runs fun t' d' => d'.units = d.units ∧ d'.recs = d.recs ∧
      (t'.mxu (8 * core + drw)).status = (s.mxu (8 * core + drw)).status ||| (if (∃ b ∈ mxReads s core drw c k, b.psn = true) ∨
        (c.kind = .mmad ∧ ∃ j < 64 * c.b, (d.recs.find? fun r => r.pos = c.w + 96 * j).map Odf.poison = some true) then 32 else 0) ∧
      (∀ m < c.m, ∀ n < 64, Landed (d.elem c.t m n) (d'.elem c.t m n) (mxTerms s core drw c k m n)) ∧
      ∀ tl, ∀ m < 64, ∀ n < 64, (tl ≠ c.t ∨ c.m ≤ m) → d'.elem tl m n = d.elem tl m n) ∧
  (c.kind = .mma ∨ c.kind = .mmad ∨ c.kind = .reds ∨ c.kind = .scan → (s.mxu (8 * core + drw)).fault = none → c.who.run = none →
    (s.mxu (8 * core + drw)).claim = some c.who.task → s.holdsClaim c.who.task = true →
    ((∃ b ∈ mxReads s core drw c .c8, b.psn = false ∧ b.cls = none) ∨
      ∃ b ∈ mxReads s core drw c .c8, ∃ b' ∈ mxReads s core drw c .c8, b.psn = false ∧ b'.psn = false ∧ b.cls ≠ b'.cls) →
    runs fun t' d' => d' = d ∧ ∃ f, (t'.mxu (8 * core + drw)).fault = some f ∧ f.cause = .tag ∧ f.num = c.num ∧ f.task = c.who.task) ∧
  (c.kind = .ldwd →
    let byte (r k : Nat) : Byte := seenByte s core c.who.world c.who.key c.who.task (c.ofs + (96 * r + k) / 64 * 64) ((96 * r + k) % 64)
    let rec_ (r : Nat) : List Byte := (upto 96).map (byte r)
    let first (r : Nat) : OBlk := readBlock s core c (c.ofs + 96 * r / 64 * 64)
    let last (r : Nat) : OBlk := readBlock s core c (c.ofs + (96 * r + 95) / 64 * 64)
    let poisoned (r : Nat) : Prop := (first r).psn = true ∨ (last r).psn = true
    (∀ r < 64 * c.b, ((first r).psn = true ∨ (first r).tag / 256 = 0x10) ∧ ((last r).psn = true ∨ (last r).tag / 256 = 0x10) ∧
      (poisoned r ∨ OdfValid (rec_ r))) →
    runs fun _ d' => sameTiles d' ∧ ∀ r < 64 * c.b, ∃ o, (d'.recs.find? fun o => o.pos = c.w + 96 * r) = some o ∧
      (poisoned r → o.poison = true) ∧
      (¬ poisoned r → o.poison = false ∧ o.scale = (first r).tag % 256 ∧ ∀ p < 64, nth 0 o.perm p = odfPerm (rec_ r) p ∧ nth 0 o.q p = odfQ (rec_ r) p)) ∧
  (c.kind = .ldz →
    let b (m n : Nat) : OBlk := readBlock s core c (c.ofs + 1024 * m + 64 * (n / 4))
    let bytes (m n : Nat) : List Byte := (b m n).bs.drop (16 * (n % 4))
    (∀ m < c.m, ∀ n < 64, (b m n).psn = true ∨ ((b m n).tag / 256 = 0x11 ∧ (nth 0 (bytes m n) 12).toNat ≤ 3)) →
    runs fun _ d' => d'.flags = d.flags ∧ d'.units = d.units ∧ d'.recs = d.recs ∧
      (∀ m < c.m, ∀ n < 64, let y := d'.elem c.t m n
        if (b m n).psn then y.cls = .nan else clsCode y.cls = (nth 0 (bytes m n) 12).toNat ∧ y.d = sx 96 (leNat ((bytes m n).take 12))) ∧
      ∀ tl, ∀ m < 64, ∀ n < 64, (tl ≠ c.t ∨ c.m ≤ m) → d'.elem tl m n = d.elem tl m n) ∧
  (c.kind = .stz → Spread s core c → runs fun t' d' => d'.flags = d.flags ∧ cleared d' ∧ ∀ m < c.m, ∀ n < 64,
    let x := c.ofs + 1024 * m + 16 * n
    let at_ (k : Nat) : Byte := spadByte t' core c.who.world c.who.key x k
    t'.spadTag core c.who.world (x / 64) = 0x117F#16 ∧ (∀ k < 12, at_ k = nth 0 (natLe 12 ((d.elem c.t m n).d % 2 ^ 96).toNat) k) ∧
      (at_ 12).toNat = clsCode (d.elem c.t m n).cls ∧ at_ 13 = 0 ∧ at_ 14 = 0 ∧ at_ 15 = 0) ∧
  ((c.kind = .drain ∨ c.kind = .drainT) → (c.kind = .drainT → c.m = 64 ∧ (drainElem c.ctl).count = 64 ∧ c.tofs % 64 = 0) → Spread s core c →
    bits c.ctl.toNat 23 16 < 255 ∨ bits c.ctl.toNat 12 11 ≠ 0 → 2 ≤ (drainElem c.ctl).bits / 4 →
    let f := drainElem c.ctl
    runs fun t' d' => d'.flags = d.flags ∧ cleared d' ∧
      (∀ m < c.m, ∀ j < 64 / f.count, let xs := (upto f.count).map fun i => d.elem c.t m (f.count * j + i)
        Drained t' core c (c.ofs + m * c.str + 64 * j) (if bits c.ctl.toNat 12 11 = 0 then bits c.ctl.toNat 23 16 else pickScale f (xs.map Deep.fp)) xs) ∧
      (c.kind = .drainT → ∀ n < 64, let xs := (upto 64).map fun m => d.elem c.t m n
        Drained t' core c (c.tofs + n * c.str) (pickScale f (xs.map Deep.fp)) xs))

/-- R234, R255. A peer drain sends its rows and waits for their acknowledgements; a row from the same world enters the target's queue once, one
from another world is refused; the last acknowledgement ends the command; unacknowledged rows are sent again. -/
def Sys2Proof.Says.PeerDrains : Prop := ∀ s core drw c rest, drw < 8 → (s.mxu (8 * core + drw)).queue = c :: rest → (s.mxu (8 * core + drw)).held = false →
  c.kind = .drainP → mrising s.mxus = true → ∀ x, x = s.mxu (8 * core + drw) →
  (x.send = none → ∃ t', exec (.mxuCommandExecute core drw) s = .next t' ∧ t'.mem = s.mem ∧ (t'.mxu (8 * core + drw)).queue = c :: rest ∧
    (∀ m < c.m, ∃ p ∈ t'.pkts, p.src = 8 * core + drw ∧ p.seq = (x.pseq + m) % 2 ^ 32 ∧ p.m = m ∧ p.world = c.who.world ∧ p.vals = x.data.row c.t m)) ∧
  (∀ p k, s.pkts[k]? = some p → (∀ q ∈ s.pkts.take k, ¬ (q.src = p.src ∧ q.dst = p.dst)) → s.vacated.contains (p.dst / 8) = false →
    let same := (mget Drawer.init s.drawers p.dst).world = p.world
    (¬ same → ∃ t', exec (.peerRowReceive k) s = .next t' ∧ t'.packs = s.packs ++ [⟨p.src, p.seq, false⟩] ∧ t'.pkts = s.pkts.eraseIdx k ∧
      t'.mxus = s.mxus) ∧
    (same → mget? (s.mxu p.dst).recv p.src = none → ((s.mxu p.dst).queue.filter fun y => y.kind = .row).length < 64 →
      ∃ t' d, exec (.peerRowReceive k) s = .next t' ∧ t'.pkts = s.pkts.eraseIdx k ∧ (t'.mxu p.dst).queue = (s.mxu p.dst).queue ++ [d] ∧
        d.kind = .row ∧ d.row = some p ∧ d.num = (s.mxu p.dst).asn + 1 ∧ mget? (t'.mxu p.dst).recv p.src = some p.seq)) ∧
  (∀ p (q : BitVec 32), x.send = some p → p.refused = [] → p.acked.length + 1 = c.m → q.toNat ∉ p.acked → (q.toNat + 2 ^ 32 - p.base) % 2 ^ 32 < c.m →
    s.packs.find? (fun a => a.dst = 8 * core + drw && a.seq = q.toNat) = some ⟨8 * core + drw, q.toNat, true⟩ → c.who.slot = none → bitAt c.ctl.toNat 15 = false →
    ∃ t', exec (.peerAckReceive core drw q) s = .next t' ∧ (t'.mxu (8 * core + drw)).queue = rest ∧ t'.mem = s.mem) ∧
  (∀ p, x.send = some p → ∃ t', exec (.peerResend core drw) s = .next t' ∧ t'.mxus = s.mxus ∧ t'.mem = s.mem ∧
    ∀ m < c.m, (p.base + m) % 2 ^ 32 ∉ p.acked → ∃ k ∈ t'.pkts, k.src = 8 * core + drw ∧ k.seq = (p.base + m) % 2 ^ 32 ∧ k.vals = x.data.row c.t m)

namespace Sys2Proof.Machine

/-- The 16 words of a packet in uniform registers (R284). -/
def packetAt (b : Bench) (t : Thread) (p : BitVec 7) : List Word := (upto 16).map fun j => b.u t (p.toNat + j)

/-- The layout records a packet names are read (R269): destination always, source but for ZERO; their addresses are multiples of 8. -/
def LayoutsRead (s0 : State) (b : Bench) (l : Nat) (pk : List Word) (s2 : State) (sw dw : List Word) : Prop := ∃ s1 sb db,
  sw = wordsOfBytes sb ∧ dw = wordsOfBytes db ∧ pkD pk 4 % 8 = 0 ∧
  (if pkOp pk = 7 then s1 = s0 ∧ sb = [] else pkD pk 2 % 8 = 0 ∧ s0.checkedBytes b l (BitVec.ofNat 64 (pkD pk 2)) 64 = (s1, .ok sb)) ∧
  s1.checkedBytes b l (BitVec.ofNat 64 (pkD pk 4)) 64 = (s2, .ok db)

/-- Each block number's presence rose by its occurrences in `rows` (R182). -/
def Raised (s t' : State) (core w : Nat) (rows : List Nat) : Prop := ∀ k < 2 ^ 16, t'.pres core w k = s.pres core w k + rows.count k

end Sys2Proof.Machine

/-- R182, R263, R268, R284 to R286. BCOPY, its checks passed and with room in the local queue, enqueues its packet under the next number, with the task's snapshot, raises the
presence of its scratchpad destination, pins the task where it writes world memory, and gives the number. BCANCEL answers 2 for 0 and for a number not
issued or consumed, 1 for an operation that is over, and 0 for one that it cancels: what has not landed never lands, its presence falls, its record
will show CANCELLED (status 1), the line buffer empties, and no other operation changes. BQRY gives the queue's fault, how many operations are in flight and the room left.
The model's own choices it rests on: log entries 23, 122, 123. -/
def Obligations.TransferInstructions : Prop := ∀ s g b l t k, Alone s g b l t → s.task? b.task = some k →
  (∀ d p s2 sw dw x fol sl, Passes b g [rU p 16, wV d 2] [] →
    let pk := packetAt b t p
    let core := coreIx g.place
    let stw := decide (192 ≤ core)
    let who : Who := ⟨b.task, b.world, some g.place, b.spkey, t.srseed, if pkMode pk = 7 then fpcRm t.fpc else pkMode pk, sl, none⟩
    let rows := presRows (Layout.of dw) core
    pkCheck pk false stw (!stw) = none → LayoutsRead (s.opened g b) (b.noted g) l pk s2 sw dw →
    layoutsCheck pk sw dw false stw (s.spadSize core b.world) = none →
    (if pkBd pk then ∃ n, s.engSlot b g (bits (pkW pk 0) 21 16) = .ok n ∧ sl = some n else sl = none) →
    folCmd pk who (s.spadSize core b.world) core = .ok fol → k.mayBcopy pk (Layout.of dw) = none → s.queue (localQ g.place b.world) = some x →
    x.fault = none → x.ops.length < 64 → s.vacated.contains core = false → s.unchecked b.task = false → s.presFits core b.world rows = true →
    ∃ t' y o, exec (.bcopy d p) s = .next t' ∧ t'.mem = s.mem ∧ LaneIs s t' g l (t.after g [rU p 16, wV d 2] (vecPend t d (twoWords x.next))) ∧
      Raised s t' core b.world rows ∧ TaskPinned s t' b (toWorld pk (Layout.of dw)) ∧ t'.queue (localQ g.place b.world) = some y ∧
      y.ops = x.ops ++ [o] ∧ y.next = x.next + 1 ∧ y.tl = x.tl ∧ o.n = x.next ∧ o.pk = pk ∧ o.dst = Layout.of dw ∧ o.who = who ∧
      o.prog.state = .pending ∧ o.prog.fol = fol ∧ o.snap = some k.snap) ∧
  (∀ d a c q x, Passes b g [rU a 2, rU c 1, wV d 1] [] →
    let n := (b.u t a.toNat).toNat + 2 ^ 32 * (b.u t (a.toNat + 1)).toNat
    (b.u t c.toNat).toNat < 4096 → s.selQueue g.place b.world (b.u t c.toNat).toNat = some (q, x) →
    let out (r : Word) (t' : State) : Prop := exec (.bcancel d a c) s = .next t' ∧ t'.mem = s.mem ∧ t'.tasks = s.tasks ∧
      LaneIs s t' g l (t.after g [rU a 2, rU c 1, wV d 1] (vecPend t d [r]))
    let given : Prop := 0 < n ∧ (if x.eng then n ≤ x.cidx else n < x.next)
    (¬ given → ∃ t', out 2 t' ∧ t'.queues = s.queues) ∧
    (given → (∀ o ∈ x.ops, o.n = n → o.prog.state = .cancelled) → ∃ t', out 1 t' ∧ t'.queues = s.queues) ∧
    (∀ o, given → x.ops.find? (fun y => y.n = n && y.prog.state ≠ .cancelled) = some o →
      (o.prog.comp = true → o.prog.blocks = [] → o.prog.status ≠ 0 → ∃ t', out 1 t' ∧ t'.queues = s.queues) ∧
      ((o.prog.comp = false ∨ o.prog.blocks ≠ [] ∨ o.prog.status = 0) →
        ∃ t' y, out 0 t' ∧ mget? t'.queues (qKey q) = some y ∧ y.lbuf = [] ∧ y.ops.length = x.ops.length ∧
          (∀ (k : Nat) (z : BOp), x.ops[k]? = some z → (z.n = n ∧ z.prog.state ≠ .cancelled → y.ops[k]? = some { z with prog := { z.prog with
              state := .cancelled, comp := true, blocks := [], rows := [], fol := none, fold := none, status := 1, held := false } }) ∧
            (z.n ≠ n ∨ z.prog.state = .cancelled → y.ops[k]? = some z)) ∧
          ((x.ops.filter fun z : BOp => z.n = n) = [o] → mwf 0 (s.core o.core).pres = true → ∀ k < 2 ^ 16,
            t'.pres o.core o.who.world k = s.pres o.core o.who.world k - o.prog.rows.count k)))) ∧
  (∀ d a q x, Passes b g [rU a 1, wV d 2] [] → bits (b.u t a.toNat).toNat 30 12 = 0 →
    s.selQueue g.place b.world ((b.u t a.toNat).toNat % 4096) = some (q, x) →
    ∃ t', exec (.bqryQueue d a) s = .next t' ∧ t'.mem = s.mem ∧ t'.tasks = s.tasks ∧
      LaneIs s t' g l (t.after g [rU a 1, wV d 2] (vecPend t d
        [BitVec.ofNat 32 ((match x.fault with
            | some f => 2 ^ 31 + f.cause.code * 2 ^ 16
            | none => 0) + (x.ops.filter fun o => o.prog.state ≠ .pending).length * 256 + if isMemQ q then 0 else 64 - x.ops.length),
         BitVec.ofNat 32 (match x.fault with
            | some f => f.num
            | none => 0)])) ∧
      ∃ y, t'.queue q = some y ∧ y.ops = x.ops ∧ y.fault = if bitAt (b.u t a.toNat).toNat 31 then none else x.fault)

namespace Sys2Proof.Machine

/-- The packets each transform row performs (Table 10.2): by OP, and ACC for COPY. -/
def transformRow (q : QId) (n : Nat) : Instr → Option (List Word → Bool)
  | .copy q' n' => if (q', n') = (q, n) then some fun p => pkOp p = 0 ∧ pkAcc p = false else none
  | .reducingCopy q' n' => if (q', n') = (q, n) then some fun p => pkOp p = 0 ∧ pkAcc p = true else none
  | .transpose q' n' => if (q', n') = (q, n) then some fun p => pkOp p = 1 else none
  | .quant q' n' => if (q', n') = (q, n) then some fun p => pkOp p = 2 else none
  | .dequant q' n' => if (q', n') = (q, n) then some fun p => pkOp p = 3 else none
  | .swizzle q' n' => if (q', n') = (q, n) then some fun p => pkOp p = 4 else none
  | .gather q' n' => if (q', n') = (q, n) then some fun p => pkOp p = 5 else none
  | .im2col q' n' => if (q', n') = (q, n) then some fun p => pkOp p = 6 else none
  | .zero q' n' => if (q', n') = (q, n) then some fun p => pkOp p = 7 else none
  | .migrate q' n' => if (q', n') = (q, n) then some fun p => pkOp p = 8 else none
  | _ => none

/-- The maps of a core that are read with a default are canonical. -/
def CoreCanonical (c : Core) : Prop := mwf 0 c.spad = true ∧ mwf tag0 c.stags = true ∧ mwf 0 c.pres = true

/-- How far an operation is: state, blocks to land, landed count. -/
def OpIs (t' : State) (q : QId) (n : Nat) (p : BProg → Prop) : Prop := ∃ o, t'.op? q n = some o ∧ p o.prog

/-- A source block at its address (R279): of scratchpad as the operation's engine sees it, at a DPA as it is stored, or in world memory at the
operation's snapshot, where its translation is at hand and no error bars it. -/
def SrcIs (s : State) (o : BOp) (l : Layout) (a : Nat) (x : List Byte × Tag) : Prop :=
  match l.space with
  | 0 => ∃ loc, s.engAddr o.core o.who.world .load a = (s, .ok loc) ∧ s.bad = [] ∧ s.engError loc (pkInterprets o.pk) = none ∧
    x = match o.snap with
      | some e => s.blockAt e loc
      | none => s.block loc
  | 1 => (s.core o.core).fresh = [] ∧ (pkInterprets o.pk = true ∨ s.spadMarked o.core o.who.world a 64 = false) ∧
    x = ((upto 64).map (seenByte s o.core o.who.world o.keyS o.who.task a), s.spadTag o.core o.who.world (a / 64))
  | 3 => s.dpaBar a = none ∧ s.dataError a (!pkInterprets o.pk) = false ∧ x = (s.stored (a / 64), s.tag (a / 64))
  | _ => False

/-- Dimensions a layout does not use have extent 1, elements are at most 8 bytes (R269). -/
def Shaped (l : Layout) : Prop := l.esz ≤ 3 ∧ ∀ d < 4, l.ndim < d → l.x d = 1

/-- Where IM2COL takes element `e` of its destination, counted in traversal order, from (R272); none where it pads. -/
def imSource (aux : Nat) (l d : Layout) (e : Nat) : Option Nat :=
  let byte (lo : Nat) : Nat := bits aux (lo + 7) lo
  let nib (lo : Nat) : Nat := bits aux (lo + 3) lo
  let ow := (l.x 1 + 2 * nib 28 - byte 8) / nib 20 + 1
  let col := e % d.x 0
  let row := e / d.x 0
  let y : Int := (row / ow * nib 16 + col / l.x 0 / byte 8 : Nat) - (nib 24 : Int)
  let x : Int := (row % ow * nib 20 + col / l.x 0 % byte 8 : Nat) - (nib 28 : Int)
  if 0 ≤ y ∧ y < l.x 2 ∧ 0 ≤ x ∧ x < l.x 1 then some (l.rowAt x.toNat y.toNat 0 + col % l.x 0 * 2 ^ l.esz) else none

/-- What the transforms of Table 10.4 form, with `blk a` the source block at `a`. -/
def TransformIs (s : State) (o : BOp) (bs : List BBlk) : Prop := ∀ blk : Nat → List Byte × Tag,
  let d := o.dst
  let fmt := pkFmt o.pk
  let aux := pkD o.pk 6
  let byte (a : Nat) : Byte := nth 0 (blk (a / 64 * 64)).1 (a % 64)
  let tag (a : Nat) : Nat := (blk (a / 64 * 64)).2.toNat
  let code (a n : Nat) : Nat := leNat ((upto n).map fun i => byte (a + i))
  (pkOp o.pk = 7 → bs = d.blocks.map fun a => .data a (List.replicate 64 0) 0x007F) ∧
  ∀ l, o.src = some l →
    (pkOp o.pk = 8 → bs = (l.blocks.zip d.blocks).map fun e => .move e.1 e.2) ∧
    (extentsOk o.pk l d = true → alignBad o.pk l d = none → Shaped l → Shaped d →
      let has (as : List Nat) : Prop := ∀ a ∈ as, SrcIs s o l (a / 64 * 64) (blk (a / 64 * 64))
      let row := l.rowLen / 64
      let wd := 2 ^ l.esz
      let elem (m : Nat) : Nat := nth 0 l.elems m
      let joined (t : Tag) (at_ : Nat → Option Nat) : Prop := bs.length = d.blocks.length ∧ ∀ k c, d.blocks[k]? = some c → ∃ ys,
        bs[k]? = some (.data c ys t) ∧ ys.length = 64 ∧ ∀ p < 64, nth 0 ys p = match at_ ((64 * k + p) / wd) with
          | some a => byte (a + p % wd)
          | none => nth 0 (natLe wd l.pad) (p % wd)
      let formed (f : Elem) (scale : List Fp → Nat) (val : Nat → Fp) : Prop := bs.length = d.blocks.length ∧ ∀ k c, d.blocks[k]? = some c →
        let xs := (upto f.count).map fun i => val (f.count * k + i)
        ∃ ys t fl, bs[k]? = some (.data c ys t fl) ∧ Converted f fmt (scale xs) (127 - (scale xs : Int)) o.who c xs ys t
      (pkOp o.pk = 0 → has l.blocks → bs = (l.blocks.zip d.blocks).map fun e => .data e.2 (blk e.1).1 (blk e.1).2) ∧
      (pkOp o.pk = 1 → has l.elems →
        (∀ t, (∀ a ∈ l.elems, (blk (a / 64 * 64)).2 = t) → joined t fun e => some (l.rowAt (e % d.x 0) 0 0 + e / d.x 0 * wd)) ∧
        (∀ a ∈ l.elems, ∀ c ∈ l.elems, tag a ≠ tag c → ∃ f, bs = [.fault f] ∧ f.c = .tag)) ∧
      (pkOp o.pk = 2 → has l.elems → ∀ f g, elemOf fmt = some f → f.bits ≤ 8 → (g = .fp32 ∨ g = .fp16 ∨ g = .bf16) → g.bits = 8 * wd →
        (∀ a ∈ l.elems, elemOf (tag a / 256) = some g ∧ tag a % 256 ≠ 255) →
        formed f (fun xs => if pkScl o.pk = 0 then pkEsc o.pk else pickScale f xs) fun m => (g.dec (code (elem m) wd)).scale ((tag (elem m) % 256 : Nat) - 127)) ∧
      (pkOp o.pk = 3 → has l.elems → ∀ f, elemOf fmt = some f → (f = .fp32 ∨ f = .fp16 ∨ f = .bf16) →
        let per := d.count / l.count
        ∀ g0, (∀ a ∈ l.elems, ∃ g, elemOf (tag a / 256) = some g ∧ sameFmt g0 g = true ∧ tag a % 256 ≠ 255 ∧
          (if g.bits = 4 then l.esz = 0 ∧ per = 2 else g.bits = 8 * wd ∧ per = 1)) →
        formed f (fun _ => 127) fun v => let a := elem (v / per)
          let g := (elemOf (tag a / 256)).getD g0
          (g.dec (if g.bits = 4 then code a 1 / 16 ^ (v % 2) % 16 else code a wd)).scale ((tag a % 256 : Nat) - 127)) ∧
      (pkOp o.pk = 4 → ∀ i < d.x 1, ∀ j < d.x 2, ∀ k < d.x 3, ∀ b < row,
        let dim (n : Nat) : Nat := bits aux (2 * n - 1) (2 * n - 2)
        let co (n : Nat) : Nat := if dim 1 = n then i else if dim 2 = n then j else k
        let a := l.rowAt (co 1) (co 2) (co 3) + 64 * b
        let c := d.rowAt i j k + 64 * b
        let n := ((k * d.x 2 + j) * d.x 1 + i) * row + b
        has l.blocks →
        (fmt = 0 → bs[n]? = some (.data c (blk a).1 (blk a).2)) ∧
        (∀ f g0, elemOf fmt = some f → f.bits = 8 → (∀ y ∈ l.blocks, ∃ g, elemOf (tag y / 256) = some g ∧ g.bits = 8 ∧ sameFmt g0 g = true ∧ tag y % 256 ≠ 255) →
          ∃ ys t fl, bs[n]? = some (.data c ys t fl) ∧ Converted f fmt (tag a % 256) 0 o.who c
            ((upto 64).map fun p => ((elemOf (tag a / 256)).getD g0).dec (byte (a + p)).toNat) ys t)) ∧
      (pkOp o.pk = 5 → aux % 4 = 0 → ∀ ixb : Nat → List Byte × Tag,
        let word (r : Nat) : Nat := (aux + 4 * r) % 2 ^ 64
        let idx (r : Nat) : Nat := leNat (((ixb (word r / 64 * 64)).1.drop (word r % 64)).take 4)
        (∀ r < d.x 1, SrcIs s o { d with space := 0 } (word r / 64 * 64) (ixb (word r / 64 * 64))) →
        (∀ r < d.x 1, idx r < l.x 1 → has ((upto row).map fun b => l.rowAt (idx r) 0 0 + 64 * b)) →
        bs.length = d.x 1 * row ∧ ∀ r < d.x 1, ∀ b < row, let a := l.rowAt (idx r) 0 0 + 64 * b
          bs[r * row + b]? = some (if idx r < l.x 1 then .data (d.rowAt r 0 0 + 64 * b) (blk a).1 (blk a).2
            else .data (d.rowAt r 0 0 + 64 * b) (List.replicate 64 0) 0x007F 64)) ∧
      (pkOp o.pk = 6 → let inside := (upto (d.x 0 * d.x 1)).filterMap fun e => imSource aux l d e
        has inside → inside ≠ [] →
        (∀ t, (∀ a ∈ inside, (blk (a / 64 * 64)).2 = t) → joined t fun e => imSource aux l d e) ∧
        (∀ a ∈ inside, ∀ c ∈ inside, tag a ≠ tag c → ∃ f, bs = [.fault f] ∧ f.c = .tag)))

end Sys2Proof.Machine

/-- R183, R271 to R273, R280. A transform starts when it may, and reads its source, at once, when it may: it then forms the blocks of Table 10.4
that it will land. ZERO forms zeros with the tag 0x007F; MIGRATE moves lines; COPY, reducing or not, carries blocks with their tags; TRANSPOSE and
IM2COL join elements under the one tag their blocks carry, or take TC_TAG; QUANT, DEQUANT and a converting SWIZZLE round values into FMT;
SWIZZLE and GATHER move rows. Until it may read, it waits.
The model's own choices it rests on: log entries 52, 113. -/
def Obligations.TransfersStart : Prop := ∀ i q n r s x o, transformRow q n i = some r → s.queue q = some x → s.op? q n = some o → r o.pk = true →
  (x.mayStart o = false → s.mayRead o = false → exec i s = .next s) ∧
  (x.mayStart o = true → s.mayRead o.started = false → ∃ t', exec i s = .next t' ∧ t'.mem = s.mem ∧ t'.tags = s.tags ∧ t'.tasks = s.tasks ∧
    OpIs t' q n fun p => p = { o.prog with state := .running }) ∧
  ((x.mayStart o = true ∨ o.prog.state = .running) → s.mayRead o.started = true → pkLb o.pk = false → o.prog.landed = 0 →
    ∃ t', exec i s = .next t' ∧ t'.mem = s.mem ∧ t'.tags = s.tags ∧ t'.tasks = s.tasks ∧
      OpIs t' q n fun p => p.state = .running ∧ p.comp = true ∧ p.landed = 0 ∧ TransformIs s o p.blocks)

/-- R94, R182, R277, R280, R281, R43. One block lands whole, with its tag, and its presence falls: in scratchpad, or at its home in world memory; a
reducing copy adds it to the block there, whose tag stays; MIGRATE takes the line with its tag to its new place. An operation all of whose
blocks have landed completes: it leaves the queue, whose timeline follows the completed prefix. (Completion shown for local queues.)
The model's own choices it rests on: log entry 77. -/
def Obligations.TransfersLand : Prop := ∀ s q n x o, s.queue q = some x → s.op? q n = some o → o.prog.state = .running → o.prog.comp = true → o.prog.held = false →
  (∀ a bs tg fl rest, o.prog.blocks = .data a bs tg fl :: rest → bs.length = 64 → a % 64 = 0 → o.prog.fol = none →
    let next (t' : State) : Prop := OpIs t' q n (fun p => p.blocks = rest ∧ p.landed = o.prog.landed + 1)
    (pkAcc o.pk = false → o.dst.space = 1 → CoreCanonical (s.core o.core) → Canonical s → a + 64 ≤ s.spadSize o.core o.who.world →
      ∃ t', exec (.bteBlockLand q n) s = .next t' ∧ t'.mem = s.mem ∧ next t' ∧ OpIs t' q n (fun p => p.flags = o.prog.flags ||| fl) ∧
        (∀ k < 64, spadByte t' o.core o.who.world o.keyD a k = nth 0 bs k) ∧
        t'.spadTag o.core o.who.world (a / 64) = tg ∧
        t'.pres o.core o.who.world (a / 64) = s.pres o.core o.who.world (a / 64) - (if a / 64 ∈ o.prog.rows then 1 else 0)) ∧
    (∀ f, pkAcc o.pk = true → o.dst.space = 1 → CoreCanonical (s.core o.core) → Canonical s → a + 64 ≤ s.spadSize o.core o.who.world →
      (s.core o.core).fresh = [] → (f = .fp16 ∨ f = .bf16 ∨ f = .fp32) →
      let dt := (s.spadTag o.core o.who.world (a / 64)).toNat
      let db := (upto 64).map (seenByte s o.core o.who.world o.keyD o.who.task a)
      let rm := rmOf o.who.mode o.who.mode
      elemOf (dt / 256) = some f → elemOf (tg.toNat / 256) = some f → dt % 256 ≠ 255 → tg.toNat % 256 ≠ 255 →
      ∃ t', exec (.bteBlockLand q n) s = .next t' ∧ t'.mem = s.mem ∧ next t' ∧ (t'.spadTag o.core o.who.world (a / 64)).toNat = dt ∧
        ∀ i < f.count, elemAt f ((upto 64).map (spadByte t' o.core o.who.world o.keyD a)) i =
          (f.conv rm (if rm = .sr then srDraw o.who.seed o.who.task (srAddr f a i) else 0)
            ((addFp (decide (rm = .rd)) ((f.dec (elemAt f db i)).scale ((dt % 256 : Nat) - 127)) ((f.dec (elemAt f bs i)).scale ((tg.toNat % 256 : Nat) - 127))).1.scale
              (127 - ((dt % 256 : Nat) : Int)))).1 % 2 ^ f.bits) ∧
    (∀ s1 loc, pkAcc o.pk = false → o.dst.space = 0 → s.engAddr o.core o.who.world .store a = (s1, .ok loc) → s1.retired.contains (loc.dpa / 65536) = false →
      s.confW o.who.world = false → Canonical s → loc.dpa % 64 = 0 →
      ∃ t', exec (.bteBlockLand q n) s = .next t' ∧ next t' ∧
        (∀ k < 64, t'.byte (loc.dpa + k) = nth 0 bs k) ∧ (∀ y, (y < loc.dpa ∨ loc.dpa + 64 ≤ y) → t'.byte y = s.byte y) ∧
        (∀ y, t'.tag y = if y = loc.dpa / 64 then tg else s.tag y) ∧ ∀ e ≤ s.epoch, ∀ y, t'.byteAt e y = s.byteAt e y)) ∧
  (∀ a c rest, o.prog.blocks = .move a c :: rest → Canonical s → a % 64 = 0 → c % 64 = 0 → a ≠ c → s.askOf (match q with
      | .mem k => k
      | _ => 4095) n = none → o.prog.fol = none → s.dpaBar a = none → s.dpaBar c = none → s.dataError a false = false →
    s.retired.contains (c / 65536) = false → ∃ t', exec (.bteBlockLand q n) s = .next t' ∧ OpIs t' q n (fun p => p.blocks = rest ∧ p.landed = o.prog.landed + 1) ∧
      (∀ k < 64, t'.byte (c + k) = s.byte (a + k)) ∧ t'.tag (c / 64) = s.tag (a / 64) ∧ ∀ y, (y < c ∨ c + 64 ≤ y) → t'.byte y = s.byte y) ∧
  (o.prog.blocks = [] → o.prog.fol = none → o.prog.sent = 0 → isMemQ q = false → o.prog.fold = none → o.who.slot = none → n = x.tl + 1 → x.fin = [] → x.closed = false →
    ∃ t' y, exec (.bteOperationComplete q n) s = .next t' ∧ t'.mem = s.mem ∧ t'.queue q = some y ∧ y.tl = n ∧ y.ops = x.ops.filter fun p => p.n ≠ n) ∧
  (o.prog.blocks ≠ [] → o.prog.fol = none → exec (.bteOperationComplete q n) s = .next s)

/-- R265, R268. The engine consumes the next slot of a memory queue where a stamped packet waits, its core and world run and it holds fewer than
eight operations: the slot is taken and the packet becomes operation CIDX + 1, unless the presence of its destination has no room or its
layouts wait for a lender. Otherwise nothing changes. -/
def Sys2Proof.Says.QueueSlots : Prop := ∀ s n x, s.queue (.mem n) = some x → x.eng = false →
  ((s.qOpen x = false ∨ 8 ≤ x.ops.length) → exec (.queueSlotConsume n) s = .next s) ∧
  (∀ s1 wb, s.qOpen x = true → x.ops.length < 8 → s.devBytes x.bind x.world x.hdr 8 = (s1, .ok wb) → leNat wb ≤ x.cidx →
    exec (.queueSlotConsume n) s = .next s1) ∧
  (∀ s0 s1 wb bs, s.qOpen x = true → x.ops.length < 8 → s.devBytes x.bind x.world x.hdr 8 = (s0, .ok wb) → x.cidx < leNat wb →
    s0.devBytes x.bind x.world (x.ring + 64 * (x.cidx % 2 ^ x.log2n)) 64 = (s1, .ok bs) →
    if leNat (bs.drop 56) ≠ x.cidx + 1 then exec (.queueSlotConsume n) s = .next s1 else
    let r := s1.memOp x (x.cidx + 1) ((wordsOfBytes bs).take 16)
    exec (.queueSlotConsume n) s = .next (if r.1.presFits r.2.core r.2.who.world r.2.prog.rows = false ∨ r.2.prog.held = true then r.1 else
      ((r.1.takeSlot (.mem n) x x.bind).raise r.2.core r.2.who.world r.2.prog.rows).enqueueOp (.mem n) r.2))

/-- R277, R278, R283. A reducing block of another module is answered: barred in a world that is not live here, or too old; one applied already, or
out of sequence, changes no memory; an index in sequence adds into the block at its home with the issuing thread's rounding, and the window
counts it. -/
def Sys2Proof.Says.ReduceBlocks : Prop := ∀ s (p : ReducePkt) w, s.rwins.find? (fun y => y.mid = p.mid && y.queue = p.queue) = some w →
  let answer (s : State) (a : RemoteAns) : State := s.send (.blockAck p.mid p.queue p.seq.toNat p.idx a)
  ((s.world p.world).live = false → exec (.reduceBlockReceive p) s = .next (answer s (.fault 0x0D))) ∧
  ((s.world p.world).live = true → w.stale p.seq.toNat = true → exec (.reduceBlockReceive p) s = .next (answer s .stale)) ∧
  ((s.world p.world).live = true → w.stale p.seq.toNat = false → (w.take p.seq.toNat p.idx).1 = false → ∃ t', exec (.reduceBlockReceive p) s = .next t' ∧
    t'.mem = s.mem ∧ t'.tags = s.tags ∧ t'.hub = (answer s (.done 0)).hub) ∧
  ((s.world p.world).live = true → p.seq.toNat = w.newest → w.newest < 2 ^ 32 → p.idx = mget 0 w.counts p.seq.toNat → ∀ s1 loc x fl,
    s.engAddr 208 p.world .store p.wva.toNat = (s1, .ok loc) → s1.engError loc true = none →
    accBlk ⟨p.task.toNat, p.world, none, 0, p.seed, p.mode.toNat, none, none⟩ (wideFmt p.fmt.toNat) s1.draw.1 p.wva.toNat p.data p.tag (s1.block loc).1
      (s1.block loc).2 = .ok (x, fl) →
    ∃ t' w', exec (.reduceBlockReceive p) s = .next t' ∧ t'.mem = (s1.engineBlock loc x (s1.block loc).2).mem ∧
      t'.rwins.head? = some w' ∧ w'.mid = p.mid ∧ w'.queue = p.queue ∧ mget 0 w'.counts p.seq.toNat = p.idx + 1 ∧
      t'.hub.outbox.getLast? = some (.blockAck p.mid p.queue p.seq.toNat p.idx (.done (recFlags fl))))

namespace Sys2Proof.Machine

/-- The lane's result is `ws`, and home memory that of `s2`. -/
def GaveWith (t' s2 : State) (g : Grp) (l : Nat) (t : Thread) (d : BitVec 7) (ws : List Word) : Prop :=
  (t'.thread? g.place l).map (fun x => x.out) = some (t.out ++ vecPend t d ws) ∧ t'.mem = s2.mem ∧ t'.tags = s2.tags

/-- The operands of KVPUT in four uniform registers (R298). -/
def putOps (g : Grp) (b : Bench) (t : Thread) (f : BitVec 7) : PutOps :=
  let c (j : Nat) : Nat := (b.u t (f.toNat + j)).toNat
  ⟨coreIx g.place, b.task, b.spkey, c 0, c 1 % 256, bits (c 1) 15 8, bits (c 2) 31 16, bitAt (c 2) 15, 64 * (c 2 % 2 ^ 15), c 3⟩

/-- Extents of memory, base and length, no two of which share a byte. -/
def Apart (xs : List (Nat × Nat)) : Prop := xs.Pairwise fun x y => x.1 + x.2 ≤ y.1 ∨ y.1 + y.2 ≤ x.1

/-- No byte of memory outside some extents changed. -/
def OutsideSame (s t' : State) (xs : List (Nat × Nat)) : Prop := ∀ a, (∀ e ∈ xs, a < e.1 ∨ e.1 + e.2 ≤ a) → t'.byte a = s.byte a

/-- An address of HBM whose block has no data error, and which has not been moved to leased memory. -/
def Sound (s : State) (a : Nat) : Prop :=
  dpaKind a = .hbm ∧ s.leased (a / 64) = false ∧ a / 64 ∉ s.bad ∧ a / 64 ∉ s.marked ∧ s.retired.contains (a / 65536) = false

/-- The key row that a lane puts: byte `n` of block `j`, zero beyond HDIM (R293), and the block's tag, the scratchpad's or KOVR (R298). -/
def keyByte (s : State) (b : Bench) (o : PutOps) (p : KvParams) (l j n : Nat) : Byte :=
  if 64 * j + n < p.hdim * p.ez then seenByte s o.core b.world o.key o.task (o.kofs + 256 * l + 64 * j) n else 0
def keyTag (s : State) (b : Bench) (o : PutOps) (l j : Nat) : Nat :=
  if o.kovr = 0 then (s.spadTag o.core b.world ((o.kofs + 256 * l + 64 * j) / 64)).toNat else o.kovr

/-- The signature of that key, none where it has none or no projection is loaded (R295, R299). -/
def keySig (s : State) (b : Bench) (o : PutOps) (p : KvParams) (l : Nat) : Option Nat :=
  if p.b = 0 then none else signature p.b p.rows p.hdim (rowVals ((upto p.bk).map fun j => ((upto 64).map (keyByte s b o p l j), keyTag s b o l j % 2 ^ 16)))

/-- The extents that a put of slot `i` of page `pg` writes beside the bucket: the key row, the value elements, the descriptor, the head record. -/
def putExtents (ar : Arena) (p : KvParams) (pg i : Nat) : List (Nat × Nat) :=
  (ar.page pg + 256 * i, 64 * p.bk) :: ((upto p.hdim).map fun e => (p.elemAt ar pg i e, p.ez)) ++ [(ar.desc pg, 16), (p.head, 64)]

/-- A key row and a value row stand in a page, its sequence counter counts two changes, and the head's length reaches the position (R299). -/
def RowPut (s t' : State) (b : Bench) (ar : Arena) (o : PutOps) (p : KvParams) (l x pg : Nat) : Prop :=
  let i := x % 128
  (∀ j < p.bk, t'.tag ((ar.page pg + 256 * i + 64 * j) / 64) = BitVec.ofNat 16 (keyTag s b o l j) ∧
    ∀ n < 64, t'.byte (ar.page pg + 256 * i + 64 * j + n) = keyByte s b o p l j n) ∧
  (∀ e < p.hdim, ∀ n < p.ez, t'.byte (p.elemAt ar pg i e + n) =
    seenByte s o.core b.world o.key o.task ((o.vofs + 256 * l) / 4 * 4) ((o.vofs + 256 * l) % 4 + p.ez * e + n)) ∧
  (∀ k, (∀ j < p.bk, k ≠ (ar.page pg + 256 * i + 64 * j) / 64) → t'.tag k = s.tag k) ∧
  t'.seqctr ar pg = (s.seqctr ar pg + 2) % 2 ^ 32 ∧ t'.kvRd b.world p.head 4 = max (s.kvRd b.world p.head 4) ((x + 1) % 2 ^ 32)

/-- A scratchpad extent whose blocks are all present. -/
def Present (s : State) (g : Grp) (b : Bench) (xs : List Nat) : Prop := ∀ x ∈ xs, s.pres (coreIx g.place) b.world x = 0

end Sys2Proof.Machine

/-- R291, R296 to R299, R302 to R304. The instructions on the KV arena, once their handle, layer and head open: KVX gives the address of a token's key
or value row, or faults where its page is absent. KVPUT (position beyond the page list: status 4; a shared page: 2) writes a lane's rows into its
page and links its position: into the head block of the signature's bucket, or a new block that BFREE gives (0), or nowhere (3), here with
a head record of the current epoch. KVPIN and KVUNPIN count the pins of a page, KVFREE its references; a page that none holds is freed. APROJ
writes the projection's rows and B, and counts its epoch up by 1.
The model's own choices it rests on: log entries 66, 67. -/
def Obligations.ArenaInstructions : Prop := ∀ s g b l t, Alone s g b l t → ∀ (d a f : BitVec 7),
  let word := wordVal g.w g.w2
  let u (x : BitVec 7) (j : Nat) : Nat := (b.u t (x.toNat + j)).toNat
  (∀ ar p, Passes b g [wV d 2, rV a, rU f 2] [] → bits (u f 1) 31 17 = 0 → s.kvOpen b.world (u f 0) (u f 1 % 256) (bits (u f 1) 15 8) word = .ok (ar, p) →
    let x := (t.v a.toNat).toNat
    x / 128 < p.maxp → s.kvGood b.world (p.plist + 4 * (x / 128)) = .ok () →
    (∀ pg, s.kvEnt b.world p (x / 128) = .page pg → ∃ t', exec (.kvx d a f) s = .next t' ∧ Quiet s t' ∧
      LaneIs s t' g l (t.after g [wV d 2, rV a, rU f 2] (vecPend t d (twoWords
        (ar.page pg + if bitAt (u f 1) 16 then 32768 + p.ez * (x % 128) else 256 * (x % 128)))))) ∧
    (∀ k, (∀ pg, s.kvEnt b.world p (x / 128) ≠ .page pg) → s.task? b.task = some k → isAp g.place = false →
      (∀ x ∈ s.lates, x.task ≠ b.task) → ∃ t', exec (.kvx d a f) s = .next t' ∧ t'.mem = s.mem ∧ WorldFault t' g.place b l k)) ∧
  (∀ ar p s2 ws, Passes b g [wV d, rV a, rU f 4] [] → bits (u f 1) 31 16 = 0 →
    let o := putOps g b t f
    s.kvOpen b.world o.seq o.ly o.hd word = .ok (ar, p) → o.beyond p (s.spadSize (coreIx g.place) b.world) l = none → s.unchecked b.task = false →
    Present s g b (blkSpan (o.kofs + 256 * l) (64 * p.bk) ++ blkSpan (o.vofs + 256 * l) (p.hdim * p.ez)) →
    (o.relink = true → s.relinkWaits ar p (t.v a.toNat).toNat = false) →
    ((s.opened g b).pin b.task).kvPutLane ar p o l (t.v a.toNat).toNat = (s2, .ok ws) →
    ∃ t', exec (.kvput d a f) s = .next t' ∧ GaveWith t' s2 g l t d ws ∧
      (p.maxp ≤ (t.v a.toNat).toNat / 128 → ws = [4] ∧ t'.mem = s.mem) ∧
      (∀ pg, (t.v a.toNat).toNat / 128 < p.maxp → s.kvEnt b.world p ((t.v a.toNat).toNat / 128) = .page pg → 1 < s.refc ar pg → o.relink = false →
        s.kvGood b.world (p.plist + 4 * ((t.v a.toNat).toNat / 128)) = .ok () → ar.w = b.world → ws = [2] ∧ t'.mem = s.mem)) ∧
  (∀ ar p pg, Passes b g [wV d, rV a, rU f 4] [] → bits (u f 1) 31 16 = 0 →
    let o := putOps g b t f
    let x := (t.v a.toNat).toNat
    let i := x % 128
    s.kvOpen b.world o.seq o.ly o.hd word = .ok (ar, p) → o.beyond p (s.spadSize (coreIx g.place) b.world) l = none → s.unchecked b.task = false →
    Present s g b (blkSpan (o.kofs + 256 * l) (64 * p.bk) ++ blkSpan (o.vofs + 256 * l) (p.hdim * p.ez)) → (s.core (coreIx g.place)).fresh = [] →
    s.confW b.world = false → o.relink = false → x / 128 < p.maxp → s.kvGood b.world (p.plist + 4 * (x / 128)) = .ok () →
    s.kvEnt b.world p (x / 128) = .page pg → s.refc ar pg ≤ 1 → ar.pgbase % 65536 = 0 → p.repoch = p.epoch →
    (∀ j < p.bk, keyTag s b o l j % 256 = 255 ∨ tagCls (keyTag s b o l j) = tagCls p.ktag) →
    s.firstMarked (coreIx g.place) b.world (o.vofs + 256 * l) (p.hdim * p.ez) = none →
    (∀ e ∈ putExtents ar p pg i, ∀ n < e.2, Sound s (e.1 + n)) → Sound s (ar.page pg) →
    let xs := putExtents ar p pg i
    let rd (y : Nat) : Nat := s.kvRd b.world y 4
    let gives (w : Word) (ys : List (Nat × Nat)) (q : State → Prop) : Prop := ∃ t', exec (.kvput d a f) s = .next t' ∧ GaveWith t' t' g l t d [w] ∧
      RowPut s t' b ar o p l x pg ∧ OutsideSame s t' (xs ++ ys) ∧ q t'
    (keySig s b o p l = none → Apart xs → gives 3 [] fun _ => True) ∧
    (∀ sg, keySig s b o p l = some sg →
      let root := p.roots + 4 * sg
      let hb := rd root
      let blk (n : Nat) : Nat := ar.bpool + 64 * n
      let nb := rd (ar.hdr + 0x3C)
      let used := xs ++ [(root, 4), (ar.hdr, 64)] ++ if hb = kvEmpty then [] else [(blk hb, 64)]
      Sound s root → (nb < ar.nbkt → Sound s (blk nb)) →
      (hb < ar.nbkt → hb ≠ kvEmpty → Sound s (blk hb) → rd (blk hb + 0x38) % 16 < 14 → Apart used →
        gives 0 [(blk hb, 64)] fun t' => t'.kvRd b.world (blk hb + 4 * (rd (blk hb + 0x38) % 16)) 4 = x ∧
          t'.kvRd b.world (blk hb + 0x38) 4 = rd (blk hb + 0x38) + 1) ∧
      ((hb = kvEmpty ∨ hb < ar.nbkt ∧ Sound s (blk hb) ∧ 14 ≤ rd (blk hb + 0x38) % 16) → ar.nbkt ≤ kvEmpty → Apart used →
        (nb = kvEmpty → gives 3 [] fun _ => True) ∧
        (nb < ar.nbkt → Apart (used ++ [(blk nb, 64)]) → gives 0 [(root, 4), (ar.hdr + 0x3C, 4), (blk nb, 64)] fun t' =>
          t'.kvRd b.world root 4 = nb ∧ t'.kvRd b.world (blk nb) 4 = x ∧ t'.kvRd b.world (blk nb + 0x38) 4 % 16 = 1 ∧
            t'.kvRd b.world (blk nb + 0x3C) 4 = hb ∧ t'.kvRd b.world (ar.hdr + 0x3C) 4 = rd (blk nb + 0x3C))))) ∧
  (∀ ar p, Passes b g [rU a 2, rU f 1, wV d] [] → bits (u a 1) 31 16 = 0 → s.kvOpen b.world (u a 0) (u a 1 % 256) (bits (u a 1) 15 8) word = .ok (ar, p) →
    ar.w = b.world → u f 0 < p.maxp → s.kvGood b.world (p.plist + 4 * u f 0) = .ok () → s.unchecked b.task = false → s.confW b.world = false →
    (s.kvEnt b.world p (u f 0) = .empty →
      (∃ t', exec (.kvpin d a f) s = .next t' ∧ GaveWith t' s g l t d [0xFFFFFFFF]) ∧
      (∃ t', exec (.kvunpin d a f) s = .next t' ∧ GaveWith t' s g l t d [0xFFFFFFFF]) ∧
      (∃ t', exec (.kvfree d a f) s = .next t' ∧ GaveWith t' s g l t d [3])) ∧
    (∀ pg, s.kvEnt b.world p (u f 0) = .page pg → s.kvGood b.world (ar.desc pg) = .ok () →
      (s.pinc ar pg = 65535 → ∃ t', exec (.kvpin d a f) s = .next t' ∧ GaveWith t' s g l t d [0xFFFFFFFE]) ∧
      (s.pinc ar pg < 65535 → ∃ t', exec (.kvpin d a f) s = .next t' ∧ t'.pinc ar pg = s.pinc ar pg + 1 ∧
        GaveWith t' t' g l t d [BitVec.ofNat 32 (s.pinc ar pg + 1)]) ∧
      (s.pinc ar pg = 0 → ∃ t', exec (.kvunpin d a f) s = .next t' ∧ GaveWith t' s g l t d [0xFFFFFFFF]) ∧
      ((2 ≤ s.pinc ar pg ∨ s.pinc ar pg = 1 ∧ s.deferred ar pg = false) → ∃ t', exec (.kvunpin d a f) s = .next t' ∧ t'.pinc ar pg = s.pinc ar pg - 1 ∧
        GaveWith t' t' g l t d [BitVec.ofNat 32 (s.pinc ar pg - 1)]) ∧
      (Apart [(p.plist + 4 * u f 0, 4), (ar.desc pg, 16), (ar.hdr, 64)] →
        let freed (t' : State) : Prop := t'.kvRd b.world (ar.hdr + 0x38) 4 = pg % 2 ^ 32 ∧ t'.kvRd b.world (ar.desc pg) 8 = s.kvRd b.world (ar.hdr + 0x38) 4 ∧
          t'.seqctr ar pg = (s.seqctr ar pg + 2) % 2 ^ 32
        let frees (w : Word) (q : State → Prop) : Prop := ∃ t', exec (.kvfree d a f) s = .next t' ∧ GaveWith t' t' g l t d [w] ∧
          t'.kvEnt b.world p (u f 0) = .empty ∧ t'.refc ar pg = s.refc ar pg - 1 ∧ t'.pinc ar pg = s.pinc ar pg ∧ t'.tags = s.tags ∧ q t' ∧
          OutsideSame s t' [(p.plist + 4 * u f 0, 4), (ar.desc pg, 16), (ar.hdr + 0x38, 4)]
        (s.pinc ar pg = 1 → s.deferred ar pg = true → ∃ t', exec (.kvunpin d a f) s = .next t' ∧ GaveWith t' t' g l t d [0] ∧ t'.pinc ar pg = 0 ∧ freed t') ∧
        (2 ≤ s.refc ar pg → frees 2 fun t' => t'.seqctr ar pg = s.seqctr ar pg ∧ t'.kvRd b.world (ar.desc pg) 8 = s.kvRd b.world (ar.desc pg) 8) ∧
        (s.refc ar pg = 1 → s.pinc ar pg = 0 → frees 0 freed) ∧
        (s.refc ar pg = 1 → 0 < s.pinc ar pg → frees 1 fun t' => t'.seqctr ar pg = s.seqctr ar pg ∧ t'.deferred ar pg = true)))) ∧
  (∀ ar, Passes b g [rU a 1, rU f 1, wV d] [] → s.arena? b.world = some ar → s.kvHeader b.world = .ok () → s.confW b.world = false → s.unchecked b.task = false →
    let w := u a 0
    bits w 31 20 = 0 → 6 ≤ bits w 19 16 → bits w 19 16 ≤ 12 → w % 256 < ar.nlayer → bits w 15 8 < ar.nkvh → u f 0 % 64 = 0 →
    u f 0 + 32 * bits w 19 16 ≤ s.spadSize (coreIx g.place) b.world → Present s g b (blkSpan (u f 0) (32 * bits w 19 16)) →
    (s.core (coreIx g.place)).fresh = [] → s.firstMarked (coreIx g.place) b.world (u f 0) (32 * bits w 19 16) = none →
    let r := ar.proj (w % 256) (bits w 15 8)
    s.kvGoods b.world ((upto 8).map fun i => r + 64 * i) = .ok () →
    let e := (s.kvRd b.world r 4 + 1) % 2 ^ 32
    ∃ t', exec (.aproj d a f) s = .next t' ∧ GaveWith t' t' g l t d [BitVec.ofNat 32 e] ∧ t'.kvRd b.world r 4 = e ∧
      t'.kvRd b.world (r + 4) 4 = s.kvRd b.world (r + 4) 4 / 16 * 16 + bits w 19 16 ∧ t'.tags = s.tags ∧
      (∀ n < 32 * bits w 19 16, t'.byte (r + 0x40 + n) = seenByte s (coreIx g.place) b.world b.spkey b.task (u f 0) n) ∧
      OutsideSame s t' [(r, 8), (r + 0x40, 32 * bits w 19 16)])

namespace Sys2Proof.Machine

/-- The sequencer of `core` executes a micro-op of run `r`: it is on, neither held, cancelled nor faulted. -/
structure MicroReady (s : State) (core : Nat) (r : ARun) (rest : List ARun) : Prop where
  cur    : s.cur = .micro core
  runs   : (s.asq core).runs = r :: rest
  on     : r.on = true
  held   : r.held = false
  cancel : r.cancel = false
  good   : r.bad = none

/-- The sequencer's first run is `r'` afterwards, the runs behind it as before; nothing is being executed. -/
def RunIs (t' : State) (core : Nat) (r' : ARun) (rest : List ARun) : Prop := (t'.asq core).runs = r' :: rest ∧ t'.cur = .idle

/-- The run goes on at the next micro-op, or at `p`. -/
def ARun.next (r : ARun) : ARun := { r with pc := r.pc + 1, sub := 0 }
def ARun.goto (r : ARun) (p : Nat) : ARun := { r with pc := p, sub := 0 }
/-- A micro register, and the run with another value in it. -/
def ARun.rg (r : ARun) (i : BitVec 4) : Word := nth 0 r.m i.toNat
def ARun.sr (r : ARun) (i : BitVec 4) (x : Word) : ARun := { r with m := setNth r.m i.toNat x }

/-- The factor from a row's old maximum to a new one, both finite: 2^(mr - mn), in FP32 (R310). -/
def rescaling (r : ARun) (q : Nat) : Word := rne32 (ex2Fp (dec32 (sub32 (nth negInf r.d.mr q) (nth negInf r.d.mn q)))).1

/-- The condition of BRC (Table 11.14). -/
def condOf (r : ARun) (a b : Word) : Nat → Bool
  | 0 => decide (a = b)
  | 1 => decide (a ≠ b)
  | 2 => decide (a.toNat < b.toNat)
  | 3 => r.retry
  | 4 => r.fb
  | 5 => bitAt (nth 0 r.blk 4).toNat 0
  | _ => !bitAt (nth 0 r.blk 4).toNat 0

/-- The micro-ops that change the run alone (Table 11.13): counts, branches, lists, and the arithmetic of a chunk; none where the micro-op
ends the run with a fault instead (no chunk, an unknown condition, a fallback that traps). -/
def microSem (r : ARun) : Instr → Option ARun
  | .cntTl a => some (r.sr a (BitVec.ofNat 32 r.d.tl.length)).next
  | .cntChunks a => some (r.sr a (BitVec.ofNat 32 ((r.d.tl.length + r.kv.e - 1) / r.kv.e))).next
  | .cntLen a => some (r.sr a (nth 0 r.m 0)).next
  | .cntAct a => r.d.ct.map fun ct => (r.sr a (BitVec.ofNat 32 (ct.countP Option.isSome))).next
  | .cntAdd a b n => some (r.sr a (BitVec.ofInt 32 ((r.rg b).toNat + n.toInt))).next
  | .br t => some (r.goto t.toNat)
  | .brc a b t c => if 6 < c.toNat then none else
      let r' := if c.toNat = 3 then { r with retry := false } else r
      some (if condOf r (r.rg a) (r.rg b) c.toNat then r'.goto t.toNat else r'.next)
  | .loop a t =>
      let x := r.rg a - 1
      some (if x ≠ 0 then (r.sr a x).goto t.toNat else (r.sr a x).next)
  | .tlstDense => some { r with d := { r.d with tl := upto (nth 0 r.m 0).toNat } }.next
  | .tlstGathered =>
      let lo := (nth 0 r.m 0).toNat - r.win
      some { r with d := { r.d with tl := r.d.gl ++ (upto ((nth 0 r.m 0).toNat - lo)).map fun i => lo + i } }.next
  | .fbk => if r.fb = false then some r.next else if r.fbtrap then none
      else some { r with d := { r.d with tl := upto (nth 0 r.m 0).toNat }, dns := true, fb := false }.next
  | .rmax => r.d.ct.map fun _ => { r with d := { r.d with mn := (upto 64).map fun q => (upto 64).foldl (fun a n => max32 a (noNan32 (mget 0 r.d.sb (64 * q + n)))) (noNan32 (nth negInf r.d.mr q)) } }.next
  | .rsum => r.d.ct.map fun _ => { r with d := { r.d with lr := (upto 64).map fun q => if q < r.qrows then rne32 ((upto r.kv.e).foldl (fun y n => (addFp false y (r.pelem.dec (mget 0 r.d.pq (64 * q + n)).toNat)).1) (dec32 (nth 0 r.d.lr q))) else nth 0 r.d.lr q } }.next
  | _ => none

end Sys2Proof.Machine

/-- R309, R310, R313. The micro-ops that change the run alone: CNT, BR, BRC, LOOP, TLST, FBK, and the running maxima and sums of a chunk; MASK
makes the columns of invalid positions minus infinity; RESC multiplies a row's sum and outputs by 2^(mr - mn), by 1 where the new maximum mn is
minus infinity and by 0 where only the old one mr is. -/
def Sys2Proof.Says.SequencerRegisters : Prop := ∀ s core r rest, MicroReady s core r rest →
  (∀ i r', microSem r i = some r' → ∃ t', exec i s = .next t' ∧ RunIs t' core r' rest ∧ t'.mem = s.mem ∧ t'.tasks = s.tasks ∧ t'.cores = s.cores ∧ t'.mxus = s.mxus) ∧
  (∀ ct, r.d.ct = some ct → ∃ t' r', exec .mask s = .next t' ∧ RunIs t' core r' rest ∧ t'.mem = s.mem ∧ r'.pc = r.pc + 1 ∧
    ∀ q < 64, ∀ n < 64, mget 0 r'.d.sb (64 * q + n) =
      if r.kv.e ≤ n ∨ (ct[n]?).join = none then negInf else mget 0 r.d.sb (64 * q + n)) ∧
  (∀ ct, r.d.ct = some ct → ∃ t' r', exec .resc s = .next t' ∧ RunIs t' core r' rest ∧ t'.mem = s.mem ∧ r'.pc = r.pc + 1 ∧
    (∀ q < 64, nth negInf r'.d.mr q = nth negInf r.d.mn q) ∧
    (∀ q < 64, nth negInf r.d.mn q = negInf → nth 0 r'.d.lr q = mul32 (nth 0 r.d.lr q) 0x3F800000) ∧
    (∀ q < 64, nth negInf r.d.mn q ≠ negInf → nth negInf r.d.mr q = negInf → nth 0 r'.d.lr q = mul32 (nth 0 r.d.lr q) 0) ∧
    (∀ q < 64, nth negInf r.d.mn q ≠ negInf → nth negInf r.d.mr q ≠ negInf → nth 0 r'.d.lr q = mul32 (nth 0 r.d.lr q) (rescaling r q)) ∧
    (mwf 0 r.d.o = true → r.kv.hdim ≤ 256 → r.qrows ≤ 64 → ∀ q < r.qrows, ∀ d < r.kv.hdim,
      mget 0 r'.d.o (256 * q + d) = mul32 (mget 0 r.d.o (256 * q + d)) (if nth negInf r.d.mn q = negInf then 0x3F800000
        else if nth negInf r.d.mr q = negInf then 0 else rescaling r q)))

/-- R305, R307, R310, R315, R316. A queued run begins at its entry, the store reloaded for another world. KLOAD, VLOAD and the first half of SMM enter
their commands in the run's matrix unit, or wait for room; SMM then takes the scores; PMM's first half enters its commands; WAITZ waits for the run's
commands and gathers; HALT ends the run with its status. -/
def Sys2Proof.Says.SequencerCommands : Prop := ∀ s core r rest,
  ((s.asq core).runs = r :: rest → r.on = false → ∃ t', exec (.asqRunStart core) s = .next t' ∧ t'.mem = s.mem ∧
    (t'.asq core).runs = { r with on := true, pc := (nth 0 r.blk 11).toNat % 4096 } :: rest ∧
    ((s.asq core).last ≠ some r.who.world → (t'.asq core).store = [])) ∧
  (MicroReady s core r rest → ∀ ct, r.d.ct = some ct →
    let x := s.mxu (mxIx core r.drw)
    let waits (i : Instr) : Prop := ∃ t', exec i s = .next t' ∧ RunIs t' core r rest ∧ t'.mem = s.mem ∧ t'.mxus = s.mxus
    let enters (i : Instr) (r' : ARun) (p : List MxCmd → Prop) : Prop := ∃ t' cs, exec i s = .next t' ∧ RunIs t' core r' rest ∧ t'.mem = s.mem ∧
      (t'.mxu (mxIx core r.drw)).queue = x.queue ++ cs ∧ p cs
    let mine (c : MxCmd) (k : MxKind) (t m b ofs w : Nat) : Prop := c.kind = k ∧ c.t = t ∧ c.m = m ∧ c.b = b ∧ c.ofs = ofs % 2 ^ 32 ∧ c.w = w ∧ c.who.run = some r.num
    (s.roomFor (mxIx core r.drw) 1 = true →
      enters .kload r.next (fun cs => ∃ c, cs = [c] ∧ c.num = x.asn + 1 ∧ mine c .ldw 0 64 r.kv.bk r.stg 0) ∧
      enters .vload r.next (fun cs => ∃ c, cs = [c] ∧ c.num = x.asn + 1 ∧ mine c .ldw 0 64 r.kv.nv (r.stg + 0x4000) 0x10000)) ∧
    (s.roomFor (mxIx core r.drw) 1 = false → waits .kload ∧ waits .vload) ∧
    (r.sub = 0 → s.roomFor (mxIx core r.drw) 2 = true → enters .smm { r with sub := 1 } (fun cs => ∃ c e, cs = [c, e] ∧
      mine c .zero 0 r.m? 1 0 0 ∧ mine e .mma 0 r.m? r.kv.bk (nth 0 r.blk 0).toNat 0 ∧ e.num = x.asn + 2)) ∧
    (r.sub = 1 → s.runBusy core r = false → mwf 0 r.d.sb = true → ∃ t' r', exec .smm s = .next t' ∧ RunIs t' core r' rest ∧ t'.mem = s.mem ∧
      r'.pc = r.pc + 1 ∧ ∀ q < r.qrows, ∀ n < 64, mget 0 r'.d.sb (64 * q + n) = mul32 (rne32 (x.data.elem 0 q n).fp) (nth 0 r.blk 7)) ∧
    (r.sub = 0 → 0 < r.kv.hdim → s.roomFor (mxIx core r.drw) 2 = true → enters .pmm { r with sub := 1 } (fun cs => ∃ c e, cs = [c, e] ∧
      mine c .zero 1 r.m? 1 0 0 ∧ mine e .mma 1 r.m? 1 (r.stg + 0x8000) 0x10000)) ∧
    (r.sub = 0 → r.kv.hdim = 0 → ∃ t', exec .pmm s = .next t' ∧ RunIs t' core r.next rest ∧ t'.mem = s.mem)) ∧
  (MicroReady s core r rest →
    ((s.runBusy core r = true ∨ r.gath ≠ []) → ∀ c, (∃ t', exec .waitz s = .next t' ∧ RunIs t' core r rest ∧ t'.mem = s.mem) ∧
      ∃ t', exec (.microHalt c) s = .next t' ∧ RunIs t' core r rest ∧ t'.mem = s.mem) ∧
    (s.runBusy core r = false → r.gath = [] → r.pins = [] → (∃ t', exec .waitz s = .next t' ∧ RunIs t' core r.next rest ∧ t'.mem = s.mem) ∧
      ∀ c : Bool, ∃ t', exec (.microHalt c) s = .next t' ∧ (t'.asq core).runs = rest ∧ (t'.asq core).done = r.num ∧ t'.mem = s.mem ∧
        (t'.asq core).recs.head? = some ⟨r.num, if c then 1 else if r.dns then 2 else 0, 0, sumNat (r.att.map Prod.snd)⟩))

/-- R295, R310, R312, R315. QLOAD opens the sequence and clears the run's lists and sums; SIG gives one signature per query row; KWALK's gather list holds
positions before the window alone, and with the window no more than GLIM, or the run falls back; GATH pins the chunk's pages, records their sequence
counters and starts gathers on the core's BTE, each of which lands one block whole and lowers its presence; SYNC, after them, notes a counter that moved; EXPS gives
each score's probability; STO and LSE write outputs and logsumexps to scratchpad.
The model's own choices it rests on: log entries 68, 70. -/
def Obligations.SequencerData : Prop := ∀ s core r rest, MicroReady s core r rest → Canonical s → s.confW r.who.world = false →
  let done (i : Instr) (p : State → ARun → Prop) : Prop := ∃ t' r', exec i s = .next t' ∧ RunIs t' core r' rest ∧ r'.pc = r.pc + 1 ∧ p t' r'
  let xs (k : KvParams) : List Nat := (upto r.qrows).flatMap fun q => (upto k.bk).map fun j => (nth 0 r.blk 0).toNat + q * r.qstr + 64 * j
  (∀ ar p, s.kvOpen r.who.world (nth 0 r.blk 2).toNat ((nth 0 r.blk 3).toNat % 256) (bits (nth 0 r.blk 3).toNat 15 8) 0 = .ok (ar, p) →
    (∀ x ∈ xs p, s.pres core r.who.world (x / 64) = 0) → 
    (∀ x ∈ xs p, let t := (tagFor (s.spadTag core r.who.world (x / 64)).toNat r.qovr).1
      t % 256 = 255 ∨ tagCls t = tagCls p.ktag) →
    (elemOf r.pfmt).bind Elem.cls = tagCls p.vtag →
    done .qload fun t' r' => t'.mem = s.mem ∧ r'.kv = p ∧ r'.d.tl = [] ∧ r'.d.gl = [] ∧ r'.d.o = [] ∧ r'.d.mr = List.replicate 64 negInf ∧
      r'.d.lr = List.replicate 64 0 ∧ r'.fb = false ∧ r'.dns = false ∧ (0 < r.m.length → nth 0 r'.m 0 = BitVec.ofNat 32 p.len)) ∧
  ((∀ x ∈ xs r.kv, s.pres core r.who.world (x / 64) = 0) → done .sig fun t' r' => t'.mem = s.mem ∧ ∃ sg, r'.d.sig = some sg ∧ sg.length = r.qrows ∧
    r'.fb = (r.fb || decide (r.kv.b = 0) || decide (r.kv.repoch ≠ r.kv.epoch) || sg.any Option.isNone)) ∧
  (∀ sg ar, r.d.sig = some sg → s.runArena r = .ok ar → (∀ y < 2 ^ r.kv.b, s.kvGood ar.w (r.kv.roots + 4 * y) = .ok ()) →
    (∀ n < ar.nbkt, s.kvGood ar.w (ar.bpool + 64 * n) = .ok ()) → done .kwalk fun t' r' => t'.mem = s.mem ∧
    (∀ x ∈ r'.d.gl, x < (nth 0 r.m 0).toNat - r.win) ∧ (r.fb = true → r'.fb = true) ∧ r'.d.tl = r.d.tl ∧
    (r'.fb = false → r'.d.gl.length + min r.win (nth 0 r.m 0).toNat ≤ r.glim)) ∧
  (∀ a ar es, s.runArena r = .ok ar → r.pins = [] → r.gath = [] →
    s.chunkEnts r.who.world r.kv ((upto r.kv.e).map fun n => r.d.tl[r.kv.e * (nth 0 r.m (BitVec.toNat (a : BitVec 4))).toNat + n]?) = .ok es →
    let pages := (es.filterMap fun e => e.map Prod.snd).foldl insertNat []
    let rows := (r.gathers ar es).map fun x => x.x / 64
    s.kvGoods r.who.world (pages.map ar.desc) = .ok () → (∀ p ∈ pages, s.pinc ar p ≠ 65535 ∧ s.seqctr ar p % 2 ≠ 1) →
    s.presFits core r.who.world rows = true →
    done (.gath a) fun t' r' => r'.d.ct = some (es.map fun e => e.map Prod.fst) ∧ r'.pins = (pages.map fun p => (p, s.seqctr ar p)) ∧
      (∀ p ∈ pages, t'.pinc ar p = s.pinc ar p + 1) ∧ r'.gath = r.gathers ar es ∧ Raised s t' core r.who.world rows) ∧
  (∀ x more bs tg, r.gath = x :: more → s.gathered r.who.world x.src = .ok (bs, tg) → bs.length = 64 → x.x % 64 = 0 → core < 192 →
    x.x + 64 ≤ s.spadSize core r.who.world → CoreCanonical (s.core core) → ∀ n, ∃ t', exec (.bteBlockLand (.asq core) n) s = .next t' ∧ t'.mem = s.mem ∧
      (t'.asq core).runs = { r with gath := more } :: rest ∧ (∀ k < 64, spadByte t' core r.who.world r.who.key x.x k = nth 0 bs k) ∧
      t'.spadTag core r.who.world (x.x / 64) = tg ∧ t'.pres core r.who.world (x.x / 64) = s.pres core r.who.world (x.x / 64) - 1) ∧
  (r.gath = [] → ∀ ar ct, s.runArena r = .ok ar → s.kvGoods r.who.world (r.pins.map fun p => ar.desc p.1) = .ok () → r.d.ct = some ct → done .sync fun t' r' => t'.mem = s.mem ∧
    (r'.retry = true ↔ r.retry = true ∨ ∃ p ∈ r.pins, s.seqctr ar p.1 ≠ p.2)) ∧
  (∀ ct, r.d.ct = some ct → r.kv.e ≤ 64 → done .exps fun t' r' => t'.mem = s.mem ∧ ∀ q < r.qrows, ∀ n < r.kv.e,
    mget 0 r'.d.pq (64 * q + n) = if mget 0 r.d.sb (64 * q + n) = negInf then 0 else
      BitVec.ofNat 32 (r.pelem.conv .rne 0 (ex2Fp (dec32 (sub32 (mget 0 r.d.sb (64 * q + n)) (nth negInf r.d.mr q)))).1).1) ∧
  (CoreCanonical (s.core core) → core < 192 → r.oofs % 64 = 0 → r.kv.hdim ≤ 256 → r.oofs + 1024 * r.qrows ≤ s.spadSize core r.who.world →
    done .sto fun t' _ => t'.mem = s.mem ∧ ∀ q < r.qrows, ∀ d < r.kv.hdim,
      mget 0 (t'.core core).spad (s.spadLoc core r.who.world r.who.key (r.oofs + 1024 * q + 4 * d)) =
        if isZero32 (nth 0 r.d.lr q) then 0 else mul32 (mget 0 r.d.o (256 * q + d)) (rne32 (rcpFp (dec32 (nth 0 r.d.lr q))).1)) ∧
  (CoreCanonical (s.core core) → core < 192 → r.lofs % 4 = 0 → r.lofs + 4 * r.qrows ≤ s.spadSize core r.who.world →
    done .lse fun t' _ => t'.mem = s.mem ∧ ∀ q < r.qrows,
      mget 0 (t'.core core).spad (s.spadLoc core r.who.world r.who.key (r.lofs + 4 * q)) =
        if isZero32 (nth 0 r.d.lr q) then negInf else
          rne32 (addFp false (dec32 (nth negInf r.d.mr q)) (dec32 (rne32 (lg2Fp (dec32 (nth 0 r.d.lr q))).1))).1)

namespace Sys2Proof.Machine

/-- The group issues; `l0`, the first of its executing lanes `l0 :: ls`, has the thread `t0`. -/
structure Leads (s : State) (g : Grp) (b : Bench) (l0 : Nat) (ls : List Nat) (t0 : Thread) : Prop where
  issuing : Issuing s g b
  first   : b.executing g = l0 :: ls
  thread  : mget? b.threads l0 = some t0

/-- The group completes from the effect state `s0`: every lane of `on` gets the words `ws` (R120), or the uniform registers get them once. -/
def gaveAll (s0 : State) (g : Grp) (on : List Nat) (ops : List Opnd) (d : BitVec 7) (ws : List Word) : State :=
  s0.finish g on ops [] (fun _ t => vecPend t d ws) (fun _ _ => none) fun _ _ t => t
def gaveUni (s0 : State) (g : Grp) (on : List Nat) (t0 : Thread) (ops : List Opnd) (d : BitVec 7) (ws : List Word) : State :=
  (s0.updBench g.place fun b' => b'.uniResults t0 d ws on).finish g on ops [] (fun _ _ => []) (fun _ _ => none) fun _ _ t => t
def gaveNone (s0 : State) (g : Grp) (on : List Nat) (ops : List Opnd) : State :=
  s0.finish g on ops [] (fun _ _ => []) (fun _ _ => none) fun _ _ t => t

/-- The result is a vector register's in an access processor, a uniform one's elsewhere (R186). -/
def gaveClass (s0 : State) (g : Grp) (on : List Nat) (t0 : Thread) (ops : List Opnd) (d : BitVec 7) (w : Word) : State :=
  if isAp g.place then gaveAll s0 g on ops d [w] else gaveUni s0 g on t0 ops d [w]
def classOpnd (p : Place) (f : BitVec 7) (n : Nat) (w : Bool) : Opnd := ⟨if isAp p then .vec else .uni, f.toNat, n, w⟩
def classReg (p : Place) (b : Bench) (t : Thread) (f : Nat) : Nat := if isAp p then (t.v f).toNat else (b.u t f).toNat

/-- A start block within its ranges, aligned, inside the scratchpad (R306, Table 11.10), for a sequence with the parameters `p`. -/
structure StartOk (w : Nat → Nat) (p : KvParams) (size : Nat) : Prop where
  reserved : bits (w 1) 15 8 = 0 ∧ bits (w 3) 31 19 = 0 ∧ bits (w 4) 31 16 = 0 ∧ bits (w 4) 7 2 = 0 ∧ bits (w 6) 31 16 = 0 ∧ bits (w 6) 7 4 = 0 ∧
    bits (w 11) 31 12 = 0 ∧ bits (w 12) 31 16 = 0 ∧ w 13 = 0 ∧ w 14 = 0 ∧ w 15 = 0
  format   : ∃ e, elemOf (bits (w 4) 15 8) = some e ∧ (e = .fp16 ∨ e = .bf16 ∨ (∃ y, e = .int 8 y) ∨ ∃ y, e = .b8 y)
  ranges   : 1 ≤ w 1 % 256 ∧ w 1 % 256 ≤ 64 ∧ bits (w 5) 31 16 ≤ 4096 ∧ 1 ≤ bits (w 5) 15 0 ∧ bits (w 5) 15 0 ≤ 8192 ∧
    1 ≤ bits (w 6) 15 8 ∧ bits (w 6) 3 0 ≤ 12 ∧ bits (w 1) 31 16 % 64 = 0 ∧ 64 * p.bk ≤ bits (w 1) 31 16
  aligned  : w 0 % 64 = 0 ∧ w 8 % 64 = 0 ∧ w 9 % 64 = 0 ∧ w 10 % 4 = 0
  within   : ∀ m, (m = 8 ∨ m = 16 ∨ m = 32 ∨ m = 64) → w 1 % 256 ≤ m → (m = 8 ∨ m / 2 < w 1 % 256) →
    w 0 + (m - 1) * bits (w 1) 31 16 + 64 * p.bk ≤ size ∧ w 8 + 36864 ≤ size ∧
    w 9 + 1024 * (w 1 % 256 - 1) + 4 * p.hdim ≤ size ∧ w 10 + 4 * (w 1 % 256) ≤ size

end Sys2Proof.Machine

/-- R306 to R308. ASTART, its block good, its drawer the world's and unclaimed or the task's, with room in the queue, claims the matrix unit, queues
a run and gives its number; a reserved field that is set takes TC_RESFIELD and queues nothing. AMLOAD, the queue empty, copies microwords, the store
reloaded first for another world; ASTAT gives a run's record, 0xFF while pending, and clears the fault record it names.
The model's own choices it rests on: log entries 54, 71, 72, 122. -/
def Obligations.AttentionInstructions : Prop := ∀ s g b l t, Alone s g b l t → ∀ (d a : BitVec 7),
  let core := coreIx g.place
  let u (i : Nat) : Nat := (b.u t (a.toNat + i)).toNat
  let gives (t' : State) (ops : List Opnd) (ws : List Word) : Prop := LaneIs s t' g l (t.after g ops (vecPend t d ws)) ∧ t'.mem = s.mem ∧ t'.tasks = s.tasks
  (∀ ar p, Passes b g [rU a 16, wV d 2] [] → s.kvOpen b.world (u 2) (u 3 % 256) (bits (u 3) 15 8) (wordVal g.w g.w2) = .ok (ar, p) →
    StartOk u p (s.spadSize core b.world) → (mget Drawer.init s.drawers (mxIx core (bits (u 3) 18 16))).world = b.world →
    (∀ f, (s.asq core).fault = some f → f.task ≠ b.task) → (s.asq core).runs.length < 4 → s.vacated.contains core = false → s.unchecked b.task = false →
    ((s.mxu (mxIx core (bits (u 3) 18 16))).claim = none ∨ (s.mxu (mxIx core (bits (u 3) 18 16))).claim = some b.task) →
    let n := (s.asq core).next
    ∃ t' r, exec (.astart d a) s = .next t' ∧ gives t' [rU a 16, wV d 2] (twoWords n) ∧ (t'.mxu (mxIx core (bits (u 3) 18 16))).claim = some b.task ∧
      t'.asq core = { s.asq core with runs := (s.asq core).runs ++ [r], next := n + 1 } ∧
      r.num = n ∧ r.blk = (upto 16).map (fun i => b.u t (a.toNat + i)) ∧ r.kv = p ∧ r.on = false ∧ r.cancel = false ∧ r.who.task = b.task ∧
      r.who.world = b.world ∧ r.who.key = b.spkey) ∧
  (Passes b g [rU a 16, wV d 2] [] → HandlerReady s b t → (u 13 ≠ 0 ∨ u 14 ≠ 0 ∨ u 15 ≠ 0 ∨ bits (u 11) 31 12 ≠ 0 ∨ u 1 % 256 = 0) →
    ∃ t', exec (.astart d a) s = .next t' ∧ TakesTrap s t' g b [l] 0x02 (wordVal g.w g.w2) g.pc ∧ OnlyThreads s t' ∧ t'.asqs = s.asqs) ∧
  (Passes b g [rU a 2, wV d] [] → bits (u 1) 31 28 = 0 → bits (u 1) 15 12 = 0 → core < 192 →
    let first := u 1 % 4096
    let n := bits (u 1) 27 16 + 1
    first + n ≤ 4096 → u 0 % 8 = 0 → u 0 + 8 * n ≤ s.spadSize core b.world → (∀ f, (s.asq core).fault = some f → f.task ≠ b.task) →
    (s.asq core).runs = [] → s.unchecked b.task = false → (s.core core).fresh = [] → (∀ x, u 0 / 64 ≤ x → x ≤ (u 0 + 8 * n - 1) / 64 → s.pres core b.world x = 0 ∧ s.spadMarked core b.world (64 * x) 64 = false) →
    ∃ t', exec (.amload d a) s = .next t' ∧ gives t' [rU a 2, wV d] [0] ∧ (t'.asq core).last = some b.world ∧ (t'.asq core).runs = [] ∧
      (∀ i < n, mget? (t'.asq core).store (first + i) = some (BitVec.ofNat 64
        ((seenWord s core b.world b.spkey b.task (u 0 + 8 * i)).toNat + 2 ^ 32 * (seenWord s core b.world b.spkey b.task (u 0 + 8 * i + 4)).toNat))) ∧
      ∀ i, (i < first ∨ first + n ≤ i) → mget? (t'.asq core).store i =
        if (s.asq core).last = some b.world then mget? (s.asq core).store i else none) ∧
  (Passes b g [rAddr a 2, wV d 2] [] → mrising s.asqs = true →
    let n := (effective b t a 0 1).toNat
    ∃ t' c st, exec (.astat d a) s = .next t' ∧ gives t' [rAddr a 2, wV d 2] [BitVec.ofNat 32 st, BitVec.ofNat 32 c] ∧
      (∀ r, (s.asq core).recs.find? (fun x => x.num = n) = some r → st % 256 = r.status % 256 ∧ c = r.att) ∧
      ((∀ r ∈ (s.asq core).recs, r.num ≠ n) → (∃ r ∈ (s.asq core).runs, r.num = n) → st = 0xFF) ∧
      ((∀ r ∈ (s.asq core).recs, r.num ≠ n) → (∀ r ∈ (s.asq core).runs, r.num ≠ n) → n < (s.asq core).next → st = 0xFE ∧ c = 0) ∧
      (t'.asq core).fault = match (s.asq core).fault with
        | some f => if f.num = n then none else some f
        | none => none)

/-- R174, R175, R185, R186, R193. APSTART starts 32 threads at an entry with the argument in v0:v1 in the starter's world and task, unless the
processor runs (1); APSTOP ends its program; APPUSH and APFETCH move words, in lane order, through a mailbox of 256, with what orders the pushing thread's stores
before the fetching thread's loads; TLBINV drops the
translations it names; BANKCFG, its masks disjoint and its banks the world's, sets their modes. -/
def Sys2Proof.Says.ProcessorsBanksTranslations : Prop := ∀ s g b l0 ls t0, Leads s g b l0 ls t0 → ∀ (d a f : BitVec 7),
  let on := l0 :: ls
  let core := coreIx g.place
  let p := g.place
  let q : Place := .ap core (classReg p b t0 f.toNat % 2)
  let runs : Prop := ∃ x ∈ s.benches, x.place = q
  let quiet : Prop := ∀ y ∈ s.lates, y.who.place ≠ q
  let r (i : Nat) : Nat := classReg p b t0 (a.toNat + i)
  (Passes b g [classOpnd p a 4 false, classOpnd p f 1 false, classOpnd p d 1 true] [] →
    let ops := [classOpnd p a 4 false, classOpnd p f 1 false, classOpnd p d 1 true]
    (runs → exec (.apstart d a f) s = .next (gaveClass (s.opened g b) g on t0 ops d 1)) ∧
    (¬ runs → ∃ x, x.place = q ∧ x.task = b.task ∧ x.world = b.world ∧ x.vfoot = 128 ∧ x.sfoot = 0 ∧ x.pfoot = 32 ∧ x.uregs = [] ∧
      x.threads.map Prod.fst = upto 32 ∧
      (∀ e ∈ x.threads, e.2.pc = BitVec.ofNat 64 (r 0 + 2 ^ 32 * r 1) ∧ e.2.tid = e.1 ∧ e.2.preds = 0 ∧ e.2.wait = .ready ∧
        ∀ i, (e.2.v i).toNat = if i = 0 then r 2 else if i = 1 then r 3 else 0) ∧
      exec (.apstart d a f) s = .next (gaveClass { s.opened g b with benches := (s.opened g b).benches ++ [x] } g on t0 ops d 0))) ∧
  (Passes b g [classOpnd p f 1 false, classOpnd p d 1 true] [] →
    let ops := [classOpnd p f 1 false, classOpnd p d 1 true]
    (¬ runs → exec (.apstop d f) s = .next (gaveClass (s.opened g b) g on t0 ops d 1)) ∧
    (runs → quiet → q ≠ p → exec (.apstop d f) s = .next (gaveClass { s.opened g b with
      benches := (s.opened g b).benches.filter fun x => x.place ≠ q } g on t0 ops d 0)) ∧
    (runs → quiet → q = p → ∃ t', exec (.apstop d f) s = .next t' ∧ t'.mem = s.mem ∧ ∀ x ∈ t'.benches, x.place ≠ q)) ∧
  ((isAp p = true → f = 0) → (∀ y ∈ s.lates, y.who.place ≠ p) →
    let i := match p with
      | .ap _ k => k
      | _ => (b.u t0 f.toNat).toNat % 2
    let mops : List Opnd := if isAp p then [] else [rU f]
    let c := s.core core
    let words : List Word := (members (b.noted g) g).map fun e => e.2.v a.toNat
    let views (out : Bool) : List View := mget [] c.boxv ((if out then 2 else 0) + i)
    let put (out : Bool) (ws : List Word) (vs : List View) : State := (s.opened g b).updCore core fun c =>
      let c := { c with boxv := mput [] c.boxv ((if out then 2 else 0) + i) vs }
      if out then { c with outbox := setNth c.outbox i ws } else { c with inbox := setNth c.inbox i ws }
    let box : List Word := nth [] (if isAp p then c.outbox else c.inbox) i
    let source : List Word := nth [] (if isAp p then c.inbox else c.outbox) i
    (Passes b g (rV a :: mops) [] → box.length + on.length ≤ 256 → exec (.appush a f) s = .next (gaveNone (put (isAp p) (box ++ words)
      (views (isAp p) ++ (members (b.noted g) g).map fun e => e.2.view)) g on (rV a :: mops))) ∧
    (Passes b g (wV d :: mops) [] → on.length ≤ source.length → exec (.apfetch d f) s = .next ((put (!isAp p) (source.drop on.length)
      ((views (!isAp p)).drop on.length)).finish g on (wV d :: mops) [] (fun l t => vecPend t d [nth 0 source (on.idxOf l)]) (fun _ _ => none)
      fun l t t' => { t' with view := t.view.join (nth [] (views (!isAp p)) (on.idxOf l)) }))) ∧
  (Passes b g [rU a 2, rU f] [] →
    let va := (b.u t0 a.toNat).toNat + 2 ^ 32 * (b.u t0 (a.toNat + 1)).toNat
    let c := (b.u t0 f.toNat).toNat
    let drops (p : Tlb → Bool) : State := gaveNone { s.opened g b with tlbs := s.tlbs.filter fun e => !p e } g on [rU a 2, rU f]
    s.foldsThrough (bits c 17 16) (c % 2 ^ 16) va = false → s.lates = [] → ∀ i, i = .tlbinvAddress a f ∨ i = .tlbinvWorld a f ∨ i = .tlbinvAll a f →
      (bits c 17 16 = 0 → exec i s = .next (drops fun e => e.world = c % 2 ^ 16 && e.base ≤ va && va < e.base + e.size)) ∧
      (bits c 17 16 = 1 → exec i s = .next (drops fun e => e.world = c % 2 ^ 16)) ∧
      (bits c 17 16 = 2 → exec i s = .next (drops fun _ => true))) ∧
  (Passes b g [rU a, rU f, wU d] [] → 192 ≤ core → b.u t0 a.toNat ||| b.u t0 f.toNat = 0 →
    exec (.bankcfg d a f) s = .next (gaveUni (s.opened g b) g on t0 [rU a, rU f, wU d] d [0])) ∧
  (Passes b g [rU a, rU f, wU d] [] → core < 192 → Canonical s → (∀ y ∈ s.lates, ∀ c w k x, y.loc ≠ .spad c w k x) →
    let sp := b.u t0 a.toNat
    let ff := b.u t0 f.toNat
    (∀ i < 32, (sp ||| ff).getLsbD i = true → ∃ k, (s.core core).banks[i]? = some k ∧ k.owner = b.world) →
    (sp &&& ff ≠ 0 → exec (.bankcfg d a f) s = .next (gaveUni (s.opened g b) g on t0 [rU a, rU f, wU d] d [2])) ∧
    (sp &&& ff = 0 → ((upto 32).filter fun i => sp.getLsbD i).length ∈ [0, 1, 2, 4, 8, 16, 32] → ((upto 32).filter fun i => ff.getLsbD i).length ≤ 16 →
      (s.core core).pres = [] → s.spadBusy core b.world = false → (s.core core).fifos = [] → (∀ x ∈ s.benches, ∀ e ∈ x.threads, e.2.polled = none) →
      (s.core core).banks.length = 32 →
      ∃ t', exec (.bankcfg d a f) s = .next t' ∧ t'.mem = s.mem ∧ t'.tasks = s.tasks ∧
        (t'.bench? p).map (fun x => x.uout) = some (b.uout ++ [⟨false, t0.ws + d.toNat, 0, on⟩]) ∧
        ∀ i < 32, ∀ k, (s.core core).banks[i]? = some k → (t'.core core).banks[i]? = some (if k.owner = b.world then
          { k with mode := if sp.getLsbD i then .spad else if ff.getLsbD i then .fifo else .cache } else k)))

/-- R184, R175. LQ pops the oldest row of the world's FIFO bank q, lane l getting its word l; SQ pushes a row of the executing lanes' words, 0
elsewhere. An empty bank parks the threads that pop, a full one those that push. -/
def Sys2Proof.Says.FifoBanks : Prop := ∀ s g b l0 ls t0, Leads s g b l0 ls t0 → ∀ (q : BitVec 4) (d a : BitVec 7) (bank : Nat),
  let core := coreIx g.place
  s.fifoBank core b.world q.toNat = some bank →
  let rows := mget [] (s.core core).fifos bank
  let word (l : Nat) : Word := if l ∈ l0 :: ls then (match mget? b.threads l with
    | some t => t.v a.toNat
    | none => 0) else 0
  let parks (i : Instr) (on : PollOn) : Prop := ∃ t', exec i s = .next t' ∧ t'.mem = s.mem ∧ t'.cores = s.cores ∧ ∀ l ∈ l0 :: ls, ∀ t, mget? b.threads l = some t →
    (t'.thread? g.place l).map (fun x => (x.polled, x.pc)) = some (some on, t.pc)
  (Passes b g [wV d] [] → ∀ row rest, rows = row :: rest → exec (.lq q d) s = .next (((s.opened g b).updCore core fun c =>
    { c with fifos := mput [] c.fifos bank rest }).finish g (l0 :: ls) [wV d] [] (fun l t => vecPend t d [nth 0 row l]) (fun _ _ => none) fun _ _ t => t)) ∧
  (Passes b g [wV d] [] → rows = [] → parks (.lq q d) (.fifo bank)) ∧
  (Passes b g [rV a] [] → rows.length < 512 → exec (.sq q a) s = .next (gaveNone ((s.opened g b).updCore core fun c =>
    { c with fifos := mput [] c.fifos bank (rows ++ [(upto 32).map word]) }) g (l0 :: ls) [rV a])) ∧
  (Passes b g [rV a] [] → 512 ≤ rows.length → parks (.sq q a) (.full bank))

namespace Sys2Proof.Machine

/-- Every lane that executes takes the trap (of disposition H) with the tval `v`; the machine is otherwise as before. -/
def Refuses (i : Instr) (s : State) (g : Grp) (b : Bench) (code : Nat) (v : DWord) : Prop :=
  AllHandlersReady s g b (b.executing g) → ∃ t', exec i s = .next t' ∧ TakesTrap s t' g b (b.executing g) code v g.pc ∧ OnlyThreads s t' ∧ t'.hub.trt = s.hub.trt ∧
    t'.hub.dce = s.hub.dce ∧ t'.hub.lse = s.hub.lse ∧ t'.hub.plc = s.hub.plc ∧ t'.leases = s.leases

/-- The uniform register of a group's first executing lane. -/
def Bench.un (b : Bench) (t : Thread) (a : BitVec 7) (i : Nat) : Nat := (b.u t (a.toNat + i)).toNat

/-- A world number that names a world. -/
def State.hasWorld (s : State) (w : Nat) : Prop := (s.world w).live = true

/-- The trust root with other contents. -/
def State.withTrt (s : State) (x : Trt) : State := { s with hub := { s.hub with trt := x } }

/-- `n` bytes of scratchpad at an offset, as words hold them for a task, lowest address first. -/
def spadData (s : State) (c w : Nat) (key : Word) (task x n : Nat) : List Byte :=
  ((upto ((n + 3) / 4)).flatMap fun i => natLe 4 (seenWord s c w key task (x + 4 * i)).toNat).take n

/-- No store to a core's scratchpad is outstanding, and no copy of a steward's queue is landing there (R289). -/
def SpadQuiet (s : State) (c : Nat) : Prop := (∀ y ∈ s.lates, ∀ w k x, y.loc ≠ .spad c w k x) ∧ (s.core c).landing = []

/-- An extent of scratchpad passes its checks (R375): aligned, inside, present. -/
def Extent (s : State) (c w x n al : Nat) : Prop :=
  x % al = 0 ∧ x + n ≤ s.spadSize c w ∧ ∀ i, x / 64 ≤ i → 64 * i < x + n ∨ i = x / 64 → s.pres c w i = 0

/-- An extent that may be read (R331): not marked, and no access to it outstanding. -/
def Readable (s : State) (c w x n al : Nat) : Prop := Extent s c w x n al ∧ s.spadMarked c w x n = false ∧ SpadQuiet s c

/-- From `s0` to `s1` only scratchpad of core `c` in the `n` bytes at `x` changed, to `bs`; and what the task wrote is noted (R28). -/
def SpadOnly (s0 s1 : State) (c w : Nat) (key : Word) (task x : Nat) (bs : List Byte) : Prop :=
  spadData s1 c w key task x bs.length = bs ∧ { s1 with cores := s0.cores, tasks := s0.tasks } = s0 ∧ (∀ j, j ≠ c → s1.core j = s0.core j) ∧
    (∀ loc, (∀ i, 4 * i < bs.length → loc ≠ s0.spadLoc c w key (x + 4 * i)) → mget 0 (s1.core c).spad loc = mget 0 (s0.core c).spad loc)

end Sys2Proof.Machine

/-- R369, R117, R378, R387. WORLDCFG: a reserved bit, a core above 191, a misaligned root or pool gives 3; a world that does not exist (for CREATE: that
exists, or 0) 2; what Table 14.4 calls busy 1, and nothing changes; else 0 with the operation's effect. OP 7 to 15 take TC_RESFIELD.
The model's own choices it rests on: log entries 12, 79. -/
def Obligations.WorldOperations : Prop := ∀ s g b l0 ls t0, Leads s g b l0 ls t0 → ∀ (d a : BitVec 7), Passes b g [wV d, rU a 4] [] →
  ∀ i, i ∈ [Instr.worldcfgCreate d a, .worldcfgTvec d a, .worldcfgDrawers d a, .worldcfgBanks d a, .worldcfgRoot d a, .worldcfgDestroy d a, .worldcfgTlpool d a] →
  let o := s.opened g b
  let r := b.un t0 a
  let w := bits (r 0) 15 8
  let x := s.world w
  let pair := r 1 + 2 ^ 32 * r 2
  let core := r 1 % 256
  let gives (k : Word) (s0 : State) : Prop := exec i s = .next (gaveAll s0 g (l0 :: ls) [wV d, rU a 4] d [k])
  let world (y : World) : State := { o with worlds := mset o.worlds w y }
  let op (n : Nat) : Prop := r 0 % 16 = n ∧ bits (r 0) 7 4 = 0 ∧ r 0 / 2 ^ 16 = 0
  (7 ≤ r 0 % 16 → Refuses i s g b 0x02 (wordVal g.w g.w2)) ∧
  (r 0 % 16 < 7 → (bits (r 0) 7 4 ≠ 0 ∨ r 0 / 2 ^ 16 ≠ 0) → gives 3 o) ∧
  (op 0 → ((pair % 65536 ≠ 0 ∨ 2 ≤ r 3) → gives 3 o) ∧ (pair % 65536 = 0 → r 3 < 2 → (s.hasWorld w ∨ w = 0) → gives 2 o) ∧
    (pair % 65536 = 0 → r 3 < 2 → ¬ s.hasWorld w → w ≠ 0 → ∃ k n c, gives 0 { world ⟨true, pair, decide (r 3 = 1), 0, 0, 0, false, k.take 64, k.drop 64⟩ with
      draws := n, hub := { o.hub with sdc := c } } ∧ c.mode = mdel o.hub.sdc.mode w ∧ (∀ y ∈ c.lines, y.world ≠ w) ∧ (r 3 = 0 → k = [] ∧ n = o.draws) ∧ (r 3 = 1 → k.length = 96))) ∧
  (op 1 → (s.hasWorld w → gives 0 (world { x with tvec := BitVec.ofNat 64 pair })) ∧ (¬ s.hasWorld w → gives 2 o)) ∧
  (op 2 → ((r 1 / 2 ^ 16 ≠ 0 ∨ 191 < core) → gives 3 o) ∧ (r 1 / 2 ^ 16 = 0 → core ≤ 191 →
    let named (k : Nat) : Prop := k < 8 ∧ bitAt (bits (r 1) 15 8) k = true
    let busy (k : Nat) : Prop := (∃ y ∈ s.benches ++ s.saved, drawerOf y.place = some (8 * core + k)) ∨ (s.mxu (8 * core + k)).claim ≠ none ∨ (s.mxu (8 * core + k)).queue ≠ []
    (¬ s.hasWorld w → gives 2 o) ∧ (s.hasWorld w → (∃ k, named k ∧ busy k) → gives 1 o) ∧
    (s.hasWorld w → (∀ k, named k → ¬ busy k) → mwf Drawer.init s.drawers = true → mrising s.mxus = true → (∀ j, mrising (s.mxu j).recv = true) → ∃ s0, gives 0 s0 ∧
      { s0 with drawers := o.drawers, mxus := o.mxus } = o ∧
      (∀ k, named k → (mget Drawer.init s0.drawers (8 * core + k)).world = w ∧ (s0.mxu (8 * core + k)).data = MxData.init) ∧
      ∀ j, (∀ k, named k → j ≠ 8 * core + k) → mget Drawer.init s0.drawers j = mget Drawer.init s.drawers j ∧
        { s0.mxu j with recv := (s.mxu j).recv } = s.mxu j ∧ (∀ k, named k → mget? (s0.mxu j).recv (8 * core + k) = none) ∧ ∀ m, (∀ k, named k → m ≠ 8 * core + k) → mget? (s0.mxu j).recv m = mget? (s.mxu j).recv m))) ∧
  (op 3 → ((r 1 / 2 ^ 8 ≠ 0 ∨ 191 < core) → gives 3 o) ∧ (r 1 / 2 ^ 8 = 0 → core ≤ 191 →
    let moves (k : Nat) (y : Bank) : Prop := k < 32 ∧ bitAt (r 2) k = true ∧ (s.core core).banks[k]? = some y ∧ y.owner ≠ w
    (¬ s.hasWorld w → gives 2 o) ∧ (s.hasWorld w → (∃ k y, moves k y ∧ y.mode ≠ .cache) → gives 1 o) ∧
    (s.hasWorld w → (∀ k y, moves k y → y.mode = .cache) → Canonical s → (s.core core).banks.length = 32 → (∀ y ∈ s.copies, y.at_ ≠ .core core) →
      (∀ y ∈ s.lates, ∀ v k z, y.loc ≠ .spad core v k z) → ∃ s0, gives 0 s0 ∧
      { s0 with cores := o.cores } = o ∧ (∀ j ≠ core, s0.core j = s.core j) ∧
      (∀ k y, moves k y → (s0.core core).banks[k]? = some ⟨w, .cache⟩ ∧ ∀ q < 16384, mget? (s0.core core).spad (16384 * k + q) = none) ∧
      ∀ k < 32, (∀ y, ¬ moves k y) → (s0.core core).banks[k]? = (s.core core).banks[k]?))) ∧
  (op 4 → (s.hasWorld w → gives 0 (world { x with root := pair })) ∧ (¬ s.hasWorld w → gives 2 o)) ∧
  (op 5 → (¬ s.hasWorld w ∨ w = 0 → gives 2 o) ∧ (s.hasWorld w → w ≠ 0 →
    let holds : Prop := (∃ j < 1536, (mget Drawer.init s.drawers j).world = w) ∨ (∃ c < 192, ∃ y ∈ (s.core c).banks, y.owner = w) ∨
      (∃ q ∈ s.queues, isMemQ q.2.qid = true ∧ q.2.world = w) ∨ mget? s.arenas w ≠ none ∨ ∃ k ∈ o.tasks, k.2.world = w ∧ k.2.state.pending = true
    let gone (c : Sdc) : State := { o with worlds := mdel o.worlds w, queues := o.queues.filter (fun q => isMemQ q.2.qid || q.2.world ≠ w), hub := { o.hub with sdc := c } }
    (holds → gives 1 o) ∧ (¬ holds → ∃ c, gives 0 (gone c) ∧ c.mode = mdel o.hub.sdc.mode w ∧ ∀ y ∈ c.lines, y.world ≠ w))) ∧
  (op 6 → ((pair % 65536 ≠ 0 ∨ 2 ^ 56 ≤ pair) → gives 3 o) ∧ (pair % 65536 = 0 → pair < 2 ^ 56 →
    let busy : Prop := ∃ k ∈ o.tasks, k.2.world = w ∧ k.2.areas ≠ []
    (¬ s.hasWorld w → gives 2 o) ∧ (s.hasWorld w → busy → gives 1 o) ∧
    (s.hasWorld w → ¬ busy → gives 0 (world { x with tlBase := pair, tlSize := 16 * r 3 }))))

/-- R365, R370, R376 to R379. KEYLD installs a key of a confidential world and clears its source; SIGN writes the signature of a digest; MEXT extends
`meas`4 to 15; NVINC makes or counts up a record for its owner; SEAL counts a LIVE record up and writes its token, and makes the record EXPORTING for a
migration; UNSEAL gives the first failing status and changes nothing. -/
def Sys2Proof.Says.TrustRootInstructions : Prop := ∀ s g b l0 ls t0, Leads s g b l0 ls t0 → ∀ (d a f : BitVec 7),
  let o := s.opened g b
  let on := l0 :: ls
  let u (x : BitVec 7) (i : Nat) : Nat := b.un t0 x i
  let c := coreIx g.place
  let ok (x n al : Nat) : Prop := Readable s c b.world x n al
  let data (x n : Nat) : List Byte := spadData s c b.world b.spkey b.task x n
  let clean : Prop := CoreCanonical (s.core c) ∧ Canonical s
  (Passes b g [wV d, rU a 2] [] →
    let w := u a 0 % 256
    let mac := bits (u a 0) 9 8 = 1
    let n := if mac then 32 else 64
    let gives (k : Word) (s0 : State) : Prop := exec (.keyld d a) s = .next (gaveAll s0 g on [wV d, rU a 2] d [k])
    let put (s0 : State) (k : List Byte) : State := { s0 with worlds := mset o.worlds w (if mac then { s.world w with mkey := k } else { s.world w with dkey := k }) }
    let busy : Prop := (∃ y ∈ s.benches ++ s.saved, drawerOf y.place ≠ none ∧ y.world = w) ∨ s.engineOf w = true
    (2 ≤ bits (u a 0) 9 8 → Refuses (.keyld d a) s g b 0x02 (wordVal g.w g.w2)) ∧
    (bits (u a 0) 9 8 < 2 → u a 0 / 2 ^ 11 = 0 →
      (¬ (s.hasWorld w ∧ (s.world w).conf = true) → gives 2 o) ∧
      (s.hasWorld w → (s.world w).conf = true →
        (busy → gives 1 o) ∧
        (¬ busy → (mac ∨ ∀ y ∈ s.copies, y.world ≠ w) → bitAt (u a 0) 10 = true → ∃ k m, k.length = n ∧ gives 0 { put o k with draws := m }) ∧
        (¬ busy → (mac ∨ ∀ y ∈ s.copies, y.world ≠ w) → bitAt (u a 0) 10 = false → ok (u a 1) n 64 → clean → ∃ s1, gives 0 (put s1 (data (u a 1) n)) ∧
          SpadOnly o s1 c b.world b.spkey b.task (u a 1) (List.replicate n 0))))) ∧
  (Passes b g [wV d, rU a, rU f] [] →
    (ok (u a 0) 48 64 → Extent s c b.world (u f 0) 96 64 → clean → ∃ s1, exec (.sign d a f) s = .next (gaveAll s1 g on [wV d, rU a, rU f] d [0]) ∧
      SpadOnly o s1 c b.world b.spkey b.task (u f 0) (trtSign lblSign (data (u a 0) 48))) ∧
    (15 < u a 0 → Refuses (.mext d a f) s g b 0x02 (wordVal g.w g.w2)) ∧
    (u a 0 ≤ 15 → ok (u f 0) 48 64 → exec (.mext d a f) s = .next (if u a 0 < 4 then gaveAll o g on [wV d, rU a, rU f] d [1] else
      gaveAll (o.withTrt { o.hub.trt with meas := mset o.hub.trt.meas (u a 0) (sha384 (s.meas (u a 0) ++ data (u f 0) 48)) }) g on [wV d, rU a, rU f] d [0])) ∧
    (let k := u a 0 % 256
     let r := s.crec k
     let kind := bits (u a 0) 9 8
     (u a 0 / 2 ^ 10 ≠ 0 ∨ kind = 3 → Refuses (.seal d a f) s g b 0x02 (wordVal g.w g.w2)) ∧
     (u a 0 / 2 ^ 10 = 0 → kind ≠ 3 → ok (u f 0) 256 256 →
       (r.st ≠ .live → exec (.seal d a f) s = .next (gaveAll o g on [wV d, rU a, rU f] d [1])) ∧
       (r.st = .live → r.value + 1 < 2 ^ 64 → clean → ∃ s1, exec (.seal d a f) s = .next (gaveAll s1 g on [wV d, rU a, rU f] d [0]) ∧
         let body := natLe 4 1 ++ natLe 4 (256 * kind + k) ++ natLe 8 (r.value + 1) ++ data (u f 0 + 16) 48 ++ deviceId ++ List.replicate 48 0
         SpadOnly (o.withTrt { o.hub.trt with recs := mset o.hub.trt.recs k { r with value := r.value + 1, st := if kind = 2 ∧ k ≠ 0 then .exporting else .live } })
           s1 c b.world b.spkey b.task (u f 0) (body ++ trtSign lblSeal body))))) ∧
  (Passes b g [wV d 2, rU a] [] →
    let r := s.crec (u a 0 % 256)
    let w := bits (u a 0) 15 8
    let gives (s0 : State) (ws : List Word) : Prop := exec (.nvinc d a) s = .next (gaveAll s0 g on [wV d 2, rU a] d ws)
    let set (x : CRec) : State := o.withTrt { o.hub.trt with recs := mset o.hub.trt.recs (u a 0 % 256) x }
    (2 ^ 16 ≤ u a 0 → Refuses (.nvinc d a) s g b 0x02 (wordVal g.w g.w2)) ∧
    (u a 0 < 2 ^ 16 →
    (r.st = .free → ∃ x, gives (set ⟨.live, w, 1, x⟩) [1, 0] ∧ natBe 48 x.toNat = deviceId) ∧
    (r.st = .live → r.owner = w → r.value + 1 < 2 ^ 64 → gives (set { r with value := r.value + 1 }) (twoWords (r.value + 1))) ∧
    ((r.st = .exporting ∨ r.st = .retired ∨ r.st = .live ∧ (r.owner ≠ w ∨ 2 ^ 64 ≤ r.value + 1)) → gives o [0, 0]))) ∧
  (Passes b g [wV d, rU a] [] → ok (u a 0) 256 256 →
    let tok := data (u a 0) 256
    let part (x n : Nat) : List Byte := (tok.drop x).take n
    let r := s.crec ((leNat (part 4 4)) % 256)
    let good : Prop := leNat (part 0 4) = 1 ∧ leNat (part 4 4) < 2 ^ 10 ∧ leNat (part 0x70 48) = 0
    let signed : Prop := (part 0x40 48 = deviceId ∨ part 0x40 48 = natBe 48 r.origin.toNat) ∧ trtVerify (part 0x40 48) lblSeal (part 0 0xA0) (part 0xA0 96) = true
    exec (.unseal d a) s = .next (gaveAll o g on [wV d, rU a] d
      [if ¬ good then 2 else if ¬ signed then 2 else if r.st ≠ .live then 3 else if leNat (part 8 8) ≠ r.value then 1 else 0]))

/-- R375, R179. HINIT writes the initial SHA-384 state and a length of 0; HABS absorbs blocks of 128 bytes; HFIN absorbs the last bytes, pads them,
and writes the digest, little-endian in each register, with zeros behind it. A count beyond the range takes TC_RESFIELD. -/
def Sys2Proof.Says.HashInstructions : Prop := ∀ s g b l0 ls t0, Leads s g b l0 ls t0 → ∀ (d a f : BitVec 7),
  let o := s.opened g b
  let on := l0 :: ls
  let c := coreIx g.place
  let x := b.un t0 a 0
  let n := b.un t0 f 0
  let word64 (i : Nat) : Nat := b.un t0 d (2 * i) + 2 ^ 32 * b.un t0 d (2 * i + 1)
  let h := (upto 8).map word64
  let len := word64 8 + 2 ^ 64 * word64 9
  let st (h : List Nat) (m : Nat) : List Word := (h.flatMap fun y => twoWords y) ++ twoWords m ++ twoWords (m / 2 ^ 64)
  let passes (n : Nat) : State := if 192 ≤ c then o else o.updCore c fun y => { y with cnt := { y.cnt with npass := y.cnt.npass + BitVec.ofNat 64 ((n + 3) / 4) } }
  (Passes b g [wU d 20] [] → exec (.hinit d) s = .next (gaveUni o g on t0 [wU d 20] d (st sha384Iv 0))) ∧
  (Passes b g [rU d 20, rU a, rU f, wU d 20] [] →
    (512 < n → Refuses (.habs d a f) s g b 0x02 (wordVal g.w g.w2)) ∧
    (n ≤ 512 → Readable s c b.world x (128 * n) 128 → exec (.habs d a f) s = .next (gaveUni (passes (128 * n)) g on t0 [rU d 20, rU a, rU f, wU d 20] d
      (st (shaBlocks h (spadData s c b.world b.spkey b.task x (128 * n))) (len + 1024 * n)))) ∧
    (127 < n → Refuses (.hfin d a f) s g b 0x02 (wordVal g.w g.w2)) ∧
    (n ≤ 127 → Readable s c b.world x n 4 →
      let dig := (shaBlocks h (shaPad (len / 8 + n) (spadData s c b.world b.spkey b.task x n))).take 6
      ∃ ws, exec (.hfin d a f) s = .next (gaveUni (passes n) g on t0 [rU d 20, rU a, rU f, wU d 20] d (ws ++ List.replicate 8 0)) ∧ ws.length = 12 ∧
        ws.flatMap (fun w => natLe 4 w.toNat) = dig.flatMap (natBe 8)))

/-- R382 to R385. IPI posts a record of kind 8 to a steward's queue (steward 0 takes TC_RESFIELD); EVTPOP gives its steward's oldest record, waits for one,
or with NB gives 0; PLACE records its range and gives 0; CAPR gives an entry of Table 14.9, or zeros; RESYNC writes the summary record, SEQ counted up.
The model's own choices it rests on: log entries 12, 16, 28, 83, 84, 86. -/
def Obligations.StewardInstructions : Prop := ∀ s g b l0 ls t0, Leads s g b l0 ls t0 → ∀ (d a f : BitVec 7),
  let o := s.opened g b
  let on := l0 :: ls
  let u (x : BitVec 7) (i : Nat) : Nat := b.un t0 x i
  (Passes b g [rU a, rU f] [] →
    let k := u a 0 % 16
    let q := mget [] s.evq k
    let r : EvRec := ⟨[8, b.u t0 f.toNat, 0, 0, 0, 0, BitVec.ofNat 32 (placeWord (some g.place)), BitVec.ofNat 32 s.mstime]⟩
    (k = 0 → Refuses (.ipi a f) s g b 0x02 (wordVal g.w g.w2)) ∧
    (k ≠ 0 → (∀ y ∈ s.copies, y.dirty = false) → (∀ y ∈ s.lates, y.who.place ≠ g.place) → exec (.ipi a f) s = .next (gaveNone (if 1024 ≤ q.length then { o with dropped := o.dropped + 1 } else
      { o with evq := mset o.evq k (q ++ [r]) }) g on [rU a, rU f]))) ∧
  (∀ k j, g.place = .steward k j → Passes b g [wV d 8] [] → ∀ n,
    (∀ r rest, mget [] s.evq k = r :: rest → exec (.evtpop d n) s = .next (gaveAll { o with evq := mput [] o.evq k rest } g on [wV d 8] d r.words)) ∧
    (mget [] s.evq k = [] → exec (.evtpop d true) s = .next (gaveAll o g on [wV d 8] d [0])) ∧
    (mget [] s.evq k = [] → ∃ t', exec (.evtpop d false) s = .next t' ∧ t'.mem = s.mem ∧ t'.evq = s.evq ∧ ∀ l ∈ on, ∀ th, mget? b.threads l = some th →
      (t'.thread? g.place l).map (fun x => (x.polled, x.pc)) = some (some .engine, th.pc))) ∧
  (Passes b g [wV d, rU a 4, rU f] [] → ∀ i, i ∈ [Instr.placePrefer d a f, .placePin d a f, .placeUnpin d a f, .placeFrames d a f] →
    let va := u a 0 + 2 ^ 32 * u a 1
    let op := u f 0 % 16
    let tier := bits (u f 0) 5 4
    let rng (v : Nat) : PRange := ⟨u a 3, va / 65536, u a 2, v⟩
    let gives (s0 : State) : Prop := exec i s = .next (gaveAll s0 g on [wV d, rU a 4, rU f] d [0])
    let plc (p : Plc) : State := { o with hub := { o.hub with plc := p } }
    (4 ≤ op ∨ op = 0 ∧ tier = 3 ∨ 2 ^ 8 ≤ u a 3 → Refuses i s g b 0x02 (wordVal g.w g.w2)) ∧
    (u a 3 < 2 ^ 8 → u f 0 < 2 ^ 6 → (op = 0 ∧ tier < 3 ∨ (op = 1 ∨ op = 2) ∧ tier = 0) → va % 65536 ≠ 0 → Refuses i s g b 0x08 (BitVec.ofNat 64 va)) ∧
    (u a 3 < 2 ^ 8 → u f 0 < 2 ^ 6 → va % 65536 = 0 →
      (op = 0 → tier < 3 → gives (plc { o.hub.plc with prefer := rng tier :: o.hub.plc.prefer })) ∧
      (op = 1 → tier = 0 → gives (plc { o.hub.plc with pins := rng 1 :: o.hub.plc.pins })) ∧
      (op = 2 → tier = 0 → gives (plc { o.hub.plc with pins := rng 0 :: o.hub.plc.pins }))) ∧
    (u a 3 < 2 ^ 8 → u f 0 = 3 → gives { o with hub := { o.hub with lse := { o.hub.lse with frames := mset o.hub.lse.frames (u a 0 % 4096) (u a 2) } } })) ∧
  (Passes b g [wV d 4, rU a] [] →
    let gives (ws : List Nat) : Prop := exec (.capr d a) s = .next (gaveAll o g on [wV d 4, rU a] d (ws.map (BitVec.ofNat 32)))
    (u a 0 = 0 → gives [0x00010001, 16, 0x00000101, 0]) ∧ (u a 0 = 16 → gives [0x00010002, 32, 0x08C03004, 0]) ∧
    (u a 0 = 32 → gives [0x00010003, 48, 768, 2048]) ∧ (u a 0 = 48 → gives [0x00010004, 64, 0x00801008, 0]) ∧
    (u a 0 = 64 → gives [0x00010005, 0, 0x10010013, 0]) ∧ (u a 0 ∉ [0, 16, 32, 48, 64] → gives [0, 0, 0, 0])) ∧
  (Passes b g [wV d, rU a 2] [] →
    let x := u a 0 + 2 ^ 32 * u a 1
    (x % 4096 ≠ 0 → Refuses (.resync d a) s g b 0x08 (BitVec.ofNat 64 x)) ∧
    (x % 4096 = 0 → s.dpaFault x 4096 = none → Canonical s → s.confW 0 = false → ∃ t', exec (.resync d a) s = .next t' ∧ t'.hub.trt.seq = s.hub.trt.seq + 1 ∧
      (∀ l ∈ on, ∀ th, mget? b.threads l = some th → (t'.thread? g.place l).map (fun y => y.out) = some (th.out ++ vecPend th d [0])) ∧
      (∀ i < 4096, t'.byte (x + i) = nth 0 ((o.withTrt { o.hub.trt with seq := o.hub.trt.seq + 1 }).summary (s.hub.trt.seq + 1)) i) ∧
      ∀ y, (y < x ∨ x + 4096 ≤ y) → t'.byte y = s.byte y))

namespace Sys2Proof.Machine

/-- A message over a port that carries it (R340), from a live peer of the incarnation that is recorded for it (R341). -/
def Heard (s : State) (m : LeaseMsg) : Prop := s.reaches m.mid = true ∧ s.peerLive m.mid = true ∧ s.peerIncarn m.mid = m.incarn

/-- The message is about entry `i`, of that role, its generation and its peer's incarnation (R341, R342). -/
def About (s : State) (m : LeaseMsg) (i : Nat) (r : LRole) : Prop :=
  Heard s m ∧ 0 < i ∧ i < 4096 ∧ (s.lease i).role = r ∧ (s.lease i).gen = m.gen ∧ (s.lease i).pinc = m.incarn ∧
    m.mid = (if r = .lent then (s.lease i).borrower else (s.lease i).lender)

/-- What the module sends about a lease, to its other side (R341). -/
def noteOf (s : State) (k : LKind) (l : Lease) (dur : Nat) : OutMsg :=
  .lease (if l.role = .lent then l.borrower else l.lender) k
    { mid := s.hub.flash.mid, incarn := s.incarn, gen := l.gen, lid := l.lid, lidx := l.lidx, ext := l.ext, dur := dur }

/-- The lease messages sent, each where a port towards its module carries it (R340). -/
def Sent (s t' : State) (ms : List OutMsg) : Prop := t'.hub.outbox = s.hub.outbox ++ ms.filter fun m => match m with
  | .lease mid _ _ => !s.pathsDown mid
  | _ => true

/-- A lease event of a sub-kind about an entry is in the EVROUTE steward's queue, if it had room (Table 14.7). -/
def Posted (s t' : State) (sub i : Nat) : Prop :=
  let k := (s.ctlReg 0x58).toNat % 16
  (mget [] s.evq k).length < 1024 → ∃ r, mget [] t'.evq k = mget [] s.evq k ++ [r] ∧ nth 0 r.words 0 = BitVec.ofNat 32 (6 + 256 * sub) ∧
    nth 0 r.words 3 = BitVec.ofNat 32 i

/-- Entry `i` is `l` afterwards, every other one as before. -/
def EntryIs (s t' : State) (i : Nat) (l : Lease) : Prop := t'.lease i = l ∧ ∀ j ≠ i, t'.lease j = s.lease j

/-- The end of a lease of duration `d` from now; all ones: none (R343). -/
def endOf (s : State) (d grace : Nat) : Option Nat := if d = 0xFFFFFFFF then none else some (s.mstime + d + grace)

/-- Nothing of the lease's window stands dirty in the module and no queue takes its packets. -/
def NoneDirty (s : State) : Prop := (∀ x ∈ s.copies, x.dirty = false) ∧ s.unpushed = [] ∧ s.prefetchQueue = none

end Sys2Proof.Machine

/-- R355 to R359. LSET: CONFIG takes a configuration within its ranges; OFFER makes a FREE entry OFFERED, its generation counted up, and sends OFFER; ACCEPT,
DECLINE and RENEW send their message for a borrowed entry in the state they need (1 for another state, 2 for a lent entry); PFETCH sets the range; FREE
clears an entry but for GEN; ELECT starts an election. LGET gives an entry's words or the fabric status; LRECALL recalls or gives back; BISNP asks the
borrower, its result outstanding, and waits while no port leads there. Reserved bits take TC_RESFIELD. No issued access of a plain store is still unperformed: such a one to the window is
performed before the entry's transition (R346).
The model's own choices it rests on: log entries 12, 30, 87, 90. -/
def Obligations.LeaseInstructions : Prop := ∀ s g b l0 ls t0, Leads s g b l0 ls t0 → ∀ (d a f : BitVec 7), mwf Lease.none s.leases = true → s.lates = [] →
  let o := s.opened g b
  let on := l0 :: ls
  let u (x : BitVec 7) (i : Nat) : Nat := b.un t0 x i
  let i := u a 0 % 4096
  let l := s.lease i
  (Passes b g [wV d, rU a, rU f 4] [] → ∀ ins, ins ∈ [Instr.lsetConfig d a f, .lsetOffer d a f, .lsetAccept d a f, .lsetDecline d a f, .lsetRenew d a f,
      .lsetPfetch d a f, .lsetFree d a f, .lsetElect d a f] →
    let op (n : Nat) : Prop := bits (u a 0) 31 28 = n ∧ bits (u a 0) 27 12 = 0
    let gives (k : Word) (s0 : State) : Prop := exec ins s = .next (gaveAll s0 g on [wV d, rU a, rU f 4] d [k])
    let bad : Prop := Refuses ins s g b 0x02 (wordVal g.w g.w2)
    let borrowed (st : LState) (p : Prop) : Prop := (l.state ≠ st → gives 1 o) ∧ (l.state = st → l.role ≠ .borrowed → gives 2 o) ∧ (l.state = st → l.role = .borrowed → p)
    (bits (u a 0) 27 12 ≠ 0 ∨ 8 ≤ bits (u a 0) 31 28 ∨ (i = 0 ∧ bits (u a 0) 31 28 ≠ 0 ∧ bits (u a 0) 31 28 ≠ 7) → bad) ∧
    (op 0 → i = 0 →
      let c : LseCfg := ⟨bits (u f 0) 15 8, u f 0 % 256, bits (u f 1) 31 16, u f 1 % 2 ^ 16, bits (u f 2) 31 16, u f 2 % 2 ^ 16, bits (u f 3) 31 16, u f 3 % 2 ^ 16⟩
      let good : Prop := u f 0 < 2 ^ 16 ∧ (c.cslot < 192 ∨ c.cslot = 255) ∧ 10 ≤ c.failt ∧ c.failt ≤ 10000 ∧ 1 ≤ c.settle ∧ c.settle ≤ 1000 ∧ 1 ≤ c.grace ∧
        c.grace ≤ 10000 ∧ 1 ≤ c.rcwin ∧ c.rcwin ≤ 60000 ∧ (c.qnum ≤ 4094 ∨ c.qnum = 0xFFFF) ∧ 1 ≤ c.wblead ∧ c.wblead ≤ 10000
      (good → gives 0 { o with hub := { o.hub with lse := { o.hub.lse with cfg := c } } }) ∧ (¬ good → bad)) ∧
    (op 1 → i ≠ 0 → u f 0 < 2 ^ 11 → u f 1 < 2 ^ 12 → u f 2 ≠ 0 → u f 3 < 2 ^ 12 →
      let taken : Prop := s.hssExtent (u f 0) = true ∨ ∃ e ∈ s.leases, e.1 ≠ i ∧ e.2.role = .lent ∧ e.2.state ≠ .free ∧ e.2.ext = u f 0
      (l.state ≠ .free → gives 1 o) ∧ (l.state = .free → taken → gives 3 o) ∧ (l.state = .free → ¬ taken → s.peerLive (u f 1) = false → gives 4 o) ∧
      (l.state = .free → ¬ taken → s.peerLive (u f 1) = true →
        let n : Lease := ⟨.offered, .lent, false, false, u f 3, i, s.hub.flash.mid, u f 1, u f 0, l.gen + 1, some 0, s.peerIncarn (u f 1)⟩
        ∃ s0, gives 0 s0 ∧ EntryIs o s0 i n ∧ Sent o s0 [noteOf s .offer n (u f 2)] ∧ s0.evq = o.evq ∧ s0.mem = o.mem ∧
          mget? s0.hub.lse.until_ i = some (s.mstime + s.hub.lse.cfg.rcwin) ∧ mget? s0.hub.lse.durs i = some (u f 2))) ∧
    (op 2 → i ≠ 0 → borrowed .offered (∃ s0, gives 0 s0 ∧ s0.leases = o.leases ∧ Sent o s0 [noteOf s .accept l 0] ∧ s0.evq = o.evq)) ∧
    (op 3 → i ≠ 0 → borrowed .offered (∃ s0, gives 0 s0 ∧ EntryIs o s0 i { l with state := .free } ∧ Sent o s0 [noteOf s .decline { l with state := .free } 0])) ∧
    (op 4 → i ≠ 0 → borrowed .granted (∃ s0, gives 0 s0 ∧ s0.leases = o.leases ∧ Sent o s0 [noteOf s .renew l (u f 2)] ∧ s0.evq = o.evq)) ∧
    (op 5 → i ≠ 0 → u f 0 < 2 ^ 14 → u f 1 < 2 ^ 15 → u f 2 < 2 → (u f 1 = 0 ∨ 16384 < u f 0 + u f 1 → bad) ∧
      (1 ≤ u f 1 → u f 0 + u f 1 ≤ 16384 → borrowed .granted (if s.prefetchQueue = none then gives 3 o else
        ∃ s0, gives 0 s0 ∧ EntryIs o s0 i { l with pfon := decide (u f 2 = 1) } ∧ s0.mem = o.mem ∧ (s0.bor i).first = u f 0 ∧ (s0.bor i).count = u f 1))) ∧
    (op 6 → i ≠ 0 →
      let may : Prop := l.state = .failed ∨ (l.state = .recalling ∨ l.state = .expired) ∧ l.released = true ∨ l.state = .free ∧ l.role = .lent
      (¬ may → gives 1 o) ∧ (may → ∃ s0, gives 0 s0 ∧ EntryIs o s0 i { Lease.none with gen := l.gen } ∧ s0.mem = o.mem ∧
        (l.role = .borrowed → Posted o s0 5 i ∧ ∀ e ∈ s0.tlbs, bits e.pte.toNat 63 52 ≠ i))) ∧
    (op 7 → i = 0 → s.hub.lse.el.phase = .idle → s.hub.lse.el.todo = [] → s.hub.lse.el.next = none → s.laterEpoch = none → s.hub.lse.cfg.cslot = 0xFF →
      1 ≤ s.hub.lse.cfg.settle → s.eEpoch + 1 < 2 ^ 32 → ∃ s0, gives 0 s0 ∧ s0.eEpoch = s.eEpoch + 1 ∧ bitAt s0.epochWord 63 = false ∧
        s0.hub.lse.el.phase = .settle ∧ s0.hub.lse.el.until_ = s.mstime + s.hub.lse.cfg.settle ∧ s0.leases = o.leases ∧ s0.mem = o.mem)) ∧
  (Passes b g [wV d 4, rU a] [] → ∀ ins, ins ∈ [Instr.lgetEntryLow d a, .lgetEntryHigh d a, .lgetFabricStatus d a] →
    let k := bits (u a 0) 31 30
    let gives (ws : List Nat) : Prop := exec ins s = .next (gaveAll o g on [wV d 4, rU a] d (ws.map (BitVec.ofNat 32)))
    let st : Nat := match l.state with
      | .free => 0
      | .offered => 1
      | .granted => 2
      | .recalling => 3
      | .expired => 4
      | .failed => 5
    let role : Nat := match l.role with
      | .none => 0
      | .lent => 1
      | .borrowed => 2
    let e := s.epochWord
    (bits (u a 0) 29 12 ≠ 0 ∨ k = 3 ∨ (k < 2 ∧ i = 0) ∨ (k = 2 ∧ i ≠ 0) → Refuses ins s g b 0x02 (wordVal g.w g.w2)) ∧
    (bits (u a 0) 29 12 = 0 →
      (k = 0 → i ≠ 0 → gives [2 ^ 28 * st + 2 ^ 26 * role + (if l.released then 2 ^ 25 else 0) + (if l.pfon then 2 ^ 24 else 0) + 4096 * (l.lid % 4096) + l.lidx % 4096,
        4096 * (l.lender % 4096) + l.borrower % 4096, l.ext, l.gen.toNat]) ∧
      (k = 1 → i ≠ 0 → gives [(l.expiry.getD (2 ^ 64 - 1)) % 2 ^ 32, (l.expiry.getD (2 ^ 64 - 1)) / 2 ^ 32, l.pinc % 2 ^ 32, l.pinc / 2 ^ 32]) ∧
      (k = 2 → i = 0 → gives [(if bitAt e 63 then 2 ^ 31 else 0) + (if s.hub.lse.el.phase ≠ .idle ∨ s.hub.lse.el.next.isSome = true then 2 ^ 30 else 0) +
        4096 * bits e 43 32 + s.hub.flash.mid % 4096, e % 2 ^ 32, s.mstime % 2 ^ 32, s.mstime / 2 ^ 32]))) ∧
  (Passes b g [wV d, rU a] [] →
    let gives (k : Word) (s0 : State) : Prop := exec (.lrecall d a) s = .next (gaveAll s0 g on [wV d, rU a] d [k])
    (u a 0 = 0 ∨ 4096 ≤ u a 0 → Refuses (.lrecall d a) s g b 0x02 (wordVal g.w g.w2)) ∧
    (u a 0 ≠ 0 → u a 0 < 4096 →
      (l.role = .none → gives 2 o) ∧ (l.role ≠ .none → l.state ≠ .granted → gives 1 o) ∧
      (l.role = .lent → l.state = .granted → ∃ s0, gives 0 s0 ∧ EntryIs o s0 i { l with state := .recalling } ∧ s0.evq = o.evq ∧
        Sent o s0 [noteOf s .recall { l with state := .recalling } 0] ∧ mget? s0.hub.lse.until_ i = some (s.mstime + s.hub.lse.cfg.rcwin)) ∧
      (l.role = .borrowed → l.state = .granted → NoneDirty s → ∃ s0, gives 0 s0 ∧ EntryIs o s0 i { l with state := .recalling } ∧ Posted o s0 5 i ∧
        (s0.bor i).flush = true))) ∧
  (Passes b g [wV d, rU a, rU f 2] [] →
    let gives (k : Word) : Prop := exec (.bisnp d a f) s = .next (gaveAll o g on [wV d, rU a, rU f 2] d [k])
    (2 ^ 13 ≤ u a 0 ∨ i = 0 ∨ 16383 < u f 0 ∨ u f 1 = 0 ∨ 16384 < u f 0 + u f 1 → Refuses (.bisnp d a f) s g b 0x02 (wordVal g.w g.w2)) ∧
    (u a 0 < 2 ^ 13 → i ≠ 0 → u f 0 ≤ 16383 → u f 1 ≠ 0 → u f 0 + u f 1 ≤ 16384 →
      let may : Prop := l.role = .lent ∧ (l.state = .granted ∨ l.state = .recalling)
      let m : LeaseMsg := { mid := s.hub.flash.mid, incarn := s.incarn, gen := l.gen, lid := l.lid, lidx := l.lidx, ext := l.ext, dur := 0 }
      let sent : OutMsg := .snoop l.borrower (bitAt (u a 0) 12) m ((2 ^ 40 + l.ext * 2 ^ 30) / 64 + 1024 * u f 0) (1024 * u f 1)
      (¬ may → gives 1) ∧ (may → s.peerLive l.borrower = false → gives 2) ∧
      (may → s.peerLive l.borrower = true → s.pathsDown l.borrower = true → ∃ t', exec (.bisnp d a f) s = .next t' ∧ t'.hub = s.hub ∧
        t'.remotes = s.remotes ∧ t'.mem = s.mem) ∧
      (may → s.peerLive l.borrower = true → s.pathsDown l.borrower = false → ∃ r : Remote, r.mid = l.borrower ∧ exec (.bisnp d a f) s = .next ({ o with
          hub := { o.hub with outbox := o.hub.outbox ++ [sent] },
          nextSub := s.nextSub + 1, remotes := s.remotes ++ [r] }.finish g on [wV d, rU a, rU f 2] []
            (fun _ t => [.await (t.wb + d.toNat) s.nextSub]) (fun _ _ => none) fun _ _ t => t))))

/-- R341, R343, R344, R359. Lease messages. One from a peer that is excluded or of another incarnation, or about another generation, changes nothing. Else
Table 13.4: OFFER takes the entry it names or the lowest FREE one, or is declined; ACCEPT of an OFFERED entry grants, else NAK, or is dropped where the entry has another borrower or incarnation; DECLINE and NAK free;
GRANT starts the borrower's lease; RECALL begins a flush; RELEASE frees; RENEW and RENEWED set EXPIRY anew; REFUSED changes nothing; a snoop of pages
that are not local is answered. -/
def Sys2Proof.Says.LeaseMessages : Prop := ∀ s m, mwf Lease.none s.leases = true → s.lates = [] →
  let ll := s.lease m.lidx
  let lb := s.lease m.lid
  let goes (i : Instr) (p : State → Prop) : Prop := ∃ t', exec i s = .next t' ∧ p t'
  let quiet (t' : State) : Prop := t'.evq = s.evq ∧ t'.mem = s.mem
  (∀ fst n, ¬ Heard s m → ∀ i ∈ [Instr.offer m, .accept m, .decline m, .grant m, .nak m, .recall m, .release m, .renew m, .renewed m, .refused m,
    .bisnpdata m fst n, .bisnpinv m fst n], exec i s = .next s) ∧
  (ll.gen ≠ m.gen → ∀ i ∈ [Instr.accept m, .decline m, .release m, .renew m], exec i s = .next s) ∧
  (∀ fst n, lb.gen ≠ m.gen → ∀ i ∈ [Instr.grant m, .nak m, .recall m, .renewed m, .refused m, .bisnpdata m fst n, .bisnpinv m fst n], exec i s = .next s) ∧
  (∀ i, Heard s m → 0 < i → i < 4096 → (s.lease i).state = .free → (i = m.lid ∨ m.lid = 0 ∧ ∀ j, 0 < j → j < i → (s.lease j).state ≠ .free) →
    goes (.offer m) fun t' => EntryIs s t' i ⟨.offered, .borrowed, false, false, i, m.lidx, m.mid, s.hub.flash.mid, m.ext, m.gen, some 0, m.incarn⟩ ∧
      Posted s t' 1 i ∧ mget? t'.hub.lse.durs i = some m.dur ∧ t'.mem = s.mem) ∧
  (Heard s m → (m.lid ≠ 0 ∧ (4096 ≤ m.lid ∨ lb.state ≠ .free) ∨ m.lid = 0 ∧ ∀ j, 0 < j → j < 4096 → (s.lease j).state ≠ .free) →
    goes (.offer m) fun t' => quiet t' ∧ t'.leases = s.leases ∧ Sent s t' [.lease m.mid .decline { mid := s.hub.flash.mid, incarn := s.incarn, gen := m.gen, lid := 0, lidx := m.lidx, ext := 0, dur := 0 }]) ∧
  (Heard s m → 0 < m.lidx → m.lidx < 4096 → ll.gen = m.gen →
    (ll.role = .none → goes (.accept m) fun t' => t'.leases = s.leases ∧ quiet t' ∧ ∃ k, Sent s t' [.lease m.mid .nak k] ∧ k.lid = m.lid ∧ k.lidx = m.lidx ∧ k.gen = m.gen) ∧
    (ll.role = .borrowed ∨ ll.pinc ≠ m.incarn ∧ ll.role = .lent ∨ ll.borrower ≠ m.mid ∧ ll.role = .lent → exec (.accept m) s = .next s)) ∧
  (About s m m.lidx .lent →
    (ll.state = .offered →
      let n := { ll with state := .granted, lid := m.lid, expiry := endOf s (mget 0 s.hub.lse.durs m.lidx) s.hub.lse.cfg.grace }
      goes (.accept m) (fun t' => EntryIs s t' m.lidx n ∧ quiet t' ∧ ∃ x, Sent s t' [noteOf s .grant x 0] ∧ x.role = .lent ∧ x.borrower = ll.borrower ∧ x.lid = m.lid ∧
        x.lidx = ll.lidx ∧ x.gen = ll.gen ∧ x.ext = ll.ext) ∧
      goes (.decline m) fun t' => EntryIs s t' m.lidx { ll with state := .free } ∧ quiet t') ∧
    (ll.state ≠ .offered →
      goes (.accept m) (fun t' => t'.leases = s.leases ∧ quiet t' ∧ ∃ k, Sent s t' [.lease m.mid .nak k] ∧ k.lid = m.lid ∧ k.lidx = m.lidx ∧ k.gen = m.gen) ∧
      exec (.decline m) s = .next s) ∧
    (ll.state = .granted ∨ ll.state = .recalling ∨ ll.state = .expired →
      goes (.release m) fun t' => EntryIs s t' m.lidx { ll with state := .free } ∧ Posted s t' 2 m.lidx ∧ t'.mem = s.mem) ∧
    (ll.state = .granted → goes (.renew m) fun t' => EntryIs s t' m.lidx { ll with expiry := endOf s m.dur s.hub.lse.cfg.grace } ∧
      Sent s t' [noteOf s .renewed ll m.dur] ∧ quiet t') ∧
    (ll.state = .recalling ∨ ll.state = .expired → goes (.renew m) fun t' => t'.leases = s.leases ∧ Sent s t' [noteOf s .refused ll m.dur] ∧ quiet t')) ∧
  (About s m m.lid .borrowed →
    (lb.state = .offered →
      goes (.grant m) (fun t' => EntryIs s t' m.lid { lb with state := .granted, expiry := endOf s (mget 0 s.hub.lse.durs m.lid) 0 } ∧ Posted s t' 5 m.lid ∧
        ∀ x, dpaKind x ≠ .window → t'.byte x = s.byte x) ∧
      goes (.nak m) fun t' => EntryIs s t' m.lid { lb with state := .free } ∧ Posted s t' 5 m.lid ∧ t'.mem = s.mem) ∧
    (lb.state ≠ .offered → exec (.grant m) s = .next s ∧ exec (.nak m) s = .next s) ∧
    (lb.state = .granted →
      (NoneDirty s → goes (.recall m) fun t' => EntryIs s t' m.lid { lb with state := .recalling } ∧ Posted s t' 5 m.lid ∧ (t'.bor m.lid).flush = true) ∧
      goes (.renewed m) fun t' => EntryIs s t' m.lid { lb with expiry := endOf s m.dur 0 } ∧ quiet t') ∧
    (lb.state ≠ .granted → exec (.recall m) s = .next s ∧ exec (.renewed m) s = .next s) ∧
    (∀ fst n, lb.state = .granted ∨ lb.state = .recalling → s.copies = [] → s.unpushed = [] → s.windowBusy m.lid = false → (∀ e ∈ (s.bor m.lid).pages, e.1 < fst ∨ fst + n ≤ e.1) →
      (∀ x ∈ (s.bor m.lid).asked, x.page < fst ∨ fst + n ≤ x.page) →
      goes (.bisnpdata m fst n) (fun t' => t'.leases = s.leases ∧ quiet t' ∧ Sent s t' [noteOf s .bisnpData lb 0]) ∧
      goes (.bisnpinv m fst n) fun t' => t'.leases = s.leases ∧ quiet t' ∧ Sent s t' [noteOf s .bisnpInv lb 0]) ∧
    (∀ fst n, lb.state ≠ .granted → lb.state ≠ .recalling → exec (.bisnpdata m fst n) s = .next s ∧ exec (.bisnpinv m fst n) s = .next s)) ∧
  exec (.refused m) s = .next s

/-- R343, R344, R353. The clock's transitions: at EXPIRY a GRANTED entry becomes EXPIRED, a borrowed one flushing; at EXPIRY − WBLEAD a borrower's prefetch stops and local pages go back, as do those still local later;
when RCWIN passes without an answer an offer is freed and a recall or expiry has FAILED; before these times nothing happens. A flush with nothing left
to write back ends with RELEASE; prefetch asks for pages of its range that are neither local nor asked for. -/
def Sys2Proof.Says.LeaseClock : Prop := ∀ s i, mwf Lease.none s.leases = true → mrising s.hub.lse.bor = true → s.lates = [] →
  let l := s.lease i
  let goes (ins : Instr) (p : State → Prop) : Prop := ∃ t', exec ins s = .next t' ∧ p t'
  (∀ e, l.state = .granted → l.expiry = some e → e ≤ s.mstime →
    (l.role = .lent → goes (.leaseExpiry i) fun t' => EntryIs s t' i { l with state := .expired } ∧ t'.evq = s.evq ∧ t'.mem = s.mem ∧
      mget? t'.hub.lse.until_ i = some (s.mstime + s.hub.lse.cfg.rcwin)) ∧
    (l.role = .borrowed → NoneDirty s → goes (.leaseExpiry i) fun t' => EntryIs s t' i { l with state := .expired } ∧ Posted s t' 5 i ∧ (t'.bor i).flush = true)) ∧
  (l.state ≠ .granted ∨ l.expiry = none ∨ (∃ e, l.expiry = some e ∧ s.mstime < e) → exec (.leaseExpiry i) s = .next s) ∧
  (∀ e, l.state = .granted → l.role = .borrowed → l.expiry = some e → e ≤ s.mstime + s.hub.lse.cfg.wblead → i ∉ s.hub.lse.wblead → NoneDirty s →
    goes (.wbleadExpiry i) fun t' => EntryIs s t' i { l with pfon := false } ∧ t'.evq = s.evq ∧ (t'.bor i).pages = [] ∧ i ∈ t'.hub.lse.wblead) ∧
  (∀ e, l.state = .granted → l.role = .borrowed → l.expiry = some e → e ≤ s.mstime + s.hub.lse.cfg.wblead → i ∈ s.hub.lse.wblead → NoneDirty s →
    goes (.wbleadExpiry i) fun t' => t'.leases = s.leases ∧ t'.evq = s.evq ∧ (t'.bor i).pages = []) ∧
  (l.state ≠ .granted ∨ l.role ≠ .borrowed ∨ l.expiry = none ∨ (∃ e, l.expiry = some e ∧ s.mstime + s.hub.lse.cfg.wblead < e) →
    exec (.wbleadExpiry i) s = .next s) ∧
  (mget? s.hub.lse.until_ i = none ∨ l.role ≠ .lent → exec (.rcwinExpiry i) s = .next s) ∧
  (∀ u, mget? s.hub.lse.until_ i = some u → l.role = .lent →
    (s.mstime < u → exec (.rcwinExpiry i) s = .next s) ∧
    (u ≤ s.mstime → (l.state = .offered → goes (.rcwinExpiry i) fun t' => EntryIs s t' i { l with state := .free } ∧ t'.evq = s.evq) ∧
      (l.state = .recalling ∨ l.state = .expired → goes (.rcwinExpiry i) fun t' => EntryIs s t' i { l with state := .failed } ∧ Posted s t' 3 i))) ∧
  ((s.bor i).flush = true → (s.bor i).asked = [] → (s.bor i).pages = [] → s.copies = [] → s.unpushed = [] → s.windowBusy i = false → l.role = .borrowed → (l.state = .recalling ∨ l.state = .expired) →
    goes (.leaseFlushComplete i) fun t' => EntryIs s t' i { l with released := true } ∧ Sent s t' [noteOf s .release l 0] ∧ t'.mem = s.mem ∧ t'.evq = s.evq) ∧
  ((s.bor i).flush = false ∨ (s.bor i).asked ≠ [] ∨ s.windowBusy i = true → exec (.leaseFlushComplete i) s = .next s) ∧
  goes (.leasePrefetch i) fun t' => t'.leases = s.leases ∧ ∀ x ∈ (t'.bor i).asked, x ∈ (s.bor i).asked ∨
    (l.state = .granted ∧ l.role = .borrowed ∧ l.pfon = true ∧ (s.bor i).first ≤ x.page ∧ x.page < (s.bor i).first + (s.bor i).count ∧ x.back = false ∧
      (∀ p ∈ (s.bor i).pages, p.1 ≠ x.page) ∧ ∀ y ∈ (s.bor i).asked, y.page ≠ x.page)

namespace Sys2Proof.Machine

/-- A field of `n` bytes in memory by DPA, little-endian. -/
def State.field (s : State) (a n : Nat) : Nat := leNat ((upto n).map fun i => s.byte (a + i))

/-- Bytes at a DPA are `bs`. -/
def Holds (s : State) (a : Nat) (bs : List Byte) : Prop := ∀ i < bs.length, s.byte (a + i) = nth 0 bs i

/-- `n` bytes at a DPA lie in populated HBM or in the pool. -/
def Populated (a n : Nat) : Prop := (a + n ≤ 768 * gib) ∨ (tib ≤ a ∧ a + n ≤ 3 * tib)

/-- `n` bytes at a DPA that the checkpoint engine may use as its own: populated, and none in an extent that backs HSS (R328, R334). -/
def Usable (s : State) (a n : Nat) : Prop := Populated a n ∧ ∀ e, s.hssExtent e = true → a + n ≤ tib + e * gib ∨ tib + (e + 1) * gib ≤ a

/-- A SNAP descriptor at `x` that R334 accepts. -/
structure SnapOk (s : State) (x : Nat) : Prop where
  aligned  : s.field x 8 % 4096 = 0 ∧ s.field (x + 0x10) 8 % 64 = 0 ∧ s.field (x + 0x18) 8 % 64 = 0 ∧ s.field (x + 0x20) 8 % 64 = 0
  reserved : bits (s.field (x + 0xC) 4) 30 13 = 0 ∧ (bitAt (s.field (x + 0xC) 4) 31 = true ∨ s.field (x + 0xC) 4 % 2 ^ 12 = 0) ∧ s.field (x + 0x28) 24 = 0
  count    : 1 ≤ s.field (x + 8) 4 ∧ s.field (x + 8) 4 ≤ 2 ^ 28
  apart    : ∀ m, m = s.field (x + 0x18) 8 ∨ m = s.field (x + 0x10) 8 ∧ m ≠ 0 →
    (m + 128 + 64 * s.field (x + 8) 4 ≤ s.field x 8 ∨ s.field x 8 + 4096 * s.field (x + 8) 4 ≤ m) ∧ Usable s m (128 + 64 * s.field (x + 8) 4)
  source   : Populated (s.field x 8) (4096 * s.field (x + 8) 4)
  dest     : bitAt (s.field (x + 0xC) 4) 31 = true ∨ Usable s (s.field (x + 0x20) 8) 1

/-- The checkpoint engine with other contents. -/
def State.withDce (s : State) (x : Dce) : State := { s with hub := { s.hub with dce := x } }

/-- The agent-side machine is calm: no election runs, and no bid or confirm stands in the bulletin. -/
def Calm (s : State) : Prop := s.hub.lse.el.phase = .idle ∧ s.hub.lse.el.todo = [] ∧ s.hub.lse.el.next = none ∧ (∀ k, 8 ≤ k → s.bullWord k = 0) ∧
  mrising s.hub.lse.bull = true

/-- A read of a peer's bulletin comes back (R340, R348): over a port that is not down, from another module that has not died, or that has booted
again since. -/
def Seen (s : State) (o : PeerObs) : Prop := o.mid ≠ s.hub.flash.mid ∧ o.port < 8 ∧ (∀ x, mget? s.hub.lse.ports o.port = some x → x.up = true ∧ x.cxl = true) ∧
  ∀ p, mget? s.hub.lse.peers o.mid = some p → p.silent = false ∨ p.incarn < o.incarn

/-- Byte `k` of a word. -/
def wordByte (w : DWord) (k : Nat) : Nat := w.toNat / 2 ^ (8 * k) % 256

end Sys2Proof.Machine

/-- R334, R338. SNAP with a good descriptor, and SCRUB with an extent number and a receipt buffer, are queued while fewer than 16 operations are, and give
their number on t10; a misaligned address takes TC_ALIGN, a reserved field TC_RESFIELD, and nothing is queued. -/
def Sys2Proof.Says.CheckpointInstructions : Prop := ∀ s g b l0 ls t0, Leads s g b l0 ls t0 → ∀ (d a f : BitVec 7),
  let o := s.opened g b
  let on := l0 :: ls
  let x := b.un t0 a 0 + 2 ^ 32 * b.un t0 a 1
  let n := s.hub.dce.next
  let queue (op : DceOp) : State := o.withDce { o.hub.dce with ops := o.hub.dce.ops ++ [op], next := n + 1 }
  (Passes b g [wV d 2, rU a 2] [] →
    (x % 64 ≠ 0 → Refuses (.snap d a) s g b 0x08 (BitVec.ofNat 64 x)) ∧
    (x % 64 = 0 → Usable s x 64 → s.dataError x true = false →
      (SnapOk s x → s.hub.dce.ops.length < 16 → exec (.snap d a) s = .next (gaveAll (queue (.snap n (s.field x 8) (s.field (x + 8) 4)
        (bitAt (s.field (x + 0xC) 4) 31) (bitAt (s.field (x + 0xC) 4) 12) (s.field (x + 0xC) 4 % 2 ^ 12) (s.field (x + 0x10) 8) (s.field (x + 0x18) 8)
        (s.field (x + 0x20) 8))) g on [wV d 2, rU a 2] d (twoWords n))) ∧
      (SnapOk s x → 16 ≤ s.hub.dce.ops.length → ∃ t', exec (.snap d a) s = .next t' ∧ t'.hub.dce = s.hub.dce ∧ t'.mem = s.mem ∧ ∀ l ∈ on, ∀ t,
        mget? b.threads l = some t → (t'.thread? g.place l).map (fun y => (y.polled, y.pc)) = some (some .engine, t.pc)) ∧
      (s.field x 8 % 4096 = 0 → s.field (x + 0x10) 8 % 64 = 0 → s.field (x + 0x18) 8 % 64 = 0 → s.field (x + 0x20) 8 % 64 = 0 →
        (bits (s.field (x + 0xC) 4) 30 13 ≠ 0 ∨ s.field (x + 0x28) 24 ≠ 0 ∨ s.field (x + 8) 4 = 0 ∨ 2 ^ 28 < s.field (x + 8) 4) →
        Refuses (.snap d a) s g b 0x02 (wordVal g.w g.w2)))) ∧
  (Passes b g [wV d 2, rU a 2, rU f 2] [] →
    let e := b.un t0 f 0
    (2 ^ 11 ≤ e → Refuses (.scrub d a f) s g b 0x02 (wordVal g.w g.w2)) ∧
    (e < 2 ^ 11 → x % 256 ≠ 0 → Refuses (.scrub d a f) s g b 0x08 (BitVec.ofNat 64 x)) ∧
    (e < 2 ^ 11 → x % 256 = 0 → s.dpaFault x 256 = none → s.hub.dce.ops.length < 16 →
      exec (.scrub d a f) s = .next (gaveAll (queue (.scrub n e (b.u t0 (f.toNat + 1)) x)) g on [wV d 2, rU a 2, rU f 2] d (twoWords n))))

/-- R335 to R337, R339. A SNAP that is not for a peer ends with its header at NMAN (SRC, NBLK, the commit epoch, its number) and t10 at its number; against
another manifest than the source's it is REFUSED and writes the header alone; a full image of one good block writes its record and its entry. A SCRUB of
an extent that is lent or backs HSS is REFUSED; one of a good extent leaves it zero, with a CLEAN receipt. -/
def Sys2Proof.Says.CheckpointRuns : Prop := ∀ s, Canonical s → s.confW 0 = false → s.hub.dce.hdr = none → s.hub.dce.sent = 0 →
  (∀ num src nblk conf mid pman nman dst rest, s.hub.dce.ops = .snap num src nblk false conf mid pman nman dst :: rest →
    Populated nman (128 + 64 * nblk) →
    let t10 (t' : State) : Prop := t'.hub.dce.ops = rest ∧ t'.hub.dce.done = num
    let wrong : Prop := pman ≠ 0 ∧ (s.field pman 8 ≠ src ∨ s.field (pman + 8) 4 ≠ nblk)
    (wrong → ∃ t' root, exec .snapExecute s = .next t' ∧ t10 t' ∧ Holds t' nman (manHeader src nblk 2 s.epoch 0 0 0 num root) ∧
      ∀ x, (x < nman ∨ nman + 128 ≤ x) → t'.byte x = s.byte x) ∧
    (¬ wrong → ∃ t' k bad root, exec .snapExecute s = .next t' ∧ t10 t' ∧ k + bad ≤ nblk ∧ root.length = 48 ∧
      Holds t' nman (manHeader src nblk (if bad = 0 then 0 else 1) s.epoch k bad (k * if conf then 4608 else 4096) num root)) ∧
    (pman = 0 → nblk = 1 → conf = false → src % 4096 = 0 → (∀ i < 64, s.dataError (src + 64 * i) true = false) → dst % 64 = 0 → nman % 64 = 0 → Usable s dst 4096 →
      (dst + 4096 ≤ src ∨ src + 4096 ≤ dst) → (dst + 4096 ≤ nman ∨ nman + 192 ≤ dst) →
      ∃ t', exec .snapExecute s = .next t' ∧
        (∀ i < 4096, t'.byte (dst + i) = s.byte (src + i)) ∧ (∀ i < 64, t'.tag (dst / 64 + i) = s.tag (src / 64 + i)) ∧
        Holds t' (nman + 128) (sha384 ((upto 4096).map (fun i => s.byte (src + i)) ++ (upto 64).flatMap fun i => natLe 2 (s.tag (src / 64 + i)).toNat) ++
          natLe 4 0 ++ natLe 4 1 ++ natLe 8 src))) ∧
  (∀ num ext nonce rcpt rest, s.hub.dce.ops = .scrub num ext nonce rcpt :: rest → ext < 2048 → Populated rcpt 256 →
    let base := tib + ext * gib
    let t10 (t' : State) : Prop := t'.hub.dce.ops = rest ∧ t'.hub.dce.done = num
    (s.lentExtent ext = true ∨ s.hssExtent ext = true → ∃ t', exec .scrubExecute s = .next t' ∧ t10 t' ∧ Holds t' rcpt (receipt ext nonce 2 0 0 0 0 s.incarn) ∧
      ∀ x, (x < rcpt ∨ rcpt + 256 ≤ x) → t'.byte x = s.byte x) ∧
    (s.lentExtent ext = false → s.hssExtent ext = false → (∀ p ∈ s.retired, p < base / 65536 ∨ base / 65536 + 16384 ≤ p) →
      (∀ y ∈ s.bad, y < base / 64 ∨ base / 64 + 2 ^ 24 ≤ y) → s.lates = [] → ∃ t', exec .scrubExecute s = .next t' ∧ t10 t' ∧
        Holds t' rcpt (receipt ext nonce 0 (2 ^ 24) 0 0 0 s.incarn) ∧
        (∀ x, base ≤ x → x < base + gib → (x < rcpt ∨ rcpt + 256 ≤ x) → t'.byte x = 0) ∧ (∀ y, base / 64 ≤ y → y < base / 64 + 2 ^ 24 → t'.tag y = tag0) ∧
        ∀ x, (x < base ∨ base + gib ≤ x) → (x < rcpt ∨ rcpt + 256 ≤ x) → t'.byte x = s.byte x))

/-- R26, R43, R214, R326, R386. An eviction of a committed line changes no value; one of a line of a task's version sends it to HSS; a page that may move starts to, and each of its lines then has its new home
with its value; the classifier's window ends; a thermal limit lowers the clock a step and posts THERMAL; a power failure is a device-level error.
The model's own choices it rests on: log entries 77, 96. -/
def Obligations.ModuleEvents : Prop := ∀ s,
  let goes (i : Instr) (p : State → Prop) : Prop := ∃ t', exec i s = .next t' ∧ p t'
  let posts (t' : State) (kind : Nat) : Prop :=
    let k := (s.ctlReg 0x58).toNat % 16
    (mget [] s.evq k).length < 1024 → ∃ r, mget [] t'.evq k = mget [] s.evq k ++ [r] ∧ (nth 0 r.words 0).toNat % 256 = kind
  (∀ line, goes (.sdcEvict line .committed) fun t' => t'.mem = s.mem ∧ t'.tags = s.tags ∧ t'.jrnl = s.jrnl ∧ t'.tasks = s.tasks ∧
    ∀ x ∈ t'.hub.sdc.lines, x.line ≠ line ∨ x.upto ≠ none) ∧
  (∀ line e, (∀ x ∈ s.hub.sdc.lines, x.line ≠ line ∨ x.upto ≠ some e) → exec (.sdcEvict line (.retained e)) s = .next s) ∧
  (∀ line e, (∃ x ∈ s.hub.sdc.lines, x.line = line ∧ x.upto = some e) → (∀ x ∈ s.hub.sdc.lines, x.line = line → x.hss = false) → (∀ k ∈ s.tasks, e ≤ k.2.snap) →
    goes (.sdcEvict line (.retained e)) fun t' => t'.mem = s.mem ∧ t'.jrnl = s.jrnl ∧ t'.tasks = s.tasks ∧ ∀ x ∈ t'.hub.sdc.lines, x.line ≠ line ∨ x.upto ≠ some e) ∧
  (∀ line k t, s.task? k = some t →
    (line ∈ t.vblocks → line ∉ t.vout → goes (.sdcEvict line (.version k)) fun t' => t'.mem = s.mem ∧ t'.jrnl = s.jrnl ∧
      t'.tasks = mset s.tasks k { t with vout := line :: t.vout }) ∧
    (line ∉ t.vblocks ∨ line ∈ t.vout → exec (.sdcEvict line (.version k)) s = .next s)) ∧
  (∀ src dst,
    let may : Prop := s.placeablePage src = true ∧ s.placeablePage dst = true ∧ src ≠ dst ∧ s.pinnedDpa src = false ∧
      (∀ m ∈ s.hub.plc.migr, m.1 ≠ src ∧ m.2 ≠ dst) ∧ ∀ e ∈ s.hub.plc.homes, e.2 / 1024 ≠ dst
    (dpaKind (65536 * src) ≠ .window ∨ (s.bor (leaseAt (65536 * src))).pages = []) →
    (may → exec (.pageMigration src dst) s = .next { s with hub := { s.hub with plc := { s.hub.plc with migr := (src, dst) :: s.hub.plc.migr } } }) ∧
    (¬ may → exec (.pageMigration src dst) s = .next s)) ∧
  (∀ line, (∀ m ∈ s.hub.plc.migr, m.1 ≠ line / 1024) → exec (.migrationSwitchover line) s = .next s) ∧
  (∀ line dst rest, s.hub.plc.migr = (line / 1024, dst) :: rest → dst ≠ line / 1024 → goes (.migrationSwitchover line) fun t' =>
    t'.homeOf line = 1024 * dst + line % 1024 ∧ t'.mem = s.mem ∧ t'.tags = s.tags ∧ (∀ x ≠ line, t'.homeOf x = s.homeOf x) ∧
    (t'.hub.plc.migr = s.hub.plc.migr ∨ ∀ m ∈ t'.hub.plc.migr, m.1 ≠ line / 1024)) ∧
  (goes .classifierWindow fun t' => t'.mem = s.mem ∧ t'.hub.clsf.map (fun c => (c.world, c.domain, c.ops)) = s.hub.clsf.map (fun c => (c.world, c.domain, 0)) ∧
    t'.hub.clsf.map (fun c => c.last.map Prod.fst) = s.hub.clsf.map fun c => some c.ops) ∧
  (goes .thermalLimit fun t' => t'.hub.clock = s.hub.clock + 1 ∧ t'.mem = s.mem ∧ posts t' 10) ∧
  (goes .powerFailure fun t' => t'.hub.devErr = true ∧ t'.mem = s.mem ∧ posts t' 5)

/-- R348 to R350, R352. A heartbeat tick counts HBEAT up and records what a peer's bulletin shows, where a port carries it; a peer silent for FAILT ms, or with every path to it down, is
excluded, and every entry that names it is FAILED; bulletin accesses of 4 or 8 bytes read, write or add a word, an excluded peer's writes having no effect; a lone
candidate whose settle has passed becomes manager of its epoch.
The model's own choices it rests on: log entries 30, 90, 91, 117. -/
def Obligations.PeersAndElection : Prop := ∀ s,
  let goes (i : Instr) (p : State → Prop) : Prop := ∃ t', exec i s = .next t' ∧ p t'
  let own := s.hub.flash.mid
  (∀ obs, s.mstime ≤ s.hub.lse.beat → exec (.hbeatTick obs) s = .next s) ∧
  (∀ obs, s.hub.lse.beat < s.mstime → Calm s → (∀ o ∈ obs, s.mgr ≠ some o.mid) → goes (.hbeatTick obs) fun t' => t'.bullWord 0 = s.bullWord 0 + 1 ∧
    t'.hub.lse.beat = s.mstime ∧ t'.mem = s.mem ∧ t'.leases = s.leases ∧ ∀ o, obs = [o] →
      (¬ Seen s o → t'.hub.lse.peers = s.hub.lse.peers) ∧
      (Seen s o → mget? t'.hub.lse.peers o.mid = some (match mget? s.hub.lse.peers o.mid with
        | none => ⟨o.hbeat, s.mstime, o.incarn, none, [o.port], false⟩
        | some p => ⟨o.hbeat, if o.hbeat = p.hbeat then p.at_ else s.mstime, o.incarn, match p.excl with
          | some r => if o.incarn ≤ r then some r else none
          | none => none, insertNat p.paths o.port, false⟩))) ∧
  (∀ mid p, mget? s.hub.lse.peers mid = some p → p.excl = none →
    (s.mstime < p.at_ + s.hub.lse.cfg.failt → s.pathsDown mid = false → exec (.peerDeclaredFailed mid) s = .next s) ∧
    ((p.at_ + s.hub.lse.cfg.failt ≤ s.mstime ∨ s.pathsDown mid = true) → Calm s → s.mgr ≠ some mid → mwf Lease.none s.leases = true →
      s.lates = [] → (∀ r ∈ s.remotes, r.line = none) → (∀ i, (s.bor i).asked = []) →
      goes (.peerDeclaredFailed mid) fun t' => mget? t'.hub.lse.peers mid = some { p with excl := some p.incarn } ∧ t'.mem = s.mem ∧
        ∀ i, let l := s.lease i
          let names : Prop := (l.state = .offered ∨ l.state = .granted ∨ l.state = .recalling ∨ l.state = .expired) ∧ (if l.role = .lent then l.borrower else l.lender) = mid
          (names → t'.lease i = { l with state := .failed }) ∧ (¬ names → t'.lease i = l))) ∧
  (∀ port, port < 8 → goes (.linkDown port) fun t' => (mget? t'.hub.lse.ports port).map Port.up = some false ∧ (∀ q ≠ port,
      mget? t'.hub.lse.ports q = mget? s.hub.lse.ports q) ∧ t'.mem = s.mem) ∧
  (∀ port cxl w, port < 8 → (w = 16 ∨ w = 8 ∨ w = 4) → goes (.linkUp port cxl w) fun t' => t'.mem = s.mem ∧ t'.hub.lse.ports = mset s.hub.lse.ports port ⟨true, cxl, w⟩ ∧
    (Calm s → t' = { s with hub := { s.hub with lse := { s.hub.lse with ports := mset s.hub.lse.ports port ⟨true, cxl, w⟩ } } })) ∧
  (∀ r, s.reaches r.mid = false → exec (.bulletinAccess r) s = .next s) ∧
  (∀ mid off z, (z = 4 ∨ z = 8) → off < 4096 → off % z = 0 → s.reaches mid = true →
    let i := off / 8
    let old := BitVec.ofNat 64 ((s.bullWord i).toNat / 2 ^ (8 * (off % 8)) % 2 ^ (8 * z))
    let becomes (t' : State) (v : DWord) : Prop := t'.mem = s.mem ∧ (∀ k ≠ i, t'.bullWord k = s.bullWord k) ∧ ∃ w, t'.bullWord i = w &&& bullMask i ∧
      ∀ k < 8, wordByte w k = if off % 8 ≤ k ∧ k < off % 8 + z then wordByte v (k - off % 8) else wordByte (s.bullWord i) k
    (exec (.bulletinAccess ⟨mid, off, z, .read⟩) s = .next { s with hub := { s.hub with outbox := s.hub.outbox ++ [.word mid old] } }) ∧
    (∀ v p r, mget? s.hub.lse.peers mid = some p → p.excl = some r → exec (.bulletinAccess ⟨mid, off, z, .write v⟩) s = .next s ∧
      exec (.bulletinAccess ⟨mid, off, z, .fetchAdd v⟩) s = .next s) ∧
    (∀ v, (∀ p, mget? s.hub.lse.peers mid = some p → p.excl = none) → Calm s → off < 0x40 →
      goes (.bulletinAccess ⟨mid, off, z, .write v⟩) (fun t' => becomes t' v) ∧
      goes (.bulletinAccess ⟨mid, off, z, .fetchAdd v⟩) fun t' => becomes t' (old + v) ∧ Sent s t' [.word mid old])) ∧
  (Calm s → exec .settleExpiry s = .next s) ∧
  (s.hub.lse.el.phase = .settle → s.hub.lse.el.todo = [] → s.hub.lse.el.next = none → s.laterEpoch = none → s.livePeers = [] → s.bestBid s.eEpoch = some own →
    s.hub.lse.el.until_ ≤ s.mstime → own < 4096 → mrising s.hub.lse.bull = true → goes .settleExpiry fun t' => t'.mgr = some own ∧ t'.eEpoch = s.eEpoch ∧ t'.hub.lse.el.phase = .idle ∧
      Posted s t' 4 0)

/-- R40, R264, R335, R340, R359, R366. An acknowledgement of a module that is reached ends one outstanding remote write: a snoop's answer gives 0 to the lanes that wait for it. A borrower's
request reads or writes a line of an extent lent to it, and of no other; of a line that commits here changed and no fabric-scope release pushed it
reads what stood there before (R30). A host reads, writes or adds to memory, or reads and writes MMIO.
The model's own choices it rests on: log entries 17, 30, 90, 93, 97, 117. -/
def Obligations.FabricRequests : Prop := ∀ s,
  let goes (i : Instr) (p : State → Prop) : Prop := ∃ t', exec i s = .next t' ∧ p t'
  let answers (m : OutMsg) : State := { s with hub := { s.hub with outbox := s.hub.outbox ++ [m] } }
  (∀ k st, s.remotes[k]? = none → exec (.remoteWriteAck k st) s = .next s) ∧
  (∀ k st r, s.remotes[k]? = some r → s.reaches r.mid = false → exec (.remoteWriteAck k st) s = .next s) ∧
  (∀ k st r, s.remotes[k]? = some r → s.reaches r.mid = true →
    (r.queue = 0x10000 → s.hub.dce.hdr = none → exec (.remoteWriteAck k st) s = .next ({ s with remotes := s.remotes.eraseIdx k }.withDce
      { s.hub.dce with sent := s.hub.dce.sent - 1 })) ∧
    (r.queue = 0x30000 → goes (.remoteWriteAck k st) fun t' => t'.remotes = s.remotes.eraseIdx k ∧ t'.mem = s.mem ∧ ∀ p l t, s.thread? p l = some t →
      (t'.thread? p l).map (fun x => x.out) = some (t.out.map fun o => match o with
        | .await i x => if x = r.op then .vec i 0 else .await i x
        | o => o)) ∧
    (r.queue = 0x40000 → exec (.remoteWriteAck k st) s = .next { s with remotes := s.remotes.eraseIdx k }) ∧
    (∀ q x, r.queue < 0x10000 → mget? s.queues q = some x → q = qKey x.qid → (∀ e ∈ s.queues, (∃ o ∈ e.2.ops, o.n = r.op ∧ o.prog.sq = r.queue) → e.1 = q) →
      (∃ o ∈ x.ops, o.n = r.op ∧ o.prog.sq = r.queue) → ∀ f : BProg → BProg, (st = .stale ∧ (f = fun p => { p with sent := p.sent - 1, status := 4 })) ∨
        (∃ fl, st = .done fl ∧ f = fun p => { p with sent := p.sent - 1, flags := p.flags ||| fl }) →
      let y : BQueue := { x with ops := x.ops.map fun o => if o.n = r.op then { o with prog := f o.prog } else o }
      exec (.remoteWriteAck k st) s = .next { s with remotes := s.remotes.eraseIdx k, queues := mset s.queues q y })) ∧
  (∀ mid dpa w, s.reaches mid = false → exec (.cxlMemRequest ⟨mid, dpa, w⟩) s = .next s) ∧
  (∀ mid dpa w, s.reaches mid = true →
    let a := dpa / 64 * 64
    let lent : Prop := dpaKind a = .pool ∧ ∃ e ∈ s.leases, e.2.role = .lent ∧ e.2.borrower = mid ∧ e.2.ext = (a - tib) / gib ∧
      (e.2.state = .granted ∨ e.2.state = .recalling ∨ e.2.state = .expired)
    (¬ lent → exec (.cxlMemRequest ⟨mid, dpa, w⟩) s = .next (answers (.nothing mid))) ∧
    (lent → w = none → s.dataError a true = false → let x := (mget? s.unpushed (a / 64)).getD ((upto 64).map fun i => s.byte (a + i), s.tag (a / 64))
      exec (.cxlMemRequest ⟨mid, dpa, w⟩) s = .next (answers (.line mid x.1 x.2))) ∧
    (∀ bs t, lent → w = some (bs, t) → bs.length = 64 → Canonical s → s.confW 0 = false → goes (.cxlMemRequest ⟨mid, dpa, w⟩) fun t' => Holds t' a bs ∧
      t'.tag (a / 64) = t ∧ t'.hub.outbox = s.hub.outbox ∧ ∀ x, (x < a ∨ a + 64 ≤ x) → t'.byte x = s.byte x)) ∧
  (∀ a n, s.hub.lse.ports = [] ∨ (∃ e ∈ s.hub.lse.ports, e.2.up = true) → dpaKind a ≠ .mmio → 1 ≤ n → s.dpaFault a n = none → (∀ x, a ≤ x → x < a + n → s.dataError x true = false) → Canonical s → s.confW 0 = false →
    exec (.pcieMemoryRequest ⟨a, .read n⟩) s = .next (answers (.bytes ((upto n).map fun i => s.byte (a + i)))) ∧
    (∀ bs, bs.length = n → goes (.pcieMemoryRequest ⟨a, .write bs⟩) fun t' => Holds t' a bs ∧ ∀ x, (x < a ∨ a + n ≤ x) → t'.byte x = s.byte x) ∧
    (∀ v, n = 8 → a % 8 = 0 → goes (.pcieMemoryRequest ⟨a, .fetchAdd v⟩) fun t' => Sent s t' [.bytes ((upto 8).map fun i => s.byte (a + i))] ∧
      Holds t' a (natLe 8 (s.field a 8 + v.toNat)) ∧ ∀ x, (x < a ∨ a + 8 ≤ x) → t'.byte x = s.byte x)) ∧
  (∀ a bs, s.hub.lse.ports = [] ∨ (∃ e ∈ s.hub.lse.ports, e.2.up = true) → dpaKind a = .mmio → (bs.length = 4 ∨ bs.length = 8) → a % bs.length = 0 →
    exec (.pcieMemoryRequest ⟨a, .write bs⟩) s = .next (s.mmioWrite a bs.length (BitVec.ofNat 64 (leNat bs)))) ∧
  (∀ a n, s.hub.lse.ports = [] ∨ (∃ e ∈ s.hub.lse.ports, e.2.up = true) → dpaKind a = .mmio → (n = 4 ∨ n = 8) → a % n = 0 → exec (.pcieMemoryRequest ⟨a, .read n⟩) s =
    .next ((s.mmioRead a n).2.send (.bytes (natLe n (s.mmioRead a n).1.toNat))))

/-- R378, R380, R381, R384. The SPDM responder: version 1.3; the algorithms; the identity key's chain in slot 0; measurement i + 1 is `meas`i, 0xFF all sixteen; slot 0 alone; sessions begin with KEY_EXCHANGE,
are complete after FINISH, end with END_SESSION; RESYNC is answered inside a complete session of an approved requester, SEQ counted up; anything else is
UnsupportedRequest. An export is sent for an EXPORTING record only; acknowledged, the record is RETIRED; refused or unanswered, it stays. A peer's
export takes a FREE record, is acknowledged again when the same, and else refused.
The model's own choices it rests on: log entries 19, 81, 115. -/
def Obligations.ResponderAndExport : Prop := ∀ s, mrising s.ctl = true →
  let answers (t' : State) (m : OutMsg) : Prop := t' = { s with hub := { s.hub with outbox := s.hub.outbox ++ [m] } }
  let sends (i : Instr) (ses code : Nat) (body : List Byte) : Prop := ∃ t', exec i s = .next t' ∧ answers t' (.spdm ses code body)
  let free (i : Instr) (m : Nat → OutMsg) : Prop := ∃ t' n k, exec i s = .next t' ∧ answers { t' with draws := k } (m n) ∧ k = s.draws
  let open_ (ses : Nat) : Prop := ∃ x ∈ s.hub.trt.sess, x.id = ses
  (∀ ses, sends (.getVersion ses) ses 0x04 [0x13] ∧ free (.getCapabilities ses) (.spdmFree ses 0x61) ∧
    free (.negotiateAlgorithms ses) (fun n => .algorithms ses n [.ecdsaP384, .sha384, .ecdheSecp384r1, .aes256gcm]) ∧
    free (.getDigests ses) (.spdmFree ses 0x01) ∧ free (.challenge ses) (.spdmFree ses 0x03) ∧ free (.getCertificate ses 0) (fun n => .certificate ses n deviceId) ∧
    (∀ slot ≠ 0, sends (.getCertificate ses slot) ses 0x7F [0x07]) ∧
    (∀ i : BitVec 8, (1 ≤ i.toNat → i.toNat ≤ 16 → sends (.getMeasurements ses i) ses 0x60 (s.meas (i.toNat - 1))) ∧
      (i = 0xFF → sends (.getMeasurements ses i) ses 0x60 ((upto 16).flatMap s.meas)) ∧
      (17 ≤ i.toNat → i ≠ 0xFF → sends (.getMeasurements ses i) ses 0x7F [0x07])) ∧
    (∀ ok, ∃ t', exec (.keyExchange ses ok) s = .next t' ∧ t'.hub.trt.sess = ⟨ses, false, ok⟩ :: s.hub.trt.sess.filter (fun x => x.id ≠ ses) ∧ t'.mem = s.mem) ∧
    (open_ ses →
      (∃ t', exec (.finish ses) s = .next t' ∧ t'.mem = s.mem ∧ t'.hub.trt.sess = s.hub.trt.sess.map fun x => if x.id = ses then { x with finished := true } else x) ∧
      sends (.heartbeat ses) ses 0x68 [] ∧ free (.keyUpdate ses) (.spdmFree ses 0x69) ∧
      ∃ t', exec (.endSession ses) s = .next t' ∧ t'.mem = s.mem ∧ t'.hub.trt.sess = s.hub.trt.sess.filter fun x => x.id ≠ ses) ∧
    (¬ open_ ses → ∀ i ∈ [Instr.finish ses, .heartbeat ses, .keyUpdate ses, .endSession ses, .spdmResync ses], sends i ses 0x7F [0x07]) ∧
    (∀ x, s.hub.trt.sess.find? (fun y => y.id = ses) = some x →
      (x.finished = true → x.approved = true → ∃ t' bs, exec (.spdmResync ses) s = .next t' ∧ t'.hub.trt.seq = s.hub.trt.seq + 1 ∧ t'.mem = s.mem ∧
        Sent s t' [.spdm ses 0x7E bs] ∧ bs.take 16 = natLe 8 1 ++ natLe 8 (s.hub.trt.seq + 1)) ∧
      (x.finished = false ∨ x.approved = false → sends (.spdmResync ses) ses 0x7F [0x07]))) ∧
  (let x := (s.ctlReg 0x50).toNat
   let r := s.crec (bits x 15 8)
   s.stat 0x50 = 0xFF → s.hub.trt.exp = none →
    (r.st ≠ .exporting → ∃ t', exec .xpeerExport s = .next t' ∧ t'.stat 0x50 = 2 ∧ t'.hub.trt = s.hub.trt ∧ t'.hub.outbox = s.hub.outbox) ∧
    (r.st = .exporting → ∃ t' m, exec .xpeerExport s = .next t' ∧ Sent s t' [.record m] ∧ t'.hub.trt.exp = some m ∧ t'.stat 0x50 = 0xFF ∧ m.mid = bits x 63 52 ∧
      m.idx = bits x 15 8 ∧ m.value = BitVec.ofNat 64 r.value ∧ m.origin = r.origin ∧ m.world = bits x 31 24)) ∧
  (∀ m y, s.hub.trt.exp = some m →
    (y.mid = m.mid → y.idx = m.idx →
      (∃ t', exec (.recordExportAck y) s = .next t' ∧ t'.crec m.idx = { s.crec m.idx with st := .retired } ∧ t'.stat 0x50 = 0 ∧ t'.hub.trt.exp = none ∧ t'.mem = s.mem) ∧
      ∃ t', exec (.recordBusy y) s = .next t' ∧ t'.hub.trt = { s.hub.trt with exp := none } ∧ t'.stat 0x50 = 2 ∧ t'.mem = s.mem) ∧
    (y.mid ≠ m.mid ∨ y.idx ≠ m.idx → exec (.recordExportAck y) s = .next s ∧ exec (.recordBusy y) s = .next s) ∧
    ∃ t', exec .recordExportTimeout s = .next t' ∧ t'.hub.trt = { s.hub.trt with exp := none } ∧ t'.stat 0x50 = 1 ∧ t'.mem = s.mem) ∧
  (∀ x, x.idx < 256 →
    let r := s.crec x.idx
    let same : Prop := r = ⟨.live, x.world, x.value.toNat, x.origin⟩
    (r.st = .free → ∃ t', exec (.recordExport x) s = .next t' ∧ t'.crec x.idx = ⟨.live, x.world, x.value.toNat, x.origin⟩ ∧ Sent s t' [.recordAck x] ∧ t'.mem = s.mem) ∧
    (r.st ≠ .free → same → ∃ t', exec (.recordExport x) s = .next t' ∧ answers t' (.recordAck x)) ∧
    (r.st ≠ .free → ¬ same → ∃ t', exec (.recordExport x) s = .next t' ∧ answers t' (.recordBusy x)))

namespace Sys2Proof.Machine

/-- The DPA of a control-block register (Table 14.3). -/
def ctlAddr (off : Nat) : Nat := mmioBase + 3 * 2 ^ 32 + off

/-- A command stands in a command register whose STAT is 0xFF. -/
def Commanded (s : State) (off code : Nat) : Prop := s.stat off = 0xFF ∧ bits (s.ctlReg off).toNat 9 8 = code

/-- A control-block register as a Nat. -/
def State.creg (s : State) (off : Nat) : Nat := (s.ctlReg off).toNat

/-- The event of a kind is in the EVROUTE steward's queue, if it had room. -/
def PostedKind (s t' : State) (kind : Nat) : Prop :=
  let k := (s.ctlReg 0x58).toNat % 16
  (mget [] s.evq k).length < 1024 → ∃ r, mget [] t'.evq k = mget [] s.evq k ++ [r] ∧ (nth 0 r.words 0).toNat % 256 = kind

end Sys2Proof.Machine

/-- R262, R290, R367. The queue and arena commands: a queue that is registered already, an unregistered one, or a world that does not exist gives 2; a
misaligned address, a size or a queue number out of range 3; else 0, the queue with its record, or gone once its operations are done; an arena of a world
with a run in flight gives 1. No command in progress: nothing happens. -/
def Sys2Proof.Says.RegistrationCommands : Prop := ∀ s, mrising s.ctl = true →
  let goes (i : Instr) (p : State → Prop) : Prop := ∃ t', exec i s = .next t' ∧ p t'
  let stat (off k : Nat) (t' : State) : Prop := t'.stat off = k ∧ t'.tasks = s.tasks ∧ t'.worlds = s.worlds
  let q := s.creg 8 % 2 ^ 12
  (¬ Commanded s 0x10 1 → exec .qcmdRegister s = .next s) ∧ (¬ Commanded s 0x10 2 → exec .qcmdUnregister s = .next s) ∧
  (Commanded s 0x10 1 →
    let cfg := s.creg 8 % 2 ^ 32
    let w := bits (s.creg 8) 63 56
    let dom := bits (s.creg 0x10) 63 48
    let odd : Prop := s.creg 0 % 256 ≠ 0 ∨ s.creg 0x88 % 64 ≠ 0 ∨ s.creg 0x90 % 32 ≠ 0 ∨ bits cfg 23 16 < 4 ∨ 16 < bits cfg 23 16 ∨ bits cfg 13 12 ≠ 0 ∨ q = 4095 ∨
      (bitAt cfg 14 = false ∧ 191 < bits cfg 31 24)
    let taken : Prop := s.queue (.mem q) ≠ none ∨ ¬ s.hasWorld w
    (taken → goes .qcmdRegister fun t' => stat 0x10 2 t' ∧ t'.queues = s.queues ∧ t'.mem = s.mem) ∧
    (¬ taken → odd → goes .qcmdRegister fun t' => stat 0x10 3 t' ∧ t'.queues = s.queues ∧ t'.mem = s.mem) ∧
    (¬ taken → ¬ odd → s.mapsRW w (s.creg 0) 256 = true → s.mapsRW w (s.creg 0x88) (64 * 2 ^ bits cfg 23 16) = true →
      s.mapsRW w (s.creg 0x90) (32 * 2 ^ bits cfg 23 16) = true → goes .qcmdRegister fun t' => t'.stat 0x10 = 0 ∧
        ∃ x, t'.queue (.mem q) = some x ∧ x.world = w ∧ x.sys = bitAt cfg 15 ∧ x.eng = bitAt cfg 14 ∧ x.bind = (if bitAt cfg 14 then dom else bits cfg 31 24) ∧
          x.hdr = s.creg 0 ∧ x.ring = s.creg 0x88 ∧ x.cring = s.creg 0x90 ∧ x.log2n = bits cfg 23 16 ∧ x.ops = [] ∧ x.closed = false)) ∧
  (Commanded s 0x10 2 →
    (s.queue (.mem q) = none → goes .qcmdUnregister fun t' => stat 0x10 2 t' ∧ t'.queues = s.queues) ∧
    (¬ s.hasWorld (bits (s.creg 8) 63 56) → goes .qcmdUnregister fun t' => stat 0x10 2 t' ∧ t'.queues = s.queues) ∧
    (∀ x, s.queue (.mem q) = some x → x.closed = true → goes .qcmdUnregister fun t' => stat 0x10 2 t' ∧ t'.queues = s.queues) ∧
    (∀ x, s.queue (.mem q) = some x → x.closed = false → s.hasWorld (bits (s.creg 8) 63 56) → goes .qcmdUnregister fun t' => stat 0x10 0 t' ∧ t'.mem = s.mem ∧
      (x.ops ≠ [] → mrising s.queues = true → t'.queue (.mem q) = some { x with closed := true }) ∧
      (x.ops = [] → mrising s.queues = true → t'.queue (.mem q) = none))) ∧
  (let a := s.creg 0x18
   let w := bits (s.creg 0x20) 15 8
   (s.stat 0x20 ≠ 0xFF → exec .arenaRegister s = .next s ∧ exec .arenaUnregister s = .next s) ∧
   (s.stat 0x20 = 0xFF → a ≠ 0 →
     (¬ s.hasWorld w → goes .arenaRegister fun t' => stat 0x20 2 t' ∧ t'.arenas = s.arenas) ∧
     (s.hasWorld w → a % 4096 ≠ 0 → goes .arenaRegister fun t' => stat 0x20 3 t' ∧ t'.arenas = s.arenas) ∧
     (s.hasWorld w → s.dpaFault a 4096 ≠ none → goes .arenaRegister fun t' => stat 0x20 3 t' ∧ t'.arenas = s.arenas) ∧
     (s.hasWorld w → a % 4096 = 0 → s.dpaFault a 4096 = none → goes .arenaRegister fun t' => stat 0x20 0 t' ∧ t'.arenas = mset s.arenas w a ∧ t'.mem = s.mem)) ∧
   (s.stat 0x20 = 0xFF → a = 0 →
     let runs : Prop := ∃ e ∈ s.asqs, ∃ r ∈ e.2.runs, r.who.world = w
     (runs → goes .arenaUnregister fun t' => stat 0x20 1 t' ∧ t'.arenas = s.arenas) ∧
     (¬ runs → goes .arenaUnregister fun t' => stat 0x20 0 t' ∧ t'.arenas = mdel s.arenas w ∧ t'.mem = s.mem)))

/-- R115, R220, R233. Vacating marks the cores, puts a RUNNING unpinned task with a bench there back to READY, its benches gone, and saves a pinned task's
benches; it is complete, with VSTAT 0 and the event VACATED, when the cores hold no bench, no claim, no queued command, no operation and no run;
returning gives the cores back. -/
def Sys2Proof.Says.VacatingCores : Prop := ∀ s, mrising s.ctl = true → s.lates = [] →
  let goes (i : Instr) (p : State → Prop) : Prop := ∃ t', exec i s = .next t' ∧ p t'
  let named (c : Nat) : Prop := c < 192 ∧ bitAt (s.creg (0x28 + 8 * (c / 64))) (c % 64) = true
  (¬ Commanded s 0x40 1 → exec .vcmdVacate s = .next s ∧ exec .vacationComplete s = .next s) ∧ (¬ Commanded s 0x40 2 → exec .vcmdReturn s = .next s) ∧
  (Commanded s 0x40 1 → (∃ c, named c ∧ c ∉ s.vacated) → goes .vcmdVacate fun t' => t'.mem = s.mem ∧ (∀ c, named c ∨ c ∈ s.vacated → c ∈ t'.vacated) ∧
    (∀ k, ∀ t, s.task? k = some t → mrising s.tasks = true → t.state = .running → t.pinned = false → (∃ b ∈ s.benches, b.task = k ∧ named (coreIx b.place)) →
      (t'.task? k).map (fun x => (x.state, x.ver)) = some (.ready, []) ∧ ∀ b ∈ t'.benches, b.task ≠ k) ∧
    (∀ b t, s.bench? b.place = some b → named (coreIx b.place) → s.task? b.task = some t → t.pinned = true → t.state = .running →
      (∀ e ∈ b.threads, ∀ x ∈ e.2.out, x.isAwait = false) → t'.bench? b.place = none ∧ ∃ x ∈ t'.saved, x.place = b.place ∧ x.task = b.task)) ∧
  (Commanded s 0x40 1 → (∀ c, named c → c ∈ s.vacated) →
    ((∀ b ∈ s.benches, coreIx b.place ∉ s.vacated) → (∀ c, named c → (∀ d < 8, (s.mxu (8 * c + d)).queue = [] ∧ (s.mxu (8 * c + d)).claim = none) ∧
        (∀ q ∈ s.queues, ∀ o ∈ q.2.ops, o.core ≠ c) ∧ (s.asq c).runs = []) →
      goes .vacationComplete fun t' => t'.stat 0x40 = 0 ∧ PostedKind s t' 7 ∧ t'.mem = s.mem ∧ t'.vacated = s.vacated) ∧
    ((∃ c, named c ∧ (s.asq c).runs ≠ []) → goes .vacationComplete fun t' => t'.stat 0x40 = 0xFF ∧ t'.evq = s.evq ∧ t'.mem = s.mem)) ∧
  (Commanded s 0x40 2 → goes .vcmdReturn fun t' => t'.stat 0x40 = 0 ∧ t'.mem = s.mem ∧ t'.tasks = s.tasks ∧ ∀ c, c ∈ t'.vacated ↔ c ∈ s.vacated ∧ ¬ named c)

/-- R203, R214, R325, R327, R366 to R368. MMIO writes: only 4 or 8 aligned bytes in the range reach a register; DDCFG takes modes 0 to 2; any write clears an event counter; an argument
register takes its writable bits; a write that covers a command field starts the command with STAT 0xFF, 3 for the reserved code, and is ignored while one
is in progress; CLWORLD and CLDOM latch the last complete window's counts.
The model's own choices it rests on: log entries 78, 92. -/
def Obligations.MmioWrites : Prop := ∀ s, mrising s.ctl = true →
  (∀ a n v, ((n ≠ 4 ∧ n ≠ 8) ∨ a % n ≠ 0 ∨ dpaKind a ≠ .mmio) → exec (.mmioRegisterWrite a n v) s = .next s) ∧
  (∀ w v, w < 256 → v.toNat % 4 ≠ 3 → mwf 2 s.hub.sdc.mode = true → ∃ t', exec (.ddcfgWrite w v) s = .next t' ∧ mget 2 t'.hub.sdc.mode w = v.toNat % 4 ∧
    (∀ k ≠ w, mget 2 t'.hub.sdc.mode k = mget 2 s.hub.sdc.mode k) ∧ t'.mem = s.mem) ∧
  (∀ w v, w < 256 → v.toNat % 4 = 3 → exec (.ddcfgWrite w v) s = .next s) ∧
  (∀ c, c < 192 → ∃ t', exec (.counterClear (mmioBase + 4096 * c)) s = .next t' ∧ { t' with cores := s.cores } = s ∧
    (Canonical s → t'.core c = { s.core c with cnt := { (s.core c).cnt with npass := 0 } })) ∧
  (∃ t', exec (.counterClear (mmioBase + 2 ^ 32 + 256 * 4096 + 0x28)) s = .next t' ∧
    t' = { s with hub := { s.hub with sdc := { s.hub.sdc with tot := { s.hub.sdc.tot with dhit := 0 } } } }) ∧
  (∀ off v, off ∈ [0x00, 0x28, 0x30, 0x38, 0x80, 0x88, 0x90] → ∃ t', exec (.mmioRegisterWrite (ctlAddr off) 8 v) s = .next t' ∧ t'.ctlReg off = v ∧
    (∀ k ≠ off, t'.ctlReg k = s.ctlReg k) ∧ t'.mem = s.mem) ∧
  (∀ off v, off ∈ [0x10, 0x40] →
    (s.stat off = 0xFF → exec (.mmioRegisterWrite (ctlAddr off) 4 v) s = .next s) ∧
    (s.stat off ≠ 0xFF → ∃ t', exec (.mmioRegisterWrite (ctlAddr off) 4 v) s = .next t' ∧ bits (t'.creg off) 9 8 = bits v.toNat 9 8 ∧
      t'.stat off = (match bits v.toNat 9 8 with
        | 0 => s.stat off
        | 3 => 3
        | _ => 0xFF) ∧ (∀ k ≠ off, t'.ctlReg k = s.ctlReg k) ∧ t'.mem = s.mem)) ∧
  (∀ v : Word, v.toNat < 2 ^ 24 →
    let c := s.hub.clsf.find? fun x => x.world = bits v.toNat 23 16 ∧ x.domain = v.toNat % 2 ^ 16
    ∃ t', exec (.classifierSelect v) s = .next t' ∧ t'.creg 0x60 = v.toNat ∧ t'.mem = s.mem ∧
      (∀ x n m, c = some x → x.last = some (n, m) → n < 2 ^ 64 → m < 2 ^ 64 → t'.creg 0x68 = n ∧ t'.creg 0x70 = m) ∧
      (c = none → t'.creg 0x68 = 0 ∧ t'.creg 0x70 = 0 ∧ t'.creg 0x78 = 1))

/-- R363 to R365, R378, R388, R389. Boot counts record 0 up; an image without its signature, or a bad header, halts it; else it extends `meas`0 to `meas`3, places the
package kernel image and world 0's tables, makes them world 0's root, and starts one kernel thread on each of stewards 1 to 15 at ENTRY, v0 its
number and s0:s1 the image's address. After boot it does nothing.
The model's own choices it rests on: log entries 5, 18, 20, 31. -/
def Obligations.BootRuns : Prop := ∀ s,
  let fl := s.hub.flash
  let f := hdrField fl.image
  let ext (i : Nat) (bs : List Byte) : List Byte := sha384 (s.meas i ++ sha384 bs)
  (s.hub.boot ≠ .reset → exec .boot s = .next s) ∧
  (s.hub.boot = .reset →
    ∃ t', exec .boot s = .next t' ∧ t'.incarn = (s.crec 0).value + 1 ∧
    (t'.hub.trt.meas = s.hub.trt.meas ∨ Config.firmwareSigned fl.trt = true) ∧
    if Config.firmwareSigned fl.trt = true ∧ Config.firmwareSigned fl.bureau = true ∧ imageOk fl.image = true ∧ 1 ≤ fl.hext ∧ fl.hext ≤ 1024 then Canonical s →
      t'.hub.boot = .running ∧ t'.meas 0 = ext 0 fl.trt ∧ t'.meas 1 = ext 1 fl.bureau ∧ t'.meas 2 = ext 2 (fl.image.take (f 0x10 8)) ∧ t'.meas 3 = ext 3 (fl.train ++ natLe 4 fl.hext) ∧
      (t'.world 0).root = 0xBFFFFD0000 ∧ Holds t' (f 8 8) (fl.image.take (f 0x10 8)) ∧
      t'.field 0xBFFFFD0000 8 = 0xBFFFFE0001 ∧ t'.field 0xBFFFFD0008 8 = 0xBFFFFF0001 ∧
      (∀ i < 768, t'.field (0xBFFFFE0000 + 8 * i) 8 = i * 2 ^ 30 + 0x3F) ∧ (∀ i < 1024, t'.field (0xBFFFFF0000 + 8 * i) 8 = (8192 + i) * 2 ^ 30 + 0x1F) ∧
      ∀ k, 1 ≤ k → k ≤ 15 → ∃ x ∈ t'.benches, ∃ th, x.place = .steward k 0 ∧ x.world = 0 ∧ x.threads = [(0, th)] ∧ th.pc = BitVec.ofNat 64 (f 0x18 8) ∧
        (th.v 0).toNat = k ∧ (bits (f 0x20 4) 29 24 ≠ 0 → (x.u th 0).toNat + 2 ^ 32 * (x.u th 1).toNat = f 8 8)
    else t'.hub.boot = .halted ∧ t'.mem = s.mem ∧ t'.tasks = s.tasks)

/-- R113. A fetch whose address is misaligned takes TC_ALIGN, with no instruction issued: `tval` and `tpc` are the address. On the first instruction of a
handler the fault is a double trap: an unpinned task is discarded. -/
def Sys2Proof.Says.FetchFaults : Prop := ∀ s g b l t, s.grp? = some g → s.bench? g.place = some b → b.place = g.place → g.lanes = [l] → mget? b.threads l = some t → mrising b.threads = true →
  g.pc.toNat < 2 ^ 56 → g.pc.toNat % 4 ≠ 0 →
  (Performed s g → HandlerReady s b t → t.entering = false → ∃ t' th, exec .fetchFault s = .next t' ∧ t'.thread? g.place l = some th ∧
    InHandler t th 0x08 (pinnedOf s b) g.pc g.pc (s.world b.world).tvec ∧ OnlyThreads s t' ∧ t'.cur = .idle) ∧
  (t.entering = true → ∀ k, s.task? b.task = some k → k.pinned = false → ∃ t', exec .fetchFault s = .next t' ∧
    (t'.task? b.task).map (fun x => (x.state, x.ver)) = some (.discarded, []) ∧ ∀ x ∈ t'.benches, x.task ≠ b.task)
namespace Sys2Proof.Machine

/-- The maps of a core's SRAM are canonical, and it has its 32 banks (R174). -/
def CoreKept (c : Core) : Prop := CoreCanonical c ∧ mrising c.fifos = true ∧ c.banks.length = 32

/-- A bench's threads stand in rising lanes, and their vector registers are canonical. -/
def BenchKept (b : Bench) : Prop := mrising b.threads = true ∧ ∀ e ∈ b.threads, mwf 0 e.2.vregs = true

/-- Further maps of the state are in canonical form: control registers, sequencers with their scores, queues, tasks with their versions, matrix
units with their data, saved data and receivers, worlds, event queues, arenas, MACs, VPs, peers, ports, homes, the bulletin, borrowed extents,
deduplication modes, drawers, leases, the cores' maps, the benches' registers. -/
structure MapsCanonical (s : State) : Prop where
  ctl     : mrising s.ctl = true
  asqs    : mrising s.asqs = true
  scores  : ∀ e ∈ s.asqs, ∀ r ∈ e.2.runs, mwf 0 r.d.sb = true
  queues  : mrising s.queues = true
  tasks   : mrising s.tasks = true
  versions : ∀ e ∈ s.tasks, mrising e.2.ver = true
  mxus    : mrising s.mxus = true
  mxdata  : ∀ e ∈ s.mxus, MxCanonical e.2.data
  mxsaves : ∀ e ∈ s.msaves, MxCanonical e.data
  recv    : ∀ e ∈ s.mxus, mrising e.2.recv = true
  worlds  : mrising s.worlds = true
  events  : mrising s.evq = true
  arenas  : mrising s.arenas = true
  macs    : mrising s.macs = true
  vps     : mrising s.vps = true
  peers   : mrising s.hub.lse.peers = true
  ports   : mrising s.hub.lse.ports = true
  homes   : mrising s.hub.plc.homes = true
  bull    : mrising s.hub.lse.bull = true
  bor     : mrising s.hub.lse.bor = true
  modes   : mwf 2 s.hub.sdc.mode = true
  drawers : mwf Drawer.init s.drawers = true
  leases  : mwf Lease.none s.leases = true
  cores   : ∀ e ∈ s.cores, CoreKept e.2
  benches : ∀ b ∈ s.benches ++ s.saved, BenchKept b

/-- The place a bench stands at is one bench's, and the schedule's next item issues its thread at lane `l`. -/
structure Scheduled (s : State) (p : Place) (l : Nat) (rest : List Sched) (b : Bench) (t : Thread) : Prop where
  up     : s.hub.devErr = false
  booted : s.hub.boot = .running
  next   : s.agenda = .issue p l :: rest
  bench  : s.bench? p = some b
  thread : s.thread? p l = some t
  may    : b.mayIssue l t = true

/-- The word whose four bytes, lowest first, stand at a DPA at an epoch (R2, R25). -/
def State.wordAt (s : State) (S a : Nat) : Word := s.byteAt S (a + 3) ++ s.byteAt S (a + 2) ++ s.byteAt S (a + 1) ++ s.byteAt S a

/-- A word a thread fetches at `pc`: translated for execution to `loc` in its world (which may fill the TLBs), of a sound block, read at the
task's snapshot (R42, R192). -/
structure Fetches (s s1 : State) (p : Place) (b : Bench) (t : Thread) (pc : DWord) (w : Word) : Prop where
  short   : pc.toNat < 2 ^ 56
  aligned : pc.toNat % 4 = 0
  snap    : t.fetchEp = s.snapOf b.task
  read    : ∃ loc, s.translate (coreIx p) b.world .fetch pc.toNat = (s1, .ok loc) ∧ dpaKind loc.dpa ≠ .mmio ∧
    (s1.dataError loc.dpa true) = false ∧ s1.confW loc.world = false ∧ s1.wordAt (s.snapOf b.task) loc.dpa = w

/-- Whether an instruction is a prefix (R60, R61). -/
def isPrefix : Instr → Bool
  | .grd _ _ _ | .rep _ _ _ _ => true
  | _ => false

end Sys2Proof.Machine

/-- R49, R53 (encode, then decode): the words of every well-formed instruction, with either stop bit, decode to it, with every operand at every
value its encoding admits, rows of one word to the first of them; a prefix takes no stop bit; every microword decodes to its micro-op.
The model's own choices it rests on: log entry 12. -/
def Obligations.EncodeDecode : Prop := ∀ (i : Instr) (stop : Bool), i.wf = true → i.legal = true →
  (i.isMicro = false → (isPrefix i = true → stop = false) → ∀ w ws, encode stop i = w :: ws → decode w (ws.headD 0) = .ok (stop, i.first)) ∧
  (isPrefix i = true → ∀ w ws, encode true i = w :: ws → decode w 0 = .error .resfield) ∧
  (i.isMicro = true → decodeMicro (encodeMicro i) = .ok i)

/-- R49, R52, R53 (decode, then encode): no accepted word has a bit that its instruction does not say: what decoding accepts is well formed, and
encodes to exactly the words decoded; likewise for microwords.
The model's own choices it rests on: log entry 12. -/
def Obligations.DecodeEncode : Prop :=
  (∀ (w w2 : Word) stop i, decode w w2 = .ok (stop, i) → i.wf = true ∧ i.legal = true ∧ i.isMicro = false ∧ i.first = i ∧
    encode stop i = if isX w.toNat then [w, w2] else [w]) ∧
  (∀ (w : DWord) i, decodeMicro w = .ok i → i.wf = true ∧ i.isMicro = true ∧ encodeMicro i = w)

/-- Decoding reads the words of the spec's own examples, one of every family; and every FENCE word as R55 says: the scope code (Table 2.2, its two
reserved codes refused) in FA[2:0], the kind in FA[4:3], every other operand bit reserved. -/
def Obligations.DecodeWords : Prop :=
  decode 0x00A0C082#32 0 = .ok (false, .iadd .s 3#7 1#7 2#7) ∧ decode 0x99018388#32 0 = .ok (true, .fmul .v 6#7 7#7 8#7) ∧
  decode 0x78014480#32 0 = .ok (false, .grd 5#7 true 1#3) ∧ decode 0x7820C881#32 0 = .ok (false, .rep 3#6 1#3 1#3 1#3) ∧
  decode 0x1200C1FF#32 0 = .ok (false, .iaddi false 3#7 3#7 127#7) ∧ decode 0x10C10064#32 0 = .ok (false, .movi true 4#7 100#14) ∧
  decode 0x32814100#32 0 = .ok (false, .sinpi false 5#7 2#7) ∧ decode 0xC1618200#32 0 = .ok (true, .scansumi 6#7 4#7) ∧
  decode 0x51860100#32 0 = .ok (false, .ls32 24#7 2#7 0#7) ∧ decode 0x50A08081#32 0 = .ok (false, .ld64 2#7 1#7 1#7) ∧
  decode 0x58008303#32 0x80800008#32 = .ok (false, .aadd 2#7 6#7 3#7 ⟨4#3, 0#2, 0#2, false, true, 0#7, 8#16⟩) ∧
  decode 0x60A14189#32 0 = .ok (false, .barr 5#6 3#7 true false 1#2) ∧ decode 0x684E0106#32 0 = .ok (false, .mma 1#2 3#2 0#3 2#7 6#7) ∧
  decode 0x70010800#32 0 = .ok (false, .bcopy 4#7 16#7) ∧ decode 0xF0A24108#32 0 = .ok (true, .kvput 9#7 2#7 8#7) ∧
  decode 0x7B010400#32 0 = .ok (false, .snap 4#7 8#7) ∧ decode 0x79800104#32 0 = .ok (false, .lsetConfig 0#7 2#7 4#7) ∧
  decodeMicro 0x584000000B000000#64 = .ok (.loop 1#4 11#12) ∧
  (∀ w : Word, w.toNat / 2 ^ 27 % 16 = 11 → w.toNat / 2 ^ 21 % 64 = 16 →
    (w.toNat / 2 ^ 19 % 4 = 0 → w.toNat % 2 ^ 14 = 0 → w.toNat / 2 ^ 14 % 8 < 6 →
      decode w 0 = .ok (w.getLsbD 31, .fence (BitVec.ofNat 2 (w.toNat / 2 ^ 17)) (BitVec.ofNat 3 (w.toNat / 2 ^ 14)))) ∧
    (w.toNat / 2 ^ 19 % 4 ≠ 0 ∨ w.toNat % 2 ^ 14 ≠ 0 ∨ 6 ≤ w.toNat / 2 ^ 14 % 8 → decode w 0 = .error .resfield))

/-- R49, R61, R70, R104. A step runs the decoded instruction of the group the schedule picks, or of a thread that 64 picks have passed over: with the words of the thread's instruction fetched, the step is what executing their
instruction is in that state, once the benches that became ready are marked and the register store and the SDC have room (`kept`), `cur` naming the group, its words and stop bit (its PC is moved on by the instruction's meaning); in a
repeat the target with its stepped fields; words that decode to nothing, a REP whose target is none and a repeat that is none are a malformed word, a failed fetch a fetch fault. A memory
instruction of a core with 8192 requests outstanding waits at issue (R197). -/
def Sys2Proof.Says.StepRunsDecoded : Prop := ∀ s p l1 rest b t1 l t, Scheduled s.kept p l1 rest b t1 → b.chosen l1 t1 = (l, t) →
  let s0 := { s.kept with agenda := rest }
  let grp (s1 : State) (w w2 : Word) (stop : Bool) (rep : Option (Nat × Nat)) : State := { s1 with cur := .grp p (b.groupOf t) t.pc w w2 stop rep }
  (∀ s1 w w2, s0.fetchIssue p l t.pc = .words s1 w w2 → s0.waitsAtIssue p w w2 = false →
    (t.rep = none ∨ isRep w = false → ∀ stop i, decode w w2 = .ok (stop, i) → step s = exec i (grp s1 w w2 stop none)) ∧
    (∀ e, decode w w2 = .error e → step s = exec .malformedWord (grp s1 w w2 false none)) ∧
    (∀ k stop0 i0, t.rep = some k → isRep w = true → decode w w2 = .ok (stop0, i0) →
      (prefixIllegal w w2 = true → step s = exec .malformedWord (grp s1 w w2 false none)) ∧
      (prefixIllegal w w2 = false →
        (∀ v stop i, stepWord w w2 k = some v → decode v 0 = .ok (stop, i) → step s = exec i (grp s1 w w2 stop (some (k, repCount w)))) ∧
        ((∀ v x, stepWord w w2 k = some v → decode v 0 ≠ .ok x) →
          step s = exec .malformedWord (grp s1 w w2 (w2.getLsbD 31) (some (k, repCount w))))))) ∧
  (∀ s1 w w2, s0.fetchIssue p l t.pc = .words s1 w w2 → s0.waitsAtIssue p w w2 = true → step s = .next s0) ∧
  (∀ w w2, s0.waitsAtIssue p w w2 = true → 8192 ≤ s0.requests (coreIx p) ∧
    (bits (if isRep w then w2 else w).toNat 30 27 = 10 ∨ bits (if isRep w then w2 else w).toNat 30 27 = 11)) ∧
  (s0.fetchIssue p l t.pc = .fault → step s = exec .fetchFault (grp s0 0 0 false none)) ∧
  (∀ s1 w, Fetches s0 s1 p b t t.pc w → (isX w.toNat || isRep w || isGrd w) = false → s0.fetchIssue p l t.pc = .words s1 w 0) ∧
  (∀ s1 s2 w w2, Fetches s0 s1 p b t t.pc w → Fetches s1 s2 p b t (t.pc + 4) w2 → (isX w.toNat || isRep w || isGrd w) = true →
    s0.fetchIssue p l t.pc = .words s2 w w2)

/-- R364, R330. The other steps: from reset the machine boots; a module that a device-level error has stopped does nothing more; an event of the
schedule is its instruction's execution outside any group, before which nothing changes while the SDC is within its limits (R322); a micro-op is that of the run's PC, and TC_MICRO stands for a word that is none. -/
def Sys2Proof.Says.StepRunsEvents : Prop := ∀ s,
  (s.hub.devErr = true → step s = .fault .deviceError) ∧
  (s.hub.devErr = false → s.hub.boot = .reset → step s = exec .boot s) ∧
  (s.hub.devErr = false → s.hub.boot = .running →
    (∀ i rest t, s.agenda = .event i :: rest → exec i { s.kept with agenda := rest, cur := .idle } = .next t → step s = .next t) ∧
    (∀ core rest r rs, s.agenda = .micro core :: rest → (s.asq core).runs = r :: rs → r.on = true → (r.held = false ∨ r.cancel = true) →
      let s1 := { s.kept with agenda := rest, cur := .micro core }
      (∀ i, r.pc < 4096 → decodeMicro ((s.asq core).word r.pc) = .ok i → step s = exec i s1) ∧
      ((4096 ≤ r.pc ∨ ∃ e, decodeMicro ((s.asq core).word r.pc) = .error e) → step s = microBad s1)) ∧
    (∀ n ms rest, s.agenda = .tick n ms :: rest → step s = .next { s.kept with agenda := rest, cycle := s.cycle + n, mstime := s.mstime + ms }) ∧
    (s.noteReady.spillAll.sdcFull (s.vlines fun _ => true) = false → s.kept.mem = s.mem ∧ s.kept.tasks = s.tasks ∧ s.kept.hub = s.hub ∧ s.kept.cores = s.cores ∧ s.kept.evq = s.evq ∧
      ∀ p l, (s.kept.thread? p l).map (fun t => (t.vregs, t.preds, t.pc, t.wait)) = (s.thread? p l).map fun t => (t.vregs, t.preds, t.pc, t.wait)))

/-- Every step keeps home memory, home tags and the cores in canonical form, from whatever state they are canonical in. -/
def Obligations.CanonicalKept : Prop := ∀ s t, Canonical s → step s = .next t → Canonical t

/-- Every step keeps the further maps that `MapsCanonical` names in canonical form: control registers, sequencers, queues, tasks, matrix units,
worlds, event queues, arenas, MACs, VPs, the lease engine's maps, homes, drawers, leases, cores and benches. -/
def Obligations.MapsKept : Prop := ∀ s t, Canonical s → MapsCanonical s → step s = .next t → MapsCanonical t

/-- What reset leaves, where the spec gives it (R22, R93, R203, R232, R325, R343, R365, R367, Tables 13.3, 13.8): the commit epoch, counters, timelines,
MSTIME and measurements are 0, tags are 0x007F, leases are free, and the configuration registers hold their reset values; nothing runs, and
boot comes first (R364).
The model's own choices it rests on: log entries 6, 20. -/
def Obligations.ResetState : Prop :=
  let s := State.reset
  step s = exec .boot s ∧ Canonical s ∧ MapsCanonical s ∧
  s.epoch = 0 ∧ s.mstime = 0 ∧ s.benches = [] ∧ s.tasks = [] ∧ s.copies = [] ∧ s.tlbs = [] ∧ s.dropped = 0 ∧
  (∀ blk, s.tag blk = 0x007F) ∧ (∀ i, s.meas i = List.replicate 48 0) ∧
  (∀ i, (s.lease i).state = .free) ∧
  s.hub.lse.cfg.prio = 0 ∧ s.hub.lse.cfg.cslot = 0xFF ∧ s.hub.lse.cfg.failt = 100 ∧ s.hub.lse.cfg.settle = 20 ∧ s.hub.lse.cfg.grace = 50 ∧
  s.hub.lse.cfg.rcwin = 100 ∧ s.hub.lse.cfg.qnum = 0xFFFF ∧ s.hub.lse.cfg.wblead = 20 ∧
  (∀ i, let x := s.mxu i; x.done = 0 ∧ x.asn = 0 ∧ x.status = 0 ∧ x.queue = [] ∧ x.claim = none ∧
    (∀ t m n, x.data.elem t m n = Deep.zero) ∧ ∀ u, x.data.unit u = unit0) ∧
  (∀ c, (s.core c).cnt = LsuCnt.zero ∧ (s.asq c).done = 0 ∧ ∀ k, k < 4096 → (s.asq c).word k = BitVec.ofNat 64 (nth 0 microDefault k)) ∧
  (∀ i, let d := mget Drawer.init s.drawers i; d.swapout = 0 ∧ d.swapin = 0 ∧ d.issued = 0 ∧ d.spill = 0 ∧ d.refill = 0) ∧
  (s.world 0).live = true ∧ (∀ w, w ≠ 0 → (s.world w).live = false) ∧ (∀ w, mget 2 s.hub.sdc.mode w = 2)

/-- Table 6.2 and R124; Table 6.3 and R126: the logic, shift and bit-field instructions of G1, and the moves and immediates of G2.
The model's own choices it rests on: log entry 1. -/
def Obligations.LogicAndMoves : Prop := Sys2Proof.Says.LogicShiftsBitFields ∧ Sys2Proof.Says.MovesAndImmediates

/-- R132 to R135, R150 to R153: packed arithmetic, and the special functions of G6.
The model's own choices it rests on: log entries 1, 102. -/
def Obligations.PackedAndSpecialFunctions : Prop := Sys2Proof.Says.PackedArithmetic ∧ Sys2Proof.Says.SpecialFunctions

/-- R136 to R146: the conversions and packings of G5, and QMAXB and QPICK's block tags.
The model's own choices it rests on: log entries 1, 39. -/
def Obligations.ConversionsAndPacking : Prop := Sys2Proof.Says.Conversions ∧ Sys2Proof.Says.BlockTags

/-- R155 to R157: the compares and the predicate operations of G7.
The model's own choices it rests on: log entry 1. -/
def Obligations.ComparesAndPredicates : Prop := Sys2Proof.Says.Compares ∧ Sys2Proof.Says.PredicateOperations

/-- R158 to R162: the cross-lane instructions of G8, and the order in which REDSUM and SCANSUM add floats.
The model's own choices it rests on: log entries 1, 119. -/
def Obligations.CrossLaneOperations : Prop := Sys2Proof.Says.CrossLane ∧ Sys2Proof.Says.CrossLaneFloatSums

/-- R163 to R166, R169: branches, calls, returns, windows and NOP. -/
def Obligations.BranchesAndCalls : Prop := Sys2Proof.Says.BranchesWindowsNop ∧ Sys2Proof.Says.CallsAndReturns ∧ Sys2Proof.Says.TrapAndNop

/-- R110, R111, R127: CSRR and CSRW, what each register of Table 5.2 reads as, a bench-uniform write, and the fields a write leaves alone.
The model's own choices it rests on: log entries 1, 14. -/
def Obligations.ControlRegisterAccess : Prop := Sys2Proof.Says.ControlRegisters ∧ Sys2Proof.Says.CsrReads ∧ Sys2Proof.Says.BenchUniformCsrWrites ∧ Sys2Proof.Says.CsrWriteFields

/-- R112, R113, R166, R170: TRAP and BPT enter the handler, ERET returns from it, and a trap inside a handler ends the task.
The model's own choices it rests on: log entries 13, 38, 100. -/
def Obligations.TrapsAndReturns : Prop := Sys2Proof.Says.SoftwareTraps ∧ Sys2Proof.Says.ReturnFromHandler ∧ Sys2Proof.Says.DoubleTrap

/-- R106, R171: HALT stops the bench precisely, EXIT ends the thread.
The model's own choices it rests on: log entries 16, 37. -/
def Obligations.HaltAndExit : Prop := Sys2Proof.Says.Halt ∧ Sys2Proof.Says.Exit

/-- R60, R61: GRD, REP, and how a completed thread moves on under them.
The model's own choices it rests on: log entries 13, 34, 98. -/
def Obligations.Prefixes : Prop := Sys2Proof.Says.GuardPrefix ∧ Sys2Proof.Says.RepeatPrefix ∧ Sys2Proof.Says.MovingOn

/-- R167, R168: YIELD, MARM and MWAIT. -/
def Obligations.YieldAndWatch : Prop := Sys2Proof.Says.Yield ∧ Sys2Proof.Says.WatchAndWait

/-- R66, R67, R70, R71: malformed words, words outside the profile or the privilege, and words that cannot be fetched trap and have no effect.
The model's own choices it rests on: log entries 13, 32, 98. -/
def Obligations.WordsThatDoNotRun : Prop := Sys2Proof.Says.MalformedWords ∧ Sys2Proof.Says.ProfileAndPrivilege ∧ Sys2Proof.Says.FetchFaults

/-- R58, R65: the footprint check and the run check.
The model's own choices it rests on: log entries 1, 101. -/
def Obligations.RegisterChecks : Prop := Sys2Proof.Says.FootprintChecked ∧ Sys2Proof.Says.RunCheck

/-- R21, R23, R94, R192, R196, R197: plain loads and stores, and the faults of an access.
The model's own choices it rests on: log entries 1, 3, 8, 64, 65. -/
def Obligations.PlainAccesses : Prop := Sys2Proof.Says.PlainLoads ∧ Sys2Proof.Says.PlainStores ∧ Sys2Proof.Says.AccessFaults

/-- R31 to R34, R37: LDA and STA at each scope, performed when issued or later.
The model's own choices it rests on: log entries 7, 9. -/
def Obligations.StrongAccesses : Prop := Sys2Proof.Says.StrongLoads ∧ Sys2Proof.Says.LateAccesses ∧ Sys2Proof.Says.StrongStores

/-- R201: the atomics at home memory and in the scratchpad.
The model's own choices it rests on: log entries 7, 65. -/
def Obligations.Atomics : Prop := Sys2Proof.Says.AtomicsAtHome ∧ Sys2Proof.Says.AtomicsOnScratchpad

/-- R36, R42, R198 to R200, R202: fences, PHASE and IFENCE; tags, arena loads and PREF.
The model's own choices it rests on: log entries 7, 9, 97. -/
def Obligations.OrderingTagsPrefetch : Prop := Sys2Proof.Says.OrderingInstructions ∧ Sys2Proof.Says.TagsArenaLoadsPrefetch

/-- R224 to R229: arrivals, waits, expectations and queries at barrier slots.
The model's own choices it rests on: log entry 21. -/
def Obligations.Barriers : Prop := Sys2Proof.Says.BarrierArrivals ∧ Sys2Proof.Says.BarrierWaitsAndExpectations

/-- R207 to R209: acceptance of a submission, and a task-unit queue's slots.
The model's own choices it rests on: log entries 10, 26, 41, 42. -/
def Obligations.TaskAcceptanceAndQueues : Prop := Sys2Proof.Says.TaskAcceptance ∧ Sys2Proof.Says.TaskQueueSlots

/-- R56, R105, R115, R168: outstanding results, admission, watchdog, wakeups, and the restore of a saved bench.
The model's own choices it rests on: log entries 2, 37, 49, 65, 75. -/
def Obligations.BenchEventsAndRestore : Prop := Sys2Proof.Says.BenchEvents ∧ Sys2Proof.Says.BenchRestore

/-- R234, R240 to R246, R248 to R252, R255, R258: each kind of command on tiles, weights, scratchpad, units and tags, and peer drains.
The model's own choices it rests on: log entries 53, 57. -/
def Obligations.MatrixExecutionAndPeers : Prop := Sys2Proof.Says.MatrixExecution ∧ Sys2Proof.Says.MatrixResults ∧ Sys2Proof.Says.PeerDrains

/-- R263 to R268, R277: slots of a memory queue, and reducing blocks received.
The model's own choices it rests on: log entries 10, 59, 61. -/
def Obligations.QueueSlotsAndReduceBlocks : Prop := Sys2Proof.Says.QueueSlots ∧ Sys2Proof.Says.ReduceBlocks

/-- R310 to R316: micro-ops on the sequencer's registers, and those that give commands.
The model's own choices it rests on: log entries 69, 73. -/
def Obligations.SequencerRegistersAndCommands : Prop := Sys2Proof.Says.SequencerRegisters ∧ Sys2Proof.Says.SequencerCommands

/-- R174, R175, R184 to R187, R190, R369: access processors, banks, translations, and FIFO banks.
The model's own choices it rests on: log entries 9, 35, 36. -/
def Obligations.ProcessorsBanksFifos : Prop := Sys2Proof.Says.ProcessorsBanksTranslations ∧ Sys2Proof.Says.FifoBanks

/-- R365, R370, R376 to R379: keys, signatures, measurements, counter records, seals and hashes.
The model's own choices it rests on: log entries 18, 27, 80, 81, 82, 114. -/
def Obligations.TrustRootOperations : Prop := Sys2Proof.Says.TrustRootInstructions ∧ Sys2Proof.Says.HashInstructions

/-- R341 to R346, Table 13.4: lease messages received, and what the lease clock does.
The model's own choices it rests on: log entries 29, 30, 88, 89, 90, 117. -/
def Obligations.LeaseMessagesAndClock : Prop := Sys2Proof.Says.LeaseMessages ∧ Sys2Proof.Says.LeaseClock

/-- R334 to R339: SNAP and SCRUB, as instructions and as runs of the engine.
The model's own choices it rests on: log entries 85, 110. -/
def Obligations.Checkpoints : Prop := Sys2Proof.Says.CheckpointInstructions ∧ Sys2Proof.Says.CheckpointRuns

/-- R220, R283, R291, R367: queues and arenas registered and unregistered, cores vacated and returned.
The model's own choices it rests on: log entries 78, 94, 95. -/
def Obligations.ControlBlockCommands : Prop := Sys2Proof.Says.RegistrationCommands ∧ Sys2Proof.Says.VacatingCores

/-- R49, R61, R70, R330, R364: what one step runs.
The model's own choices it rests on: log entries 2, 11, 13, 98, 112. -/
def Obligations.StepRuns : Prop := Sys2Proof.Says.StepRunsDecoded ∧ Sys2Proof.Says.StepRunsEvents
end

