-- ==== Sys2Proof/Laws/Maps.lean ====
section
/-! SUPPORT. Sparse maps: reading after a write, and the canonical form (rising keys, no entry equal to the default). -/

namespace Sys2Proof.Machine

variable {α β : Type}

theorem mget?_mset (m : Map α) (k j : Nat) (x : α) : mget? (mset m k x) j = if j = k then some x else mget? m j := by
  induction m with
  | nil => simp only [mset, mget?]; grind
  | cons e m ih => obtain ⟨i, v⟩ := e; simp only [mset]; split <;> [skip; split] <;> simp only [mget?] <;> grind

theorem mget_mset (z : α) (m : Map α) (k j : Nat) (x : α) : mget z (mset m k x) j = if j = k then x else mget z m j := by
  simp only [mget, mget?_mset]; split <;> rfl

/-- Every key of the map lies above `k`. -/
def above (k : Nat) (m : Map α) : Prop := ∀ e ∈ m, k < e.1

theorem mrising_cons (i : Nat) (v : α) (m : Map α) : mrising ((i, v) :: m) = true ↔ above i m ∧ mrising m = true := by
  induction m generalizing i v with
  | nil => simp [mrising, above]
  | cons e m ih =>
    obtain ⟨j, w⟩ := e
    rw [mrising, Bool.and_eq_true, decide_eq_true_iff, ih j w]
    simp only [above, List.mem_cons, forall_eq_or_imp]
    constructor
    · rintro ⟨h, h1, h2⟩; exact ⟨⟨h, fun e he => Nat.lt_trans h (h1 e he)⟩, h1, h2⟩
    · rintro ⟨⟨h, _⟩, h1, h2⟩; exact ⟨h, h1, h2⟩

theorem mget?_above {m : Map α} {k j : Nat} (h : above k m) (hj : j ≤ k) : mget? m j = none := by
  cases m with
  | nil => rfl
  | cons e m => obtain ⟨i, v⟩ := e; have := h (i, v) (by simp); simp only [mget?]; grind

theorem mget?_mdel {m : Map α} (h : mrising m = true) (k j : Nat) :
    mget? (mdel m k) j = if j = k then none else mget? m j := by
  induction m with
  | nil => simp [mdel, mget?]
  | cons e m ih =>
    obtain ⟨i, v⟩ := e
    obtain ⟨ha, hr⟩ := (mrising_cons i v m).1 h
    have hb := mget?_above ha (j := j)
    simp only [mdel, mget?]
    split <;> [skip; split] <;> grind [mget?]

theorem above_mset {m : Map α} {i k : Nat} (x : α) (h : above i m) (hk : i < k) : above i (mset m k x) := by
  induction m with
  | nil => simpa [mset, above] using hk
  | cons e m ih =>
    obtain ⟨j, v⟩ := e
    have h1 := h (j, v) (by simp)
    have h2 := ih fun e he => h e (by simp [he])
    simp only [mset]
    split <;> [skip; split] <;> intro e he <;> simp only [List.mem_cons] at he <;> grind [above]

theorem above_mdel {m : Map α} {i : Nat} (k : Nat) (h : above i m) : above i (mdel m k) := by
  induction m with
  | nil => simp [mdel, above]
  | cons e m ih =>
    obtain ⟨j, v⟩ := e
    have h1 := h (j, v) (by simp)
    have h2 := ih fun e he => h e (by simp [he])
    simp only [mdel]
    split <;> [skip; split] <;> intro e he <;> grind [above]

theorem mrising_mset {m : Map α} (h : mrising m = true) (k : Nat) (x : α) : mrising (mset m k x) = true := by
  induction m with
  | nil => rfl
  | cons e m ih =>
    obtain ⟨i, v⟩ := e
    obtain ⟨ha, hr⟩ := (mrising_cons i v m).1 h
    simp only [mset]
    split <;> [skip; split]
    · refine (mrising_cons _ _ _).2 ⟨?_, h⟩
      intro e he
      rcases List.mem_cons.1 he with rfl | he
      · assumption
      · have := ha e he; omega
    · subst_vars; exact (mrising_cons _ _ _).2 ⟨ha, hr⟩
    · exact (mrising_cons _ _ _).2 ⟨above_mset x ha (by omega), ih hr⟩

theorem mrising_mdel {m : Map α} (h : mrising m = true) (k : Nat) : mrising (mdel m k) = true := by
  induction m with
  | nil => rfl
  | cons e m ih =>
    obtain ⟨i, v⟩ := e
    obtain ⟨ha, hr⟩ := (mrising_cons i v m).1 h
    simp only [mdel]
    split <;> [skip; split]
    · exact h
    · exact hr
    · exact (mrising_cons _ _ _).2 ⟨above_mdel k ha, ih hr⟩

theorem mem_mset {m : Map α} {k : Nat} {x : α} {e : Nat × α} (h : e ∈ mset m k x) : e = (k, x) ∨ e ∈ m := by
  induction m with
  | nil => simpa [mset] using h
  | cons f m ih => obtain ⟨i, v⟩ := f; simp only [mset] at h; split at h <;> [skip; split at h] <;> grind

theorem mem_mdel {m : Map α} {k : Nat} {e : Nat × α} (h : e ∈ mdel m k) : e ∈ m := by
  induction m with
  | nil => simp [mdel] at h
  | cons f m ih => obtain ⟨i, v⟩ := f; simp only [mdel] at h; split at h <;> [skip; split at h] <;> grind

variable [DecidableEq α]

theorem mwf_iff (z : α) (m : Map α) : mwf z m = true ↔ mrising m = true ∧ ∀ e ∈ m, e.2 ≠ z := by
  simp [mwf]

/-- Writing one entry keeps the canonical form. -/
theorem mwf_mput {z : α} {m : Map α} (h : mwf z m = true) (k : Nat) (x : α) : mwf z (mput z m k x) = true := by
  rw [mwf_iff] at h ⊢
  unfold mput
  split
  · exact ⟨mrising_mdel h.1 k, fun e he => h.2 e (mem_mdel he)⟩
  · refine ⟨mrising_mset h.1 k x, fun e he => ?_⟩
    rcases mem_mset he with rfl | he
    · assumption
    · exact h.2 e he

theorem mwf_mputs {z : α} (xs : List α) : ∀ {m : Map α} (_ : mwf z m = true) (k : Nat), mwf z (mputs z m k xs) = true := by
  induction xs with
  | nil => intro m h k; exact h
  | cons x xs ih => intro m h k; exact ih (mwf_mput h k x) (k + 1)

/-- Keeping some of the entries keeps the canonical form. -/
theorem mwf_filter {z : α} {m : Map α} (h : mwf z m = true) (p : Nat × α → Bool) : mwf z (m.filter p) = true := by
  rw [mwf_iff] at h ⊢
  refine ⟨?_, fun e he => h.2 e (List.mem_filter.1 he).1⟩
  have hr := h.1
  clear h
  induction m with
  | nil => rfl
  | cons e m ih =>
    obtain ⟨i, v⟩ := e
    obtain ⟨ha, hr⟩ := (mrising_cons i v m).1 hr
    rw [List.filter_cons]
    split
    · exact (mrising_cons _ _ _).2 ⟨fun e he => ha e (List.mem_filter.1 he).1, ih hr⟩
    · exact ih hr

/-- Reading after a write: the written key gives the value written, every other key what it gave before. -/
theorem mget_mput {z : α} {m : Map α} (h : mwf z m = true) (k j : Nat) (x : α) :
    mget z (mput z m k x) j = if j = k then x else mget z m j := by
  unfold mput
  split
  · subst_vars; simp only [mget, mget?_mdel ((mwf_iff _ _).1 h).1]; split <;> rfl
  · exact mget_mset z m k j x

omit [DecidableEq α] in
/-- Changing every entry keeps the keys. -/
theorem mget?_map (f : Nat → α → β) (m : Map α) (k : Nat) :
    mget? (m.map fun e => (e.1, f e.1 e.2)) k = (mget? m k).map (f k) := by
  induction m with
  | nil => rfl
  | cons e m ih => obtain ⟨i, v⟩ := e; simp only [List.map_cons, mget?]; grind

omit [DecidableEq α] in
theorem mrising_map (f : Nat → α → β) (m : Map α) : mrising (m.map fun e => (e.1, f e.1 e.2)) = mrising m := by
  induction m with
  | nil => rfl
  | cons e m ih => cases m with
    | nil => rfl
    | cons e' m => obtain ⟨i, v⟩ := e; obtain ⟨j, w⟩ := e'; simp only [List.map_cons, mrising] at ih ⊢; rw [ih]

end Sys2Proof.Machine
end

