-- ==== Sys2Proof/Laws/Benches.lean ====
section
/-! SUPPORT. Benches and threads: what reading one gives after it, or another, is changed; changes of one bench compose. -/

namespace Sys2Proof.Machine

theorem find?_updFirst_self {α : Type} (p : α → Bool) (f : α → α) (hf : ∀ x, p x = true → p (f x) = true) (xs : List α) :
    (updFirst p f xs).find? p = (xs.find? p).map f := by
  induction xs with
  | nil => rfl
  | cons x xs ih => simp only [updFirst]; grind

theorem find?_updFirst_other {α : Type} (p q : α → Bool) (f : α → α) (hf : ∀ x, p x = true → q x = false ∧ q (f x) = false)
    (xs : List α) : (updFirst p f xs).find? q = xs.find? q := by
  induction xs with
  | nil => rfl
  | cons x xs ih => simp only [updFirst]; grind

theorem updFirst_updFirst {α : Type} (p : α → Bool) (f h : α → α) (hf : ∀ x, p x = true → p (f x) = true) (xs : List α) :
    updFirst p h (updFirst p f xs) = updFirst p (fun x => h (f x)) xs := by
  induction xs with
  | nil => rfl
  | cons x xs ih => simp only [updFirst]; grind [updFirst]

theorem updFirst_congr {α : Type} (p : α → Bool) (f h : α → α) (xs : List α) (hf : ∀ x, xs.find? p = some x → f x = h x) :
    updFirst p f xs = updFirst p h xs := by
  induction xs with
  | nil => rfl
  | cons x xs ih => simp only [updFirst]; grind [updFirst]

theorem updFirst_id {α : Type} (p : α → Bool) (f : α → α) (xs : List α) (hf : ∀ x, xs.find? p = some x → f x = x) :
    updFirst p f xs = xs := by
  induction xs with
  | nil => rfl
  | cons x xs ih => simp only [updFirst]; grind

variable (s : State) (p q : Place)

@[simp] theorem bench?_updBench_self (f : Bench → Bench) (hf : ∀ b, (f b).place = b.place) :
    (s.updBench p f).bench? p = (s.bench? p).map f := by
  apply find?_updFirst_self; intro x hx; simpa [hf] using hx

theorem bench?_updBench_other (f : Bench → Bench) (hf : ∀ b, (f b).place = b.place) (h : q ≠ p) :
    (s.updBench p f).bench? q = s.bench? q := by
  apply find?_updFirst_other; intro x hx; simp only [decide_eq_true_eq] at hx; simp [hf, hx, Ne.symm h]

theorem updBench_updBench (f h : Bench → Bench) (hf : ∀ b, (f b).place = b.place) :
    (s.updBench p f).updBench p h = s.updBench p fun b => h (f b) := by
  simp only [State.updBench]; rw [updFirst_updFirst]; intro x hx; simpa [hf] using hx

theorem updBench_congr (f h : Bench → Bench) (hf : ∀ b, s.bench? p = some b → f b = h b) : s.updBench p f = s.updBench p h := by
  simp only [State.updBench]; rw [updFirst_congr]; exact hf

theorem updBench_id (f : Bench → Bench) (hf : ∀ b, s.bench? p = some b → f b = b) : s.updBench p f = s := by
  simp only [State.updBench]; rw [updFirst_id]; exact hf

theorem bench?_place {b : Bench} (h : s.bench? p = some b) : b.place = p := by
  simpa using List.find?_some h

theorem updThread_place (b : Bench) (l : Nat) (f : Thread → Thread) : (b.updThread l f).place = b.place := by
  unfold Bench.updThread; split <;> rfl

theorem updThread_threads (b : Bench) (l : Nat) (f : Thread → Thread) (t : Thread) (h : mget? b.threads l = some t) :
    b.updThread l f = { b with threads := mset b.threads l (f t) } := by
  simp [Bench.updThread, h]

/-- A thread after it is changed. -/
theorem thread?_updThread_self (l : Nat) (f : Thread → Thread) :
    (s.updThread p l f).thread? p l = (s.thread? p l).map f := by
  simp only [State.thread?, State.updThread]
  rw [bench?_updBench_self _ _ _ fun b => updThread_place b l f]
  cases s.bench? p with
  | none => rfl
  | some b =>
    simp only [Option.map_some, Option.bind_some, Bench.updThread]
    cases h : mget? b.threads l with
    | none => simp [h]
    | some t => simp [mget?_mset]

/-- Another thread after one is changed. -/
theorem thread?_updThread_other (l : Nat) (f : Thread → Thread) (k : Nat) (h : q ≠ p ∨ k ≠ l) :
    (s.updThread p l f).thread? q k = s.thread? q k := by
  simp only [State.thread?, State.updThread]
  by_cases hq : q = p
  · subst hq
    rw [bench?_updBench_self _ _ _ fun b => updThread_place b l f]
    cases s.bench? q with
    | none => rfl
    | some b =>
      simp only [Option.map_some, Option.bind_some, Bench.updThread]
      cases mget? b.threads l with
      | none => rfl
      | some t => simp [mget?_mset]; grind
  · rw [bench?_updBench_other _ _ _ _ (fun b => updThread_place b l f) hq]

end Sys2Proof.Machine
end

