-- ==== Sys2Proof/Laws/Issue.lean ====
section
/-! SUPPORT. What issuing an instruction can do (`issueWith`): the answer when no lane faults or waits, and the parts of the state an issue
itself changes. -/

namespace Sys2Proof.Machine

theorem grp?_cur {s : State} {g : Grp} (h : s.grp? = some g) :
    s.cur = .grp g.place g.lanes g.pc g.w g.w2 g.stop g.rep := by
  unfold State.grp? at h
  split at h
  · cases h; assumption
  · cases h

theorem noteIssue_eq (s : State) (g : Grp) : s.noteIssue g = { (s.updBench g.place fun b => b.noted g) with walks := [] } := rfl

/-- What issuing leaves in the bench it issues from. -/
theorem noteIssue_bench? (s : State) (g : Grp) : (s.noteIssue g).bench? g.place = (s.bench? g.place).map fun b => b.noted g :=
  bench?_updBench_self s g.place (fun b => b.noted g) fun _ => rfl

@[simp] theorem noted_place (b : Bench) (g : Grp) : (b.noted g).place = b.place := rfl
@[simp] theorem mapThreads_place (b : Bench) (f : Nat → Thread → Thread) : (b.mapThreads f).place = b.place := rfl
@[simp] theorem noted_mget? (b : Bench) (g : Grp) (l : Nat) : mget? (b.noted g).threads l = (mget? b.threads l).map (b.turned g l) :=
  mget?_map (b.turned g) b.threads l
theorem mapThreads_mget? (b : Bench) (f : Nat → Thread → Thread) (l : Nat) :
    mget? (b.mapThreads f).threads l = (mget? b.threads l).map (f l) := mget?_map f b.threads l
@[simp] theorem noted_rising (b : Bench) (g : Grp) : mrising (b.noted g).threads = mrising b.threads :=
  mrising_map (b.turned g) b.threads

theorem mapThreads_mapThreads (b : Bench) (f h : Nat → Thread → Thread) :
    (b.mapThreads f).mapThreads h = b.mapThreads fun l t => h l (f l t) := by
  simp [Bench.mapThreads, Function.comp_def]

@[simp] theorem wake_guard (t : Thread) : t.wake.guard = t.guard := by unfold Thread.wake; split <;> rfl
@[simp] theorem turned_guard (b : Bench) (g : Grp) (l : Nat) (t : Thread) : (b.turned g l t).guard = t.guard := by
  unfold Bench.turned; split
  · exact wake_guard t
  · exact wake_guard (b.passOver l t)
@[simp] theorem turned_checks (t : Thread) (b : Bench) (g g' : Grp) (l : Nat) (ops : List Opnd) (xs : List Use) :
    (b.turned g' l t).checks (b.noted g') g ops xs = t.checks b g ops xs := by
  unfold Bench.turned; split <;> unfold Thread.wake <;> split <;> rfl

@[simp] theorem classify_benches (s : State) (w d : Nat) : (s.classify w d).benches = s.benches := by unfold State.classify; split <;> rfl
@[simp] theorem countOps_benches (s : State) (w d n : Nat) : (s.countOps w d n).benches = s.benches := by
  unfold State.countOps; split <;> rfl
@[simp] theorem countFor_benches (s : State) (k n : Nat) : (s.countFor k n).benches = s.benches := by unfold State.countFor; split <;> simp
@[simp] theorem countFor_bench? (s : State) (k n : Nat) (p : Place) : (s.countFor k n).bench? p = s.bench? p := by simp [State.bench?]

theorem executing_eq {s : State} {g : Grp} {b : Bench} (h : s.bench? g.place = some b) : s.executing g = b.executing g := by
  simp only [State.executing, Bench.executing, h] <;> rfl

@[simp] theorem noted_executing (b : Bench) (g g' : Grp) : (b.noted g').executing g = b.executing g := by
  simp only [Bench.executing]
  apply List.filter_congr
  intro l _
  simp only [noted_mget?]
  cases mget? b.threads l <;> simp

/-- Setting one thread after another is changing that thread. -/
theorem updThread_mapThreads (s : State) (p : Place) (f : Nat → Thread → Thread) (l : Nat) (h : Thread → Thread) (b : Bench)
    (hb : s.bench? p = some b) (hr : mrising b.threads = true) :
    (s.updBench p fun b => b.mapThreads f).updThread p l h =
      s.updBench p fun b => b.mapThreads fun k t => if k = l then h (f k t) else f k t := by
  rw [State.updThread, updBench_updBench s p (fun b => b.mapThreads f) _ fun _ => rfl]
  apply updBench_congr
  intro b' hb'
  obtain rfl : b = b' := by simpa [hb] using hb'
  clear hb hb'
  have key : ∀ m : Map Thread, mrising m = true →
      (match mget? (m.map fun e => (e.1, f e.1 e.2)) l with
        | some t => mset (m.map fun e => (e.1, f e.1 e.2)) l (h t)
        | none => m.map fun e => (e.1, f e.1 e.2)) =
      m.map fun e => (e.1, if e.1 = l then h (f e.1 e.2) else f e.1 e.2) := by
    intro m
    induction m with
    | nil => intro _; rfl
    | cons e m ih =>
      intro hm
      obtain ⟨i, v⟩ := e
      obtain ⟨ha, hr⟩ := (mrising_cons i v m).1 hm
      have hne : ∀ e ∈ m, e.1 = l → i < l := fun e he hl => hl ▸ ha e he
      simp only [List.map_cons, mget?]
      by_cases h1 : l < i
      · simp only [h1, if_true, List.cons.injEq, Prod.mk.injEq, true_and]
        refine ⟨by rw [if_neg (by omega)], List.map_congr_left fun e he => ?_⟩
        rw [if_neg fun hl => by have := hne e he hl; omega]
      · by_cases h2 : l = i
        · subst h2
          simp only [Nat.lt_irrefl, if_false, if_true, mset, List.cons.injEq, true_and]
          refine List.map_congr_left fun e he => ?_
          rw [if_neg fun hl => by have := hne e he hl; omega]
        · simp only [h1, h2, if_false, Ne.symm h2]
          rw [← ih hr]
          split <;> simp_all [mset]
  have := key b.threads hr
  simp only [Bench.updThread, Bench.mapThreads]
  revert this
  cases mget? (b.threads.map fun e => (e.1, f e.1 e.2)) l <;>
    exact fun this => congrArg (fun m => ({ b with threads := m } : Bench)) this

theorem updThread_mapThreads_id (s : State) (p : Place) (f : Nat → Thread → Thread) (l : Nat) (b : Bench)
    (hb : s.bench? p = some b) (hr : mrising b.threads = true) :
    (s.updBench p fun b => b.mapThreads f).updThread p l (fun t => t) = s.updBench p fun b => b.mapThreads f := by
  rw [updThread_mapThreads s p f l _ b hb hr]
  simp only [ite_self]

/-- Lanes that all complete and change nothing but their own threads retire one by one: the group retires pointwise. -/
theorem runLanes_pointwise (g : Grp) (uses : Thread → List Use) (body : State → Nat → LaneRes) (s : State) (b : Bench)
    (hb : s.bench? g.place = some b) (hr : mrising b.threads = true)
    (f : Nat → Thread → Thread) (jump : Nat → Option DWord) (post : Nat → Thread → Thread) :
    ∀ (ls : List Nat) (F : Nat → Thread → Thread) (ts : List Trap), ls.Nodup →
    (∀ l ∈ ls, F l = id) →
    (∀ l ∈ ls, ∀ F : Nat → Thread → Thread, F l = id →
      body (s.updBench g.place fun b => b.mapThreads F) l =
        .ok ((s.updBench g.place fun b => b.mapThreads F).updThread g.place l (f l)) (jump l) (post l)) →
    runLanes g uses body ls (s.updBench g.place fun b => b.mapThreads F) ts =
      (s.updBench g.place fun b => b.mapThreads fun l t =>
        if l ∈ ls then post l ((f l t).retire g (uses (f l t)) (jump l)) else F l t, ts) := by
  intro ls
  induction ls with
  | nil => intro F ts _ _ _; simp [runLanes]
  | cons l ls ih =>
    intro F ts hn hF hbody
    obtain ⟨hl, hn⟩ := List.nodup_cons.1 hn
    have hFl := hF l (by simp)
    rw [runLanes, hbody l (by simp) F hFl]
    simp only
    rw [updThread_mapThreads s g.place F l (f l) b hb hr]
    rw [updThread_mapThreads s g.place _ l _ b hb hr]
    rw [ih _ ts hn]
    · congr 2
      funext b'
      congr 1
      funext k t
      by_cases hk : k ∈ ls
      · simp [hk]
      · by_cases hkl : k = l
        · subst hkl; simp [hk, hFl]
        · simp [hk, hkl]
    · intro k hk
      have : k ≠ l := fun h => hl (h ▸ hk)
      simp only [this, if_false]
      exact hF k (by simp [hk])
    · intro k hk G hG; exact hbody k (by simp [hk]) G hG

theorem takeTraps_nil (s : State) (p : Place) (pc : DWord) (fetch : Bool) : s.takeTraps p pc [] fetch = s := by
  unfold State.takeTraps; split <;> rfl

/-- ISSUE, when every lane passes its checks and completes: `pre` may change anything; each executing lane then changes its own
thread by `f`, and every lane of the group retires. -/
theorem issueWith_ok {s : State} {g : Grp} {b : Bench} (h : Issuing s g b) (ops : List Opnd) (xs : List Use)
    (hc : Passes b g ops xs) (pre : Grp → State → List Nat → State × (State → Nat → LaneRes))
    (s2 : State) (body : State → Nat → LaneRes) (hpre : pre g (s.opened g b) (b.executing g) = (s2, body))
    (b2 : Bench) (hb2 : s2.bench? g.place = some b2) (hr2 : mrising b2.threads = true)
    (hin : ∀ l ∈ g.lanes, ∃ t, mget? b2.threads l = some t)
    (f : Nat → Thread → Thread) (jump : Nat → Option DWord) (post : Nat → Thread → Thread)
    (hpost : ∀ l t, (post l t).polled = t.polled)
    (hbody : ∀ l ∈ b.executing g, ∀ F : Nat → Thread → Thread, F l = id →
      body (s2.updBench g.place fun b => b.mapThreads F) l =
        .ok ((s2.updBench g.place fun b => b.mapThreads F).updThread g.place l (f l)) (jump l) (post l)) :
    issueWith s ops xs pre = .next ((s2.retireLanes g fun l t =>
      if l ∈ b.executing g then post l ((f l t).retire g ((ops.flatMap fun o => o.uses (f l t)) ++ xs) (jump l))
      else t.retire g ((ops.flatMap fun o => o.uses t) ++ xs) none).countIssue g) := by
  have hb0 : (({ s with cur := .idle } : State).noteIssue g).bench? g.place = some (b.noted g) := by
    rw [noteIssue_bench?]
    show Option.map _ (s.bench? g.place) = _
    rw [h.bench]; rfl
  have hw : wordCause (({ s with cur := .idle } : State).noteIssue g) g = none := by
    have := h.word
    simp only [wordCause, h.bench] at this
    simp only [wordCause, hb0]
    exact this
  have hchk : ∀ l ∈ g.lanes, ((mget? (b.noted g).threads l).bind fun t => t.checks (b.noted g) g ops xs) = none := by
    intro l hl
    rw [noted_mget?]
    cases ht : mget? b.threads l with
    | none => rfl
    | some t => simp [hc l hl t ht]
  have hon : ((({ s with cur := .idle } : State).noteIssue g).executing g).filter
      (fun l => ((mget? (b.noted g).threads l).bind fun t => t.checks (b.noted g) g ops xs) = none) = b.executing g := by
    rw [executing_eq hb0, noted_executing]
    apply List.filter_eq_self.2
    intro l hl
    have : l ∈ g.lanes := (List.mem_filter.1 hl).1
    exact decide_eq_true (hchk l this)
  have hpl : b.place = g.place := bench?_place _ _ h.bench
  simp only [issueWith, h.cur, hw, hb0, hon]
  have hop : ((({ s with cur := .idle } : State).noteIssue g).countFor (b.noted g).task ((b.executing g).length * fpOps g.word)) = s.opened g b := rfl
  rw [hop, hpre]
  simp only
  have h2 : s2 = s2.updBench g.place fun b => b.mapThreads fun _ => id := by
    rw [updBench_id]; intro b' _; simp [Bench.mapThreads]
  have run := runLanes_pointwise g (fun t => (ops.flatMap fun o => o.uses t) ++ xs)
    (fun s l => match (mget? (b.noted g).threads l).bind fun t => t.checks (b.noted g) g ops xs with
      | some (c, v) => .trap s c 0 v
      | none => if (b.executing g).contains l then body s l else .done s) s2 b2 hb2 hr2
    (fun l => if l ∈ b.executing g then f l else id) (fun l => if l ∈ b.executing g then jump l else none)
    (fun l => if l ∈ b.executing g then post l else id) g.lanes (fun _ => id) [] h.nodup (fun _ _ => rfl) (by
      intro l hl F hF
      rw [hchk l hl]
      simp only
      by_cases he : l ∈ b.executing g
      · simp only [List.contains_iff_mem.2 he, he, if_true]
        rw [hbody l he F hF]
      · have : (b.executing g).contains l = false := by simpa using he
        simp only [this, he, if_false, LaneRes.done]
        simp only [Bool.false_eq_true, if_false]
        rw [updThread_mapThreads s2 g.place F l id b2 hb2 hr2]
        congr 2; funext b'; congr 1; funext k t; split <;> rfl)
  rw [← h2] at run
  have hret : (s2.updBench g.place fun b' => b'.mapThreads fun l t => if l ∈ g.lanes then
      (if l ∈ b.executing g then post l else id) (((if l ∈ b.executing g then f l else id) t).retire g
        ((ops.flatMap fun o => o.uses ((if l ∈ b.executing g then f l else id) t)) ++ xs) (if l ∈ b.executing g then jump l else none)) else id t) =
      s2.retireLanes g fun l t =>
        if l ∈ b.executing g then post l ((f l t).retire g ((ops.flatMap fun o => o.uses (f l t)) ++ xs) (jump l))
        else t.retire g ((ops.flatMap fun o => o.uses t) ++ xs) none := by
    simp only [State.retireLanes]
    congr 1; funext b'; congr 1; funext l t
    by_cases hl : l ∈ g.lanes
    · by_cases he : l ∈ b.executing g <;> simp [hl, he]
    · simp [hl]
  rw [hret] at run
  have key : ∀ B : State → Nat → LaneRes, (∀ s l, B s l = match (mget? (b.noted g).threads l).bind fun t => t.checks (b.noted g) g ops xs with
      | some (c, v) => .trap s c 0 v
      | none => if (b.executing g).contains l then body s l else .done s) →
      runLanes g (fun t => (ops.flatMap fun o => o.uses t) ++ xs) B g.lanes s2 [] = (s2.retireLanes g fun l t =>
        if l ∈ b.executing g then post l ((f l t).retire g ((ops.flatMap fun o => o.uses (f l t)) ++ xs) (jump l))
        else t.retire g ((ops.flatMap fun o => o.uses t) ++ xs) none, []) := by
    intro B hB
    rw [show B = _ from funext fun s => funext fun l => hB s l]
    exact run
  have hpoll : (s2.retireLanes g fun l t =>
        if l ∈ b.executing g then post l ((f l t).retire g ((ops.flatMap fun o => o.uses (f l t)) ++ xs) (jump l))
        else t.retire g ((ops.flatMap fun o => o.uses t) ++ xs) none).allPoll g = false := by
    obtain ⟨l, hl⟩ := List.exists_mem_of_ne_nil _ h.some_lane
    obtain ⟨t, ht⟩ := hin l hl
    have hpol : ∀ (t : Thread) u j, (t.retire g u j).polled = none := by
      intro t u j; simp only [Thread.retire]; split <;> split <;> rfl
    rw [State.allPoll, List.all_eq_false]
    refine ⟨l, hl, ?_⟩
    rw [State.retireLanes, bench?_updBench_self _ _ _ (by intro b'; rfl), hb2]
    simp only [Option.map_some, Option.bind_some, mapThreads_mget?, ht, hl, if_true]
    split <;> simp [hpost, hpol]
  have fin : ∀ R : State × List Trap, R = ((s2.retireLanes g fun l t =>
        if l ∈ b.executing g then post l ((f l t).retire g ((ops.flatMap fun o => o.uses (f l t)) ++ xs) (jump l))
        else t.retire g ((ops.flatMap fun o => o.uses t) ++ xs) none), []) →
      (Host.Outcome.next ((if R.2.isEmpty && R.1.allPoll g then R.1 else R.1.countIssue g).takeTraps g.place g.pc R.2) : Out) =
        .next ((s2.retireLanes g fun l t =>
        if l ∈ b.executing g then post l ((f l t).retire g ((ops.flatMap fun o => o.uses (f l t)) ++ xs) (jump l))
        else t.retire g ((ops.flatMap fun o => o.uses t) ++ xs) none).countIssue g) := by
    rintro _ rfl
    simp only [hpoll, Bool.and_false, Bool.false_eq_true, if_false]
    rw [takeTraps_nil]
  exact fin _ (key _ fun _ _ => rfl)

end Sys2Proof.Machine
end

