-- ==== Sys2Proof/Laws/Alu.lean ====
section
/-! SUPPORT. Everything an ALU word can do (`alu`): its exact next state when its values raise no trap. -/

namespace Sys2Proof.Machine

theorem updThread_updThread (s : State) (p : Place) (l : Nat) (f h : Thread → Thread) :
    (s.updThread p l f).updThread p l h = s.updThread p l fun t => h (f t) := by
  simp only [State.updThread]
  rw [updBench_updBench s p _ _ fun b => updThread_place b l f]
  apply updBench_congr
  intro b _
  simp only [Bench.updThread]
  cases ht : mget? b.threads l with
  | none => simp [ht]
  | some t =>
    simp only [mget?_mset, if_true]
    congr 1
    clear ht
    induction b.threads with
    | nil => simp [mset]
    | cons e m ih => obtain ⟨i, v⟩ := e; simp only [mset]; grind [mset]

theorem updThread_congr (s : State) (p : Place) (l : Nat) (f h : Thread → Thread) (hf : ∀ t, s.thread? p l = some t → f t = h t) :
    s.updThread p l f = s.updThread p l h := by
  simp only [State.updThread]
  apply updBench_congr
  intro b hb
  simp only [Bench.updThread]
  cases ht : mget? b.threads l with
  | none => rfl
  | some t => simp only; rw [hf t (by simp [State.thread?, hb, ht])]

theorem mget?_of_mem {α : Type} {m : Map α} (h : mrising m = true) {e : Nat × α} (he : e ∈ m) : mget? m e.1 = some e.2 := by
  induction m with
  | nil => cases he
  | cons x m ih =>
    obtain ⟨i, v⟩ := x
    obtain ⟨ha, hr⟩ := (mrising_cons i v m).1 h
    rcases List.mem_cons.1 he with rfl | he
    · simp [mget?]
    · have := ha e he; simp only [mget?]; rw [if_neg (by omega), if_neg (by omega)]; exact ih hr he

theorem retireLanes_congr {s : State} {g : Grp} {b : Bench} (hb : s.bench? g.place = some b) (hr : mrising b.threads = true)
    (F G : Nat → Thread → Thread) (h : ∀ l ∈ g.lanes, ∀ t, mget? b.threads l = some t → F l t = G l t) :
    s.retireLanes g F = s.retireLanes g G := by
  simp only [State.retireLanes]
  apply updBench_congr
  intro b' hb'
  obtain rfl : b = b' := by simpa [hb] using hb'
  simp only [Bench.mapThreads]
  congr 1
  apply List.map_congr_left
  intro e he
  by_cases hl : e.1 ∈ g.lanes
  · simp [hl, h e.1 hl e.2 (mget?_of_mem hr he)]
  · simp [hl]

theorem opened_bench? {s : State} {g : Grp} {b : Bench} (h : Issuing s g b) : (s.opened g b).bench? g.place = some (b.noted g) := by
  simp only [State.opened, countFor_bench?]
  rw [noteIssue_bench?]
  show Option.map _ (s.bench? g.place) = _
  rw [h.bench]; rfl

theorem noted_present {s : State} {g : Grp} {b : Bench} (h : Issuing s g b) :
    ∀ l ∈ g.lanes, ∃ t, mget? (b.noted g).threads l = some t := by
  intro l hl
  obtain ⟨t, ht⟩ := h.present l hl
  exact ⟨b.turned g l t, by simp [ht]⟩

theorem mapThreads_rising (b : Bench) (f : Nat → Thread → Thread) : mrising (b.mapThreads f).threads = mrising b.threads :=
  mrising_map f b.threads

/-- What lane `l` of a bench changed thread by thread reads, where its own thread is not changed. -/
theorem mapped_bench? {s : State} {p : Place} {b : Bench} (hb : s.bench? p = some b) (F : Nat → Thread → Thread) :
    (s.updBench p fun b => b.mapThreads F).bench? p = some (b.mapThreads F) := by
  rw [bench?_updBench_self _ _ _ (by intro _; rfl), hb]; rfl

theorem mapped_thread? {s : State} {p : Place} {b : Bench} (hb : s.bench? p = some b) (F : Nat → Thread → Thread) (l : Nat)
    (hF : F l = id) : (s.updBench p fun b => b.mapThreads F).thread? p l = mget? b.threads l := by
  simp only [State.thread?, mapped_bench? hb, Option.bind_some, mapThreads_mget?, hF]
  simp

theorem outV_eq (s : State) (p : Place) (l : Nat) (f : BitVec 7) (ws : List Word) :
    s.outV p l f ws = s.updThread p l fun t => { t with out := t.out ++ vecPend t f ws } := by
  simp only [State.outV, vecPend]

theorem uses_out (t : Thread) (ps : List Pend) (ops : List Opnd) (xs : List Use) :
    ((ops.flatMap fun o => o.uses { t with out := ps }) ++ xs : List Use) = (ops.flatMap fun o => o.uses t) ++ xs := rfl

/-- ISSUE, when every lane passes its checks and completes: `pre` may change anything but the threads' number; each executing lane then
gets results. -/
theorem issueWith_finish {s : State} {g : Grp} {b : Bench} (h : Issuing s g b) (ops : List Opnd) (xs : List Use)
    (hc : Passes b g ops xs) (pre : Grp → State → List Nat → State × (State → Nat → LaneRes))
    (s2 : State) (body : State → Nat → LaneRes) (hpre : pre g (s.opened g b) (b.executing g) = (s2, body))
    (b2 : Bench) (hb2 : s2.bench? g.place = some b2) (hr2 : mrising b2.threads = true)
    (hin : ∀ l ∈ g.lanes, ∃ t, mget? b2.threads l = some t)
    (out : Nat → Thread → List Pend) (jump : Nat → Thread → Option DWord)
    (post : Nat → Thread → Thread → Thread) (hpost : ∀ l t t', (post l t t').polled = t'.polled)
    (hbody : ∀ l ∈ b.executing g, ∀ t, mget? b2.threads l = some t → ∀ F : Nat → Thread → Thread, F l = id →
      body (s2.updBench g.place fun b => b.mapThreads F) l =
        .ok ((s2.updBench g.place fun b => b.mapThreads F).updThread g.place l fun t => { t with out := t.out ++ out l t }) (jump l t) (post l t)) :
    issueWith s ops xs pre = .next (s2.finish g (b.executing g) ops xs out jump post) := by
  let th (l : Nat) : Thread := (mget? b2.threads l).getD (Thread.start 0 0 0 0 0 0)
  have hth : ∀ l t, mget? b2.threads l = some t → th l = t := by
    intro l t ht; simp only [th, ht, Option.getD_some]
  rw [issueWith_ok h ops xs hc pre s2 body hpre b2 hb2 hr2 hin (fun l t => { t with out := t.out ++ out l t })
    (fun l => jump l (th l)) (fun l => post l (th l)) (fun l t => hpost l (th l) t)]
  · simp only [State.finish, uses_out]
    rw [retireLanes_congr hb2 hr2]
    intro l hl t ht
    simp only [hth l t ht]
  · intro l hl F hF
    have hlg : l ∈ g.lanes := (List.mem_filter.1 hl).1
    obtain ⟨t, ht⟩ := hin l hlg
    rw [hbody l hl t ht F hF, hth l t ht]

/-- A per-lane instruction whose lanes all complete. -/
theorem issue_finish {s : State} {g : Grp} {b : Bench} (h : Issuing s g b) (ops : List Opnd) (xs : List Use) (hc : Passes b g ops xs)
    (body : Grp → State → Nat → LaneRes) (out : Nat → Thread → List Pend) (jump : Nat → Thread → Option DWord)
    (post : Nat → Thread → Thread → Thread) (hpost : ∀ l t t', (post l t t').polled = t'.polled)
    (hbody : ∀ l ∈ b.executing g, ∀ t, mget? (b.noted g).threads l = some t → ∀ F : Nat → Thread → Thread, F l = id →
      body g ((s.opened g b).updBench g.place fun b => b.mapThreads F) l =
        .ok (((s.opened g b).updBench g.place fun b => b.mapThreads F).updThread g.place l fun t => { t with out := t.out ++ out l t })
          (jump l t) (post l t)) :
    issue s ops xs body = .next ((s.opened g b).finish g (b.executing g) ops xs out jump post) :=
  issueWith_finish h ops xs hc _ (s.opened g b) (body g) rfl (b.noted g) (opened_bench? h) (by simpa using h.rising) (noted_present h)
    out jump post hpost hbody

/-- Changing lanes one after another is changing them all at once. -/
theorem foldl_updThread {s : State} {p : Place} {b : Bench} (hb : s.bench? p = some b) (hr : mrising b.threads = true)
    (f : Nat → Thread → Thread) : ∀ (ls : List Nat) (F : Nat → Thread → Thread), ls.Nodup →
    ls.foldl (fun s l => s.updThread p l (f l)) (s.updBench p fun b => b.mapThreads F) =
      s.updBench p fun b => b.mapThreads fun l t => if l ∈ ls then f l (F l t) else F l t := by
  intro ls
  induction ls with
  | nil => intro F _; simp
  | cons l ls ih =>
    intro F hn
    obtain ⟨hl, hn⟩ := List.nodup_cons.1 hn
    rw [List.foldl_cons, updThread_mapThreads s p F l (f l) b hb hr, ih _ hn]
    congr 1; funext b'; congr 1; funext k t
    by_cases hk : k = l
    · subst hk; simp [hl]
    · simp [hk]

theorem mapThreads_id (b : Bench) : (b.mapThreads fun _ t => t) = b := by simp [Bench.mapThreads]

theorem foldl_updThread' {s : State} {p : Place} {b : Bench} (hb : s.bench? p = some b) (hr : mrising b.threads = true)
    (f : Nat → Thread → Thread) (ls : List Nat) (hn : ls.Nodup) :
    ls.foldl (fun s l => s.updThread p l (f l)) s = s.updBench p fun b => b.mapThreads fun l t => if l ∈ ls then f l t else t := by
  have := foldl_updThread hb hr f ls (fun _ t => t) hn
  rwa [updBench_id s p _ fun b _ => mapThreads_id b] at this

theorem polled_srBump (sr : Bool) (t : Thread) : (srBump sr t).polled = t.polled := by unfold srBump; split <;> rfl
theorem fenv_noted (b : Bench) (g : Grp) (F : Nat → Thread → Thread) (t : Thread) : fenv ((b.noted g).mapThreads F) t = fenv b t := rfl
theorem srcs_noted (o : AluOps) (m : OpMode) (b : Bench) (g : Grp) (F : Nat → Thread → Thread) (t : Thread) :
    o.srcs m ((b.noted g).mapThreads F) t = o.srcs m b t := rfl
theorem turned_env (b c : Bench) (g : Grp) (l : Nat) (t : Thread) : fenv b (c.turned g l t) = fenv b t := by
  unfold Bench.turned; split <;> unfold Thread.wake <;> split <;> rfl
theorem turned_srcs (o : AluOps) (m : OpMode) (b c : Bench) (g : Grp) (l : Nat) (t : Thread) :
    o.srcs m b (c.turned g l t) = o.srcs m b t := by
  unfold Bench.turned; split <;> unfold Thread.wake <;> split <;> rfl

/-- The next state of an ALU word. -/
theorem alu_ok (m : OpMode) (o : AluOps) (f : FEnv → List Word → AluRes) {s : State} {g : Grp} {b : Bench} (h : Issuing s g b)
    (hc : Passes b g (o.regs m) [])
    (ht : ∀ l ∈ (if m = .u then (b.executing g).take 1 else b.executing g), ∀ t, mget? b.threads l = some t →
      (f (fenv b t) (o.srcs m b t)).trap = none) :
    alu m o f s = .next (aluAfter (m, o, f) s g b) := by
  have lane : m ≠ .u → issue s (o.regs m) [] (aluLane m o f) = .next (aluAfter (m, o, f) s g b) := by
    intro hm
    rw [if_neg hm] at ht
    rw [issue_finish h (o.regs m) [] hc (aluLane m o f) _ _ _ (fun _ t t' => polled_srBump (f (fenv b t) (o.srcs m b t)).sr t')]
    · simp only [aluAfter, hm, if_false]; rfl
    · intro l hl t htl F hF
      have hb := opened_bench? h
      have hlg : l ∈ g.lanes := (List.mem_filter.1 hl).1
      obtain ⟨t', ht'⟩ := h.present l hlg
      rw [noted_mget?, ht'] at htl
      obtain rfl : b.turned g l t' = t := by simpa using htl
      simp only [aluLane, mapped_bench? hb, mapped_thread? hb F l hF, noted_mget?, ht', Option.map_some, fenv_noted, srcs_noted,
        turned_env, turned_srcs, ht l hl t' ht']
      congr 1
      rw [outV_eq, State.out, updThread_updThread]
      apply updThread_congr
      intro t ht
      rw [mapped_thread? hb F l hF, noted_mget?, ht'] at ht
      obtain rfl : b.turned g l t' = t := by simpa using ht
      simp only [turned_env, turned_srcs, List.append_assoc]
  unfold alu
  cases m with
  | v => exact lane (by decide)
  | s => exact lane (by decide)
  | u =>
    clear lane
    simp only [if_true] at ht
    have hb := opened_bench? h
    have hr : mrising (b.noted g).threads = true := by simpa using h.rising
    simp only [issueOnce, aluAfter, if_true]
    cases hon : b.executing g with
    | nil =>
      rw [issueWith_finish h (o.regs .u) [] hc _ (s.opened g b) skipLane (by simp [hon]) (b.noted g) hb hr (noted_present h)
        (fun _ _ => []) (fun _ _ => none) (fun _ _ t => t) (fun _ _ _ => rfl)]
      · simp [hon]
      · intro l hl; simp [hon] at hl
    | cons l0 ls =>
      have hl0 : l0 ∈ g.lanes := (List.mem_filter.1 (by rw [hon]; simp : l0 ∈ b.executing g)).1
      obtain ⟨t0, ht0⟩ := h.present l0 hl0
      have hth : (s.opened g b).thread? g.place l0 = some (b.turned g l0 t0) := by simp [State.thread?, hb, ht0]
      have htr := ht l0 (by simp [hon]) t0 ht0
      have hws : (b.turned g l0 t0).ws = t0.ws := by unfold Bench.turned; split <;> unfold Thread.wake <;> split <;> rfl
      let r := f (fenv b t0) (o.srcs .u b t0)
      let s1 := (s.opened g b).updBench g.place fun b' => b'.uniResults t0 o.d r.out (l0 :: ls)
      have hb1 : s1.bench? g.place = some ((b.noted g).uniResults t0 o.d r.out (l0 :: ls)) := by
        simp only [s1]
        rw [bench?_updBench_self _ _ _ (by intro _; rfl), hb]; rfl
      have hnd : (l0 :: ls).Nodup := by rw [← hon]; exact h.nodup.filter _
      have hsub : ∀ l ∈ l0 :: ls, l ∈ g.lanes := by intro l hl; rw [← hon] at hl; exact (List.mem_filter.1 hl).1
      have hout : (s.opened g b).outU g.place l0 (l0 :: ls) o.d r.out = s1 := by
        simp only [State.outU, s1]
        apply updBench_congr
        intro b' hb'
        obtain rfl : b.noted g = b' := by simpa [hb] using hb'
        simp only [noted_mget?, ht0, Option.map_some, hws, Bench.uniResults]
      have huni : aluUni o f (s.opened g b) g l0 (l0 :: ls) =
          .ok (s1.updBench g.place fun b => b.mapThreads fun l t => if l ∈ l0 :: ls then { t with out := t.out ++ flagPend r.flags } else t)
            none (srBump r.sr) := by
        simp only [aluUni, hb, hth, turned_env, turned_srcs]
        rw [show fenv (b.noted g) t0 = fenv b t0 from rfl, show o.srcs .u (b.noted g) t0 = o.srcs .u b t0 from rfl, htr]
        simp only
        rw [show f (fenv b t0) (o.srcs .u b t0) = r from rfl, hout]
        congr 1
        exact foldl_updThread' hb1 hr (fun _ t => { t with out := t.out ++ flagPend r.flags }) _ hnd
      have hb2 := mapped_bench? hb1 fun l t => if l ∈ l0 :: ls then { t with out := t.out ++ flagPend r.flags } else t
      have hr2 : mrising ((((b.noted g).uniResults t0 o.d r.out (l0 :: ls)).mapThreads
            fun l t => if l ∈ l0 :: ls then { t with out := t.out ++ flagPend r.flags } else t).threads) = true := by
        rw [mapThreads_rising]; exact hr
      rw [issueWith_ok h (o.regs .u) [] hc _ _ (fun s _ => .ok s none (srBump r.sr)) (by rw [hon]; simp only; rw [huni]) _ hb2 hr2
        (by
          intro l hl
          obtain ⟨t, ht⟩ := noted_present h l hl
          exact ⟨_, by rw [mapThreads_mget?]; show Option.map _ (mget? (b.noted g).threads l) = _; rw [ht]; rfl⟩)
        (fun _ t => t) (fun _ => none) (fun _ => srBump r.sr) (fun _ t => polled_srBump _ t)]
      · simp only [hon, ht0, Option.getD_some, State.finish]
        congr 2
        simp only [State.retireLanes]
        rw [updBench_updBench _ _ _ _ (by intro _; rfl)]
        apply updBench_congr
        intro b' _
        rw [mapThreads_mapThreads]
        congr 1; funext l t
        by_cases hlo : l ∈ l0 :: ls
        · simp only [hlo, hsub l hlo, if_true, uses_out]; rfl
        · simp only [hlo, if_false]
      · intro l hl F hF
        rw [updThread_mapThreads_id _ g.place F l _ hb2 hr2]

end Sys2Proof.Machine
end

