-- ==== Sys2Proof/Laws/PerInstr.lean ====
section
/-! SUPPORT. The family `Shape`, per instruction: an instruction of an opcode-table row has one word below 2^31 (its stop bit clear), an X
instruction or an atomic a second word, a micro-op two words of 32 bits, and an event none. -/

namespace Sys2Proof.Laws.Shape

open Sys2Proof

/-- The words of an instruction fit their widths, with bit 31 of an instruction's first word left for the stop bit (R49, R54, R311). -/
def Statement (i : Instr) : Prop :=
  match encodeWords i with
  | [] => True
  | [w] => w < 2 ^ 31
  | [w, v] => (i.isMicro = false → w < 2 ^ 31) ∧ w < 2 ^ 32 ∧ v < 2 ^ 32
  | _ => False

theorem at_le {n : Nat} (x : BitVec n) (lo : Nat) : at_ x lo ≤ 2 ^ (n + lo) - 2 ^ lo := by
  have : at_ x lo + 2 ^ lo ≤ 2 ^ (n + lo) := by
    rw [at_, Nat.pow_add]
    calc x.toNat * 2 ^ lo + 2 ^ lo = (x.toNat + 1) * 2 ^ lo := by ring
      _ ≤ _ := Nat.mul_le_mul_right _ x.isLt
  omega
theorem bAt_le (b : Bool) (lo : Nat) : bAt b lo ≤ 2 ^ lo := by cases b <;> simp [bAt]
theorem enc_le (m : OpMode) : m.enc ≤ 2 ^ 22 := by cases m <;> simp [OpMode.enc]

/-! An event, an instruction of one word, one of two words, and a micro-op. -/

theorem event {i : Instr} (e : encodeWords i = []) : Statement i := by unfold Statement; rw [e]; trivial
theorem one {i : Instr} {w : Nat} (e : encodeWords i = [w]) (h : w < 2 ^ 31) : Statement i := by unfold Statement; rw [e]; exact h
theorem two {i : Instr} {w v : Nat} (e : encodeWords i = [w, v]) (h : w < 2 ^ 31) (h' : v < 2 ^ 32) : Statement i := by
  unfold Statement; rw [e]; exact ⟨fun _ => h, by omega, h'⟩
theorem microOp {i : Instr} {w v : Nat} (e : encodeWords i = [w, v]) (hm : i.isMicro = true) (h : w < 2 ^ 32) (h' : v < 2 ^ 32) :
    Statement i := by
  unfold Statement; rw [e]; exact ⟨fun hf => by simp [hm] at hf, h, h'⟩

theorem iadd m d a b : Statement (.iadd m d a b) := one rfl (by grind only [aluW, at_le, enc_le])
theorem isub m d a b : Statement (.isub m d a b) := one rfl (by grind only [aluW, at_le, enc_le])
theorem imul m d a b : Statement (.imul m d a b) := one rfl (by grind only [aluW, at_le, enc_le])
theorem imulhs m d a b : Statement (.imulhs m d a b) := one rfl (by grind only [aluW, at_le, enc_le])
theorem imulhu m d a b : Statement (.imulhu m d a b) := one rfl (by grind only [aluW, at_le, enc_le])
theorem imad m d a b : Statement (.imad m d a b) := one rfl (by grind only [aluW, at_le, enc_le])
theorem imulw m d a b : Statement (.imulw m d a b) := one rfl (by grind only [aluW, at_le, enc_le])
theorem iadd64 m d a b : Statement (.iadd64 m d a b) := one rfl (by grind only [aluW, at_le, enc_le])
theorem isub64 m d a b : Statement (.isub64 m d a b) := one rfl (by grind only [aluW, at_le, enc_le])
theorem imins m d a b : Statement (.imins m d a b) := one rfl (by grind only [aluW, at_le, enc_le])
theorem iminu m d a b : Statement (.iminu m d a b) := one rfl (by grind only [aluW, at_le, enc_le])
theorem imaxs m d a b : Statement (.imaxs m d a b) := one rfl (by grind only [aluW, at_le, enc_le])
theorem imaxu m d a b : Statement (.imaxu m d a b) := one rfl (by grind only [aluW, at_le, enc_le])
theorem idivu m d a b : Statement (.idivu m d a b) := one rfl (by grind only [aluW, at_le, enc_le])
theorem idivs m d a b : Statement (.idivs m d a b) := one rfl (by grind only [aluW, at_le, enc_le])
theorem and m d a b : Statement (.and m d a b) := one rfl (by grind only [aluW, at_le, enc_le])
theorem or m d a b : Statement (.or m d a b) := one rfl (by grind only [aluW, at_le, enc_le])
theorem xor m d a b : Statement (.xor m d a b) := one rfl (by grind only [aluW, at_le, enc_le])
theorem andn m d a b : Statement (.andn m d a b) := one rfl (by grind only [aluW, at_le, enc_le])
theorem shl m d a b : Statement (.shl m d a b) := one rfl (by grind only [aluW, at_le, enc_le])
theorem shr m d a b : Statement (.shr m d a b) := one rfl (by grind only [aluW, at_le, enc_le])
theorem sar m d a b : Statement (.sar m d a b) := one rfl (by grind only [aluW, at_le, enc_le])
theorem rol m d a b : Statement (.rol m d a b) := one rfl (by grind only [aluW, at_le, enc_le])
theorem fshl m d a b : Statement (.fshl m d a b) := one rfl (by grind only [aluW, at_le, enc_le])
theorem fshr m d a b : Statement (.fshr m d a b) := one rfl (by grind only [aluW, at_le, enc_le])
theorem bfxu m d a b : Statement (.bfxu m d a b) := one rfl (by grind only [aluW, at_le, enc_le])
theorem bfxs m d a b : Statement (.bfxs m d a b) := one rfl (by grind only [aluW, at_le, enc_le])
theorem bfi m d a b : Statement (.bfi m d a b) := one rfl (by grind only [aluW, at_le, enc_le])
theorem popc u d a : Statement (.popc u d a) := one rfl (by grind only [aluW, at_le, bAt_le])
theorem clz u d a : Statement (.clz u d a) := one rfl (by grind only [aluW, at_le, bAt_le])
theorem brev u d a : Statement (.brev u d a) := one rfl (by grind only [aluW, at_le, bAt_le])
theorem mov u d a : Statement (.mov u d a) := one rfl (by grind only [aluW, at_le, bAt_le])
theorem movi u d i : Statement (.movi u d i) := one rfl (by grind only [aluW, at_le, bAt_le])
theorem movhi u d i : Statement (.movhi u d i) := one rfl (by grind only [aluW, at_le, bAt_le])
theorem ldi32 u d lit : Statement (.ldi32 u d lit) := two rfl (by grind only [aluW, at_le, bAt_le]) (by have := lit.isLt; omega)
theorem iaddi u d a i : Statement (.iaddi u d a i) := one rfl (by grind only [aluW, at_le, bAt_le])
theorem imuli u d a i : Statement (.imuli u d a i) := one rfl (by grind only [aluW, at_le, bAt_le])
theorem andi u d a i : Statement (.andi u d a i) := one rfl (by grind only [aluW, at_le, bAt_le])
theorem ori u d a i : Statement (.ori u d a i) := one rfl (by grind only [aluW, at_le, bAt_le])
theorem xori u d a i : Statement (.xori u d a i) := one rfl (by grind only [aluW, at_le, bAt_le])
theorem shli u d a i : Statement (.shli u d a i) := one rfl (by grind only [aluW, at_le, bAt_le])
theorem shri u d a i : Statement (.shri u d a i) := one rfl (by grind only [aluW, at_le, bAt_le])
theorem sari u d a i : Statement (.sari u d a i) := one rfl (by grind only [aluW, at_le, bAt_le])
theorem lea4 u d a b : Statement (.lea4 u d a b) := one rfl (by grind only [aluW, at_le, bAt_le])
theorem lea8 u d a b : Statement (.lea8 u d a b) := one rfl (by grind only [aluW, at_le, bAt_le])
theorem csrr u d i : Statement (.csrr u d i) := one rfl (by grind only [aluW, at_le, bAt_le])
theorem csrw u d i : Statement (.csrw u d i) := one rfl (by grind only [aluW, at_le, bAt_le])
theorem fadd m d a b : Statement (.fadd m d a b) := one rfl (by grind only [aluW, at_le, enc_le])
theorem fsub m d a b : Statement (.fsub m d a b) := one rfl (by grind only [aluW, at_le, enc_le])
theorem fmul m d a b : Statement (.fmul m d a b) := one rfl (by grind only [aluW, at_le, enc_le])
theorem ffma m d a b : Statement (.ffma m d a b) := one rfl (by grind only [aluW, at_le, enc_le])
theorem ffms m d a b : Statement (.ffms m d a b) := one rfl (by grind only [aluW, at_le, enc_le])
theorem fmin m d a b : Statement (.fmin m d a b) := one rfl (by grind only [aluW, at_le, enc_le])
theorem fmax m d a b : Statement (.fmax m d a b) := one rfl (by grind only [aluW, at_le, enc_le])
theorem fminn m d a b : Statement (.fminn m d a b) := one rfl (by grind only [aluW, at_le, enc_le])
theorem fmaxn m d a b : Statement (.fmaxn m d a b) := one rfl (by grind only [aluW, at_le, enc_le])
theorem fabs u d a : Statement (.fabs u d a) := one rfl (by grind only [aluW, at_le, bAt_le])
theorem fneg u d a : Statement (.fneg u d a) := one rfl (by grind only [aluW, at_le, bAt_le])
theorem fcpys m d a b : Statement (.fcpys m d a b) := one rfl (by grind only [aluW, at_le, enc_le])
theorem frnd u d a m : Statement (.frnd u d a m) := one rfl (by grind only [aluW, at_le, bAt_le])
theorem fclass u d a : Statement (.fclass u d a) := one rfl (by grind only [aluW, at_le, bAt_le])
theorem fscale m d a b : Statement (.fscale m d a b) := one rfl (by grind only [aluW, at_le, enc_le])
theorem fdiv m d a b : Statement (.fdiv m d a b) := one rfl (by grind only [aluW, at_le, enc_le])
theorem hadd2 m d a b : Statement (.hadd2 m d a b) := one rfl (by grind only [aluW, at_le, enc_le])
theorem hmul2 m d a b : Statement (.hmul2 m d a b) := one rfl (by grind only [aluW, at_le, enc_le])
theorem hfma2 m d a b : Statement (.hfma2 m d a b) := one rfl (by grind only [aluW, at_le, enc_le])
theorem hmin2 m d a b : Statement (.hmin2 m d a b) := one rfl (by grind only [aluW, at_le, enc_le])
theorem hmax2 m d a b : Statement (.hmax2 m d a b) := one rfl (by grind only [aluW, at_le, enc_le])
theorem badd2 m d a b : Statement (.badd2 m d a b) := one rfl (by grind only [aluW, at_le, enc_le])
theorem bmul2 m d a b : Statement (.bmul2 m d a b) := one rfl (by grind only [aluW, at_le, enc_le])
theorem bfma2 m d a b : Statement (.bfma2 m d a b) := one rfl (by grind only [aluW, at_le, enc_le])
theorem bmin2 m d a b : Statement (.bmin2 m d a b) := one rfl (by grind only [aluW, at_le, enc_le])
theorem bmax2 m d a b : Statement (.bmax2 m d a b) := one rfl (by grind only [aluW, at_le, enc_le])
theorem hdot2 m d a b : Statement (.hdot2 m d a b) := one rfl (by grind only [aluW, at_le, enc_le])
theorem bdot2 m d a b : Statement (.bdot2 m d a b) := one rfl (by grind only [aluW, at_le, enc_le])
theorem qdot4 m d a b : Statement (.qdot4 m d a b) := one rfl (by grind only [aluW, at_le, enc_le])
theorem idot4s m d a b : Statement (.idot4s m d a b) := one rfl (by grind only [aluW, at_le, enc_le])
theorem idot4u m d a b : Statement (.idot4u m d a b) := one rfl (by grind only [aluW, at_le, enc_le])
theorem idot8 m d a b : Statement (.idot8 m d a b) := one rfl (by grind only [aluW, at_le, enc_le])
theorem cvtff u d a x y m : Statement (.cvtff u d a x y m) := one rfl (by grind only [aluW, at_le, bAt_le])
theorem cvtfi u d a y m : Statement (.cvtfi u d a y m) := one rfl (by grind only [aluW, at_le, bAt_le])
theorem cvtif u d a y g m : Statement (.cvtif u d a y g m) := one rfl (by grind only [aluW, at_le, bAt_le])
theorem cvtii u d a w t v : Statement (.cvtii u d a w t v) := one rfl (by grind only [aluW, at_le, bAt_le])
theorem packb8 m d a b : Statement (.packb8 m d a b) := one rfl (by grind only [aluW, at_le, enc_le])
theorem unpkb8 u d a p e x j : Statement (.unpkb8 u d a p e x j) := one rfl (by grind only [aluW, at_le, bAt_le])
theorem packi4 m d a b : Statement (.packi4 m d a b) := one rfl (by grind only [aluW, at_le, enc_le])
theorem unpki4 u d a x j : Statement (.unpki4 u d a x j) := one rfl (by grind only [aluW, at_le, bAt_le])
theorem qmaxb d a : Statement (.qmaxb d a) := one rfl (by grind only [aluW, at_le])
theorem qpick u d a i : Statement (.qpick u d a i) := one rfl (by grind only [aluW, at_le, bAt_le])
theorem srnd u d i : Statement (.srnd u d i) := one rfl (by grind only [aluW, at_le, bAt_le])
theorem fexp u d a : Statement (.fexp u d a) := one rfl (by grind only [aluW, at_le, bAt_le])
theorem rcp u d a : Statement (.rcp u d a) := one rfl (by grind only [aluW, at_le, bAt_le])
theorem rsq u d a : Statement (.rsq u d a) := one rfl (by grind only [aluW, at_le, bAt_le])
theorem sqrt u d a : Statement (.sqrt u d a) := one rfl (by grind only [aluW, at_le, bAt_le])
theorem ex2 u d a : Statement (.ex2 u d a) := one rfl (by grind only [aluW, at_le, bAt_le])
theorem lg2 u d a : Statement (.lg2 u d a) := one rfl (by grind only [aluW, at_le, bAt_le])
theorem sinpi u d a : Statement (.sinpi u d a) := one rfl (by grind only [aluW, at_le, bAt_le])
theorem cospi u d a : Statement (.cospi u d a) := one rfl (by grind only [aluW, at_le, bAt_le])
theorem tanh u d a : Statement (.tanh u d a) := one rfl (by grind only [aluW, at_le, bAt_le])
theorem rcph u d a : Statement (.rcph u d a) := one rfl (by grind only [aluW, at_le, bAt_le])
theorem ex2h u d a : Statement (.ex2h u d a) := one rfl (by grind only [aluW, at_le, bAt_le])
theorem iseteq m d a b : Statement (.iseteq m d a b) := one rfl (by grind only [aluW, at_le, enc_le])
theorem isetne m d a b : Statement (.isetne m d a b) := one rfl (by grind only [aluW, at_le, enc_le])
theorem isetlt m d a b : Statement (.isetlt m d a b) := one rfl (by grind only [aluW, at_le, enc_le])
theorem isetle m d a b : Statement (.isetle m d a b) := one rfl (by grind only [aluW, at_le, enc_le])
theorem isetltu m d a b : Statement (.isetltu m d a b) := one rfl (by grind only [aluW, at_le, enc_le])
theorem isetleu m d a b : Statement (.isetleu m d a b) := one rfl (by grind only [aluW, at_le, enc_le])
theorem fseteq m d a b : Statement (.fseteq m d a b) := one rfl (by grind only [aluW, at_le, enc_le])
theorem fsetne m d a b : Statement (.fsetne m d a b) := one rfl (by grind only [aluW, at_le, enc_le])
theorem fsetlt m d a b : Statement (.fsetlt m d a b) := one rfl (by grind only [aluW, at_le, enc_le])
theorem fsetle m d a b : Statement (.fsetle m d a b) := one rfl (by grind only [aluW, at_le, enc_le])
theorem fsetun m d a b : Statement (.fsetun m d a b) := one rfl (by grind only [aluW, at_le, enc_le])
theorem pand d a b : Statement (.pand d a b) := one rfl (by grind only [aluW, at_le])
theorem por d a b : Statement (.por d a b) := one rfl (by grind only [aluW, at_le])
theorem pxor d a b : Statement (.pxor d a b) := one rfl (by grind only [aluW, at_le])
theorem pandn d a b : Statement (.pandn d a b) := one rfl (by grind only [aluW, at_le])
theorem ptov d a : Statement (.ptov d a) := one rfl (by grind only [aluW, at_le])
theorem shfli d a b : Statement (.shfli d a b) := one rfl (by grind only [fnW, at_le])
theorem shflu d a k : Statement (.shflu d a k) := one rfl (by grind only [fnW, at_le])
theorem shfld d a k : Statement (.shfld d a k) := one rfl (by grind only [fnW, at_le])
theorem shflx d a k : Statement (.shflx d a k) := one rfl (by grind only [fnW, at_le])
theorem vall d a : Statement (.vall d a) := one rfl (by grind only [fnW, at_le])
theorem vany d a : Statement (.vany d a) := one rfl (by grind only [fnW, at_le])
theorem vbal d a : Statement (.vbal d a) := one rfl (by grind only [fnW, at_le])
theorem vmatch d a : Statement (.vmatch d a) := one rfl (by grind only [fnW, at_le])
theorem rdlane d a k : Statement (.rdlane d a k) := one rfl (by grind only [fnW, at_le])
theorem redsumi d a : Statement (.redsumi d a) := one rfl (by grind only [fnW, at_le])
theorem redsumf d a : Statement (.redsumf d a) := one rfl (by grind only [fnW, at_le])
theorem scansumi d a : Statement (.scansumi d a) := one rfl (by grind only [fnW, at_le])
theorem scansumf d a : Statement (.scansumf d a) := one rfl (by grind only [fnW, at_le])
theorem elect d : Statement (.elect d) := one rfl (by grind only [fnW, at_le])
theorem bmask d : Statement (.bmask d) := one rfl (by grind only [fnW, at_le])
theorem bra i : Statement (.bra i) := one rfl (by grind only [fnW, at_le])
theorem brx a : Statement (.brx a) := one rfl (by grind only [fnW, at_le])
theorem call i : Statement (.call i) := one rfl (by grind only [fnW, at_le])
theorem callx a : Statement (.callx a) := one rfl (by grind only [fnW, at_le])
theorem ret : Statement .ret := one rfl (by decide)
theorem exit : Statement .exit := one rfl (by decide)
theorem trap i : Statement (.trap i) := one rfl (by grind only [fnW, at_le])
theorem bpt i : Statement (.bpt i) := one rfl (by grind only [fnW, at_le])
theorem nop : Statement .nop := one rfl (by decide)
theorem yield : Statement .yield := one rfl (by decide)
theorem marm a : Statement (.marm a) := one rfl (by grind only [fnW, at_le])
theorem mwait : Statement .mwait := one rfl (by decide)
theorem winv i : Statement (.winv i) := one rfl (by grind only [fnW, at_le])
theorem wins i : Statement (.wins i) := one rfl (by grind only [fnW, at_le])
theorem eret : Statement .eret := one rfl (by decide)
theorem halt : Statement .halt := one rfl (by decide)
theorem ld8 d a i : Statement (.ld8 d a i) := one rfl (by grind only [fnW, at_le])
theorem ld8s d a i : Statement (.ld8s d a i) := one rfl (by grind only [fnW, at_le])
theorem ld16 d a i : Statement (.ld16 d a i) := one rfl (by grind only [fnW, at_le])
theorem ld16s d a i : Statement (.ld16s d a i) := one rfl (by grind only [fnW, at_le])
theorem ld32 d a i : Statement (.ld32 d a i) := one rfl (by grind only [fnW, at_le])
theorem ld64 d a i : Statement (.ld64 d a i) := one rfl (by grind only [fnW, at_le])
theorem ld128 d a i : Statement (.ld128 d a i) := one rfl (by grind only [fnW, at_le])
theorem st8 d a i : Statement (.st8 d a i) := one rfl (by grind only [fnW, at_le])
theorem st16 d a i : Statement (.st16 d a i) := one rfl (by grind only [fnW, at_le])
theorem st32 d a i : Statement (.st32 d a i) := one rfl (by grind only [fnW, at_le])
theorem st64 d a i : Statement (.st64 d a i) := one rfl (by grind only [fnW, at_le])
theorem st128 d a i : Statement (.st128 d a i) := one rfl (by grind only [fnW, at_le])
theorem ls32 d a i : Statement (.ls32 d a i) := one rfl (by grind only [fnW, at_le])
theorem ls64 d a i : Statement (.ls64 d a i) := one rfl (by grind only [fnW, at_le])
theorem ls128 d a i : Statement (.ls128 d a i) := one rfl (by grind only [fnW, at_le])
theorem ss32 d a i : Statement (.ss32 d a i) := one rfl (by grind only [fnW, at_le])
theorem ss64 d a i : Statement (.ss64 d a i) := one rfl (by grind only [fnW, at_le])
theorem ss128 d a i : Statement (.ss128 d a i) := one rfl (by grind only [fnW, at_le])
theorem lq q d : Statement (.lq q d) := one rfl (by grind only [fnW, at_le])
theorem sq q a : Statement (.sq q a) := one rfl (by grind only [fnW, at_le])
theorem ltag d a i : Statement (.ltag d a i) := one rfl (by grind only [fnW, at_le])
theorem stag d a i : Statement (.stag d a i) := one rfl (by grind only [fnW, at_le])
theorem lda32 d a o h : Statement (.lda32 d a o h) := one rfl (by grind only [fnW, at_le])
theorem lda64 d a o h : Statement (.lda64 d a o h) := one rfl (by grind only [fnW, at_le])
theorem sta32 d a o h : Statement (.sta32 d a o h) := one rfl (by grind only [fnW, at_le])
theorem sta64 d a o h : Statement (.sta64 d a o h) := one rfl (by grind only [fnW, at_le])
theorem pref a i : Statement (.pref a i) := one rfl (by grind only [fnW, at_le])
theorem ldk32 d a i : Statement (.ldk32 d a i) := one rfl (by grind only [fnW, at_le])
theorem ldk64 d a i : Statement (.ldk64 d a i) := one rfl (by grind only [fnW, at_le])
theorem lsk32 d a : Statement (.lsk32 d a) := one rfl (by grind only [fnW, at_le])
theorem aadd d a b t : Statement (.aadd d a b t) := two rfl (by grind only [fnW, at_le]) (by grind only [AtomAttr.enc, at_le, bAt_le])
theorem amin d a b t : Statement (.amin d a b t) := two rfl (by grind only [fnW, at_le]) (by grind only [AtomAttr.enc, at_le, bAt_le])
theorem amax d a b t : Statement (.amax d a b t) := two rfl (by grind only [fnW, at_le]) (by grind only [AtomAttr.enc, at_le, bAt_le])
theorem aminu d a b t : Statement (.aminu d a b t) := two rfl (by grind only [fnW, at_le]) (by grind only [AtomAttr.enc, at_le, bAt_le])
theorem amaxu d a b t : Statement (.amaxu d a b t) := two rfl (by grind only [fnW, at_le]) (by grind only [AtomAttr.enc, at_le, bAt_le])
theorem aand d a b t : Statement (.aand d a b t) := two rfl (by grind only [fnW, at_le]) (by grind only [AtomAttr.enc, at_le, bAt_le])
theorem aor d a b t : Statement (.aor d a b t) := two rfl (by grind only [fnW, at_le]) (by grind only [AtomAttr.enc, at_le, bAt_le])
theorem axor d a b t : Statement (.axor d a b t) := two rfl (by grind only [fnW, at_le]) (by grind only [AtomAttr.enc, at_le, bAt_le])
theorem axchg d a b t : Statement (.axchg d a b t) := two rfl (by grind only [fnW, at_le]) (by grind only [AtomAttr.enc, at_le, bAt_le])
theorem acas d a b t : Statement (.acas d a b t) := two rfl (by grind only [fnW, at_le]) (by grind only [AtomAttr.enc, at_le, bAt_le])
theorem afadd d a b t : Statement (.afadd d a b t) := two rfl (by grind only [fnW, at_le]) (by grind only [AtomAttr.enc, at_le, bAt_le])
theorem afmax d a b t : Statement (.afmax d a b t) := two rfl (by grind only [fnW, at_le]) (by grind only [AtomAttr.enc, at_le, bAt_le])
theorem ainc d a b t : Statement (.ainc d a b t) := two rfl (by grind only [fnW, at_le]) (by grind only [AtomAttr.enc, at_le, bAt_le])
theorem adec d a b t : Statement (.adec d a b t) := two rfl (by grind only [fnW, at_le]) (by grind only [AtomAttr.enc, at_le, bAt_le])
theorem fence k h : Statement (.fence k h) := one rfl (by grind only [fnW, at_le])
theorem fencex : Statement .fencex := one rfl (by decide)
theorem phase : Statement .phase := one rfl (by decide)
theorem ifence : Statement .ifence := one rfl (by decide)
theorem gnew d : Statement (.gnew d) := one rfl (by grind only [fnW, at_le])
theorem gjoin a : Statement (.gjoin a) := one rfl (by grind only [fnW, at_le])
theorem gleave : Statement .gleave := one rfl (by decide)
theorem gfree d a : Statement (.gfree d a) := one rfl (by grind only [fnW, at_le])
theorem gmask d : Statement (.gmask d) := one rfl (by grind only [fnW, at_le])
theorem barr n v r u e : Statement (.barr n v r u e) := one rfl (by grind only [fnW, at_le, bAt_le])
theorem bwait n v r u e : Statement (.bwait n v r u e) := one rfl (by grind only [fnW, at_le, bAt_le])
theorem bsync n v r u e : Statement (.bsync n v r u e) := one rfl (by grind only [fnW, at_le, bAt_le])
theorem bexpect n v u e : Statement (.bexpect n v u e) := one rfl (by grind only [fnW, at_le, bAt_le])
theorem bdone n u e : Statement (.bdone n u e) := one rfl (by grind only [fnW, at_le, bAt_le])
theorem tsub d a : Statement (.tsub d a) := one rfl (by grind only [fnW, at_le])
theorem tlwait h v : Statement (.tlwait h v) := one rfl (by grind only [fnW, at_le])
theorem tlread v h : Statement (.tlread v h) := one rfl (by grind only [fnW, at_le])
theorem tlsig h v : Statement (.tlsig h v) := one rfl (by grind only [fnW, at_le])
theorem bqrySlot n v u e : Statement (.bqrySlot n v u e) := one rfl (by grind only [fnW, at_le, bAt_le])
theorem mldw n a c : Statement (.mldw n a c) := one rfl (by grind only [fnW, at_le])
theorem mldwd n a c : Statement (.mldwd n a c) := one rfl (by grind only [fnW, at_le])
theorem mma t m n a c : Statement (.mma t m n a c) := one rfl (by grind only [fnW, at_le])
theorem mmad t m n a c : Statement (.mmad t m n a c) := one rfl (by grind only [fnW, at_le])
theorem mzero t m : Statement (.mzero t m) := one rfl (by grind only [fnW, at_le])
theorem mdrain t m a c : Statement (.mdrain t m a c) := one rfl (by grind only [fnW, at_le])
theorem mdraint t a c : Statement (.mdraint t a c) := one rfl (by grind only [fnW, at_le])
theorem mdrainp t m a c : Statement (.mdrainp t m a c) := one rfl (by grind only [fnW, at_le])
theorem mreds t m n a : Statement (.mreds t m n a) := one rfl (by grind only [fnW, at_le])
theorem mscan t m a : Statement (.mscan t m a) := one rfl (by grind only [fnW, at_le])
theorem mldz t m a : Statement (.mldz t m a) := one rfl (by grind only [fnW, at_le])
theorem mstz t m a c : Statement (.mstz t m a c) := one rfl (by grind only [fnW, at_le])
theorem mstat t l sel a : Statement (.mstat t l sel a) := one rfl (by grind only [fnW, at_le, bAt_le])
theorem bcopy d a : Statement (.bcopy d a) := one rfl (by grind only [fnW, at_le])
theorem bcancel d a b : Statement (.bcancel d a b) := one rfl (by grind only [fnW, at_le])
theorem bqryQueue d a : Statement (.bqryQueue d a) := one rfl (by grind only [fnW, at_le])
theorem kvx d a b : Statement (.kvx d a b) := one rfl (by grind only [fnW, at_le])
theorem kvput d a b : Statement (.kvput d a b) := one rfl (by grind only [fnW, at_le])
theorem kvpin d a b : Statement (.kvpin d a b) := one rfl (by grind only [fnW, at_le])
theorem kvunpin d a b : Statement (.kvunpin d a b) := one rfl (by grind only [fnW, at_le])
theorem kvfree d a b : Statement (.kvfree d a b) := one rfl (by grind only [fnW, at_le])
theorem astart d a : Statement (.astart d a) := one rfl (by grind only [fnW, at_le])
theorem amload d a : Statement (.amload d a) := one rfl (by grind only [fnW, at_le])
theorem aproj d a b : Statement (.aproj d a b) := one rfl (by grind only [fnW, at_le])
theorem astat d a : Statement (.astat d a) := one rfl (by grind only [fnW, at_le])
theorem apstart d a b : Statement (.apstart d a b) := one rfl (by grind only [fnW, at_le])
theorem apstop d b : Statement (.apstop d b) := one rfl (by grind only [fnW, at_le])
theorem appush a b : Statement (.appush a b) := one rfl (by grind only [fnW, at_le])
theorem apfetch d b : Statement (.apfetch d b) := one rfl (by grind only [fnW, at_le])
theorem grd p n l : Statement (.grd p n l) := one rfl (by grind only [fnW, at_le, bAt_le])
theorem rep c x y z : Statement (.rep c x y z) := one rfl (by grind only [fnW, at_le])
theorem bankcfg d a b : Statement (.bankcfg d a b) := one rfl (by grind only [fnW, at_le])
theorem worldcfgCreate d a : Statement (.worldcfgCreate d a) := one rfl (by grind only [fnW, at_le])
theorem worldcfgTvec d a : Statement (.worldcfgTvec d a) := one rfl (by grind only [fnW, at_le])
theorem worldcfgDrawers d a : Statement (.worldcfgDrawers d a) := one rfl (by grind only [fnW, at_le])
theorem worldcfgBanks d a : Statement (.worldcfgBanks d a) := one rfl (by grind only [fnW, at_le])
theorem worldcfgRoot d a : Statement (.worldcfgRoot d a) := one rfl (by grind only [fnW, at_le])
theorem worldcfgDestroy d a : Statement (.worldcfgDestroy d a) := one rfl (by grind only [fnW, at_le])
theorem worldcfgTlpool d a : Statement (.worldcfgTlpool d a) := one rfl (by grind only [fnW, at_le])
theorem tlbinvAddress a b : Statement (.tlbinvAddress a b) := one rfl (by grind only [fnW, at_le])
theorem tlbinvWorld a b : Statement (.tlbinvWorld a b) := one rfl (by grind only [fnW, at_le])
theorem tlbinvAll a b : Statement (.tlbinvAll a b) := one rfl (by grind only [fnW, at_le])
theorem keyld d a : Statement (.keyld d a) := one rfl (by grind only [fnW, at_le])
theorem lsetConfig d a b : Statement (.lsetConfig d a b) := one rfl (by grind only [fnW, at_le])
theorem lsetOffer d a b : Statement (.lsetOffer d a b) := one rfl (by grind only [fnW, at_le])
theorem lsetAccept d a b : Statement (.lsetAccept d a b) := one rfl (by grind only [fnW, at_le])
theorem lsetDecline d a b : Statement (.lsetDecline d a b) := one rfl (by grind only [fnW, at_le])
theorem lsetRenew d a b : Statement (.lsetRenew d a b) := one rfl (by grind only [fnW, at_le])
theorem lsetPfetch d a b : Statement (.lsetPfetch d a b) := one rfl (by grind only [fnW, at_le])
theorem lsetFree d a b : Statement (.lsetFree d a b) := one rfl (by grind only [fnW, at_le])
theorem lsetElect d a b : Statement (.lsetElect d a b) := one rfl (by grind only [fnW, at_le])
theorem lgetEntryLow d a : Statement (.lgetEntryLow d a) := one rfl (by grind only [fnW, at_le])
theorem lgetEntryHigh d a : Statement (.lgetEntryHigh d a) := one rfl (by grind only [fnW, at_le])
theorem lgetFabricStatus d a : Statement (.lgetFabricStatus d a) := one rfl (by grind only [fnW, at_le])
theorem lrecall d a : Statement (.lrecall d a) := one rfl (by grind only [fnW, at_le])
theorem bisnp d a b : Statement (.bisnp d a b) := one rfl (by grind only [fnW, at_le])
theorem hinit d : Statement (.hinit d) := one rfl (by grind only [fnW, at_le])
theorem habs d a b : Statement (.habs d a b) := one rfl (by grind only [fnW, at_le])
theorem hfin d a b : Statement (.hfin d a b) := one rfl (by grind only [fnW, at_le])
theorem sign d a b : Statement (.sign d a b) := one rfl (by grind only [fnW, at_le])
theorem mext d a b : Statement (.mext d a b) := one rfl (by grind only [fnW, at_le])
theorem nvinc d a : Statement (.nvinc d a) := one rfl (by grind only [fnW, at_le])
theorem snap d a : Statement (.snap d a) := one rfl (by grind only [fnW, at_le])
theorem scrub d a b : Statement (.scrub d a b) := one rfl (by grind only [fnW, at_le])
theorem resync d a : Statement (.resync d a) := one rfl (by grind only [fnW, at_le])
theorem ipi a b : Statement (.ipi a b) := one rfl (by grind only [fnW, at_le])
theorem capr d a : Statement (.capr d a) := one rfl (by grind only [fnW, at_le])
theorem placePrefer d a b : Statement (.placePrefer d a b) := one rfl (by grind only [fnW, at_le])
theorem placePin d a b : Statement (.placePin d a b) := one rfl (by grind only [fnW, at_le])
theorem placeUnpin d a b : Statement (.placeUnpin d a b) := one rfl (by grind only [fnW, at_le])
theorem placeFrames d a b : Statement (.placeFrames d a b) := one rfl (by grind only [fnW, at_le])
theorem evtpop d n : Statement (.evtpop d n) := one rfl (by grind only [fnW, at_le, bAt_le])
theorem qload : Statement .qload := microOp rfl rfl (by decide) (by decide)
theorem sig : Statement .sig := microOp rfl rfl (by decide) (by decide)
theorem kwalk : Statement .kwalk := microOp rfl rfl (by decide) (by decide)
theorem tlstDense : Statement .tlstDense := microOp rfl rfl (by decide) (by decide)
theorem tlstGathered : Statement .tlstGathered := microOp rfl rfl (by decide) (by decide)
theorem cntTl ra : Statement (.cntTl ra) := microOp rfl rfl (by decide) (by grind only [at_le])
theorem cntChunks ra : Statement (.cntChunks ra) := microOp rfl rfl (by decide) (by grind only [at_le])
theorem cntLen ra : Statement (.cntLen ra) := microOp rfl rfl (by decide) (by grind only [at_le])
theorem cntAct ra : Statement (.cntAct ra) := microOp rfl rfl (by decide) (by grind only [at_le])
theorem cntAdd ra rb n : Statement (.cntAdd ra rb n) := microOp rfl rfl (by grind only [at_le]) (by grind only [at_le])
theorem gath ra : Statement (.gath ra) := microOp rfl rfl (by decide) (by grind only [at_le])
theorem sync : Statement .sync := microOp rfl rfl (by decide) (by decide)
theorem kload : Statement .kload := microOp rfl rfl (by decide) (by decide)
theorem vload : Statement .vload := microOp rfl rfl (by decide) (by decide)
theorem smm : Statement .smm := microOp rfl rfl (by decide) (by decide)
theorem mask : Statement .mask := microOp rfl rfl (by decide) (by decide)
theorem rmax : Statement .rmax := microOp rfl rfl (by decide) (by decide)
theorem resc : Statement .resc := microOp rfl rfl (by decide) (by decide)
theorem exps : Statement .exps := microOp rfl rfl (by decide) (by decide)
theorem rsum : Statement .rsum := microOp rfl rfl (by decide) (by decide)
theorem pmm : Statement .pmm := microOp rfl rfl (by decide) (by decide)
theorem sto : Statement .sto := microOp rfl rfl (by decide) (by decide)
theorem lse : Statement .lse := microOp rfl rfl (by decide) (by decide)
theorem fbk : Statement .fbk := microOp rfl rfl (by decide) (by decide)
theorem br tgt : Statement (.br tgt) := microOp rfl rfl (by omega) (by have := tgt.isLt; omega)
theorem brc ra rb tgt cond : Statement (.brc ra rb tgt cond) := microOp rfl rfl (by omega) (by have := tgt.isLt; grind only [at_le])
theorem loop ra tgt : Statement (.loop ra tgt) := microOp rfl rfl (by omega) (by have := tgt.isLt; grind only [at_le])
theorem waitz : Statement .waitz := microOp rfl rfl (by decide) (by decide)
theorem microHalt code : Statement (.microHalt code) := microOp rfl rfl (by grind only [bAt_le]) (by decide)
theorem resultWriteback x0 x1 x2 : Statement (.resultWriteback x0 x1 x2) := event rfl
theorem benchAdmit x0 : Statement (.benchAdmit x0) := event rfl
theorem watchdogExpiry x0 : Statement (.watchdogExpiry x0) := event rfl
theorem integrityCheckComplete x0 : Statement (.integrityCheckComplete x0) := event rfl
theorem taskAccept x0 : Statement (.taskAccept x0) := event rfl
theorem taskQueueConsume x0 : Statement (.taskQueueConsume x0) := event rfl
theorem taskDispatch x0 x1 : Statement (.taskDispatch x0 x1) := event rfl
theorem taskCommit x0 : Statement (.taskCommit x0) := event rfl
theorem phaseCommit x0 : Statement (.phaseCommit x0) := event rfl
theorem taskRequeue x0 : Statement (.taskRequeue x0) := event rfl
theorem taskFail x0 : Statement (.taskFail x0) := event rfl
theorem benchResume x0 : Statement (.benchResume x0) := event rfl
theorem benchRestore x0 : Statement (.benchRestore x0) := event rfl
theorem spuriousWakeup x0 x1 : Statement (.spuriousWakeup x0 x1) := event rfl
theorem mxuCommandExecute x0 x1 : Statement (.mxuCommandExecute x0 x1) := event rfl
theorem peerRowReceive x0 : Statement (.peerRowReceive x0) := event rfl
theorem peerAckReceive x0 x1 x2 : Statement (.peerAckReceive x0 x1 x2) := event rfl
theorem peerResend x0 x1 : Statement (.peerResend x0 x1) := event rfl
theorem queueSlotConsume x0 : Statement (.queueSlotConsume x0) := event rfl
theorem copy x0 x1 : Statement (.copy x0 x1) := event rfl
theorem reducingCopy x0 x1 : Statement (.reducingCopy x0 x1) := event rfl
theorem transpose x0 x1 : Statement (.transpose x0 x1) := event rfl
theorem quant x0 x1 : Statement (.quant x0 x1) := event rfl
theorem dequant x0 x1 : Statement (.dequant x0 x1) := event rfl
theorem swizzle x0 x1 : Statement (.swizzle x0 x1) := event rfl
theorem gather x0 x1 : Statement (.gather x0 x1) := event rfl
theorem im2col x0 x1 : Statement (.im2col x0 x1) := event rfl
theorem zero x0 x1 : Statement (.zero x0 x1) := event rfl
theorem migrate x0 x1 : Statement (.migrate x0 x1) := event rfl
theorem bteBlockLand x0 x1 : Statement (.bteBlockLand x0 x1) := event rfl
theorem bteOperationComplete x0 x1 : Statement (.bteOperationComplete x0 x1) := event rfl
theorem reduceBlockReceive x0 : Statement (.reduceBlockReceive x0) := event rfl
theorem asqRunStart x0 : Statement (.asqRunStart x0) := event rfl
theorem snapExecute : Statement .snapExecute := event rfl
theorem scrubExecute : Statement .scrubExecute := event rfl
theorem sdcEvict x0 x1 : Statement (.sdcEvict x0 x1) := event rfl
theorem pageMigration x0 x1 : Statement (.pageMigration x0 x1) := event rfl
theorem migrationSwitchover x0 : Statement (.migrationSwitchover x0) := event rfl
theorem classifierWindow : Statement .classifierWindow := event rfl
theorem offer x0 : Statement (.offer x0) := event rfl
theorem accept x0 : Statement (.accept x0) := event rfl
theorem decline x0 : Statement (.decline x0) := event rfl
theorem grant x0 : Statement (.grant x0) := event rfl
theorem nak x0 : Statement (.nak x0) := event rfl
theorem release x0 : Statement (.release x0) := event rfl
theorem renew x0 : Statement (.renew x0) := event rfl
theorem renewed x0 : Statement (.renewed x0) := event rfl
theorem refused x0 : Statement (.refused x0) := event rfl
theorem bisnpdata x0 x1 x2 : Statement (.bisnpdata x0 x1 x2) := event rfl
theorem bisnpinv x0 x1 x2 : Statement (.bisnpinv x0 x1 x2) := event rfl
theorem leaseFlushComplete x0 : Statement (.leaseFlushComplete x0) := event rfl
theorem leaseExpiry x0 : Statement (.leaseExpiry x0) := event rfl
theorem wbleadExpiry x0 : Statement (.wbleadExpiry x0) := event rfl
theorem rcwinExpiry x0 : Statement (.rcwinExpiry x0) := event rfl
theorem hbeatTick x0 : Statement (.hbeatTick x0) := event rfl
theorem peerDeclaredFailed x0 : Statement (.peerDeclaredFailed x0) := event rfl
theorem linkDown x0 : Statement (.linkDown x0) := event rfl
theorem bulletinAccess x0 : Statement (.bulletinAccess x0) := event rfl
theorem settleExpiry : Statement .settleExpiry := event rfl
theorem leasePrefetch x0 : Statement (.leasePrefetch x0) := event rfl
theorem cxlMemRequest x0 : Statement (.cxlMemRequest x0) := event rfl
theorem pcieMemoryRequest x0 : Statement (.pcieMemoryRequest x0) := event rfl
theorem getVersion x0 : Statement (.getVersion x0) := event rfl
theorem getCapabilities x0 : Statement (.getCapabilities x0) := event rfl
theorem negotiateAlgorithms x0 : Statement (.negotiateAlgorithms x0) := event rfl
theorem getDigests x0 : Statement (.getDigests x0) := event rfl
theorem getCertificate x0 x1 : Statement (.getCertificate x0 x1) := event rfl
theorem challenge x0 : Statement (.challenge x0) := event rfl
theorem getMeasurements x0 x1 : Statement (.getMeasurements x0 x1) := event rfl
theorem keyExchange x0 x1 : Statement (.keyExchange x0 x1) := event rfl
theorem finish x0 : Statement (.finish x0) := event rfl
theorem heartbeat x0 : Statement (.heartbeat x0) := event rfl
theorem keyUpdate x0 : Statement (.keyUpdate x0) := event rfl
theorem endSession x0 : Statement (.endSession x0) := event rfl
theorem recordExport x0 : Statement (.recordExport x0) := event rfl
theorem spdmResync x0 : Statement (.spdmResync x0) := event rfl
theorem recordExportAck x0 : Statement (.recordExportAck x0) := event rfl
theorem recordBusy x0 : Statement (.recordBusy x0) := event rfl
theorem recordExportTimeout : Statement .recordExportTimeout := event rfl
theorem qcmdRegister : Statement .qcmdRegister := event rfl
theorem qcmdUnregister : Statement .qcmdUnregister := event rfl
theorem arenaRegister : Statement .arenaRegister := event rfl
theorem arenaUnregister : Statement .arenaUnregister := event rfl
theorem vcmdVacate : Statement .vcmdVacate := event rfl
theorem vcmdReturn : Statement .vcmdReturn := event rfl
theorem vacationComplete : Statement .vacationComplete := event rfl
theorem xpeerExport : Statement .xpeerExport := event rfl
theorem classifierSelect x0 : Statement (.classifierSelect x0) := event rfl
theorem ddcfgWrite x0 x1 : Statement (.ddcfgWrite x0 x1) := event rfl
theorem counterClear x0 : Statement (.counterClear x0) := event rfl
theorem mmioRegisterWrite x0 x1 x2 : Statement (.mmioRegisterWrite x0 x1 x2) := event rfl
theorem boot : Statement .boot := event rfl
theorem thermalLimit : Statement .thermalLimit := event rfl
theorem powerFailure : Statement .powerFailure := event rfl
theorem malformedWord : Statement .malformedWord := event rfl
theorem fetchFault : Statement .fetchFault := event rfl
theorem heldCommitResume x0 : Statement (.heldCommitResume x0) := event rfl
theorem stoppedTaskDiscard x0 : Statement (.stoppedTaskDiscard x0) := event rfl
theorem linkUp x0 x1 x2 : Statement (.linkUp x0 x1 x2) := event rfl
theorem remoteWriteAck x0 x1 : Statement (.remoteWriteAck x0 x1) := event rfl

end Sys2Proof.Laws.Shape

/-! Rows whose constructor is also a word of Lean: their names in full. -/

open Sys2Proof Sys2Proof.Laws.Shape

theorem Sys2Proof.Laws.Shape.seal d a b : Statement (.seal d a b) := one rfl (by grind only [fnW, at_le])
theorem Sys2Proof.Laws.Shape.unseal d a : Statement (.unseal d a) := one rfl (by grind only [fnW, at_le])
theorem Sys2Proof.Laws.Shape.recall x0 : Statement (.recall x0) := event rfl
end

