-- ==== Sys2Proof/Laws/Encode.lean ====
section
/-! SUPPORT. Reading fields of a word that was put together from fields, and what a decoded word gives. -/

namespace Sys2Proof

theorem toNat_ofNat_word (n : Nat) (h : n < 2 ^ 32) : (BitVec.ofNat 32 n).toNat = n := by
  simp only [BitVec.toNat_ofNat]; omega

/-- Bit 31 of a word is its top half. -/
theorem getLsbD_31 (n : Nat) : (BitVec.ofNat 32 n).getLsbD 31 = decide (n / 2 ^ 31 % 2 = 1) := by
  rw [BitVec.getLsbD_ofNat, Nat.testBit_eq_decide_div_mod_eq]; simp

/-- A word outside the prefixes' group carries any stop bit. -/
theorem prefixStop_of (w : Nat) (r : Except Reject Instr) (h : bits w 30 27 ≠ 15) : prefixStop w r = r := by simp [prefixStop, h]

/-- A field of `n` bits at `lo` is `x` where the word holds the number of `x` there. -/
theorem fld_eq {n : Nat} (lo w : Nat) (x : BitVec n) (h : w / 2 ^ lo % 2 ^ n = x.toNat) : fld n lo w = x := by
  apply BitVec.eq_of_toNat_eq; simpa [fld] using h

/-- Decoding answers the instruction its number decodes to, with the word's bit 31. -/
theorem decode_of (n : Nat) (hn : n < 2 ^ 32) (w2 : Word) (i : Instr) (st : Bool) (hs : (BitVec.ofNat 32 n).getLsbD 31 = st)
    (h : decodeInstr n w2.toNat = .ok i) : decode (BitVec.ofNat 32 n) w2 = .ok (st, i) := by
  rw [decode, toNat_ofNat_word n hn, h, hs]; rfl

/-- And only that. -/
theorem decode_iff (w w2 : Word) (i : Instr) (st : Bool) :
    decode w w2 = .ok (st, i) ↔ w.getLsbD 31 = st ∧ decodeInstr w.toNat w2.toNat = .ok i := by
  unfold decode
  cases decodeInstr w.toNat w2.toNat <;> simp [Except.map]

end Sys2Proof
end

