-- ==== Sys2Proof/Laws/State.lean ====
section
/-! SUPPORT. What each named update of the state leaves in each field: one lemma per field, so that no proof unfolds a record update. -/

namespace Sys2Proof.Machine

section Fields
variable (s : State)

@[simp] theorem updBench_epoch (p : Place) (f : Bench → Bench) : (s.updBench p f).epoch = s.epoch := rfl
@[simp] theorem updBench_mem (p : Place) (f : Bench → Bench) : (s.updBench p f).mem = s.mem := rfl
@[simp] theorem updBench_tags (p : Place) (f : Bench → Bench) : (s.updBench p f).tags = s.tags := rfl
@[simp] theorem updBench_jrnl (p : Place) (f : Bench → Bench) : (s.updBench p f).jrnl = s.jrnl := rfl
@[simp] theorem updBench_tjrnl (p : Place) (f : Bench → Bench) : (s.updBench p f).tjrnl = s.tjrnl := rfl
@[simp] theorem updBench_written (p : Place) (f : Bench → Bench) : (s.updBench p f).written = s.written := rfl
@[simp] theorem updBench_marked (p : Place) (f : Bench → Bench) : (s.updBench p f).marked = s.marked := rfl
@[simp] theorem updBench_bad (p : Place) (f : Bench → Bench) : (s.updBench p f).bad = s.bad := rfl
@[simp] theorem updBench_retired (p : Place) (f : Bench → Bench) : (s.updBench p f).retired = s.retired := rfl
@[simp] theorem updBench_macs (p : Place) (f : Bench → Bench) : (s.updBench p f).macs = s.macs := rfl
@[simp] theorem updBench_vps (p : Place) (f : Bench → Bench) : (s.updBench p f).vps = s.vps := rfl
@[simp] theorem updBench_copies (p : Place) (f : Bench → Bench) : (s.updBench p f).copies = s.copies := rfl
@[simp] theorem updBench_clean (p : Place) (f : Bench → Bench) : (s.updBench p f).clean = s.clean := rfl
@[simp] theorem updBench_unpushed (p : Place) (f : Bench → Bench) : (s.updBench p f).unpushed = s.unpushed := rfl
@[simp] theorem updBench_lates (p : Place) (f : Bench → Bench) : (s.updBench p f).lates = s.lates := rfl
@[simp] theorem updBench_late (p : Place) (f : Bench → Bench) : (s.updBench p f).late = s.late := rfl
@[simp] theorem updBench_nextLate (p : Place) (f : Bench → Bench) : (s.updBench p f).nextLate = s.nextLate := rfl
@[simp] theorem updBench_calcs (p : Place) (f : Bench → Bench) : (s.updBench p f).calcs = s.calcs := rfl
@[simp] theorem updBench_relvs (p : Place) (f : Bench → Bench) : (s.updBench p f).relvs = s.relvs := rfl
@[simp] theorem updBench_tlbs (p : Place) (f : Bench → Bench) : (s.updBench p f).tlbs = s.tlbs := rfl
@[simp] theorem updBench_walks (p : Place) (f : Bench → Bench) : (s.updBench p f).walks = s.walks := rfl
@[simp] theorem updBench_benches (p : Place) (f : Bench → Bench) : (s.updBench p f).benches = updFirst (fun b => b.place = p) f s.benches := rfl
@[simp] theorem updBench_saved (p : Place) (f : Bench → Bench) : (s.updBench p f).saved = s.saved := rfl
@[simp] theorem updBench_tasks (p : Place) (f : Bench → Bench) : (s.updBench p f).tasks = s.tasks := rfl
@[simp] theorem updBench_nextTask (p : Place) (f : Bench → Bench) : (s.updBench p f).nextTask = s.nextTask := rfl
@[simp] theorem updBench_runs (p : Place) (f : Bench → Bench) : (s.updBench p f).runs = s.runs := rfl
@[simp] theorem updBench_accepts (p : Place) (f : Bench → Bench) : (s.updBench p f).accepts = s.accepts := rfl
@[simp] theorem updBench_subs (p : Place) (f : Bench → Bench) : (s.updBench p f).subs = s.subs := rfl
@[simp] theorem updBench_nextSub (p : Place) (f : Bench → Bench) : (s.updBench p f).nextSub = s.nextSub := rfl
@[simp] theorem updBench_groups (p : Place) (f : Bench → Bench) : (s.updBench p f).groups = s.groups := rfl
@[simp] theorem updBench_serial (p : Place) (f : Bench → Bench) : (s.updBench p f).serial = s.serial := rfl
@[simp] theorem updBench_slots (p : Place) (f : Bench → Bench) : (s.updBench p f).slots = s.slots := rfl
@[simp] theorem updBench_wakes (p : Place) (f : Bench → Bench) : (s.updBench p f).wakes = s.wakes := rfl
@[simp] theorem updBench_vacated (p : Place) (f : Bench → Bench) : (s.updBench p f).vacated = s.vacated := rfl
@[simp] theorem updBench_worlds (p : Place) (f : Bench → Bench) : (s.updBench p f).worlds = s.worlds := rfl
@[simp] theorem updBench_cores (p : Place) (f : Bench → Bench) : (s.updBench p f).cores = s.cores := rfl
@[simp] theorem updBench_drawers (p : Place) (f : Bench → Bench) : (s.updBench p f).drawers = s.drawers := rfl
@[simp] theorem updBench_checks (p : Place) (f : Bench → Bench) : (s.updBench p f).checks = s.checks := rfl
@[simp] theorem updBench_leases (p : Place) (f : Bench → Bench) : (s.updBench p f).leases = s.leases := rfl
@[simp] theorem updBench_fetched (p : Place) (f : Bench → Bench) : (s.updBench p f).fetched = s.fetched := rfl
@[simp] theorem updBench_mxus (p : Place) (f : Bench → Bench) : (s.updBench p f).mxus = s.mxus := rfl
@[simp] theorem updBench_pkts (p : Place) (f : Bench → Bench) : (s.updBench p f).pkts = s.pkts := rfl
@[simp] theorem updBench_packs (p : Place) (f : Bench → Bench) : (s.updBench p f).packs = s.packs := rfl
@[simp] theorem updBench_msaves (p : Place) (f : Bench → Bench) : (s.updBench p f).msaves = s.msaves := rfl
@[simp] theorem updBench_queues (p : Place) (f : Bench → Bench) : (s.updBench p f).queues = s.queues := rfl
@[simp] theorem updBench_rwins (p : Place) (f : Bench → Bench) : (s.updBench p f).rwins = s.rwins := rfl
@[simp] theorem updBench_remotes (p : Place) (f : Bench → Bench) : (s.updBench p f).remotes = s.remotes := rfl
@[simp] theorem updBench_asqs (p : Place) (f : Bench → Bench) : (s.updBench p f).asqs = s.asqs := rfl
@[simp] theorem updBench_arenas (p : Place) (f : Bench → Bench) : (s.updBench p f).arenas = s.arenas := rfl
@[simp] theorem updBench_evq (p : Place) (f : Bench → Bench) : (s.updBench p f).evq = s.evq := rfl
@[simp] theorem updBench_hub (p : Place) (f : Bench → Bench) : (s.updBench p f).hub = s.hub := rfl
@[simp] theorem updBench_dropped (p : Place) (f : Bench → Bench) : (s.updBench p f).dropped = s.dropped := rfl
@[simp] theorem updBench_ctl (p : Place) (f : Bench → Bench) : (s.updBench p f).ctl = s.ctl := rfl
@[simp] theorem updBench_mstime (p : Place) (f : Bench → Bench) : (s.updBench p f).mstime = s.mstime := rfl
@[simp] theorem updBench_cycle (p : Place) (f : Bench → Bench) : (s.updBench p f).cycle = s.cycle := rfl
@[simp] theorem updBench_agenda (p : Place) (f : Bench → Bench) : (s.updBench p f).agenda = s.agenda := rfl
@[simp] theorem updBench_cur (p : Place) (f : Bench → Bench) : (s.updBench p f).cur = s.cur := rfl
@[simp] theorem updBench_draws (p : Place) (f : Bench → Bench) : (s.updBench p f).draws = s.draws := rfl
@[simp] theorem updBench_turn (p : Place) (f : Bench → Bench) : (s.updBench p f).turn = s.turn := rfl

@[simp] theorem updThread_epoch (p : Place) (l : Nat) (f : Thread → Thread) : (s.updThread p l f).epoch = s.epoch := rfl
@[simp] theorem updThread_mem (p : Place) (l : Nat) (f : Thread → Thread) : (s.updThread p l f).mem = s.mem := rfl
@[simp] theorem updThread_tags (p : Place) (l : Nat) (f : Thread → Thread) : (s.updThread p l f).tags = s.tags := rfl
@[simp] theorem updThread_jrnl (p : Place) (l : Nat) (f : Thread → Thread) : (s.updThread p l f).jrnl = s.jrnl := rfl
@[simp] theorem updThread_tjrnl (p : Place) (l : Nat) (f : Thread → Thread) : (s.updThread p l f).tjrnl = s.tjrnl := rfl
@[simp] theorem updThread_written (p : Place) (l : Nat) (f : Thread → Thread) : (s.updThread p l f).written = s.written := rfl
@[simp] theorem updThread_marked (p : Place) (l : Nat) (f : Thread → Thread) : (s.updThread p l f).marked = s.marked := rfl
@[simp] theorem updThread_bad (p : Place) (l : Nat) (f : Thread → Thread) : (s.updThread p l f).bad = s.bad := rfl
@[simp] theorem updThread_retired (p : Place) (l : Nat) (f : Thread → Thread) : (s.updThread p l f).retired = s.retired := rfl
@[simp] theorem updThread_macs (p : Place) (l : Nat) (f : Thread → Thread) : (s.updThread p l f).macs = s.macs := rfl
@[simp] theorem updThread_vps (p : Place) (l : Nat) (f : Thread → Thread) : (s.updThread p l f).vps = s.vps := rfl
@[simp] theorem updThread_copies (p : Place) (l : Nat) (f : Thread → Thread) : (s.updThread p l f).copies = s.copies := rfl
@[simp] theorem updThread_clean (p : Place) (l : Nat) (f : Thread → Thread) : (s.updThread p l f).clean = s.clean := rfl
@[simp] theorem updThread_unpushed (p : Place) (l : Nat) (f : Thread → Thread) : (s.updThread p l f).unpushed = s.unpushed := rfl
@[simp] theorem updThread_lates (p : Place) (l : Nat) (f : Thread → Thread) : (s.updThread p l f).lates = s.lates := rfl
@[simp] theorem updThread_late (p : Place) (l : Nat) (f : Thread → Thread) : (s.updThread p l f).late = s.late := rfl
@[simp] theorem updThread_nextLate (p : Place) (l : Nat) (f : Thread → Thread) : (s.updThread p l f).nextLate = s.nextLate := rfl
@[simp] theorem updThread_calcs (p : Place) (l : Nat) (f : Thread → Thread) : (s.updThread p l f).calcs = s.calcs := rfl
@[simp] theorem updThread_relvs (p : Place) (l : Nat) (f : Thread → Thread) : (s.updThread p l f).relvs = s.relvs := rfl
@[simp] theorem updThread_tlbs (p : Place) (l : Nat) (f : Thread → Thread) : (s.updThread p l f).tlbs = s.tlbs := rfl
@[simp] theorem updThread_walks (p : Place) (l : Nat) (f : Thread → Thread) : (s.updThread p l f).walks = s.walks := rfl
@[simp] theorem updThread_benches (p : Place) (l : Nat) (f : Thread → Thread) : (s.updThread p l f).benches = updFirst (fun b => b.place = p) (fun b => b.updThread l f) s.benches := rfl
@[simp] theorem updThread_saved (p : Place) (l : Nat) (f : Thread → Thread) : (s.updThread p l f).saved = s.saved := rfl
@[simp] theorem updThread_tasks (p : Place) (l : Nat) (f : Thread → Thread) : (s.updThread p l f).tasks = s.tasks := rfl
@[simp] theorem updThread_nextTask (p : Place) (l : Nat) (f : Thread → Thread) : (s.updThread p l f).nextTask = s.nextTask := rfl
@[simp] theorem updThread_runs (p : Place) (l : Nat) (f : Thread → Thread) : (s.updThread p l f).runs = s.runs := rfl
@[simp] theorem updThread_accepts (p : Place) (l : Nat) (f : Thread → Thread) : (s.updThread p l f).accepts = s.accepts := rfl
@[simp] theorem updThread_subs (p : Place) (l : Nat) (f : Thread → Thread) : (s.updThread p l f).subs = s.subs := rfl
@[simp] theorem updThread_nextSub (p : Place) (l : Nat) (f : Thread → Thread) : (s.updThread p l f).nextSub = s.nextSub := rfl
@[simp] theorem updThread_groups (p : Place) (l : Nat) (f : Thread → Thread) : (s.updThread p l f).groups = s.groups := rfl
@[simp] theorem updThread_serial (p : Place) (l : Nat) (f : Thread → Thread) : (s.updThread p l f).serial = s.serial := rfl
@[simp] theorem updThread_slots (p : Place) (l : Nat) (f : Thread → Thread) : (s.updThread p l f).slots = s.slots := rfl
@[simp] theorem updThread_wakes (p : Place) (l : Nat) (f : Thread → Thread) : (s.updThread p l f).wakes = s.wakes := rfl
@[simp] theorem updThread_vacated (p : Place) (l : Nat) (f : Thread → Thread) : (s.updThread p l f).vacated = s.vacated := rfl
@[simp] theorem updThread_worlds (p : Place) (l : Nat) (f : Thread → Thread) : (s.updThread p l f).worlds = s.worlds := rfl
@[simp] theorem updThread_cores (p : Place) (l : Nat) (f : Thread → Thread) : (s.updThread p l f).cores = s.cores := rfl
@[simp] theorem updThread_drawers (p : Place) (l : Nat) (f : Thread → Thread) : (s.updThread p l f).drawers = s.drawers := rfl
@[simp] theorem updThread_checks (p : Place) (l : Nat) (f : Thread → Thread) : (s.updThread p l f).checks = s.checks := rfl
@[simp] theorem updThread_leases (p : Place) (l : Nat) (f : Thread → Thread) : (s.updThread p l f).leases = s.leases := rfl
@[simp] theorem updThread_fetched (p : Place) (l : Nat) (f : Thread → Thread) : (s.updThread p l f).fetched = s.fetched := rfl
@[simp] theorem updThread_mxus (p : Place) (l : Nat) (f : Thread → Thread) : (s.updThread p l f).mxus = s.mxus := rfl
@[simp] theorem updThread_pkts (p : Place) (l : Nat) (f : Thread → Thread) : (s.updThread p l f).pkts = s.pkts := rfl
@[simp] theorem updThread_packs (p : Place) (l : Nat) (f : Thread → Thread) : (s.updThread p l f).packs = s.packs := rfl
@[simp] theorem updThread_msaves (p : Place) (l : Nat) (f : Thread → Thread) : (s.updThread p l f).msaves = s.msaves := rfl
@[simp] theorem updThread_queues (p : Place) (l : Nat) (f : Thread → Thread) : (s.updThread p l f).queues = s.queues := rfl
@[simp] theorem updThread_rwins (p : Place) (l : Nat) (f : Thread → Thread) : (s.updThread p l f).rwins = s.rwins := rfl
@[simp] theorem updThread_remotes (p : Place) (l : Nat) (f : Thread → Thread) : (s.updThread p l f).remotes = s.remotes := rfl
@[simp] theorem updThread_asqs (p : Place) (l : Nat) (f : Thread → Thread) : (s.updThread p l f).asqs = s.asqs := rfl
@[simp] theorem updThread_arenas (p : Place) (l : Nat) (f : Thread → Thread) : (s.updThread p l f).arenas = s.arenas := rfl
@[simp] theorem updThread_evq (p : Place) (l : Nat) (f : Thread → Thread) : (s.updThread p l f).evq = s.evq := rfl
@[simp] theorem updThread_hub (p : Place) (l : Nat) (f : Thread → Thread) : (s.updThread p l f).hub = s.hub := rfl
@[simp] theorem updThread_dropped (p : Place) (l : Nat) (f : Thread → Thread) : (s.updThread p l f).dropped = s.dropped := rfl
@[simp] theorem updThread_ctl (p : Place) (l : Nat) (f : Thread → Thread) : (s.updThread p l f).ctl = s.ctl := rfl
@[simp] theorem updThread_mstime (p : Place) (l : Nat) (f : Thread → Thread) : (s.updThread p l f).mstime = s.mstime := rfl
@[simp] theorem updThread_cycle (p : Place) (l : Nat) (f : Thread → Thread) : (s.updThread p l f).cycle = s.cycle := rfl
@[simp] theorem updThread_agenda (p : Place) (l : Nat) (f : Thread → Thread) : (s.updThread p l f).agenda = s.agenda := rfl
@[simp] theorem updThread_cur (p : Place) (l : Nat) (f : Thread → Thread) : (s.updThread p l f).cur = s.cur := rfl
@[simp] theorem updThread_draws (p : Place) (l : Nat) (f : Thread → Thread) : (s.updThread p l f).draws = s.draws := rfl
@[simp] theorem updThread_turn (p : Place) (l : Nat) (f : Thread → Thread) : (s.updThread p l f).turn = s.turn := rfl

@[simp] theorem mapThreads_epoch (f : Place → Nat → Thread → Thread) : (s.mapThreads f).epoch = s.epoch := rfl
@[simp] theorem mapThreads_mem (f : Place → Nat → Thread → Thread) : (s.mapThreads f).mem = s.mem := rfl
@[simp] theorem mapThreads_tags (f : Place → Nat → Thread → Thread) : (s.mapThreads f).tags = s.tags := rfl
@[simp] theorem mapThreads_jrnl (f : Place → Nat → Thread → Thread) : (s.mapThreads f).jrnl = s.jrnl := rfl
@[simp] theorem mapThreads_tjrnl (f : Place → Nat → Thread → Thread) : (s.mapThreads f).tjrnl = s.tjrnl := rfl
@[simp] theorem mapThreads_written (f : Place → Nat → Thread → Thread) : (s.mapThreads f).written = s.written := rfl
@[simp] theorem mapThreads_marked (f : Place → Nat → Thread → Thread) : (s.mapThreads f).marked = s.marked := rfl
@[simp] theorem mapThreads_bad (f : Place → Nat → Thread → Thread) : (s.mapThreads f).bad = s.bad := rfl
@[simp] theorem mapThreads_retired (f : Place → Nat → Thread → Thread) : (s.mapThreads f).retired = s.retired := rfl
@[simp] theorem mapThreads_macs (f : Place → Nat → Thread → Thread) : (s.mapThreads f).macs = s.macs := rfl
@[simp] theorem mapThreads_vps (f : Place → Nat → Thread → Thread) : (s.mapThreads f).vps = s.vps := rfl
@[simp] theorem mapThreads_copies (f : Place → Nat → Thread → Thread) : (s.mapThreads f).copies = s.copies := rfl
@[simp] theorem mapThreads_clean (f : Place → Nat → Thread → Thread) : (s.mapThreads f).clean = s.clean := rfl
@[simp] theorem mapThreads_unpushed (f : Place → Nat → Thread → Thread) : (s.mapThreads f).unpushed = s.unpushed := rfl
@[simp] theorem mapThreads_lates (f : Place → Nat → Thread → Thread) : (s.mapThreads f).lates = s.lates := rfl
@[simp] theorem mapThreads_late (f : Place → Nat → Thread → Thread) : (s.mapThreads f).late = s.late := rfl
@[simp] theorem mapThreads_nextLate (f : Place → Nat → Thread → Thread) : (s.mapThreads f).nextLate = s.nextLate := rfl
@[simp] theorem mapThreads_calcs (f : Place → Nat → Thread → Thread) : (s.mapThreads f).calcs = s.calcs := rfl
@[simp] theorem mapThreads_relvs (f : Place → Nat → Thread → Thread) : (s.mapThreads f).relvs = s.relvs := rfl
@[simp] theorem mapThreads_tlbs (f : Place → Nat → Thread → Thread) : (s.mapThreads f).tlbs = s.tlbs := rfl
@[simp] theorem mapThreads_walks (f : Place → Nat → Thread → Thread) : (s.mapThreads f).walks = s.walks := rfl
@[simp] theorem mapThreads_tasks (f : Place → Nat → Thread → Thread) : (s.mapThreads f).tasks = s.tasks := rfl
@[simp] theorem mapThreads_nextTask (f : Place → Nat → Thread → Thread) : (s.mapThreads f).nextTask = s.nextTask := rfl
@[simp] theorem mapThreads_runs (f : Place → Nat → Thread → Thread) : (s.mapThreads f).runs = s.runs := rfl
@[simp] theorem mapThreads_accepts (f : Place → Nat → Thread → Thread) : (s.mapThreads f).accepts = s.accepts := rfl
@[simp] theorem mapThreads_subs (f : Place → Nat → Thread → Thread) : (s.mapThreads f).subs = s.subs := rfl
@[simp] theorem mapThreads_nextSub (f : Place → Nat → Thread → Thread) : (s.mapThreads f).nextSub = s.nextSub := rfl
@[simp] theorem mapThreads_groups (f : Place → Nat → Thread → Thread) : (s.mapThreads f).groups = s.groups := rfl
@[simp] theorem mapThreads_serial (f : Place → Nat → Thread → Thread) : (s.mapThreads f).serial = s.serial := rfl
@[simp] theorem mapThreads_slots (f : Place → Nat → Thread → Thread) : (s.mapThreads f).slots = s.slots := rfl
@[simp] theorem mapThreads_wakes (f : Place → Nat → Thread → Thread) : (s.mapThreads f).wakes = s.wakes := rfl
@[simp] theorem mapThreads_vacated (f : Place → Nat → Thread → Thread) : (s.mapThreads f).vacated = s.vacated := rfl
@[simp] theorem mapThreads_worlds (f : Place → Nat → Thread → Thread) : (s.mapThreads f).worlds = s.worlds := rfl
@[simp] theorem mapThreads_cores (f : Place → Nat → Thread → Thread) : (s.mapThreads f).cores = s.cores := rfl
@[simp] theorem mapThreads_drawers (f : Place → Nat → Thread → Thread) : (s.mapThreads f).drawers = s.drawers := rfl
@[simp] theorem mapThreads_checks (f : Place → Nat → Thread → Thread) : (s.mapThreads f).checks = s.checks := rfl
@[simp] theorem mapThreads_leases (f : Place → Nat → Thread → Thread) : (s.mapThreads f).leases = s.leases := rfl
@[simp] theorem mapThreads_fetched (f : Place → Nat → Thread → Thread) : (s.mapThreads f).fetched = s.fetched := rfl
@[simp] theorem mapThreads_mxus (f : Place → Nat → Thread → Thread) : (s.mapThreads f).mxus = s.mxus := rfl
@[simp] theorem mapThreads_pkts (f : Place → Nat → Thread → Thread) : (s.mapThreads f).pkts = s.pkts := rfl
@[simp] theorem mapThreads_packs (f : Place → Nat → Thread → Thread) : (s.mapThreads f).packs = s.packs := rfl
@[simp] theorem mapThreads_msaves (f : Place → Nat → Thread → Thread) : (s.mapThreads f).msaves = s.msaves := rfl
@[simp] theorem mapThreads_queues (f : Place → Nat → Thread → Thread) : (s.mapThreads f).queues = s.queues := rfl
@[simp] theorem mapThreads_rwins (f : Place → Nat → Thread → Thread) : (s.mapThreads f).rwins = s.rwins := rfl
@[simp] theorem mapThreads_remotes (f : Place → Nat → Thread → Thread) : (s.mapThreads f).remotes = s.remotes := rfl
@[simp] theorem mapThreads_asqs (f : Place → Nat → Thread → Thread) : (s.mapThreads f).asqs = s.asqs := rfl
@[simp] theorem mapThreads_arenas (f : Place → Nat → Thread → Thread) : (s.mapThreads f).arenas = s.arenas := rfl
@[simp] theorem mapThreads_evq (f : Place → Nat → Thread → Thread) : (s.mapThreads f).evq = s.evq := rfl
@[simp] theorem mapThreads_hub (f : Place → Nat → Thread → Thread) : (s.mapThreads f).hub = s.hub := rfl
@[simp] theorem mapThreads_dropped (f : Place → Nat → Thread → Thread) : (s.mapThreads f).dropped = s.dropped := rfl
@[simp] theorem mapThreads_ctl (f : Place → Nat → Thread → Thread) : (s.mapThreads f).ctl = s.ctl := rfl
@[simp] theorem mapThreads_mstime (f : Place → Nat → Thread → Thread) : (s.mapThreads f).mstime = s.mstime := rfl
@[simp] theorem mapThreads_cycle (f : Place → Nat → Thread → Thread) : (s.mapThreads f).cycle = s.cycle := rfl
@[simp] theorem mapThreads_agenda (f : Place → Nat → Thread → Thread) : (s.mapThreads f).agenda = s.agenda := rfl
@[simp] theorem mapThreads_cur (f : Place → Nat → Thread → Thread) : (s.mapThreads f).cur = s.cur := rfl
@[simp] theorem mapThreads_draws (f : Place → Nat → Thread → Thread) : (s.mapThreads f).draws = s.draws := rfl
@[simp] theorem mapThreads_turn (f : Place → Nat → Thread → Thread) : (s.mapThreads f).turn = s.turn := rfl

@[simp] theorem updTask_epoch (k : Nat) (f : Task → Task) : (s.updTask k f).epoch = s.epoch := by unfold State.updTask; split <;> rfl
@[simp] theorem updTask_mem (k : Nat) (f : Task → Task) : (s.updTask k f).mem = s.mem := by unfold State.updTask; split <;> rfl
@[simp] theorem updTask_tags (k : Nat) (f : Task → Task) : (s.updTask k f).tags = s.tags := by unfold State.updTask; split <;> rfl
@[simp] theorem updTask_jrnl (k : Nat) (f : Task → Task) : (s.updTask k f).jrnl = s.jrnl := by unfold State.updTask; split <;> rfl
@[simp] theorem updTask_tjrnl (k : Nat) (f : Task → Task) : (s.updTask k f).tjrnl = s.tjrnl := by unfold State.updTask; split <;> rfl
@[simp] theorem updTask_written (k : Nat) (f : Task → Task) : (s.updTask k f).written = s.written := by unfold State.updTask; split <;> rfl
@[simp] theorem updTask_marked (k : Nat) (f : Task → Task) : (s.updTask k f).marked = s.marked := by unfold State.updTask; split <;> rfl
@[simp] theorem updTask_bad (k : Nat) (f : Task → Task) : (s.updTask k f).bad = s.bad := by unfold State.updTask; split <;> rfl
@[simp] theorem updTask_retired (k : Nat) (f : Task → Task) : (s.updTask k f).retired = s.retired := by unfold State.updTask; split <;> rfl
@[simp] theorem updTask_macs (k : Nat) (f : Task → Task) : (s.updTask k f).macs = s.macs := by unfold State.updTask; split <;> rfl
@[simp] theorem updTask_vps (k : Nat) (f : Task → Task) : (s.updTask k f).vps = s.vps := by unfold State.updTask; split <;> rfl
@[simp] theorem updTask_copies (k : Nat) (f : Task → Task) : (s.updTask k f).copies = s.copies := by unfold State.updTask; split <;> rfl
@[simp] theorem updTask_clean (k : Nat) (f : Task → Task) : (s.updTask k f).clean = s.clean := by unfold State.updTask; split <;> rfl
@[simp] theorem updTask_unpushed (k : Nat) (f : Task → Task) : (s.updTask k f).unpushed = s.unpushed := by unfold State.updTask; split <;> rfl
@[simp] theorem updTask_lates (k : Nat) (f : Task → Task) : (s.updTask k f).lates = s.lates := by unfold State.updTask; split <;> rfl
@[simp] theorem updTask_late (k : Nat) (f : Task → Task) : (s.updTask k f).late = s.late := by unfold State.updTask; split <;> rfl
@[simp] theorem updTask_nextLate (k : Nat) (f : Task → Task) : (s.updTask k f).nextLate = s.nextLate := by unfold State.updTask; split <;> rfl
@[simp] theorem updTask_calcs (k : Nat) (f : Task → Task) : (s.updTask k f).calcs = s.calcs := by unfold State.updTask; split <;> rfl
@[simp] theorem updTask_relvs (k : Nat) (f : Task → Task) : (s.updTask k f).relvs = s.relvs := by unfold State.updTask; split <;> rfl
@[simp] theorem updTask_tlbs (k : Nat) (f : Task → Task) : (s.updTask k f).tlbs = s.tlbs := by unfold State.updTask; split <;> rfl
@[simp] theorem updTask_walks (k : Nat) (f : Task → Task) : (s.updTask k f).walks = s.walks := by unfold State.updTask; split <;> rfl
@[simp] theorem updTask_benches (k : Nat) (f : Task → Task) : (s.updTask k f).benches = s.benches := by unfold State.updTask; split <;> rfl
@[simp] theorem updTask_saved (k : Nat) (f : Task → Task) : (s.updTask k f).saved = s.saved := by unfold State.updTask; split <;> rfl
@[simp] theorem updTask_nextTask (k : Nat) (f : Task → Task) : (s.updTask k f).nextTask = s.nextTask := by unfold State.updTask; split <;> rfl
@[simp] theorem updTask_runs (k : Nat) (f : Task → Task) : (s.updTask k f).runs = s.runs := by unfold State.updTask; split <;> rfl
@[simp] theorem updTask_accepts (k : Nat) (f : Task → Task) : (s.updTask k f).accepts = s.accepts := by unfold State.updTask; split <;> rfl
@[simp] theorem updTask_subs (k : Nat) (f : Task → Task) : (s.updTask k f).subs = s.subs := by unfold State.updTask; split <;> rfl
@[simp] theorem updTask_nextSub (k : Nat) (f : Task → Task) : (s.updTask k f).nextSub = s.nextSub := by unfold State.updTask; split <;> rfl
@[simp] theorem updTask_groups (k : Nat) (f : Task → Task) : (s.updTask k f).groups = s.groups := by unfold State.updTask; split <;> rfl
@[simp] theorem updTask_serial (k : Nat) (f : Task → Task) : (s.updTask k f).serial = s.serial := by unfold State.updTask; split <;> rfl
@[simp] theorem updTask_slots (k : Nat) (f : Task → Task) : (s.updTask k f).slots = s.slots := by unfold State.updTask; split <;> rfl
@[simp] theorem updTask_wakes (k : Nat) (f : Task → Task) : (s.updTask k f).wakes = s.wakes := by unfold State.updTask; split <;> rfl
@[simp] theorem updTask_vacated (k : Nat) (f : Task → Task) : (s.updTask k f).vacated = s.vacated := by unfold State.updTask; split <;> rfl
@[simp] theorem updTask_worlds (k : Nat) (f : Task → Task) : (s.updTask k f).worlds = s.worlds := by unfold State.updTask; split <;> rfl
@[simp] theorem updTask_cores (k : Nat) (f : Task → Task) : (s.updTask k f).cores = s.cores := by unfold State.updTask; split <;> rfl
@[simp] theorem updTask_drawers (k : Nat) (f : Task → Task) : (s.updTask k f).drawers = s.drawers := by unfold State.updTask; split <;> rfl
@[simp] theorem updTask_checks (k : Nat) (f : Task → Task) : (s.updTask k f).checks = s.checks := by unfold State.updTask; split <;> rfl
@[simp] theorem updTask_leases (k : Nat) (f : Task → Task) : (s.updTask k f).leases = s.leases := by unfold State.updTask; split <;> rfl
@[simp] theorem updTask_fetched (k : Nat) (f : Task → Task) : (s.updTask k f).fetched = s.fetched := by unfold State.updTask; split <;> rfl
@[simp] theorem updTask_mxus (k : Nat) (f : Task → Task) : (s.updTask k f).mxus = s.mxus := by unfold State.updTask; split <;> rfl
@[simp] theorem updTask_pkts (k : Nat) (f : Task → Task) : (s.updTask k f).pkts = s.pkts := by unfold State.updTask; split <;> rfl
@[simp] theorem updTask_packs (k : Nat) (f : Task → Task) : (s.updTask k f).packs = s.packs := by unfold State.updTask; split <;> rfl
@[simp] theorem updTask_msaves (k : Nat) (f : Task → Task) : (s.updTask k f).msaves = s.msaves := by unfold State.updTask; split <;> rfl
@[simp] theorem updTask_queues (k : Nat) (f : Task → Task) : (s.updTask k f).queues = s.queues := by unfold State.updTask; split <;> rfl
@[simp] theorem updTask_rwins (k : Nat) (f : Task → Task) : (s.updTask k f).rwins = s.rwins := by unfold State.updTask; split <;> rfl
@[simp] theorem updTask_remotes (k : Nat) (f : Task → Task) : (s.updTask k f).remotes = s.remotes := by unfold State.updTask; split <;> rfl
@[simp] theorem updTask_asqs (k : Nat) (f : Task → Task) : (s.updTask k f).asqs = s.asqs := by unfold State.updTask; split <;> rfl
@[simp] theorem updTask_arenas (k : Nat) (f : Task → Task) : (s.updTask k f).arenas = s.arenas := by unfold State.updTask; split <;> rfl
@[simp] theorem updTask_evq (k : Nat) (f : Task → Task) : (s.updTask k f).evq = s.evq := by unfold State.updTask; split <;> rfl
@[simp] theorem updTask_hub (k : Nat) (f : Task → Task) : (s.updTask k f).hub = s.hub := by unfold State.updTask; split <;> rfl
@[simp] theorem updTask_dropped (k : Nat) (f : Task → Task) : (s.updTask k f).dropped = s.dropped := by unfold State.updTask; split <;> rfl
@[simp] theorem updTask_ctl (k : Nat) (f : Task → Task) : (s.updTask k f).ctl = s.ctl := by unfold State.updTask; split <;> rfl
@[simp] theorem updTask_mstime (k : Nat) (f : Task → Task) : (s.updTask k f).mstime = s.mstime := by unfold State.updTask; split <;> rfl
@[simp] theorem updTask_cycle (k : Nat) (f : Task → Task) : (s.updTask k f).cycle = s.cycle := by unfold State.updTask; split <;> rfl
@[simp] theorem updTask_agenda (k : Nat) (f : Task → Task) : (s.updTask k f).agenda = s.agenda := by unfold State.updTask; split <;> rfl
@[simp] theorem updTask_cur (k : Nat) (f : Task → Task) : (s.updTask k f).cur = s.cur := by unfold State.updTask; split <;> rfl
@[simp] theorem updTask_draws (k : Nat) (f : Task → Task) : (s.updTask k f).draws = s.draws := by unfold State.updTask; split <;> rfl
@[simp] theorem updTask_turn (k : Nat) (f : Task → Task) : (s.updTask k f).turn = s.turn := by unfold State.updTask; split <;> rfl

@[simp] theorem updCore_epoch (c : Nat) (f : Core → Core) : (s.updCore c f).epoch = s.epoch := rfl
@[simp] theorem updCore_mem (c : Nat) (f : Core → Core) : (s.updCore c f).mem = s.mem := rfl
@[simp] theorem updCore_tags (c : Nat) (f : Core → Core) : (s.updCore c f).tags = s.tags := rfl
@[simp] theorem updCore_jrnl (c : Nat) (f : Core → Core) : (s.updCore c f).jrnl = s.jrnl := rfl
@[simp] theorem updCore_tjrnl (c : Nat) (f : Core → Core) : (s.updCore c f).tjrnl = s.tjrnl := rfl
@[simp] theorem updCore_written (c : Nat) (f : Core → Core) : (s.updCore c f).written = s.written := rfl
@[simp] theorem updCore_marked (c : Nat) (f : Core → Core) : (s.updCore c f).marked = s.marked := rfl
@[simp] theorem updCore_bad (c : Nat) (f : Core → Core) : (s.updCore c f).bad = s.bad := rfl
@[simp] theorem updCore_retired (c : Nat) (f : Core → Core) : (s.updCore c f).retired = s.retired := rfl
@[simp] theorem updCore_macs (c : Nat) (f : Core → Core) : (s.updCore c f).macs = s.macs := rfl
@[simp] theorem updCore_vps (c : Nat) (f : Core → Core) : (s.updCore c f).vps = s.vps := rfl
@[simp] theorem updCore_copies (c : Nat) (f : Core → Core) : (s.updCore c f).copies = s.copies := rfl
@[simp] theorem updCore_clean (c : Nat) (f : Core → Core) : (s.updCore c f).clean = s.clean := rfl
@[simp] theorem updCore_unpushed (c : Nat) (f : Core → Core) : (s.updCore c f).unpushed = s.unpushed := rfl
@[simp] theorem updCore_lates (c : Nat) (f : Core → Core) : (s.updCore c f).lates = s.lates := rfl
@[simp] theorem updCore_late (c : Nat) (f : Core → Core) : (s.updCore c f).late = s.late := rfl
@[simp] theorem updCore_nextLate (c : Nat) (f : Core → Core) : (s.updCore c f).nextLate = s.nextLate := rfl
@[simp] theorem updCore_calcs (c : Nat) (f : Core → Core) : (s.updCore c f).calcs = s.calcs := rfl
@[simp] theorem updCore_relvs (c : Nat) (f : Core → Core) : (s.updCore c f).relvs = s.relvs := rfl
@[simp] theorem updCore_tlbs (c : Nat) (f : Core → Core) : (s.updCore c f).tlbs = s.tlbs := rfl
@[simp] theorem updCore_walks (c : Nat) (f : Core → Core) : (s.updCore c f).walks = s.walks := rfl
@[simp] theorem updCore_benches (c : Nat) (f : Core → Core) : (s.updCore c f).benches = s.benches := rfl
@[simp] theorem updCore_saved (c : Nat) (f : Core → Core) : (s.updCore c f).saved = s.saved := rfl
@[simp] theorem updCore_tasks (c : Nat) (f : Core → Core) : (s.updCore c f).tasks = s.tasks := rfl
@[simp] theorem updCore_nextTask (c : Nat) (f : Core → Core) : (s.updCore c f).nextTask = s.nextTask := rfl
@[simp] theorem updCore_runs (c : Nat) (f : Core → Core) : (s.updCore c f).runs = s.runs := rfl
@[simp] theorem updCore_accepts (c : Nat) (f : Core → Core) : (s.updCore c f).accepts = s.accepts := rfl
@[simp] theorem updCore_subs (c : Nat) (f : Core → Core) : (s.updCore c f).subs = s.subs := rfl
@[simp] theorem updCore_nextSub (c : Nat) (f : Core → Core) : (s.updCore c f).nextSub = s.nextSub := rfl
@[simp] theorem updCore_groups (c : Nat) (f : Core → Core) : (s.updCore c f).groups = s.groups := rfl
@[simp] theorem updCore_serial (c : Nat) (f : Core → Core) : (s.updCore c f).serial = s.serial := rfl
@[simp] theorem updCore_slots (c : Nat) (f : Core → Core) : (s.updCore c f).slots = s.slots := rfl
@[simp] theorem updCore_wakes (c : Nat) (f : Core → Core) : (s.updCore c f).wakes = s.wakes := rfl
@[simp] theorem updCore_vacated (c : Nat) (f : Core → Core) : (s.updCore c f).vacated = s.vacated := rfl
@[simp] theorem updCore_worlds (c : Nat) (f : Core → Core) : (s.updCore c f).worlds = s.worlds := rfl
@[simp] theorem updCore_cores (c : Nat) (f : Core → Core) : (s.updCore c f).cores = mupd Core.init s.cores c f := rfl
@[simp] theorem updCore_drawers (c : Nat) (f : Core → Core) : (s.updCore c f).drawers = s.drawers := rfl
@[simp] theorem updCore_checks (c : Nat) (f : Core → Core) : (s.updCore c f).checks = s.checks := rfl
@[simp] theorem updCore_leases (c : Nat) (f : Core → Core) : (s.updCore c f).leases = s.leases := rfl
@[simp] theorem updCore_fetched (c : Nat) (f : Core → Core) : (s.updCore c f).fetched = s.fetched := rfl
@[simp] theorem updCore_mxus (c : Nat) (f : Core → Core) : (s.updCore c f).mxus = s.mxus := rfl
@[simp] theorem updCore_pkts (c : Nat) (f : Core → Core) : (s.updCore c f).pkts = s.pkts := rfl
@[simp] theorem updCore_packs (c : Nat) (f : Core → Core) : (s.updCore c f).packs = s.packs := rfl
@[simp] theorem updCore_msaves (c : Nat) (f : Core → Core) : (s.updCore c f).msaves = s.msaves := rfl
@[simp] theorem updCore_queues (c : Nat) (f : Core → Core) : (s.updCore c f).queues = s.queues := rfl
@[simp] theorem updCore_rwins (c : Nat) (f : Core → Core) : (s.updCore c f).rwins = s.rwins := rfl
@[simp] theorem updCore_remotes (c : Nat) (f : Core → Core) : (s.updCore c f).remotes = s.remotes := rfl
@[simp] theorem updCore_asqs (c : Nat) (f : Core → Core) : (s.updCore c f).asqs = s.asqs := rfl
@[simp] theorem updCore_arenas (c : Nat) (f : Core → Core) : (s.updCore c f).arenas = s.arenas := rfl
@[simp] theorem updCore_evq (c : Nat) (f : Core → Core) : (s.updCore c f).evq = s.evq := rfl
@[simp] theorem updCore_hub (c : Nat) (f : Core → Core) : (s.updCore c f).hub = s.hub := rfl
@[simp] theorem updCore_dropped (c : Nat) (f : Core → Core) : (s.updCore c f).dropped = s.dropped := rfl
@[simp] theorem updCore_ctl (c : Nat) (f : Core → Core) : (s.updCore c f).ctl = s.ctl := rfl
@[simp] theorem updCore_mstime (c : Nat) (f : Core → Core) : (s.updCore c f).mstime = s.mstime := rfl
@[simp] theorem updCore_cycle (c : Nat) (f : Core → Core) : (s.updCore c f).cycle = s.cycle := rfl
@[simp] theorem updCore_agenda (c : Nat) (f : Core → Core) : (s.updCore c f).agenda = s.agenda := rfl
@[simp] theorem updCore_cur (c : Nat) (f : Core → Core) : (s.updCore c f).cur = s.cur := rfl
@[simp] theorem updCore_draws (c : Nat) (f : Core → Core) : (s.updCore c f).draws = s.draws := rfl
@[simp] theorem updCore_turn (c : Nat) (f : Core → Core) : (s.updCore c f).turn = s.turn := rfl

@[simp] theorem updMxu_epoch (i : Nat) (f : Mxu → Mxu) : (s.updMxu i f).epoch = s.epoch := rfl
@[simp] theorem updMxu_mem (i : Nat) (f : Mxu → Mxu) : (s.updMxu i f).mem = s.mem := rfl
@[simp] theorem updMxu_tags (i : Nat) (f : Mxu → Mxu) : (s.updMxu i f).tags = s.tags := rfl
@[simp] theorem updMxu_jrnl (i : Nat) (f : Mxu → Mxu) : (s.updMxu i f).jrnl = s.jrnl := rfl
@[simp] theorem updMxu_tjrnl (i : Nat) (f : Mxu → Mxu) : (s.updMxu i f).tjrnl = s.tjrnl := rfl
@[simp] theorem updMxu_written (i : Nat) (f : Mxu → Mxu) : (s.updMxu i f).written = s.written := rfl
@[simp] theorem updMxu_marked (i : Nat) (f : Mxu → Mxu) : (s.updMxu i f).marked = s.marked := rfl
@[simp] theorem updMxu_bad (i : Nat) (f : Mxu → Mxu) : (s.updMxu i f).bad = s.bad := rfl
@[simp] theorem updMxu_retired (i : Nat) (f : Mxu → Mxu) : (s.updMxu i f).retired = s.retired := rfl
@[simp] theorem updMxu_macs (i : Nat) (f : Mxu → Mxu) : (s.updMxu i f).macs = s.macs := rfl
@[simp] theorem updMxu_vps (i : Nat) (f : Mxu → Mxu) : (s.updMxu i f).vps = s.vps := rfl
@[simp] theorem updMxu_copies (i : Nat) (f : Mxu → Mxu) : (s.updMxu i f).copies = s.copies := rfl
@[simp] theorem updMxu_clean (i : Nat) (f : Mxu → Mxu) : (s.updMxu i f).clean = s.clean := rfl
@[simp] theorem updMxu_unpushed (i : Nat) (f : Mxu → Mxu) : (s.updMxu i f).unpushed = s.unpushed := rfl
@[simp] theorem updMxu_lates (i : Nat) (f : Mxu → Mxu) : (s.updMxu i f).lates = s.lates := rfl
@[simp] theorem updMxu_late (i : Nat) (f : Mxu → Mxu) : (s.updMxu i f).late = s.late := rfl
@[simp] theorem updMxu_nextLate (i : Nat) (f : Mxu → Mxu) : (s.updMxu i f).nextLate = s.nextLate := rfl
@[simp] theorem updMxu_calcs (i : Nat) (f : Mxu → Mxu) : (s.updMxu i f).calcs = s.calcs := rfl
@[simp] theorem updMxu_relvs (i : Nat) (f : Mxu → Mxu) : (s.updMxu i f).relvs = s.relvs := rfl
@[simp] theorem updMxu_tlbs (i : Nat) (f : Mxu → Mxu) : (s.updMxu i f).tlbs = s.tlbs := rfl
@[simp] theorem updMxu_walks (i : Nat) (f : Mxu → Mxu) : (s.updMxu i f).walks = s.walks := rfl
@[simp] theorem updMxu_benches (i : Nat) (f : Mxu → Mxu) : (s.updMxu i f).benches = s.benches := rfl
@[simp] theorem updMxu_saved (i : Nat) (f : Mxu → Mxu) : (s.updMxu i f).saved = s.saved := rfl
@[simp] theorem updMxu_tasks (i : Nat) (f : Mxu → Mxu) : (s.updMxu i f).tasks = s.tasks := rfl
@[simp] theorem updMxu_nextTask (i : Nat) (f : Mxu → Mxu) : (s.updMxu i f).nextTask = s.nextTask := rfl
@[simp] theorem updMxu_runs (i : Nat) (f : Mxu → Mxu) : (s.updMxu i f).runs = s.runs := rfl
@[simp] theorem updMxu_accepts (i : Nat) (f : Mxu → Mxu) : (s.updMxu i f).accepts = s.accepts := rfl
@[simp] theorem updMxu_subs (i : Nat) (f : Mxu → Mxu) : (s.updMxu i f).subs = s.subs := rfl
@[simp] theorem updMxu_nextSub (i : Nat) (f : Mxu → Mxu) : (s.updMxu i f).nextSub = s.nextSub := rfl
@[simp] theorem updMxu_groups (i : Nat) (f : Mxu → Mxu) : (s.updMxu i f).groups = s.groups := rfl
@[simp] theorem updMxu_serial (i : Nat) (f : Mxu → Mxu) : (s.updMxu i f).serial = s.serial := rfl
@[simp] theorem updMxu_slots (i : Nat) (f : Mxu → Mxu) : (s.updMxu i f).slots = s.slots := rfl
@[simp] theorem updMxu_wakes (i : Nat) (f : Mxu → Mxu) : (s.updMxu i f).wakes = s.wakes := rfl
@[simp] theorem updMxu_vacated (i : Nat) (f : Mxu → Mxu) : (s.updMxu i f).vacated = s.vacated := rfl
@[simp] theorem updMxu_worlds (i : Nat) (f : Mxu → Mxu) : (s.updMxu i f).worlds = s.worlds := rfl
@[simp] theorem updMxu_cores (i : Nat) (f : Mxu → Mxu) : (s.updMxu i f).cores = s.cores := rfl
@[simp] theorem updMxu_drawers (i : Nat) (f : Mxu → Mxu) : (s.updMxu i f).drawers = s.drawers := rfl
@[simp] theorem updMxu_checks (i : Nat) (f : Mxu → Mxu) : (s.updMxu i f).checks = s.checks := rfl
@[simp] theorem updMxu_leases (i : Nat) (f : Mxu → Mxu) : (s.updMxu i f).leases = s.leases := rfl
@[simp] theorem updMxu_fetched (i : Nat) (f : Mxu → Mxu) : (s.updMxu i f).fetched = s.fetched := rfl
@[simp] theorem updMxu_mxus (i : Nat) (f : Mxu → Mxu) : (s.updMxu i f).mxus = mupd Mxu.init s.mxus i f := rfl
@[simp] theorem updMxu_pkts (i : Nat) (f : Mxu → Mxu) : (s.updMxu i f).pkts = s.pkts := rfl
@[simp] theorem updMxu_packs (i : Nat) (f : Mxu → Mxu) : (s.updMxu i f).packs = s.packs := rfl
@[simp] theorem updMxu_msaves (i : Nat) (f : Mxu → Mxu) : (s.updMxu i f).msaves = s.msaves := rfl
@[simp] theorem updMxu_queues (i : Nat) (f : Mxu → Mxu) : (s.updMxu i f).queues = s.queues := rfl
@[simp] theorem updMxu_rwins (i : Nat) (f : Mxu → Mxu) : (s.updMxu i f).rwins = s.rwins := rfl
@[simp] theorem updMxu_remotes (i : Nat) (f : Mxu → Mxu) : (s.updMxu i f).remotes = s.remotes := rfl
@[simp] theorem updMxu_asqs (i : Nat) (f : Mxu → Mxu) : (s.updMxu i f).asqs = s.asqs := rfl
@[simp] theorem updMxu_arenas (i : Nat) (f : Mxu → Mxu) : (s.updMxu i f).arenas = s.arenas := rfl
@[simp] theorem updMxu_evq (i : Nat) (f : Mxu → Mxu) : (s.updMxu i f).evq = s.evq := rfl
@[simp] theorem updMxu_hub (i : Nat) (f : Mxu → Mxu) : (s.updMxu i f).hub = s.hub := rfl
@[simp] theorem updMxu_dropped (i : Nat) (f : Mxu → Mxu) : (s.updMxu i f).dropped = s.dropped := rfl
@[simp] theorem updMxu_ctl (i : Nat) (f : Mxu → Mxu) : (s.updMxu i f).ctl = s.ctl := rfl
@[simp] theorem updMxu_mstime (i : Nat) (f : Mxu → Mxu) : (s.updMxu i f).mstime = s.mstime := rfl
@[simp] theorem updMxu_cycle (i : Nat) (f : Mxu → Mxu) : (s.updMxu i f).cycle = s.cycle := rfl
@[simp] theorem updMxu_agenda (i : Nat) (f : Mxu → Mxu) : (s.updMxu i f).agenda = s.agenda := rfl
@[simp] theorem updMxu_cur (i : Nat) (f : Mxu → Mxu) : (s.updMxu i f).cur = s.cur := rfl
@[simp] theorem updMxu_draws (i : Nat) (f : Mxu → Mxu) : (s.updMxu i f).draws = s.draws := rfl
@[simp] theorem updMxu_turn (i : Nat) (f : Mxu → Mxu) : (s.updMxu i f).turn = s.turn := rfl

@[simp] theorem updAsq_epoch (c : Nat) (f : Asq → Asq) : (s.updAsq c f).epoch = s.epoch := rfl
@[simp] theorem updAsq_mem (c : Nat) (f : Asq → Asq) : (s.updAsq c f).mem = s.mem := rfl
@[simp] theorem updAsq_tags (c : Nat) (f : Asq → Asq) : (s.updAsq c f).tags = s.tags := rfl
@[simp] theorem updAsq_jrnl (c : Nat) (f : Asq → Asq) : (s.updAsq c f).jrnl = s.jrnl := rfl
@[simp] theorem updAsq_tjrnl (c : Nat) (f : Asq → Asq) : (s.updAsq c f).tjrnl = s.tjrnl := rfl
@[simp] theorem updAsq_written (c : Nat) (f : Asq → Asq) : (s.updAsq c f).written = s.written := rfl
@[simp] theorem updAsq_marked (c : Nat) (f : Asq → Asq) : (s.updAsq c f).marked = s.marked := rfl
@[simp] theorem updAsq_bad (c : Nat) (f : Asq → Asq) : (s.updAsq c f).bad = s.bad := rfl
@[simp] theorem updAsq_retired (c : Nat) (f : Asq → Asq) : (s.updAsq c f).retired = s.retired := rfl
@[simp] theorem updAsq_macs (c : Nat) (f : Asq → Asq) : (s.updAsq c f).macs = s.macs := rfl
@[simp] theorem updAsq_vps (c : Nat) (f : Asq → Asq) : (s.updAsq c f).vps = s.vps := rfl
@[simp] theorem updAsq_copies (c : Nat) (f : Asq → Asq) : (s.updAsq c f).copies = s.copies := rfl
@[simp] theorem updAsq_clean (c : Nat) (f : Asq → Asq) : (s.updAsq c f).clean = s.clean := rfl
@[simp] theorem updAsq_unpushed (c : Nat) (f : Asq → Asq) : (s.updAsq c f).unpushed = s.unpushed := rfl
@[simp] theorem updAsq_lates (c : Nat) (f : Asq → Asq) : (s.updAsq c f).lates = s.lates := rfl
@[simp] theorem updAsq_late (c : Nat) (f : Asq → Asq) : (s.updAsq c f).late = s.late := rfl
@[simp] theorem updAsq_nextLate (c : Nat) (f : Asq → Asq) : (s.updAsq c f).nextLate = s.nextLate := rfl
@[simp] theorem updAsq_calcs (c : Nat) (f : Asq → Asq) : (s.updAsq c f).calcs = s.calcs := rfl
@[simp] theorem updAsq_relvs (c : Nat) (f : Asq → Asq) : (s.updAsq c f).relvs = s.relvs := rfl
@[simp] theorem updAsq_tlbs (c : Nat) (f : Asq → Asq) : (s.updAsq c f).tlbs = s.tlbs := rfl
@[simp] theorem updAsq_walks (c : Nat) (f : Asq → Asq) : (s.updAsq c f).walks = s.walks := rfl
@[simp] theorem updAsq_benches (c : Nat) (f : Asq → Asq) : (s.updAsq c f).benches = s.benches := rfl
@[simp] theorem updAsq_saved (c : Nat) (f : Asq → Asq) : (s.updAsq c f).saved = s.saved := rfl
@[simp] theorem updAsq_tasks (c : Nat) (f : Asq → Asq) : (s.updAsq c f).tasks = s.tasks := rfl
@[simp] theorem updAsq_nextTask (c : Nat) (f : Asq → Asq) : (s.updAsq c f).nextTask = s.nextTask := rfl
@[simp] theorem updAsq_runs (c : Nat) (f : Asq → Asq) : (s.updAsq c f).runs = s.runs := rfl
@[simp] theorem updAsq_accepts (c : Nat) (f : Asq → Asq) : (s.updAsq c f).accepts = s.accepts := rfl
@[simp] theorem updAsq_subs (c : Nat) (f : Asq → Asq) : (s.updAsq c f).subs = s.subs := rfl
@[simp] theorem updAsq_nextSub (c : Nat) (f : Asq → Asq) : (s.updAsq c f).nextSub = s.nextSub := rfl
@[simp] theorem updAsq_groups (c : Nat) (f : Asq → Asq) : (s.updAsq c f).groups = s.groups := rfl
@[simp] theorem updAsq_serial (c : Nat) (f : Asq → Asq) : (s.updAsq c f).serial = s.serial := rfl
@[simp] theorem updAsq_slots (c : Nat) (f : Asq → Asq) : (s.updAsq c f).slots = s.slots := rfl
@[simp] theorem updAsq_wakes (c : Nat) (f : Asq → Asq) : (s.updAsq c f).wakes = s.wakes := rfl
@[simp] theorem updAsq_vacated (c : Nat) (f : Asq → Asq) : (s.updAsq c f).vacated = s.vacated := rfl
@[simp] theorem updAsq_worlds (c : Nat) (f : Asq → Asq) : (s.updAsq c f).worlds = s.worlds := rfl
@[simp] theorem updAsq_cores (c : Nat) (f : Asq → Asq) : (s.updAsq c f).cores = s.cores := rfl
@[simp] theorem updAsq_drawers (c : Nat) (f : Asq → Asq) : (s.updAsq c f).drawers = s.drawers := rfl
@[simp] theorem updAsq_checks (c : Nat) (f : Asq → Asq) : (s.updAsq c f).checks = s.checks := rfl
@[simp] theorem updAsq_leases (c : Nat) (f : Asq → Asq) : (s.updAsq c f).leases = s.leases := rfl
@[simp] theorem updAsq_fetched (c : Nat) (f : Asq → Asq) : (s.updAsq c f).fetched = s.fetched := rfl
@[simp] theorem updAsq_mxus (c : Nat) (f : Asq → Asq) : (s.updAsq c f).mxus = s.mxus := rfl
@[simp] theorem updAsq_pkts (c : Nat) (f : Asq → Asq) : (s.updAsq c f).pkts = s.pkts := rfl
@[simp] theorem updAsq_packs (c : Nat) (f : Asq → Asq) : (s.updAsq c f).packs = s.packs := rfl
@[simp] theorem updAsq_msaves (c : Nat) (f : Asq → Asq) : (s.updAsq c f).msaves = s.msaves := rfl
@[simp] theorem updAsq_queues (c : Nat) (f : Asq → Asq) : (s.updAsq c f).queues = s.queues := rfl
@[simp] theorem updAsq_rwins (c : Nat) (f : Asq → Asq) : (s.updAsq c f).rwins = s.rwins := rfl
@[simp] theorem updAsq_remotes (c : Nat) (f : Asq → Asq) : (s.updAsq c f).remotes = s.remotes := rfl
@[simp] theorem updAsq_asqs (c : Nat) (f : Asq → Asq) : (s.updAsq c f).asqs = mupd Asq.init s.asqs c f := rfl
@[simp] theorem updAsq_arenas (c : Nat) (f : Asq → Asq) : (s.updAsq c f).arenas = s.arenas := rfl
@[simp] theorem updAsq_evq (c : Nat) (f : Asq → Asq) : (s.updAsq c f).evq = s.evq := rfl
@[simp] theorem updAsq_hub (c : Nat) (f : Asq → Asq) : (s.updAsq c f).hub = s.hub := rfl
@[simp] theorem updAsq_dropped (c : Nat) (f : Asq → Asq) : (s.updAsq c f).dropped = s.dropped := rfl
@[simp] theorem updAsq_ctl (c : Nat) (f : Asq → Asq) : (s.updAsq c f).ctl = s.ctl := rfl
@[simp] theorem updAsq_mstime (c : Nat) (f : Asq → Asq) : (s.updAsq c f).mstime = s.mstime := rfl
@[simp] theorem updAsq_cycle (c : Nat) (f : Asq → Asq) : (s.updAsq c f).cycle = s.cycle := rfl
@[simp] theorem updAsq_agenda (c : Nat) (f : Asq → Asq) : (s.updAsq c f).agenda = s.agenda := rfl
@[simp] theorem updAsq_cur (c : Nat) (f : Asq → Asq) : (s.updAsq c f).cur = s.cur := rfl
@[simp] theorem updAsq_draws (c : Nat) (f : Asq → Asq) : (s.updAsq c f).draws = s.draws := rfl
@[simp] theorem updAsq_turn (c : Nat) (f : Asq → Asq) : (s.updAsq c f).turn = s.turn := rfl

@[simp] theorem updQ_epoch (q : QId) (f : BQueue → BQueue) : (s.updQ q f).epoch = s.epoch := by unfold State.updQ; split <;> rfl
@[simp] theorem updQ_mem (q : QId) (f : BQueue → BQueue) : (s.updQ q f).mem = s.mem := by unfold State.updQ; split <;> rfl
@[simp] theorem updQ_tags (q : QId) (f : BQueue → BQueue) : (s.updQ q f).tags = s.tags := by unfold State.updQ; split <;> rfl
@[simp] theorem updQ_jrnl (q : QId) (f : BQueue → BQueue) : (s.updQ q f).jrnl = s.jrnl := by unfold State.updQ; split <;> rfl
@[simp] theorem updQ_tjrnl (q : QId) (f : BQueue → BQueue) : (s.updQ q f).tjrnl = s.tjrnl := by unfold State.updQ; split <;> rfl
@[simp] theorem updQ_written (q : QId) (f : BQueue → BQueue) : (s.updQ q f).written = s.written := by unfold State.updQ; split <;> rfl
@[simp] theorem updQ_marked (q : QId) (f : BQueue → BQueue) : (s.updQ q f).marked = s.marked := by unfold State.updQ; split <;> rfl
@[simp] theorem updQ_bad (q : QId) (f : BQueue → BQueue) : (s.updQ q f).bad = s.bad := by unfold State.updQ; split <;> rfl
@[simp] theorem updQ_retired (q : QId) (f : BQueue → BQueue) : (s.updQ q f).retired = s.retired := by unfold State.updQ; split <;> rfl
@[simp] theorem updQ_macs (q : QId) (f : BQueue → BQueue) : (s.updQ q f).macs = s.macs := by unfold State.updQ; split <;> rfl
@[simp] theorem updQ_vps (q : QId) (f : BQueue → BQueue) : (s.updQ q f).vps = s.vps := by unfold State.updQ; split <;> rfl
@[simp] theorem updQ_copies (q : QId) (f : BQueue → BQueue) : (s.updQ q f).copies = s.copies := by unfold State.updQ; split <;> rfl
@[simp] theorem updQ_clean (q : QId) (f : BQueue → BQueue) : (s.updQ q f).clean = s.clean := by unfold State.updQ; split <;> rfl
@[simp] theorem updQ_unpushed (q : QId) (f : BQueue → BQueue) : (s.updQ q f).unpushed = s.unpushed := by unfold State.updQ; split <;> rfl
@[simp] theorem updQ_lates (q : QId) (f : BQueue → BQueue) : (s.updQ q f).lates = s.lates := by unfold State.updQ; split <;> rfl
@[simp] theorem updQ_late (q : QId) (f : BQueue → BQueue) : (s.updQ q f).late = s.late := by unfold State.updQ; split <;> rfl
@[simp] theorem updQ_nextLate (q : QId) (f : BQueue → BQueue) : (s.updQ q f).nextLate = s.nextLate := by unfold State.updQ; split <;> rfl
@[simp] theorem updQ_calcs (q : QId) (f : BQueue → BQueue) : (s.updQ q f).calcs = s.calcs := by unfold State.updQ; split <;> rfl
@[simp] theorem updQ_relvs (q : QId) (f : BQueue → BQueue) : (s.updQ q f).relvs = s.relvs := by unfold State.updQ; split <;> rfl
@[simp] theorem updQ_tlbs (q : QId) (f : BQueue → BQueue) : (s.updQ q f).tlbs = s.tlbs := by unfold State.updQ; split <;> rfl
@[simp] theorem updQ_walks (q : QId) (f : BQueue → BQueue) : (s.updQ q f).walks = s.walks := by unfold State.updQ; split <;> rfl
@[simp] theorem updQ_benches (q : QId) (f : BQueue → BQueue) : (s.updQ q f).benches = s.benches := by unfold State.updQ; split <;> rfl
@[simp] theorem updQ_saved (q : QId) (f : BQueue → BQueue) : (s.updQ q f).saved = s.saved := by unfold State.updQ; split <;> rfl
@[simp] theorem updQ_tasks (q : QId) (f : BQueue → BQueue) : (s.updQ q f).tasks = s.tasks := by unfold State.updQ; split <;> rfl
@[simp] theorem updQ_nextTask (q : QId) (f : BQueue → BQueue) : (s.updQ q f).nextTask = s.nextTask := by unfold State.updQ; split <;> rfl
@[simp] theorem updQ_runs (q : QId) (f : BQueue → BQueue) : (s.updQ q f).runs = s.runs := by unfold State.updQ; split <;> rfl
@[simp] theorem updQ_accepts (q : QId) (f : BQueue → BQueue) : (s.updQ q f).accepts = s.accepts := by unfold State.updQ; split <;> rfl
@[simp] theorem updQ_subs (q : QId) (f : BQueue → BQueue) : (s.updQ q f).subs = s.subs := by unfold State.updQ; split <;> rfl
@[simp] theorem updQ_nextSub (q : QId) (f : BQueue → BQueue) : (s.updQ q f).nextSub = s.nextSub := by unfold State.updQ; split <;> rfl
@[simp] theorem updQ_groups (q : QId) (f : BQueue → BQueue) : (s.updQ q f).groups = s.groups := by unfold State.updQ; split <;> rfl
@[simp] theorem updQ_serial (q : QId) (f : BQueue → BQueue) : (s.updQ q f).serial = s.serial := by unfold State.updQ; split <;> rfl
@[simp] theorem updQ_slots (q : QId) (f : BQueue → BQueue) : (s.updQ q f).slots = s.slots := by unfold State.updQ; split <;> rfl
@[simp] theorem updQ_wakes (q : QId) (f : BQueue → BQueue) : (s.updQ q f).wakes = s.wakes := by unfold State.updQ; split <;> rfl
@[simp] theorem updQ_vacated (q : QId) (f : BQueue → BQueue) : (s.updQ q f).vacated = s.vacated := by unfold State.updQ; split <;> rfl
@[simp] theorem updQ_worlds (q : QId) (f : BQueue → BQueue) : (s.updQ q f).worlds = s.worlds := by unfold State.updQ; split <;> rfl
@[simp] theorem updQ_cores (q : QId) (f : BQueue → BQueue) : (s.updQ q f).cores = s.cores := by unfold State.updQ; split <;> rfl
@[simp] theorem updQ_drawers (q : QId) (f : BQueue → BQueue) : (s.updQ q f).drawers = s.drawers := by unfold State.updQ; split <;> rfl
@[simp] theorem updQ_checks (q : QId) (f : BQueue → BQueue) : (s.updQ q f).checks = s.checks := by unfold State.updQ; split <;> rfl
@[simp] theorem updQ_leases (q : QId) (f : BQueue → BQueue) : (s.updQ q f).leases = s.leases := by unfold State.updQ; split <;> rfl
@[simp] theorem updQ_fetched (q : QId) (f : BQueue → BQueue) : (s.updQ q f).fetched = s.fetched := by unfold State.updQ; split <;> rfl
@[simp] theorem updQ_mxus (q : QId) (f : BQueue → BQueue) : (s.updQ q f).mxus = s.mxus := by unfold State.updQ; split <;> rfl
@[simp] theorem updQ_pkts (q : QId) (f : BQueue → BQueue) : (s.updQ q f).pkts = s.pkts := by unfold State.updQ; split <;> rfl
@[simp] theorem updQ_packs (q : QId) (f : BQueue → BQueue) : (s.updQ q f).packs = s.packs := by unfold State.updQ; split <;> rfl
@[simp] theorem updQ_msaves (q : QId) (f : BQueue → BQueue) : (s.updQ q f).msaves = s.msaves := by unfold State.updQ; split <;> rfl
@[simp] theorem updQ_rwins (q : QId) (f : BQueue → BQueue) : (s.updQ q f).rwins = s.rwins := by unfold State.updQ; split <;> rfl
@[simp] theorem updQ_remotes (q : QId) (f : BQueue → BQueue) : (s.updQ q f).remotes = s.remotes := by unfold State.updQ; split <;> rfl
@[simp] theorem updQ_asqs (q : QId) (f : BQueue → BQueue) : (s.updQ q f).asqs = s.asqs := by unfold State.updQ; split <;> rfl
@[simp] theorem updQ_arenas (q : QId) (f : BQueue → BQueue) : (s.updQ q f).arenas = s.arenas := by unfold State.updQ; split <;> rfl
@[simp] theorem updQ_evq (q : QId) (f : BQueue → BQueue) : (s.updQ q f).evq = s.evq := by unfold State.updQ; split <;> rfl
@[simp] theorem updQ_hub (q : QId) (f : BQueue → BQueue) : (s.updQ q f).hub = s.hub := by unfold State.updQ; split <;> rfl
@[simp] theorem updQ_dropped (q : QId) (f : BQueue → BQueue) : (s.updQ q f).dropped = s.dropped := by unfold State.updQ; split <;> rfl
@[simp] theorem updQ_ctl (q : QId) (f : BQueue → BQueue) : (s.updQ q f).ctl = s.ctl := by unfold State.updQ; split <;> rfl
@[simp] theorem updQ_mstime (q : QId) (f : BQueue → BQueue) : (s.updQ q f).mstime = s.mstime := by unfold State.updQ; split <;> rfl
@[simp] theorem updQ_cycle (q : QId) (f : BQueue → BQueue) : (s.updQ q f).cycle = s.cycle := by unfold State.updQ; split <;> rfl
@[simp] theorem updQ_agenda (q : QId) (f : BQueue → BQueue) : (s.updQ q f).agenda = s.agenda := by unfold State.updQ; split <;> rfl
@[simp] theorem updQ_cur (q : QId) (f : BQueue → BQueue) : (s.updQ q f).cur = s.cur := by unfold State.updQ; split <;> rfl
@[simp] theorem updQ_draws (q : QId) (f : BQueue → BQueue) : (s.updQ q f).draws = s.draws := by unfold State.updQ; split <;> rfl
@[simp] theorem updQ_turn (q : QId) (f : BQueue → BQueue) : (s.updQ q f).turn = s.turn := by unfold State.updQ; split <;> rfl

@[simp] theorem setLease_epoch (i : Nat) (x : Lease) : (s.setLease i x).epoch = s.epoch := rfl
@[simp] theorem setLease_mem (i : Nat) (x : Lease) : (s.setLease i x).mem = s.mem := rfl
@[simp] theorem setLease_tags (i : Nat) (x : Lease) : (s.setLease i x).tags = s.tags := rfl
@[simp] theorem setLease_jrnl (i : Nat) (x : Lease) : (s.setLease i x).jrnl = s.jrnl := rfl
@[simp] theorem setLease_tjrnl (i : Nat) (x : Lease) : (s.setLease i x).tjrnl = s.tjrnl := rfl
@[simp] theorem setLease_written (i : Nat) (x : Lease) : (s.setLease i x).written = s.written := rfl
@[simp] theorem setLease_marked (i : Nat) (x : Lease) : (s.setLease i x).marked = s.marked := rfl
@[simp] theorem setLease_bad (i : Nat) (x : Lease) : (s.setLease i x).bad = s.bad := rfl
@[simp] theorem setLease_retired (i : Nat) (x : Lease) : (s.setLease i x).retired = s.retired := rfl
@[simp] theorem setLease_macs (i : Nat) (x : Lease) : (s.setLease i x).macs = s.macs := rfl
@[simp] theorem setLease_vps (i : Nat) (x : Lease) : (s.setLease i x).vps = s.vps := rfl
@[simp] theorem setLease_copies (i : Nat) (x : Lease) : (s.setLease i x).copies = s.copies := rfl
@[simp] theorem setLease_clean (i : Nat) (x : Lease) : (s.setLease i x).clean = s.clean := rfl
@[simp] theorem setLease_unpushed (i : Nat) (x : Lease) : (s.setLease i x).unpushed = s.unpushed := rfl
@[simp] theorem setLease_lates (i : Nat) (x : Lease) : (s.setLease i x).lates = s.lates := rfl
@[simp] theorem setLease_late (i : Nat) (x : Lease) : (s.setLease i x).late = s.late := rfl
@[simp] theorem setLease_nextLate (i : Nat) (x : Lease) : (s.setLease i x).nextLate = s.nextLate := rfl
@[simp] theorem setLease_calcs (i : Nat) (x : Lease) : (s.setLease i x).calcs = s.calcs := rfl
@[simp] theorem setLease_relvs (i : Nat) (x : Lease) : (s.setLease i x).relvs = s.relvs := rfl
@[simp] theorem setLease_tlbs (i : Nat) (x : Lease) : (s.setLease i x).tlbs = s.tlbs := rfl
@[simp] theorem setLease_walks (i : Nat) (x : Lease) : (s.setLease i x).walks = s.walks := rfl
@[simp] theorem setLease_benches (i : Nat) (x : Lease) : (s.setLease i x).benches = s.benches := rfl
@[simp] theorem setLease_saved (i : Nat) (x : Lease) : (s.setLease i x).saved = s.saved := rfl
@[simp] theorem setLease_tasks (i : Nat) (x : Lease) : (s.setLease i x).tasks = s.tasks := rfl
@[simp] theorem setLease_nextTask (i : Nat) (x : Lease) : (s.setLease i x).nextTask = s.nextTask := rfl
@[simp] theorem setLease_runs (i : Nat) (x : Lease) : (s.setLease i x).runs = s.runs := rfl
@[simp] theorem setLease_accepts (i : Nat) (x : Lease) : (s.setLease i x).accepts = s.accepts := rfl
@[simp] theorem setLease_subs (i : Nat) (x : Lease) : (s.setLease i x).subs = s.subs := rfl
@[simp] theorem setLease_nextSub (i : Nat) (x : Lease) : (s.setLease i x).nextSub = s.nextSub := rfl
@[simp] theorem setLease_groups (i : Nat) (x : Lease) : (s.setLease i x).groups = s.groups := rfl
@[simp] theorem setLease_serial (i : Nat) (x : Lease) : (s.setLease i x).serial = s.serial := rfl
@[simp] theorem setLease_slots (i : Nat) (x : Lease) : (s.setLease i x).slots = s.slots := rfl
@[simp] theorem setLease_wakes (i : Nat) (x : Lease) : (s.setLease i x).wakes = s.wakes := rfl
@[simp] theorem setLease_vacated (i : Nat) (x : Lease) : (s.setLease i x).vacated = s.vacated := rfl
@[simp] theorem setLease_worlds (i : Nat) (x : Lease) : (s.setLease i x).worlds = s.worlds := rfl
@[simp] theorem setLease_cores (i : Nat) (x : Lease) : (s.setLease i x).cores = s.cores := rfl
@[simp] theorem setLease_drawers (i : Nat) (x : Lease) : (s.setLease i x).drawers = s.drawers := rfl
@[simp] theorem setLease_checks (i : Nat) (x : Lease) : (s.setLease i x).checks = s.checks := rfl
@[simp] theorem setLease_leases (i : Nat) (x : Lease) : (s.setLease i x).leases = mput Lease.none s.leases i x := rfl
@[simp] theorem setLease_fetched (i : Nat) (x : Lease) : (s.setLease i x).fetched = s.fetched := rfl
@[simp] theorem setLease_mxus (i : Nat) (x : Lease) : (s.setLease i x).mxus = s.mxus := rfl
@[simp] theorem setLease_pkts (i : Nat) (x : Lease) : (s.setLease i x).pkts = s.pkts := rfl
@[simp] theorem setLease_packs (i : Nat) (x : Lease) : (s.setLease i x).packs = s.packs := rfl
@[simp] theorem setLease_msaves (i : Nat) (x : Lease) : (s.setLease i x).msaves = s.msaves := rfl
@[simp] theorem setLease_queues (i : Nat) (x : Lease) : (s.setLease i x).queues = s.queues := rfl
@[simp] theorem setLease_rwins (i : Nat) (x : Lease) : (s.setLease i x).rwins = s.rwins := rfl
@[simp] theorem setLease_remotes (i : Nat) (x : Lease) : (s.setLease i x).remotes = s.remotes := rfl
@[simp] theorem setLease_asqs (i : Nat) (x : Lease) : (s.setLease i x).asqs = s.asqs := rfl
@[simp] theorem setLease_arenas (i : Nat) (x : Lease) : (s.setLease i x).arenas = s.arenas := rfl
@[simp] theorem setLease_evq (i : Nat) (x : Lease) : (s.setLease i x).evq = s.evq := rfl
@[simp] theorem setLease_hub (i : Nat) (x : Lease) : (s.setLease i x).hub = s.hub := rfl
@[simp] theorem setLease_dropped (i : Nat) (x : Lease) : (s.setLease i x).dropped = s.dropped := rfl
@[simp] theorem setLease_ctl (i : Nat) (x : Lease) : (s.setLease i x).ctl = s.ctl := rfl
@[simp] theorem setLease_mstime (i : Nat) (x : Lease) : (s.setLease i x).mstime = s.mstime := rfl
@[simp] theorem setLease_cycle (i : Nat) (x : Lease) : (s.setLease i x).cycle = s.cycle := rfl
@[simp] theorem setLease_agenda (i : Nat) (x : Lease) : (s.setLease i x).agenda = s.agenda := rfl
@[simp] theorem setLease_cur (i : Nat) (x : Lease) : (s.setLease i x).cur = s.cur := rfl
@[simp] theorem setLease_draws (i : Nat) (x : Lease) : (s.setLease i x).draws = s.draws := rfl
@[simp] theorem setLease_turn (i : Nat) (x : Lease) : (s.setLease i x).turn = s.turn := rfl

@[simp] theorem setWorld_epoch (w : Nat) (x : World) : (s.setWorld w x).epoch = s.epoch := rfl
@[simp] theorem setWorld_mem (w : Nat) (x : World) : (s.setWorld w x).mem = s.mem := rfl
@[simp] theorem setWorld_tags (w : Nat) (x : World) : (s.setWorld w x).tags = s.tags := rfl
@[simp] theorem setWorld_jrnl (w : Nat) (x : World) : (s.setWorld w x).jrnl = s.jrnl := rfl
@[simp] theorem setWorld_tjrnl (w : Nat) (x : World) : (s.setWorld w x).tjrnl = s.tjrnl := rfl
@[simp] theorem setWorld_written (w : Nat) (x : World) : (s.setWorld w x).written = s.written := rfl
@[simp] theorem setWorld_marked (w : Nat) (x : World) : (s.setWorld w x).marked = s.marked := rfl
@[simp] theorem setWorld_bad (w : Nat) (x : World) : (s.setWorld w x).bad = s.bad := rfl
@[simp] theorem setWorld_retired (w : Nat) (x : World) : (s.setWorld w x).retired = s.retired := rfl
@[simp] theorem setWorld_macs (w : Nat) (x : World) : (s.setWorld w x).macs = s.macs := rfl
@[simp] theorem setWorld_vps (w : Nat) (x : World) : (s.setWorld w x).vps = s.vps := rfl
@[simp] theorem setWorld_copies (w : Nat) (x : World) : (s.setWorld w x).copies = s.copies := rfl
@[simp] theorem setWorld_clean (w : Nat) (x : World) : (s.setWorld w x).clean = s.clean := rfl
@[simp] theorem setWorld_unpushed (w : Nat) (x : World) : (s.setWorld w x).unpushed = s.unpushed := rfl
@[simp] theorem setWorld_lates (w : Nat) (x : World) : (s.setWorld w x).lates = s.lates := rfl
@[simp] theorem setWorld_late (w : Nat) (x : World) : (s.setWorld w x).late = s.late := rfl
@[simp] theorem setWorld_nextLate (w : Nat) (x : World) : (s.setWorld w x).nextLate = s.nextLate := rfl
@[simp] theorem setWorld_calcs (w : Nat) (x : World) : (s.setWorld w x).calcs = s.calcs := rfl
@[simp] theorem setWorld_relvs (w : Nat) (x : World) : (s.setWorld w x).relvs = s.relvs := rfl
@[simp] theorem setWorld_tlbs (w : Nat) (x : World) : (s.setWorld w x).tlbs = s.tlbs := rfl
@[simp] theorem setWorld_walks (w : Nat) (x : World) : (s.setWorld w x).walks = s.walks := rfl
@[simp] theorem setWorld_benches (w : Nat) (x : World) : (s.setWorld w x).benches = s.benches := rfl
@[simp] theorem setWorld_saved (w : Nat) (x : World) : (s.setWorld w x).saved = s.saved := rfl
@[simp] theorem setWorld_tasks (w : Nat) (x : World) : (s.setWorld w x).tasks = s.tasks := rfl
@[simp] theorem setWorld_nextTask (w : Nat) (x : World) : (s.setWorld w x).nextTask = s.nextTask := rfl
@[simp] theorem setWorld_runs (w : Nat) (x : World) : (s.setWorld w x).runs = s.runs := rfl
@[simp] theorem setWorld_accepts (w : Nat) (x : World) : (s.setWorld w x).accepts = s.accepts := rfl
@[simp] theorem setWorld_subs (w : Nat) (x : World) : (s.setWorld w x).subs = s.subs := rfl
@[simp] theorem setWorld_nextSub (w : Nat) (x : World) : (s.setWorld w x).nextSub = s.nextSub := rfl
@[simp] theorem setWorld_groups (w : Nat) (x : World) : (s.setWorld w x).groups = s.groups := rfl
@[simp] theorem setWorld_serial (w : Nat) (x : World) : (s.setWorld w x).serial = s.serial := rfl
@[simp] theorem setWorld_slots (w : Nat) (x : World) : (s.setWorld w x).slots = s.slots := rfl
@[simp] theorem setWorld_wakes (w : Nat) (x : World) : (s.setWorld w x).wakes = s.wakes := rfl
@[simp] theorem setWorld_vacated (w : Nat) (x : World) : (s.setWorld w x).vacated = s.vacated := rfl
@[simp] theorem setWorld_worlds (w : Nat) (x : World) : (s.setWorld w x).worlds = mset s.worlds w x := rfl
@[simp] theorem setWorld_cores (w : Nat) (x : World) : (s.setWorld w x).cores = s.cores := rfl
@[simp] theorem setWorld_drawers (w : Nat) (x : World) : (s.setWorld w x).drawers = s.drawers := rfl
@[simp] theorem setWorld_checks (w : Nat) (x : World) : (s.setWorld w x).checks = s.checks := rfl
@[simp] theorem setWorld_leases (w : Nat) (x : World) : (s.setWorld w x).leases = s.leases := rfl
@[simp] theorem setWorld_fetched (w : Nat) (x : World) : (s.setWorld w x).fetched = s.fetched := rfl
@[simp] theorem setWorld_mxus (w : Nat) (x : World) : (s.setWorld w x).mxus = s.mxus := rfl
@[simp] theorem setWorld_pkts (w : Nat) (x : World) : (s.setWorld w x).pkts = s.pkts := rfl
@[simp] theorem setWorld_packs (w : Nat) (x : World) : (s.setWorld w x).packs = s.packs := rfl
@[simp] theorem setWorld_msaves (w : Nat) (x : World) : (s.setWorld w x).msaves = s.msaves := rfl
@[simp] theorem setWorld_queues (w : Nat) (x : World) : (s.setWorld w x).queues = s.queues := rfl
@[simp] theorem setWorld_rwins (w : Nat) (x : World) : (s.setWorld w x).rwins = s.rwins := rfl
@[simp] theorem setWorld_remotes (w : Nat) (x : World) : (s.setWorld w x).remotes = s.remotes := rfl
@[simp] theorem setWorld_asqs (w : Nat) (x : World) : (s.setWorld w x).asqs = s.asqs := rfl
@[simp] theorem setWorld_arenas (w : Nat) (x : World) : (s.setWorld w x).arenas = s.arenas := rfl
@[simp] theorem setWorld_evq (w : Nat) (x : World) : (s.setWorld w x).evq = s.evq := rfl
@[simp] theorem setWorld_hub (w : Nat) (x : World) : (s.setWorld w x).hub = s.hub := rfl
@[simp] theorem setWorld_dropped (w : Nat) (x : World) : (s.setWorld w x).dropped = s.dropped := rfl
@[simp] theorem setWorld_ctl (w : Nat) (x : World) : (s.setWorld w x).ctl = s.ctl := rfl
@[simp] theorem setWorld_mstime (w : Nat) (x : World) : (s.setWorld w x).mstime = s.mstime := rfl
@[simp] theorem setWorld_cycle (w : Nat) (x : World) : (s.setWorld w x).cycle = s.cycle := rfl
@[simp] theorem setWorld_agenda (w : Nat) (x : World) : (s.setWorld w x).agenda = s.agenda := rfl
@[simp] theorem setWorld_cur (w : Nat) (x : World) : (s.setWorld w x).cur = s.cur := rfl
@[simp] theorem setWorld_draws (w : Nat) (x : World) : (s.setWorld w x).draws = s.draws := rfl
@[simp] theorem setWorld_turn (w : Nat) (x : World) : (s.setWorld w x).turn = s.turn := rfl

@[simp] theorem setCtl_epoch (o : Nat) (x : DWord) : (s.setCtl o x).epoch = s.epoch := rfl
@[simp] theorem setCtl_mem (o : Nat) (x : DWord) : (s.setCtl o x).mem = s.mem := rfl
@[simp] theorem setCtl_tags (o : Nat) (x : DWord) : (s.setCtl o x).tags = s.tags := rfl
@[simp] theorem setCtl_jrnl (o : Nat) (x : DWord) : (s.setCtl o x).jrnl = s.jrnl := rfl
@[simp] theorem setCtl_tjrnl (o : Nat) (x : DWord) : (s.setCtl o x).tjrnl = s.tjrnl := rfl
@[simp] theorem setCtl_written (o : Nat) (x : DWord) : (s.setCtl o x).written = s.written := rfl
@[simp] theorem setCtl_marked (o : Nat) (x : DWord) : (s.setCtl o x).marked = s.marked := rfl
@[simp] theorem setCtl_bad (o : Nat) (x : DWord) : (s.setCtl o x).bad = s.bad := rfl
@[simp] theorem setCtl_retired (o : Nat) (x : DWord) : (s.setCtl o x).retired = s.retired := rfl
@[simp] theorem setCtl_macs (o : Nat) (x : DWord) : (s.setCtl o x).macs = s.macs := rfl
@[simp] theorem setCtl_vps (o : Nat) (x : DWord) : (s.setCtl o x).vps = s.vps := rfl
@[simp] theorem setCtl_copies (o : Nat) (x : DWord) : (s.setCtl o x).copies = s.copies := rfl
@[simp] theorem setCtl_clean (o : Nat) (x : DWord) : (s.setCtl o x).clean = s.clean := rfl
@[simp] theorem setCtl_unpushed (o : Nat) (x : DWord) : (s.setCtl o x).unpushed = s.unpushed := rfl
@[simp] theorem setCtl_lates (o : Nat) (x : DWord) : (s.setCtl o x).lates = s.lates := rfl
@[simp] theorem setCtl_late (o : Nat) (x : DWord) : (s.setCtl o x).late = s.late := rfl
@[simp] theorem setCtl_nextLate (o : Nat) (x : DWord) : (s.setCtl o x).nextLate = s.nextLate := rfl
@[simp] theorem setCtl_calcs (o : Nat) (x : DWord) : (s.setCtl o x).calcs = s.calcs := rfl
@[simp] theorem setCtl_relvs (o : Nat) (x : DWord) : (s.setCtl o x).relvs = s.relvs := rfl
@[simp] theorem setCtl_tlbs (o : Nat) (x : DWord) : (s.setCtl o x).tlbs = s.tlbs := rfl
@[simp] theorem setCtl_walks (o : Nat) (x : DWord) : (s.setCtl o x).walks = s.walks := rfl
@[simp] theorem setCtl_benches (o : Nat) (x : DWord) : (s.setCtl o x).benches = s.benches := rfl
@[simp] theorem setCtl_saved (o : Nat) (x : DWord) : (s.setCtl o x).saved = s.saved := rfl
@[simp] theorem setCtl_tasks (o : Nat) (x : DWord) : (s.setCtl o x).tasks = s.tasks := rfl
@[simp] theorem setCtl_nextTask (o : Nat) (x : DWord) : (s.setCtl o x).nextTask = s.nextTask := rfl
@[simp] theorem setCtl_runs (o : Nat) (x : DWord) : (s.setCtl o x).runs = s.runs := rfl
@[simp] theorem setCtl_accepts (o : Nat) (x : DWord) : (s.setCtl o x).accepts = s.accepts := rfl
@[simp] theorem setCtl_subs (o : Nat) (x : DWord) : (s.setCtl o x).subs = s.subs := rfl
@[simp] theorem setCtl_nextSub (o : Nat) (x : DWord) : (s.setCtl o x).nextSub = s.nextSub := rfl
@[simp] theorem setCtl_groups (o : Nat) (x : DWord) : (s.setCtl o x).groups = s.groups := rfl
@[simp] theorem setCtl_serial (o : Nat) (x : DWord) : (s.setCtl o x).serial = s.serial := rfl
@[simp] theorem setCtl_slots (o : Nat) (x : DWord) : (s.setCtl o x).slots = s.slots := rfl
@[simp] theorem setCtl_wakes (o : Nat) (x : DWord) : (s.setCtl o x).wakes = s.wakes := rfl
@[simp] theorem setCtl_vacated (o : Nat) (x : DWord) : (s.setCtl o x).vacated = s.vacated := rfl
@[simp] theorem setCtl_worlds (o : Nat) (x : DWord) : (s.setCtl o x).worlds = s.worlds := rfl
@[simp] theorem setCtl_cores (o : Nat) (x : DWord) : (s.setCtl o x).cores = s.cores := rfl
@[simp] theorem setCtl_drawers (o : Nat) (x : DWord) : (s.setCtl o x).drawers = s.drawers := rfl
@[simp] theorem setCtl_checks (o : Nat) (x : DWord) : (s.setCtl o x).checks = s.checks := rfl
@[simp] theorem setCtl_leases (o : Nat) (x : DWord) : (s.setCtl o x).leases = s.leases := rfl
@[simp] theorem setCtl_fetched (o : Nat) (x : DWord) : (s.setCtl o x).fetched = s.fetched := rfl
@[simp] theorem setCtl_mxus (o : Nat) (x : DWord) : (s.setCtl o x).mxus = s.mxus := rfl
@[simp] theorem setCtl_pkts (o : Nat) (x : DWord) : (s.setCtl o x).pkts = s.pkts := rfl
@[simp] theorem setCtl_packs (o : Nat) (x : DWord) : (s.setCtl o x).packs = s.packs := rfl
@[simp] theorem setCtl_msaves (o : Nat) (x : DWord) : (s.setCtl o x).msaves = s.msaves := rfl
@[simp] theorem setCtl_queues (o : Nat) (x : DWord) : (s.setCtl o x).queues = s.queues := rfl
@[simp] theorem setCtl_rwins (o : Nat) (x : DWord) : (s.setCtl o x).rwins = s.rwins := rfl
@[simp] theorem setCtl_remotes (o : Nat) (x : DWord) : (s.setCtl o x).remotes = s.remotes := rfl
@[simp] theorem setCtl_asqs (o : Nat) (x : DWord) : (s.setCtl o x).asqs = s.asqs := rfl
@[simp] theorem setCtl_arenas (o : Nat) (x : DWord) : (s.setCtl o x).arenas = s.arenas := rfl
@[simp] theorem setCtl_evq (o : Nat) (x : DWord) : (s.setCtl o x).evq = s.evq := rfl
@[simp] theorem setCtl_hub (o : Nat) (x : DWord) : (s.setCtl o x).hub = s.hub := rfl
@[simp] theorem setCtl_dropped (o : Nat) (x : DWord) : (s.setCtl o x).dropped = s.dropped := rfl
@[simp] theorem setCtl_ctl (o : Nat) (x : DWord) : (s.setCtl o x).ctl = if x = ctlReset o then mdel s.ctl o else mset s.ctl o x := rfl
@[simp] theorem setCtl_mstime (o : Nat) (x : DWord) : (s.setCtl o x).mstime = s.mstime := rfl
@[simp] theorem setCtl_cycle (o : Nat) (x : DWord) : (s.setCtl o x).cycle = s.cycle := rfl
@[simp] theorem setCtl_agenda (o : Nat) (x : DWord) : (s.setCtl o x).agenda = s.agenda := rfl
@[simp] theorem setCtl_cur (o : Nat) (x : DWord) : (s.setCtl o x).cur = s.cur := rfl
@[simp] theorem setCtl_draws (o : Nat) (x : DWord) : (s.setCtl o x).draws = s.draws := rfl
@[simp] theorem setCtl_turn (o : Nat) (x : DWord) : (s.setCtl o x).turn = s.turn := rfl

@[simp] theorem putSlot_epoch (x : BSlot) : (s.putSlot x).epoch = s.epoch := by unfold State.putSlot; split <;> rfl
@[simp] theorem putSlot_mem (x : BSlot) : (s.putSlot x).mem = s.mem := by unfold State.putSlot; split <;> rfl
@[simp] theorem putSlot_tags (x : BSlot) : (s.putSlot x).tags = s.tags := by unfold State.putSlot; split <;> rfl
@[simp] theorem putSlot_jrnl (x : BSlot) : (s.putSlot x).jrnl = s.jrnl := by unfold State.putSlot; split <;> rfl
@[simp] theorem putSlot_tjrnl (x : BSlot) : (s.putSlot x).tjrnl = s.tjrnl := by unfold State.putSlot; split <;> rfl
@[simp] theorem putSlot_written (x : BSlot) : (s.putSlot x).written = s.written := by unfold State.putSlot; split <;> rfl
@[simp] theorem putSlot_marked (x : BSlot) : (s.putSlot x).marked = s.marked := by unfold State.putSlot; split <;> rfl
@[simp] theorem putSlot_bad (x : BSlot) : (s.putSlot x).bad = s.bad := by unfold State.putSlot; split <;> rfl
@[simp] theorem putSlot_retired (x : BSlot) : (s.putSlot x).retired = s.retired := by unfold State.putSlot; split <;> rfl
@[simp] theorem putSlot_macs (x : BSlot) : (s.putSlot x).macs = s.macs := by unfold State.putSlot; split <;> rfl
@[simp] theorem putSlot_vps (x : BSlot) : (s.putSlot x).vps = s.vps := by unfold State.putSlot; split <;> rfl
@[simp] theorem putSlot_copies (x : BSlot) : (s.putSlot x).copies = s.copies := by unfold State.putSlot; split <;> rfl
@[simp] theorem putSlot_clean (x : BSlot) : (s.putSlot x).clean = s.clean := by unfold State.putSlot; split <;> rfl
@[simp] theorem putSlot_unpushed (x : BSlot) : (s.putSlot x).unpushed = s.unpushed := by unfold State.putSlot; split <;> rfl
@[simp] theorem putSlot_lates (x : BSlot) : (s.putSlot x).lates = s.lates := by unfold State.putSlot; split <;> rfl
@[simp] theorem putSlot_late (x : BSlot) : (s.putSlot x).late = s.late := by unfold State.putSlot; split <;> rfl
@[simp] theorem putSlot_nextLate (x : BSlot) : (s.putSlot x).nextLate = s.nextLate := by unfold State.putSlot; split <;> rfl
@[simp] theorem putSlot_calcs (x : BSlot) : (s.putSlot x).calcs = s.calcs := by unfold State.putSlot; split <;> rfl
@[simp] theorem putSlot_relvs (x : BSlot) : (s.putSlot x).relvs = s.relvs := by unfold State.putSlot; split <;> rfl
@[simp] theorem putSlot_tlbs (x : BSlot) : (s.putSlot x).tlbs = s.tlbs := by unfold State.putSlot; split <;> rfl
@[simp] theorem putSlot_walks (x : BSlot) : (s.putSlot x).walks = s.walks := by unfold State.putSlot; split <;> rfl
@[simp] theorem putSlot_benches (x : BSlot) : (s.putSlot x).benches = s.benches := by unfold State.putSlot; split <;> rfl
@[simp] theorem putSlot_saved (x : BSlot) : (s.putSlot x).saved = s.saved := by unfold State.putSlot; split <;> rfl
@[simp] theorem putSlot_tasks (x : BSlot) : (s.putSlot x).tasks = s.tasks := by unfold State.putSlot; split <;> rfl
@[simp] theorem putSlot_nextTask (x : BSlot) : (s.putSlot x).nextTask = s.nextTask := by unfold State.putSlot; split <;> rfl
@[simp] theorem putSlot_runs (x : BSlot) : (s.putSlot x).runs = s.runs := by unfold State.putSlot; split <;> rfl
@[simp] theorem putSlot_accepts (x : BSlot) : (s.putSlot x).accepts = s.accepts := by unfold State.putSlot; split <;> rfl
@[simp] theorem putSlot_subs (x : BSlot) : (s.putSlot x).subs = s.subs := by unfold State.putSlot; split <;> rfl
@[simp] theorem putSlot_nextSub (x : BSlot) : (s.putSlot x).nextSub = s.nextSub := by unfold State.putSlot; split <;> rfl
@[simp] theorem putSlot_groups (x : BSlot) : (s.putSlot x).groups = s.groups := by unfold State.putSlot; split <;> rfl
@[simp] theorem putSlot_serial (x : BSlot) : (s.putSlot x).serial = s.serial := by unfold State.putSlot; split <;> rfl
@[simp] theorem putSlot_wakes (x : BSlot) : (s.putSlot x).wakes = s.wakes := by unfold State.putSlot; split <;> rfl
@[simp] theorem putSlot_vacated (x : BSlot) : (s.putSlot x).vacated = s.vacated := by unfold State.putSlot; split <;> rfl
@[simp] theorem putSlot_worlds (x : BSlot) : (s.putSlot x).worlds = s.worlds := by unfold State.putSlot; split <;> rfl
@[simp] theorem putSlot_cores (x : BSlot) : (s.putSlot x).cores = s.cores := by unfold State.putSlot; split <;> rfl
@[simp] theorem putSlot_drawers (x : BSlot) : (s.putSlot x).drawers = s.drawers := by unfold State.putSlot; split <;> rfl
@[simp] theorem putSlot_checks (x : BSlot) : (s.putSlot x).checks = s.checks := by unfold State.putSlot; split <;> rfl
@[simp] theorem putSlot_leases (x : BSlot) : (s.putSlot x).leases = s.leases := by unfold State.putSlot; split <;> rfl
@[simp] theorem putSlot_fetched (x : BSlot) : (s.putSlot x).fetched = s.fetched := by unfold State.putSlot; split <;> rfl
@[simp] theorem putSlot_mxus (x : BSlot) : (s.putSlot x).mxus = s.mxus := by unfold State.putSlot; split <;> rfl
@[simp] theorem putSlot_pkts (x : BSlot) : (s.putSlot x).pkts = s.pkts := by unfold State.putSlot; split <;> rfl
@[simp] theorem putSlot_packs (x : BSlot) : (s.putSlot x).packs = s.packs := by unfold State.putSlot; split <;> rfl
@[simp] theorem putSlot_msaves (x : BSlot) : (s.putSlot x).msaves = s.msaves := by unfold State.putSlot; split <;> rfl
@[simp] theorem putSlot_queues (x : BSlot) : (s.putSlot x).queues = s.queues := by unfold State.putSlot; split <;> rfl
@[simp] theorem putSlot_rwins (x : BSlot) : (s.putSlot x).rwins = s.rwins := by unfold State.putSlot; split <;> rfl
@[simp] theorem putSlot_remotes (x : BSlot) : (s.putSlot x).remotes = s.remotes := by unfold State.putSlot; split <;> rfl
@[simp] theorem putSlot_asqs (x : BSlot) : (s.putSlot x).asqs = s.asqs := by unfold State.putSlot; split <;> rfl
@[simp] theorem putSlot_arenas (x : BSlot) : (s.putSlot x).arenas = s.arenas := by unfold State.putSlot; split <;> rfl
@[simp] theorem putSlot_evq (x : BSlot) : (s.putSlot x).evq = s.evq := by unfold State.putSlot; split <;> rfl
@[simp] theorem putSlot_hub (x : BSlot) : (s.putSlot x).hub = s.hub := by unfold State.putSlot; split <;> rfl
@[simp] theorem putSlot_dropped (x : BSlot) : (s.putSlot x).dropped = s.dropped := by unfold State.putSlot; split <;> rfl
@[simp] theorem putSlot_ctl (x : BSlot) : (s.putSlot x).ctl = s.ctl := by unfold State.putSlot; split <;> rfl
@[simp] theorem putSlot_mstime (x : BSlot) : (s.putSlot x).mstime = s.mstime := by unfold State.putSlot; split <;> rfl
@[simp] theorem putSlot_cycle (x : BSlot) : (s.putSlot x).cycle = s.cycle := by unfold State.putSlot; split <;> rfl
@[simp] theorem putSlot_agenda (x : BSlot) : (s.putSlot x).agenda = s.agenda := by unfold State.putSlot; split <;> rfl
@[simp] theorem putSlot_cur (x : BSlot) : (s.putSlot x).cur = s.cur := by unfold State.putSlot; split <;> rfl
@[simp] theorem putSlot_draws (x : BSlot) : (s.putSlot x).draws = s.draws := by unfold State.putSlot; split <;> rfl
@[simp] theorem putSlot_turn (x : BSlot) : (s.putSlot x).turn = s.turn := by unfold State.putSlot; split <;> rfl

@[simp] theorem pushEvent_epoch (k : Nat) (r : EvRec) : (s.pushEvent k r).epoch = s.epoch := by unfold State.pushEvent; simp only []; split <;> rfl
@[simp] theorem pushEvent_mem (k : Nat) (r : EvRec) : (s.pushEvent k r).mem = s.mem := by unfold State.pushEvent; simp only []; split <;> rfl
@[simp] theorem pushEvent_tags (k : Nat) (r : EvRec) : (s.pushEvent k r).tags = s.tags := by unfold State.pushEvent; simp only []; split <;> rfl
@[simp] theorem pushEvent_jrnl (k : Nat) (r : EvRec) : (s.pushEvent k r).jrnl = s.jrnl := by unfold State.pushEvent; simp only []; split <;> rfl
@[simp] theorem pushEvent_tjrnl (k : Nat) (r : EvRec) : (s.pushEvent k r).tjrnl = s.tjrnl := by unfold State.pushEvent; simp only []; split <;> rfl
@[simp] theorem pushEvent_written (k : Nat) (r : EvRec) : (s.pushEvent k r).written = s.written := by unfold State.pushEvent; simp only []; split <;> rfl
@[simp] theorem pushEvent_marked (k : Nat) (r : EvRec) : (s.pushEvent k r).marked = s.marked := by unfold State.pushEvent; simp only []; split <;> rfl
@[simp] theorem pushEvent_bad (k : Nat) (r : EvRec) : (s.pushEvent k r).bad = s.bad := by unfold State.pushEvent; simp only []; split <;> rfl
@[simp] theorem pushEvent_retired (k : Nat) (r : EvRec) : (s.pushEvent k r).retired = s.retired := by unfold State.pushEvent; simp only []; split <;> rfl
@[simp] theorem pushEvent_macs (k : Nat) (r : EvRec) : (s.pushEvent k r).macs = s.macs := by unfold State.pushEvent; simp only []; split <;> rfl
@[simp] theorem pushEvent_vps (k : Nat) (r : EvRec) : (s.pushEvent k r).vps = s.vps := by unfold State.pushEvent; simp only []; split <;> rfl
@[simp] theorem pushEvent_copies (k : Nat) (r : EvRec) : (s.pushEvent k r).copies = s.copies := by unfold State.pushEvent; simp only []; split <;> rfl
@[simp] theorem pushEvent_clean (k : Nat) (r : EvRec) : (s.pushEvent k r).clean = s.clean := by unfold State.pushEvent; simp only []; split <;> rfl
@[simp] theorem pushEvent_unpushed (k : Nat) (r : EvRec) : (s.pushEvent k r).unpushed = s.unpushed := by unfold State.pushEvent; simp only []; split <;> rfl
@[simp] theorem pushEvent_lates (k : Nat) (r : EvRec) : (s.pushEvent k r).lates = s.lates := by unfold State.pushEvent; simp only []; split <;> rfl
@[simp] theorem pushEvent_late (k : Nat) (r : EvRec) : (s.pushEvent k r).late = s.late := by unfold State.pushEvent; simp only []; split <;> rfl
@[simp] theorem pushEvent_nextLate (k : Nat) (r : EvRec) : (s.pushEvent k r).nextLate = s.nextLate := by unfold State.pushEvent; simp only []; split <;> rfl
@[simp] theorem pushEvent_calcs (k : Nat) (r : EvRec) : (s.pushEvent k r).calcs = s.calcs := by unfold State.pushEvent; simp only []; split <;> rfl
@[simp] theorem pushEvent_relvs (k : Nat) (r : EvRec) : (s.pushEvent k r).relvs = s.relvs := by unfold State.pushEvent; simp only []; split <;> rfl
@[simp] theorem pushEvent_tlbs (k : Nat) (r : EvRec) : (s.pushEvent k r).tlbs = s.tlbs := by unfold State.pushEvent; simp only []; split <;> rfl
@[simp] theorem pushEvent_walks (k : Nat) (r : EvRec) : (s.pushEvent k r).walks = s.walks := by unfold State.pushEvent; simp only []; split <;> rfl
@[simp] theorem pushEvent_benches (k : Nat) (r : EvRec) : (s.pushEvent k r).benches = s.benches := by unfold State.pushEvent; simp only []; split <;> rfl
@[simp] theorem pushEvent_saved (k : Nat) (r : EvRec) : (s.pushEvent k r).saved = s.saved := by unfold State.pushEvent; simp only []; split <;> rfl
@[simp] theorem pushEvent_tasks (k : Nat) (r : EvRec) : (s.pushEvent k r).tasks = s.tasks := by unfold State.pushEvent; simp only []; split <;> rfl
@[simp] theorem pushEvent_nextTask (k : Nat) (r : EvRec) : (s.pushEvent k r).nextTask = s.nextTask := by unfold State.pushEvent; simp only []; split <;> rfl
@[simp] theorem pushEvent_runs (k : Nat) (r : EvRec) : (s.pushEvent k r).runs = s.runs := by unfold State.pushEvent; simp only []; split <;> rfl
@[simp] theorem pushEvent_accepts (k : Nat) (r : EvRec) : (s.pushEvent k r).accepts = s.accepts := by unfold State.pushEvent; simp only []; split <;> rfl
@[simp] theorem pushEvent_subs (k : Nat) (r : EvRec) : (s.pushEvent k r).subs = s.subs := by unfold State.pushEvent; simp only []; split <;> rfl
@[simp] theorem pushEvent_nextSub (k : Nat) (r : EvRec) : (s.pushEvent k r).nextSub = s.nextSub := by unfold State.pushEvent; simp only []; split <;> rfl
@[simp] theorem pushEvent_groups (k : Nat) (r : EvRec) : (s.pushEvent k r).groups = s.groups := by unfold State.pushEvent; simp only []; split <;> rfl
@[simp] theorem pushEvent_serial (k : Nat) (r : EvRec) : (s.pushEvent k r).serial = s.serial := by unfold State.pushEvent; simp only []; split <;> rfl
@[simp] theorem pushEvent_slots (k : Nat) (r : EvRec) : (s.pushEvent k r).slots = s.slots := by unfold State.pushEvent; simp only []; split <;> rfl
@[simp] theorem pushEvent_wakes (k : Nat) (r : EvRec) : (s.pushEvent k r).wakes = s.wakes := by unfold State.pushEvent; simp only []; split <;> rfl
@[simp] theorem pushEvent_vacated (k : Nat) (r : EvRec) : (s.pushEvent k r).vacated = s.vacated := by unfold State.pushEvent; simp only []; split <;> rfl
@[simp] theorem pushEvent_worlds (k : Nat) (r : EvRec) : (s.pushEvent k r).worlds = s.worlds := by unfold State.pushEvent; simp only []; split <;> rfl
@[simp] theorem pushEvent_cores (k : Nat) (r : EvRec) : (s.pushEvent k r).cores = s.cores := by unfold State.pushEvent; simp only []; split <;> rfl
@[simp] theorem pushEvent_drawers (k : Nat) (r : EvRec) : (s.pushEvent k r).drawers = s.drawers := by unfold State.pushEvent; simp only []; split <;> rfl
@[simp] theorem pushEvent_checks (k : Nat) (r : EvRec) : (s.pushEvent k r).checks = s.checks := by unfold State.pushEvent; simp only []; split <;> rfl
@[simp] theorem pushEvent_leases (k : Nat) (r : EvRec) : (s.pushEvent k r).leases = s.leases := by unfold State.pushEvent; simp only []; split <;> rfl
@[simp] theorem pushEvent_fetched (k : Nat) (r : EvRec) : (s.pushEvent k r).fetched = s.fetched := by unfold State.pushEvent; simp only []; split <;> rfl
@[simp] theorem pushEvent_mxus (k : Nat) (r : EvRec) : (s.pushEvent k r).mxus = s.mxus := by unfold State.pushEvent; simp only []; split <;> rfl
@[simp] theorem pushEvent_pkts (k : Nat) (r : EvRec) : (s.pushEvent k r).pkts = s.pkts := by unfold State.pushEvent; simp only []; split <;> rfl
@[simp] theorem pushEvent_packs (k : Nat) (r : EvRec) : (s.pushEvent k r).packs = s.packs := by unfold State.pushEvent; simp only []; split <;> rfl
@[simp] theorem pushEvent_msaves (k : Nat) (r : EvRec) : (s.pushEvent k r).msaves = s.msaves := by unfold State.pushEvent; simp only []; split <;> rfl
@[simp] theorem pushEvent_queues (k : Nat) (r : EvRec) : (s.pushEvent k r).queues = s.queues := by unfold State.pushEvent; simp only []; split <;> rfl
@[simp] theorem pushEvent_rwins (k : Nat) (r : EvRec) : (s.pushEvent k r).rwins = s.rwins := by unfold State.pushEvent; simp only []; split <;> rfl
@[simp] theorem pushEvent_remotes (k : Nat) (r : EvRec) : (s.pushEvent k r).remotes = s.remotes := by unfold State.pushEvent; simp only []; split <;> rfl
@[simp] theorem pushEvent_asqs (k : Nat) (r : EvRec) : (s.pushEvent k r).asqs = s.asqs := by unfold State.pushEvent; simp only []; split <;> rfl
@[simp] theorem pushEvent_arenas (k : Nat) (r : EvRec) : (s.pushEvent k r).arenas = s.arenas := by unfold State.pushEvent; simp only []; split <;> rfl
@[simp] theorem pushEvent_hub (k : Nat) (r : EvRec) : (s.pushEvent k r).hub = s.hub := by unfold State.pushEvent; simp only []; split <;> rfl
@[simp] theorem pushEvent_ctl (k : Nat) (r : EvRec) : (s.pushEvent k r).ctl = s.ctl := by unfold State.pushEvent; simp only []; split <;> rfl
@[simp] theorem pushEvent_mstime (k : Nat) (r : EvRec) : (s.pushEvent k r).mstime = s.mstime := by unfold State.pushEvent; simp only []; split <;> rfl
@[simp] theorem pushEvent_cycle (k : Nat) (r : EvRec) : (s.pushEvent k r).cycle = s.cycle := by unfold State.pushEvent; simp only []; split <;> rfl
@[simp] theorem pushEvent_agenda (k : Nat) (r : EvRec) : (s.pushEvent k r).agenda = s.agenda := by unfold State.pushEvent; simp only []; split <;> rfl
@[simp] theorem pushEvent_cur (k : Nat) (r : EvRec) : (s.pushEvent k r).cur = s.cur := by unfold State.pushEvent; simp only []; split <;> rfl
@[simp] theorem pushEvent_draws (k : Nat) (r : EvRec) : (s.pushEvent k r).draws = s.draws := by unfold State.pushEvent; simp only []; split <;> rfl
@[simp] theorem pushEvent_turn (k : Nat) (r : EvRec) : (s.pushEvent k r).turn = s.turn := by unfold State.pushEvent; simp only []; split <;> rfl

@[simp] theorem post_epoch (w u k t us w3 : Nat) (v : DWord) (p : Option Place) : (s.post w u k t us w3 v p).epoch = s.epoch := by simp [State.post]
@[simp] theorem post_mem (w u k t us w3 : Nat) (v : DWord) (p : Option Place) : (s.post w u k t us w3 v p).mem = s.mem := by simp [State.post]
@[simp] theorem post_tags (w u k t us w3 : Nat) (v : DWord) (p : Option Place) : (s.post w u k t us w3 v p).tags = s.tags := by simp [State.post]
@[simp] theorem post_jrnl (w u k t us w3 : Nat) (v : DWord) (p : Option Place) : (s.post w u k t us w3 v p).jrnl = s.jrnl := by simp [State.post]
@[simp] theorem post_tjrnl (w u k t us w3 : Nat) (v : DWord) (p : Option Place) : (s.post w u k t us w3 v p).tjrnl = s.tjrnl := by simp [State.post]
@[simp] theorem post_written (w u k t us w3 : Nat) (v : DWord) (p : Option Place) : (s.post w u k t us w3 v p).written = s.written := by simp [State.post]
@[simp] theorem post_marked (w u k t us w3 : Nat) (v : DWord) (p : Option Place) : (s.post w u k t us w3 v p).marked = s.marked := by simp [State.post]
@[simp] theorem post_bad (w u k t us w3 : Nat) (v : DWord) (p : Option Place) : (s.post w u k t us w3 v p).bad = s.bad := by simp [State.post]
@[simp] theorem post_retired (w u k t us w3 : Nat) (v : DWord) (p : Option Place) : (s.post w u k t us w3 v p).retired = s.retired := by simp [State.post]
@[simp] theorem post_macs (w u k t us w3 : Nat) (v : DWord) (p : Option Place) : (s.post w u k t us w3 v p).macs = s.macs := by simp [State.post]
@[simp] theorem post_vps (w u k t us w3 : Nat) (v : DWord) (p : Option Place) : (s.post w u k t us w3 v p).vps = s.vps := by simp [State.post]
@[simp] theorem post_copies (w u k t us w3 : Nat) (v : DWord) (p : Option Place) : (s.post w u k t us w3 v p).copies = s.copies := by simp [State.post]
@[simp] theorem post_clean (w u k t us w3 : Nat) (v : DWord) (p : Option Place) : (s.post w u k t us w3 v p).clean = s.clean := by simp [State.post]
@[simp] theorem post_unpushed (w u k t us w3 : Nat) (v : DWord) (p : Option Place) : (s.post w u k t us w3 v p).unpushed = s.unpushed := by simp [State.post]
@[simp] theorem post_lates (w u k t us w3 : Nat) (v : DWord) (p : Option Place) : (s.post w u k t us w3 v p).lates = s.lates := by simp [State.post]
@[simp] theorem post_late (w u k t us w3 : Nat) (v : DWord) (p : Option Place) : (s.post w u k t us w3 v p).late = s.late := by simp [State.post]
@[simp] theorem post_nextLate (w u k t us w3 : Nat) (v : DWord) (p : Option Place) : (s.post w u k t us w3 v p).nextLate = s.nextLate := by simp [State.post]
@[simp] theorem post_calcs (w u k t us w3 : Nat) (v : DWord) (p : Option Place) : (s.post w u k t us w3 v p).calcs = s.calcs := by simp [State.post]
@[simp] theorem post_relvs (w u k t us w3 : Nat) (v : DWord) (p : Option Place) : (s.post w u k t us w3 v p).relvs = s.relvs := by simp [State.post]
@[simp] theorem post_tlbs (w u k t us w3 : Nat) (v : DWord) (p : Option Place) : (s.post w u k t us w3 v p).tlbs = s.tlbs := by simp [State.post]
@[simp] theorem post_walks (w u k t us w3 : Nat) (v : DWord) (p : Option Place) : (s.post w u k t us w3 v p).walks = s.walks := by simp [State.post]
@[simp] theorem post_benches (w u k t us w3 : Nat) (v : DWord) (p : Option Place) : (s.post w u k t us w3 v p).benches = s.benches := by simp [State.post]
@[simp] theorem post_saved (w u k t us w3 : Nat) (v : DWord) (p : Option Place) : (s.post w u k t us w3 v p).saved = s.saved := by simp [State.post]
@[simp] theorem post_tasks (w u k t us w3 : Nat) (v : DWord) (p : Option Place) : (s.post w u k t us w3 v p).tasks = s.tasks := by simp [State.post]
@[simp] theorem post_nextTask (w u k t us w3 : Nat) (v : DWord) (p : Option Place) : (s.post w u k t us w3 v p).nextTask = s.nextTask := by simp [State.post]
@[simp] theorem post_runs (w u k t us w3 : Nat) (v : DWord) (p : Option Place) : (s.post w u k t us w3 v p).runs = s.runs := by simp [State.post]
@[simp] theorem post_accepts (w u k t us w3 : Nat) (v : DWord) (p : Option Place) : (s.post w u k t us w3 v p).accepts = s.accepts := by simp [State.post]
@[simp] theorem post_subs (w u k t us w3 : Nat) (v : DWord) (p : Option Place) : (s.post w u k t us w3 v p).subs = s.subs := by simp [State.post]
@[simp] theorem post_nextSub (w u k t us w3 : Nat) (v : DWord) (p : Option Place) : (s.post w u k t us w3 v p).nextSub = s.nextSub := by simp [State.post]
@[simp] theorem post_groups (w u k t us w3 : Nat) (v : DWord) (p : Option Place) : (s.post w u k t us w3 v p).groups = s.groups := by simp [State.post]
@[simp] theorem post_serial (w u k t us w3 : Nat) (v : DWord) (p : Option Place) : (s.post w u k t us w3 v p).serial = s.serial := by simp [State.post]
@[simp] theorem post_slots (w u k t us w3 : Nat) (v : DWord) (p : Option Place) : (s.post w u k t us w3 v p).slots = s.slots := by simp [State.post]
@[simp] theorem post_wakes (w u k t us w3 : Nat) (v : DWord) (p : Option Place) : (s.post w u k t us w3 v p).wakes = s.wakes := by simp [State.post]
@[simp] theorem post_vacated (w u k t us w3 : Nat) (v : DWord) (p : Option Place) : (s.post w u k t us w3 v p).vacated = s.vacated := by simp [State.post]
@[simp] theorem post_worlds (w u k t us w3 : Nat) (v : DWord) (p : Option Place) : (s.post w u k t us w3 v p).worlds = s.worlds := by simp [State.post]
@[simp] theorem post_cores (w u k t us w3 : Nat) (v : DWord) (p : Option Place) : (s.post w u k t us w3 v p).cores = s.cores := by simp [State.post]
@[simp] theorem post_drawers (w u k t us w3 : Nat) (v : DWord) (p : Option Place) : (s.post w u k t us w3 v p).drawers = s.drawers := by simp [State.post]
@[simp] theorem post_checks (w u k t us w3 : Nat) (v : DWord) (p : Option Place) : (s.post w u k t us w3 v p).checks = s.checks := by simp [State.post]
@[simp] theorem post_leases (w u k t us w3 : Nat) (v : DWord) (p : Option Place) : (s.post w u k t us w3 v p).leases = s.leases := by simp [State.post]
@[simp] theorem post_fetched (w u k t us w3 : Nat) (v : DWord) (p : Option Place) : (s.post w u k t us w3 v p).fetched = s.fetched := by simp [State.post]
@[simp] theorem post_mxus (w u k t us w3 : Nat) (v : DWord) (p : Option Place) : (s.post w u k t us w3 v p).mxus = s.mxus := by simp [State.post]
@[simp] theorem post_pkts (w u k t us w3 : Nat) (v : DWord) (p : Option Place) : (s.post w u k t us w3 v p).pkts = s.pkts := by simp [State.post]
@[simp] theorem post_packs (w u k t us w3 : Nat) (v : DWord) (p : Option Place) : (s.post w u k t us w3 v p).packs = s.packs := by simp [State.post]
@[simp] theorem post_msaves (w u k t us w3 : Nat) (v : DWord) (p : Option Place) : (s.post w u k t us w3 v p).msaves = s.msaves := by simp [State.post]
@[simp] theorem post_queues (w u k t us w3 : Nat) (v : DWord) (p : Option Place) : (s.post w u k t us w3 v p).queues = s.queues := by simp [State.post]
@[simp] theorem post_rwins (w u k t us w3 : Nat) (v : DWord) (p : Option Place) : (s.post w u k t us w3 v p).rwins = s.rwins := by simp [State.post]
@[simp] theorem post_remotes (w u k t us w3 : Nat) (v : DWord) (p : Option Place) : (s.post w u k t us w3 v p).remotes = s.remotes := by simp [State.post]
@[simp] theorem post_asqs (w u k t us w3 : Nat) (v : DWord) (p : Option Place) : (s.post w u k t us w3 v p).asqs = s.asqs := by simp [State.post]
@[simp] theorem post_arenas (w u k t us w3 : Nat) (v : DWord) (p : Option Place) : (s.post w u k t us w3 v p).arenas = s.arenas := by simp [State.post]
@[simp] theorem post_hub (w u k t us w3 : Nat) (v : DWord) (p : Option Place) : (s.post w u k t us w3 v p).hub = s.hub := by simp [State.post]
@[simp] theorem post_ctl (w u k t us w3 : Nat) (v : DWord) (p : Option Place) : (s.post w u k t us w3 v p).ctl = s.ctl := by simp [State.post]
@[simp] theorem post_mstime (w u k t us w3 : Nat) (v : DWord) (p : Option Place) : (s.post w u k t us w3 v p).mstime = s.mstime := by simp [State.post]
@[simp] theorem post_cycle (w u k t us w3 : Nat) (v : DWord) (p : Option Place) : (s.post w u k t us w3 v p).cycle = s.cycle := by simp [State.post]
@[simp] theorem post_agenda (w u k t us w3 : Nat) (v : DWord) (p : Option Place) : (s.post w u k t us w3 v p).agenda = s.agenda := by simp [State.post]
@[simp] theorem post_cur (w u k t us w3 : Nat) (v : DWord) (p : Option Place) : (s.post w u k t us w3 v p).cur = s.cur := by simp [State.post]
@[simp] theorem post_draws (w u k t us w3 : Nat) (v : DWord) (p : Option Place) : (s.post w u k t us w3 v p).draws = s.draws := by simp [State.post]
@[simp] theorem post_turn (w u k t us w3 : Nat) (v : DWord) (p : Option Place) : (s.post w u k t us w3 v p).turn = s.turn := by simp [State.post]

@[simp] theorem updLse_epoch (f : Lse → Lse) : (s.updLse f).epoch = s.epoch := rfl
@[simp] theorem updLse_mem (f : Lse → Lse) : (s.updLse f).mem = s.mem := rfl
@[simp] theorem updLse_tags (f : Lse → Lse) : (s.updLse f).tags = s.tags := rfl
@[simp] theorem updLse_jrnl (f : Lse → Lse) : (s.updLse f).jrnl = s.jrnl := rfl
@[simp] theorem updLse_tjrnl (f : Lse → Lse) : (s.updLse f).tjrnl = s.tjrnl := rfl
@[simp] theorem updLse_written (f : Lse → Lse) : (s.updLse f).written = s.written := rfl
@[simp] theorem updLse_marked (f : Lse → Lse) : (s.updLse f).marked = s.marked := rfl
@[simp] theorem updLse_bad (f : Lse → Lse) : (s.updLse f).bad = s.bad := rfl
@[simp] theorem updLse_retired (f : Lse → Lse) : (s.updLse f).retired = s.retired := rfl
@[simp] theorem updLse_macs (f : Lse → Lse) : (s.updLse f).macs = s.macs := rfl
@[simp] theorem updLse_vps (f : Lse → Lse) : (s.updLse f).vps = s.vps := rfl
@[simp] theorem updLse_copies (f : Lse → Lse) : (s.updLse f).copies = s.copies := rfl
@[simp] theorem updLse_clean (f : Lse → Lse) : (s.updLse f).clean = s.clean := rfl
@[simp] theorem updLse_unpushed (f : Lse → Lse) : (s.updLse f).unpushed = s.unpushed := rfl
@[simp] theorem updLse_lates (f : Lse → Lse) : (s.updLse f).lates = s.lates := rfl
@[simp] theorem updLse_late (f : Lse → Lse) : (s.updLse f).late = s.late := rfl
@[simp] theorem updLse_nextLate (f : Lse → Lse) : (s.updLse f).nextLate = s.nextLate := rfl
@[simp] theorem updLse_calcs (f : Lse → Lse) : (s.updLse f).calcs = s.calcs := rfl
@[simp] theorem updLse_relvs (f : Lse → Lse) : (s.updLse f).relvs = s.relvs := rfl
@[simp] theorem updLse_tlbs (f : Lse → Lse) : (s.updLse f).tlbs = s.tlbs := rfl
@[simp] theorem updLse_walks (f : Lse → Lse) : (s.updLse f).walks = s.walks := rfl
@[simp] theorem updLse_benches (f : Lse → Lse) : (s.updLse f).benches = s.benches := rfl
@[simp] theorem updLse_saved (f : Lse → Lse) : (s.updLse f).saved = s.saved := rfl
@[simp] theorem updLse_tasks (f : Lse → Lse) : (s.updLse f).tasks = s.tasks := rfl
@[simp] theorem updLse_nextTask (f : Lse → Lse) : (s.updLse f).nextTask = s.nextTask := rfl
@[simp] theorem updLse_runs (f : Lse → Lse) : (s.updLse f).runs = s.runs := rfl
@[simp] theorem updLse_accepts (f : Lse → Lse) : (s.updLse f).accepts = s.accepts := rfl
@[simp] theorem updLse_subs (f : Lse → Lse) : (s.updLse f).subs = s.subs := rfl
@[simp] theorem updLse_nextSub (f : Lse → Lse) : (s.updLse f).nextSub = s.nextSub := rfl
@[simp] theorem updLse_groups (f : Lse → Lse) : (s.updLse f).groups = s.groups := rfl
@[simp] theorem updLse_serial (f : Lse → Lse) : (s.updLse f).serial = s.serial := rfl
@[simp] theorem updLse_slots (f : Lse → Lse) : (s.updLse f).slots = s.slots := rfl
@[simp] theorem updLse_wakes (f : Lse → Lse) : (s.updLse f).wakes = s.wakes := rfl
@[simp] theorem updLse_vacated (f : Lse → Lse) : (s.updLse f).vacated = s.vacated := rfl
@[simp] theorem updLse_worlds (f : Lse → Lse) : (s.updLse f).worlds = s.worlds := rfl
@[simp] theorem updLse_cores (f : Lse → Lse) : (s.updLse f).cores = s.cores := rfl
@[simp] theorem updLse_drawers (f : Lse → Lse) : (s.updLse f).drawers = s.drawers := rfl
@[simp] theorem updLse_checks (f : Lse → Lse) : (s.updLse f).checks = s.checks := rfl
@[simp] theorem updLse_leases (f : Lse → Lse) : (s.updLse f).leases = s.leases := rfl
@[simp] theorem updLse_fetched (f : Lse → Lse) : (s.updLse f).fetched = s.fetched := rfl
@[simp] theorem updLse_mxus (f : Lse → Lse) : (s.updLse f).mxus = s.mxus := rfl
@[simp] theorem updLse_pkts (f : Lse → Lse) : (s.updLse f).pkts = s.pkts := rfl
@[simp] theorem updLse_packs (f : Lse → Lse) : (s.updLse f).packs = s.packs := rfl
@[simp] theorem updLse_msaves (f : Lse → Lse) : (s.updLse f).msaves = s.msaves := rfl
@[simp] theorem updLse_queues (f : Lse → Lse) : (s.updLse f).queues = s.queues := rfl
@[simp] theorem updLse_rwins (f : Lse → Lse) : (s.updLse f).rwins = s.rwins := rfl
@[simp] theorem updLse_remotes (f : Lse → Lse) : (s.updLse f).remotes = s.remotes := rfl
@[simp] theorem updLse_asqs (f : Lse → Lse) : (s.updLse f).asqs = s.asqs := rfl
@[simp] theorem updLse_arenas (f : Lse → Lse) : (s.updLse f).arenas = s.arenas := rfl
@[simp] theorem updLse_evq (f : Lse → Lse) : (s.updLse f).evq = s.evq := rfl
@[simp] theorem updLse_dropped (f : Lse → Lse) : (s.updLse f).dropped = s.dropped := rfl
@[simp] theorem updLse_ctl (f : Lse → Lse) : (s.updLse f).ctl = s.ctl := rfl
@[simp] theorem updLse_mstime (f : Lse → Lse) : (s.updLse f).mstime = s.mstime := rfl
@[simp] theorem updLse_cycle (f : Lse → Lse) : (s.updLse f).cycle = s.cycle := rfl
@[simp] theorem updLse_agenda (f : Lse → Lse) : (s.updLse f).agenda = s.agenda := rfl
@[simp] theorem updLse_cur (f : Lse → Lse) : (s.updLse f).cur = s.cur := rfl
@[simp] theorem updLse_draws (f : Lse → Lse) : (s.updLse f).draws = s.draws := rfl
@[simp] theorem updLse_turn (f : Lse → Lse) : (s.updLse f).turn = s.turn := rfl
@[simp] theorem updLse_hub_sdc (f : Lse → Lse) : (s.updLse f).hub.sdc = s.hub.sdc := rfl
@[simp] theorem updLse_hub_errs (f : Lse → Lse) : (s.updLse f).hub.errs = s.hub.errs := rfl
@[simp] theorem updLse_hub_dce (f : Lse → Lse) : (s.updLse f).hub.dce = s.hub.dce := rfl
@[simp] theorem updLse_hub_lse (f : Lse → Lse) : (s.updLse f).hub.lse = f s.hub.lse := rfl
@[simp] theorem updLse_hub_trt (f : Lse → Lse) : (s.updLse f).hub.trt = s.hub.trt := rfl
@[simp] theorem updLse_hub_flash (f : Lse → Lse) : (s.updLse f).hub.flash = s.hub.flash := rfl
@[simp] theorem updLse_hub_boot (f : Lse → Lse) : (s.updLse f).hub.boot = s.hub.boot := rfl
@[simp] theorem updLse_hub_clsf (f : Lse → Lse) : (s.updLse f).hub.clsf = s.hub.clsf := rfl
@[simp] theorem updLse_hub_plc (f : Lse → Lse) : (s.updLse f).hub.plc = s.hub.plc := rfl
@[simp] theorem updLse_hub_failed (f : Lse → Lse) : (s.updLse f).hub.failed = s.hub.failed := rfl
@[simp] theorem updLse_hub_devErr (f : Lse → Lse) : (s.updLse f).hub.devErr = s.hub.devErr := rfl
@[simp] theorem updLse_hub_clock (f : Lse → Lse) : (s.updLse f).hub.clock = s.hub.clock := rfl
@[simp] theorem updLse_hub_outbox (f : Lse → Lse) : (s.updLse f).hub.outbox = s.hub.outbox := rfl

@[simp] theorem updTrt_epoch (f : Trt → Trt) : (s.updTrt f).epoch = s.epoch := rfl
@[simp] theorem updTrt_mem (f : Trt → Trt) : (s.updTrt f).mem = s.mem := rfl
@[simp] theorem updTrt_tags (f : Trt → Trt) : (s.updTrt f).tags = s.tags := rfl
@[simp] theorem updTrt_jrnl (f : Trt → Trt) : (s.updTrt f).jrnl = s.jrnl := rfl
@[simp] theorem updTrt_tjrnl (f : Trt → Trt) : (s.updTrt f).tjrnl = s.tjrnl := rfl
@[simp] theorem updTrt_written (f : Trt → Trt) : (s.updTrt f).written = s.written := rfl
@[simp] theorem updTrt_marked (f : Trt → Trt) : (s.updTrt f).marked = s.marked := rfl
@[simp] theorem updTrt_bad (f : Trt → Trt) : (s.updTrt f).bad = s.bad := rfl
@[simp] theorem updTrt_retired (f : Trt → Trt) : (s.updTrt f).retired = s.retired := rfl
@[simp] theorem updTrt_macs (f : Trt → Trt) : (s.updTrt f).macs = s.macs := rfl
@[simp] theorem updTrt_vps (f : Trt → Trt) : (s.updTrt f).vps = s.vps := rfl
@[simp] theorem updTrt_copies (f : Trt → Trt) : (s.updTrt f).copies = s.copies := rfl
@[simp] theorem updTrt_clean (f : Trt → Trt) : (s.updTrt f).clean = s.clean := rfl
@[simp] theorem updTrt_unpushed (f : Trt → Trt) : (s.updTrt f).unpushed = s.unpushed := rfl
@[simp] theorem updTrt_lates (f : Trt → Trt) : (s.updTrt f).lates = s.lates := rfl
@[simp] theorem updTrt_late (f : Trt → Trt) : (s.updTrt f).late = s.late := rfl
@[simp] theorem updTrt_nextLate (f : Trt → Trt) : (s.updTrt f).nextLate = s.nextLate := rfl
@[simp] theorem updTrt_calcs (f : Trt → Trt) : (s.updTrt f).calcs = s.calcs := rfl
@[simp] theorem updTrt_relvs (f : Trt → Trt) : (s.updTrt f).relvs = s.relvs := rfl
@[simp] theorem updTrt_tlbs (f : Trt → Trt) : (s.updTrt f).tlbs = s.tlbs := rfl
@[simp] theorem updTrt_walks (f : Trt → Trt) : (s.updTrt f).walks = s.walks := rfl
@[simp] theorem updTrt_benches (f : Trt → Trt) : (s.updTrt f).benches = s.benches := rfl
@[simp] theorem updTrt_saved (f : Trt → Trt) : (s.updTrt f).saved = s.saved := rfl
@[simp] theorem updTrt_tasks (f : Trt → Trt) : (s.updTrt f).tasks = s.tasks := rfl
@[simp] theorem updTrt_nextTask (f : Trt → Trt) : (s.updTrt f).nextTask = s.nextTask := rfl
@[simp] theorem updTrt_runs (f : Trt → Trt) : (s.updTrt f).runs = s.runs := rfl
@[simp] theorem updTrt_accepts (f : Trt → Trt) : (s.updTrt f).accepts = s.accepts := rfl
@[simp] theorem updTrt_subs (f : Trt → Trt) : (s.updTrt f).subs = s.subs := rfl
@[simp] theorem updTrt_nextSub (f : Trt → Trt) : (s.updTrt f).nextSub = s.nextSub := rfl
@[simp] theorem updTrt_groups (f : Trt → Trt) : (s.updTrt f).groups = s.groups := rfl
@[simp] theorem updTrt_serial (f : Trt → Trt) : (s.updTrt f).serial = s.serial := rfl
@[simp] theorem updTrt_slots (f : Trt → Trt) : (s.updTrt f).slots = s.slots := rfl
@[simp] theorem updTrt_wakes (f : Trt → Trt) : (s.updTrt f).wakes = s.wakes := rfl
@[simp] theorem updTrt_vacated (f : Trt → Trt) : (s.updTrt f).vacated = s.vacated := rfl
@[simp] theorem updTrt_worlds (f : Trt → Trt) : (s.updTrt f).worlds = s.worlds := rfl
@[simp] theorem updTrt_cores (f : Trt → Trt) : (s.updTrt f).cores = s.cores := rfl
@[simp] theorem updTrt_drawers (f : Trt → Trt) : (s.updTrt f).drawers = s.drawers := rfl
@[simp] theorem updTrt_checks (f : Trt → Trt) : (s.updTrt f).checks = s.checks := rfl
@[simp] theorem updTrt_leases (f : Trt → Trt) : (s.updTrt f).leases = s.leases := rfl
@[simp] theorem updTrt_fetched (f : Trt → Trt) : (s.updTrt f).fetched = s.fetched := rfl
@[simp] theorem updTrt_mxus (f : Trt → Trt) : (s.updTrt f).mxus = s.mxus := rfl
@[simp] theorem updTrt_pkts (f : Trt → Trt) : (s.updTrt f).pkts = s.pkts := rfl
@[simp] theorem updTrt_packs (f : Trt → Trt) : (s.updTrt f).packs = s.packs := rfl
@[simp] theorem updTrt_msaves (f : Trt → Trt) : (s.updTrt f).msaves = s.msaves := rfl
@[simp] theorem updTrt_queues (f : Trt → Trt) : (s.updTrt f).queues = s.queues := rfl
@[simp] theorem updTrt_rwins (f : Trt → Trt) : (s.updTrt f).rwins = s.rwins := rfl
@[simp] theorem updTrt_remotes (f : Trt → Trt) : (s.updTrt f).remotes = s.remotes := rfl
@[simp] theorem updTrt_asqs (f : Trt → Trt) : (s.updTrt f).asqs = s.asqs := rfl
@[simp] theorem updTrt_arenas (f : Trt → Trt) : (s.updTrt f).arenas = s.arenas := rfl
@[simp] theorem updTrt_evq (f : Trt → Trt) : (s.updTrt f).evq = s.evq := rfl
@[simp] theorem updTrt_dropped (f : Trt → Trt) : (s.updTrt f).dropped = s.dropped := rfl
@[simp] theorem updTrt_ctl (f : Trt → Trt) : (s.updTrt f).ctl = s.ctl := rfl
@[simp] theorem updTrt_mstime (f : Trt → Trt) : (s.updTrt f).mstime = s.mstime := rfl
@[simp] theorem updTrt_cycle (f : Trt → Trt) : (s.updTrt f).cycle = s.cycle := rfl
@[simp] theorem updTrt_agenda (f : Trt → Trt) : (s.updTrt f).agenda = s.agenda := rfl
@[simp] theorem updTrt_cur (f : Trt → Trt) : (s.updTrt f).cur = s.cur := rfl
@[simp] theorem updTrt_draws (f : Trt → Trt) : (s.updTrt f).draws = s.draws := rfl
@[simp] theorem updTrt_turn (f : Trt → Trt) : (s.updTrt f).turn = s.turn := rfl
@[simp] theorem updTrt_hub_sdc (f : Trt → Trt) : (s.updTrt f).hub.sdc = s.hub.sdc := rfl
@[simp] theorem updTrt_hub_errs (f : Trt → Trt) : (s.updTrt f).hub.errs = s.hub.errs := rfl
@[simp] theorem updTrt_hub_dce (f : Trt → Trt) : (s.updTrt f).hub.dce = s.hub.dce := rfl
@[simp] theorem updTrt_hub_lse (f : Trt → Trt) : (s.updTrt f).hub.lse = s.hub.lse := rfl
@[simp] theorem updTrt_hub_trt (f : Trt → Trt) : (s.updTrt f).hub.trt = f s.hub.trt := rfl
@[simp] theorem updTrt_hub_flash (f : Trt → Trt) : (s.updTrt f).hub.flash = s.hub.flash := rfl
@[simp] theorem updTrt_hub_boot (f : Trt → Trt) : (s.updTrt f).hub.boot = s.hub.boot := rfl
@[simp] theorem updTrt_hub_clsf (f : Trt → Trt) : (s.updTrt f).hub.clsf = s.hub.clsf := rfl
@[simp] theorem updTrt_hub_plc (f : Trt → Trt) : (s.updTrt f).hub.plc = s.hub.plc := rfl
@[simp] theorem updTrt_hub_failed (f : Trt → Trt) : (s.updTrt f).hub.failed = s.hub.failed := rfl
@[simp] theorem updTrt_hub_devErr (f : Trt → Trt) : (s.updTrt f).hub.devErr = s.hub.devErr := rfl
@[simp] theorem updTrt_hub_clock (f : Trt → Trt) : (s.updTrt f).hub.clock = s.hub.clock := rfl
@[simp] theorem updTrt_hub_outbox (f : Trt → Trt) : (s.updTrt f).hub.outbox = s.hub.outbox := rfl

@[simp] theorem updDce_epoch (f : Dce → Dce) : (s.updDce f).epoch = s.epoch := rfl
@[simp] theorem updDce_mem (f : Dce → Dce) : (s.updDce f).mem = s.mem := rfl
@[simp] theorem updDce_tags (f : Dce → Dce) : (s.updDce f).tags = s.tags := rfl
@[simp] theorem updDce_jrnl (f : Dce → Dce) : (s.updDce f).jrnl = s.jrnl := rfl
@[simp] theorem updDce_tjrnl (f : Dce → Dce) : (s.updDce f).tjrnl = s.tjrnl := rfl
@[simp] theorem updDce_written (f : Dce → Dce) : (s.updDce f).written = s.written := rfl
@[simp] theorem updDce_marked (f : Dce → Dce) : (s.updDce f).marked = s.marked := rfl
@[simp] theorem updDce_bad (f : Dce → Dce) : (s.updDce f).bad = s.bad := rfl
@[simp] theorem updDce_retired (f : Dce → Dce) : (s.updDce f).retired = s.retired := rfl
@[simp] theorem updDce_macs (f : Dce → Dce) : (s.updDce f).macs = s.macs := rfl
@[simp] theorem updDce_vps (f : Dce → Dce) : (s.updDce f).vps = s.vps := rfl
@[simp] theorem updDce_copies (f : Dce → Dce) : (s.updDce f).copies = s.copies := rfl
@[simp] theorem updDce_clean (f : Dce → Dce) : (s.updDce f).clean = s.clean := rfl
@[simp] theorem updDce_unpushed (f : Dce → Dce) : (s.updDce f).unpushed = s.unpushed := rfl
@[simp] theorem updDce_lates (f : Dce → Dce) : (s.updDce f).lates = s.lates := rfl
@[simp] theorem updDce_late (f : Dce → Dce) : (s.updDce f).late = s.late := rfl
@[simp] theorem updDce_nextLate (f : Dce → Dce) : (s.updDce f).nextLate = s.nextLate := rfl
@[simp] theorem updDce_calcs (f : Dce → Dce) : (s.updDce f).calcs = s.calcs := rfl
@[simp] theorem updDce_relvs (f : Dce → Dce) : (s.updDce f).relvs = s.relvs := rfl
@[simp] theorem updDce_tlbs (f : Dce → Dce) : (s.updDce f).tlbs = s.tlbs := rfl
@[simp] theorem updDce_walks (f : Dce → Dce) : (s.updDce f).walks = s.walks := rfl
@[simp] theorem updDce_benches (f : Dce → Dce) : (s.updDce f).benches = s.benches := rfl
@[simp] theorem updDce_saved (f : Dce → Dce) : (s.updDce f).saved = s.saved := rfl
@[simp] theorem updDce_tasks (f : Dce → Dce) : (s.updDce f).tasks = s.tasks := rfl
@[simp] theorem updDce_nextTask (f : Dce → Dce) : (s.updDce f).nextTask = s.nextTask := rfl
@[simp] theorem updDce_runs (f : Dce → Dce) : (s.updDce f).runs = s.runs := rfl
@[simp] theorem updDce_accepts (f : Dce → Dce) : (s.updDce f).accepts = s.accepts := rfl
@[simp] theorem updDce_subs (f : Dce → Dce) : (s.updDce f).subs = s.subs := rfl
@[simp] theorem updDce_nextSub (f : Dce → Dce) : (s.updDce f).nextSub = s.nextSub := rfl
@[simp] theorem updDce_groups (f : Dce → Dce) : (s.updDce f).groups = s.groups := rfl
@[simp] theorem updDce_serial (f : Dce → Dce) : (s.updDce f).serial = s.serial := rfl
@[simp] theorem updDce_slots (f : Dce → Dce) : (s.updDce f).slots = s.slots := rfl
@[simp] theorem updDce_wakes (f : Dce → Dce) : (s.updDce f).wakes = s.wakes := rfl
@[simp] theorem updDce_vacated (f : Dce → Dce) : (s.updDce f).vacated = s.vacated := rfl
@[simp] theorem updDce_worlds (f : Dce → Dce) : (s.updDce f).worlds = s.worlds := rfl
@[simp] theorem updDce_cores (f : Dce → Dce) : (s.updDce f).cores = s.cores := rfl
@[simp] theorem updDce_drawers (f : Dce → Dce) : (s.updDce f).drawers = s.drawers := rfl
@[simp] theorem updDce_checks (f : Dce → Dce) : (s.updDce f).checks = s.checks := rfl
@[simp] theorem updDce_leases (f : Dce → Dce) : (s.updDce f).leases = s.leases := rfl
@[simp] theorem updDce_fetched (f : Dce → Dce) : (s.updDce f).fetched = s.fetched := rfl
@[simp] theorem updDce_mxus (f : Dce → Dce) : (s.updDce f).mxus = s.mxus := rfl
@[simp] theorem updDce_pkts (f : Dce → Dce) : (s.updDce f).pkts = s.pkts := rfl
@[simp] theorem updDce_packs (f : Dce → Dce) : (s.updDce f).packs = s.packs := rfl
@[simp] theorem updDce_msaves (f : Dce → Dce) : (s.updDce f).msaves = s.msaves := rfl
@[simp] theorem updDce_queues (f : Dce → Dce) : (s.updDce f).queues = s.queues := rfl
@[simp] theorem updDce_rwins (f : Dce → Dce) : (s.updDce f).rwins = s.rwins := rfl
@[simp] theorem updDce_remotes (f : Dce → Dce) : (s.updDce f).remotes = s.remotes := rfl
@[simp] theorem updDce_asqs (f : Dce → Dce) : (s.updDce f).asqs = s.asqs := rfl
@[simp] theorem updDce_arenas (f : Dce → Dce) : (s.updDce f).arenas = s.arenas := rfl
@[simp] theorem updDce_evq (f : Dce → Dce) : (s.updDce f).evq = s.evq := rfl
@[simp] theorem updDce_dropped (f : Dce → Dce) : (s.updDce f).dropped = s.dropped := rfl
@[simp] theorem updDce_ctl (f : Dce → Dce) : (s.updDce f).ctl = s.ctl := rfl
@[simp] theorem updDce_mstime (f : Dce → Dce) : (s.updDce f).mstime = s.mstime := rfl
@[simp] theorem updDce_cycle (f : Dce → Dce) : (s.updDce f).cycle = s.cycle := rfl
@[simp] theorem updDce_agenda (f : Dce → Dce) : (s.updDce f).agenda = s.agenda := rfl
@[simp] theorem updDce_cur (f : Dce → Dce) : (s.updDce f).cur = s.cur := rfl
@[simp] theorem updDce_draws (f : Dce → Dce) : (s.updDce f).draws = s.draws := rfl
@[simp] theorem updDce_turn (f : Dce → Dce) : (s.updDce f).turn = s.turn := rfl
@[simp] theorem updDce_hub_sdc (f : Dce → Dce) : (s.updDce f).hub.sdc = s.hub.sdc := rfl
@[simp] theorem updDce_hub_errs (f : Dce → Dce) : (s.updDce f).hub.errs = s.hub.errs := rfl
@[simp] theorem updDce_hub_dce (f : Dce → Dce) : (s.updDce f).hub.dce = f s.hub.dce := rfl
@[simp] theorem updDce_hub_lse (f : Dce → Dce) : (s.updDce f).hub.lse = s.hub.lse := rfl
@[simp] theorem updDce_hub_trt (f : Dce → Dce) : (s.updDce f).hub.trt = s.hub.trt := rfl
@[simp] theorem updDce_hub_flash (f : Dce → Dce) : (s.updDce f).hub.flash = s.hub.flash := rfl
@[simp] theorem updDce_hub_boot (f : Dce → Dce) : (s.updDce f).hub.boot = s.hub.boot := rfl
@[simp] theorem updDce_hub_clsf (f : Dce → Dce) : (s.updDce f).hub.clsf = s.hub.clsf := rfl
@[simp] theorem updDce_hub_plc (f : Dce → Dce) : (s.updDce f).hub.plc = s.hub.plc := rfl
@[simp] theorem updDce_hub_failed (f : Dce → Dce) : (s.updDce f).hub.failed = s.hub.failed := rfl
@[simp] theorem updDce_hub_devErr (f : Dce → Dce) : (s.updDce f).hub.devErr = s.hub.devErr := rfl
@[simp] theorem updDce_hub_clock (f : Dce → Dce) : (s.updDce f).hub.clock = s.hub.clock := rfl
@[simp] theorem updDce_hub_outbox (f : Dce → Dce) : (s.updDce f).hub.outbox = s.hub.outbox := rfl

@[simp] theorem updPlc_epoch (f : Plc → Plc) : (s.updPlc f).epoch = s.epoch := rfl
@[simp] theorem updPlc_mem (f : Plc → Plc) : (s.updPlc f).mem = s.mem := rfl
@[simp] theorem updPlc_tags (f : Plc → Plc) : (s.updPlc f).tags = s.tags := rfl
@[simp] theorem updPlc_jrnl (f : Plc → Plc) : (s.updPlc f).jrnl = s.jrnl := rfl
@[simp] theorem updPlc_tjrnl (f : Plc → Plc) : (s.updPlc f).tjrnl = s.tjrnl := rfl
@[simp] theorem updPlc_written (f : Plc → Plc) : (s.updPlc f).written = s.written := rfl
@[simp] theorem updPlc_marked (f : Plc → Plc) : (s.updPlc f).marked = s.marked := rfl
@[simp] theorem updPlc_bad (f : Plc → Plc) : (s.updPlc f).bad = s.bad := rfl
@[simp] theorem updPlc_retired (f : Plc → Plc) : (s.updPlc f).retired = s.retired := rfl
@[simp] theorem updPlc_macs (f : Plc → Plc) : (s.updPlc f).macs = s.macs := rfl
@[simp] theorem updPlc_vps (f : Plc → Plc) : (s.updPlc f).vps = s.vps := rfl
@[simp] theorem updPlc_copies (f : Plc → Plc) : (s.updPlc f).copies = s.copies := rfl
@[simp] theorem updPlc_clean (f : Plc → Plc) : (s.updPlc f).clean = s.clean := rfl
@[simp] theorem updPlc_unpushed (f : Plc → Plc) : (s.updPlc f).unpushed = s.unpushed := rfl
@[simp] theorem updPlc_lates (f : Plc → Plc) : (s.updPlc f).lates = s.lates := rfl
@[simp] theorem updPlc_late (f : Plc → Plc) : (s.updPlc f).late = s.late := rfl
@[simp] theorem updPlc_nextLate (f : Plc → Plc) : (s.updPlc f).nextLate = s.nextLate := rfl
@[simp] theorem updPlc_calcs (f : Plc → Plc) : (s.updPlc f).calcs = s.calcs := rfl
@[simp] theorem updPlc_relvs (f : Plc → Plc) : (s.updPlc f).relvs = s.relvs := rfl
@[simp] theorem updPlc_tlbs (f : Plc → Plc) : (s.updPlc f).tlbs = s.tlbs := rfl
@[simp] theorem updPlc_walks (f : Plc → Plc) : (s.updPlc f).walks = s.walks := rfl
@[simp] theorem updPlc_benches (f : Plc → Plc) : (s.updPlc f).benches = s.benches := rfl
@[simp] theorem updPlc_saved (f : Plc → Plc) : (s.updPlc f).saved = s.saved := rfl
@[simp] theorem updPlc_tasks (f : Plc → Plc) : (s.updPlc f).tasks = s.tasks := rfl
@[simp] theorem updPlc_nextTask (f : Plc → Plc) : (s.updPlc f).nextTask = s.nextTask := rfl
@[simp] theorem updPlc_runs (f : Plc → Plc) : (s.updPlc f).runs = s.runs := rfl
@[simp] theorem updPlc_accepts (f : Plc → Plc) : (s.updPlc f).accepts = s.accepts := rfl
@[simp] theorem updPlc_subs (f : Plc → Plc) : (s.updPlc f).subs = s.subs := rfl
@[simp] theorem updPlc_nextSub (f : Plc → Plc) : (s.updPlc f).nextSub = s.nextSub := rfl
@[simp] theorem updPlc_groups (f : Plc → Plc) : (s.updPlc f).groups = s.groups := rfl
@[simp] theorem updPlc_serial (f : Plc → Plc) : (s.updPlc f).serial = s.serial := rfl
@[simp] theorem updPlc_slots (f : Plc → Plc) : (s.updPlc f).slots = s.slots := rfl
@[simp] theorem updPlc_wakes (f : Plc → Plc) : (s.updPlc f).wakes = s.wakes := rfl
@[simp] theorem updPlc_vacated (f : Plc → Plc) : (s.updPlc f).vacated = s.vacated := rfl
@[simp] theorem updPlc_worlds (f : Plc → Plc) : (s.updPlc f).worlds = s.worlds := rfl
@[simp] theorem updPlc_cores (f : Plc → Plc) : (s.updPlc f).cores = s.cores := rfl
@[simp] theorem updPlc_drawers (f : Plc → Plc) : (s.updPlc f).drawers = s.drawers := rfl
@[simp] theorem updPlc_checks (f : Plc → Plc) : (s.updPlc f).checks = s.checks := rfl
@[simp] theorem updPlc_leases (f : Plc → Plc) : (s.updPlc f).leases = s.leases := rfl
@[simp] theorem updPlc_fetched (f : Plc → Plc) : (s.updPlc f).fetched = s.fetched := rfl
@[simp] theorem updPlc_mxus (f : Plc → Plc) : (s.updPlc f).mxus = s.mxus := rfl
@[simp] theorem updPlc_pkts (f : Plc → Plc) : (s.updPlc f).pkts = s.pkts := rfl
@[simp] theorem updPlc_packs (f : Plc → Plc) : (s.updPlc f).packs = s.packs := rfl
@[simp] theorem updPlc_msaves (f : Plc → Plc) : (s.updPlc f).msaves = s.msaves := rfl
@[simp] theorem updPlc_queues (f : Plc → Plc) : (s.updPlc f).queues = s.queues := rfl
@[simp] theorem updPlc_rwins (f : Plc → Plc) : (s.updPlc f).rwins = s.rwins := rfl
@[simp] theorem updPlc_remotes (f : Plc → Plc) : (s.updPlc f).remotes = s.remotes := rfl
@[simp] theorem updPlc_asqs (f : Plc → Plc) : (s.updPlc f).asqs = s.asqs := rfl
@[simp] theorem updPlc_arenas (f : Plc → Plc) : (s.updPlc f).arenas = s.arenas := rfl
@[simp] theorem updPlc_evq (f : Plc → Plc) : (s.updPlc f).evq = s.evq := rfl
@[simp] theorem updPlc_dropped (f : Plc → Plc) : (s.updPlc f).dropped = s.dropped := rfl
@[simp] theorem updPlc_ctl (f : Plc → Plc) : (s.updPlc f).ctl = s.ctl := rfl
@[simp] theorem updPlc_mstime (f : Plc → Plc) : (s.updPlc f).mstime = s.mstime := rfl
@[simp] theorem updPlc_cycle (f : Plc → Plc) : (s.updPlc f).cycle = s.cycle := rfl
@[simp] theorem updPlc_agenda (f : Plc → Plc) : (s.updPlc f).agenda = s.agenda := rfl
@[simp] theorem updPlc_cur (f : Plc → Plc) : (s.updPlc f).cur = s.cur := rfl
@[simp] theorem updPlc_draws (f : Plc → Plc) : (s.updPlc f).draws = s.draws := rfl
@[simp] theorem updPlc_turn (f : Plc → Plc) : (s.updPlc f).turn = s.turn := rfl
@[simp] theorem updPlc_hub_sdc (f : Plc → Plc) : (s.updPlc f).hub.sdc = s.hub.sdc := rfl
@[simp] theorem updPlc_hub_errs (f : Plc → Plc) : (s.updPlc f).hub.errs = s.hub.errs := rfl
@[simp] theorem updPlc_hub_dce (f : Plc → Plc) : (s.updPlc f).hub.dce = s.hub.dce := rfl
@[simp] theorem updPlc_hub_lse (f : Plc → Plc) : (s.updPlc f).hub.lse = s.hub.lse := rfl
@[simp] theorem updPlc_hub_trt (f : Plc → Plc) : (s.updPlc f).hub.trt = s.hub.trt := rfl
@[simp] theorem updPlc_hub_flash (f : Plc → Plc) : (s.updPlc f).hub.flash = s.hub.flash := rfl
@[simp] theorem updPlc_hub_boot (f : Plc → Plc) : (s.updPlc f).hub.boot = s.hub.boot := rfl
@[simp] theorem updPlc_hub_clsf (f : Plc → Plc) : (s.updPlc f).hub.clsf = s.hub.clsf := rfl
@[simp] theorem updPlc_hub_plc (f : Plc → Plc) : (s.updPlc f).hub.plc = f s.hub.plc := rfl
@[simp] theorem updPlc_hub_failed (f : Plc → Plc) : (s.updPlc f).hub.failed = s.hub.failed := rfl
@[simp] theorem updPlc_hub_devErr (f : Plc → Plc) : (s.updPlc f).hub.devErr = s.hub.devErr := rfl
@[simp] theorem updPlc_hub_clock (f : Plc → Plc) : (s.updPlc f).hub.clock = s.hub.clock := rfl
@[simp] theorem updPlc_hub_outbox (f : Plc → Plc) : (s.updPlc f).hub.outbox = s.hub.outbox := rfl

@[simp] theorem updSdc_epoch (f : Sdc → Sdc) : (s.updSdc f).epoch = s.epoch := rfl
@[simp] theorem updSdc_mem (f : Sdc → Sdc) : (s.updSdc f).mem = s.mem := rfl
@[simp] theorem updSdc_tags (f : Sdc → Sdc) : (s.updSdc f).tags = s.tags := rfl
@[simp] theorem updSdc_jrnl (f : Sdc → Sdc) : (s.updSdc f).jrnl = s.jrnl := rfl
@[simp] theorem updSdc_tjrnl (f : Sdc → Sdc) : (s.updSdc f).tjrnl = s.tjrnl := rfl
@[simp] theorem updSdc_written (f : Sdc → Sdc) : (s.updSdc f).written = s.written := rfl
@[simp] theorem updSdc_marked (f : Sdc → Sdc) : (s.updSdc f).marked = s.marked := rfl
@[simp] theorem updSdc_bad (f : Sdc → Sdc) : (s.updSdc f).bad = s.bad := rfl
@[simp] theorem updSdc_retired (f : Sdc → Sdc) : (s.updSdc f).retired = s.retired := rfl
@[simp] theorem updSdc_macs (f : Sdc → Sdc) : (s.updSdc f).macs = s.macs := rfl
@[simp] theorem updSdc_vps (f : Sdc → Sdc) : (s.updSdc f).vps = s.vps := rfl
@[simp] theorem updSdc_copies (f : Sdc → Sdc) : (s.updSdc f).copies = s.copies := rfl
@[simp] theorem updSdc_clean (f : Sdc → Sdc) : (s.updSdc f).clean = s.clean := rfl
@[simp] theorem updSdc_unpushed (f : Sdc → Sdc) : (s.updSdc f).unpushed = s.unpushed := rfl
@[simp] theorem updSdc_lates (f : Sdc → Sdc) : (s.updSdc f).lates = s.lates := rfl
@[simp] theorem updSdc_late (f : Sdc → Sdc) : (s.updSdc f).late = s.late := rfl
@[simp] theorem updSdc_nextLate (f : Sdc → Sdc) : (s.updSdc f).nextLate = s.nextLate := rfl
@[simp] theorem updSdc_calcs (f : Sdc → Sdc) : (s.updSdc f).calcs = s.calcs := rfl
@[simp] theorem updSdc_relvs (f : Sdc → Sdc) : (s.updSdc f).relvs = s.relvs := rfl
@[simp] theorem updSdc_tlbs (f : Sdc → Sdc) : (s.updSdc f).tlbs = s.tlbs := rfl
@[simp] theorem updSdc_walks (f : Sdc → Sdc) : (s.updSdc f).walks = s.walks := rfl
@[simp] theorem updSdc_benches (f : Sdc → Sdc) : (s.updSdc f).benches = s.benches := rfl
@[simp] theorem updSdc_saved (f : Sdc → Sdc) : (s.updSdc f).saved = s.saved := rfl
@[simp] theorem updSdc_tasks (f : Sdc → Sdc) : (s.updSdc f).tasks = s.tasks := rfl
@[simp] theorem updSdc_nextTask (f : Sdc → Sdc) : (s.updSdc f).nextTask = s.nextTask := rfl
@[simp] theorem updSdc_runs (f : Sdc → Sdc) : (s.updSdc f).runs = s.runs := rfl
@[simp] theorem updSdc_accepts (f : Sdc → Sdc) : (s.updSdc f).accepts = s.accepts := rfl
@[simp] theorem updSdc_subs (f : Sdc → Sdc) : (s.updSdc f).subs = s.subs := rfl
@[simp] theorem updSdc_nextSub (f : Sdc → Sdc) : (s.updSdc f).nextSub = s.nextSub := rfl
@[simp] theorem updSdc_groups (f : Sdc → Sdc) : (s.updSdc f).groups = s.groups := rfl
@[simp] theorem updSdc_serial (f : Sdc → Sdc) : (s.updSdc f).serial = s.serial := rfl
@[simp] theorem updSdc_slots (f : Sdc → Sdc) : (s.updSdc f).slots = s.slots := rfl
@[simp] theorem updSdc_wakes (f : Sdc → Sdc) : (s.updSdc f).wakes = s.wakes := rfl
@[simp] theorem updSdc_vacated (f : Sdc → Sdc) : (s.updSdc f).vacated = s.vacated := rfl
@[simp] theorem updSdc_worlds (f : Sdc → Sdc) : (s.updSdc f).worlds = s.worlds := rfl
@[simp] theorem updSdc_cores (f : Sdc → Sdc) : (s.updSdc f).cores = s.cores := rfl
@[simp] theorem updSdc_drawers (f : Sdc → Sdc) : (s.updSdc f).drawers = s.drawers := rfl
@[simp] theorem updSdc_checks (f : Sdc → Sdc) : (s.updSdc f).checks = s.checks := rfl
@[simp] theorem updSdc_leases (f : Sdc → Sdc) : (s.updSdc f).leases = s.leases := rfl
@[simp] theorem updSdc_fetched (f : Sdc → Sdc) : (s.updSdc f).fetched = s.fetched := rfl
@[simp] theorem updSdc_mxus (f : Sdc → Sdc) : (s.updSdc f).mxus = s.mxus := rfl
@[simp] theorem updSdc_pkts (f : Sdc → Sdc) : (s.updSdc f).pkts = s.pkts := rfl
@[simp] theorem updSdc_packs (f : Sdc → Sdc) : (s.updSdc f).packs = s.packs := rfl
@[simp] theorem updSdc_msaves (f : Sdc → Sdc) : (s.updSdc f).msaves = s.msaves := rfl
@[simp] theorem updSdc_queues (f : Sdc → Sdc) : (s.updSdc f).queues = s.queues := rfl
@[simp] theorem updSdc_rwins (f : Sdc → Sdc) : (s.updSdc f).rwins = s.rwins := rfl
@[simp] theorem updSdc_remotes (f : Sdc → Sdc) : (s.updSdc f).remotes = s.remotes := rfl
@[simp] theorem updSdc_asqs (f : Sdc → Sdc) : (s.updSdc f).asqs = s.asqs := rfl
@[simp] theorem updSdc_arenas (f : Sdc → Sdc) : (s.updSdc f).arenas = s.arenas := rfl
@[simp] theorem updSdc_evq (f : Sdc → Sdc) : (s.updSdc f).evq = s.evq := rfl
@[simp] theorem updSdc_dropped (f : Sdc → Sdc) : (s.updSdc f).dropped = s.dropped := rfl
@[simp] theorem updSdc_ctl (f : Sdc → Sdc) : (s.updSdc f).ctl = s.ctl := rfl
@[simp] theorem updSdc_mstime (f : Sdc → Sdc) : (s.updSdc f).mstime = s.mstime := rfl
@[simp] theorem updSdc_cycle (f : Sdc → Sdc) : (s.updSdc f).cycle = s.cycle := rfl
@[simp] theorem updSdc_agenda (f : Sdc → Sdc) : (s.updSdc f).agenda = s.agenda := rfl
@[simp] theorem updSdc_cur (f : Sdc → Sdc) : (s.updSdc f).cur = s.cur := rfl
@[simp] theorem updSdc_draws (f : Sdc → Sdc) : (s.updSdc f).draws = s.draws := rfl
@[simp] theorem updSdc_turn (f : Sdc → Sdc) : (s.updSdc f).turn = s.turn := rfl
@[simp] theorem updSdc_hub_sdc (f : Sdc → Sdc) : (s.updSdc f).hub.sdc = f s.hub.sdc := rfl
@[simp] theorem updSdc_hub_errs (f : Sdc → Sdc) : (s.updSdc f).hub.errs = s.hub.errs := rfl
@[simp] theorem updSdc_hub_dce (f : Sdc → Sdc) : (s.updSdc f).hub.dce = s.hub.dce := rfl
@[simp] theorem updSdc_hub_lse (f : Sdc → Sdc) : (s.updSdc f).hub.lse = s.hub.lse := rfl
@[simp] theorem updSdc_hub_trt (f : Sdc → Sdc) : (s.updSdc f).hub.trt = s.hub.trt := rfl
@[simp] theorem updSdc_hub_flash (f : Sdc → Sdc) : (s.updSdc f).hub.flash = s.hub.flash := rfl
@[simp] theorem updSdc_hub_boot (f : Sdc → Sdc) : (s.updSdc f).hub.boot = s.hub.boot := rfl
@[simp] theorem updSdc_hub_clsf (f : Sdc → Sdc) : (s.updSdc f).hub.clsf = s.hub.clsf := rfl
@[simp] theorem updSdc_hub_plc (f : Sdc → Sdc) : (s.updSdc f).hub.plc = s.hub.plc := rfl
@[simp] theorem updSdc_hub_failed (f : Sdc → Sdc) : (s.updSdc f).hub.failed = s.hub.failed := rfl
@[simp] theorem updSdc_hub_devErr (f : Sdc → Sdc) : (s.updSdc f).hub.devErr = s.hub.devErr := rfl
@[simp] theorem updSdc_hub_clock (f : Sdc → Sdc) : (s.updSdc f).hub.clock = s.hub.clock := rfl
@[simp] theorem updSdc_hub_outbox (f : Sdc → Sdc) : (s.updSdc f).hub.outbox = s.hub.outbox := rfl

@[simp] theorem setBoot_epoch (b : Boot) : (s.setBoot b).epoch = s.epoch := rfl
@[simp] theorem setBoot_mem (b : Boot) : (s.setBoot b).mem = s.mem := rfl
@[simp] theorem setBoot_tags (b : Boot) : (s.setBoot b).tags = s.tags := rfl
@[simp] theorem setBoot_jrnl (b : Boot) : (s.setBoot b).jrnl = s.jrnl := rfl
@[simp] theorem setBoot_tjrnl (b : Boot) : (s.setBoot b).tjrnl = s.tjrnl := rfl
@[simp] theorem setBoot_written (b : Boot) : (s.setBoot b).written = s.written := rfl
@[simp] theorem setBoot_marked (b : Boot) : (s.setBoot b).marked = s.marked := rfl
@[simp] theorem setBoot_bad (b : Boot) : (s.setBoot b).bad = s.bad := rfl
@[simp] theorem setBoot_retired (b : Boot) : (s.setBoot b).retired = s.retired := rfl
@[simp] theorem setBoot_macs (b : Boot) : (s.setBoot b).macs = s.macs := rfl
@[simp] theorem setBoot_vps (b : Boot) : (s.setBoot b).vps = s.vps := rfl
@[simp] theorem setBoot_copies (b : Boot) : (s.setBoot b).copies = s.copies := rfl
@[simp] theorem setBoot_clean (b : Boot) : (s.setBoot b).clean = s.clean := rfl
@[simp] theorem setBoot_unpushed (b : Boot) : (s.setBoot b).unpushed = s.unpushed := rfl
@[simp] theorem setBoot_lates (b : Boot) : (s.setBoot b).lates = s.lates := rfl
@[simp] theorem setBoot_late (b : Boot) : (s.setBoot b).late = s.late := rfl
@[simp] theorem setBoot_nextLate (b : Boot) : (s.setBoot b).nextLate = s.nextLate := rfl
@[simp] theorem setBoot_calcs (b : Boot) : (s.setBoot b).calcs = s.calcs := rfl
@[simp] theorem setBoot_relvs (b : Boot) : (s.setBoot b).relvs = s.relvs := rfl
@[simp] theorem setBoot_tlbs (b : Boot) : (s.setBoot b).tlbs = s.tlbs := rfl
@[simp] theorem setBoot_walks (b : Boot) : (s.setBoot b).walks = s.walks := rfl
@[simp] theorem setBoot_benches (b : Boot) : (s.setBoot b).benches = s.benches := rfl
@[simp] theorem setBoot_saved (b : Boot) : (s.setBoot b).saved = s.saved := rfl
@[simp] theorem setBoot_tasks (b : Boot) : (s.setBoot b).tasks = s.tasks := rfl
@[simp] theorem setBoot_nextTask (b : Boot) : (s.setBoot b).nextTask = s.nextTask := rfl
@[simp] theorem setBoot_runs (b : Boot) : (s.setBoot b).runs = s.runs := rfl
@[simp] theorem setBoot_accepts (b : Boot) : (s.setBoot b).accepts = s.accepts := rfl
@[simp] theorem setBoot_subs (b : Boot) : (s.setBoot b).subs = s.subs := rfl
@[simp] theorem setBoot_nextSub (b : Boot) : (s.setBoot b).nextSub = s.nextSub := rfl
@[simp] theorem setBoot_groups (b : Boot) : (s.setBoot b).groups = s.groups := rfl
@[simp] theorem setBoot_serial (b : Boot) : (s.setBoot b).serial = s.serial := rfl
@[simp] theorem setBoot_slots (b : Boot) : (s.setBoot b).slots = s.slots := rfl
@[simp] theorem setBoot_wakes (b : Boot) : (s.setBoot b).wakes = s.wakes := rfl
@[simp] theorem setBoot_vacated (b : Boot) : (s.setBoot b).vacated = s.vacated := rfl
@[simp] theorem setBoot_worlds (b : Boot) : (s.setBoot b).worlds = s.worlds := rfl
@[simp] theorem setBoot_cores (b : Boot) : (s.setBoot b).cores = s.cores := rfl
@[simp] theorem setBoot_drawers (b : Boot) : (s.setBoot b).drawers = s.drawers := rfl
@[simp] theorem setBoot_checks (b : Boot) : (s.setBoot b).checks = s.checks := rfl
@[simp] theorem setBoot_leases (b : Boot) : (s.setBoot b).leases = s.leases := rfl
@[simp] theorem setBoot_fetched (b : Boot) : (s.setBoot b).fetched = s.fetched := rfl
@[simp] theorem setBoot_mxus (b : Boot) : (s.setBoot b).mxus = s.mxus := rfl
@[simp] theorem setBoot_pkts (b : Boot) : (s.setBoot b).pkts = s.pkts := rfl
@[simp] theorem setBoot_packs (b : Boot) : (s.setBoot b).packs = s.packs := rfl
@[simp] theorem setBoot_msaves (b : Boot) : (s.setBoot b).msaves = s.msaves := rfl
@[simp] theorem setBoot_queues (b : Boot) : (s.setBoot b).queues = s.queues := rfl
@[simp] theorem setBoot_rwins (b : Boot) : (s.setBoot b).rwins = s.rwins := rfl
@[simp] theorem setBoot_remotes (b : Boot) : (s.setBoot b).remotes = s.remotes := rfl
@[simp] theorem setBoot_asqs (b : Boot) : (s.setBoot b).asqs = s.asqs := rfl
@[simp] theorem setBoot_arenas (b : Boot) : (s.setBoot b).arenas = s.arenas := rfl
@[simp] theorem setBoot_evq (b : Boot) : (s.setBoot b).evq = s.evq := rfl
@[simp] theorem setBoot_dropped (b : Boot) : (s.setBoot b).dropped = s.dropped := rfl
@[simp] theorem setBoot_ctl (b : Boot) : (s.setBoot b).ctl = s.ctl := rfl
@[simp] theorem setBoot_mstime (b : Boot) : (s.setBoot b).mstime = s.mstime := rfl
@[simp] theorem setBoot_cycle (b : Boot) : (s.setBoot b).cycle = s.cycle := rfl
@[simp] theorem setBoot_agenda (b : Boot) : (s.setBoot b).agenda = s.agenda := rfl
@[simp] theorem setBoot_cur (b : Boot) : (s.setBoot b).cur = s.cur := rfl
@[simp] theorem setBoot_draws (b : Boot) : (s.setBoot b).draws = s.draws := rfl
@[simp] theorem setBoot_turn (b : Boot) : (s.setBoot b).turn = s.turn := rfl
@[simp] theorem setBoot_hub_sdc (b : Boot) : (s.setBoot b).hub.sdc = s.hub.sdc := rfl
@[simp] theorem setBoot_hub_errs (b : Boot) : (s.setBoot b).hub.errs = s.hub.errs := rfl
@[simp] theorem setBoot_hub_dce (b : Boot) : (s.setBoot b).hub.dce = s.hub.dce := rfl
@[simp] theorem setBoot_hub_lse (b : Boot) : (s.setBoot b).hub.lse = s.hub.lse := rfl
@[simp] theorem setBoot_hub_trt (b : Boot) : (s.setBoot b).hub.trt = s.hub.trt := rfl
@[simp] theorem setBoot_hub_flash (b : Boot) : (s.setBoot b).hub.flash = s.hub.flash := rfl
@[simp] theorem setBoot_hub_boot (b : Boot) : (s.setBoot b).hub.boot = b := rfl
@[simp] theorem setBoot_hub_clsf (b : Boot) : (s.setBoot b).hub.clsf = s.hub.clsf := rfl
@[simp] theorem setBoot_hub_plc (b : Boot) : (s.setBoot b).hub.plc = s.hub.plc := rfl
@[simp] theorem setBoot_hub_failed (b : Boot) : (s.setBoot b).hub.failed = s.hub.failed := rfl
@[simp] theorem setBoot_hub_devErr (b : Boot) : (s.setBoot b).hub.devErr = s.hub.devErr := rfl
@[simp] theorem setBoot_hub_clock (b : Boot) : (s.setBoot b).hub.clock = s.hub.clock := rfl
@[simp] theorem setBoot_hub_outbox (b : Boot) : (s.setBoot b).hub.outbox = s.hub.outbox := rfl

@[simp] theorem send_epoch (m : OutMsg) : (s.send m).epoch = s.epoch := rfl
@[simp] theorem send_mem (m : OutMsg) : (s.send m).mem = s.mem := rfl
@[simp] theorem send_tags (m : OutMsg) : (s.send m).tags = s.tags := rfl
@[simp] theorem send_jrnl (m : OutMsg) : (s.send m).jrnl = s.jrnl := rfl
@[simp] theorem send_tjrnl (m : OutMsg) : (s.send m).tjrnl = s.tjrnl := rfl
@[simp] theorem send_written (m : OutMsg) : (s.send m).written = s.written := rfl
@[simp] theorem send_marked (m : OutMsg) : (s.send m).marked = s.marked := rfl
@[simp] theorem send_bad (m : OutMsg) : (s.send m).bad = s.bad := rfl
@[simp] theorem send_retired (m : OutMsg) : (s.send m).retired = s.retired := rfl
@[simp] theorem send_macs (m : OutMsg) : (s.send m).macs = s.macs := rfl
@[simp] theorem send_vps (m : OutMsg) : (s.send m).vps = s.vps := rfl
@[simp] theorem send_copies (m : OutMsg) : (s.send m).copies = s.copies := rfl
@[simp] theorem send_clean (m : OutMsg) : (s.send m).clean = s.clean := rfl
@[simp] theorem send_unpushed (m : OutMsg) : (s.send m).unpushed = s.unpushed := rfl
@[simp] theorem send_lates (m : OutMsg) : (s.send m).lates = s.lates := rfl
@[simp] theorem send_late (m : OutMsg) : (s.send m).late = s.late := rfl
@[simp] theorem send_nextLate (m : OutMsg) : (s.send m).nextLate = s.nextLate := rfl
@[simp] theorem send_calcs (m : OutMsg) : (s.send m).calcs = s.calcs := rfl
@[simp] theorem send_relvs (m : OutMsg) : (s.send m).relvs = s.relvs := rfl
@[simp] theorem send_tlbs (m : OutMsg) : (s.send m).tlbs = s.tlbs := rfl
@[simp] theorem send_walks (m : OutMsg) : (s.send m).walks = s.walks := rfl
@[simp] theorem send_benches (m : OutMsg) : (s.send m).benches = s.benches := rfl
@[simp] theorem send_saved (m : OutMsg) : (s.send m).saved = s.saved := rfl
@[simp] theorem send_tasks (m : OutMsg) : (s.send m).tasks = s.tasks := rfl
@[simp] theorem send_nextTask (m : OutMsg) : (s.send m).nextTask = s.nextTask := rfl
@[simp] theorem send_runs (m : OutMsg) : (s.send m).runs = s.runs := rfl
@[simp] theorem send_accepts (m : OutMsg) : (s.send m).accepts = s.accepts := rfl
@[simp] theorem send_subs (m : OutMsg) : (s.send m).subs = s.subs := rfl
@[simp] theorem send_nextSub (m : OutMsg) : (s.send m).nextSub = s.nextSub := rfl
@[simp] theorem send_groups (m : OutMsg) : (s.send m).groups = s.groups := rfl
@[simp] theorem send_serial (m : OutMsg) : (s.send m).serial = s.serial := rfl
@[simp] theorem send_slots (m : OutMsg) : (s.send m).slots = s.slots := rfl
@[simp] theorem send_wakes (m : OutMsg) : (s.send m).wakes = s.wakes := rfl
@[simp] theorem send_vacated (m : OutMsg) : (s.send m).vacated = s.vacated := rfl
@[simp] theorem send_worlds (m : OutMsg) : (s.send m).worlds = s.worlds := rfl
@[simp] theorem send_cores (m : OutMsg) : (s.send m).cores = s.cores := rfl
@[simp] theorem send_drawers (m : OutMsg) : (s.send m).drawers = s.drawers := rfl
@[simp] theorem send_checks (m : OutMsg) : (s.send m).checks = s.checks := rfl
@[simp] theorem send_leases (m : OutMsg) : (s.send m).leases = s.leases := rfl
@[simp] theorem send_fetched (m : OutMsg) : (s.send m).fetched = s.fetched := rfl
@[simp] theorem send_mxus (m : OutMsg) : (s.send m).mxus = s.mxus := rfl
@[simp] theorem send_pkts (m : OutMsg) : (s.send m).pkts = s.pkts := rfl
@[simp] theorem send_packs (m : OutMsg) : (s.send m).packs = s.packs := rfl
@[simp] theorem send_msaves (m : OutMsg) : (s.send m).msaves = s.msaves := rfl
@[simp] theorem send_queues (m : OutMsg) : (s.send m).queues = s.queues := rfl
@[simp] theorem send_rwins (m : OutMsg) : (s.send m).rwins = s.rwins := rfl
@[simp] theorem send_remotes (m : OutMsg) : (s.send m).remotes = s.remotes := rfl
@[simp] theorem send_asqs (m : OutMsg) : (s.send m).asqs = s.asqs := rfl
@[simp] theorem send_arenas (m : OutMsg) : (s.send m).arenas = s.arenas := rfl
@[simp] theorem send_evq (m : OutMsg) : (s.send m).evq = s.evq := rfl
@[simp] theorem send_dropped (m : OutMsg) : (s.send m).dropped = s.dropped := rfl
@[simp] theorem send_ctl (m : OutMsg) : (s.send m).ctl = s.ctl := rfl
@[simp] theorem send_mstime (m : OutMsg) : (s.send m).mstime = s.mstime := rfl
@[simp] theorem send_cycle (m : OutMsg) : (s.send m).cycle = s.cycle := rfl
@[simp] theorem send_agenda (m : OutMsg) : (s.send m).agenda = s.agenda := rfl
@[simp] theorem send_cur (m : OutMsg) : (s.send m).cur = s.cur := rfl
@[simp] theorem send_draws (m : OutMsg) : (s.send m).draws = s.draws := rfl
@[simp] theorem send_turn (m : OutMsg) : (s.send m).turn = s.turn := rfl
@[simp] theorem send_hub_sdc (m : OutMsg) : (s.send m).hub.sdc = s.hub.sdc := rfl
@[simp] theorem send_hub_errs (m : OutMsg) : (s.send m).hub.errs = s.hub.errs := rfl
@[simp] theorem send_hub_dce (m : OutMsg) : (s.send m).hub.dce = s.hub.dce := rfl
@[simp] theorem send_hub_lse (m : OutMsg) : (s.send m).hub.lse = s.hub.lse := rfl
@[simp] theorem send_hub_trt (m : OutMsg) : (s.send m).hub.trt = s.hub.trt := rfl
@[simp] theorem send_hub_flash (m : OutMsg) : (s.send m).hub.flash = s.hub.flash := rfl
@[simp] theorem send_hub_boot (m : OutMsg) : (s.send m).hub.boot = s.hub.boot := rfl
@[simp] theorem send_hub_clsf (m : OutMsg) : (s.send m).hub.clsf = s.hub.clsf := rfl
@[simp] theorem send_hub_plc (m : OutMsg) : (s.send m).hub.plc = s.hub.plc := rfl
@[simp] theorem send_hub_failed (m : OutMsg) : (s.send m).hub.failed = s.hub.failed := rfl
@[simp] theorem send_hub_devErr (m : OutMsg) : (s.send m).hub.devErr = s.hub.devErr := rfl
@[simp] theorem send_hub_clock (m : OutMsg) : (s.send m).hub.clock = s.hub.clock := rfl
@[simp] theorem send_hub_outbox (m : OutMsg) : (s.send m).hub.outbox = s.hub.outbox ++ [m] := rfl

@[simp] theorem countOps_epoch (w d n : Nat) : (s.countOps w d n).epoch = s.epoch := by unfold State.countOps; split <;> rfl
@[simp] theorem countOps_mem (w d n : Nat) : (s.countOps w d n).mem = s.mem := by unfold State.countOps; split <;> rfl
@[simp] theorem countOps_tags (w d n : Nat) : (s.countOps w d n).tags = s.tags := by unfold State.countOps; split <;> rfl
@[simp] theorem countOps_jrnl (w d n : Nat) : (s.countOps w d n).jrnl = s.jrnl := by unfold State.countOps; split <;> rfl
@[simp] theorem countOps_tjrnl (w d n : Nat) : (s.countOps w d n).tjrnl = s.tjrnl := by unfold State.countOps; split <;> rfl
@[simp] theorem countOps_written (w d n : Nat) : (s.countOps w d n).written = s.written := by unfold State.countOps; split <;> rfl
@[simp] theorem countOps_marked (w d n : Nat) : (s.countOps w d n).marked = s.marked := by unfold State.countOps; split <;> rfl
@[simp] theorem countOps_bad (w d n : Nat) : (s.countOps w d n).bad = s.bad := by unfold State.countOps; split <;> rfl
@[simp] theorem countOps_retired (w d n : Nat) : (s.countOps w d n).retired = s.retired := by unfold State.countOps; split <;> rfl
@[simp] theorem countOps_macs (w d n : Nat) : (s.countOps w d n).macs = s.macs := by unfold State.countOps; split <;> rfl
@[simp] theorem countOps_vps (w d n : Nat) : (s.countOps w d n).vps = s.vps := by unfold State.countOps; split <;> rfl
@[simp] theorem countOps_copies (w d n : Nat) : (s.countOps w d n).copies = s.copies := by unfold State.countOps; split <;> rfl
@[simp] theorem countOps_clean (w d n : Nat) : (s.countOps w d n).clean = s.clean := by unfold State.countOps; split <;> rfl
@[simp] theorem countOps_unpushed (w d n : Nat) : (s.countOps w d n).unpushed = s.unpushed := by unfold State.countOps; split <;> rfl
@[simp] theorem countOps_lates (w d n : Nat) : (s.countOps w d n).lates = s.lates := by unfold State.countOps; split <;> rfl
@[simp] theorem countOps_late (w d n : Nat) : (s.countOps w d n).late = s.late := by unfold State.countOps; split <;> rfl
@[simp] theorem countOps_nextLate (w d n : Nat) : (s.countOps w d n).nextLate = s.nextLate := by unfold State.countOps; split <;> rfl
@[simp] theorem countOps_calcs (w d n : Nat) : (s.countOps w d n).calcs = s.calcs := by unfold State.countOps; split <;> rfl
@[simp] theorem countOps_relvs (w d n : Nat) : (s.countOps w d n).relvs = s.relvs := by unfold State.countOps; split <;> rfl
@[simp] theorem countOps_tlbs (w d n : Nat) : (s.countOps w d n).tlbs = s.tlbs := by unfold State.countOps; split <;> rfl
@[simp] theorem countOps_walks (w d n : Nat) : (s.countOps w d n).walks = s.walks := by unfold State.countOps; split <;> rfl
@[simp] theorem countOps_saved (w d n : Nat) : (s.countOps w d n).saved = s.saved := by unfold State.countOps; split <;> rfl
@[simp] theorem countOps_tasks (w d n : Nat) : (s.countOps w d n).tasks = s.tasks := by unfold State.countOps; split <;> rfl
@[simp] theorem countOps_nextTask (w d n : Nat) : (s.countOps w d n).nextTask = s.nextTask := by unfold State.countOps; split <;> rfl
@[simp] theorem countOps_runs (w d n : Nat) : (s.countOps w d n).runs = s.runs := by unfold State.countOps; split <;> rfl
@[simp] theorem countOps_accepts (w d n : Nat) : (s.countOps w d n).accepts = s.accepts := by unfold State.countOps; split <;> rfl
@[simp] theorem countOps_subs (w d n : Nat) : (s.countOps w d n).subs = s.subs := by unfold State.countOps; split <;> rfl
@[simp] theorem countOps_nextSub (w d n : Nat) : (s.countOps w d n).nextSub = s.nextSub := by unfold State.countOps; split <;> rfl
@[simp] theorem countOps_groups (w d n : Nat) : (s.countOps w d n).groups = s.groups := by unfold State.countOps; split <;> rfl
@[simp] theorem countOps_serial (w d n : Nat) : (s.countOps w d n).serial = s.serial := by unfold State.countOps; split <;> rfl
@[simp] theorem countOps_slots (w d n : Nat) : (s.countOps w d n).slots = s.slots := by unfold State.countOps; split <;> rfl
@[simp] theorem countOps_wakes (w d n : Nat) : (s.countOps w d n).wakes = s.wakes := by unfold State.countOps; split <;> rfl
@[simp] theorem countOps_vacated (w d n : Nat) : (s.countOps w d n).vacated = s.vacated := by unfold State.countOps; split <;> rfl
@[simp] theorem countOps_worlds (w d n : Nat) : (s.countOps w d n).worlds = s.worlds := by unfold State.countOps; split <;> rfl
@[simp] theorem countOps_cores (w d n : Nat) : (s.countOps w d n).cores = s.cores := by unfold State.countOps; split <;> rfl
@[simp] theorem countOps_drawers (w d n : Nat) : (s.countOps w d n).drawers = s.drawers := by unfold State.countOps; split <;> rfl
@[simp] theorem countOps_checks (w d n : Nat) : (s.countOps w d n).checks = s.checks := by unfold State.countOps; split <;> rfl
@[simp] theorem countOps_leases (w d n : Nat) : (s.countOps w d n).leases = s.leases := by unfold State.countOps; split <;> rfl
@[simp] theorem countOps_fetched (w d n : Nat) : (s.countOps w d n).fetched = s.fetched := by unfold State.countOps; split <;> rfl
@[simp] theorem countOps_mxus (w d n : Nat) : (s.countOps w d n).mxus = s.mxus := by unfold State.countOps; split <;> rfl
@[simp] theorem countOps_pkts (w d n : Nat) : (s.countOps w d n).pkts = s.pkts := by unfold State.countOps; split <;> rfl
@[simp] theorem countOps_packs (w d n : Nat) : (s.countOps w d n).packs = s.packs := by unfold State.countOps; split <;> rfl
@[simp] theorem countOps_msaves (w d n : Nat) : (s.countOps w d n).msaves = s.msaves := by unfold State.countOps; split <;> rfl
@[simp] theorem countOps_queues (w d n : Nat) : (s.countOps w d n).queues = s.queues := by unfold State.countOps; split <;> rfl
@[simp] theorem countOps_rwins (w d n : Nat) : (s.countOps w d n).rwins = s.rwins := by unfold State.countOps; split <;> rfl
@[simp] theorem countOps_remotes (w d n : Nat) : (s.countOps w d n).remotes = s.remotes := by unfold State.countOps; split <;> rfl
@[simp] theorem countOps_asqs (w d n : Nat) : (s.countOps w d n).asqs = s.asqs := by unfold State.countOps; split <;> rfl
@[simp] theorem countOps_arenas (w d n : Nat) : (s.countOps w d n).arenas = s.arenas := by unfold State.countOps; split <;> rfl
@[simp] theorem countOps_evq (w d n : Nat) : (s.countOps w d n).evq = s.evq := by unfold State.countOps; split <;> rfl
@[simp] theorem countOps_dropped (w d n : Nat) : (s.countOps w d n).dropped = s.dropped := by unfold State.countOps; split <;> rfl
@[simp] theorem countOps_ctl (w d n : Nat) : (s.countOps w d n).ctl = s.ctl := by unfold State.countOps; split <;> rfl
@[simp] theorem countOps_mstime (w d n : Nat) : (s.countOps w d n).mstime = s.mstime := by unfold State.countOps; split <;> rfl
@[simp] theorem countOps_cycle (w d n : Nat) : (s.countOps w d n).cycle = s.cycle := by unfold State.countOps; split <;> rfl
@[simp] theorem countOps_agenda (w d n : Nat) : (s.countOps w d n).agenda = s.agenda := by unfold State.countOps; split <;> rfl
@[simp] theorem countOps_cur (w d n : Nat) : (s.countOps w d n).cur = s.cur := by unfold State.countOps; split <;> rfl
@[simp] theorem countOps_draws (w d n : Nat) : (s.countOps w d n).draws = s.draws := by unfold State.countOps; split <;> rfl
@[simp] theorem countOps_turn (w d n : Nat) : (s.countOps w d n).turn = s.turn := by unfold State.countOps; split <;> rfl

@[simp] theorem countFor_epoch (k n : Nat) : (s.countFor k n).epoch = s.epoch := by unfold State.countFor; split <;> simp
@[simp] theorem countFor_mem (k n : Nat) : (s.countFor k n).mem = s.mem := by unfold State.countFor; split <;> simp
@[simp] theorem countFor_tags (k n : Nat) : (s.countFor k n).tags = s.tags := by unfold State.countFor; split <;> simp
@[simp] theorem countFor_jrnl (k n : Nat) : (s.countFor k n).jrnl = s.jrnl := by unfold State.countFor; split <;> simp
@[simp] theorem countFor_tjrnl (k n : Nat) : (s.countFor k n).tjrnl = s.tjrnl := by unfold State.countFor; split <;> simp
@[simp] theorem countFor_written (k n : Nat) : (s.countFor k n).written = s.written := by unfold State.countFor; split <;> simp
@[simp] theorem countFor_marked (k n : Nat) : (s.countFor k n).marked = s.marked := by unfold State.countFor; split <;> simp
@[simp] theorem countFor_bad (k n : Nat) : (s.countFor k n).bad = s.bad := by unfold State.countFor; split <;> simp
@[simp] theorem countFor_retired (k n : Nat) : (s.countFor k n).retired = s.retired := by unfold State.countFor; split <;> simp
@[simp] theorem countFor_macs (k n : Nat) : (s.countFor k n).macs = s.macs := by unfold State.countFor; split <;> simp
@[simp] theorem countFor_vps (k n : Nat) : (s.countFor k n).vps = s.vps := by unfold State.countFor; split <;> simp
@[simp] theorem countFor_copies (k n : Nat) : (s.countFor k n).copies = s.copies := by unfold State.countFor; split <;> simp
@[simp] theorem countFor_clean (k n : Nat) : (s.countFor k n).clean = s.clean := by unfold State.countFor; split <;> simp
@[simp] theorem countFor_unpushed (k n : Nat) : (s.countFor k n).unpushed = s.unpushed := by unfold State.countFor; split <;> simp
@[simp] theorem countFor_lates (k n : Nat) : (s.countFor k n).lates = s.lates := by unfold State.countFor; split <;> simp
@[simp] theorem countFor_late (k n : Nat) : (s.countFor k n).late = s.late := by unfold State.countFor; split <;> simp
@[simp] theorem countFor_nextLate (k n : Nat) : (s.countFor k n).nextLate = s.nextLate := by unfold State.countFor; split <;> simp
@[simp] theorem countFor_calcs (k n : Nat) : (s.countFor k n).calcs = s.calcs := by unfold State.countFor; split <;> simp
@[simp] theorem countFor_relvs (k n : Nat) : (s.countFor k n).relvs = s.relvs := by unfold State.countFor; split <;> simp
@[simp] theorem countFor_tlbs (k n : Nat) : (s.countFor k n).tlbs = s.tlbs := by unfold State.countFor; split <;> simp
@[simp] theorem countFor_walks (k n : Nat) : (s.countFor k n).walks = s.walks := by unfold State.countFor; split <;> simp
@[simp] theorem countFor_saved (k n : Nat) : (s.countFor k n).saved = s.saved := by unfold State.countFor; split <;> simp
@[simp] theorem countFor_tasks (k n : Nat) : (s.countFor k n).tasks = s.tasks := by unfold State.countFor; split <;> simp
@[simp] theorem countFor_nextTask (k n : Nat) : (s.countFor k n).nextTask = s.nextTask := by unfold State.countFor; split <;> simp
@[simp] theorem countFor_runs (k n : Nat) : (s.countFor k n).runs = s.runs := by unfold State.countFor; split <;> simp
@[simp] theorem countFor_accepts (k n : Nat) : (s.countFor k n).accepts = s.accepts := by unfold State.countFor; split <;> simp
@[simp] theorem countFor_subs (k n : Nat) : (s.countFor k n).subs = s.subs := by unfold State.countFor; split <;> simp
@[simp] theorem countFor_nextSub (k n : Nat) : (s.countFor k n).nextSub = s.nextSub := by unfold State.countFor; split <;> simp
@[simp] theorem countFor_groups (k n : Nat) : (s.countFor k n).groups = s.groups := by unfold State.countFor; split <;> simp
@[simp] theorem countFor_serial (k n : Nat) : (s.countFor k n).serial = s.serial := by unfold State.countFor; split <;> simp
@[simp] theorem countFor_slots (k n : Nat) : (s.countFor k n).slots = s.slots := by unfold State.countFor; split <;> simp
@[simp] theorem countFor_wakes (k n : Nat) : (s.countFor k n).wakes = s.wakes := by unfold State.countFor; split <;> simp
@[simp] theorem countFor_vacated (k n : Nat) : (s.countFor k n).vacated = s.vacated := by unfold State.countFor; split <;> simp
@[simp] theorem countFor_worlds (k n : Nat) : (s.countFor k n).worlds = s.worlds := by unfold State.countFor; split <;> simp
@[simp] theorem countFor_cores (k n : Nat) : (s.countFor k n).cores = s.cores := by unfold State.countFor; split <;> simp
@[simp] theorem countFor_drawers (k n : Nat) : (s.countFor k n).drawers = s.drawers := by unfold State.countFor; split <;> simp
@[simp] theorem countFor_checks (k n : Nat) : (s.countFor k n).checks = s.checks := by unfold State.countFor; split <;> simp
@[simp] theorem countFor_leases (k n : Nat) : (s.countFor k n).leases = s.leases := by unfold State.countFor; split <;> simp
@[simp] theorem countFor_fetched (k n : Nat) : (s.countFor k n).fetched = s.fetched := by unfold State.countFor; split <;> simp
@[simp] theorem countFor_mxus (k n : Nat) : (s.countFor k n).mxus = s.mxus := by unfold State.countFor; split <;> simp
@[simp] theorem countFor_pkts (k n : Nat) : (s.countFor k n).pkts = s.pkts := by unfold State.countFor; split <;> simp
@[simp] theorem countFor_packs (k n : Nat) : (s.countFor k n).packs = s.packs := by unfold State.countFor; split <;> simp
@[simp] theorem countFor_msaves (k n : Nat) : (s.countFor k n).msaves = s.msaves := by unfold State.countFor; split <;> simp
@[simp] theorem countFor_queues (k n : Nat) : (s.countFor k n).queues = s.queues := by unfold State.countFor; split <;> simp
@[simp] theorem countFor_rwins (k n : Nat) : (s.countFor k n).rwins = s.rwins := by unfold State.countFor; split <;> simp
@[simp] theorem countFor_remotes (k n : Nat) : (s.countFor k n).remotes = s.remotes := by unfold State.countFor; split <;> simp
@[simp] theorem countFor_asqs (k n : Nat) : (s.countFor k n).asqs = s.asqs := by unfold State.countFor; split <;> simp
@[simp] theorem countFor_arenas (k n : Nat) : (s.countFor k n).arenas = s.arenas := by unfold State.countFor; split <;> simp
@[simp] theorem countFor_evq (k n : Nat) : (s.countFor k n).evq = s.evq := by unfold State.countFor; split <;> simp
@[simp] theorem countFor_dropped (k n : Nat) : (s.countFor k n).dropped = s.dropped := by unfold State.countFor; split <;> simp
@[simp] theorem countFor_ctl (k n : Nat) : (s.countFor k n).ctl = s.ctl := by unfold State.countFor; split <;> simp
@[simp] theorem countFor_mstime (k n : Nat) : (s.countFor k n).mstime = s.mstime := by unfold State.countFor; split <;> simp
@[simp] theorem countFor_cycle (k n : Nat) : (s.countFor k n).cycle = s.cycle := by unfold State.countFor; split <;> simp
@[simp] theorem countFor_agenda (k n : Nat) : (s.countFor k n).agenda = s.agenda := by unfold State.countFor; split <;> simp
@[simp] theorem countFor_cur (k n : Nat) : (s.countFor k n).cur = s.cur := by unfold State.countFor; split <;> simp
@[simp] theorem countFor_draws (k n : Nat) : (s.countFor k n).draws = s.draws := by unfold State.countFor; split <;> simp
@[simp] theorem countFor_turn (k n : Nat) : (s.countFor k n).turn = s.turn := by unfold State.countFor; split <;> simp

end Fields

section Benches
variable (b : Bench)
@[simp] theorem bupdThread_place (l : Nat) (f : Thread → Thread) : (b.updThread l f).place = b.place := by unfold Bench.updThread; split <;> rfl
@[simp] theorem bupdThread_task (l : Nat) (f : Thread → Thread) : (b.updThread l f).task = b.task := by unfold Bench.updThread; split <;> rfl
@[simp] theorem bupdThread_world (l : Nat) (f : Thread → Thread) : (b.updThread l f).world = b.world := by unfold Bench.updThread; split <;> rfl
@[simp] theorem bupdThread_vfoot (l : Nat) (f : Thread → Thread) : (b.updThread l f).vfoot = b.vfoot := by unfold Bench.updThread; split <;> rfl
@[simp] theorem bupdThread_sfoot (l : Nat) (f : Thread → Thread) : (b.updThread l f).sfoot = b.sfoot := by unfold Bench.updThread; split <;> rfl
@[simp] theorem bupdThread_pfoot (l : Nat) (f : Thread → Thread) : (b.updThread l f).pfoot = b.pfoot := by unfold Bench.updThread; split <;> rfl
@[simp] theorem bupdThread_uregs (l : Nat) (f : Thread → Thread) : (b.updThread l f).uregs = b.uregs := by unfold Bench.updThread; split <;> rfl
@[simp] theorem bupdThread_spkey (l : Nat) (f : Thread → Thread) : (b.updThread l f).spkey = b.spkey := by unfold Bench.updThread; split <;> rfl
@[simp] theorem bupdThread_rmask (l : Nat) (f : Thread → Thread) : (b.updThread l f).rmask = b.rmask := by unfold Bench.updThread; split <;> rfl
@[simp] theorem bupdThread_uout (l : Nat) (f : Thread → Thread) : (b.updThread l f).uout = b.uout := by unfold Bench.updThread; split <;> rfl
@[simp] theorem bupdThread_active (l : Nat) (f : Thread → Thread) : (b.updThread l f).active = b.active := by unfold Bench.updThread; split <;> rfl
@[simp] theorem bupdThread_spilled (l : Nat) (f : Thread → Thread) : (b.updThread l f).spilled = b.spilled := by unfold Bench.updThread; split <;> rfl
@[simp] theorem bupdThread_since (l : Nat) (f : Thread → Thread) : (b.updThread l f).since = b.since := by unfold Bench.updThread; split <;> rfl
@[simp] theorem bupdThread_lastIssue (l : Nat) (f : Thread → Thread) : (b.updThread l f).lastIssue = b.lastIssue := by unfold Bench.updThread; split <;> rfl
@[simp] theorem bupdThread_stopped (l : Nat) (f : Thread → Thread) : (b.updThread l f).stopped = b.stopped := by unfold Bench.updThread; split <;> rfl
@[simp] theorem bmapThreads_place (f : Nat → Thread → Thread) : (b.mapThreads f).place = b.place := rfl
@[simp] theorem bmapThreads_task (f : Nat → Thread → Thread) : (b.mapThreads f).task = b.task := rfl
@[simp] theorem bmapThreads_world (f : Nat → Thread → Thread) : (b.mapThreads f).world = b.world := rfl
@[simp] theorem bmapThreads_vfoot (f : Nat → Thread → Thread) : (b.mapThreads f).vfoot = b.vfoot := rfl
@[simp] theorem bmapThreads_sfoot (f : Nat → Thread → Thread) : (b.mapThreads f).sfoot = b.sfoot := rfl
@[simp] theorem bmapThreads_pfoot (f : Nat → Thread → Thread) : (b.mapThreads f).pfoot = b.pfoot := rfl
@[simp] theorem bmapThreads_uregs (f : Nat → Thread → Thread) : (b.mapThreads f).uregs = b.uregs := rfl
@[simp] theorem bmapThreads_spkey (f : Nat → Thread → Thread) : (b.mapThreads f).spkey = b.spkey := rfl
@[simp] theorem bmapThreads_rmask (f : Nat → Thread → Thread) : (b.mapThreads f).rmask = b.rmask := rfl
@[simp] theorem bmapThreads_uout (f : Nat → Thread → Thread) : (b.mapThreads f).uout = b.uout := rfl
@[simp] theorem bmapThreads_active (f : Nat → Thread → Thread) : (b.mapThreads f).active = b.active := rfl
@[simp] theorem bmapThreads_spilled (f : Nat → Thread → Thread) : (b.mapThreads f).spilled = b.spilled := rfl
@[simp] theorem bmapThreads_since (f : Nat → Thread → Thread) : (b.mapThreads f).since = b.since := rfl
@[simp] theorem bmapThreads_lastIssue (f : Nat → Thread → Thread) : (b.mapThreads f).lastIssue = b.lastIssue := rfl
@[simp] theorem bmapThreads_stopped (f : Nat → Thread → Thread) : (b.mapThreads f).stopped = b.stopped := rfl
@[simp] theorem bnoted_place (g : Grp) : (b.noted g).place = b.place := rfl
@[simp] theorem bnoted_task (g : Grp) : (b.noted g).task = b.task := rfl
@[simp] theorem bnoted_world (g : Grp) : (b.noted g).world = b.world := rfl
@[simp] theorem bnoted_vfoot (g : Grp) : (b.noted g).vfoot = b.vfoot := rfl
@[simp] theorem bnoted_sfoot (g : Grp) : (b.noted g).sfoot = b.sfoot := rfl
@[simp] theorem bnoted_pfoot (g : Grp) : (b.noted g).pfoot = b.pfoot := rfl
@[simp] theorem bnoted_uregs (g : Grp) : (b.noted g).uregs = b.uregs := rfl
@[simp] theorem bnoted_spkey (g : Grp) : (b.noted g).spkey = b.spkey := rfl
@[simp] theorem bnoted_uout (g : Grp) : (b.noted g).uout = b.uout := rfl
@[simp] theorem bnoted_active (g : Grp) : (b.noted g).active = b.active := rfl
@[simp] theorem bnoted_spilled (g : Grp) : (b.noted g).spilled = b.spilled := rfl
@[simp] theorem bnoted_since (g : Grp) : (b.noted g).since = b.since := rfl
@[simp] theorem bnoted_lastIssue (g : Grp) : (b.noted g).lastIssue = b.lastIssue := rfl
@[simp] theorem bnoted_stopped (g : Grp) : (b.noted g).stopped = b.stopped := rfl
end Benches

end Sys2Proof.Machine
end

