-- ==== Sys2Proof/Laws/Memory.lean ====
section
/-! SUPPORT. Every operation on home memory keeps its canonical form, what a read gives after a write, and that the memory of reset has
the form. -/

namespace Sys2Proof.Machine

/-- Home memory and home tags are in canonical form. -/
def Homes (s : State) : Prop := Memory.wf s.mem = true ∧ mwf tag0 s.tags = true

theorem homes_reset : Homes State.reset := ⟨rfl, rfl⟩

/-- A state with the same memory and tags has the same form. -/
theorem Homes.of_eq {s t : State} (h : Homes s) (hm : t.mem = s.mem) (ht : t.tags = s.tags) : Homes t := by
  unfold Homes at *; rw [hm, ht]; exact h

theorem Homes.putByte {s : State} (h : Homes s) (ep a : Nat) (b : Byte) : Homes (s.putByte ep a b) := by
  unfold State.putByte; split
  · exact h
  · exact ⟨mwf_mput h.1 a b, h.2⟩

theorem Homes.putBytes (ep : Nat) (bs : List Byte) : ∀ {s : State} (_ : Homes s) (a : Nat), Homes (s.putBytes ep a bs) := by
  induction bs with
  | nil => intro s h a; exact h
  | cons b bs ih => intro s h a; exact ih (h.putByte ep a b) (a + 1)

theorem Homes.putTag {s : State} (h : Homes s) (ep blk : Nat) (t : Tag) : Homes (s.putTag ep blk t) := by
  unfold State.putTag; split
  · exact h
  · exact ⟨h.1, mwf_mput h.2 blk t⟩

theorem evictLine_same (s : State) (l : Nat) (k : Option Nat) :
    (s.evictLine l k).mem = s.mem ∧ (s.evictLine l k).tags = s.tags ∧ (s.evictLine l k).worlds = s.worlds := by
  simp only [State.evictLine]; split <;> exact ⟨rfl, rfl, rfl⟩

theorem updSdc_same (s : State) (f : Sdc → Sdc) : (s.updSdc f).mem = s.mem ∧ (s.updSdc f).tags = s.tags ∧ (s.updSdc f).worlds = s.worlds :=
  ⟨rfl, rfl, rfl⟩

/-- Room made in the SDC changes no home memory, no tag and no world. -/
theorem sdcRoom_same (n : Nat) : ∀ (s : State) (v : Nat),
    (s.sdcRoom n v).mem = s.mem ∧ (s.sdcRoom n v).tags = s.tags ∧ (s.sdcRoom n v).worlds = s.worlds := by
  induction n with
  | zero => intro s v; exact ⟨rfl, rfl, rfl⟩
  | succ n ih =>
    intro s v
    unfold State.sdcRoom
    split
    · exact ⟨rfl, rfl, rfl⟩
    · split
      · rw [(ih _ v).1, (ih _ v).2.1, (ih _ v).2.2]; exact updSdc_same s _
      · split
        · rw [(ih _ v).1, (ih _ v).2.1, (ih _ v).2.2]; exact evictLine_same s _ _
        · exact ⟨rfl, rfl, rfl⟩
@[simp] theorem sdcKeep_mem (s : State) : s.sdcKeep.mem = s.mem := (sdcRoom_same _ _ _).1
@[simp] theorem sdcKeep_tags (s : State) : s.sdcKeep.tags = s.tags := (sdcRoom_same _ _ _).2.1
@[simp] theorem sdcKeep_worlds (s : State) : s.sdcKeep.worlds = s.worlds := (sdcRoom_same _ _ _).2.2

@[simp] theorem sdcFill_mem (s : State) (l : Loc) : (s.sdcFill l).mem = s.mem := by
  simp only [State.sdcFill]; split
  · rfl
  · rw [sdcKeep_mem]; split <;> rfl
@[simp] theorem sdcFill_tags (s : State) (l : Loc) : (s.sdcFill l).tags = s.tags := by
  simp only [State.sdcFill]; split
  · rfl
  · rw [sdcKeep_tags]; split <;> rfl
@[simp] theorem sdcFill_worlds (s : State) (l : Loc) : (s.sdcFill l).worlds = s.worlds := by
  simp only [State.sdcFill]; split
  · rfl
  · rw [sdcKeep_worlds]; split <;> rfl
@[simp] theorem sdcWrite_mem (s : State) (l : Loc) (k : Option Nat) : (s.sdcWrite l k).mem = s.mem := by rw [State.sdcWrite, sdcKeep_mem]; rfl
@[simp] theorem sdcWrite_tags (s : State) (l : Loc) (k : Option Nat) : (s.sdcWrite l k).tags = s.tags := by rw [State.sdcWrite, sdcKeep_tags]; rfl
@[simp] theorem staleClean_mem (s : State) (blk ep : Nat) : (s.staleClean blk ep).mem = s.mem := by unfold State.staleClean; split <;> rfl
@[simp] theorem staleClean_tags (s : State) (blk ep : Nat) : (s.staleClean blk ep).tags = s.tags := by unfold State.staleClean; split <;> rfl
@[simp] theorem dropClean_mem (s : State) (p : Nat → Bool) : (s.dropClean p).mem = s.mem := by unfold State.dropClean; split <;> rfl
@[simp] theorem dropClean_tags (s : State) (p : Nat → Bool) : (s.dropClean p).tags = s.tags := by unfold State.dropClean; split <;> rfl
@[simp] theorem touched_mem (s : State) (blk : Nat) : (s.touched blk).mem = s.mem := rfl
@[simp] theorem touched_tags (s : State) (blk : Nat) : (s.touched blk).tags = s.tags := rfl
@[simp] theorem noteDirty_mem (s : State) (blk : Nat) : (s.noteDirty blk).mem = s.mem := by unfold State.noteDirty; split <;> rfl
@[simp] theorem noteDirty_tags (s : State) (blk : Nat) : (s.noteDirty blk).tags = s.tags := by unfold State.noteDirty; split <;> rfl
@[simp] theorem noteSeen_mem (s : State) (blk : Nat) : (s.noteSeen blk).mem = s.mem := by unfold State.noteSeen; split <;> rfl
@[simp] theorem noteSeen_tags (s : State) (blk : Nat) : (s.noteSeen blk).tags = s.tags := by unfold State.noteSeen; split <;> rfl
@[simp] theorem sendLine_mem (s : State) (blk : Nat) : (s.sendLine blk).mem = s.mem := rfl
@[simp] theorem sendLine_tags (s : State) (blk : Nat) : (s.sendLine blk).tags = s.tags := rfl
@[simp] theorem dropPool_mem (s : State) (blk : Nat) : (s.dropPool blk).mem = s.mem := rfl
@[simp] theorem dropPool_tags (s : State) (blk : Nat) : (s.dropPool blk).tags = s.tags := rfl
@[simp] theorem homeEffects_mem (s : State) (blk : Nat) (w : Bool) : (s.homeEffects blk w).mem = s.mem := by
  unfold State.homeEffects; dsimp only
  split <;> split <;> split <;> split <;> simp
@[simp] theorem homeEffects_tags (s : State) (blk : Nat) (w : Bool) : (s.homeEffects blk w).tags = s.tags := by
  unfold State.homeEffects; dsimp only
  split <;> split <;> split <;> split <;> simp

theorem Homes.effects {s : State} (h : Homes s) (l : Loc) (k : Option Nat) (ep blk : Nat) (w : Bool) :
    Homes (((s.staleClean blk ep).sdcWrite l k).homeEffects blk w) := h.of_eq (by simp) (by simp)

theorem Homes.withMacs {s : State} (h : Homes s) (m : Map MacRec) : Homes { s with macs := m } := h

theorem Homes.homeWriteAs {s : State} (h : Homes s) (ep : Nat) (l : Loc) (new : List Byte) (tg : Option Tag) (whole : Bool) :
    Homes (s.homeWriteAs ep l new tg whole) := by
  have h0 : Homes (if s.needsOld (l.dpa / 64) ep then s.sdcFill l else s) := by
    split
    · exact h.of_eq (by simp) (by simp)
    · exact h
  unfold State.homeWriteAs
  dsimp only
  generalize (if s.needsOld (l.dpa / 64) ep then s.sdcFill l else s) = a at h0 ⊢
  apply Homes.effects
  split
  · exact ((Homes.putBytes ep _ h0 _).putTag ep _ _).withMacs _
  · split
    · exact (Homes.putBytes ep _ h0 _).putTag ep _ _
    · exact Homes.putBytes ep _ h0 _

theorem Homes.homeWriteBlk {s : State} (h : Homes s) (ep : Nat) (l : Loc) (new : List Byte) (tg : Option Tag) :
    Homes (s.homeWriteBlk ep l new tg) := h.homeWriteAs ep l new tg _

theorem Homes.homeWriteAux (n : Nat) : ∀ {s : State} (_ : Homes s) (ep : Nat) (l : Loc) (bs : List Byte),
    Homes (State.homeWriteAux n s ep l bs) := by
  induction n with
  | zero => intro s h _ _ _; exact h
  | succ n ih =>
    intro s h ep l bs
    unfold State.homeWriteAux
    split
    · exact h
    · exact ih (h.homeWriteBlk ep l _ none) ep _ _

theorem Homes.homeWrite {s : State} (h : Homes s) (l : Loc) (bs : List Byte) : Homes (s.homeWrite l bs) := Homes.homeWriteAux _ h _ _ _
theorem Homes.engineBlock {s : State} (h : Homes s) (l : Loc) (bs : List Byte) (t : Tag) : Homes (s.engineBlock l bs t) :=
  h.homeWriteBlk _ l bs _

/-- A fold of steps that each keep the form keeps it. -/
theorem Homes.foldl {α : Type} (f : State → α → State) (hf : ∀ s x, Homes s → Homes (f s x)) (xs : List α) :
    ∀ {s : State}, Homes s → Homes (xs.foldl f s) := by
  induction xs with
  | nil => intro s h; exact h
  | cons x xs ih => intro s h; exact ih (hf s x h)

theorem Homes.applyBlk {s : State} (h : Homes s) (ep : Nat) (t : Task) (blk : Nat) : Homes (s.applyBlk ep t blk) := by
  unfold State.applyBlk
  apply Homes.homeWriteAs
  split
  · unfold State.holdBack; split <;> exact ⟨h.1, h.2⟩
  · exact h

theorem Homes.applyVersion {s : State} (h : Homes s) (ep : Nat) (t : Task) : Homes (s.applyVersion ep t) := by
  unfold State.applyVersion
  exact Homes.foldl _ (fun s x h => h.applyBlk ep t x) _ h

theorem Homes.pokeBytes {s : State} (h : Homes s) (a : Nat) (bs : List Byte) : Homes (s.pokeBytes a bs) := ⟨mwf_mputs bs h.1 a, h.2⟩
theorem Homes.clearWindow {s : State} (h : Homes s) (i : Nat) : Homes (s.clearWindow i) := ⟨mwf_filter h.1 _, mwf_filter h.2 _⟩
theorem Homes.zeroExtent {s : State} (h : Homes s) (base : Nat) : Homes (s.zeroExtent base) := ⟨mwf_filter h.1 _, mwf_filter h.2 _⟩

@[simp] theorem placeVp_mem (s : State) (d : Nat) : (s.placeVp d).mem = s.mem := by unfold State.placeVp; split <;> rfl
@[simp] theorem placeVp_tags (s : State) (d : Nat) : (s.placeVp d).tags = s.tags := by unfold State.placeVp; split <;> rfl

theorem Homes.wake {s : State} (h : Homes s) (c : Bool) (blk : Nat) : Homes (if c then s.touched blk else s) := by
  cases c
  · exact h
  · exact h

theorem Homes.moveLine {s : State} (h : Homes s) (src dst : Nat) : Homes (s.moveLine src dst) := by
  have h0 : Homes ((s.placeVp dst).dropClean fun l => l = src || l = dst) := h.of_eq (by simp) (by simp)
  unfold State.moveLine
  generalize (s.placeVp dst).dropClean (fun l => l = src || l = dst) = a at h0 ⊢
  dsimp only
  apply Homes.wake
  exact Homes.of_eq (s := { a with mem := mputs 0 a.mem (64 * dst) (a.stored src), tags := mput tag0 a.tags dst (a.tag src) })
    ⟨mwf_mputs _ h0.1 _, mwf_mput h0.2 dst _⟩ (by simp) (by simp)

/-! ### Reading after a write -/

theorem byte_putByte {s : State} (h : Memory.wf s.mem = true) (ep a c : Nat) (b : Byte) :
    (s.putByte ep a b).byte c = if c = a then b else s.byte c := by
  unfold State.putByte; split
  · next e =>
    by_cases hca : c = a
    · rw [if_pos hca, hca, e]
    · rw [if_neg hca]
  · exact mget_mput h a c b

/-- A byte after consecutive bytes were written from `a`. -/
theorem byte_putBytes (ep : Nat) (bs : List Byte) : ∀ {s : State} (_ : Homes s) (a c : Nat),
    (s.putBytes ep a bs).byte c = if a ≤ c ∧ c < a + bs.length then nth 0 bs (c - a) else s.byte c := by
  induction bs with
  | nil => intro s _ a c; simp [State.putBytes]
  | cons b bs ih =>
    intro s h a c
    rw [State.putBytes, ih (h.putByte ep a b), byte_putByte h.1, List.length_cons]
    by_cases h1 : c = a
    · subst h1; rw [if_neg (by omega), if_pos rfl, if_pos (by omega), Nat.sub_self]; rfl
    · by_cases h2 : a + 1 ≤ c ∧ c < a + 1 + bs.length
      · rw [if_pos h2, if_pos (by omega), show c - a = (c - (a + 1)) + 1 by omega]; rfl
      · rw [if_neg h2, if_neg h1, if_neg (by omega)]

theorem byte_putTag (s : State) (ep blk a : Nat) (t : Tag) : (s.putTag ep blk t).byte a = s.byte a := by
  unfold State.putTag; split <;> rfl

theorem byte_of_mem {s t : State} (h : t.mem = s.mem) (a : Nat) : t.byte a = s.byte a := by unfold State.byte; rw [h]

theorem byte_effects (s : State) (l : Loc) (k : Option Nat) (ep blk : Nat) (w : Bool) (c : Nat) :
    (((s.staleClean blk ep).sdcWrite l k).homeEffects blk w).byte c = s.byte c := byte_of_mem (by simp) c

/-- What a write within a block leaves at every home byte, where the world is not confidential. -/
theorem byte_homeWriteBlk {s : State} (h : Homes s) (ep : Nat) (l : Loc) (new : List Byte) (tg : Option Tag) (hc : s.confW l.world = false)
    (c : Nat) :
    (s.homeWriteBlk ep l new tg).byte c = if l.dpa ≤ c ∧ c < l.dpa + new.length then nth 0 new (c - l.dpa) else s.byte c := by
  have h0 : Homes (if s.needsOld (l.dpa / 64) ep then s.sdcFill l else s) := by
    split
    · exact h.of_eq (by simp) (by simp)
    · exact h
  have hs : (if s.needsOld (l.dpa / 64) ep then s.sdcFill l else s).confW l.world = false := by
    split
    · rw [show (s.sdcFill l).confW l.world = s.confW l.world by simp only [State.confW, State.world, sdcFill_worlds]]; exact hc
    · exact hc
  have hb : (if s.needsOld (l.dpa / 64) ep then s.sdcFill l else s).byte c = s.byte c := by
    split
    · exact byte_of_mem (by simp) c
    · rfl
  unfold State.homeWriteBlk State.homeWriteAs
  dsimp only
  generalize (if s.needsOld (l.dpa / 64) ep then s.sdcFill l else s) = a at h0 hs hb ⊢
  rw [byte_effects]
  simp only [hs, Bool.false_eq_true, if_false]
  cases tg <;> simp only [byte_putTag, byte_putBytes ep new h0, hb]

end Sys2Proof.Machine
end

