-- ==== Sys2Proof/Laws/Step.lean ====
section
/-! SUPPORT. Everything a step can do, said once. -/

namespace Sys2Proof.Machine

/-- A step that answers a next state boots, drops or answers an item while halted, lets time pass, runs the next item of the schedule, or
takes the default order; the module has met no device-level error. -/
theorem step_cases {s t : State} (h : step s = .next t) : s.hub.devErr = false ∧
    ((s.hub.boot = .reset ∧ exec .boot s = .next t) ∨
     (∃ x rest, s.hub.boot = .halted ∧ s.agenda = x :: rest ∧
        (if answeredHalted x then ({ s with agenda := rest }).runItem decode x = .next t else t = { s with agenda := rest })) ∨
     (s.hub.boot = .halted ∧ s.agenda = [] ∧ t = { s with cycle := s.cycle + 1 }) ∨
     (∃ x rest, s.hub.boot = .running ∧ s.agenda = x :: rest ∧ ({ s.kept with agenda := rest }).runItem decode x = .next t) ∨
     (s.hub.boot = .running ∧ s.agenda = [] ∧ s.kept.defaultStep decode = .next t)) := by
  unfold step State.stepWith at h
  split at h
  · cases h
  · next hd =>
    refine ⟨by simpa using hd, ?_⟩
    split at h
    · next hb => exact .inl ⟨hb, h⟩
    · next hb =>
      split at h
      · next x rest ha =>
        refine .inr (.inl ⟨x, rest, hb, ha, ?_⟩)
        split at h
        · next hx => rw [if_pos hx]; exact h
        · next hx => rw [if_neg hx]; cases h; rfl
      · next ha => cases h; exact .inr (.inr (.inl ⟨hb, ha, rfl⟩))
    · next hb =>
      split at h
      · next x rest ha => exact .inr (.inr (.inr (.inl ⟨x, rest, hb, ha, h⟩)))
      · next ha => exact .inr (.inr (.inr (.inr ⟨hb, ha, h⟩)))

/-- A step refuses nothing but what `exec` refuses; a stopped module's step is its fault. -/
theorem step_stopped {s : State} (h : s.hub.devErr = true) : step s = .fault .deviceError := by
  unfold step State.stepWith; rw [if_pos h]

/-- An item of the schedule runs as its kind says. -/
theorem runItem_event (s : State) (i : Instr) : s.runItem decode (.event i) = s.eventAt i := rfl
theorem runItem_issue (s : State) (p : Place) (l : Nat) : s.runItem decode (.issue p l) = s.issueAt decode p l := rfl
theorem runItem_micro (s : State) (c : Nat) : s.runItem decode (.micro c) = s.microAt c := rfl

/-- What an event of the schedule leaves: its instruction's next state outside any group, or the state itself where the row needs a group. -/
theorem eventAt_cases {s t : State} {i : Instr} (h : s.eventAt i = .next t) :
    exec i { s with cur := .idle } = .next t ∨ (exec i { s with cur := .idle } = .fault .noContext ∧ t = s) := by
  unfold State.eventAt at h
  split at h
  · next e => cases h; exact .inr ⟨e, rfl⟩
  · exact .inl h

end Sys2Proof.Machine
end

