-- ==== Sys2Proof/Tests/Rig.lean ====
section
/-! SUPPORT. Small states for the tests and witnesses: one bench of one or two threads that issues an instruction, in world 0 mapped
one to one, and checks of the statements' premises that evaluation decides. -/

namespace Sys2Proof.Tests

set_option Elab.async false

open Sys2Proof Sys2Proof.Machine

/-- A register file from a list of numbers. -/
def regs (xs : List (Nat × Nat)) : Map Word := xs.foldl (fun m x => mput 0 m x.1 (BitVec.ofNat 32 x.2)) []

/-- A thread at 0x20000 with the vector registers `v`, changed by `f`. -/
def thr (v : List (Nat × Nat)) (f : Thread → Thread := id) : Thread := f { Thread.start 0x20000 0 0 0 0 0 with vregs := regs v }

/-- A bench at `p` of task 1 with these threads and uniform registers. -/
def bnch (p : Place) (ts : Map Thread) (u : List (Nat × Nat) := []) : Bench :=
  { Bench.start p 1 0 (hostTask p 0).desc 0 ts with active := true, uregs := regs u }

/-- The bench issues the words `w w2` in its lanes `ls`. -/
def rigOf (b : Bench) (ls : List Nat) (w w2 : Word := 0) (f : State → State := id) : State :=
  f { State.reset.placeWords w.toNat w2.toNat with
      tasks := [(1, hostTask b.place 0)], benches := [b], agenda := [], cur := .grp b.place ls 0x20000 w w2 false none }

/-- One thread in lane 0 of a drawer's bench, or of a steward's. -/
def rig (v u : List (Nat × Nat)) (w : Word := 0x4900_0000) (w2 : Word := 0) (f : State → State := id) (h : Thread → Thread := id) : State :=
  rigOf (bnch (hostPlace w) [(0, thr v h)] u) [0] w w2 f
/-- The same with the words of the instruction `i`. -/
def rigI (i : Instr) (v u : List (Nat × Nat) := []) (f : State → State := id) (h : Thread → Thread := id) : State :=
  let ws := encode false i
  rig v u (ws.headD 0) (ws.tail.headD 0) f h
/-- The same with two lanes, 0 and 3. -/
def rigTwo (i : Instr) (v v' u : List (Nat × Nat) := []) (f : State → State := id) (h : Thread → Thread := id) : State :=
  let ws := encode false i
  let w : Word := ws.headD 0
  rigOf (bnch (hostPlace w) [(0, thr v h), (3, thr v' h)] u) [0, 3] w (ws.tail.headD 0) f
/-- World 0 with a trap handler. -/
def withHandler (s : State) : State := s.setWorld 0 { s.world 0 with tvec := 0x40000 }
/-- The same in a steward's bench. -/
def rigS (v u : List (Nat × Nat)) (w : Word := 0x4900_0000) (f : State → State := id) (h : Thread → Thread := id) : State :=
  rigOf (bnch (.steward 1 0) [(0, thr v h)] u) [0] w 0 f

/-- World 0's arena, registered at 0x100000: 16 pages from 0x1000000, their descriptors at 0x200000, 4 sequence records at 0x300000, the
branch pool at 0x400000, one layer and head with its projection record at 0x500000, 8 buckets. -/
def arenaHeader : List Byte := natLe 8 0x1000000 ++ natLe 8 0x200000 ++ natLe 8 0x300000 ++ natLe 8 0x400000 ++ natLe 8 0x500000 ++
  natLe 4 16 ++ natLe 4 4 ++ natLe 4 8 ++ natLe 1 1 ++ natLe 1 1
def withArena (s : State) : State := { s with arenas := [(0, 0x100000)] }.pokeBytes 0x100000 arenaHeader
def theArena : Arena :=
  { w := 0, hdr := 0x100000, pgbase := 0x1000000, dtab := 0x200000, stab := 0x300000, bpool := 0x400000, ptab := 0x500000, npage := 16, nseq := 4,
    nbkt := 8, nkvh := 1, nlayer := 1 }

/-- The group, bench and thread of such a state. -/
def gOf (s : State) : Grp := s.grp?.getD ⟨.drawer 0 0 0, [], 0, 0, 0, false, none⟩
def bOf (s : State) : Bench := (s.bench? (gOf s).place).getD (bnch (.drawer 0 0 0) [])
def tOf (s : State) : Thread := (mget? ((bOf s).noted (gOf s)).threads 0).getD (thr [])
def rawOf (s : State) : Thread := (mget? (bOf s).threads 0).getD (thr [])

/-- Evaluated forms of the premises. -/
def issuingB (s : State) : Bool :=
  let g := gOf s
  let b := bOf s
  decide (s.grp? = some g) && decide (s.bench? g.place = some b) && mrising b.threads && !g.lanes.isEmpty && decide g.lanes.Nodup &&
    (g.lanes.all fun l => (mget? b.threads l).isSome) && decide (wordCause s g = none)
def aloneB (s : State) : Bool :=
  let g := gOf s
  issuingB s && (Memory.wf s.mem && mwf tag0 s.tags && mwf Core.init s.cores) && decide (g.lanes = [0]) &&
    decide (mget? ((bOf s).noted g).threads 0 = some (tOf s)) && (tOf s).guard && !s.late &&
    s.lates.all fun x => decide (x.who ≠ ⟨g.place, 0⟩) && decide (x.ins ≠ s.nextLate)
def leadsB (s : State) : Bool :=
  issuingB s && decide ((bOf s).executing (gOf s) = [0]) && decide (mget? (bOf s).threads 0 = some (rawOf s))
def passesB (s : State) (ops : List Opnd) (xs : List Use) : Bool :=
  (gOf s).lanes.all fun l => match mget? (bOf s).threads l with
    | some t => decide (t.checks (bOf s) (gOf s) ops xs = none)
    | none => true

theorem issuing_of {s : State} (h : issuingB s = true) : Issuing s (gOf s) (bOf s) := by
  simp only [issuingB, Bool.and_eq_true, decide_eq_true_eq, List.all_eq_true, Bool.not_eq_true'] at h
  obtain ⟨⟨⟨⟨⟨⟨h1, h2⟩, h3⟩, h4⟩, h5⟩, h6⟩, h7⟩ := h
  refine ⟨h1, h2, h3, fun e => by simp [e] at h4, h5, fun l hl => ?_, h7⟩
  obtain ⟨x, hx⟩ := Option.isSome_iff_exists.mp (h6 l hl)
  exact ⟨x, hx⟩

theorem alone_of {s : State} (h : aloneB s = true) : Alone s (gOf s) (bOf s) 0 (tOf s) := by
  simp only [aloneB, Bool.and_eq_true, decide_eq_true_eq, Bool.not_eq_true', List.all_eq_true] at h
  obtain ⟨⟨⟨⟨⟨⟨h1, ⟨h2, h3⟩, h4⟩, h5⟩, h6⟩, h7⟩, h8⟩, h9⟩ := h
  exact ⟨issuing_of h1, ⟨h2, h3, h4⟩, h5, h6, h7, h8, h9⟩

/-- An operation whose answer is `b`. -/
theorem pair_of {α β : Type} {x : α × β} {b : β} (h : x.2 = b) : x = (x.1, b) := Prod.ext rfl h

/-- A property of every thread a list of lanes holds, by evaluation. -/
theorem each_thread {m : Map Thread} {ls : List Nat} {P : Thread → Prop} [DecidablePred P]
    (h : (ls.all fun l => match mget? m l with
      | some t => decide (P t)
      | none => true) = true) : ∀ l ∈ ls, ∀ t, mget? m l = some t → P t := by
  intro l hl t ht
  have := List.all_eq_true.mp h l hl
  simpa [ht] using this

theorem leads_of {s : State} (h : leadsB s = true) : Leads s (gOf s) (bOf s) 0 [] (rawOf s) := by
  simp only [leadsB, Bool.and_eq_true, decide_eq_true_eq] at h
  exact ⟨issuing_of h.1.1, h.1.2, h.2⟩

theorem passes_of {s : State} {ops : List Opnd} {xs : List Use} (h : passesB s ops xs = true) : Passes (bOf s) (gOf s) ops xs := by
  intro l hl t ht
  have := List.all_eq_true.mp h l hl
  simpa [ht] using this

end Sys2Proof.Tests
end

