-- ==== Sys2Proof/Tests/WitnessA.lean ====
section
/-! SUPPORT. For each statement about the arithmetic, control and prefix instructions, a concrete state and operands that meet its premises. -/

namespace Sys2Proof.Tests

set_option Elab.async false

open Sys2Proof Sys2Proof.Machine

/-- What the premises of an ALU instruction are, of one mode. -/
def AluMet (sem : Instr → Option AluSem) (i : Instr) (s : State) : Prop := ∃ x, sem i = some x ∧ Issuing s (gOf s) (bOf s) ∧
  Passes (bOf s) (gOf s) (x.2.1.regs x.1) [] ∧
  ∀ l ∈ (if x.1 = .u then ((bOf s).executing (gOf s)).take 1 else (bOf s).executing (gOf s)), ∀ t, mget? (bOf s).threads l = some t →
    (x.2.2 (fenv (bOf s) t) (x.2.1.srcs x.1 (bOf s) t)).trap = none

theorem aluMet_of {sem : Instr → Option AluSem} {i : Instr} {s : State} (x : AluSem) (h : sem i = some x) (hi : issuingB s = true)
    (hp : passesB s (x.2.1.regs x.1) [] = true)
    (ht : ((if x.1 = .u then ((bOf s).executing (gOf s)).take 1 else (bOf s).executing (gOf s)).all fun l => match mget? (bOf s).threads l with
      | some t => decide ((x.2.2 (fenv (bOf s) t) (x.2.1.srcs x.1 (bOf s) t)).trap = none)
      | none => true) = true) : AluMet sem i s := ⟨x, h, issuing_of hi, passes_of hp, each_thread ht⟩

theorem witness_IntegerArithmetic_vector : AluMet integerSem (.iadd .v 3#7 1#7 2#7) (rigTwo (.iadd .v 3#7 1#7 2#7) [(1, 5), (2, 7)] [(1, 9)]) :=
  aluMet_of _ rfl (by decide) (by decide) (by decide)
theorem witness_IntegerArithmetic_uniform : AluMet integerSem (.idivs .u 3#7 1#7 2#7) (rigI (.idivs .u 3#7 1#7 2#7) [] [(1, 0x80000000), (2, 0xFFFFFFFF)]) :=
  aluMet_of _ rfl (by decide) (by decide) (by decide)
theorem witness_LogicShiftsBitFields : AluMet logicSem (.bfxs .s 3#7 1#7 2#7) (rigI (.bfxs .s 3#7 1#7 2#7) [(1, 0xF0)] [(2, 0x404)]) :=
  aluMet_of _ rfl (by decide) (by decide) (by decide)
theorem witness_MovesAndImmediates : AluMet moveSem (.movhi false 3#7 0x3FFF#14) (rigI (.movhi false 3#7 0x3FFF#14) [(3, 0x3FFFF)]) :=
  aluMet_of _ rfl (by decide) (by decide) (by decide)
theorem witness_Fp32Arithmetic : AluMet fp32Sem (.fmul .v 3#7 1#7 2#7) (rigI (.fmul .v 3#7 1#7 2#7) [(1, 0x3F800000), (2, 0x40000000)]) :=
  aluMet_of _ rfl (by decide) (by decide) (by decide)
theorem witness_PackedArithmetic : AluMet packedSem (.idot4s .v 3#7 1#7 2#7) (rigI (.idot4s .v 3#7 1#7 2#7) [(1, 0x80FF0102), (2, 0x7F7F7F7F), (3, 1)]) :=
  aluMet_of _ rfl (by decide) (by decide) (by decide)
theorem witness_Conversions : AluMet convertSem (.fexp false 3#7 1#7) (rigI (.fexp false 3#7 1#7) [(1, 0x3F800000)]) :=
  aluMet_of _ rfl (by decide) (by decide) (by decide)
theorem witness_SpecialFunctions : AluMet specialSem (.rcp false 3#7 1#7) (rigI (.rcp false 3#7 1#7) [(1, 0)]) :=
  aluMet_of _ rfl (by decide) (by decide) (by decide)

theorem witness_Compares : ∃ i x s, compareSem i = some x ∧ x.1 = .u ∧ Issuing s (gOf s) (bOf s) ∧
    Passes (bOf s) (gOf s) (cmpOps x.1 x.2.1 x.2.2.1 x.2.2.2.1) [] :=
  ⟨.isetlt .u 4#7 1#7 2#7, _, rigTwo (.isetlt .u 4#7 1#7 2#7) [] [] [(1, 5)], rfl, rfl, issuing_of (by decide), passes_of (by decide)⟩
theorem witness_PredicateOperations : ∃ i x s, predSem i = some x ∧ Issuing s (gOf s) (bOf s) ∧ Passes (bOf s) (gOf s) x.1 [] :=
  ⟨.pandn 4#7 1#7 2#7, _, rigI (.pandn 4#7 1#7 2#7), rfl, issuing_of (by decide), passes_of (by decide)⟩
theorem witness_CrossLane : ∃ i x s, crossSem i = some x ∧ Issuing s (gOf s) (bOf s) ∧ Passes (bOf s) (gOf s) x.1 [] :=
  ⟨.shflx 4#7 1#7 3#7, _, rigTwo (.shflx 4#7 1#7 3#7) [(1, 5)] [(1, 6)], rfl, issuing_of (by decide), passes_of (by decide)⟩
theorem witness_CrossLaneFloatSums : let s := rigTwo (.redsumf 4#7 1#7) [(1, 0x3F800000)] [(1, 0xBF800000)]
    Issuing s (gOf s) (bOf s) ∧ Passes (bOf s) (gOf s) [rV 1#7, wV 4#7] [] := ⟨issuing_of (by decide), passes_of (by decide)⟩
theorem witness_BlockTags : let s := rigTwo (.qpick false 4#7 2#7 1#7) [(2, 0x3F800000)]
    Issuing s (gOf s) (bOf s) ∧ (∃ f, elemOf 1 = some f) ∧ Passes (bOf s) (gOf s) [rV 2#7 2, wV 4#7] [] ∧ Passes (bOf s) (gOf s) [rU 2#7 2, wU 4#7] [] :=
  ⟨issuing_of (by decide), ⟨_, rfl⟩, passes_of (by decide), passes_of (by decide)⟩
theorem witness_BlockTags_blockFormat : (∃ f, elemOf (128 + 32 * 3 + 7) = some f) ∨ ∃ f, elemOf (128 + 1) = some f := by
  exact .inr ⟨_, rfl⟩

/-! Control. -/

theorem witness_Branches : let s := rigI (.brx 2#7) [(2, 0x40000)]
    Issuing s (gOf s) (bOf s) ∧ Passes (bOf s) (gOf s) [rV 2#7 2] [] ∧ Executing (bOf s) (gOf s) (fun t => goodTarget (pairAt t 2#7)) :=
  ⟨issuing_of (by decide), passes_of (by decide), by unfold Executing goodTarget; decide⟩
theorem witness_BranchesNop : let s := rigI .nop
    Issuing s (gOf s) (bOf s) ∧ Passes (bOf s) (gOf s) [] [] := ⟨issuing_of (by decide), passes_of (by decide)⟩
theorem witness_Windows : let s := rigI (.winv 504#14)
    Issuing s (gOf s) (bOf s) ∧ Passes (bOf s) (gOf s) [] [⟨.vec, none, true⟩] ∧ Passes (bOf s) (gOf s) [] [⟨.uni, none, true⟩] :=
  ⟨issuing_of (by decide), passes_of (by decide), passes_of (by decide)⟩
theorem witness_Calls : let s := rigI (.callx 2#7) [(2, 0x40000)] [] id fun t => { t with rstack := List.replicate 7 0x30000, rdepth := 7 }
    Issuing s (gOf s) (bOf s) ∧ Passes (bOf s) (gOf s) [] [] ∧ Passes (bOf s) (gOf s) [rV 2#7 2] [] ∧
      Executing (bOf s) (gOf s) (fun t => (t.rstack.length < 8 ∧ t.rdepth < 2 ^ 24 - 1) ∧ goodTarget (pairAt t 2#7)) :=
  ⟨issuing_of (by decide), passes_of (by decide), passes_of (by decide), by unfold Executing goodTarget; decide⟩
theorem witness_Returns : let s := rigI .ret [] [] id fun t => { t with rstack := [0x30000], rdepth := 1 }
    Issuing s (gOf s) (bOf s) ∧ Passes (bOf s) (gOf s) [] [] ∧
      Executing (bOf s) (gOf s) (fun t => t.rdepth ≠ 0 ∧ ∃ x r, t.rstack = x :: r ∧ goodTarget x) := by
  refine ⟨issuing_of (by decide), passes_of (by decide), ?_⟩
  have h : members ((bOf (rigI .ret [] [] id fun t => { t with rstack := [0x30000], rdepth := 1 })).noted (gOf (rigI .ret [] [] id fun t =>
    { t with rstack := [0x30000], rdepth := 1 }))) (gOf (rigI .ret [] [] id fun t => { t with rstack := [0x30000], rdepth := 1 })) =
    [(0, thr [] fun t => { t with rstack := [0x30000], rdepth := 1 })] := by decide
  unfold Executing; rw [h]
  intro e he
  rw [List.mem_singleton] at he; subst he
  exact ⟨by decide, 0x30000, [], rfl, by unfold goodTarget; decide⟩
theorem witness_ControlRegisters : let s := rigI (.csrw false 2#7 1#14) [(2, 9), (3, 8)]
    Issuing s (gOf s) (bOf s) ∧ csrUniform 1#14 = false ∧ Passes (bOf s) (gOf s) [wV 2#7 (csrWidth 1#14)] [] ∧
      Passes (bOf s) (gOf s) [rV 2#7 (csrWidth 1#14)] [] ∧ Passes (bOf s) (gOf s) [wU 2#7 (csrWidth 1#14)] [] ∧
      (bOf s).executing (gOf s) = 0 :: [] ∧ mget? (bOf s).threads 0 = some (rawOf s) :=
  ⟨issuing_of (by decide), by decide, passes_of (by decide), passes_of (by decide), passes_of (by decide), by decide, by decide⟩
theorem witness_BenchUniformCsrWrites : let s := rigI (.csrw false 2#7 0x20#14) [(2, 9)]
    Issuing s (gOf s) (bOf s) ∧ csrUniform 0x20#14 = true ∧ (bOf s).executing (gOf s) = 0 :: [] ∧ mget? (bOf s).threads 0 = some (rawOf s) ∧
      Passes (bOf s) (gOf s) [rU 2#7 (csrWidth 0x20#14)] [] ∧ Passes (bOf s) (gOf s) [rV 2#7 (csrWidth 0x20#14)] [] :=
  ⟨issuing_of (by decide), by decide, by decide, by decide, passes_of (by decide), passes_of (by decide)⟩
theorem witness_CsrWriteFields : bits (0x1000 : DWord).toNat 14 12 < 5 ∧ 5 ≤ bits (0x7000 : DWord).toNat 14 12 := by decide

/-! Traps, returns, ends. -/

theorem performed_of {s : State} {g : Grp} (h : s.lates = []) : Performed s g := fun x hx => by simp [h] at hx
theorem handlers_of {s : State} {ls : List Nat} (h : (ls.all fun l => match mget? ((bOf s).noted (gOf s)).threads l with
      | some t => decide (isAp (bOf s).place = false ∧ (s.world (bOf s).world).tvec ≠ 0 ∧ t.tstat.toNat % 2 = 0)
      | none => true) = true) (hl : s.lates = [] := by decide) : AllHandlersReady s (gOf s) (bOf s) ls :=
  ⟨performed_of hl, each_thread (P := fun t => isAp (bOf s).place = false ∧ (s.world (bOf s).world).tvec ≠ 0 ∧ t.tstat.toNat % 2 = 0) h⟩

theorem witness_SoftwareTraps : let s := rigTwo (.trap 7#14) [] [] [] withHandler
    Issuing s (gOf s) (bOf s) ∧ Passes (bOf s) (gOf s) [] [] ∧ AllHandlersReady s (gOf s) (bOf s) ((bOf s).executing (gOf s)) :=
  ⟨issuing_of (by decide), passes_of (by decide), handlers_of (by decide)⟩
theorem witness_ReturnFromHandler : let s := rigI .eret [] [] id fun t => { t with tstat := 3, tpc := 0x20010, gspan := 0x25, repc := 0x43 }
    Issuing s (gOf s) (bOf s) ∧ Passes (bOf s) (gOf s) [] [] ∧ Executing (bOf s) (gOf s) (fun t => t.tstat.toNat % 2 = 1) :=
  ⟨issuing_of (by decide), passes_of (by decide), by unfold Executing; decide⟩
theorem witness_ReturnOutsideHandler : let s := rigI .eret [] [] withHandler
    Issuing s (gOf s) (bOf s) ∧ Passes (bOf s) (gOf s) [] [] ∧ Executing (bOf s) (gOf s) (fun t => t.tstat.toNat % 2 = 0) ∧
      AllHandlersReady s (gOf s) (bOf s) ((bOf s).executing (gOf s)) ∧ ¬ isX (gOf s).w.toNat :=
  ⟨issuing_of (by decide), passes_of (by decide), by unfold Executing; decide, handlers_of (by decide), by decide⟩
/-- A state whose task 1 is pinned. -/
def pinnedTask (s : State) : State := s.updTask 1 fun t => { t with pinned := true }
theorem witness_DoubleTrap (pinned : Bool) :
    let s := rigI (.trap 7#14) [] [] (fun s => if pinned then pinnedTask (withHandler s) else withHandler s) fun t => { t with tstat := 1 }
    ∃ k, Issuing s (gOf s) (bOf s) ∧ Passes (bOf s) (gOf s) [] [] ∧ isAp (gOf s).place = false ∧ (s.world (bOf s).world).tvec ≠ 0 ∧
      s.task? (bOf s).task = some k ∧ k.pinned = pinned ∧ (bOf s).executing (gOf s) = (gOf s).lanes ∧
      Executing (bOf s) (gOf s) (fun t => t.tstat.toNat % 2 = 1) ∧ (bOf s).rmask = 0 ∧
      (mget [] s.evq ((s.ctlReg 0x58).toNat % 16)).length < 1024 := by
  cases pinned
  · exact ⟨hostTask (.drawer 0 0 0) 0, issuing_of (by decide), passes_of (by decide), by decide, by decide, by decide, by decide, by decide,
      by unfold Executing; decide, by decide, by decide⟩
  · exact ⟨{ hostTask (.drawer 0 0 0) 0 with pinned := true }, issuing_of (by decide), passes_of (by decide), by decide, by decide, by decide,
      by decide, by decide, by unfold Executing; decide, by decide, by decide⟩
theorem witness_Halt : let s := rigI .halt
    ∃ k, Issuing s (gOf s) (bOf s) ∧ Passes (bOf s) (gOf s) [] [] ∧ Performed s (gOf s) ∧ s.task? (bOf s).task = some k ∧
      (bOf s).executing (gOf s) = (gOf s).lanes ∧ (gOf s).rep = none ∧ (mget [] s.evq ((s.ctlReg 0x58).toNat % 16)).length < 1024 :=
  ⟨hostTask (.drawer 0 0 0) 0, issuing_of (by decide), passes_of (by decide), performed_of (by decide), by decide, by decide, by decide, by decide⟩
theorem witness_Exit : let s := rigI .exit
    ∃ k, Issuing s (gOf s) (bOf s) ∧ Passes (bOf s) (gOf s) [] [] ∧ Performed s (gOf s) ∧ isAp (gOf s).place = false ∧
      s.task? (bOf s).task = some k ∧ k.state = .running ∧ (∀ l ∈ (bOf s).executing (gOf s), ∀ th, mget? (bOf s).threads l = some th → th.grp = 0 ∧ th.live = true) ∧
      (bOf s).executing (gOf s) ≠ [] ∧ (∀ x ∈ s.benches ++ s.saved, x.task = (bOf s).task → x.place = (gOf s).place) ∧
      (∀ e ∈ (bOf s).threads, e.2.live = true → e.1 ∈ (bOf s).executing (gOf s)) ∧
      (∀ x ∈ s.benches, ∀ y ∈ s.benches, x.place = y.place → x = y) ∧ s.saved = [] :=
  ⟨hostTask (.drawer 0 0 0) 0, issuing_of (by decide), passes_of (by decide), performed_of (by decide), by decide, by decide, by decide, each_thread (by decide),
    by decide, by decide, by decide, by decide, by decide⟩
/-- A thread in lane 3 that the group leaves alone. -/
def alsoLive (s : State) : State := s.updBench (.drawer 0 0 0) fun b => { b with threads := mset b.threads 3 (thr []) }
theorem witness_Exit_others : let s := rigI .exit [] [] alsoLive
    Issuing s (gOf s) (bOf s) ∧ Passes (bOf s) (gOf s) [] [] ∧ ∃ e ∈ (bOf s).threads, e.2.live = true ∧ e.1 ∉ (bOf s).executing (gOf s) :=
  ⟨issuing_of (by decide), passes_of (by decide), (3, thr []), by decide, by decide, by decide⟩

/-! Prefixes, parking, words that do not run. -/

theorem witness_GuardPrefix : let s := rigI (.grd 2#7 true 7#3)
    Issuing s (gOf s) (bOf s) ∧ (gOf s).rep = none ∧ isGrd (gOf s).w2 = false ∧ Passes (bOf s) (gOf s) [rP 2#7] [] :=
  ⟨issuing_of (by decide), by decide, by decide, passes_of (by decide)⟩
/-- A REP of the word `w`. -/
def repOf (w : Word) (f : State → State := id) : State :=
  rig [] [] ((encode false (.rep 3#6 1#3 1#3 1#3)).headD 0) w f
theorem witness_RepeatPrefix : let s := repOf ((encode false (.iadd .v 3#7 1#7 2#7)).headD 0)
    Issuing s (gOf s) (bOf s) ∧ (gOf s).rep = none ∧ isRep (gOf s).w = true ∧ Passes (bOf s) (gOf s) [] [] ∧ repTargetOk (gOf s).w2 = true ∧
      repStepsOk 1#3 1#3 1#3 (gOf s).w2 = true := ⟨issuing_of (by decide), by decide, by decide, passes_of (by decide), by decide, by decide⟩
theorem witness_RepeatPrefix_refused : let s := repOf ((encode false .exit).headD 0) withHandler
    Issuing s (gOf s) (bOf s) ∧ (gOf s).rep = none ∧ isRep (gOf s).w = true ∧ Passes (bOf s) (gOf s) [] [] ∧
      (repTargetOk (gOf s).w2 && repStepsOk 1#3 1#3 1#3 (gOf s).w2) = false ∧ AllHandlersReady s (gOf s) (bOf s) (gOf s).lanes ∧
      ¬ isX (gOf s).w.toNat :=
  ⟨issuing_of (by decide), by decide, by decide, passes_of (by decide), by decide, handlers_of (by decide), by decide⟩
theorem witness_MovingOn_repeats : let g : Grp := { gOf (repOf 0) with rep := some (1, 4) }
    ∃ k c, g.rep = some (k, c) ∧ k + 1 < c := ⟨1, 4, rfl, by decide⟩
theorem witness_MovingOn_last : let g : Grp := { gOf (repOf 0) with rep := some (3, 4) }
    ∃ k c, g.rep = some (k, c) ∧ c ≤ k + 1 := ⟨3, 4, rfl, by decide⟩
theorem witness_MovingOn_prefix : (gOf (repOf 0)).rep = none ∧ isRep (gOf (repOf 0)).w = true := by decide
theorem witness_MovingOn_plain : let g : Grp := { gOf (rigI .nop) with stop := true }
    g.rep = none ∧ isRep g.w = false ∧ g.stop = true := by decide
theorem witness_Yield : let s := rigI .yield
    Issuing s (gOf s) (bOf s) ∧ Passes (bOf s) (gOf s) [] [] ∧ Performed s (gOf s) ∧ (bOf s).executing (gOf s) = (gOf s).lanes ∧
      (∀ l ∈ (gOf s).lanes, ∀ t, mget? (bOf s).threads l = some t → t.live = true) ∧
      (∀ e ∈ (bOf s).threads, e.2.live = true → e.1 ∈ (gOf s).lanes) :=
  ⟨issuing_of (by decide), passes_of (by decide), performed_of (by decide), by decide, each_thread (by decide), by decide⟩
theorem witness_Yield_others : let s := rigI .yield [] [] alsoLive
    Issuing s (gOf s) (bOf s) ∧ Passes (bOf s) (gOf s) [] [] ∧ Performed s (gOf s) ∧ (bOf s).executing (gOf s) = (gOf s).lanes ∧
      (∀ l ∈ (gOf s).lanes, ∀ t, mget? (bOf s).threads l = some t → t.live = true) ∧ ∃ e ∈ (bOf s).threads, e.2.live = true ∧ e.1 ∉ (gOf s).lanes :=
  ⟨issuing_of (by decide), passes_of (by decide), performed_of (by decide), by decide, each_thread (by decide), (3, thr []), by decide, by decide, by decide⟩
theorem witness_Watch : let s := rigI (.marm 2#7) [(2, 0x30044)]
    ∃ t s' loc, Issuing s (gOf s) (bOf s) ∧ (gOf s).lanes = [0] ∧ (bOf s).executing (gOf s) = [0] ∧ Passes (bOf s) (gOf s) [rV 2#7 2] [] ∧
      mget? ((bOf s).noted (gOf s)).threads 0 = some t ∧
      (s.opened (gOf s) (bOf s)).translate (coreIx (gOf s).place) (bOf s).world .load (pairAt t 2#7).toNat = (s', .ok loc) ∧ dpaKind loc.dpa ≠ .mmio :=
  ⟨tOf (rigI (.marm 2#7) [(2, 0x30044)]), _, ⟨0x30044, 0x30044, 0, false⟩, issuing_of (by decide), by decide, by decide, passes_of (by decide),
    by decide, pair_of (by decide), by decide⟩
theorem witness_Wait : let s := rigI .mwait [] [] id fun t => { t with watch := some ⟨3, true⟩ }
    Issuing s (gOf s) (bOf s) ∧ Passes (bOf s) (gOf s) [] [] := ⟨issuing_of (by decide), passes_of (by decide)⟩
theorem witness_MalformedWords : let s := rig [] [] 0x4B80_0000 0 withHandler
    Issuing s (gOf s) (bOf s) ∧ (gOf s).rep = none ∧ AllHandlersReady s (gOf s) (bOf s) (gOf s).lanes ∧ isRep (gOf s).w = false ∧
      isGrd (gOf s).w = false := ⟨issuing_of (by decide), by decide, handlers_of (by decide), by decide, by decide⟩
/-- Repeat 0 of a REP whose target has a reserved field. -/
def badTarget (s : State) : State := { withHandler s with cur := .grp (.drawer 0 0 0) [0] 0x20000 0x7820C881 0x2800_0001 false (some (0, 4)) }
theorem witness_MalformedWords_target : let s := rig [] [] 0x7820C881 0x2800_0001 badTarget
    ∃ k c w, Issuing s (gOf s) (bOf s) ∧ AllHandlersReady s (gOf s) (bOf s) (gOf s).lanes ∧ (gOf s).rep = some (k, c) ∧
      stepWord (gOf s).w (gOf s).w2 k = some w ∧ isX (gOf s).w2.toNat = false :=
  ⟨0, 4, 0x2800_0001, issuing_of (by decide), handlers_of (by decide), by decide, by decide, by decide⟩
/-- The premises of the statement on profiles, but for the clause's own. -/
def Carried (i : Instr) (s : State) : Prop := i.wf = true ∧ i.legal = true ∧ encode (gOf s).stop i = [(gOf s).w] ∧ s.grp? = some (gOf s) ∧
  s.bench? (gOf s).place = some (bOf s) ∧ mrising (bOf s).threads = true ∧ (gOf s).lanes.Nodup ∧ (gOf s).lanes ≠ [] ∧
  (∀ l ∈ (gOf s).lanes, ∃ t, mget? (bOf s).threads l = some t) ∧ AllHandlersReady s (gOf s) (bOf s) (gOf s).lanes ∧ (gOf s).rep = none
theorem witness_Profile : let s := rigOf (bnch (.drawer 0 0 0) [(0, thr [])]) [0] ((encode false (.ipi 1#7 2#7)).headD 0) 0 withHandler
    Carried (.ipi 1#7 2#7) s ∧ profileOk (gOf s).place (gOf s).w = false :=
  ⟨⟨by decide, by decide, by decide, by decide, by decide, by decide, by decide, by decide,
    fun l hl => ⟨thr [], by revert l; decide⟩, handlers_of (by decide), by decide⟩, by decide⟩
/-- World 5, with a handler, and bench 0 in it. -/
def userWorld (s : State) : State :=
  (s.setWorld 5 { World.kernel with tvec := 0x40000 }).updBench (.drawer 0 0 0) fun b => { b with world := 5 }
theorem witness_Privilege : let s := rigI .halt [] [] userWorld
    Carried .halt s ∧ profileOk (gOf s).place (gOf s).w = true ∧ (bOf s).world ≠ 0 ∧ systemOnly .halt = true :=
  ⟨⟨by decide, by decide, by decide, by decide, by decide, by decide, by decide, by decide,
    fun l hl => ⟨thr [], by revert l; decide⟩, handlers_of (by decide), by decide⟩, by decide, by decide, by decide⟩
/-- A world with a handler, and a bench of 64 vector registers. -/
def smallFoot (s : State) : State := (withHandler s).updBench (.drawer 0 0 0) fun b => { b with vfoot := 64 }
/-- Lanes 0 and 3 add into register 127, outside the footprint; `h` changes their threads. -/
def outsideState (h : Thread → Thread := id) : State := rigTwo (.iadd .v 127#7 1#7 2#7) [] [] [] smallFoot h
/-- The premises, and the case that a lane's thread falls under: outside the footprint, at a hazard, or neither with guard 0. -/
def Checked (i : Instr) (s : State) (case : List Opnd → Thread → Prop) : Prop := ∃ x, integerSem i = some x ∧ Issuing s (gOf s) (bOf s) ∧
  AllHandlersReady s (gOf s) (bOf s) (gOf s).lanes ∧ ¬ isX (gOf s).w.toNat ∧
  ∀ l ∈ (gOf s).lanes, ∀ t, mget? ((bOf s).noted (gOf s)).threads l = some t → case (x.2.1.regs x.1) t
theorem witness_FootprintChecked_outside : let s := outsideState
    Checked (.iadd .v 127#7 1#7 2#7) s fun ops t => t.guard = true ∧ ∃ o ∈ ops, o.inFoot (bOf s) t = false :=
  ⟨_, rfl, issuing_of (by decide), handlers_of (by decide), by decide, each_thread (by decide)⟩
theorem witness_FootprintChecked_hazard (g : Bool) :
    let s := rigTwo (.iadd .v 4#7 1#7 2#7) [] [] [] smallFoot fun t => { t with span := some (g, 3), dbg := 1, used := [[⟨.vec, some 2, true⟩]] }
    Checked (.iadd .v 4#7 1#7 2#7) s fun ops t => ¬ (t.guard = true ∧ ∃ o ∈ ops, o.inFoot (bOf s) t = false) ∧ t.dbg.getLsbD 0 = true ∧
      t.hazard (usesOf ops t) = some 2 := by
  cases g <;> exact ⟨_, rfl, issuing_of (by decide), handlers_of (by decide), by decide, each_thread (by decide)⟩
theorem witness_FootprintChecked_guarded : let s := outsideState fun t => { t with span := some (false, 3) }
    Checked (.iadd .v 127#7 1#7 2#7) s fun _ t => t.guard = false ∧ t.dbg.getLsbD 0 = false :=
  ⟨_, rfl, issuing_of (by decide), handlers_of (by decide), by decide, each_thread (by decide)⟩
/-- The second earlier instruction conflicts with the second operand of the later one; then a window instruction, before and after. -/
theorem witness_RunCheck : let o : Use := ⟨.vec, some 3, true⟩
    let n : Use := ⟨.vec, some 3, false⟩
    let r : Use := ⟨.vec, some 5, false⟩
    let w : Use := ⟨.vec, none, true⟩
    ¬ Conflict r n ∧ ¬ Conflict r r ∧ Conflict o n ∧ Conflict w n ∧ Conflict o w ∧ ¬ Conflict ⟨.uni, some 3, true⟩ n ∧
      ({ thr [] with used := [[r], [r, o]] } : Thread).used = [r] :: [[r, o]] := by
  unfold Conflict; decide

theorem witness_TrapAndNop : (let s := rigTwo (.bpt 7#14) [] [] [] withHandler
    Issuing s (gOf s) (bOf s) ∧ Passes (bOf s) (gOf s) [] [] ∧ AllHandlersReady s (gOf s) (bOf s) ((bOf s).executing (gOf s))) ∧
    let w : Word := 0x48C0_4000
    w.toNat / 2 ^ 27 % 16 = 9 ∧ w.toNat / 2 ^ 22 % 32 = 3 ∧ w.toNat / 2 ^ 14 % 2 ^ 7 ≠ 0 :=
  ⟨⟨issuing_of (by decide), passes_of (by decide), handlers_of (by decide)⟩, by decide⟩
theorem witness_CsrReads : let s := rigI .nop
    (bOf s).place = .drawer 0 0 0 ∧ ∃ k, s.task? (bOf s).task = some k := ⟨by decide, hostTask (.drawer 0 0 0) 0, by decide⟩

end Sys2Proof.Tests
end

