-- ==== Sys2Proof/Tests/WitnessB.lean ====
section
/-! SUPPORT. For each statement about loads, stores, atomics and ordering, a concrete state and operands that meet its premises. -/

namespace Sys2Proof.Tests

set_option Elab.async false

open Sys2Proof Sys2Proof.Machine

/-- An access of `z` bytes at `a` of world 0, mapped one to one, passes its checks; by evaluation. -/
def reachesB (s : State) (k : AKind) (va : DWord) (z : Nat) : Bool :=
  decide (va.toNat < 2 ^ 56) && decide (va.toNat % z = 0) &&
    decide (((s.opened (gOf s) (bOf s)).translate (coreIx (gOf s).place) (bOf s).world k va.toNat).2 = .ok ⟨va.toNat, va.toNat, 0, false⟩) &&
    decide (dpaKind va.toNat ≠ .mmio)
/-- The state its translation leaves. -/
def walked (s : State) (k : AKind) (va : DWord) : State :=
  ((s.opened (gOf s) (bOf s)).translate (coreIx (gOf s).place) (bOf s).world k va.toNat).1

theorem reaches_of {s : State} {k : AKind} {va : DWord} {z : Nat} (h : reachesB s k va z = true) :
    Reaches s (gOf s) (bOf s) k va z (walked s k va) ⟨va.toNat, va.toNat, 0, false⟩ := by
  simp only [reachesB, Bool.and_eq_true, decide_eq_true_eq] at h
  exact ⟨h.1.1.1, h.1.1.2, Prod.ext rfl h.1.2, h.2, rfl⟩

/-- A word of world memory, and a task that may store in all of it. -/
def ld : Instr := .ld32 3#7 8#7 1#7
theorem witness_PlainLoads : let s := rigI ld [(8, 0x30000)]
    loadForm ld = some (4, false, 3#7, 8#7, 1#7) ∧ Alone s (gOf s) (bOf s) 0 (tOf s) ∧ Passes (bOf s) (gOf s) [wV 3#7, rAddr 8#7 2] [] ∧
      (∃ k, s.task? (bOf s).task = some k) ∧ ∃ s1 loc, Reaches s (gOf s) (bOf s) .load (effective (bOf s) (tOf s) 8#7 1#7 4) 4 s1 loc ∧
      s1.dataError loc.dpa true = false ∧ CacheRoom s (gOf s) (bOf s) :=
  ⟨rfl, alone_of (by decide), passes_of (by decide), ⟨hostTask (.drawer 0 0 0) 0, by decide⟩, _, _, reaches_of (by decide), by decide,
    fun c h => by rcases h with rfl | rfl <;> decide⟩

def st : Instr := .st64 4#7 8#7 127#7
/-- Task 1 declares all of memory, writable. -/
def regions (w : Bool) (s : State) : State := s.updTask 1 fun t => { t with regions := [⟨0, 2 ^ 56, true, w⟩] }
theorem witness_PlainStores : let s := rigI st [(4, 1), (5, 2), (8, 0x30010)] [] (regions true)
    ∃ k s1 loc, storeForm st = some (8, 4#7, 8#7, 127#7) ∧ Alone s (gOf s) (bOf s) 0 (tOf s) ∧ Passes (bOf s) (gOf s) [rV 4#7 2, rAddr 8#7 2] [] ∧
      s.task? (bOf s).task = some k ∧ Reaches s (gOf s) (bOf s) .store (effective (bOf s) (tOf s) 8#7 127#7 8) 8 s1 loc ∧
      k.mayStore (effective (bOf s) (tOf s) 8#7 127#7 8).toNat 8 = true ∧ s1.dataError loc.dpa false = false :=
  ⟨{ hostTask (.drawer 0 0 0) 0 with regions := [⟨0, 2 ^ 56, true, true⟩] }, _, _, rfl, alone_of (by decide), passes_of (by decide), by decide,
    reaches_of (by decide), by decide, by decide⟩

theorem alone_handler {s : State} (h : decide (isAp (bOf s).place = false ∧ (s.world (bOf s).world).tvec ≠ 0 ∧ (tOf s).tstat.toNat % 2 = 0) = true) :
    HandlerReady s (bOf s) (tOf s) := by unfold HandlerReady; exact of_decide_eq_true h
theorem witness_AccessFaults_loads : let s := rigI ld [(8, 0x30001)] [] withHandler
    Alone s (gOf s) (bOf s) 0 (tOf s) ∧ HandlerReady s (bOf s) (tOf s) ∧ Passes (bOf s) (gOf s) [wV 3#7, rAddr 8#7 2] [] ∧
      (effective (bOf s) (tOf s) 8#7 1#7 4).toNat < 2 ^ 56 ∧ (effective (bOf s) (tOf s) 8#7 1#7 4).toNat % 4 ≠ 0 :=
  ⟨alone_of (by decide), alone_handler (by decide), passes_of (by decide), by decide, by decide⟩
theorem witness_AccessFaults_stores : let s := rigI st [(8, 0x30004)] [] withHandler
    Alone s (gOf s) (bOf s) 0 (tOf s) ∧ HandlerReady s (bOf s) (tOf s) ∧ Passes (bOf s) (gOf s) [rV 4#7 2, rAddr 8#7 2] [] ∧
      (effective (bOf s) (tOf s) 8#7 127#7 8).toNat < 2 ^ 56 ∧ (effective (bOf s) (tOf s) 8#7 127#7 8).toNat % 8 ≠ 0 :=
  ⟨alone_of (by decide), alone_handler (by decide), passes_of (by decide), by decide, by decide⟩
theorem witness_AccessFaults_undeclared : let s := rigI st [(8, 0x30010)] [] fun s => regions false (withHandler s)
    ∃ k s1 loc, Alone s (gOf s) (bOf s) 0 (tOf s) ∧ HandlerReady s (bOf s) (tOf s) ∧ Passes (bOf s) (gOf s) [rV 4#7 2, rAddr 8#7 2] [] ∧
      Reaches s (gOf s) (bOf s) .store (effective (bOf s) (tOf s) 8#7 127#7 8) 8 s1 loc ∧ s.task? (bOf s).task = some k ∧
      k.mayStore (effective (bOf s) (tOf s) 8#7 127#7 8).toNat 8 = false ∧ isAp (gOf s).place = false ∧ ∀ x ∈ s.lates, x.task ≠ (bOf s).task :=
  ⟨{ hostTask (.drawer 0 0 0) 0 with regions := [⟨0, 2 ^ 56, true, false⟩] }, _, _, alone_of (by decide), alone_handler (by decide),
    passes_of (by decide), reaches_of (by decide), by decide, by decide, by decide, by decide⟩

/-- Two scratchpad banks of core 0 for world 0. -/
def withSpad (s : State) : State :=
  s.updCore 0 fun c => { c with banks := [⟨0, .spad⟩, ⟨0, .spad⟩] ++ c.banks.drop 2, spad := [(5, 9)] }
theorem witness_ScratchpadLoads : let s := rigI (.ls64 4#7 8#7 1#7) [(8, 0x100)] [] withSpad
    Alone s (gOf s) (bOf s) 0 (tOf s) ∧ SpadCanonical s (gOf s) ∧ spadLoadForm (.ls64 4#7 8#7 1#7) = some (2, 4#7, 8#7, 1#7) ∧
      Passes (bOf s) (gOf s) [wV 4#7 2, rAddr 8#7 1] [] ∧ SpadReadable s (gOf s) (bOf s) (spadOffset (bOf s) (tOf s) 8#7 (1#7).toInt 8) 8 :=
  ⟨alone_of (by decide), by unfold SpadCanonical; decide, rfl, passes_of (by decide), by unfold SpadReadable SpadReady; decide⟩
theorem witness_ScratchpadStores : let s := rigI (.ss32 4#7 8#7 1#7) [(4, 7), (8, 0x100)] [] withSpad
    Alone s (gOf s) (bOf s) 0 (tOf s) ∧ SpadCanonical s (gOf s) ∧ spadStoreForm (.ss32 4#7 8#7 1#7) = some (1, 4#7, 8#7, 1#7) ∧
      Passes (bOf s) (gOf s) [rV 4#7 1, rAddr 8#7 1] [] ∧ SpadReady s (gOf s) (bOf s) (spadOffset (bOf s) (tOf s) 8#7 (1#7).toInt 4) 4 :=
  ⟨alone_of (by decide), by unfold SpadCanonical; decide, rfl, passes_of (by decide), by unfold SpadReady; decide⟩

/-- A copy of the line at 0x30000, in the cluster. -/
def theCopy : Copy := ⟨.cluster 0, 0xC00, 0xC00, List.replicate 64 7, false, 0⟩
def withCopy (s : State) : State := { s with copies := [theCopy] }
theorem strong_of {s : State} {k : AKind} {va : DWord} {z : Nat} {rd : Bool} (h : reachesB s k va z = true)
    (h' : decide ((walked s k va).dataError va.toNat rd = false ∧ (walked s k va).lineAway (va.toNat / 64) = false ∧ s.confW (bOf s).world = false ∧ s.unchecked (bOf s).task = false) = true) :
    ReachesStrong s (gOf s) (bOf s) k va z rd (walked s k va) ⟨va.toNat, va.toNat, 0, false⟩ :=
  ⟨reaches_of h, of_decide_eq_true h'⟩
theorem noneOwed_of {s : State} {xs : List RelRec} (h : s.lates = []) : NoneOwed s xs := fun _ _ z hz => by simp [h] at hz
def lda : Instr := .lda32 4#7 8#7 1#2 4#3
theorem witness_StrongLoads_home : let s := rigI lda [(8, 0x30000)]
    strongLoadForm lda = some (4, 4#7, 8#7, 1#2, 4#3) ∧ Alone s (gOf s) (bOf s) 0 (tOf s) ∧ Passes (bOf s) (gOf s) [wV 4#7 1, rAddr 8#7 2] [] ∧
      (∃ s1 loc, ReachesStrong s (gOf s) (bOf s) .load (effective (bOf s) (tOf s) 8#7 0 1) 4 true s1 loc) ∧ NoneOwed s s.relvs ∧ AtHome s (gOf s) 4#3 :=
  ⟨rfl, alone_of (by decide), passes_of (by decide), ⟨_, _, strong_of (by decide) (by decide)⟩, noneOwed_of (by decide), by unfold AtHome; decide⟩
def ldaCluster : Instr := .lda32 4#7 8#7 1#2 3#3
theorem witness_StrongLoads_copy : let s := rigI ldaCluster [(8, 0x30000)] [] withCopy
    strongLoadForm ldaCluster = some (4, 4#7, 8#7, 1#2, 3#3) ∧ Alone s (gOf s) (bOf s) 0 (tOf s) ∧ Passes (bOf s) (gOf s) [wV 4#7 1, rAddr 8#7 2] [] ∧
      ∃ s1 loc, ReachesStrong s (gOf s) (bOf s) .load (effective (bOf s) (tOf s) 8#7 0 1) 4 true s1 loc ∧ NoneOwed s s.relvs ∧
      AtCopy s (gOf s) (tOf s) 3#3 loc theCopy :=
  ⟨rfl, alone_of (by decide), passes_of (by decide), _, _, strong_of (by decide) (by decide), noneOwed_of (by decide), by unfold AtCopy; decide⟩
def sta : Instr := .sta64 4#7 8#7 1#2 4#3
theorem witness_StrongStores_home : let s := rigI sta [(4, 5), (8, 0x30000)]
    strongStoreForm sta = some (8, 4#7, 8#7, 1#2, 4#3) ∧ Alone s (gOf s) (bOf s) 0 (tOf s) ∧ Passes (bOf s) (gOf s) [rV 4#7 2, rAddr 8#7 2] [] ∧
      (∃ s1 loc, ReachesStrong s (gOf s) (bOf s) .store (effective (bOf s) (tOf s) 8#7 0 1) 8 false s1 loc ∧ s.watched (loc.dpa / 64) = false) ∧
      AtHome s (gOf s) 4#3 :=
  ⟨rfl, alone_of (by decide), passes_of (by decide), ⟨_, _, strong_of (by decide) (by decide), by decide⟩, by unfold AtHome; decide⟩
def staCluster : Instr := .sta32 4#7 8#7 1#2 3#3
theorem witness_StrongStores_copy : let s := rigI staCluster [(4, 5), (8, 0x3003C)] [] withCopy
    strongStoreForm staCluster = some (4, 4#7, 8#7, 1#2, 3#3) ∧ Alone s (gOf s) (bOf s) 0 (tOf s) ∧ Passes (bOf s) (gOf s) [rV 4#7 1, rAddr 8#7 2] [] ∧
      ∃ s1 loc, ReachesStrong s (gOf s) (bOf s) .store (effective (bOf s) (tOf s) 8#7 0 1) 4 false s1 loc ∧ s.watched (loc.dpa / 64) = false ∧
      AtCopy s (gOf s) (tOf s) 3#3 loc theCopy ∧ RoomAt s (bOf s) theCopy :=
  ⟨rfl, alone_of (by decide), passes_of (by decide), _, _, strong_of (by decide) (by decide), by decide, by unfold AtCopy; decide, by unfold RoomAt; decide⟩
theorem quiet_lenders {s : State} (h : (!s.awaitsLender && s.unpushed.all (fun e => !s.leased e.1) && s.copies.all fun x => !s.leased x.line) = true) :
    LendersQuiet s := by
  simp only [Bool.and_eq_true, Bool.not_eq_true', List.all_eq_true] at h
  exact ⟨h.1.1, h.1.2, h.2⟩
/-- A release at fabric scope. -/
def staFabric : Instr := .sta64 4#7 8#7 2#2 5#3
theorem witness_StrongStores_fabric : let s := rigI staFabric [(4, 5), (8, 0x30000)]
    strongStoreForm staFabric = some (8, 4#7, 8#7, 2#2, 5#3) ∧ Alone s (gOf s) (bOf s) 0 (tOf s) ∧ Passes (bOf s) (gOf s) [rV 4#7 2, rAddr 8#7 2] [] ∧
      (∃ s1 loc, ReachesStrong s (gOf s) (bOf s) .store (effective (bOf s) (tOf s) 8#7 0 1) 8 false s1 loc ∧ s.watched (loc.dpa / 64) = false) ∧
      LendersQuiet s ∧ AtHome s (gOf s) 5#3 :=
  ⟨rfl, alone_of (by decide), passes_of (by decide), ⟨_, _, strong_of (by decide) (by decide), by decide⟩, quiet_lenders (by decide),
    by unfold AtHome; decide⟩

/-! Accesses performed later. -/

/-- The schedule lets an instruction's accesses be performed later. -/
def late (s : State) : State := { s with late := true }
theorem witness_LateAccesses_loads : let s := rigI (.lda32 4#7 8#7 0#2 4#3) [(8, 0x30000)] [] late
    ∃ t s1 loc, Alone { s with late := false } (gOf s) (bOf s) 0 t ∧ s.late = true ∧ (0#2).getLsbD 0 = false ∧
      Passes (bOf s) (gOf s) [wV 4#7 1, rAddr 8#7 2] [] ∧ ReachesStrong s (gOf s) (bOf s) .load (effective (bOf s) t 8#7 0 1) 4 true s1 loc ∧
      dpaKind loc.dpa ≠ .window ∧ s.leased (loc.dpa / 64) = false :=
  ⟨tOf (rigI (.lda32 4#7 8#7 0#2 4#3) [(8, 0x30000)] [] late), _, _,
    alone_of (s := { rigI (.lda32 4#7 8#7 0#2 4#3) [(8, 0x30000)] [] late with late := false }) (by decide), by decide, by decide, passes_of (by decide),
    strong_of (by decide) (by decide), by decide⟩
theorem witness_LateAccesses_stores : let s := rigI sta [(4, 5), (8, 0x30000)] [] late
    ∃ t s1 loc, Alone { s with late := false } (gOf s) (bOf s) 0 t ∧ s.late = true ∧ ((1#2).getLsbD 1 = true → (4#3).toNat ≠ 5) ∧
      Passes (bOf s) (gOf s) [rV 4#7 2, rAddr 8#7 2] [] ∧ ReachesStrong s (gOf s) (bOf s) .store (effective (bOf s) t 8#7 0 1) 8 false s1 loc ∧
      dpaKind loc.dpa ≠ .window ∧ s.leased (loc.dpa / 64) = false :=
  ⟨tOf (rigI sta [(4, 5), (8, 0x30000)] [] late), _, _,
    alone_of (s := { rigI sta [(4, 5), (8, 0x30000)] [] late with late := false }) (by decide), by decide, by decide, passes_of (by decide),
    strong_of (by decide) (by decide), by decide⟩
/-- A bench in slot 1 whose thread waits for the block at 0x30000. -/
def withWatcher (s : State) : State :=
  { s with benches := s.benches ++ [bnch (.drawer 0 0 1) [(0, thr [] fun t => { t with watch := some ⟨0xC00, false⟩, wait := .mwait })]] }
theorem witness_StoresWakeWatches : let s := rigI sta [(4, 5), (8, 0x30000)] [] withWatcher
    Alone s (gOf s) (bOf s) 0 (tOf s) ∧ Passes (bOf s) (gOf s) [rV 4#7 2, rAddr 8#7 2] [] ∧
      (∃ s1 loc, ReachesStrong s (gOf s) (bOf s) .store (effective (bOf s) (tOf s) 8#7 0 1) 8 false s1 loc) ∧ AtHome s (gOf s) 4#3 ∧
      ∃ p m th w, p ≠ (gOf s).place ∧ s.thread? p m = some th ∧ th.watch = some w :=
  ⟨alone_of (by decide), passes_of (by decide), ⟨_, _, strong_of (by decide) (by decide)⟩, by unfold AtHome; decide, .drawer 0 0 1, 0,
    thr [] fun t => { t with watch := some ⟨0xC00, false⟩, wait := .mwait }, ⟨0xC00, false⟩, by decide, by decide, by decide⟩

/-- Device scope, both orders, 64 bits, at the home, returning the old value. -/
def attr : AtomAttr := { scope := 4#3, ord := 3#2, size := 1#2, space := false, ret := true, cmp := 10#7, ofs := 8#16 }
def acas : Instr := .acas 4#7 8#7 6#7 attr
theorem witness_AtomicsAtHome : let s := rigI acas [(8, 0x30000)]
    ∃ f, atomForm acas = some (4#7, 8#7, 6#7, attr, f) ∧ attr.space = false ∧ Alone s (gOf s) (bOf s) 0 (tOf s) ∧
      Passes (bOf s) (gOf s) (atomOps acas 4#7 8#7 6#7 attr 2) [] ∧
      (∃ s1 loc, ReachesStrong s (gOf s) (bOf s) .store (effective (bOf s) (tOf s) 8#7 0 1 + BitVec.ofInt 64 attr.ofs.toInt) 8 true s1 loc ∧
        s.watched (loc.dpa / 64) = false) ∧ NoneOwed s s.relvs ∧ AtHome s (gOf s) attr.scope :=
  ⟨_, rfl, rfl, alone_of (by decide), passes_of (by decide), ⟨_, _, strong_of (by decide) (by decide), by decide⟩, noneOwed_of (by decide),
    by unfold AtHome; decide⟩
def attrSpad : AtomAttr := { attr with space := true, scope := 2#3, size := 0#2 }
def aadd : Instr := .aadd 4#7 8#7 6#7 attrSpad
theorem witness_AtomicsOnScratchpad : let s := rigI aadd [(8, 0x100)] [] withSpad
    ∃ f, atomForm aadd = some (4#7, 8#7, 6#7, attrSpad, f) ∧ attrSpad.space = true ∧ Alone s (gOf s) (bOf s) 0 (tOf s) ∧ SpadCanonical s (gOf s) ∧
      s.unchecked (bOf s).task = false ∧ NoneOwed s s.relvs ∧ Passes (bOf s) (gOf s) (atomOps aadd 4#7 8#7 6#7 attrSpad 1) [] ∧
      SpadReadable s (gOf s) (bOf s) (spadOffset (bOf s) (tOf s) 8#7 attrSpad.ofs.toInt 1) 4 :=
  ⟨_, rfl, rfl, alone_of (by decide), by unfold SpadCanonical; decide, by decide, noneOwed_of (by decide), passes_of (by decide),
    by unfold SpadReadable SpadReady; decide⟩

theorem witness_OrderingInstructions : let s := rigI (.fence 1#2 4#3) [] [] fun s => { s with copies := [{ theCopy with dirty := true }] }
    Alone s (gOf s) (bOf s) 0 (tOf s) ∧ Passes (bOf s) (gOf s) [] [] ∧ NoneOwed s (tOf s).facq ∧ 4 ≤ (4#3).toNat ∧ (1#2).toNat ≠ 0 ∧ LendersQuiet s ∧
      (∃ x, s.copies = [x] ∧ x.at_ = .cluster (clusterOf (gOf s).place) ∧ x.dirty = true ∧ x.data.length = 64 ∧ s.confW x.world = false) ∧
      ∃ k, s.task? (bOf s).task = some k :=
  ⟨alone_of (by decide), passes_of (by decide), noneOwed_of (by decide), by decide, by decide, quiet_lenders (by decide), ⟨{ theCopy with dirty := true }, by decide, by decide, by decide, by decide, by decide⟩,
    hostTask (.drawer 0 0 0) 0, by decide⟩

theorem witness_Tags_ltag : let s := rigI (.ltag 4#7 8#7 1#7) [(8, 0x30000)]
    ∃ k s1 loc, Alone s (gOf s) (bOf s) 0 (tOf s) ∧ s.task? (bOf s).task = some k ∧ Passes (bOf s) (gOf s) [wV 4#7, rAddr 8#7 2] [] ∧
      Reaches s (gOf s) (bOf s) .load (effective (bOf s) (tOf s) 8#7 1#7 64) 1 s1 loc ∧ s1.dataError loc.dpa false = false :=
  ⟨hostTask (.drawer 0 0 0) 0, _, _, alone_of (by decide), by decide, passes_of (by decide), reaches_of (by decide), by decide⟩
theorem witness_Tags_stag : let s := rigI (.stag 4#7 8#7 1#7) [(4, 0x81), (8, 0x30000)] [] (regions true)
    ∃ k s1 loc, Alone s (gOf s) (bOf s) 0 (tOf s) ∧ s.task? (bOf s).task = some k ∧ Passes (bOf s) (gOf s) [rV 4#7, rAddr 8#7 2] [] ∧
      Reaches s (gOf s) (bOf s) .store (effective (bOf s) (tOf s) 8#7 1#7 64) 1 s1 loc ∧
      k.mayStore ((effective (bOf s) (tOf s) 8#7 1#7 64).toNat / 64 * 64) 64 = true ∧ s1.retired.contains (loc.dpa / 65536) = false :=
  ⟨{ hostTask (.drawer 0 0 0) 0 with regions := [⟨0, 2 ^ 56, true, true⟩] }, _, _, alone_of (by decide), by decide, passes_of (by decide),
    reaches_of (by decide), by decide, by decide⟩
theorem witness_ArenaLoads (wide : Bool) : let s := rigI (.ldk64 4#7 8#7 1#7) [(8, 0x1000000)] [] withArena
    ∃ k ar, let z := if wide then 8 else 4
      let va := (effective (bOf s) (tOf s) 8#7 1#7 z).toNat
      Alone s (gOf s) (bOf s) 0 (tOf s) ∧ s.task? (bOf s).task = some k ∧ Passes (bOf s) (gOf s) [wV 4#7 (z / 4), rAddr 8#7 2] [] ∧ va % z = 0 ∧
      s.arena? (bOf s).world = some ar ∧ ar.pgbase ≤ va ∧ va + z ≤ ar.pgbase + 65536 * ar.npage ∧ s.kvHeader (bOf s).world = .ok () ∧
      s.dpaBar va = none ∧ s.dataError va true = false ∧ s.confW (bOf s).world = false := by
  cases wide <;> exact ⟨hostTask (.drawer 0 0 0) 0, theArena, alone_of (by decide), by decide, passes_of (by decide), by decide, by decide, by decide,
    by decide, by decide⟩
theorem witness_ArenaCounter : let s := rigI (.lsk32 4#7 8#7) [(8, 0x1010000)] [] withArena
    ∃ k ar p, Alone s (gOf s) (bOf s) 0 (tOf s) ∧ s.task? (bOf s).task = some k ∧ Passes (bOf s) (gOf s) [wV 4#7, rAddr 8#7 2] [] ∧
      s.arena? (bOf s).world = some ar ∧ ar.pageOf (effective (bOf s) (tOf s) 8#7 0 1).toNat 1 = some p ∧ s.kvHeader (bOf s).world = .ok () ∧ s.kvGood (bOf s).world (ar.desc p) = .ok () :=
  ⟨hostTask (.drawer 0 0 0) 0, theArena, 1, alone_of (by decide), by decide, passes_of (by decide), by decide, by decide, by decide⟩
theorem witness_Pref : let s := rigI (.pref 8#7 1#7) [(8, 0x30000)]
    ∃ k, Alone s (gOf s) (bOf s) 0 (tOf s) ∧ s.task? (bOf s).task = some k ∧ Passes (bOf s) (gOf s) [rAddr 8#7 2] [] :=
  ⟨hostTask (.drawer 0 0 0) 0, alone_of (by decide), by decide, passes_of (by decide)⟩

end Sys2Proof.Tests
end

