-- ==== Sys2Proof/Tests/WitnessC.lean ====
section
/-! SUPPORT. For each statement about groups, barriers, tasks and benches, a concrete state and operands that meet its premises. -/

namespace Sys2Proof.Tests

set_option Elab.async false

open Sys2Proof Sys2Proof.Machine

/-! Groups. -/

def groupZero : Group := ⟨0, 0, 5, 1⟩
def withGroup (s : State) : State := { s with groups := [groupZero] }
theorem witness_Groups_gnew : let s := rigI (.gnew 4#7) [] [] withGroup
    Alone s (gOf s) (bOf s) 0 (tOf s) ∧ Passes (bOf s) (gOf s) [wV 4#7] [] ∧ 1 < 512 ∧
      (∀ x ∈ s.groups, x.clu = clusterOf (gOf s).place → x.recd ≠ 1) ∧ (∀ q < 1, ∃ x ∈ s.groups, x.clu = clusterOf (gOf s).place ∧ x.recd = q) :=
  ⟨alone_of (by decide), passes_of (by decide), by decide, by decide, by decide⟩
theorem witness_Groups_gjoin : let s := rigI (.gjoin 4#7) [(4, (groupHandle groupZero).toNat)] [] withGroup
    Alone s (gOf s) (bOf s) 0 (tOf s) ∧ Passes (bOf s) (gOf s) [rV 4#7] [] ∧
      s.groups.find? (fun y => groupHandle y = (tOf s).v (4#7).toNat) = some groupZero ∧ groupZero.clu = clusterOf (gOf s).place ∧ (tOf s).grp = 0 ∧
      (s.allThreads.filter fun e => e.2.counts ((tOf s).v (4#7).toNat)).length < 24576 ∧ (∀ y ∈ s.slots, y.bound ≠ some (tOf s).grp) ∧
      (∀ y ∈ s.slots, y.bound ≠ some ((tOf s).v (4#7).toNat)) :=
  ⟨alone_of (by decide), passes_of (by decide), by decide, by decide, by decide, by decide, by decide, by decide⟩
/-- Slot 3 of core 0, bound to the group, with `n` arrivals pending and `a` arrived. -/
def slotThree (n : Nat) (a : Nat := 1) : BSlot :=
  { node := .core 0, slot := 3, bound := some (groupHandle groupZero), solo := none, arr := a, gen := 9, pend := n, mem := n + a, arrived := [], view := [],
    done := [] }
def withSlot (n : Nat) (s : State) : State := { withGroup s with slots := [slotThree n] }
theorem witness_Groups_gjoin_open : let s := rigI (.gjoin 4#7) [(4, (groupHandle groupZero).toNat)] [] (withSlot 2)
    Alone s (gOf s) (bOf s) 0 (tOf s) ∧ Passes (bOf s) (gOf s) [rV 4#7] [] ∧
      s.groups.find? (fun y => groupHandle y = (tOf s).v (4#7).toNat) = some groupZero ∧ groupZero.clu = clusterOf (gOf s).place ∧
      (s.allThreads.filter fun e => e.2.counts ((tOf s).v (4#7).toNat)).length < 24576 ∧ (∀ y ∈ s.slots, y.bound ≠ some (tOf s).grp) ∧
      s.slotsFor ((tOf s).v (4#7).toNat) ⟨(gOf s).place, 0⟩ = [(.core 0, 3)] ∧ (s.slot (.core 0) 3).isOpen = true :=
  ⟨alone_of (by decide), passes_of (by decide), by decide, by decide, by decide, by decide, by decide, by decide⟩
def member (t : Thread) : Thread := { t with grp := groupHandle groupZero }
theorem witness_Groups_gleave : let s := rigI .gleave [] [] withGroup member
    Alone s (gOf s) (bOf s) 0 (tOf s) ∧ Passes (bOf s) (gOf s) [] [] ∧ (tOf s).grp ≠ 0 ∧ (∀ y ∈ s.slots, y.bound ≠ some (tOf s).grp) :=
  ⟨alone_of (by decide), passes_of (by decide), by decide, by decide⟩
theorem witness_Groups_gleave_bound : let s := rigI .gleave [] [] (withSlot 2) member
    Alone s (gOf s) (bOf s) 0 (tOf s) ∧ Passes (bOf s) (gOf s) [] [] ∧ s.slotsFor (tOf s).grp ⟨(gOf s).place, 0⟩ = [(.core 0, 3)] ∧
      ⟨(gOf s).place, 0⟩ ∉ (s.slot (.core 0) 3).arrived ∧ 2 ≤ (s.slot (.core 0) 3).pend :=
  ⟨alone_of (by decide), passes_of (by decide), by decide, by decide, by decide⟩
theorem witness_Groups_gfree : let s := rigI (.gfree 5#7 4#7) [(4, (groupHandle groupZero).toNat)] [] withGroup
    Alone s (gOf s) (bOf s) 0 (tOf s) ∧ Passes (bOf s) (gOf s) [wV 5#7, rV 4#7] [] ∧ Passes (bOf s) (gOf s) [wV 5#7] [] :=
  ⟨alone_of (by decide), passes_of (by decide), passes_of (by decide)⟩

/-! Barriers. -/

theorem noJoins_of {s : State} (h : (s.allThreads.all fun e => match e.2.wait with
    | .join _ _ => false
    | _ => true) = true) : NoJoins s := by
  intro e he k xs hw
  have := List.all_eq_true.mp h e he
  simp [hw] at this
theorem witness_BarrierArrivals (two : Bool) : let n := if two then 2 else 1
    let s := rigI (.bsync 3#6 4#7 true false 0#2) [] [] (withSlot n) member
    Alone s (gOf s) (bOf s) 0 (tOf s) ∧ SlotFor s (gOf s) (bOf s) 0 (tOf s) 3#6 0#2 (.core 0) 3 ∧ NoPush s 0#2 ∧
      Passes (bOf s) (gOf s) (arriveOps 4#7 true false true) [] ∧ (s.slot (.core 0) 3).pend = n ∧ NoJoins s := by
  cases two
  · exact ⟨alone_of (by decide), by unfold SlotFor; exact ⟨rfl, by decide, by decide, by decide, by decide⟩, .inl (by decide), passes_of (by decide), by decide,
      noJoins_of (by decide)⟩
  · exact ⟨alone_of (by decide), by unfold SlotFor; exact ⟨rfl, by decide, by decide, by decide, by decide⟩, .inl (by decide), passes_of (by decide), by decide,
      noJoins_of (by decide)⟩
theorem witness_BarrierWaits : let s := rigI (.bwait 3#6 4#7 true false 0#2) [(4, 9)] [] (withSlot 2) member
    Alone s (gOf s) (bOf s) 0 (tOf s) ∧ s.slotOf (bOf s) (gOf s) 3#6 0#2 = .ok (.core 0, 3) ∧ Passes (bOf s) (gOf s) (arriveOps 4#7 true false false) [] :=
  ⟨alone_of (by decide), rfl, passes_of (by decide)⟩
theorem witness_BarrierExpectations : let s := rigI (.bexpect 3#6 4#7 false 0#2) [(4, 9)] [] (fun s => { withGroup s with slots := [{ slotThree 2 with mem := 2 }] }) member
    Alone s (gOf s) (bOf s) 0 (tOf s) ∧ s.slotOf (bOf s) (gOf s) 3#6 0#2 = .ok (.core 0, 3) ∧ Passes (bOf s) (gOf s) [valOpnd 4#7 false 1 false] [] ∧
      (s.slot (.core 0) 3).pend + ((tOf s).v (4#7).toNat).toNat < 2 ^ 20 ∧ Passes (bOf s) (gOf s) [] [] ∧
      (s.slot (.core 0) 3).mem - (s.slot (.core 0) 3).arr < (s.slot (.core 0) 3).pend ∧ 2 ≤ (s.slot (.core 0) 3).pend ∧
      Passes (bOf s) (gOf s) [valOpnd 4#7 false 2 true] [] ∧ NoJoins s :=
  ⟨alone_of (by decide), rfl, passes_of (by decide), by decide, passes_of (by decide), by decide, by decide, passes_of (by decide), noJoins_of (by decide)⟩

/-! Submissions and timelines. -/

theorem witness_Submissions : let s := rigI (.tsub 4#7 8#7) [(8, 0x30000)]
    ∃ s1 s2 s3 raw regs tl, Alone s (gOf s) (bOf s) 0 (tOf s) ∧ Passes (bOf s) (gOf s) [wV 4#7, rAddr 8#7 2] [] ∧ s.unchecked (bOf s).task = false ∧
      let va := effective (bOf s) (tOf s) 8#7 0 1
      va.toNat < 2 ^ 56 ∧ va.toNat % 64 = 0 ∧ (s.opened (gOf s) (bOf s)).checkedBytes ((bOf s).noted (gOf s)) 0 va 64 = (s1, .ok raw) ∧
      s1.checkedBytes ((bOf s).noted (gOf s)) 0 (Desc.of raw).rtab (16 * (Desc.of raw).nreg) = (s2, .ok regs) ∧
      s2.checkedBytes ((bOf s).noted (gOf s)) 0 (Desc.of raw).tltab (if (Desc.of raw).tltab = 0 then 0 else 384) = (s3, .ok tl) :=
  ⟨_, _, _, List.replicate 64 0, [], [], alone_of (by decide), passes_of (by decide), by decide, by decide, by decide, pair_of (by decide),
    pair_of (by decide), pair_of (by decide)⟩
/-- Drawer 2's matrix unit has completed 5 commands. -/
def fiveDone (s : State) : State := s.updMxu 2 fun m => { m with done := 5 }
theorem witness_Timelines_hardware : let s := rigI (.tlwait 2#6 8#7) [(8, 5)] [] fiveDone
    Alone s (gOf s) (bOf s) 0 (tOf s) ∧ Passes (bOf s) (gOf s) [tlOpnd 8#7 true] [] ∧ Passes (bOf s) (gOf s) [tlOpnd 8#7 false] [] ∧
      s.tline (gOf s) (bOf s) (2#6).toNat = .ok (.hw 5 none) ∧ pairOf (bOf s) (tOf s) 8#7 ≤ 5 :=
  ⟨alone_of (by decide), passes_of (by decide), passes_of (by decide), by rfl, by decide⟩
theorem witness_Timelines_waits : let s := rigI (.tlwait 2#6 8#7) [(8, 6)] [] fiveDone
    Alone s (gOf s) (bOf s) 0 (tOf s) ∧ Passes (bOf s) (gOf s) [tlOpnd 8#7 false] [] ∧
      s.tline (gOf s) (bOf s) (2#6).toNat = .ok (.hw 5 none) ∧ 5 < pairOf (bOf s) (tOf s) 8#7 :=
  ⟨alone_of (by decide), passes_of (by decide), by rfl, by decide⟩
/-- Handle 16 of task 1 names the word at 0x30008. -/
def withLine (s : State) : State := s.updTask 1 fun t => { t with tl := [0x30008] }
theorem witness_Timelines_word : let s := rigI (.tlsig 16#6 8#7) [(8, 5)] [] withLine
    ∃ s1 loc, Alone s (gOf s) (bOf s) 0 (tOf s) ∧ Passes (bOf s) (gOf s) [tlOpnd 8#7 true] [] ∧ Passes (bOf s) (gOf s) [tlOpnd 8#7 false] [] ∧
      s.tline (gOf s) (bOf s) (16#6).toNat = .ok (.word 0x30008) ∧ ReachesStrong s (gOf s) (bOf s) .load 0x30008 8 true s1 loc ∧ AtHome s (gOf s) 4 ∧
      NoneOwed s s.relvs :=
  ⟨_, _, alone_of (by decide), passes_of (by decide), passes_of (by decide), by rfl, strong_of (by decide) (by decide), by unfold AtHome; decide,
    noneOwed_of (by decide)⟩
theorem witness_Timelines_signal : let s := rigI (.tlsig 16#6 8#7) [(8, 5)] [] withLine
    ∃ s1 loc, Alone s (gOf s) (bOf s) 0 (tOf s) ∧ Passes (bOf s) (gOf s) [tlOpnd 8#7 false] [] ∧ 16 ≤ (16#6).toNat ∧
      s.tline (gOf s) (bOf s) (16#6).toNat = .ok (.word 0x30008) ∧ ReachesStrong s (gOf s) (bOf s) .store 0x30008 8 true s1 loc ∧
      AtHome s (gOf s) 4 ∧ s.watched (loc.dpa / 64) = false :=
  ⟨_, _, alone_of (by decide), passes_of (by decide), by decide, by rfl, strong_of (by decide) (by decide), by unfold AtHome; decide, by decide⟩

/-! Tasks. -/

/-- A descriptor of `n` threads at 0x20000 with 64 vector registers, one region, and a submission of it. -/
def rawDesc (n nreg : Nat) : List Byte :=
  natLe 8 0x20000 ++ natLe 8 0 ++ natLe 4 (n + 8 * 2 ^ 16 + 8 * 2 ^ 24) ++ natLe 4 (128 + nreg * 2 ^ 12) ++ natLe 8 0x30000 ++ List.replicate 32 0
def aSub (n : Nat) : Sub := ⟨0, 0, ⟨.drawer 0 0 0, 0⟩, 0, rawDesc n 1, natLe 8 (0x40000 + 2 ^ 56 + 2 ^ 57) ++ natLe 8 0x1000, []⟩
/-- Task 1 runs and may write all of memory; its thread waits for the submission's answer. -/
def submitted (n : Nat) : State :=
  rigI .nop [] [] (fun s => { regions true s with subs := [aSub n] }) fun t => { t with out := [.await 4 0] }
theorem witness_TaskAcceptance (good : Bool) : let n := if good then 33 else 0
    FirstSub (submitted n) 0 (aSub n) ∧
      (if good then (submitted n).refusal 0 false .drawers (aSub n).raw (aSub n).regs (aSub n).tl = 0 ∧
          (submitted n).tkuRoom (regionsOf (aSub n).regs).length = true ∧
          ∃ e ∈ (submitted n).tasks, e.2.state.pending = true ∧ e.2.world = 0 ∧ e.2.desc.domain = (Desc.of (aSub n).raw).domain ∧
            ∃ a ∈ e.2.regions, ∃ c ∈ regionsOf (aSub n).regs, a.write = true ∧ a.base < c.base + c.size ∧ c.base < a.base + a.size
        else (submitted n).refusal 0 false .drawers (aSub n).raw (aSub n).regs (aSub n).tl ≠ 0) := by
  cases good
  · exact ⟨⟨rfl, fun j h => absurd h (Nat.not_lt_zero j)⟩, by decide⟩
  · refine ⟨⟨rfl, fun j h => absurd h (Nat.not_lt_zero j)⟩, ?_, ?_, ?_⟩
    · decide
    · decide
    · exact ⟨(1, { hostTask (.drawer 0 0 0) 0 with regions := [⟨0, 2 ^ 56, true, true⟩] }), by decide, by decide, by decide, by decide, by decide⟩

/-- A READY task of 33 threads. -/
def readyTask : Task :=
  { hostTask (.drawer 0 0 0) 0 with id := 7, state := .ready, desc := Desc.of (rawDesc 33 0), stw := none, regions := [] }
def oneReady : State := { State.reset with tasks := [(7, readyTask)] }
/-- An earlier task that only reads what the submission's task writes; and one of another domain. -/
theorem witness_TaskAcceptance_readers : let s := { submitted 33 with tasks := [(1, { hostTask (.drawer 0 0 0) 0 with regions := [⟨0, 2 ^ 56, true, false⟩] })] }
    ∃ e ∈ s.tasks, e.2.state.pending = true ∧ (∃ a ∈ e.2.regions, ∃ c ∈ regionsOf (aSub 33).regs, a.read = true ∧ c.write = true ∧
      a.base < c.base + c.size ∧ c.base < a.base + a.size) ∧ ∀ a ∈ e.2.regions, a.write = false :=
  ⟨(1, { hostTask (.drawer 0 0 0) 0 with regions := [⟨0, 2 ^ 56, true, false⟩] }), by decide, by decide, by decide, by decide⟩
theorem witness_TaskDispatch : oneReady.task? 7 = some readyTask ∧ readyTask.id = 7 ∧ readyTask.state = .ready ∧
    (oneReady.world readyTask.world).stopped = false ∧ oneReady.placesOk readyTask [.drawer 0 0 0, .drawer 0 1 0] = true ∧ oneReady.olderReady 7 = [] ∧ oneReady.copying 7 = false ∧
    readyTask.stw = none ∧ (oneReady.tasks.length = 1) := by decide

/-- A task whose version holds one byte, in state `st`. -/
def vtask (st : TState) (pinned held : Bool) : Task :=
  { hostTask (.drawer 0 0 0) 0 with state := st, pinned := pinned, commitHeld := held, ver := [(0x30000, 5)] }
def vstate (st : TState) (pinned held : Bool) (bs : List Bench := []) : State :=
  { State.reset with tasks := [(1, vtask st pinned held)], benches := bs }
def phasing : Bench := bnch (.drawer 0 0 0) [(0, thr [] fun t => { t with wait := .phase })]
theorem commitReady (st : TState) (p h : Bool) (bs : List Bench) : CommitReady (vstate st p h bs) 1 (vtask st p h) :=
  ⟨⟨rfl, rfl, rfl⟩, rfl, rfl, rfl, (fun _ h => nomatch h), (fun _ h => nomatch h)⟩
theorem witness_Commits_end : CommitReady (vstate .committing false false) 1 (vtask .committing false false) ∧
    (vstate .committing false false).mayCommit 1 (vtask .committing false false) = true ∧ (vstate .committing false false).engineFault 1 = none ∧
    (vtask .committing false false).desc.done = 0 := ⟨commitReady _ _ _ _, by decide, by decide, by decide⟩
theorem witness_Commits_phase (p : Bool) : CommitReady (vstate .running p false [phasing]) 1 (vtask .running p false) ∧
    (vtask .running p false).commitHeld = false ∧ (vstate .running p false [phasing]).allPhase 1 = true ∧ (vtask .running p false).pinned = p ∧
    (vstate .running p false [phasing]).mayCommit 1 (vtask .running p false) = true ∧ (vstate .running p false [phasing]).engineFault 1 = none ∧
    (∀ x ∈ (vstate .running p false [phasing]).benches, x.task = 1 → x.stopped = none) := by
  cases p <;> exact ⟨commitReady _ _ _ _, by decide, by decide, by decide, by decide, by decide, by decide⟩
theorem witness_Commits_held : CommitReady (vstate .stopped false true) 1 (vtask .stopped false true) ∧ (vtask .stopped false true).commitHeld = true ∧
    (vstate .stopped false true).allPhase 1 = false ∧ (vtask .stopped false true).desc.done = 0 := ⟨commitReady _ _ _ _, by decide, by decide, by decide⟩
/-- Task 1, and task 2 that depends on it, task 3 on task 2, and task 4 on neither. -/
def chain (st : TState) : State :=
  let dep (d : List Nat) : Task := { vtask .submitted false false with deps := d }
  { vstate st false false with tasks := [(1, vtask st false false), (2, dep [1]), (3, dep [2]), (4, dep [])] }
theorem witness_TaskService (st : TState) (h : st = .discarded ∨ st = .stopped) : let s := chain st
    s.task? 1 = some (vtask st false false) ∧ (∀ q ∈ s.queues, ∀ o ∈ q.2.ops, o.who.task = 1 → o.prog.rows = []) ∧
      (∀ a ∈ s.asqs, ∀ r ∈ a.2.runs, r.who.task = 1 → r.gath = []) ∧
      (vtask st false false).state ∈ [TState.submitted, .ready, .stopped, .saved, .discarded] ∧ s.lates = [] ∧ mrising s.tasks = true ∧
      (mget [] s.evq ((s.ctlReg 0x58).toNat % 16)).length + s.tasks.length ≤ 1024 ∧ (vtask st false false).pinned = false ∧
      Downstream s 1 2 ∧ Downstream s 1 3 ∧ ¬ Downstream s 1 4 := by
  have d2 : Downstream (chain st) 1 2 := .direct 2 { vtask .submitted false false with deps := [1] } (by simp [chain]) (.inl rfl) (by simp)
  have d3 : Downstream (chain st) 1 3 := .through 2 3 { vtask .submitted false false with deps := [2] } d2 (by simp [chain]) (.inl rfl) (by simp)
  have d4 : ¬ Downstream (chain st) 1 4 := by
    have none4 : ∀ x : Task, (4, x) ∈ (chain st).tasks → x.deps = [] := by
      intro x hx
      simp [chain] at hx
      rw [hx]
    intro h4
    cases h4 with
    | direct _ x hm _ hd => rw [none4 x hm] at hd; cases hd
    | through i _ x _ hm _ hd => rw [none4 x hm] at hd; cases hd
  rcases h with rfl | rfl <;> exact ⟨by decide, by decide, by decide, by decide, by decide, by decide, by decide, by decide, d2, d3, d4⟩

/-- A task-unit queue of world 0 whose header is at 0x50000 and ring at 0x51000, with one stamped slot of a descriptor of `n` threads. -/
def tuQueue : BQueue := { BQueue.init (.mem 3) 0 0 with eng := true, hdr := 0x50000, ring := 0x51000, cring := 0x52000, log2n := 4 }
def tuState (n : Nat) : State :=
  let s := (rigI .nop).pokeBytes 0x50000 (natLe 8 1)
  { s.pokeBytes 0x51000 ((rawDesc n 0).take 56 ++ natLe 8 1) with queues := [(qKey (.mem 3), tuQueue)] }
theorem witness_TaskQueueSlots (good : Bool) : let n := if good then 33 else 0
    let s := tuState n
    ∃ s1 raw, s.queue (.mem 3) = some tuQueue ∧ tuQueue.eng = true ∧ tuQueue.closed = false ∧ (s.world tuQueue.world).stopped = false ∧
      s.readySlot tuQueue 208 = (s1, some raw) ∧ (Desc.of raw).nreg = 0 ∧ (Desc.of raw).tltab = 0 ∧
      (if good then s1.refusal 0 true (targetOf 0 true 0) raw [] [] = 0 ∧ s1.tkuRoom 0 = true
        else s1.refusal 0 true (targetOf 0 true 0) raw [] [] ≠ 0) := by
  cases good
  · exact ⟨_, (rawDesc 0 0).take 56 ++ natLe 8 1, by decide +kernel, by decide +kernel, by decide +kernel, by decide +kernel, pair_of (by decide +kernel), by decide +kernel, by decide +kernel, by decide +kernel⟩
  · exact ⟨_, (rawDesc 33 0).take 56 ++ natLe 8 1, by decide +kernel, by decide +kernel, by decide +kernel, by decide +kernel, pair_of (by decide +kernel), by decide +kernel, by decide +kernel,
      by decide +kernel, by decide +kernel⟩

/-! Events of benches. -/

def p0 : Place := .drawer 0 0 0
/-- A bench with the threads and flags that a clause needs. -/
def benchState (f : Bench → Bench) (h : Thread → Thread := id) (k : State → State := id) : State :=
  k { vstate .running false false with benches := [f (bnch p0 [(0, thr [] h)])] }
theorem witness_BenchEvents_result : let s := benchState id fun t => { t with out := [.vec 3 7] }
    ∃ b t, s.bench? p0 = some b ∧ mget? b.threads 0 = some t ∧ t.out[0]? = some (.vec 3 7) ∧ (Pend.vec 3 7).isHeld = false :=
  ⟨bnch p0 [(0, thr [] fun t => { t with out := [.vec 3 7] })], thr [] fun t => { t with out := [.vec 3 7] }, by decide, by decide, by decide, by decide⟩
theorem witness_BenchEvents_admit : let s := benchState fun b => { b with active := false }
    (∃ b, s.bench? p0 = some b) ∧ drawerOf p0 = some 0 ∧ (∀ x ∈ s.benches, x.active = true → x.leaves = false) ∧ (∃ x ∈ s.candidates 0, x.place = p0) :=
  ⟨⟨_, rfl⟩, by decide, by decide, by decide⟩
theorem witness_BenchEvents_watchdog : let s := benchState id id fun s => { s with cycle := 2 ^ 31 }
    ∃ b k, s.bench? p0 = some b ∧ b.threads.find? (fun e => e.2.live) = some (0, thr []) ∧ s.task? b.task = some k ∧ k.state = .running ∧
      b.stopped = none ∧ (s.ctlReg 0x80).toNat ≠ 0 ∧ (s.ctlReg 0x80).toNat ≤ s.cycle - b.lastIssue ∧ ∀ x ∈ s.lates, x.task ≠ b.task :=
  ⟨bnch p0 [(0, thr [])], vtask .running false false, by decide, by decide, by decide, by decide, by decide, by decide, by decide, by decide⟩
theorem witness_BenchEvents_check (good : Bool) : let s := benchState id id fun s => { s with checks := [⟨3, 1, 0, none, good⟩] }
    (∃ b, s.bench? p0 = some b) ∧ ∃ c, s.checks[0]? = some c ∧ c.good = good := by
  cases good <;> exact ⟨⟨_, rfl⟩, _, rfl, rfl⟩
theorem witness_BenchEvents_wake : let s := benchState id fun t => { t with wait := .mwait }
    ∃ b t, s.bench? p0 = some b ∧ mget? b.threads 0 = some t := ⟨_, _, rfl, rfl⟩
theorem witness_BenchEvents_resume : let s := { benchState fun b => { b with stopped := some .halt } with tasks := [(1, vtask .stopped true false)] }
    ∃ b k, s.bench? p0 = some b ∧ b.stopped ≠ none ∧ s.task? b.task = some k ∧ k.state = .stopped ∧ k.commitHeld = false ∧
      (∀ x ∈ s.benches ++ s.saved, x.task = b.task → x.place ≠ p0 → x.stopped = none) ∧ (∀ x ∈ s.saved, x.place ≠ p0) ∧
      s.benches.countP (fun x => x.place = p0) = 1 ∧ (∃ e ∈ b.threads, e.2.live = true) ∧ isAp p0 = false :=
  ⟨{ bnch p0 [(0, thr [])] with stopped := some .halt }, vtask .stopped true false, by decide, by decide, by decide, by decide, by decide, by decide,
    by decide, by decide, ⟨(0, thr []), by decide, by decide⟩, by decide⟩
theorem witness_BenchRestore (st : TState) (h : st = .saved ∨ st = .stopped) :
    let b : Bench := { bnch (.drawer 0 0 0) [(0, thr [] fun t => { t with wait := .mwait })] with stopped := if st = .saved then none else some .halt, lastIssue := 40 }
    let s := { vstate st false false with saved := [b] }
    ∃ k, s.saved.find? (fun x => x.place = p0) = some b ∧ s.bench? p0 = none ∧ s.vacated.contains (coreIx p0) = false ∧
      (∀ m ∈ s.msaves, m.task ≠ b.task) ∧ s.task? b.task = some k ∧ k.state = st ∧ (k.state = .saved ∨ k.state = .stopped) := by
  rcases h with rfl | rfl
  · exact ⟨vtask .saved false false, by decide⟩
  · exact ⟨vtask .stopped false false, by decide⟩

end Sys2Proof.Tests
end

