-- ==== Sys2Proof/Tests/WitnessD.lean ====
section
/-! SUPPORT. For each statement about matrix units and the block-transfer engine, a concrete state and operands that meet its premises. -/

namespace Sys2Proof.Tests

set_option Elab.async false

open Sys2Proof Sys2Proof.Machine

theorem ok_of {ε α : Type} {e : Except ε α} (h : e.isOk = true) : ∃ x, e = .ok x := by
  cases e with
  | ok x => exact ⟨x, rfl⟩
  | error _ => cases h

/-! Matrix units: drawer 0 of core 0. -/

def mxc (k : MxKind) : MxCmd :=
  { num := 1, kind := k, who := ⟨1, 0, some p0, 0, 0, 0, none, none⟩, t := 0, m := 8, b := 1, ofs := 0, ovr := 0, str := 64, w := 0, ctl := 0,
    tofs := 0, fold := .none, tgt := (0, 0, 0), row := none }
def claimed (q : List MxCmd) (s : State) : State := s.updMxu 0 fun m => { m with queue := q, claim := some 1, asn := q.length }

/-- The premises of a matrix command, without the room in the queue. -/
def MxMet (s : State) (i : Instr) : Prop := ∃ w s1 sl fold, Alone s (gOf s) (bOf s) 0 (tOf s) ∧ (gOf s).place = .drawer 0 0 0 ∧ mxWord i = some w ∧
  Passes (bOf s) (gOf s) w.regs [] ∧ mxCheck (s.spadSize 0 (bOf s).world) 0 w.kind w.m w.b (w.vals (bOf s) (tOf s)) = none ∧
  SlotIs s (gOf s) (bOf s) (w.ctl (w.vals (bOf s) (tOf s))) sl ∧
  FoldIs (s.opened (gOf s) (bOf s)) ((bOf s).noted (gOf s)) w (w.vals (bOf s) (tOf s)) s1 fold
def openedOf (s : State) : State := s.opened (gOf s) (bOf s)
theorem witness_MatrixCommands_room : let s := rigI (.mldw 0#3 2#7 4#7) [] [(2, 0), (3, 0), (4, 0)] withSpad
    MxMet s (.mldw 0#3 2#7 4#7) ∧ (s.mxu 0).fault = none ∧ (s.mxu 0).claim = none ∧ s.unchecked (bOf s).task = false ∧ s.vacated.contains 0 = false ∧ ((s.mxu 0).queue.filter fun c => c.kind ≠ .row).length < 16 := by
  refine ⟨⟨_, openedOf (rigI (.mldw 0#3 2#7 4#7) [] [(2, 0), (3, 0), (4, 0)] withSpad), none, .none, alone_of (by decide), by decide, rfl, passes_of (by decide), by decide, ?_, ?_⟩, by decide, by decide, by decide, by decide, by decide⟩
  · unfold SlotIs; rw [if_neg (by decide)]
  · unfold FoldIs; rw [if_neg (by decide)]; exact ⟨rfl, rfl⟩
/-- The task has slot 6 of core 0. -/
def taskSlot (s : State) : State := { withSpad s with tasks := [(1, { hostTask p0 0 with coreSlots := [(0, [6])] })] }
theorem witness_MatrixCommands_drain : let s := rigI (.mdrain 0#2 0#2 2#7 4#7) [] [(2, 0), (3, 256), (4, 0x80006007), (6, 0x100)] taskSlot
    MxMet s (.mdrain 0#2 0#2 2#7 4#7) ∧ (s.mxu 0).fault = none ∧ (s.mxu 0).claim = none ∧ s.unchecked (bOf s).task = false ∧ s.vacated.contains 0 = false ∧ ((s.mxu 0).queue.filter fun c => c.kind ≠ .row).length < 16 := by
  refine ⟨⟨_, openedOf (rigI (.mdrain 0#2 0#2 2#7 4#7) [] [(2, 0), (3, 256), (4, 0x80006007), (6, 0x100)] taskSlot), some 6, .spad 0x100, alone_of (by decide), by decide, rfl, passes_of (by decide), by decide, ?_, ?_⟩, by decide, by decide, by decide, by decide, by decide⟩
  · unfold SlotIs; rw [if_pos (by decide)]; exact ⟨6, rfl, rfl⟩
  · unfold FoldIs; rw [if_pos (by decide), if_pos (by decide)]; exact ⟨rfl, rfl⟩
theorem witness_MatrixCommands_full : let s := rigI (.mzero 0#2 0#2) [] [] (claimed (List.replicate 16 (mxc .zero)))
    MxMet s (.mzero 0#2 0#2) ∧ (s.mxu 0).fault = none ∧ (s.mxu 0).claim = some (bOf s).task ∧ 16 ≤ ((s.mxu 0).queue.filter fun c => c.kind ≠ .row).length := by
  refine ⟨⟨_, openedOf (rigI (.mzero 0#2 0#2) [] [] (claimed (List.replicate 16 (mxc .zero)))), none, .none, alone_of (by decide), by decide, rfl, passes_of (by decide), by decide, ?_, ?_⟩, by decide, by decide, by decide⟩
  · unfold SlotIs; rw [if_neg (by decide)]
  · unfold FoldIs; rw [if_neg (by decide)]; exact ⟨rfl, rfl⟩
/-- Task 7 holds the unit. -/
def otherClaim (s : State) : State := s.updMxu 0 fun m => { m with claim := some 7 }
theorem witness_MatrixCommands_claimed : let s := rigI (.mzero 0#2 0#2) [] [] otherClaim
    MxMet s (.mzero 0#2 0#2) ∧ (s.mxu 0).claim = some 7 ∧ 7 ≠ (bOf s).task := by
  refine ⟨⟨_, openedOf (rigI (.mzero 0#2 0#2) [] [] otherClaim), none, .none, alone_of (by decide), by decide, rfl, passes_of (by decide), by decide, ?_, ?_⟩,
    by decide, by decide⟩
  · unfold SlotIs; rw [if_neg (by decide)]
  · unfold FoldIs; rw [if_neg (by decide)]; exact ⟨rfl, rfl⟩
/-- The unit holds a fault record of command 1, which task 1 gave. -/
def faulted (s : State) : State := withHandler ((claimed [] s).updMxu 0 fun m => { m with fault := some ⟨.tag, 1, 0x40, 1⟩ })
theorem witness_MatrixCommands_fault : let s := rigI (.mzero 0#2 0#2) [] [] faulted
    MxMet s (.mzero 0#2 0#2) ∧ (s.mxu 0).claim = some (bOf s).task ∧ (s.mxu 0).fault = some ⟨.tag, 1, 0x40, 1⟩ ∧ Cause.tag.disp (pinnedOf s (bOf s)) = .h ∧
      HandlerReady s (bOf s) (tOf s) := by
  refine ⟨⟨_, openedOf (rigI (.mzero 0#2 0#2) [] [] faulted), none, .none, alone_of (by decide), by decide, rfl, passes_of (by decide), by decide, ?_, ?_⟩,
    by decide, by decide, by decide, by unfold HandlerReady; decide⟩
  · unfold SlotIs; rw [if_neg (by decide)]
  · unfold FoldIs; rw [if_neg (by decide)]; exact ⟨rfl, rfl⟩
theorem witness_MatrixCommands_refused : (0x698C8000 : Word).toNat / 2 ^ 27 % 16 = 13 ∧ (0x698C8000 : Word).toNat / 2 ^ 21 % 64 = 12 ∧
    ((0x698E0000 : Word).toNat / 2 ^ 17 % 2 = 1 ∧ (0x698E0000 : Word).toNat / 2 ^ 14 % 8 = 0) ∧ 4 ≤ (0x69910000 : Word).toNat / 2 ^ 14 % 8 := by decide
theorem witness_MatrixStatus : let s := rigI (.mstat 1#2 true 3#3 2#7) [] [] (claimed [])
    Alone s (gOf s) (bOf s) 0 (tOf s) ∧ (gOf s).place = .drawer 0 0 0 ∧ Passes (bOf s) (gOf s) [wU 2#7 2] [] ∧ (s.mxu 0).claim = some (bOf s).task ∧
      (3#3).toNat < 4 ∧ (true = true → (3#3 : BitVec 3) ≠ 0) ∧ mrising (s.mxu 0).data.flags = true :=
  ⟨alone_of (by decide), by decide, passes_of (by decide), by decide, by decide, by decide, by decide⟩

def mxState (c : MxCmd) : State := claimed [c] (withSpad (vstate .running false false))
theorem mxReady (k : MxKind) (h : k = .zero ∨ k = .ldw) : MxReady (mxState (mxc k)) 0 0 (mxc k) [] := by
  rcases h with rfl | rfl <;> exact ⟨by decide, by decide, by decide, by decide, rfl, rfl, by decide⟩
theorem witness_MatrixExecution (k : MxKind) (h : k = .zero ∨ k = .ldw) : MxReady (mxState (mxc k)) 0 0 (mxc k) [] ∧
    MxCanonical ((mxState (mxc k)).mxu (8 * 0 + 0)).data ∧ ((mxState (mxc k)).core 0).fresh = [] ∧ (mxc k).kind = k ∧ (mxc k).m ≤ 64 :=
  ⟨mxReady k h, by rcases h with rfl | rfl <;> (unfold MxCanonical; decide), by rcases h with rfl | rfl <;> decide, by rfl, by simp [mxc]⟩
theorem witness_MatrixExecution_waits : let s := (mxState (mxc .ldw)).addPres 0 0 5 true
    (s.mxu (8 * 0 + 0)).queue = [mxc .ldw] ∧ (mxc .ldw).kind ≠ .drainP ∧ ∃ k ∈ (mxc .ldw).touches, s.pres 0 (mxc .ldw).who.world k ≠ 0 :=
  ⟨by decide, by decide, 5, by decide, by decide⟩

/-- What every clause on a command's effects asks of it. -/
def MxMeets (s : State) (c : MxCmd) : Prop := MxReady s 0 0 c [] ∧ MxCanonical (s.mxu (8 * 0 + 0)).data ∧ (s.core 0).fresh = [] ∧ c.t < 4 ∧ c.m ≤ 64 ∧
  c.ofs % 64 = 0 ∧ c.str % 64 = 0 ∧ c.w % 64 = 0
theorem meets_of {s : State} {c : MxCmd} (h : decide ((s.mxu (8 * 0 + 0)).queue = [c] ∧ (s.mxu (8 * 0 + 0)).held = false ∧
    (∀ k ∈ c.touches, s.pres 0 c.who.world k = 0) ∧ c.fold = .none ∧ c.who.slot = none ∧ mrising s.mxus = true ∧
    (mrising (s.mxu (8 * 0 + 0)).data.tiles = true ∧ mrising (s.mxu (8 * 0 + 0)).data.units = true ∧ mrising (s.mxu (8 * 0 + 0)).data.flags = true) ∧
    (s.core 0).fresh = [] ∧ c.t < 4 ∧ c.m ≤ 64 ∧ c.ofs % 64 = 0 ∧ c.str % 64 = 0 ∧ c.w % 64 = 0) = true) : MxMeets s c := by
  have ⟨h1, h2, h3, h4, h5, h6, h7, h8⟩ := of_decide_eq_true h
  exact ⟨⟨by decide, h1, h2, h3, h4, h5, h6⟩, h7, h8⟩
/-- The unit holds INT8 weights and 64 poisoned records; the operand blocks take the tag `ovr`, where it is not 0. -/
def landCmd (k : MxKind) (ovr : Nat) : MxCmd := { mxc k with ovr := ovr }
def landState (k : MxKind) (ovr : Nat) : State := (mxState (landCmd k ovr)).updMxu 0 fun m => { m with data := { m.data with
  units := (upto 64).map fun i => (i, (List.replicate 64 0, 0x017F)), recs := (upto 64).map fun j => ⟨96 * j, upto 64, [], 127, true⟩ } }
theorem witness_MatrixResults_lands (k : MxKind) (h : k = .mma ∨ k = .mmad ∨ k = .reds ∨ k = .scan) : let s := landState k 0x017F
    let c := landCmd k 0x017F
    MxMeets s c ∧ (∀ b ∈ mxReads s 0 0 c .c8, b.psn = true ∨ b.cls = some .c8) ∧
      ∀ j < 64 * c.b, ((s.mxu (8 * 0 + 0)).data.recs.find? fun r => r.pos = c.w + 96 * j).isSome = true := by
  rcases h with rfl | rfl | rfl | rfl <;> exact ⟨meets_of (by decide +kernel), by decide +kernel, by decide +kernel⟩
theorem witness_MatrixResults_scan16 : let s := landState .scan 0x057F
    let c := landCmd .scan 0x057F
    MxMeets s c ∧ (∀ b ∈ mxReads s 0 0 c .c16, b.psn = true ∨ b.cls = some .c16) ∧ (∃ b ∈ mxReads s 0 0 c .c16, b.psn = false) ∧
      (∃ m < c.m, (aBlock s 0 c m 0).psn = false) ∧ ∀ m < c.m, s.pres 0 c.who.world ((c.ofs + m * c.str) / 64 + 1) = 0 :=
  ⟨meets_of (by decide +kernel), by decide +kernel, ⟨aBlock (landState .scan 0x057F) 0 (landCmd .scan 0x057F) 0 0, List.mem_flatMap.mpr ⟨0, by decide,
    List.mem_map.mpr ⟨0, by decide, rfl⟩⟩, by decide +kernel⟩, ⟨0, by decide, by decide +kernel⟩, by decide +kernel⟩
/-- Blocks without a class make the fault record, and so do blocks of two classes. -/
theorem witness_MatrixResults_fault (two : Bool) : let ovr := if two then 0x057F else 0
    let s := landState .mma ovr
    let c := landCmd .mma ovr
    MxMeets s c ∧ (s.mxu (8 * 0 + 0)).fault = none ∧ c.who.run = none ∧ (s.mxu (8 * 0 + 0)).claim = some c.who.task ∧ s.holdsClaim c.who.task = true ∧
      ((∃ b ∈ mxReads s 0 0 c .c8, b.psn = false ∧ b.cls = none) ∨
        ∃ b ∈ mxReads s 0 0 c .c8, ∃ b' ∈ mxReads s 0 0 c .c8, b.psn = false ∧ b'.psn = false ∧ b.cls ≠ b'.cls) := by
  have a (ovr : Nat) : aBlock (landState .mma ovr) 0 (landCmd .mma ovr) 0 0 ∈ mxReads (landState .mma ovr) 0 0 (landCmd .mma ovr) .c8 :=
    List.mem_append_left _ (List.mem_flatMap.mpr ⟨0, (by decide : 0 ∈ upto 8), List.mem_map.mpr ⟨0, (by decide : 0 ∈ upto 1), rfl⟩⟩)
  have w (ovr : Nat) : weightUnit ((landState .mma ovr).mxu (8 * 0 + 0)).data (landCmd .mma ovr) 0 0 ∈
      mxReads (landState .mma ovr) 0 0 (landCmd .mma ovr) .c8 :=
    List.mem_append_right _ (List.mem_flatMap.mpr ⟨0, (by decide : 0 ∈ upto 1), List.mem_map.mpr ⟨0, (by decide : 0 ∈ upto 64), rfl⟩⟩)
  cases two
  · exact ⟨meets_of (by decide +kernel), by decide, by decide, by decide, by decide, .inl ⟨_, a 0, by decide +kernel⟩⟩
  · exact ⟨meets_of (by decide +kernel), by decide, by decide, by decide, by decide, .inr ⟨_, a 0x057F, _, w 0x057F, by decide +kernel⟩⟩
/-- A scratchpad of one bank. -/
def oneBank (s : State) : State := s.updCore 0 fun c => { c with banks := ⟨0, .spad⟩ :: (c.banks.drop 2).map fun b => { b with mode := .cache } }
/-- One record that is valid, in blocks 0 and 1, before poisoned ones: the identity permutation, BASE 0, all differences 0. -/
def oneRecord : List Byte := natLe 48 (sumNat ((upto 64).map fun p => 64 ^ p * p)) ++ List.replicate 48 0
def recState : State := (oneBank (mxState (mxc .ldwd))).updCore 0 fun c => { c with stags := (upto 96).map (fun i => (i, if i < 2 then 0x107F else 0x10FF)), spad := ((upto 12).map fun i => (i, BitVec.ofNat 32 (leNat ((oneRecord.drop (4 * i)).take 4)))).filter fun e => e.2 ≠ 0 }
theorem oneRecord_valid : OdfValid oneRecord :=
  ⟨by decide +kernel, by decide +kernel, by decide +kernel, by decide +kernel, by decide +kernel⟩
theorem witness_MatrixResults_records : let s := recState
    let c := mxc .ldwd
    let rec_ (r : Nat) : List Byte := (upto 96).map fun k => seenByte s 0 c.who.world c.who.key c.who.task (c.ofs + (96 * r + k) / 64 * 64) ((96 * r + k) % 64)
    let first (r : Nat) : OBlk := readBlock s 0 c (c.ofs + 96 * r / 64 * 64)
    let last (r : Nat) : OBlk := readBlock s 0 c (c.ofs + (96 * r + 95) / 64 * 64)
    MxMeets s c ∧ ∀ r < 64 * c.b, ((first r).psn = true ∨ (first r).tag / 256 = 0x10) ∧ ((last r).psn = true ∨ (last r).tag / 256 = 0x10) ∧
      (((first r).psn = true ∨ (last r).psn = true) ∨ OdfValid (rec_ r)) := by
  intro s c rec_ first last
  have h0 : rec_ 0 = oneRecord := by decide +kernel
  have hp : ∀ r < 64, ((first r).psn = true ∨ (first r).tag / 256 = 0x10) ∧ ((last r).psn = true ∨ (last r).tag / 256 = 0x10) ∧
      (r = 0 ∨ (first r).psn = true ∨ (last r).psn = true) := by decide +kernel
  refine ⟨meets_of (by decide +kernel), fun r hr => ⟨(hp r hr).1, (hp r hr).2.1, ?_⟩⟩
  rcases (hp r hr).2.2 with rfl | h
  · exact .inr (h0 ▸ oneRecord_valid)
  · exact .inl h
/-- Spilled elements whose blocks carry format 0x11. -/
def spilled : State := (mxState (mxc .ldz)).updCore 0 fun c => { c with stags := (upto 128).map fun i => (i, 0x117F) }
theorem witness_MatrixResults_ldz : let s := spilled
    let c := mxc .ldz
    MxMeets s c ∧ ∀ m < c.m, ∀ n < 64, (readBlock s 0 c (c.ofs + 1024 * m + 64 * (n / 4))).psn = true ∨
      ((readBlock s 0 c (c.ofs + 1024 * m + 64 * (n / 4))).tag / 256 = 0x11 ∧
        (nth 0 ((readBlock s 0 c (c.ofs + 1024 * m + 64 * (n / 4))).bs.drop (16 * (n % 4))) 12).toNat ≤ 3) :=
  ⟨meets_of (by decide +kernel), by decide +kernel⟩
/-- In a scratchpad of one bank the words of the blocks of a command stand apart. -/
theorem spread_of {s : State} {c : MxCmd} (h : decide ((s.core 0).banksOf c.who.world .spad = [0] ∧ c.touches.Nodup) = true) : Spread s 0 c := by
  have ⟨h1, h2⟩ := of_decide_eq_true h
  have loc (x : Nat) : s.spadLoc 0 c.who.world c.who.key x = x / 4 := by
    simp [State.spadLoc, h1, locate, nth, Nat.mod_one]
  refine ⟨h2, fun b _ b' _ i hi i' hi' e => ?_⟩
  rw [loc, loc] at e
  omega
def storeCmd (k : MxKind) : MxCmd := if k = .stz then mxc .stz else { mxc k with m := 64, ctl := 1, tofs := 0x4000 }
theorem witness_MatrixResults_stores (k : MxKind) (h : k = .stz ∨ k = .drain ∨ k = .drainT) : let s := oneBank (mxState (storeCmd k))
    let c := storeCmd k
    MxMeets s c ∧ Spread s 0 c ∧ (k = .drainT → c.m = 64 ∧ (drainElem c.ctl).count = 64 ∧ c.tofs % 64 = 0) ∧ bits c.ctl.toNat 23 16 < 255 ∧
      2 ≤ (drainElem c.ctl).bits / 4 := by
  rcases h with rfl | rfl | rfl <;> exact ⟨meets_of (by decide +kernel), spread_of (by decide +kernel), by decide, by decide, by decide⟩

/-- A peer drain to core 1's drawer 0, and a row on its way there. -/
def drainCmd : MxCmd := { mxc .drainP with tgt := (1, 0, 0), m := 2 }
def aRow (w : Nat) : PeerPkt := ⟨0, w, 0, 8, 0, 0, List.replicate 64 ⟨0, .fin⟩⟩
theorem witness_PeerDrains_sends : let s := mxState drainCmd
    (s.mxu (8 * 0 + 0)).queue = [drainCmd] ∧ (s.mxu (8 * 0 + 0)).held = false ∧ drainCmd.kind = .drainP ∧ mrising s.mxus = true ∧
      (s.mxu (8 * 0 + 0)).send = none := by decide
theorem witness_PeerDrains_rows (w : Nat) (h : w = 0 ∨ w = 5) : let s := { mxState drainCmd with pkts := [aRow w] }
    (s.mxu (8 * 0 + 0)).queue = [drainCmd] ∧ s.pkts[0]? = some (aRow w) ∧ (∀ q ∈ s.pkts.take 0, ¬ (q.src = (aRow w).src ∧ q.dst = (aRow w).dst)) ∧
      s.vacated.contains ((aRow w).dst / 8) = false ∧ ((mget Drawer.init s.drawers (aRow w).dst).world = (aRow w).world ↔ w = 0) ∧
      mget? (s.mxu (aRow w).dst).recv (aRow w).src = none ∧ ((s.mxu (aRow w).dst).queue.filter fun y => y.kind = .row).length < 64 := by
  rcases h with rfl | rfl <;> exact ⟨by decide, rfl, by decide, by decide, by decide, by decide, by decide⟩
def sending : State := (mxState drainCmd).updMxu 0 fun m => { m with send := some ⟨0, [0], []⟩ }
theorem witness_PeerDrains_acknowledged : let s := { sending with packs := [⟨0, 1, true⟩] }
    ∃ p, (s.mxu (8 * 0 + 0)).queue = [drainCmd] ∧ (s.mxu (8 * 0 + 0)).send = some p ∧ p.refused = [] ∧ p.acked.length + 1 = drainCmd.m ∧
      (1#32).toNat ∉ p.acked ∧ ((1#32).toNat + 2 ^ 32 - p.base) % 2 ^ 32 < drainCmd.m ∧
      s.packs.find? (fun a => a.dst = 8 * 0 + 0 && a.seq = (1#32).toNat) = some ⟨8 * 0 + 0, (1#32).toNat, true⟩ ∧ drainCmd.who.slot = none ∧
      bitAt drainCmd.ctl.toNat 15 = false := ⟨⟨0, [0], []⟩, by decide, by decide, by decide, by decide, by decide, by decide, by decide, by decide, by decide⟩
theorem witness_PeerDrains_resend : ∃ p, (sending.mxu (8 * 0 + 0)).queue = [drainCmd] ∧ (sending.mxu (8 * 0 + 0)).send = some p :=
  ⟨⟨0, [0], []⟩, by decide, by decide⟩

/-! The block-transfer engine. -/

/-- A layout record of `n` 64-byte rows of one space, from `base`; and ZERO and COPY packets of such layouts, which stand at 0x60000 and 0x60040. -/
def layoutWords (space base n : Nat) : List Word :=
  [BitVec.ofNat 32 base, 0, BitVec.ofNat 32 (2 * 2 ^ 8 + 2 ^ 16 + space), 0, 16, BitVec.ofNat 32 n, 1, 1, 64, 0, 0, 0, 0, 0, 0, 0]
def bytesOf (ws : List Word) : List Byte := ws.flatMap fun w => natLe 4 w.toNat
def packet (op : Nat) : List Word := [BitVec.ofNat 32 op, 0, 0x60000, 0, 0x60040, 0, 0, 0, 0, 0, 0, 0, 0, 0, 0, 0]
def packetRegs (op : Nat) : List (Nat × Nat) := ((upto 16).zip (packet op)).map fun e => (e.1 + 16, e.2.toNat)
def withLayout (s : State) : State := (withSpad s).pokeBytes 0x60040 (bytesOf (layoutWords 1 0x40 2))
theorem witness_TransferInstructions_bcopy : let s := rigI (.bcopy 4#7 16#7) [] (packetRegs 7) withLayout
    ∃ k s2 sw dw x, let pk := packetAt (bOf s) (tOf s) 16#7
      let who : Who := ⟨(bOf s).task, (bOf s).world, some (gOf s).place, (bOf s).spkey, (tOf s).srseed, if pkMode pk = 7 then fpcRm (tOf s).fpc else pkMode pk, none, none⟩
      Alone s (gOf s) (bOf s) 0 (tOf s) ∧ s.task? (bOf s).task = some k ∧ Passes (bOf s) (gOf s) [rU 16#7 16, wV 4#7 2] [] ∧
      pkCheck pk false false true = none ∧ LayoutsRead (s.opened (gOf s) (bOf s)) ((bOf s).noted (gOf s)) 0 pk s2 sw dw ∧
      layoutsCheck pk sw dw false false (s.spadSize 0 (bOf s).world) = none ∧ pkBd pk = false ∧
      folCmd pk who (s.spadSize 0 (bOf s).world) 0 = .ok none ∧ k.mayBcopy pk (Layout.of dw) = none ∧ s.queue (localQ (gOf s).place (bOf s).world) = some x ∧
      x.fault = none ∧ x.ops.length < 64 ∧ s.vacated.contains 0 = false ∧ s.unchecked (bOf s).task = false ∧ s.presFits 0 (bOf s).world (presRows (Layout.of dw) 0) = true := by
  refine ⟨hostTask (.drawer 0 0 0) 0, _, [], wordsOfBytes (bytesOf (layoutWords 1 0x40 2)), BQueue.init (.loc 0 0) 0 0, alone_of (by decide), by decide,
    passes_of (by decide), by decide, ⟨openedOf (rigI (.bcopy 4#7 16#7) [] (packetRegs 7) withLayout), [], bytesOf (layoutWords 1 0x40 2), by decide, rfl, by decide, ?_, pair_of (by decide +kernel)⟩,
    by decide +kernel, by decide, by decide, by decide, by decide, by decide, by decide, by decide, by decide, by decide +kernel⟩
  rw [if_pos (by decide)]; exact ⟨rfl, rfl⟩

/-- A ZERO of two scratchpad blocks, number 1 of core 0's local queue for world 0, and what it goes through. -/
def anOp (op : Nat) (space : Nat) (p : BProg) : BOp :=
  { n := 1, pk := packet op, src := if op = 7 then none else some (Layout.of (layoutWords space 0x40000 2)), dst := Layout.of (layoutWords space 0x80 2),
    who := ⟨1, 0, some p0, 0, 0, 0, none, none⟩, core := 0, keyS := 0, keyD := 0, snap := some 0, prog := p }
def lq : QId := .loc 0 0
def opQueue (o : BOp) : BQueue := { BQueue.init lq 0 0 with ops := [o], next := 2 }
def opState (o : BOp) (f : State → State := id) : State := f { withSpad (rigI .nop) with queues := [(qKey lq, opQueue o)] }
def pend0 : BProg := BProg.start [2, 3] none

/-- BCANCEL of number `n` of core 0's local queue, which holds operation `o`, its number 1. -/
def cancelState (n : Nat) (o : BOp) : State := rigI (.bcancel 4#7 2#7 5#7) [] [(2, n), (5, 0xFFF)] fun s => { s with queues := [(qKey lq, opQueue o)] }
def CancelMet (n : Nat) (o : BOp) (given : Bool) : Prop := let s := cancelState n o
  ∃ k x, Alone s (gOf s) (bOf s) 0 (tOf s) ∧ s.task? (bOf s).task = some k ∧ Passes (bOf s) (gOf s) [rU 2#7 2, rU 5#7 1, wV 4#7 1] [] ∧
    ((bOf s).u (tOf s) (5#7).toNat).toNat < 4096 ∧ s.selQueue (gOf s).place (bOf s).world ((bOf s).u (tOf s) (5#7).toNat).toNat = some (lq, x) ∧
    x.ops = [o] ∧ ((bOf s).u (tOf s) (2#7).toNat).toNat + 2 ^ 32 * ((bOf s).u (tOf s) ((2#7).toNat + 1)).toNat = n ∧
    ((0 < n ∧ (if x.eng then n ≤ x.cidx else n < x.next)) ↔ given = true)
theorem cancel_of {n : Nat} {o : BOp} {given : Bool} (h : aloneB (cancelState n o) = true) (hp : passesB (cancelState n o) [rU 2#7 2, rU 5#7 1, wV 4#7 1] [] = true)
    (h1 : decide (let s := cancelState n o
      s.task? (bOf s).task = some (hostTask (.drawer 0 0 0) 0) ∧ ((bOf s).u (tOf s) (5#7).toNat).toNat < 4096 ∧
      s.selQueue (gOf s).place (bOf s).world ((bOf s).u (tOf s) (5#7).toNat).toNat = some (lq, opQueue o) ∧ (opQueue o).ops = [o] ∧
      ((bOf s).u (tOf s) (2#7).toNat).toNat + 2 ^ 32 * ((bOf s).u (tOf s) ((2#7).toNat + 1)).toNat = n ∧
      ((0 < n ∧ (if (opQueue o).eng then n ≤ (opQueue o).cidx else n < (opQueue o).next)) ↔ given = true)) = true) : CancelMet n o given := by
  have ⟨a1, a2, a3, a4, a5, a6⟩ := of_decide_eq_true h1
  exact ⟨_, _, alone_of h, a1, passes_of hp, a2, a3, a4, a5, a6⟩
theorem witness_Cancel_unissued (n : Nat) (h : n = 0 ∨ n = 2) : CancelMet n (anOp 7 1 pend0) false := by
  rcases h with rfl | rfl <;> exact cancel_of (by decide) (by decide) (by decide)
/-- The first answers 1, being cancelled already; the second 1, having failed before; the third 0. -/
def overOp : BOp := anOp 7 1 { pend0 with state := .cancelled, comp := true }
def failedOp : BOp := anOp 7 1 { pend0 with state := .running, comp := true, rows := [], status := 2 }
theorem witness_Cancel_over : CancelMet 1 overOp true ∧ (∀ o ∈ [overOp], o.n = 1 → o.prog.state = .cancelled) ∧ CancelMet 1 failedOp true ∧
    [failedOp].find? (fun y => y.n = 1 && y.prog.state ≠ .cancelled) = some failedOp ∧ failedOp.prog.comp = true ∧ failedOp.prog.blocks = [] ∧
    failedOp.prog.status ≠ 0 :=
  ⟨cancel_of (by decide) (by decide) (by decide), by decide, cancel_of (by decide) (by decide) (by decide), by decide⟩
theorem witness_Cancel_pending : let o := anOp 7 1 pend0
    CancelMet 1 o true ∧ [o].find? (fun y => y.n = 1 && y.prog.state ≠ .cancelled) = some o ∧ o.prog.comp = false ∧
      ([o].filter fun z : BOp => z.n = 1) = [o] ∧ mwf 0 ((cancelState 1 o).core o.core).pres = true :=
  ⟨cancel_of (by decide) (by decide) (by decide), by decide⟩
theorem witness_QueueQuery : let s := rigI (.bqryQueue 4#7 5#7) [] [(5, 0x80000FFF)]
    ∃ q x, Alone s (gOf s) (bOf s) 0 (tOf s) ∧ Passes (bOf s) (gOf s) [rU 5#7 1, wV 4#7 2] [] ∧ bits ((bOf s).u (tOf s) (5#7).toNat).toNat 30 12 = 0 ∧
      s.selQueue (gOf s).place (bOf s).world (((bOf s).u (tOf s) (5#7).toNat).toNat % 4096) = some (q, x) :=
  ⟨lq, BQueue.init lq 0 0, alone_of (by decide), passes_of (by decide), by decide, by decide⟩

/-- An operation of a transform: its packet's first words, AUX, layouts in scratchpad, and the tags of the source's blocks from 0x1000. -/
structure Xform where
  op   : Nat
  fmt  : Nat := 0
  aux  : Nat := 0
  src  : Layout
  dst  : Layout
  tags : List Tag
/-- A layout in scratchpad of rows of `x0` elements of 2^`esz` bytes. -/
def rowsAt (base ndim esz : Nat) (ext : List Nat) (str : List Int) : Layout := ⟨base, 0, ndim, esz, 1, ext, str, 0, 0⟩
def Xform.bop (c : Xform) : BOp := { anOp c.op 1 pend0 with
  pk := [BitVec.ofNat 32 (c.op + 256 * c.fmt), 127, 0x60000, 0, 0x60040, 0, BitVec.ofNat 32 c.aux, 0, 0, 0, 0, 0, 0, 0, 0, 0], src := some c.src, dst := c.dst }
def Xform.state (c : Xform) : State := opState c.bop fun s => s.updCore 0 fun k => { k with stags := ((upto c.tags.length).zip c.tags).map fun e => (0x40 + e.1, e.2) }
def Xform.blk (c : Xform) (a : Nat) : List Byte × Tag := ((upto 64).map (seenByte c.state 0 0 0 1 a), c.state.spadTag 0 0 (a / 64))
/-- The premises of its start, but for those on the tags. -/
def Xform.Met (c : Xform) (i : Instr) : Prop := ∃ r x, transformRow lq 1 i = some r ∧ c.state.queue lq = some x ∧ c.state.op? lq 1 = some c.bop ∧
  r c.bop.pk = true ∧ x.mayStart c.bop = true ∧ c.state.mayRead c.bop.started = true ∧ pkLb c.bop.pk = false ∧ c.bop.prog.landed = 0 ∧
  c.bop.src = some c.src ∧ extentsOk c.bop.pk c.src c.dst = true ∧ alignBad c.bop.pk c.src c.dst = none ∧ Shaped c.src ∧ Shaped c.dst ∧
  ∀ a, SrcIs c.state c.bop c.src a (c.blk a)
theorem shaped_of {l : Layout} (h : (decide (l.esz ≤ 3) && (upto 4).all fun d => decide (d ≤ l.ndim) || decide (l.x d = 1)) = true) : Shaped l := by
  simp only [Bool.and_eq_true, decide_eq_true_eq, List.all_eq_true, Bool.or_eq_true] at h
  refine ⟨h.1, fun d hd hn => ?_⟩
  have hm : d ∈ upto 4 := by interval_cases d <;> decide
  exact (h.2 d hm).resolve_left (by omega)
theorem Xform.met {c : Xform} {i : Instr} {r : List Word → Bool} (h0 : transformRow lq 1 i = some r) (h1 : decide (c.state.queue lq = some (opQueue c.bop) ∧
    c.state.op? lq 1 = some c.bop ∧ r c.bop.pk = true ∧ (opQueue c.bop).mayStart c.bop = true ∧ c.state.mayRead c.bop.started = true ∧
    pkLb c.bop.pk = false ∧ c.bop.prog.landed = 0 ∧ c.bop.src = some c.src ∧ extentsOk c.bop.pk c.src c.dst = true ∧
    alignBad c.bop.pk c.src c.dst = none) = true) (h2 : Shaped c.src) (h3 : Shaped c.dst)
    (h4 : decide (c.src.space = 1 ∧ (c.state.core 0).fresh = [] ∧ (c.state.core 0).smarked = []) = true) : c.Met i := by
  have ⟨a1, a2, a3, a4, a5, a6, a7, a8, a9, a10⟩ := of_decide_eq_true h1
  have ⟨b1, b2, b3⟩ := of_decide_eq_true h4
  refine ⟨r, _, h0, a1, a2, a3, a4, a5, a6, a7, a8, a9, a10, h2, h3, fun a => ?_⟩
  have hm : c.state.spadMarked 0 0 a 64 = false := by simp [State.spadMarked, b3]
  simp only [SrcIs, b1]
  exact ⟨b2, .inr hm, rfl⟩
def xCopy : Xform := { op := 0, src := rowsAt 0x1000 0 0 [64, 1, 1, 1] [0, 0, 0], dst := rowsAt 0x2000 0 0 [64, 1, 1, 1] [0, 0, 0], tags := [0x017F] }
def xTranspose (t : Tag) : Xform := { op := 1, src := rowsAt 0x1000 1 2 [16, 16, 1, 1] [64, 0, 0], dst := rowsAt 0x2000 1 2 [16, 16, 1, 1] [64, 0, 0],
                                      tags := t :: List.replicate 15 0x077F }
def xQuant : Xform := { op := 2, fmt := 1, src := rowsAt 0x1000 0 2 [64, 1, 1, 1] [0, 0, 0], dst := rowsAt 0x2000 0 0 [64, 1, 1, 1] [0, 0, 0],
                        tags := List.replicate 4 0x077F }
def xDequant (four : Bool) : Xform := { op := 3, fmt := 7, src := rowsAt 0x1000 0 0 [64, 1, 1, 1] [0, 0, 0],
                                        dst := rowsAt 0x2000 0 2 [if four then 128 else 64, 1, 1, 1] [0, 0, 0], tags := [if four then 0x037F else 0x017F] }
def xSwizzle (f : Nat) : Xform := { op := 4, fmt := f, aux := 57, src := rowsAt 0x1000 1 0 [64, 2, 1, 1] [64, 0, 0],
                                    dst := rowsAt 0x2000 1 0 [64, 2, 1, 1] [128, 0, 0], tags := [0x017F, 0x017F] }
def xIm2col (t : Tag) : Xform := { op := 6, aux := 0x110101, src := rowsAt 0x1000 2 2 [16, 2, 2, 1] [64, 128, 0], dst := rowsAt 0x2000 1 2 [16, 4, 1, 1] [64, 0, 0],
                                   tags := [t, 0x077F, 0x077F, 0x077F] }
theorem witness_TransfersStart_copy : xCopy.Met (.copy lq 1) := Xform.met rfl (by decide +kernel) (shaped_of (by decide)) (shaped_of (by decide)) (by decide +kernel)
theorem witness_TransfersStart_transpose : (xTranspose 0x077F).Met (.transpose lq 1) ∧
    (∀ a ∈ (xTranspose 0x077F).src.elems, ((xTranspose 0x077F).blk (a / 64 * 64)).2 = 0x077F) ∧
    (xTranspose 0x057F).Met (.transpose lq 1) ∧ ∃ a ∈ (xTranspose 0x057F).src.elems, ∃ c ∈ (xTranspose 0x057F).src.elems,
      ((xTranspose 0x057F).blk (a / 64 * 64)).2 ≠ ((xTranspose 0x057F).blk (c / 64 * 64)).2 :=
  ⟨Xform.met rfl (by decide +kernel) (shaped_of (by decide)) (shaped_of (by decide)) (by decide +kernel), by decide +kernel,
    Xform.met rfl (by decide +kernel) (shaped_of (by decide)) (shaped_of (by decide)) (by decide +kernel), 0x1000, by decide +kernel, 0x1040, by decide +kernel, by decide +kernel⟩
theorem witness_TransfersStart_quant : xQuant.Met (.quant lq 1) ∧ elemOf (pkFmt xQuant.bop.pk) = some (.int 8 true) ∧ (Elem.int 8 true).bits ≤ 8 ∧
    Elem.fp32.bits = 8 * 2 ^ xQuant.src.esz ∧ ∀ a ∈ xQuant.src.elems, elemOf ((xQuant.blk (a / 64 * 64)).2.toNat / 256) = some .fp32 ∧
      (xQuant.blk (a / 64 * 64)).2.toNat % 256 ≠ 255 :=
  ⟨Xform.met rfl (by decide +kernel) (shaped_of (by decide)) (shaped_of (by decide)) (by decide +kernel), by decide, by decide, by decide, by decide +kernel⟩
theorem witness_TransfersStart_dequant (four : Bool) : let c := xDequant four
    let g : Elem := if four then .int 4 true else .int 8 true
    c.Met (.dequant lq 1) ∧ elemOf (pkFmt c.bop.pk) = some .fp32 ∧ ∀ a ∈ c.src.elems, elemOf ((c.blk (a / 64 * 64)).2.toNat / 256) = some g ∧
      sameFmt g g = true ∧ (c.blk (a / 64 * 64)).2.toNat % 256 ≠ 255 ∧
      (if g.bits = 4 then c.src.esz = 0 ∧ c.dst.count / c.src.count = 2 else g.bits = 8 * 2 ^ c.src.esz ∧ c.dst.count / c.src.count = 1) := by
  cases four <;> exact ⟨Xform.met rfl (by decide +kernel) (shaped_of (by decide)) (shaped_of (by decide)) (by decide +kernel), by decide, by decide +kernel⟩
theorem witness_TransfersStart_swizzle : (xSwizzle 0).Met (.swizzle lq 1) ∧ pkFmt (xSwizzle 0).bop.pk = 0 ∧ (xSwizzle 2).Met (.swizzle lq 1) ∧
    elemOf (pkFmt (xSwizzle 2).bop.pk) = some (.int 8 false) ∧ ∀ y ∈ (xSwizzle 2).src.blocks,
      elemOf (((xSwizzle 2).blk y).2.toNat / 256) = some (.int 8 true) ∧ ((xSwizzle 2).blk y).2.toNat % 256 ≠ 255 :=
  ⟨Xform.met rfl (by decide +kernel) (shaped_of (by decide)) (shaped_of (by decide)) (by decide +kernel), by decide,
    Xform.met rfl (by decide +kernel) (shaped_of (by decide)) (shaped_of (by decide)) (by decide +kernel), by decide, by decide +kernel⟩
theorem witness_TransfersStart_im2col : let inside (t : Tag) : List Nat := (upto (16 * 4)).filterMap fun e => imSource 0x110101 (xIm2col t).src (xIm2col t).dst e
    (xIm2col 0x077F).Met (.im2col lq 1) ∧ inside 0x077F ≠ [] ∧ (∀ a ∈ inside 0x077F, ((xIm2col 0x077F).blk (a / 64 * 64)).2 = 0x077F) ∧
      (xIm2col 0x057F).Met (.im2col lq 1) ∧ ∃ a ∈ inside 0x057F, ∃ c ∈ inside 0x057F,
        ((xIm2col 0x057F).blk (a / 64 * 64)).2 ≠ ((xIm2col 0x057F).blk (c / 64 * 64)).2 :=
  ⟨Xform.met rfl (by decide +kernel) (shaped_of (by decide)) (shaped_of (by decide)) (by decide +kernel), by decide +kernel, by decide +kernel,
    Xform.met rfl (by decide +kernel) (shaped_of (by decide)) (shaped_of (by decide)) (by decide +kernel), 0x1000, by decide +kernel, 0x1040, by decide +kernel, by decide +kernel⟩
/-- Row 1 of four is gathered for the index 1 that stands at 0x70000, through a translation at hand; row 9 of the other index is outside. -/
def xGather : Xform := { op := 5, aux := 0x70000, src := rowsAt 0x1000 1 0 [64, 4, 1, 1] [64, 0, 0], dst := rowsAt 0x2000 1 0 [64, 2, 1, 1] [64, 0, 0],
                         tags := List.replicate 4 0x017F }
def gatherState : State := ((xGather.state.pokeBytes 0x70000 (natLe 4 1 ++ natLe 4 9)).engAddr 0 0 .load 0x70000).1
theorem gather_hit : gatherState.engAddr 0 0 .load 0x70000 = (gatherState, .ok ⟨0x70000, 0x70000, 0, false⟩) := by decide +kernel
theorem witness_TransfersStart_gather : let o := xGather.bop
    let s := gatherState
    ∃ x, s.queue lq = some x ∧ s.op? lq 1 = some o ∧ x.mayStart o = true ∧ s.mayRead o.started = true ∧ o.src = some xGather.src ∧
      extentsOk o.pk xGather.src o.dst = true ∧ alignBad o.pk xGather.src o.dst = none ∧ pkD o.pk 6 = 0x70000 ∧
      SrcIs s o { o.dst with space := 0 } 0x70000 (s.blockAt 0 ⟨0x70000, 0x70000, 0, false⟩) ∧
      leNat ((s.blockAt 0 ⟨0x70000, 0x70000, 0, false⟩).1.take 4) = 1 ∧ leNat (((s.blockAt 0 ⟨0x70000, 0x70000, 0, false⟩).1.drop 4).take 4) = 9 ∧
      ∀ a, SrcIs s o xGather.src a ((upto 64).map (seenByte s 0 0 0 1 a), s.spadTag 0 0 (a / 64)) := by
  have hf : (gatherState.core 0).fresh = [] := by decide +kernel
  have hk : (gatherState.core 0).smarked = [] := by decide +kernel
  refine ⟨opQueue xGather.bop, by decide +kernel, by decide +kernel, by decide, by decide +kernel, rfl, by decide, by decide, by decide,
    ⟨_, gather_hit, by decide +kernel, by decide +kernel, rfl⟩, by decide +kernel, by decide +kernel, fun a => ?_⟩
  have hm : gatherState.spadMarked 0 0 a 64 = false := by simp [State.spadMarked, hk]
  exact ⟨hf, .inr hm, rfl⟩
theorem witness_TransfersStart (op : Nat) (h : op = 7 ∨ op = 8) : let o := anOp op (if op = 8 then 3 else 1) pend0
    let s := opState o
    ∃ i r x, transformRow lq 1 i = some r ∧ s.queue lq = some x ∧ s.op? lq 1 = some o ∧ r o.pk = true ∧
      x.mayStart o = true ∧ s.mayRead o.started = true ∧ pkLb o.pk = false ∧ o.prog.landed = 0 := by
  rcases h with rfl | rfl
  · exact ⟨.zero lq 1, _, opQueue (anOp 7 1 pend0), rfl, by decide, by decide, by decide, by decide, by decide, by decide, by decide⟩
  · exact ⟨.migrate lq 1, _, opQueue (anOp 8 3 pend0), rfl, by decide, by decide, by decide, by decide, by decide, by decide, by decide⟩
/-- An operation that may start but not read, and one that may neither. -/
theorem witness_TransfersStart_waits (second : Bool) : let o := { anOp 0 1 pend0 with prog := if second then { pend0 with state := .running } else pend0 }
    let s := (opState o).addPres 0 0 0x1000 true
    s.queue lq = some (opQueue o) ∧ s.op? lq 1 = some o ∧ (opQueue o).mayStart o = !second ∧ s.mayRead o.started = false ∧ s.mayRead o = false := by
  cases second <;> decide

def landing (bs : List BBlk) : BProg := { pend0 with state := .running, comp := true, blocks := bs }
def blk1 : BBlk := .data 0x80 (List.replicate 64 9) 0x077F
theorem witness_TransfersLand_scratchpad : let o := anOp 7 1 (landing [blk1])
    let s := opState o
    s.queue lq = some (opQueue o) ∧ s.op? lq 1 = some o ∧ o.prog.state = .running ∧ o.prog.comp = true ∧ o.prog.held = false ∧ pkAcc o.pk = false ∧
      0x80 % 64 = 0 ∧ o.prog.fol = none ∧ o.dst.space = 1 ∧ CoreCanonical (s.core o.core) ∧ Canonical s ∧ 0x80 + 64 ≤ s.spadSize o.core o.who.world :=
  ⟨by decide, by decide, by decide, by decide, by decide, by decide, by decide, by decide, by decide, by unfold CoreCanonical; decide,
    by unfold Canonical; decide, by decide⟩
/-- A reducing copy's block of FP32 values, over one of the same format. -/
def accOp : BOp := { anOp 0 1 (landing [.data 0x80 (List.replicate 64 0) 0x077F]) with pk := [BitVec.ofNat 32 (2 ^ 26), 0, 0x60000, 0, 0x60040, 0, 0, 0, 0, 0, 0, 0, 0, 0, 0, 0] }
def accState : State := opState accOp fun s => s.updCore 0 fun k => { k with stags := [(2, 0x077F)] }
theorem witness_TransfersLand_reducing : let o := accOp
    let s := accState
    s.queue lq = some (opQueue o) ∧ s.op? lq 1 = some o ∧ o.prog.state = .running ∧ o.prog.comp = true ∧ o.prog.held = false ∧ pkAcc o.pk = true ∧
      o.prog.fol = none ∧ o.dst.space = 1 ∧ CoreCanonical (s.core o.core) ∧ Canonical s ∧ 0x80 + 64 ≤ s.spadSize o.core o.who.world ∧ (s.core o.core).fresh = [] ∧
      elemOf ((s.spadTag o.core o.who.world (0x80 / 64)).toNat / 256) = some .fp32 ∧ elemOf ((0x077F : Tag).toNat / 256) = some .fp32 ∧
      (s.spadTag o.core o.who.world (0x80 / 64)).toNat % 256 ≠ 255 :=
  ⟨by decide, by decide, by decide, by decide, by decide, by decide, by decide, by decide, by unfold CoreCanonical; decide,
    by unfold Canonical; decide, by decide, by decide, by decide, by decide, by decide⟩
theorem witness_TransfersLand_memory : let o := anOp 7 0 (landing [blk1])
    let s := opState o
    ∃ s1 loc, s.queue lq = some (opQueue o) ∧ s.op? lq 1 = some o ∧ o.dst.space = 0 ∧ s.engAddr o.core o.who.world .store 0x80 = (s1, .ok loc) ∧
      s1.retired.contains (loc.dpa / 65536) = false ∧ s.confW o.who.world = false ∧ Canonical s ∧ loc.dpa % 64 = 0 :=
  ⟨_, ⟨0x80, 0x80, 0, false⟩, by decide, by decide, by decide, pair_of (by decide), by decide, by decide, by unfold Canonical; decide, by decide⟩
theorem witness_TransfersLand_migrate : let o := anOp 8 3 (landing [.move 0x10000 0x20000])
    let s := opState o
    s.queue lq = some (opQueue o) ∧ s.op? lq 1 = some o ∧ o.prog.blocks = .move 0x10000 0x20000 :: [] ∧ Canonical s ∧ s.askOf 4095 1 = none ∧
      o.prog.fol = none ∧ s.dpaBar 0x10000 = none ∧ s.dpaBar 0x20000 = none ∧ s.dataError 0x10000 false = false ∧ s.retired.contains (0x20000 / 65536) = false :=
  ⟨by decide, by decide, by decide, by unfold Canonical; decide, by decide, by decide, by decide, by decide, by decide, by decide⟩
theorem witness_TransfersLand_completes : let o := anOp 7 1 (landing [])
    let s := opState o
    s.queue lq = some (opQueue o) ∧ s.op? lq 1 = some o ∧ o.prog.blocks = [] ∧ o.prog.fol = none ∧ o.prog.sent = 0 ∧ isMemQ lq = false ∧ o.prog.fold = none ∧
      o.who.slot = none ∧ 1 = (opQueue o).tl + 1 ∧ (opQueue o).fin = [] ∧ (opQueue o).closed = false := by decide
theorem witness_TransfersLand_unfinished : (anOp 7 1 (landing [blk1])).prog.blocks ≠ [] ∧ (anOp 7 1 (landing [blk1])).prog.fol = none := by decide

/-- Memory queue 3 of world 0, with one stamped ZERO packet of the layout at 0x60040. -/
def memQ : BQueue := { BQueue.init (.mem 3) 0 0 with hdr := 0x50000, ring := 0x51000, cring := 0x52000, log2n := 4 }
def memState (closed : Bool) : State :=
  let s := (withLayout (rigI .nop)).pokeBytes 0x50000 (natLe 8 1)
  { s.pokeBytes 0x51000 (bytesOf (packet 7) |>.take 56 |>.append (natLe 8 1)) with queues := [(qKey (.mem 3), { memQ with closed := closed })] }
theorem witness_QueueSlots : let s := memState false
    ∃ s0 s1 wb bs, s.queue (.mem 3) = some memQ ∧ memQ.eng = false ∧ s.qOpen memQ = true ∧ memQ.ops.length < 8 ∧
      s.devBytes memQ.bind memQ.world memQ.hdr 8 = (s0, .ok wb) ∧ memQ.cidx < leNat wb ∧
      s0.devBytes memQ.bind memQ.world (memQ.ring + 64 * (memQ.cidx % 2 ^ memQ.log2n)) 64 = (s1, .ok bs) ∧ leNat (bs.drop 56) = memQ.cidx + 1 ∧
      (s1.memOp memQ (memQ.cidx + 1) ((wordsOfBytes bs).take 16)).1.presFits (s1.memOp memQ (memQ.cidx + 1) ((wordsOfBytes bs).take 16)).2.core
        (s1.memOp memQ (memQ.cidx + 1) ((wordsOfBytes bs).take 16)).2.who.world (s1.memOp memQ (memQ.cidx + 1) ((wordsOfBytes bs).take 16)).2.prog.rows = true :=
  ⟨_, _, natLe 8 1, ((bytesOf (packet 7)).take 56).append (natLe 8 1), by decide, by decide, by decide, by decide, pair_of (by decide +kernel), by decide,
    pair_of (by decide +kernel), by decide, by decide +kernel⟩
theorem witness_QueueSlots_empty : let s := { memState false with queues := [(qKey (.mem 3), { memQ with cidx := 1 })] }
    ∃ s1 wb, s.queue (.mem 3) = some { memQ with cidx := 1 } ∧ s.qOpen { memQ with cidx := 1 } = true ∧
      s.devBytes memQ.bind memQ.world memQ.hdr 8 = (s1, .ok wb) ∧ leNat wb ≤ 1 :=
  ⟨_, natLe 8 1, by decide, by decide, pair_of (by decide +kernel), by decide⟩
theorem witness_QueueSlots_closed : (memState true).queue (.mem 3) = some { memQ with closed := true } ∧
    (memState true).qOpen { memQ with closed := true } = false := by decide

/-- Reducing blocks of module 5, queue 0: window at sequence number 9, whose first two blocks are applied. -/
def rpkt (idx : Nat) (seq : BitVec 32 := 9) : ReducePkt :=
  { mid := 5, queue := 0, seq := seq, idx := idx, world := 0, wva := 0x30000, mode := 0, seed := 0, task := 0, tag := 0x077F, fmt := 0, data := List.replicate 64 0 }
def rwin : RWin := ⟨5, 0, 9, [(9, 2)]⟩
def rState : State := { rigI .nop with rwins := [rwin], tags := [(0xC00, 0x077F)] }
theorem witness_ReduceBlocks_barred : let s := rState.setWorld 0 { World.kernel with live := false }
    s.rwins.find? (fun y => y.mid = (rpkt 1).mid && y.queue = (rpkt 1).queue) = some rwin ∧ (s.world (rpkt 1).world).live = false := by decide
theorem witness_ReduceBlocks_stale : let p := rpkt 1 0xFFFFF009
    rState.rwins.find? (fun y => y.mid = p.mid && y.queue = p.queue) = some rwin ∧ (rState.world p.world).live = true ∧ rwin.stale p.seq.toNat = true := by decide
theorem witness_ReduceBlocks_again : let p := rpkt 1
    rState.rwins.find? (fun y => y.mid = p.mid && y.queue = p.queue) = some rwin ∧ (rState.world p.world).live = true ∧ rwin.stale p.seq.toNat = false ∧
      (rwin.take p.seq.toNat p.idx).1 = false := by decide
theorem witness_ReduceBlocks_next : let p := rpkt 2
    ∃ s1 loc x fl, rState.rwins.find? (fun y => y.mid = p.mid && y.queue = p.queue) = some rwin ∧ (rState.world p.world).live = true ∧ p.seq.toNat = rwin.newest ∧
      rwin.newest < 2 ^ 32 ∧ p.idx = mget 0 rwin.counts p.seq.toNat ∧ rState.engAddr 208 p.world .store p.wva.toNat = (s1, .ok loc) ∧
      s1.engError loc true = none ∧
      accBlk ⟨p.task.toNat, p.world, none, 0, p.seed, p.mode.toNat, none, none⟩ (wideFmt p.fmt.toNat) s1.draw.1 p.wva.toNat p.data p.tag (s1.block loc).1
        (s1.block loc).2 = .ok (x, fl) := by
  obtain ⟨⟨x, fl⟩, h⟩ := ok_of (e := accBlk ⟨0, 0, none, 0, 0, 0, none, none⟩ (wideFmt 0) (rState.engAddr 208 0 .store 0x30000).1.draw.1 0x30000 (rpkt 2).data 0x077F
    ((rState.engAddr 208 0 .store 0x30000).1.block ⟨0x30000, 0x30000, 0, false⟩).1
    ((rState.engAddr 208 0 .store 0x30000).1.block ⟨0x30000, 0x30000, 0, false⟩).2) (by decide +kernel)
  exact ⟨_, ⟨0x30000, 0x30000, 0, false⟩, x, fl, by decide, by decide, by decide, by decide, by decide, pair_of (by decide), by decide, h⟩

end Sys2Proof.Tests
end

