-- ==== Sys2Proof/Tests/WitnessE.lean ====
section
/-! SUPPORT. For each statement about the KV arena and the attention sequencer, a concrete state and operands that meet its premises. -/

namespace Sys2Proof.Tests

set_option Elab.async false

open Sys2Proof Sys2Proof.Machine

/-! The arena: sequence 0 of rows of 8 two-byte elements, two pages, whose page list at 0x700000 begins with `e`; page 3 has `refs` references and
`pins` pins. -/

def withSeq (e refs pins : Nat) (s : State) : State :=
  ((((withArena s).pokeBytes 0x300000 (natLe 4 (2 ^ 31 + 2 ^ 16 + 8) ++ natLe 2 0x057F ++ natLe 2 0x057F ++ natLe 8 0x600000 ++ natLe 4 2)).pokeBytes
    0x600000 (natLe 4 0 ++ natLe 4 0 ++ natLe 8 0x700000 ++ natLe 8 0x710000)).pokeBytes 0x700000 (natLe 4 e)).pokeBytes 0x20003C
    (natLe 2 refs ++ natLe 2 pins)
def theKv : KvParams :=
  { hdim := 8, esz := 1, vtag := 0x057F, ktag := 0x057F, maxp := 2, plist := 0x700000, roots := 0x710000, head := 0x600000, len := 0, repoch := 0,
    b := 0, epoch := 0, rows := List.replicate 12 0 }

def kvxState (e : Nat) : State := rigI (.kvx 4#7 3#7 20#7) [(3, 5)] [] (withSeq e 1 0)
theorem witness_ArenaInstructions_kvx (e : Nat) (h : e = 3 ∨ e = 0xFFFFFFFF) : let s := kvxState e
    let u (x : BitVec 7) (j : Nat) : Nat := ((bOf s).u (tOf s) (x.toNat + j)).toNat
    Alone s (gOf s) (bOf s) 0 (tOf s) ∧ Passes (bOf s) (gOf s) [wV 4#7 2, rV 3#7, rU 20#7 2] [] ∧ bits (u 20#7 1) 31 17 = 0 ∧
      s.kvOpen (bOf s).world (u 20#7 0) (u 20#7 1 % 256) (bits (u 20#7 1) 15 8) (wordVal (gOf s).w (gOf s).w2) = .ok (theArena, theKv) ∧
      ((tOf s).v (3#7).toNat).toNat / 128 < theKv.maxp ∧ s.kvGood (bOf s).world (theKv.plist + 4 * (((tOf s).v (3#7).toNat).toNat / 128)) = .ok () ∧
      s.kvEnt (bOf s).world theKv (((tOf s).v (3#7).toNat).toNat / 128) = (if e = 3 then .page 3 else .empty) ∧
      s.task? (bOf s).task = some (hostTask (.drawer 0 0 0) 0) ∧ isAp (gOf s).place = false ∧ ∀ x ∈ s.lates, x.task ≠ (bOf s).task := by
  rcases h with rfl | rfl <;> exact ⟨alone_of (by decide +kernel), passes_of (by decide +kernel), by decide +kernel⟩

/-- KVPUT of position `x` into page 3, which has `refs` references. -/
def putState (x refs : Nat) : State :=
  rigI (.kvput 4#7 3#7 24#7) [(3, x)] [(26, 0x057F0000), (27, 0x200)] fun s => withSpad (withSeq 3 refs 0 s)
theorem present_of {s : State} {xs : List Nat} (h : (xs.all fun x => decide (s.pres (coreIx (gOf s).place) (bOf s).world x = 0)) = true) :
    Present s (gOf s) (bOf s) xs := fun x hx => of_decide_eq_true (List.all_eq_true.mp h x hx)
/-- What every clause on KVPUT asks. -/
def PutMet (s : State) (p : KvParams) : Prop := let o := putOps (gOf s) (bOf s) (tOf s) 24#7
  Alone s (gOf s) (bOf s) 0 (tOf s) ∧ Passes (bOf s) (gOf s) [wV 4#7, rV 3#7, rU 24#7 4] [] ∧
    Present s (gOf s) (bOf s) (blkSpan (o.kofs + 256 * 0) (64 * p.bk) ++ blkSpan (o.vofs + 256 * 0) (p.hdim * p.ez)) ∧
    bits ((bOf s).u (tOf s) ((24#7).toNat + 1)).toNat 31 16 = 0 ∧
    s.kvOpen (bOf s).world o.seq o.ly o.hd (wordVal (gOf s).w (gOf s).w2) = .ok (theArena, p) ∧
    o.beyond p (s.spadSize (coreIx (gOf s).place) (bOf s).world) 0 = none ∧ s.unchecked (bOf s).task = false ∧ o.relink = false
theorem witness_ArenaInstructions_kvput (x refs : Nat) (h : x = 300 ∧ refs = 1 ∨ x = 5 ∧ refs = 2) : let s := putState x refs
    let o := putOps (gOf s) (bOf s) (tOf s) 24#7
    PutMet s theKv ∧ (∃ s2 ws, ((s.opened (gOf s) (bOf s)).pin (bOf s).task).kvPutLane theArena theKv o 0 ((tOf s).v (3#7).toNat).toNat = (s2, .ok ws)) ∧
      (x = 300 → theKv.maxp ≤ ((tOf s).v (3#7).toNat).toNat / 128) ∧
      (refs = 2 → s.kvEnt (bOf s).world theKv (((tOf s).v (3#7).toNat).toNat / 128) = .page 3 ∧ 1 < s.refc theArena 3 ∧
        s.kvGood (bOf s).world (theKv.plist + 4 * (((tOf s).v (3#7).toNat).toNat / 128)) = .ok () ∧ theArena.w = (bOf s).world) := by
  rcases h with ⟨rfl, rfl⟩ | ⟨rfl, rfl⟩
  · exact ⟨⟨alone_of (by decide +kernel), passes_of (by decide +kernel), present_of (by decide +kernel), by decide +kernel⟩,
      ⟨_, [4], pair_of (by decide +kernel)⟩, fun _ => by decide +kernel, fun h => absurd h (by decide)⟩
  · exact ⟨⟨alone_of (by decide +kernel), passes_of (by decide +kernel), present_of (by decide +kernel), by decide +kernel⟩,
      ⟨_, [2], pair_of (by decide +kernel)⟩, fun h => absurd h (by decide), fun _ => by decide +kernel⟩
/-- A relinking put of a row whose page's counter is even. -/
theorem witness_ArenaInstructions_relink : let s := rigI (.kvput 4#7 3#7 24#7) [(3, 5)] [(26, 0x057F8000), (27, 0x200)] fun s => withSpad (withSeq 3 1 0 s)
    let o := putOps (gOf s) (bOf s) (tOf s) 24#7
    o.relink = true ∧ s.relinkWaits theArena theKv ((tOf s).v (3#7).toNat).toNat = false := by decide +kernel

/-- KVPUT of position 5 into page 3 with `b` signature bits: bucket `hb`, of `cnt` entries where it is block 2, and block `nb` the first that is free. -/
def rowState (b hb cnt nb : Nat) : State := rigI (.kvput 4#7 3#7 24#7) [(3, 5)] [(26, 0x057F0000), (27, 0x200)] fun s =>
  (((((withSpad (withSeq 3 1 0 s)).pokeBytes 0x500004 (natLe 4 b)).pokeBytes 0x710000 (natLe 4 hb)).pokeBytes 0x4000B8 (natLe 4 cnt)).pokeBytes 0x10003C
    (natLe 4 nb)).pokeBytes 0x40017C (natLe 4 kvEmpty)
def rowKv (b : Nat) : KvParams := { theKv with b := b }
theorem upto_mem {k n : Nat} (h : k < n) : k ∈ upto n := by
  induction n with
  | zero => exact absurd h (Nat.not_lt_zero k)
  | succ n ih => rw [upto]; rcases Nat.lt_succ_iff_lt_or_eq.mp h with h | rfl <;> simp [*]
theorem sound_of {s : State} {xs : List (Nat × Nat)} (h : (xs.all fun e => (upto e.2).all fun n => decide (dpaKind (e.1 + n) = .hbm) && !s.leased ((e.1 + n) / 64) &&
      !s.bad.contains ((e.1 + n) / 64) && !s.marked.contains ((e.1 + n) / 64) && !s.retired.contains ((e.1 + n) / 65536)) = true) :
    ∀ e ∈ xs, ∀ n < e.2, Sound s (e.1 + n) := by
  intro e he n hn
  have hm : n ∈ upto e.2 := upto_mem hn
  have h1 := List.all_eq_true.mp (List.all_eq_true.mp h e he) n hm
  simp only [Bool.and_eq_true, decide_eq_true_eq, Bool.not_eq_true'] at h1
  obtain ⟨⟨⟨⟨h1, h2⟩, h3⟩, h4⟩, h5⟩ := h1
  exact ⟨h1, h2, by simpa using h3, by simpa using h4, h5⟩
/-- What every clause on a row put asks, the signature being `sg`. -/
def RowMet (s : State) (p : KvParams) (sg : Option Nat) : Prop := let o := putOps (gOf s) (bOf s) (tOf s) 24#7
  PutMet s p ∧ (∀ e ∈ putExtents theArena p 3 5, ∀ n < e.2, Sound s (e.1 + n)) ∧ (∀ e ∈ [(theArena.page 3, 1)], ∀ n < e.2, Sound s (e.1 + n)) ∧
    (s.core (coreIx (gOf s).place)).fresh = [] ∧ s.confW (bOf s).world = false ∧ ((tOf s).v (3#7).toNat).toNat = 5 ∧ 5 / 128 < p.maxp ∧
    s.kvGood (bOf s).world (p.plist + 4 * (5 / 128)) = .ok () ∧ s.kvEnt (bOf s).world p (5 / 128) = .page 3 ∧ s.refc theArena 3 ≤ 1 ∧
    theArena.pgbase % 65536 = 0 ∧ p.repoch = p.epoch ∧ (∀ j < p.bk, keyTag s (bOf s) o 0 j % 256 = 255 ∨ tagCls (keyTag s (bOf s) o 0 j) = tagCls p.ktag) ∧
    s.firstMarked (coreIx (gOf s).place) (bOf s).world (o.vofs + 256 * 0) (p.hdim * p.ez) = none ∧ keySig s (bOf s) o p 0 = sg
theorem witness_ArenaInstructions_row_plain : RowMet (rowState 0 0 0 0) (rowKv 0) none ∧ Apart (putExtents theArena (rowKv 0) 3 5) :=
  ⟨⟨⟨alone_of (by decide +kernel), passes_of (by decide +kernel), present_of (by decide +kernel), by decide +kernel⟩, sound_of (by decide +kernel),
    sound_of (by decide +kernel), by decide +kernel⟩, by unfold Apart; decide +kernel⟩
/-- The extents of a put that links: the bucket's word, the header, its head block. -/
def usedBy (s : State) (p : KvParams) : List (Nat × Nat) := let hb := s.kvRd 0 p.roots 4
  putExtents theArena p 3 5 ++ [(p.roots + 4 * 0, 4), (theArena.hdr, 64)] ++ if hb = kvEmpty then [] else [(theArena.bpool + 64 * hb, 64)]
theorem witness_ArenaInstructions_row_room : let s := rowState 6 2 3 5
    let p := rowKv 6
    RowMet s p (some 0) ∧ Apart (usedBy s p) ∧ (∀ e ∈ [(p.roots + 4 * 0, 1), (theArena.bpool + 64 * 5, 1), (theArena.bpool + 64 * 2, 1)], ∀ n < e.2, Sound s (e.1 + n)) ∧
      s.kvRd 0 p.roots 4 = 2 ∧ 2 < theArena.nbkt ∧ s.kvRd 0 (theArena.bpool + 64 * 2 + 0x38) 4 % 16 < 14 ∧ s.kvRd 0 (theArena.hdr + 0x3C) 4 = 5 :=
  ⟨⟨⟨alone_of (by decide +kernel), passes_of (by decide +kernel), present_of (by decide +kernel), by decide +kernel⟩, sound_of (by decide +kernel),
    sound_of (by decide +kernel), by decide +kernel⟩, by unfold Apart; decide +kernel, sound_of (by decide +kernel), by decide +kernel⟩
theorem witness_ArenaInstructions_row_block (full free : Bool) : let s := rowState 6 (if full then 2 else kvEmpty) 14 (if free then 5 else kvEmpty)
    let p := rowKv 6
    RowMet s p (some 0) ∧ Apart (usedBy s p ++ [(theArena.bpool + 64 * 5, 64)]) ∧
      (∀ e ∈ [(p.roots + 4 * 0, 1), (theArena.bpool + 64 * 5, 1), (theArena.bpool + 64 * 2, 1)], ∀ n < e.2, Sound s (e.1 + n)) ∧
      s.kvRd 0 p.roots 4 = (if full then 2 else kvEmpty) ∧ (full = true → 14 ≤ s.kvRd 0 (theArena.bpool + 64 * 2 + 0x38) 4 % 16) ∧ theArena.nbkt ≤ kvEmpty ∧
      s.kvRd 0 (theArena.hdr + 0x3C) 4 = if free then 5 else kvEmpty := by
  cases full <;> cases free <;> exact ⟨⟨⟨alone_of (by decide +kernel), passes_of (by decide +kernel), present_of (by decide +kernel), by decide +kernel⟩,
    sound_of (by decide +kernel), sound_of (by decide +kernel), by decide +kernel⟩, by unfold Apart; decide +kernel, sound_of (by decide +kernel), by decide +kernel⟩

def pinState (e refs pins : Nat) : State := rigI (.kvpin 4#7 20#7 22#7) [] [] (withSeq e refs pins)
/-- The page-list word, page 3's counts, and whether it is deferred. -/
structure PageCase where
  e    : Nat
  refs : Nat
  pins : Nat
  df   : Bool
def pageCases : List PageCase := [⟨0xFFFFFFFF, 0, 0, false⟩, ⟨3, 2, 2, false⟩, ⟨3, 1, 0, false⟩, ⟨3, 1, 1, false⟩, ⟨3, 0, 1, true⟩, ⟨3, 1, 65535, false⟩]
theorem witness_ArenaInstructions_pages (x : PageCase) (h : x ∈ pageCases) :
    let ⟨e, refs, pins, df⟩ := x
    let s := (pinState e refs pins).pokeBytes 0x200030 (natLe 8 (if df then 2 ^ 62 else 0))
    let u (x : BitVec 7) (j : Nat) : Nat := ((bOf s).u (tOf s) (x.toNat + j)).toNat
    Alone s (gOf s) (bOf s) 0 (tOf s) ∧ Passes (bOf s) (gOf s) [rU 20#7 2, rU 22#7 1, wV 4#7] [] ∧
      Apart [(theKv.plist + 4 * u 22#7 0, 4), (theArena.desc 3, 16), (theArena.hdr, 64)] ∧ bits (u 20#7 1) 31 16 = 0 ∧
      s.kvOpen (bOf s).world (u 20#7 0) (u 20#7 1 % 256) (bits (u 20#7 1) 15 8) (wordVal (gOf s).w (gOf s).w2) = .ok (theArena, theKv) ∧
      theArena.w = (bOf s).world ∧ u 22#7 0 < theKv.maxp ∧ s.kvGood (bOf s).world (theKv.plist + 4 * u 22#7 0) = .ok () ∧
      s.unchecked (bOf s).task = false ∧ s.confW (bOf s).world = false ∧
      s.kvEnt (bOf s).world theKv (u 22#7 0) = (if e = 3 then .page 3 else .empty) ∧
      (e = 3 → s.kvGood (bOf s).world (theArena.desc 3) = .ok () ∧ s.pinc theArena 3 = pins ∧ s.refc theArena 3 = refs ∧ s.deferred theArena 3 = df) := by
  simp only [pageCases, List.mem_cons, List.not_mem_nil, or_false] at h
  rcases h with rfl | rfl | rfl | rfl | rfl | rfl <;>
    exact ⟨alone_of (by decide +kernel), passes_of (by decide +kernel), by unfold Apart; decide +kernel, by decide +kernel⟩
theorem witness_ArenaInstructions_aproj : let s := rigI (.aproj 4#7 20#7 22#7) [] [(20, 0x60000)] fun s => withSpad (withSeq 3 1 0 s)
    let w := ((bOf s).u (tOf s) ((20#7).toNat + 0)).toNat
    let x := ((bOf s).u (tOf s) ((22#7).toNat + 0)).toNat
    Alone s (gOf s) (bOf s) 0 (tOf s) ∧ Passes (bOf s) (gOf s) [rU 20#7 1, rU 22#7 1, wV 4#7] [] ∧ Present s (gOf s) (bOf s) (blkSpan x (32 * bits w 19 16)) ∧
      s.arena? (bOf s).world = some theArena ∧ s.kvHeader (bOf s).world = .ok () ∧
      s.confW (bOf s).world = false ∧ s.unchecked (bOf s).task = false ∧ bits w 31 20 = 0 ∧ 6 ≤ bits w 19 16 ∧ bits w 19 16 ≤ 12 ∧
      w % 256 < theArena.nlayer ∧ bits w 15 8 < theArena.nkvh ∧ x % 64 = 0 ∧ x + 32 * bits w 19 16 ≤ s.spadSize (coreIx (gOf s).place) (bOf s).world ∧
      (s.core (coreIx (gOf s).place)).fresh = [] ∧ s.firstMarked (coreIx (gOf s).place) (bOf s).world x (32 * bits w 19 16) = none ∧
      s.kvGoods (bOf s).world ((upto 8).map fun i => theArena.proj (w % 256) (bits w 15 8) + 64 * i) = .ok () :=
  ⟨alone_of (by decide +kernel), passes_of (by decide +kernel), present_of (by decide +kernel), by decide +kernel⟩

/-! The sequencer of core 0, with a run of one query row. -/

def runBlk : List Word := [0, 0x400001, 0, 0, 0x500, 0x20010, 0x401, 0x3F800000, 0x400, 0x4000, 0x6000, 0, 0x057F, 0, 0, 0]
def noData : AData := { tl := [], gl := [], sig := none, ct := some [some 0, none], mr := [], mn := [], lr := [], o := [], sb := [], pq := [] }
def aRun : ARun :=
  { num := 1, who := ⟨1, 0, some p0, 0, 0, 0, none, none⟩, blk := runBlk, kv := theKv, d := noData, pc := 3, m := List.replicate 16 0, retry := false,
    fb := false, dns := false, att := [], pins := [], gath := [], gpc := 0, sub := 0, bad := none, on := true, held := false, cancel := false }
def withRun (r : ARun) (f : State → State := id) : State :=
  f { withSpad (rigI .nop) with cur := .micro 0, asqs := [(0, { Asq.init with runs := [r], next := 2 })] }
def someMicros : List Instr :=
  [.cntTl 1#4, .cntChunks 1#4, .cntLen 1#4, .cntAct 1#4, .cntAdd 1#4 2#4 0xFFFFF#20, .br 5#12, .brc 1#4 2#4 5#12 3#4, .loop 1#4 5#12, .tlstDense, .tlstGathered,
    .fbk, .rmax, .rsum]
theorem witness_SequencerRegisters : MicroReady (withRun aRun) 0 aRun [] ∧ (∀ i ∈ someMicros, (microSem aRun i).isSome = true) ∧ aRun.d.ct = some [some 0, none] :=
  ⟨⟨rfl, by decide, rfl, rfl, rfl, rfl⟩, by decide +kernel, rfl⟩
theorem witness_SequencerRegisters_rescaled : let r := { aRun with d := { noData with mn := negInf :: List.replicate 63 0 } }
    MicroReady (withRun r) 0 r [] ∧ r.d.ct = some [some 0, none] ∧ nth negInf r.d.mn 0 = negInf ∧ nth negInf r.d.mn 1 ≠ negInf ∧
      nth negInf r.d.mr 1 = negInf := ⟨⟨rfl, by decide, rfl, rfl, rfl, rfl⟩, rfl, by decide, by decide, by decide⟩
theorem witness_SequencerRegisters_finite : let r := { aRun with d := { noData with mr := List.replicate 64 0, mn := List.replicate 64 0 } }
    MicroReady (withRun r) 0 r [] ∧ r.d.ct = some [some 0, none] ∧ (∀ q < 64, nth negInf r.d.mn q ≠ negInf ∧ nth negInf r.d.mr q ≠ negInf) ∧
      mwf 0 r.d.o = true ∧ r.kv.hdim ≤ 256 ∧ r.qrows ≤ 64 ∧ 0 < r.qrows ∧ 0 < r.kv.hdim :=
  ⟨⟨rfl, by decide, rfl, rfl, rfl, rfl⟩, rfl, by decide⟩

theorem witness_SequencerCommands_start : ((withRun { aRun with on := false }).asq 0).runs = [{ aRun with on := false }] ∧
    ((withRun aRun).asq 0).last ≠ some aRun.who.world := by decide
/-- Commands of the run in its matrix unit. -/
def busy (n : Nat) (s : State) : State := claimed (List.replicate n { mxc .zero with who := { aRun.who with run := some 1 } }) s
theorem witness_SequencerCommands_room (sub : Nat) (h : sub = 0 ∨ sub = 1) : let r := { aRun with sub := sub }
    MicroReady (withRun r) 0 r [] ∧ r.d.ct = some [some 0, none] ∧ (withRun r).roomFor (mxIx 0 r.drw) 1 = true ∧ (withRun r).roomFor (mxIx 0 r.drw) 2 = true ∧
      (withRun r).runBusy 0 r = false ∧ mwf 0 r.d.sb = true ∧ 0 < r.kv.hdim ∧ r.pins = [] := by
  rcases h with rfl | rfl <;> exact ⟨⟨rfl, by decide, rfl, rfl, rfl, rfl⟩, rfl, by decide, by decide, by decide, by decide, by decide, rfl⟩
theorem witness_SequencerCommands_full : let s := withRun aRun (busy 16)
    MicroReady s 0 aRun [] ∧ aRun.d.ct = some [some 0, none] ∧ s.roomFor (mxIx 0 aRun.drw) 1 = false ∧ s.runBusy 0 aRun = true :=
  ⟨⟨rfl, by decide, rfl, rfl, rfl, rfl⟩, rfl, by decide, by decide⟩
theorem witness_SequencerCommands_rowless : let r := { aRun with kv := { theKv with hdim := 0 } }
    MicroReady (withRun r) 0 r [] ∧ r.sub = 0 ∧ r.kv.hdim = 0 := ⟨⟨rfl, by decide, rfl, rfl, rfl, rfl⟩, rfl, rfl⟩

def dataState (r : ARun) : State := withRun r (withSeq 3 1 0)
theorem canonical_of {s : State} (h : decide (Memory.wf s.mem = true ∧ mwf tag0 s.tags = true ∧ mwf Core.init s.cores = true) = true) : Canonical s := by
  unfold Canonical; exact of_decide_eq_true h
theorem microReady (r : ARun) (h : r = aRun ∨ r = { aRun with d := { noData with tl := [0, 5], sig := some [some 1] } }) :
    MicroReady (dataState r) 0 r [] ∧ Canonical (dataState r) ∧ (dataState r).confW r.who.world = false := by
  rcases h with rfl | rfl <;> exact ⟨⟨rfl, by decide, rfl, rfl, rfl, rfl⟩, canonical_of (by decide +kernel), by decide +kernel⟩
theorem witness_SequencerData_queries : let s := dataState aRun
    let xs := (upto aRun.qrows).flatMap fun q => (upto theKv.bk).map fun j => (nth 0 aRun.blk 0).toNat + q * aRun.qstr + 64 * j
    MicroReady s 0 aRun [] ∧ Canonical s ∧ s.confW aRun.who.world = false ∧
      s.kvOpen aRun.who.world (nth 0 aRun.blk 2).toNat ((nth 0 aRun.blk 3).toNat % 256) (bits (nth 0 aRun.blk 3).toNat 15 8) 0 = .ok (theArena, theKv) ∧
      (∀ x ∈ xs, s.pres 0 aRun.who.world (x / 64) = 0) ∧
      (∀ x ∈ xs, let t := (tagFor (s.spadTag 0 aRun.who.world (x / 64)).toNat aRun.qovr).1
        t % 256 = 255 ∨ tagCls t = tagCls theKv.ktag) ∧
      (elemOf aRun.pfmt).bind Elem.cls = tagCls theKv.vtag ∧ aRun.kv = theKv :=
  ⟨(microReady aRun (.inl rfl)).1, (microReady aRun (.inl rfl)).2.1, (microReady aRun (.inl rfl)).2.2, by decide +kernel, by decide +kernel,
    by decide +kernel, by decide +kernel, rfl⟩
def walkRun : ARun := { aRun with d := { noData with tl := [0, 5], sig := some [some 1] } }
def walkEnts : List (Option (Nat × Nat)) := [some (0, 3), some (5, 3)] ++ List.replicate 30 none
theorem witness_SequencerData_walks : let s := dataState walkRun
    MicroReady s 0 walkRun [] ∧ Canonical s ∧ s.confW walkRun.who.world = false ∧ walkRun.d.sig = some [some 1] ∧
      s.runArena walkRun = .ok theArena ∧ (∀ y < 2 ^ walkRun.kv.b, s.kvGood theArena.w (walkRun.kv.roots + 4 * y) = .ok ()) ∧
      ∀ n < theArena.nbkt, s.kvGood theArena.w (theArena.bpool + 64 * n) = .ok () :=
  ⟨(microReady walkRun (.inr rfl)).1, (microReady walkRun (.inr rfl)).2.1, (microReady walkRun (.inr rfl)).2.2, rfl, by decide +kernel⟩
theorem witness_SequencerData_gathers : let s := dataState walkRun
    let rows := (walkRun.gathers theArena walkEnts).map fun x => x.x / 64
    MicroReady s 0 walkRun [] ∧ s.runArena walkRun = .ok theArena ∧ walkRun.pins = [] ∧ walkRun.gath = [] ∧
      s.chunkEnts walkRun.who.world walkRun.kv ((upto walkRun.kv.e).map fun n =>
        walkRun.d.tl[walkRun.kv.e * (nth 0 walkRun.m (BitVec.toNat (2#4))).toNat + n]?) = .ok walkEnts ∧
      let pages := (walkEnts.filterMap fun e => e.map Prod.snd).foldl insertNat []
      s.kvGoods walkRun.who.world (pages.map theArena.desc) = .ok () ∧ (∀ p ∈ pages, s.pinc theArena p ≠ 65535 ∧ s.seqctr theArena p % 2 ≠ 1) ∧
      s.presFits 0 walkRun.who.world rows = true :=
  ⟨(microReady walkRun (.inr rfl)).1, by decide +kernel, rfl, rfl, by decide +kernel⟩
/-- A gather of a block of zeros under way. -/
def gathRun : ARun := { aRun with gath := [⟨0x100, .zero 0x077F⟩] }
theorem witness_SequencerData_gather_lands : let s := dataState gathRun
    MicroReady s 0 gathRun [] ∧ Canonical s ∧ s.confW gathRun.who.world = false ∧
      ∃ x more bs tg, gathRun.gath = x :: more ∧ s.gathered gathRun.who.world x.src = .ok (bs, tg) ∧ bs.length = 64 ∧ x.x % 64 = 0 ∧
        x.x + 64 ≤ s.spadSize 0 gathRun.who.world ∧ CoreCanonical (s.core 0) :=
  ⟨⟨rfl, by decide, rfl, rfl, rfl, rfl⟩, canonical_of (by decide +kernel), by decide +kernel, ⟨0x100, .zero 0x077F⟩, [], List.replicate 64 0, 0x077F, rfl, rfl,
    by decide, by decide, by decide +kernel, by unfold CoreCanonical; decide +kernel⟩
theorem witness_SequencerCommands_gathers : MicroReady (withRun gathRun) 0 gathRun [] ∧ gathRun.gath ≠ [] := ⟨⟨rfl, by decide, rfl, rfl, rfl, rfl⟩, by decide⟩
theorem witness_SequencerData_outputs : let s := dataState aRun
    MicroReady s 0 aRun [] ∧ Canonical s ∧ s.confW aRun.who.world = false ∧ s.runArena aRun = .ok theArena ∧
      s.kvGoods aRun.who.world (aRun.pins.map fun p => theArena.desc p.1) = .ok () ∧ aRun.gath = [] ∧ aRun.d.ct = some [some 0, none] ∧
      aRun.kv.e ≤ 64 ∧ CoreCanonical (s.core 0) ∧ aRun.oofs % 64 = 0 ∧ aRun.kv.hdim ≤ 256 ∧ aRun.oofs + 1024 * aRun.qrows ≤ s.spadSize 0 aRun.who.world ∧
      aRun.lofs % 4 = 0 ∧ aRun.lofs + 4 * aRun.qrows ≤ s.spadSize 0 aRun.who.world :=
  ⟨(microReady aRun (.inl rfl)).1, (microReady aRun (.inl rfl)).2.1, (microReady aRun (.inl rfl)).2.2, by decide +kernel, rfl, rfl, rfl, by decide +kernel,
    by unfold CoreCanonical; decide +kernel, by decide +kernel⟩

end Sys2Proof.Tests
end

