-- ==== Sys2Proof/Tests/WitnessF.lean ====
section
/-! SUPPORT. For each statement about attention instructions, access processors, banks and FIFOs, a concrete state and operands that meet its
premises. -/

namespace Sys2Proof.Tests

set_option Elab.async false

open Sys2Proof Sys2Proof.Machine

/-- Nothing is said of accesses performed late when there are none. -/
theorem noLates_of {s : State} {P : Late → Prop} (h : s.lates.isEmpty = true) : ∀ y ∈ s.lates, P y := by
  intro y hy
  rw [List.isEmpty_iff.mp h] at hy
  exact absurd hy List.not_mem_nil

/-! Attention: the start block `runBlk` in uniform registers 32 to 47. -/

def blkRegs (ws : List Word) : List (Nat × Nat) := ((upto ws.length).zip ws).map fun e => (e.1 + 32, e.2.toNat)
def startState (f : State → State := id) : State := rigI (.astart 4#7 32#7) [] (blkRegs runBlk) fun s => f (withSpad (withSeq 3 1 0 s))
theorem startOk_run : StartOk (fun i => ((bOf startState).u (tOf startState) ((32#7).toNat + i)).toNat) theKv (startState.spadSize 0 0) where
  reserved := by decide +kernel
  format := ⟨.fp16, by decide +kernel, .inl rfl⟩
  ranges := by decide +kernel
  aligned := by decide +kernel
  within := by rintro m (rfl | rfl | rfl | rfl) _ _ <;> decide +kernel
theorem witness_AttentionInstructions_start : let s := startState
    let u (i : Nat) : Nat := ((bOf s).u (tOf s) ((32#7).toNat + i)).toNat
    Alone s (gOf s) (bOf s) 0 (tOf s) ∧ Passes (bOf s) (gOf s) [rU 32#7 16, wV 4#7 2] [] ∧
      s.kvOpen (bOf s).world (u 2) (u 3 % 256) (bits (u 3) 15 8) (wordVal (gOf s).w (gOf s).w2) = .ok (theArena, theKv) ∧
      StartOk u theKv (s.spadSize (coreIx (gOf s).place) (bOf s).world) ∧
      (mget Drawer.init s.drawers (mxIx (coreIx (gOf s).place) (bits (u 3) 18 16))).world = (bOf s).world ∧
      (∀ f, (s.asq (coreIx (gOf s).place)).fault = some f → f.task ≠ (bOf s).task) ∧ (s.asq (coreIx (gOf s).place)).runs.length < 4 ∧
      s.vacated.contains (coreIx (gOf s).place) = false ∧ s.unchecked (bOf s).task = false ∧
      ((s.mxu (mxIx (coreIx (gOf s).place) (bits (u 3) 18 16))).claim = none ∨
        (s.mxu (mxIx (coreIx (gOf s).place) (bits (u 3) 18 16))).claim = some (bOf s).task) :=
  ⟨alone_of (by decide +kernel), passes_of (by decide +kernel), by decide +kernel, startOk_run, by decide +kernel, nofun,
    by decide +kernel, by decide +kernel, by decide +kernel, .inl (by decide +kernel)⟩
theorem witness_AttentionInstructions_reserved : let s := rigI (.astart 4#7 32#7) [] (blkRegs (setNth runBlk 15 1)) withHandler
    Alone s (gOf s) (bOf s) 0 (tOf s) ∧ Passes (bOf s) (gOf s) [rU 32#7 16, wV 4#7 2] [] ∧ HandlerReady s (bOf s) (tOf s) ∧
      ((bOf s).u (tOf s) ((32#7).toNat + 15)).toNat ≠ 0 :=
  ⟨alone_of (by decide +kernel), passes_of (by decide +kernel), alone_handler (by decide +kernel), by decide +kernel⟩
theorem witness_AttentionInstructions_amload : let s := rigI (.amload 4#7 32#7) [] [(32, 0x1000), (33, 0x10FFE)] withSpad
    let u (i : Nat) : Nat := ((bOf s).u (tOf s) ((32#7).toNat + i)).toNat
    Alone s (gOf s) (bOf s) 0 (tOf s) ∧ Passes (bOf s) (gOf s) [rU 32#7 2, wV 4#7] [] ∧ bits (u 1) 31 28 = 0 ∧ bits (u 1) 15 12 = 0 ∧
      (∀ f, (s.asq 0).fault = some f → f.task ≠ (bOf s).task) ∧ (∀ x, s.pres 0 (bOf s).world x = 0 ∧ s.spadMarked 0 (bOf s).world (64 * x) 64 = false) ∧
      u 1 % 4096 + (bits (u 1) 27 16 + 1) ≤ 4096 ∧ u 0 % 8 = 0 ∧ u 0 + 8 * (bits (u 1) 27 16 + 1) ≤ s.spadSize 0 (bOf s).world ∧
      coreIx (gOf s).place < 192 ∧ (s.asq 0).runs = [] ∧ s.unchecked (bOf s).task = false ∧ (s.core 0).fresh = [] :=
  ⟨alone_of (by decide +kernel), passes_of (by decide +kernel), by decide, by decide, nofun, fun _ => ⟨rfl, rfl⟩, by decide +kernel⟩
def astatSeq : Asq := { Asq.init with runs := [{ aRun with num := 2 }], recs := [⟨1, 3, 7, 9⟩], next := 3, fault := some ⟨.align, 1, 0, 1⟩ }
def astatState (n : Nat) : State := rigI (.astat 4#7 8#7) [(8, n)] [] fun s => { s with asqs := [(0, astatSeq)] }
theorem witness_AttentionInstructions_astat (n : Nat) (h : n = 0 ∨ n = 1 ∨ n = 2) : let s := astatState n
    Alone s (gOf s) (bOf s) 0 (tOf s) ∧ Passes (bOf s) (gOf s) [rAddr 8#7 2, wV 4#7 2] [] ∧ mrising s.asqs = true ∧
      (effective (bOf s) (tOf s) 8#7 0 1).toNat = n ∧ (n = 1 → (s.asq 0).recs.find? (fun x => x.num = n) = some ⟨1, 3, 7, 9⟩) ∧
      (n = 2 → (∀ r ∈ (s.asq 0).recs, r.num ≠ n) ∧ ∃ r ∈ (s.asq 0).runs, r.num = n) ∧
      (n = 0 → (∀ r ∈ (s.asq 0).recs, r.num ≠ n) ∧ (∀ r ∈ (s.asq 0).runs, r.num ≠ n) ∧ n < (s.asq 0).next) := by
  rcases h with rfl | rfl | rfl <;>
    exact ⟨alone_of (by decide +kernel), passes_of (by decide +kernel), by decide +kernel, by decide +kernel, by decide +kernel, by decide +kernel,
      by decide +kernel⟩

/-! Access processors: one of core 0's, and one beside a drawer. -/

def rigAp (i : Instr) (v : List (Nat × Nat) := []) (f : State → State := id) : State :=
  let ws := encode false i
  let w : Word := ws.headD 0
  rigOf (bnch (.ap 0 0) [(0, thr v)]) [0] w 0 f
def withAp (s : State) : State := { s with benches := s.benches ++ [bnch (.ap 0 1) [(0, thr [])]] }
def apOps (p : Place) : List Opnd := [classOpnd p 20#7 4 false, classOpnd p 24#7 1 false, classOpnd p 25#7 1 true]
theorem witness_ProcessorsBanksTranslations_apstart (up : Bool) :
    let s := rigI (.apstart 25#7 20#7 24#7) [] [(20, 0x80000), (24, 1)] (if up then withAp else id)
    Leads s (gOf s) (bOf s) 0 [] (rawOf s) ∧ Passes (bOf s) (gOf s) (apOps (gOf s).place) [] ∧
      ((∃ x ∈ s.benches, x.place = .ap (coreIx (gOf s).place) (classReg (gOf s).place (bOf s) (rawOf s) (24#7).toNat % 2)) ↔ up = true) := by
  cases up <;> exact ⟨leads_of (by decide), passes_of (by decide), by decide⟩
theorem witness_ProcessorsBanksTranslations_apstart_ap : let s := rigAp (.apstart 25#7 20#7 24#7) [(20, 0x80000), (24, 1)]
    Leads s (gOf s) (bOf s) 0 [] (rawOf s) ∧ Passes (bOf s) (gOf s) (apOps (gOf s).place) [] ∧ isAp (gOf s).place = true :=
  ⟨leads_of (by decide), passes_of (by decide), by decide⟩
theorem witness_ProcessorsBanksTranslations_apstop (up : Bool) : let s := rigI (.apstop 25#7 24#7) [] [(24, 1)] (if up then withAp else id)
    let q : Place := .ap (coreIx (gOf s).place) (classReg (gOf s).place (bOf s) (rawOf s) (24#7).toNat % 2)
    Leads s (gOf s) (bOf s) 0 [] (rawOf s) ∧ Passes (bOf s) (gOf s) [classOpnd (gOf s).place 24#7 1 false, classOpnd (gOf s).place 25#7 1 true] [] ∧
      ((∃ x ∈ s.benches, x.place = q) ↔ up = true) ∧ (∀ y ∈ s.lates, y.who.place ≠ q) ∧ q ≠ (gOf s).place := by
  cases up <;> exact ⟨leads_of (by decide), passes_of (by decide), by decide, by decide, by decide⟩
theorem witness_ProcessorsBanksTranslations_apstop_self : let s := rigAp (.apstop 25#7 24#7) [(24, 0)]
    let q : Place := .ap (coreIx (gOf s).place) (classReg (gOf s).place (bOf s) (rawOf s) (24#7).toNat % 2)
    Leads s (gOf s) (bOf s) 0 [] (rawOf s) ∧ Passes (bOf s) (gOf s) [classOpnd (gOf s).place 24#7 1 false, classOpnd (gOf s).place 25#7 1 true] [] ∧
      (∃ x ∈ s.benches, x.place = q) ∧ (∀ y ∈ s.lates, y.who.place ≠ q) ∧ q = (gOf s).place :=
  ⟨leads_of (by decide), passes_of (by decide), by decide, by decide, by decide⟩
/-- Mailboxes of core 0 with `n` words each. -/
def withMail (n : Nat) (s : State) : State :=
  s.updCore 0 fun c => { c with inbox := [List.replicate n 7, []], outbox := [List.replicate n 8, []] }
theorem witness_ProcessorsBanksTranslations_mail : let s := rigI (.appush 20#7 24#7) [] [(24, 0)] (withMail 255)
    Leads s (gOf s) (bOf s) 0 [] (rawOf s) ∧ Passes (bOf s) (gOf s) [rV 20#7, rU 24#7] [] ∧ Passes (bOf s) (gOf s) [wV 20#7, rU 24#7] [] ∧
      isAp (gOf s).place = false ∧ (∀ y ∈ s.lates, y.who.place ≠ (gOf s).place) ∧
      (nth [] (s.core (coreIx (gOf s).place)).inbox 0).length + [0].length ≤ 256 ∧
      [0].length ≤ (nth [] (s.core (coreIx (gOf s).place)).outbox 0).length :=
  ⟨leads_of (by decide +kernel), passes_of (by decide +kernel), passes_of (by decide +kernel), by decide +kernel, by decide +kernel,
    by decide +kernel, by decide +kernel⟩
theorem witness_ProcessorsBanksTranslations_mail_ap : let s := rigAp (.appush 20#7 0#7) [] (withMail 1)
    Leads s (gOf s) (bOf s) 0 [] (rawOf s) ∧ Passes (bOf s) (gOf s) [rV 20#7] [] ∧ Passes (bOf s) (gOf s) [wV 20#7] [] ∧ isAp (gOf s).place = true ∧
      (∀ y ∈ s.lates, y.who.place ≠ (gOf s).place) ∧ (nth [] (s.core (coreIx (gOf s).place)).outbox 0).length + [0].length ≤ 256 ∧ [0].length ≤ (nth [] (s.core (coreIx (gOf s).place)).inbox 0).length :=
  ⟨leads_of (by decide +kernel), passes_of (by decide +kernel), passes_of (by decide +kernel), by decide +kernel, by decide +kernel,
    by decide +kernel, by decide +kernel⟩
theorem witness_ProcessorsBanksTranslations_tlbinv (k : Nat) (h : k = 0 ∨ k = 1 ∨ k = 2) :
    let s := rigI (.tlbinvAddress 20#7 24#7) [] [(20, 0x10000), (24, 65536 * k)] fun s => { s with tlbs := [⟨0, 0, 0x10000, 65536, 0⟩] }
    Leads s (gOf s) (bOf s) 0 [] (rawOf s) ∧ Passes (bOf s) (gOf s) [rU 20#7 2, rU 24#7] [] ∧
      bits ((bOf s).u (rawOf s) (24#7).toNat).toNat 17 16 = k ∧ s.foldsThrough k 0 0x10000 = false ∧ s.lates = [] := by
  rcases h with rfl | rfl | rfl <;> exact ⟨leads_of (by decide), passes_of (by decide), by decide, by decide, rfl⟩
theorem witness_ProcessorsBanksTranslations_bankcfg_steward :
    let s := rigS [] [] ((encode false (.bankcfg 20#7 21#7 22#7)).headD 0)
    Leads s (gOf s) (bOf s) 0 [] (rawOf s) ∧ Passes (bOf s) (gOf s) [rU 21#7, rU 22#7, wU 20#7] [] ∧ 192 ≤ coreIx (gOf s).place ∧
      (bOf s).u (rawOf s) (21#7).toNat ||| (bOf s).u (rawOf s) (22#7).toNat = 0 :=
  ⟨leads_of (by decide), passes_of (by decide), by decide, by decide⟩
theorem witness_ProcessorsBanksTranslations_bankcfg (x : Nat) (h : x = 3 ∨ x = 4) : let s := rigI (.bankcfg 20#7 21#7 22#7) [] [(21, 3), (22, x)] withSpad
    let sp := (bOf s).u (rawOf s) (21#7).toNat
    let ff := (bOf s).u (rawOf s) (22#7).toNat
    Leads s (gOf s) (bOf s) 0 [] (rawOf s) ∧ Passes (bOf s) (gOf s) [rU 21#7, rU 22#7, wU 20#7] [] ∧ coreIx (gOf s).place < 192 ∧ Canonical s ∧
      (∀ y ∈ s.lates, ∀ c w k x, y.loc ≠ .spad c w k x) ∧
      (∀ i < 32, (sp ||| ff).getLsbD i = true → ∃ k, (s.core 0).banks[i]? = some k ∧ k.owner = (bOf s).world) ∧ (sp &&& ff = 0 ↔ x = 4) ∧
      ((upto 32).filter fun i => sp.getLsbD i).length ∈ [0, 1, 2, 4, 8, 16, 32] ∧ ((upto 32).filter fun i => ff.getLsbD i).length ≤ 16 ∧
      (s.core 0).pres = [] ∧ s.spadBusy 0 (bOf s).world = false ∧ (s.core 0).fifos = [] ∧ (∀ b ∈ s.benches, ∀ e ∈ b.threads, e.2.polled = none) ∧
      (s.core 0).banks.length = 32 := by
  rcases h with rfl | rfl
  all_goals
    exact ⟨leads_of (by decide), passes_of (by decide), by decide, canonical_of (by decide), noLates_of (by decide),
      fun i hi _ => by interval_cases i <;> exact ⟨_, rfl, rfl⟩, by decide, by decide, by decide, by decide, by decide, by decide, by decide, by decide⟩

/-- Bank 5 of core 0 is a FIFO with `n` rows. -/
def withFifo (n : Nat) (s : State) : State :=
  s.updCore 0 fun c => { c with banks := c.banks.set 5 ⟨0, .fifo⟩, fifos := if n = 0 then [] else [(5, List.replicate n [1, 2])] }
theorem witness_FifoBanks (n : Nat) (h : n = 0 ∨ n = 1 ∨ n = 512) : let s := rigI (.lq 0#4 4#7) [(4, 9)] [] (withFifo n)
    Leads s (gOf s) (bOf s) 0 [] (rawOf s) ∧ s.fifoBank (coreIx (gOf s).place) (bOf s).world (0#4).toNat = some 5 ∧ Passes (bOf s) (gOf s) [wV 4#7] [] ∧
      Passes (bOf s) (gOf s) [rV 4#7] [] ∧ mget [] (s.core (coreIx (gOf s).place)).fifos 5 = List.replicate n [1, 2] := by
  rcases h with rfl | rfl | rfl <;> exact ⟨leads_of (by decide +kernel), by decide, passes_of (by decide +kernel), passes_of (by decide +kernel), by decide +kernel⟩

end Sys2Proof.Tests
end

