-- ==== Sys2Proof/Tests/WitnessG.lean ====
section
/-! SUPPORT. For each statement about worlds, the trust root, hashes and stewards, a concrete state and operands that meet its premises. -/

namespace Sys2Proof.Tests

set_option Elab.async false

open Sys2Proof Sys2Proof.Machine

/-! Worlds: the four operands in uniform registers 20 to 23. -/

noncomputable def wc (r0 r1 r2 r3 : Nat) (f : State → State := id) : State := rigI (.worldcfgCreate 4#7 20#7) [] [(20, r0), (21, r1), (22, r2), (23, r3)] f
def wr (s : State) (i : Nat) : Nat := (bOf s).un (rawOf s) 20#7 i
def wpair (s : State) : Nat := wr s 1 + 2 ^ 32 * wr s 2
/-- An extent that may be read, its checks by evaluation. -/
theorem readable_of {s : State} {c w x n al : Nat} (h : decide (x % al = 0 ∧ x + n ≤ s.spadSize c w) = true) (h' : ∀ i, s.pres c w i = 0)
    (h2 : (!s.spadMarked c w x n && s.lates.isEmpty && (s.core c).landing.isEmpty) = true) : Readable s c w x n al := by
  simp only [Bool.and_eq_true, Bool.not_eq_true', List.isEmpty_iff] at h2
  exact ⟨⟨(of_decide_eq_true h).1, (of_decide_eq_true h).2, fun i _ _ => h' i⟩, h2.1.1, noLates_of (List.isEmpty_iff.mpr h2.1.2), h2.2⟩

/-- The premises of an operation `n` on the world `w`. -/
def WcMet (s : State) (n w : Nat) : Prop := Leads s (gOf s) (bOf s) 0 [] (rawOf s) ∧ Passes (bOf s) (gOf s) [wV 4#7, rU 20#7 4] [] ∧
  wr s 0 % 16 = n ∧ bits (wr s 0) 7 4 = 0 ∧ wr s 0 / 2 ^ 16 = 0 ∧ bits (wr s 0) 15 8 = w
theorem wcMet {s : State} {n w : Nat} (h : (leadsB s && passesB s [wV 4#7, rU 20#7 4] [] && decide (wr s 0 % 16 = n ∧ bits (wr s 0) 7 4 = 0 ∧
    wr s 0 / 2 ^ 16 = 0 ∧ bits (wr s 0) 15 8 = w)) = true) : WcMet s n w := by
  simp only [Bool.and_eq_true, decide_eq_true_eq] at h
  exact ⟨leads_of h.1.1, passes_of h.1.2, h.2⟩
/-- World 3 exists. -/
def withWorld (conf : Bool) (s : State) : State := s.setWorld 3 { World.kernel with conf := conf }

theorem witness_WorldOperations_unknown : let s := wc 7 0 0 0 withHandler
    Leads s (gOf s) (bOf s) 0 [] (rawOf s) ∧ Passes (bOf s) (gOf s) [wV 4#7, rU 20#7 4] [] ∧ 7 ≤ wr s 0 % 16 ∧
      AllHandlersReady s (gOf s) (bOf s) ((bOf s).executing (gOf s)) :=
  ⟨leads_of (by decide), passes_of (by decide), by decide, handlers_of (by decide)⟩
theorem witness_WorldOperations_reserved : let s := wc 0x10006 0 0 0
    Leads s (gOf s) (bOf s) 0 [] (rawOf s) ∧ Passes (bOf s) (gOf s) [wV 4#7, rU 20#7 4] [] ∧ wr s 0 % 16 < 7 ∧ wr s 0 / 2 ^ 16 ≠ 0 :=
  ⟨leads_of (by decide), passes_of (by decide), by decide, by decide⟩
theorem witness_WorldOperations_create :
    (let s := wc 0x300 1 0 0; WcMet s 0 3 ∧ wpair s % 65536 ≠ 0) ∧ (let s := wc 0x300 0 0 2; WcMet s 0 3 ∧ 2 ≤ wr s 3) ∧
    (let s := wc 0x000 0x10000 0 0; WcMet s 0 0 ∧ wpair s % 65536 = 0 ∧ wr s 3 < 2) ∧
    (let s := wc 0x300 0x10000 1 0; WcMet s 0 3 ∧ wpair s % 65536 = 0 ∧ wr s 3 = 0 ∧ ¬ s.hasWorld 3) ∧
    (let s := wc 0x300 0x10000 1 1; WcMet s 0 3 ∧ wpair s % 65536 = 0 ∧ wr s 3 = 1 ∧ ¬ s.hasWorld 3) :=
  ⟨⟨wcMet (by decide), by decide⟩, ⟨wcMet (by decide), by decide⟩, ⟨wcMet (by decide), by decide⟩,
    ⟨wcMet (by decide), by unfold State.hasWorld; decide⟩, ⟨wcMet (by decide), by unfold State.hasWorld; decide⟩⟩
theorem witness_WorldOperations_tvec_root (n : Nat) (h : n = 1 ∨ n = 4) :
    (let s := wc n 0x40000 0 0; WcMet s n 0 ∧ s.hasWorld 0) ∧ (let s := wc (0x300 + n) 0x40000 0 0; WcMet s n 3 ∧ ¬ s.hasWorld 3) := by
  rcases h with rfl | rfl <;>
    exact ⟨⟨wcMet (by decide), by unfold State.hasWorld; decide⟩, ⟨wcMet (by decide), by unfold State.hasWorld; decide⟩⟩
theorem witness_WorldOperations_drawers :
    (let s := wc 2 0x10000 0 0; WcMet s 2 0 ∧ wr s 1 / 2 ^ 16 ≠ 0) ∧ (let s := wc 2 192 0 0; WcMet s 2 0 ∧ 191 < wr s 1 % 256) ∧
    (let s := wc 0x302 0x1BF 0 0; WcMet s 2 3 ∧ wr s 1 / 2 ^ 16 = 0 ∧ wr s 1 % 256 ≤ 191 ∧ ¬ s.hasWorld 3) ∧
    (let s := wc 2 0x100 0 0 (claimed []); WcMet s 2 0 ∧ wr s 1 / 2 ^ 16 = 0 ∧ wr s 1 % 256 ≤ 191 ∧ s.hasWorld 0 ∧
      bitAt (bits (wr s 1) 15 8) 0 = true ∧ (s.mxu (8 * (wr s 1 % 256) + 0)).claim ≠ none) ∧
    (let s := wc 0x302 0x1BF 0 0 (withWorld false); WcMet s 2 3 ∧ wr s 1 / 2 ^ 16 = 0 ∧ wr s 1 % 256 ≤ 191 ∧ s.hasWorld 3 ∧
      (∀ k < 8, bitAt (bits (wr s 1) 15 8) k = true → ¬ ((∃ y ∈ s.benches ++ s.saved, drawerOf y.place = some (8 * (wr s 1 % 256) + k)) ∨
        (s.mxu (8 * (wr s 1 % 256) + k)).claim ≠ none ∨ (s.mxu (8 * (wr s 1 % 256) + k)).queue ≠ [])) ∧
      mwf Drawer.init s.drawers = true ∧ mrising s.mxus = true ∧ ∀ j, mrising (s.mxu j).recv = true) :=
  ⟨⟨wcMet (by decide), by decide⟩, ⟨wcMet (by decide), by decide⟩, ⟨wcMet (by decide), by unfold State.hasWorld; decide⟩,
    ⟨wcMet (by decide), by unfold State.hasWorld; decide⟩, ⟨wcMet (by decide), by decide, by decide, by unfold State.hasWorld; decide, by decide +kernel,
      by decide, by decide, fun _ => rfl⟩⟩
theorem witness_WorldOperations_banks :
    (let s := wc 3 0x100 0 0; WcMet s 3 0 ∧ wr s 1 / 2 ^ 8 ≠ 0) ∧ (let s := wc 3 192 0 0; WcMet s 3 0 ∧ 191 < wr s 1 % 256) ∧
    (let s := wc 0x303 0 1 0; WcMet s 3 3 ∧ wr s 1 / 2 ^ 8 = 0 ∧ wr s 1 % 256 ≤ 191 ∧ ¬ s.hasWorld 3) ∧
    (let s := wc 0x303 0 1 0 fun s => withWorld false (withSpad s); WcMet s 3 3 ∧ wr s 1 / 2 ^ 8 = 0 ∧ wr s 1 % 256 ≤ 191 ∧ s.hasWorld 3 ∧
      bitAt (wr s 2) 0 = true ∧ (s.core (wr s 1 % 256)).banks[0]? = some ⟨0, .spad⟩) ∧
    (let s := wc 0x303 0 0x80000000 0 fun s => withWorld false (withSpad s); WcMet s 3 3 ∧ wr s 1 / 2 ^ 8 = 0 ∧ wr s 1 % 256 ≤ 191 ∧ s.hasWorld 3 ∧
      (∀ k < 32, bitAt (wr s 2) k = true → (s.core (wr s 1 % 256)).banks[k]? = some ⟨0, .cache⟩) ∧ Canonical s ∧
      (s.core (wr s 1 % 256)).banks.length = 32 ∧ s.copies = [] ∧ s.lates = []) :=
  ⟨⟨wcMet (by decide), by decide⟩, ⟨wcMet (by decide), by decide⟩, ⟨wcMet (by decide), by unfold State.hasWorld; decide⟩,
    ⟨wcMet (by decide), by unfold State.hasWorld; decide +kernel⟩, ⟨wcMet (by decide), by unfold State.hasWorld Canonical; decide +kernel⟩⟩
theorem witness_WorldOperations_destroy :
    (let s := wc 0x305 0 0 0; WcMet s 5 3 ∧ ¬ s.hasWorld 3) ∧
    (let s := wc 0x305 0 0 0 fun s => { withWorld false s with arenas := [(3, 0)] }; WcMet s 5 3 ∧ s.hasWorld 3 ∧ mget? s.arenas 3 ≠ none) ∧
    (let s := wc 0x305 0 0 0 (withWorld true); WcMet s 5 3 ∧ s.hasWorld 3 ∧ s.drawers = [] ∧ Drawer.init.world ≠ 3 ∧ s.cores = [] ∧
      (∀ y ∈ Core.init.banks, y.owner ≠ 3) ∧ s.queues = [] ∧ s.arenas = [] ∧ ∀ k ∈ (s.opened (gOf s) (bOf s)).tasks, k.2.world ≠ 3) :=
  ⟨⟨wcMet (by decide), by unfold State.hasWorld; decide⟩, ⟨wcMet (by decide), by unfold State.hasWorld; decide⟩,
    ⟨wcMet (by decide), by unfold State.hasWorld; decide +kernel⟩⟩
theorem witness_WorldOperations_tlpool :
    (let s := wc 6 1 0 0; WcMet s 6 0 ∧ wpair s % 65536 ≠ 0) ∧ (let s := wc 6 0 0x1000000 0; WcMet s 6 0 ∧ 2 ^ 56 ≤ wpair s) ∧
    (let s := wc 0x306 0 0xFFFFFF 4; WcMet s 6 3 ∧ wpair s % 65536 = 0 ∧ wpair s < 2 ^ 56 ∧ ¬ s.hasWorld 3) ∧
    (let s := wc 6 0x10000 0 4 fun s => s.updTask 1 fun t => { t with areas := [0] }; WcMet s 6 0 ∧ wpair s % 65536 = 0 ∧ wpair s < 2 ^ 56 ∧ s.hasWorld 0 ∧
      ∃ k ∈ (s.opened (gOf s) (bOf s)).tasks, k.2.world = 0 ∧ k.2.areas ≠ []) ∧
    (let s := wc 6 0x10000 0 4; WcMet s 6 0 ∧ wpair s % 65536 = 0 ∧ wpair s < 2 ^ 56 ∧ s.hasWorld 0 ∧
      ∀ k ∈ (s.opened (gOf s) (bOf s)).tasks, k.2.areas = []) :=
  ⟨⟨wcMet (by decide), by decide⟩, ⟨wcMet (by decide), by decide⟩, ⟨wcMet (by decide), by unfold State.hasWorld; decide⟩,
    ⟨wcMet (by decide), by unfold State.hasWorld; decide⟩, ⟨wcMet (by decide), by unfold State.hasWorld; decide⟩⟩

/-! The trust root, its operands in uniform registers 20 to 22. -/

/-- The premises all its instructions share. -/
def TrMet (s : State) (ops : List Opnd) : Prop := Leads s (gOf s) (bOf s) 0 [] (rawOf s) ∧ Passes (bOf s) (gOf s) ops []
theorem trMet {s : State} {ops : List Opnd} (h : (leadsB s && passesB s ops []) = true) : TrMet s ops := by
  simp only [Bool.and_eq_true] at h
  exact ⟨leads_of h.1, passes_of h.2⟩
noncomputable def kl (r0 r1 : Nat) (f : State → State := id) : State := rigI (.keyld 4#7 20#7) [] [(20, r0), (21, r1)] f
def kops : List Opnd := [wV 4#7, rU 20#7 2]
/-- Scratchpad of a steward, and its maps canonical. -/
theorem clean_of {s : State} {c : Nat} (h : decide ((mwf 0 (s.core c).spad = true ∧ mwf tag0 (s.core c).stags = true ∧ mwf 0 (s.core c).pres = true) ∧
    Memory.wf s.mem = true ∧ mwf tag0 s.tags = true ∧ mwf Core.init s.cores = true) = true) : CoreCanonical (s.core c) ∧ Canonical s := by
  unfold CoreCanonical Canonical; exact of_decide_eq_true h
theorem extent_of {s : State} {c w x n al : Nat} (h : decide (x % al = 0 ∧ x + n ≤ s.spadSize c w) = true) (h' : ∀ i, s.pres c w i = 0) :
    Extent s c w x n al := ⟨(of_decide_eq_true h).1, (of_decide_eq_true h).2, fun i _ _ => h' i⟩
theorem witness_TrustRootInstructions_keyld :
    (let s := kl 0x200 0 withHandler; TrMet s kops ∧ 2 ≤ bits (wr s 0) 9 8 ∧ AllHandlersReady s (gOf s) (bOf s) ((bOf s).executing (gOf s))) ∧
    (let s := kl 3 0 (withWorld false); TrMet s kops ∧ bits (wr s 0) 9 8 < 2 ∧ wr s 0 / 2 ^ 11 = 0 ∧ ¬ (s.hasWorld 3 ∧ (s.world 3).conf = true)) ∧
    (let s := kl 3 0 fun s => { withWorld true s with asqs := [(0, { Asq.init with runs := [{ aRun with who := { aRun.who with world := 3 } }] })] };
      TrMet s kops ∧ bits (wr s 0) 9 8 < 2 ∧ wr s 0 / 2 ^ 11 = 0 ∧ (s.hasWorld 3 ∧ (s.world 3).conf = true) ∧ s.engineOf 3 = true) ∧
    (let s := kl 0x503 0 (withWorld true); TrMet s kops ∧ bits (wr s 0) 9 8 = 1 ∧ wr s 0 / 2 ^ 11 = 0 ∧ (s.hasWorld 3 ∧ (s.world 3).conf = true) ∧
      ¬ ((∃ y ∈ s.benches ++ s.saved, drawerOf y.place ≠ none ∧ y.world = 3) ∨ s.engineOf 3 = true) ∧ bitAt (wr s 0) 10 = true) ∧
    (let s := kl 3 0x40 (withWorld true); TrMet s kops ∧ bits (wr s 0) 9 8 = 0 ∧ wr s 0 / 2 ^ 11 = 0 ∧ (s.hasWorld 3 ∧ (s.world 3).conf = true) ∧
      ¬ ((∃ y ∈ s.benches ++ s.saved, drawerOf y.place ≠ none ∧ y.world = 3) ∨ s.engineOf 3 = true) ∧ bitAt (wr s 0) 10 = false ∧
      (∀ y ∈ s.copies, y.world ≠ 3) ∧ Readable s (coreIx (gOf s).place) (bOf s).world (wr s 1) 64 64 ∧ CoreCanonical (s.core (coreIx (gOf s).place)) ∧ Canonical s) :=
  ⟨⟨trMet (by decide), by decide, handlers_of (by decide)⟩, ⟨trMet (by decide), by unfold State.hasWorld; decide⟩,
    ⟨trMet (by decide), by unfold State.hasWorld; decide⟩, ⟨trMet (by decide), by unfold State.hasWorld; decide⟩,
    ⟨trMet (by decide), by decide, by decide, by unfold State.hasWorld; decide, by decide, by decide, by decide,
      readable_of (by decide) (fun _ => rfl) (by decide), clean_of (by decide)⟩⟩

/-- SIGN, MEXT and SEAL: registers 20 and 21. -/
def sg (i : Instr) (r0 r1 : Nat) (f : State → State := id) : State := rigI i [] [(20, r0), (21, r1)] f
def sops : List Opnd := [wV 4#7, rU 20#7, rU 21#7]
theorem witness_TrustRootInstructions_sign : let s := sg (.sign 4#7 20#7 21#7) 0x40 0x80
    TrMet s sops ∧ Readable s (coreIx (gOf s).place) (bOf s).world (wr s 0) 48 64 ∧ Extent s (coreIx (gOf s).place) (bOf s).world (wr s 1) 96 64 ∧
      CoreCanonical (s.core (coreIx (gOf s).place)) ∧ Canonical s :=
  ⟨trMet (by decide), readable_of (by decide) (fun _ => rfl) (by decide), extent_of (by decide) fun _ => rfl, clean_of (by decide)⟩
theorem witness_TrustRootInstructions_mext (n : Nat) (h : n = 3 ∨ n = 15) : let s := sg (.mext 4#7 20#7 21#7) n 0x40
    TrMet s sops ∧ wr s 0 = n ∧ wr s 0 ≤ 15 ∧ Readable s (coreIx (gOf s).place) (bOf s).world (wr s 1) 48 64 := by
  rcases h with rfl | rfl <;> exact ⟨trMet (by decide), by decide, by decide, readable_of (by decide) (fun _ => rfl) (by decide)⟩
theorem witness_TrustRootInstructions_refused (i : Instr) (n : Nat) (h : i = .mext 4#7 20#7 21#7 ∧ n = 16 ∨ i = .seal 4#7 20#7 21#7 ∧ n = 0x300) :
    let s := sg i n 0x40 withHandler
    TrMet s sops ∧ wr s 0 = n ∧ AllHandlersReady s (gOf s) (bOf s) ((bOf s).executing (gOf s)) := by
  rcases h with ⟨rfl, rfl⟩ | ⟨rfl, rfl⟩ <;> exact ⟨trMet (by decide), by decide, handlers_of (by decide)⟩
theorem witness_TrustRootInstructions_seal (n : Nat) (h : n = 0x200 ∨ n = 1) : let s := sg (.seal 4#7 20#7 21#7) n 0x100
    TrMet s sops ∧ wr s 0 / 2 ^ 10 = 0 ∧ bits (wr s 0) 9 8 ≠ 3 ∧ Readable s (coreIx (gOf s).place) (bOf s).world (wr s 1) 256 256 ∧
      ((s.crec (wr s 0 % 256)).st = .live ↔ n = 0x200) ∧ (s.crec (wr s 0 % 256)).value + 1 < 2 ^ 64 ∧
      CoreCanonical (s.core (coreIx (gOf s).place)) ∧ Canonical s := by
  rcases h with rfl | rfl <;> exact ⟨trMet (by decide), by decide, by decide, readable_of (by decide) (fun _ => rfl) (by decide), by decide, by decide,
    clean_of (by decide)⟩
noncomputable def nv (n : Nat) (f : State → State := id) : State := rigI (.nvinc 4#7 20#7) [] [(20, n)] f
def nops : List Opnd := [wV 4#7 2, rU 20#7]
theorem witness_TrustRootInstructions_nvinc :
    (let s := nv 0x10000 withHandler; TrMet s nops ∧ 2 ^ 16 ≤ wr s 0 ∧ AllHandlersReady s (gOf s) (bOf s) ((bOf s).executing (gOf s))) ∧
    (let s := nv 0x301; TrMet s nops ∧ wr s 0 < 2 ^ 16 ∧ (s.crec (wr s 0 % 256)).st = .free) ∧
    (let s := nv 0; TrMet s nops ∧ wr s 0 < 2 ^ 16 ∧ (s.crec (wr s 0 % 256)).st = .live ∧ (s.crec (wr s 0 % 256)).owner = bits (wr s 0) 15 8 ∧
      (s.crec (wr s 0 % 256)).value + 1 < 2 ^ 64) ∧
    (let s := nv 0x300; TrMet s nops ∧ wr s 0 < 2 ^ 16 ∧ (s.crec (wr s 0 % 256)).st = .live ∧ (s.crec (wr s 0 % 256)).owner ≠ bits (wr s 0) 15 8) :=
  ⟨⟨trMet (by decide), by decide, handlers_of (by decide)⟩, ⟨trMet (by decide), by decide⟩, ⟨trMet (by decide), by decide⟩,
    ⟨trMet (by decide), by decide⟩⟩
theorem witness_TrustRootInstructions_unseal : let s := rigI (.unseal 4#7 20#7) [] [(20, 0x100)]
    TrMet s [wV 4#7, rU 20#7] ∧ Readable s (coreIx (gOf s).place) (bOf s).world (wr s 0) 256 256 :=
  ⟨trMet (by decide), readable_of (by decide) (fun _ => rfl) (by decide)⟩

/-! Hashes: state in 40 to 59, source in 20, count in 21. -/

theorem witness_HashInstructions_start : TrMet (rigI (.hinit 40#7)) [wU 40#7 20] := trMet (by decide)
def hops : List Opnd := [rU 40#7 20, rU 20#7, rU 21#7, wU 40#7 20]
noncomputable def hs (last : Bool) (n : Nat) (f : State → State) : State :=
  rigI (if last then .hfin 40#7 20#7 21#7 else .habs 40#7 20#7 21#7) [] [(20, 0x80), (21, n)] f
theorem witness_HashInstructions_absorb (last : Bool) : let s := hs last (if last then 127 else 512) withSpad
    TrMet s hops ∧ (bOf s).un (rawOf s) 21#7 0 ≤ (if last then 127 else 512) ∧
      Readable s (coreIx (gOf s).place) (bOf s).world (wr s 0) (if last then (bOf s).un (rawOf s) 21#7 0 else 128 * (bOf s).un (rawOf s) 21#7 0)
        (if last then 4 else 128) := by
  cases last <;> exact ⟨trMet (by decide), by decide, readable_of (by decide) (fun _ => rfl) (by decide)⟩
theorem witness_HashInstructions_refused (last : Bool) : let s := hs last (if last then 128 else 513) withHandler
    TrMet s hops ∧ (if last then 127 else 512) < (bOf s).un (rawOf s) 21#7 0 ∧
      AllHandlersReady s (gOf s) (bOf s) ((bOf s).executing (gOf s)) := by
  cases last <;> exact ⟨trMet (by decide), by decide, handlers_of (by decide)⟩

/-! Stewards. -/

theorem witness_StewardInstructions_ipi :
    (let s := rigI (.ipi 20#7 21#7) [] [(20, 16)] withHandler; TrMet s [rU 20#7, rU 21#7] ∧ wr s 0 % 16 = 0 ∧
      AllHandlersReady s (gOf s) (bOf s) ((bOf s).executing (gOf s))) ∧
    (let s := rigI (.ipi 20#7 21#7) [] [(20, 15), (21, 9)]; TrMet s [rU 20#7, rU 21#7] ∧ wr s 0 % 16 ≠ 0 ∧ (∀ y ∈ s.copies, y.dirty = false) ∧
      ∀ y ∈ s.lates, y.who.place ≠ (gOf s).place) :=
  ⟨⟨trMet (by decide), by decide, handlers_of (by decide)⟩, ⟨trMet (by decide), by decide⟩⟩
theorem witness_StewardInstructions_evtpop (some? : Bool) :
    let s := rigI (.evtpop 8#7 true) [] [] fun s => if some? then { s with evq := [(1, [⟨[8, 1, 0, 0, 0, 0, 0, 0]⟩])] } else s
    TrMet s [wV 8#7 8] ∧ (gOf s).place = .steward 1 0 ∧ (mget [] s.evq 1 = if some? then [⟨[8, 1, 0, 0, 0, 0, 0, 0]⟩] else []) := by
  cases some? <;> exact ⟨trMet (by decide), by decide, by decide⟩
noncomputable def pl (va tag f : Nat) (g : State → State := id) : State := rigI (.placePrefer 4#7 20#7 24#7) [] [(20, va), (22, 1), (23, tag), (24, f)] g
def pops : List Opnd := [wV 4#7, rU 20#7 4, rU 24#7]
def pf (s : State) : Nat := (bOf s).un (rawOf s) 24#7 0
theorem witness_StewardInstructions_place :
    (let s := pl 0 0 4 withHandler; TrMet s pops ∧ 4 ≤ pf s % 16 ∧ AllHandlersReady s (gOf s) (bOf s) ((bOf s).executing (gOf s))) ∧
    (let s := pl 0 0 0x30 withHandler; TrMet s pops ∧ pf s % 16 = 0 ∧ bits (pf s) 5 4 = 3 ∧ AllHandlersReady s (gOf s) (bOf s) ((bOf s).executing (gOf s))) ∧
    (let s := pl 0 256 0 withHandler; TrMet s pops ∧ 2 ^ 8 ≤ wr s 3 ∧ AllHandlersReady s (gOf s) (bOf s) ((bOf s).executing (gOf s))) ∧
    (let s := pl 0x8000 255 1 withHandler; TrMet s pops ∧ wr s 3 < 2 ^ 8 ∧ pf s < 2 ^ 6 ∧ pf s % 16 = 1 ∧ bits (pf s) 5 4 = 0 ∧
      (wr s 0 + 2 ^ 32 * wr s 1) % 65536 ≠ 0 ∧ AllHandlersReady s (gOf s) (bOf s) ((bOf s).executing (gOf s))) ∧
    (let s := pl 0x10000 255 0x20; TrMet s pops ∧ wr s 3 < 2 ^ 8 ∧ pf s < 2 ^ 6 ∧ pf s % 16 = 0 ∧ bits (pf s) 5 4 < 3 ∧ (wr s 0 + 2 ^ 32 * wr s 1) % 65536 = 0) ∧
    (let s := pl 0x10000 255 1; TrMet s pops ∧ wr s 3 < 2 ^ 8 ∧ pf s < 2 ^ 6 ∧ pf s % 16 = 1 ∧ bits (pf s) 5 4 = 0 ∧ (wr s 0 + 2 ^ 32 * wr s 1) % 65536 = 0) ∧
    (let s := pl 0x10000 255 2; TrMet s pops ∧ wr s 3 < 2 ^ 8 ∧ pf s < 2 ^ 6 ∧ pf s % 16 = 2 ∧ bits (pf s) 5 4 = 0 ∧ (wr s 0 + 2 ^ 32 * wr s 1) % 65536 = 0) ∧
    (let s := pl 5 0 3; TrMet s pops ∧ wr s 3 < 2 ^ 8 ∧ pf s = 3) :=
  ⟨⟨trMet (by decide), by decide, handlers_of (by decide)⟩, ⟨trMet (by decide), by decide, by decide, handlers_of (by decide)⟩,
    ⟨trMet (by decide), by decide, handlers_of (by decide)⟩,
    ⟨trMet (by decide), by decide, by decide, by decide, by decide, by decide, handlers_of (by decide)⟩,
    ⟨trMet (by decide), by decide⟩, ⟨trMet (by decide), by decide⟩, ⟨trMet (by decide), by decide⟩, ⟨trMet (by decide), by decide⟩⟩
theorem witness_StewardInstructions_capr (n : Nat) (h : n = 0 ∨ n = 64 ∨ n = 65) : let s := rigI (.capr 4#7 20#7) [] [(20, n)]
    TrMet s [wV 4#7 4, rU 20#7] ∧ wr s 0 = n := by rcases h with rfl | rfl | rfl <;> exact ⟨trMet (by decide), by decide⟩
theorem witness_StewardInstructions_resync :
    (let s := rigI (.resync 4#7 20#7) [] [(20, 0x30800)] withHandler; TrMet s kops ∧ (wr s 0 + 2 ^ 32 * wr s 1) % 4096 ≠ 0 ∧
      AllHandlersReady s (gOf s) (bOf s) ((bOf s).executing (gOf s))) ∧
    (let s := rigI (.resync 4#7 20#7) [] [(20, 0x30000)]; TrMet s kops ∧ (wr s 0 + 2 ^ 32 * wr s 1) % 4096 = 0 ∧
      s.dpaFault (wr s 0 + 2 ^ 32 * wr s 1) 4096 = none ∧ Canonical s ∧ s.confW 0 = false) :=
  ⟨⟨trMet (by decide), by decide, handlers_of (by decide)⟩, ⟨trMet (by decide), by decide, by decide, canonical_of (by decide), by decide⟩⟩

end Sys2Proof.Tests
end

