-- ==== Sys2Proof/Tests/WitnessH.lean ====
section
/-! SUPPORT. For each statement about leases, a concrete state and operands that meet its premises. -/

namespace Sys2Proof.Tests

set_option Elab.async false

open Sys2Proof Sys2Proof.Machine

/-- Entry 5, of generation 3, with peer 7 on its other side; and that peer, live, of incarnation 3. -/
def lz (st : LState) (r : LRole) (e : Option Nat := none) : Lease :=
  { Lease.none with state := st, role := r, lid := 5, lidx := 5, lender := 7, borrower := 7, ext := 1, gen := 3, pinc := 3, expiry := e }
def withLse (f : Lse → Lse) (s : State) : State := { s with hub := { s.hub with lse := f s.hub.lse } }
def withPeer : State → State := withLse fun x => { x with peers := [(7, ⟨0, 0, 3, none, [], false⟩)] }
def withLease (l : Lease) (s : State) : State := { withPeer s with leases := [(5, l)] }
/-- A system queue 9 of a BTE for prefetch. -/
def withPf (s : State) : State :=
  withLse (fun x => { x with cfg := { x.cfg with qnum := 9 } })
    { s with queues := [(qKey (.mem 9), { BQueue.init (.mem 9) 0 0 with sys := true })] }

/-! LSET: register 20 names the operation and the entry, 24 to 27 hold the operands. -/

noncomputable def ls (r0 f0 f1 f2 f3 : Nat) (f : State → State := id) : State :=
  rigI (.lsetConfig 4#7 20#7 24#7) [] [(20, r0), (24, f0), (25, f1), (26, f2), (27, f3)] f
def lops : List Opnd := [wV 4#7, rU 20#7, rU 24#7 4]
def fr (s : State) (i : Nat) : Nat := (bOf s).un (rawOf s) 24#7 i
def LsMet (s : State) (n i : Nat) : Prop := Leads s (gOf s) (bOf s) 0 [] (rawOf s) ∧ Passes (bOf s) (gOf s) lops [] ∧ mwf Lease.none s.leases = true ∧ s.lates = [] ∧
  bits (wr s 0) 31 28 = n ∧ bits (wr s 0) 27 12 = 0 ∧ wr s 0 % 4096 = i
theorem lsMet {s : State} {n i : Nat} (h : (leadsB s && passesB s lops [] && decide (mwf Lease.none s.leases = true ∧ s.lates = [] ∧ bits (wr s 0) 31 28 = n ∧
    bits (wr s 0) 27 12 = 0 ∧ wr s 0 % 4096 = i)) = true) : LsMet s n i := by
  simp only [Bool.and_eq_true, decide_eq_true_eq] at h
  exact ⟨leads_of h.1.1, passes_of h.1.2, h.2⟩
theorem witness_LeaseInstructions_reserved (r0 : Nat) (h : r0 = 0x1000 ∨ r0 = 0x80000000 ∨ r0 = 0x10000000) : let s := ls r0 0 0 0 0 withHandler
    Leads s (gOf s) (bOf s) 0 [] (rawOf s) ∧ Passes (bOf s) (gOf s) lops [] ∧ mwf Lease.none s.leases = true ∧ s.lates = [] ∧
      AllHandlersReady s (gOf s) (bOf s) ((bOf s).executing (gOf s)) ∧ (bits (wr s 0) 27 12 ≠ 0 ∨ 8 ≤ bits (wr s 0) 31 28 ∨
        (wr s 0 % 4096 = 0 ∧ bits (wr s 0) 31 28 ≠ 0 ∧ bits (wr s 0) 31 28 ≠ 7)) := by
  rcases h with rfl | rfl | rfl <;> exact ⟨leads_of (by decide), passes_of (by decide), by decide, by decide, handlers_of (by decide), by decide⟩
theorem witness_LeaseInstructions_config :
    (let s := ls 0 0xFF 0xA0001 0x1EA60 0xFFFF0001; LsMet s 0 0 ∧ fr s 0 < 2 ^ 16 ∧ fr s 0 % 256 = 255 ∧ bits (fr s 1) 31 16 = 10 ∧ fr s 1 % 2 ^ 16 = 1 ∧
      bits (fr s 2) 31 16 = 1 ∧ fr s 2 % 2 ^ 16 = 60000 ∧ bits (fr s 3) 31 16 = 0xFFFF ∧ fr s 3 % 2 ^ 16 = 1) ∧
    (let s := ls 0 0xFF 0x90001 0x1EA60 0xFFFF0001 withHandler; LsMet s 0 0 ∧ bits (fr s 1) 31 16 = 9 ∧
      AllHandlersReady s (gOf s) (bOf s) ((bOf s).executing (gOf s))) :=
  ⟨⟨lsMet (by decide), by decide⟩, ⟨lsMet (by decide), by decide, handlers_of (by decide)⟩⟩
theorem witness_LeaseInstructions_offer :
    (let s := ls 0x10000005 1 7 100 2 (withLease (lz .granted .lent)); LsMet s 1 5 ∧ fr s 0 < 2 ^ 11 ∧ fr s 1 < 2 ^ 12 ∧ fr s 2 ≠ 0 ∧ fr s 3 < 2 ^ 12 ∧
      (s.lease 5).state ≠ .free) ∧
    (let s := ls 0x10000006 1 7 100 2 (withLease (lz .granted .lent)); LsMet s 1 6 ∧ fr s 0 < 2 ^ 11 ∧ fr s 1 < 2 ^ 12 ∧ fr s 2 ≠ 0 ∧ fr s 3 < 2 ^ 12 ∧
      (s.lease 6).state = .free ∧ ∃ e ∈ s.leases, e.1 ≠ 6 ∧ e.2.role = .lent ∧ e.2.state ≠ .free ∧ e.2.ext = fr s 0) ∧
    (let s := ls 0x10000005 1 7 100 2; LsMet s 1 5 ∧ fr s 0 < 2 ^ 11 ∧ fr s 1 < 2 ^ 12 ∧ fr s 2 ≠ 0 ∧ fr s 3 < 2 ^ 12 ∧ (s.lease 5).state = .free ∧
      ¬ (s.hssExtent (fr s 0) = true ∨ ∃ e ∈ s.leases, e.1 ≠ 5 ∧ e.2.role = .lent ∧ e.2.state ≠ .free ∧ e.2.ext = fr s 0) ∧ s.peerLive (fr s 1) = false) ∧
    (let s := ls 0x10000FFF 1 7 100 2 withPeer; LsMet s 1 4095 ∧ fr s 0 < 2 ^ 11 ∧ fr s 1 < 2 ^ 12 ∧ fr s 2 ≠ 0 ∧ fr s 3 < 2 ^ 12 ∧
      (s.lease 4095).state = .free ∧ ¬ (s.hssExtent (fr s 0) = true ∨ ∃ e ∈ s.leases, e.1 ≠ 4095 ∧ e.2.role = .lent ∧ e.2.state ≠ .free ∧ e.2.ext = fr s 0) ∧
      s.peerLive (fr s 1) = true) :=
  ⟨⟨lsMet (by decide), by decide⟩, ⟨lsMet (by decide), by decide⟩, ⟨lsMet (by decide), by decide⟩, ⟨lsMet (by decide), by decide⟩⟩
theorem witness_LeaseInstructions_answers (n : Nat) (h : n = 2 ∨ n = 3 ∨ n = 4) : let st : LState := if n = 4 then .granted else .offered
    (let s := ls (n * 2 ^ 28 + 5) 0 0 1 0 (withLease (lz .failed .borrowed)); LsMet s n 5 ∧ fr s 2 ≠ 0 ∧ (s.lease 5).state ≠ st) ∧
    (let s := ls (n * 2 ^ 28 + 5) 0 0 1 0 (withLease (lz st .lent)); LsMet s n 5 ∧ fr s 2 ≠ 0 ∧ (s.lease 5).state = st ∧ (s.lease 5).role ≠ .borrowed) ∧
    (let s := ls (n * 2 ^ 28 + 5) 0 0 1 0 (withLease (lz st .borrowed)); LsMet s n 5 ∧ fr s 2 ≠ 0 ∧ (s.lease 5).state = st ∧ (s.lease 5).role = .borrowed) ∧
    (let s := ls 0x40000005 0 0 0 0 fun s => withHandler (withLease (lz .granted .borrowed) s); LsMet s 4 5 ∧ fr s 2 = 0 ∧
      AllHandlersReady s (gOf s) (bOf s) ((bOf s).executing (gOf s))) := by
  rcases h with rfl | rfl | rfl <;> exact ⟨⟨lsMet (by decide), by decide⟩, ⟨lsMet (by decide), by decide⟩, ⟨lsMet (by decide), by decide⟩,
    ⟨lsMet (by decide), by decide, handlers_of (by decide)⟩⟩
theorem witness_LeaseInstructions_pfetch :
    (let s := ls 0x50000005 0 16385 1 0 fun s => withHandler (withLease (lz .granted .borrowed) s); LsMet s 5 5 ∧ fr s 0 < 2 ^ 14 ∧ fr s 1 < 2 ^ 15 ∧
      fr s 2 < 2 ∧ 16384 < fr s 0 + fr s 1 ∧ AllHandlersReady s (gOf s) (bOf s) ((bOf s).executing (gOf s))) ∧
    (let s := ls 0x50000005 0 16384 1 0 (withLease (lz .granted .borrowed)); LsMet s 5 5 ∧ fr s 0 < 2 ^ 14 ∧ fr s 1 < 2 ^ 15 ∧ fr s 2 < 2 ∧ 1 ≤ fr s 1 ∧
      fr s 0 + fr s 1 ≤ 16384 ∧ (s.lease 5).state = .granted ∧ (s.lease 5).role = .borrowed ∧ s.prefetchQueue = none) ∧
    (let s := ls 0x50000005 16383 1 1 0 fun s => withPf (withLease (lz .granted .borrowed) s); LsMet s 5 5 ∧ fr s 0 < 2 ^ 14 ∧ fr s 1 < 2 ^ 15 ∧ fr s 2 < 2 ∧
      1 ≤ fr s 1 ∧ fr s 0 + fr s 1 ≤ 16384 ∧ (s.lease 5).state = .granted ∧ (s.lease 5).role = .borrowed ∧ s.prefetchQueue ≠ none) :=
  ⟨⟨lsMet (by decide), by decide, by decide, by decide, by decide, handlers_of (by decide)⟩, ⟨lsMet (by decide), by decide⟩,
    ⟨lsMet (by decide), by decide⟩⟩
theorem witness_LeaseInstructions_free :
    (let s := ls 0x60000005 0 0 0 0 (withLease (lz .granted .lent)); LsMet s 6 5 ∧ ¬ ((s.lease 5).state = .failed ∨
      ((s.lease 5).state = .recalling ∨ (s.lease 5).state = .expired) ∧ (s.lease 5).released = true ∨ (s.lease 5).state = .free ∧ (s.lease 5).role = .lent)) ∧
    (let s := ls 0x60000005 0 0 0 0 (withLease (lz .failed .borrowed)); LsMet s 6 5 ∧ (s.lease 5).state = .failed ∧ (s.lease 5).role = .borrowed) :=
  ⟨⟨lsMet (by decide), by decide⟩, ⟨lsMet (by decide), by decide⟩⟩
theorem witness_LeaseInstructions_elect : let s := ls 0x70000000 0 0 0 0; LsMet s 7 0 ∧ s.hub.lse.el.phase = .idle ∧ s.hub.lse.el.todo = [] ∧
    s.hub.lse.el.next = none ∧ s.laterEpoch = none ∧ s.hub.lse.cfg.cslot = 0xFF ∧ 1 ≤ s.hub.lse.cfg.settle ∧ s.eEpoch + 1 < 2 ^ 32 :=
  ⟨lsMet (by decide), by decide +kernel⟩

/-! LGET, LRECALL, BISNP. -/

/-- The premises the three share. -/
def LcMet (s : State) (ops : List Opnd) : Prop := TrMet s ops ∧ mwf Lease.none s.leases = true ∧ s.lates = []
theorem lcMet {s : State} {ops : List Opnd} (h : (leadsB s && passesB s ops [] && decide (mwf Lease.none s.leases = true ∧ s.lates = [])) = true) :
    LcMet s ops := by
  simp only [Bool.and_eq_true, decide_eq_true_eq] at h
  exact ⟨⟨leads_of h.1.1, passes_of h.1.2⟩, h.2⟩

noncomputable def lg (x : Nat) : State := rigI (.lgetEntryLow 4#7 20#7) [] [(20, x)] fun s => withHandler (withLease (lz .granted .lent) s)
theorem witness_LeaseInstructions_lget (k : Nat) (h : k = 0 ∨ k = 1 ∨ k = 2 ∨ k = 3) :
    (let s := lg (k * 2 ^ 30 + if k < 2 then 5 else 0)
    LcMet s [wV 4#7 4, rU 20#7] ∧ bits (wr s 0) 29 12 = 0 ∧ bits (wr s 0) 31 30 = k ∧ (wr s 0 % 4096 ≠ 0 ↔ k < 2) ∧
      AllHandlersReady s (gOf s) (bOf s) ((bOf s).executing (gOf s))) ∧
    (let s := lg (k * 2 ^ 30 + if k < 2 then 0 else 5)
    LcMet s [wV 4#7 4, rU 20#7] ∧ bits (wr s 0) 29 12 = 0 ∧ bits (wr s 0) 31 30 = k ∧ (wr s 0 % 4096 = 0 ↔ k < 2) ∧
      AllHandlersReady s (gOf s) (bOf s) ((bOf s).executing (gOf s))) := by
  rcases h with rfl | rfl | rfl | rfl <;> exact ⟨⟨lcMet (by decide), by decide, by decide, by decide, handlers_of (by decide)⟩,
    ⟨lcMet (by decide), by decide, by decide, by decide, handlers_of (by decide)⟩⟩
noncomputable def lr (n : Nat) (f : State → State := id) : State := rigI (.lrecall 4#7 20#7) [] [(20, n)] f
theorem witness_LeaseInstructions_lrecall :
    (let s := lr 4096 withHandler; LcMet s [wV 4#7, rU 20#7] ∧ 4096 ≤ wr s 0 ∧ AllHandlersReady s (gOf s) (bOf s) ((bOf s).executing (gOf s))) ∧
    (let s := lr 4095; LcMet s [wV 4#7, rU 20#7] ∧ wr s 0 ≠ 0 ∧ wr s 0 < 4096 ∧ (s.lease 4095).role = .none) ∧
    (let s := lr 5 (withLease (lz .offered .lent)); LcMet s [wV 4#7, rU 20#7] ∧ wr s 0 = 5 ∧ (s.lease 5).role ≠ .none ∧ (s.lease 5).state ≠ .granted) ∧
    (let s := lr 5 (withLease (lz .granted .lent)); LcMet s [wV 4#7, rU 20#7] ∧ wr s 0 = 5 ∧ (s.lease 5).role = .lent ∧ (s.lease 5).state = .granted) ∧
    (let s := lr 5 (withLease (lz .granted .borrowed)); LcMet s [wV 4#7, rU 20#7] ∧ wr s 0 = 5 ∧ (s.lease 5).role = .borrowed ∧
      (s.lease 5).state = .granted ∧ NoneDirty s) :=
  ⟨⟨lcMet (by decide), by decide, handlers_of (by decide)⟩, ⟨lcMet (by decide), by decide⟩, ⟨lcMet (by decide), by decide⟩,
    ⟨lcMet (by decide), by decide⟩, ⟨lcMet (by decide), by unfold NoneDirty; decide⟩⟩
/-- The one port of the module is down. -/
def withDownPort : State → State := withLse fun x => { x with ports := [(0, ⟨false, true, 16⟩)] }
noncomputable def bi (r0 f0 f1 : Nat) (f : State → State := id) : State := rigI (.bisnp 4#7 20#7 24#7) [] [(20, r0), (24, f0), (25, f1)] f
def bops : List Opnd := [wV 4#7, rU 20#7, rU 24#7 2]
theorem witness_LeaseInstructions_bisnp :
    (let s := bi 0x2005 0 1 withHandler; LcMet s bops ∧ 2 ^ 13 ≤ wr s 0 ∧ AllHandlersReady s (gOf s) (bOf s) ((bOf s).executing (gOf s))) ∧
    (let s := bi 0x1005 16383 1 (withLease (lz .granted .borrowed)); LcMet s bops ∧ wr s 0 < 2 ^ 13 ∧ wr s 0 % 4096 = 5 ∧ fr s 0 ≤ 16383 ∧ fr s 1 ≠ 0 ∧
      fr s 0 + fr s 1 ≤ 16384 ∧ ¬ ((s.lease 5).role = .lent ∧ ((s.lease 5).state = .granted ∨ (s.lease 5).state = .recalling))) ∧
    (let s := bi 5 0 1 fun s => withLse (fun x => { x with peers := [] }) (withLease (lz .granted .lent) s); LcMet s bops ∧ wr s 0 = 5 ∧
      (s.lease 5).role = .lent ∧ (s.lease 5).state = .granted ∧ s.peerLive (s.lease 5).borrower = false) ∧
    (let s := bi 5 0 1 (withLease (lz .recalling .lent)); LcMet s bops ∧ wr s 0 = 5 ∧ (s.lease 5).role = .lent ∧ (s.lease 5).state = .recalling ∧
      s.peerLive (s.lease 5).borrower = true ∧ s.pathsDown (s.lease 5).borrower = false) ∧
    (let s := bi 5 0 1 fun s => withDownPort (withLease (lz .recalling .lent) s); LcMet s bops ∧ wr s 0 = 5 ∧ (s.lease 5).role = .lent ∧
      (s.lease 5).state = .recalling ∧ s.peerLive (s.lease 5).borrower = true ∧ s.pathsDown (s.lease 5).borrower = true) :=
  ⟨⟨lcMet (by decide), by decide, handlers_of (by decide)⟩, ⟨lcMet (by decide), by decide⟩, ⟨lcMet (by decide), by decide⟩,
    ⟨lcMet (by decide), by decide⟩, ⟨lcMet (by decide), by decide⟩⟩

/-! Lease messages about entry 5, and the lease clock. -/

def theMsg : LeaseMsg := { mid := 7, incarn := 3, gen := 3, lid := 5, lidx := 5, ext := 1, dur := 100 }
def lzState (st : LState) (r : LRole) : State := withLease (lz st r) State.reset
theorem witness_LeaseMessages_unheard : (mwf Lease.none State.reset.leases = true ∧ ¬ Heard State.reset theMsg ∧ (State.reset.lease 5).gen ≠ theMsg.gen ∧
    State.reset.lates = []) ∧ ¬ Heard (withDownPort (withPeer State.reset)) theMsg ∧ ¬ Heard (withPeer State.reset) { theMsg with incarn := 2 } := by
  unfold Heard; decide
theorem witness_LeaseMessages_offer :
    (let s := withPeer State.reset; Heard s theMsg ∧ 0 < 5 ∧ (s.lease 5).state = .free ∧ 5 = theMsg.lid ∧ mwf Lease.none s.leases = true ∧ s.lates = []) ∧
    (let s := withPeer State.reset; Heard s { theMsg with lid := 0 } ∧ (s.lease 1).state = .free ∧ ∀ j, 0 < j → j < 1 → (s.lease j).state ≠ .free) ∧
    (let s := lzState .granted .lent; Heard s theMsg ∧ theMsg.lid ≠ 0 ∧ (s.lease 5).state ≠ .free ∧ mwf Lease.none s.leases = true ∧ s.lates = []) ∧
    (let s := withPeer State.reset; let m := { theMsg with lid := 4096 }; Heard s m ∧ m.lid ≠ 0 ∧ 4096 ≤ m.lid ∧ mwf Lease.none s.leases = true ∧ s.lates = []) := by
  unfold Heard; refine ⟨by decide, ⟨by decide, by decide, fun j h h' => ?_⟩, by decide, by decide⟩; omega
/-- Every one of `n` entries from `k` is GRANTED. -/
def filled : Nat → Nat → Map Lease
  | 0, _ => []
  | n + 1, k => (k, lz .granted .lent) :: filled n (k + 1)
theorem filled_entry : ∀ n k j, k ≤ j → j < k + n → mget? (filled n k) j = some (lz .granted .lent) := by
  intro n
  induction n with
  | zero => intro k j h h'; omega
  | succ n ih =>
    intro k j h h'
    by_cases e : j = k
    · subst e; simp [filled, mget?]
    · have hk : ¬ j < k := by omega
      simpa [filled, mget?, e, hk] using ih (k + 1) j (by omega) (by omega)
theorem witness_LeaseMessages_full : let s := { withPeer State.reset with leases := filled 4095 1 }
    Heard s { theMsg with lid := 0 } ∧ ∀ j, 0 < j → j < 4096 → (s.lease j).state ≠ .free := by
  refine ⟨by unfold Heard; decide, fun j h h' => ?_⟩
  simp only [State.lease, mget, filled_entry 4095 1 j (by omega) (by omega)]
  decide
theorem witness_LeaseMessages_nak :
    (let s := withPeer State.reset; let m := { theMsg with gen := 0 }; Heard s m ∧ 0 < m.lidx ∧ m.lidx < 4096 ∧ (s.lease m.lidx).gen = m.gen ∧ (s.lease m.lidx).role = .none) ∧
    (let s := lzState .offered .borrowed; Heard s theMsg ∧ (s.lease 5).gen = theMsg.gen ∧ (s.lease 5).role = .borrowed) ∧
    (let s := withLease { lz .offered .lent with pinc := 4 } State.reset; Heard s theMsg ∧ (s.lease 5).gen = theMsg.gen ∧ (s.lease 5).role = .lent ∧
      (s.lease 5).pinc ≠ theMsg.incarn) ∧
    (let s := withLease { lz .offered .lent with borrower := 8 } State.reset; Heard s theMsg ∧ (s.lease 5).gen = theMsg.gen ∧ (s.lease 5).role = .lent ∧
      (s.lease 5).borrower ≠ theMsg.mid) := by
  unfold Heard; decide
theorem witness_LeaseMessages_lender (st : LState) (h : st = .offered ∨ st = .granted ∨ st = .recalling ∨ st = .expired) : let s := lzState st .lent
    About s theMsg theMsg.lidx .lent ∧ (s.lease theMsg.lidx).state = st ∧ mwf Lease.none s.leases = true ∧ s.lates = [] := by
  rcases h with rfl | rfl | rfl | rfl <;> (unfold About Heard; decide)
theorem witness_LeaseMessages_borrower (st : LState) (h : st = .offered ∨ st = .granted ∨ st = .recalling ∨ st = .failed) : let s := lzState st .borrowed
    About s theMsg theMsg.lid .borrowed ∧ (s.lease theMsg.lid).state = st ∧ mwf Lease.none s.leases = true ∧ s.lates = [] ∧ NoneDirty s ∧
      s.copies = [] ∧ s.windowBusy theMsg.lid = false ∧
      (s.bor theMsg.lid).pages = [] ∧ (s.bor theMsg.lid).asked = [] := by
  rcases h with rfl | rfl | rfl | rfl <;> (unfold About Heard NoneDirty; decide)
/-- Entry 5 expires at 10; the time is `now`. -/
def clockState (st : LState) (r : LRole) (now : Nat) : State := { withLease (lz st r (some 10)) State.reset with mstime := now }
/-- A GRANTED borrowed entry before and at EXPIRY − WBLEAD, its prefetch stopped or not; and other ones that the clock leaves. -/
theorem witness_LeaseClock_wblead (stopped : Bool) :
    let lead (x : Lse) : Lse := { x with cfg := { x.cfg with wblead := 2 }, wblead := if stopped then [5] else [] }
    let s := withLse lead (clockState .granted .borrowed 8)
    (let t := { s with mstime := 7 }; mwf Lease.none t.leases = true ∧ mrising t.hub.lse.bor = true ∧ t.lates = [] ∧ (t.lease 5).state = .granted ∧
      (t.lease 5).role = .borrowed ∧ (t.lease 5).expiry = some 10 ∧ t.mstime + t.hub.lse.cfg.wblead < 10) ∧
    mwf Lease.none s.leases = true ∧ mrising s.hub.lse.bor = true ∧ s.lates = [] ∧ (s.lease 5).state = .granted ∧ (s.lease 5).role = .borrowed ∧
      (s.lease 5).expiry = some 10 ∧ 10 ≤ s.mstime + s.hub.lse.cfg.wblead ∧ (5 ∈ s.hub.lse.wblead ↔ stopped = true) ∧ NoneDirty s := by
  cases stopped <;> (unfold NoneDirty; decide)
theorem witness_LeaseClock_none : (clockState .offered .lent 9).lease 5 ≠ Lease.none ∧ (State.reset.lease 5).role = .none ∧
    mget? State.reset.hub.lse.until_ 5 = none ∧ ((clockState .granted .lent 9).lease 5).role ≠ .borrowed := by decide
theorem witness_LeaseClock_expiry (r : LRole) (h : r = .lent ∨ r = .borrowed) (now : Nat) (h' : now = 9 ∨ now = 10) : let s := clockState .granted r now
    mwf Lease.none s.leases = true ∧ mrising s.hub.lse.bor = true ∧ s.lates = [] ∧ (s.lease 5).state = .granted ∧ (s.lease 5).role = r ∧ (s.lease 5).expiry = some 10 ∧
      s.mstime = now ∧ 10 ≤ s.mstime + s.hub.lse.cfg.wblead ∧ 5 ∉ s.hub.lse.wblead ∧ NoneDirty s := by
  rcases h with rfl | rfl <;> rcases h' with rfl | rfl <;> (unfold NoneDirty; decide)
theorem witness_LeaseClock_window (st : LState) (h : st = .offered ∨ st = .recalling) (now : Nat) (h' : now = 19 ∨ now = 20) :
    let s := withLse (fun x => { x with until_ := [(5, 20)] }) (clockState st .lent now)
    mwf Lease.none s.leases = true ∧ mrising s.hub.lse.bor = true ∧ s.lates = [] ∧ mget? s.hub.lse.until_ 5 = some 20 ∧ (s.lease 5).role = .lent ∧ (s.lease 5).state = st ∧
      s.mstime = now := by rcases h with rfl | rfl <;> rcases h' with rfl | rfl <;> decide
theorem witness_LeaseClock_flush (on : Bool) : let s := withLse (fun x => { x with bor := [(5, ⟨0, 0, [], [], on, []⟩)] }) (clockState .recalling .borrowed 9)
    mwf Lease.none s.leases = true ∧ mrising s.hub.lse.bor = true ∧ s.lates = [] ∧ s.unpushed = [] ∧ s.windowBusy 5 = false ∧ (s.bor 5).flush = on ∧ (s.bor 5).asked = [] ∧ (s.bor 5).pages = [] ∧ s.copies = [] ∧
      (s.lease 5).role = .borrowed ∧ (s.lease 5).state = .recalling := by cases on <;> decide

end Sys2Proof.Tests
end

