-- ==== Sys2Proof/Tests/WitnessI.lean ====
section
/-! SUPPORT. For each statement about checkpoints, module events, peers, the fabric, the responder, the control block, MMIO, boot and fetch faults, a
concrete state and operands that meet its premises. -/

namespace Sys2Proof.Tests

set_option Elab.async false

open Sys2Proof Sys2Proof.Machine

/-! Checkpoints. -/

def snapDesc (src nblk flags pman nman dst : Nat) : List Byte := natLe 8 src ++ natLe 4 nblk ++ natLe 4 flags ++ natLe 8 pman ++ natLe 8 nman ++ natLe 8 dst
def withDesc (flags : Nat) (s : State) : State := s.pokeBytes 0x60000 (snapDesc 0x100000 1 flags 0 0x200000 0x300000)
def withOps (ops : List DceOp) (s : State) : State := s.withDce { s.hub.dce with ops := ops }
noncomputable def sn (x : Nat) (f : State → State := id) : State := rigI (.snap 4#7 20#7) [] [(20, x)] f
def xr (s : State) : Nat := wr s 0 + 2 ^ 32 * wr s 1
def dops : List Opnd := [wV 4#7 2, rU 20#7 2]
theorem usable_of {s : State} {a n : Nat} (h : a + n ≤ 768 * gib) : Usable s a n :=
  ⟨.inl h, fun e _ => .inl (by unfold tib gib at *; omega)⟩
theorem snapOk_of {s : State} {x : Nat} (h : decide (s.field x 8 = 0x100000 ∧ s.field (x + 8) 4 = 1 ∧ s.field (x + 0xC) 4 = 0 ∧ s.field (x + 0x10) 8 = 0 ∧
    s.field (x + 0x18) 8 = 0x200000 ∧ s.field (x + 0x20) 8 = 0x300000 ∧ s.field (x + 0x28) 24 = 0) = true) : SnapOk s x := by
  obtain ⟨a, b, c, d, e, f, g⟩ := of_decide_eq_true h
  refine ⟨by rw [a, d, e, f]; decide, by rw [c, g]; decide, by rw [b]; decide, fun m hm => ?_, by rw [a, b]; unfold Populated; decide,
    by rw [f]; exact .inr (usable_of (by decide))⟩
  rw [a, b, d, e] at *
  rcases hm with rfl | ⟨rfl, hm⟩
  · exact ⟨by decide, usable_of (by decide)⟩
  · exact absurd rfl hm
theorem witness_CheckpointInstructions_misaligned : let s := sn 0x60020 withHandler
    TrMet s dops ∧ xr s % 64 ≠ 0 ∧ AllHandlersReady s (gOf s) (bOf s) ((bOf s).executing (gOf s)) :=
  ⟨trMet (by decide), by decide, handlers_of (by decide)⟩
theorem witness_CheckpointInstructions_snap (n : Nat) (h : n = 0 ∨ n = 16) :
    let s := sn 0x60000 fun s => withOps (List.replicate n (.scrub 0 0 0 0)) (withDesc 0 s)
    TrMet s dops ∧ xr s % 64 = 0 ∧ Usable s (xr s) 64 ∧ s.dataError (xr s) true = false ∧ SnapOk s (xr s) ∧ s.hub.dce.ops.length = n := by
  rcases h with rfl | rfl <;> exact ⟨trMet (by decide +kernel), by decide +kernel, usable_of (by decide +kernel), by decide +kernel,
    snapOk_of (by decide +kernel), by decide +kernel⟩
theorem witness_CheckpointInstructions_reserved : let s := sn 0x60000 fun s => withHandler (withDesc 0x2000 s)
    TrMet s dops ∧ xr s % 64 = 0 ∧ Usable s (xr s) 64 ∧ s.dataError (xr s) true = false ∧ s.field (xr s) 8 % 4096 = 0 ∧ s.field (xr s + 0x10) 8 % 64 = 0 ∧
      s.field (xr s + 0x18) 8 % 64 = 0 ∧ s.field (xr s + 0x20) 8 % 64 = 0 ∧ bits (s.field (xr s + 0xC) 4) 30 13 ≠ 0 ∧
      AllHandlersReady s (gOf s) (bOf s) ((bOf s).executing (gOf s)) :=
  ⟨trMet (by decide +kernel), by decide +kernel, usable_of (by decide +kernel), by decide +kernel, by decide +kernel, by decide +kernel,
    by decide +kernel, by decide +kernel, by decide +kernel, handlers_of (by decide +kernel)⟩
noncomputable def sb (x e : Nat) (f : State → State := id) : State := rigI (.scrub 4#7 20#7 24#7) [] [(20, x), (24, e)] f
def eops : List Opnd := [wV 4#7 2, rU 20#7 2, rU 24#7 2]
theorem witness_CheckpointInstructions_scrub :
    (let s := sb 0x60000 2048 withHandler; TrMet s eops ∧ 2 ^ 11 ≤ fr s 0 ∧ AllHandlersReady s (gOf s) (bOf s) ((bOf s).executing (gOf s))) ∧
    (let s := sb 0x60080 2047 withHandler; TrMet s eops ∧ fr s 0 < 2 ^ 11 ∧ xr s % 256 ≠ 0 ∧
      AllHandlersReady s (gOf s) (bOf s) ((bOf s).executing (gOf s))) ∧
    (let s := sb 0x60000 2047; TrMet s eops ∧ fr s 0 < 2 ^ 11 ∧ xr s % 256 = 0 ∧ s.dpaFault (xr s) 256 = none ∧ s.hub.dce.ops.length < 16) :=
  ⟨⟨trMet (by decide), by decide, handlers_of (by decide)⟩, ⟨trMet (by decide), by decide, by decide, handlers_of (by decide)⟩,
    ⟨trMet (by decide), by decide⟩⟩

theorem runs_canonical (ops : List DceOp) : Canonical (withOps ops State.reset) := ⟨rfl, rfl, rfl⟩
def aSnap (pman : Nat) : DceOp := .snap 1 0x100000 1 false false 0 pman 0x200000 0x300000
theorem witness_CheckpointRuns_snap (pman : Nat) (h : pman = 0 ∨ pman = 0x400000) : let s := withOps [aSnap pman] State.reset
    Canonical s ∧ s.confW 0 = false ∧ s.hub.dce.hdr = none ∧ s.hub.dce.sent = 0 ∧
      s.hub.dce.ops = [.snap 1 0x100000 1 false false 0 pman 0x200000 0x300000] ∧ Populated 0x200000 (128 + 64 * 1) ∧
      (pman ≠ 0 ∧ (s.field pman 8 ≠ 0x100000 ∨ s.field (pman + 8) 4 ≠ 1) ↔ pman ≠ 0) ∧
      (∀ i < 64, s.dataError (0x100000 + 64 * i) true = false) ∧ Usable s 0x300000 4096 ∧ 0x100000 + 4096 ≤ 0x300000 ∧
      0x200000 + 192 ≤ 0x300000 := by
  rcases h with rfl | rfl <;>
    exact ⟨runs_canonical _, by decide, rfl, rfl, rfl, by unfold Populated; decide, by decide +kernel, by decide +kernel,
      usable_of (by decide), by decide, by decide⟩
theorem witness_CheckpointRuns_scrub (e : Nat) (h : e = 0 ∨ e = 2047) : let s := withOps [.scrub 1 e 9 0x200000] State.reset
    Canonical s ∧ s.confW 0 = false ∧ s.hub.dce.hdr = none ∧ s.hub.dce.sent = 0 ∧ s.hub.dce.ops = [.scrub 1 e 9 0x200000] ∧ e < 2048 ∧
      Populated 0x200000 256 ∧ s.lentExtent e = false ∧ (s.hssExtent e = true ↔ e = 2047) ∧ s.retired = [] ∧ s.bad = [] ∧
      s.lates = [] := by
  rcases h with rfl | rfl <;>
    exact ⟨runs_canonical _, by decide, rfl, rfl, rfl, by decide, by unfold Populated; decide, by decide, by decide, rfl, rfl, rfl⟩

/-! Module events. -/

def withHub (f : Hub → Hub) (s : State) : State := { s with hub := f s.hub }
theorem witness_ModuleEvents_evict : let s := withHub (fun h => { h with sdc := { h.sdc with lines := [⟨5, some 3, 0, 0, false, false⟩] } }) State.reset
    (∃ x ∈ s.hub.sdc.lines, x.line = 5 ∧ x.upto = some 3) ∧ (∀ x ∈ s.hub.sdc.lines, x.line = 5 → x.hss = false) ∧ (∀ k ∈ s.tasks, 3 ≤ k.2.snap) ∧ ∀ x ∈ s.hub.sdc.lines, x.line ≠ 6 ∨ x.upto ≠ some 3 := by decide
theorem witness_ModuleEvents_version (out : Bool) :
    let t := { hostTask (.drawer 0 0 0) 0 with ver := [(320, 1)], vout := if out then [5] else [] }
    let s := { State.reset with tasks := [(1, t)] }
    s.task? 1 = some t ∧ 5 ∈ t.vblocks ∧ (5 ∈ t.vout ↔ out = true) ∧ 6 ∉ t.vblocks := by cases out <;> decide
theorem witness_ModuleEvents_migration (src : Nat) (h : src = 1 ∨ src = 2) : let s := State.reset
    ((s.placeablePage src = true ∧ s.placeablePage 2 = true ∧ src ≠ 2 ∧ s.pinnedDpa src = false ∧ (∀ m ∈ s.hub.plc.migr, m.1 ≠ src ∧ m.2 ≠ 2) ∧
      ∀ e ∈ s.hub.plc.homes, e.2 / 1024 ≠ 2) ↔ src = 1) ∧ (∀ m ∈ s.hub.plc.migr, m.1 ≠ 5 / 1024) ∧ dpaKind (65536 * src) ≠ .window := by rcases h with rfl | rfl <;> decide
theorem witness_ModuleEvents_switchover : let s := withHub (fun h => { h with plc := { h.plc with migr := [(1, 2)] } }) State.reset
    s.hub.plc.migr = (1025 / 1024, 2) :: [] ∧ 2 ≠ 1025 / 1024 := by decide

/-! Peers and election. -/

theorem calm_of {s : State} (h : s.hub.lse.el.phase = .idle ∧ s.hub.lse.el.todo = [] ∧ s.hub.lse.el.next = none) (h' : s.hub.lse.bull = []) : Calm s :=
  ⟨h.1, h.2.1, h.2.2, fun k _ => by unfold State.bullWord; rw [h']; rfl, by rw [h']; rfl⟩
def peerState (now : Nat) (excl : Option Nat) (silent : Bool := false) : State := { withLse (fun x => { x with peers := [(7, ⟨0, 0, 3, excl, [0], silent⟩)] }) State.reset with mstime := now }
theorem witness_PeersAndElection_ticks : State.reset.mstime ≤ State.reset.hub.lse.beat ∧ let s := peerState 5 none
    let obs : PeerObs := ⟨7, 1, 3, false, 0, 7⟩
    s.hub.lse.beat < s.mstime ∧ Calm s ∧ (∀ o ∈ [obs], s.mgr ≠ some o.mid) ∧ Seen s obs :=
  ⟨by decide, by decide, calm_of (by decide) rfl, by decide, by decide, by decide, nofun, fun p h => .inl (by cases h; rfl)⟩
/-- A peer that died is not seen, one of no port neither; one that booted again is. -/
theorem witness_PeersAndElection_unseen : let s := peerState 5 none true
    s.hub.lse.beat < s.mstime ∧ Calm s ∧ ¬ Seen s ⟨7, 1, 3, false, 0, 7⟩ ∧ ¬ Seen s ⟨7, 1, 4, false, 0, 8⟩ ∧ Seen s ⟨7, 1, 4, false, 0, 7⟩ ∧ Seen s ⟨8, 1, 1, false, 0, 0⟩ :=
  ⟨by decide, calm_of (by decide) rfl, fun h => (h.2.2.2 ⟨0, 0, 3, none, [0], true⟩ (by decide)).elim nofun (by decide), fun h => absurd h.2.1 (by decide),
    ⟨by decide, by decide, nofun, fun p h => .inr (by cases h; decide)⟩, ⟨by decide, by decide, nofun, nofun⟩⟩
theorem witness_PeersAndElection_failure (now : Nat) (h : now = 99 ∨ now = 100) : let s := peerState now none
    mget? s.hub.lse.peers 7 = some ⟨0, 0, 3, none, [0], false⟩ ∧ s.pathsDown 7 = false ∧ s.hub.lse.cfg.failt = 100 ∧ s.mstime = now ∧ Calm s ∧ s.mgr ≠ some 7 ∧
      mwf Lease.none s.leases = true ∧ s.lates = [] ∧ (∀ r ∈ s.remotes, r.line = none) ∧ ∀ i, (s.bor i).asked = [] := by
  rcases h with rfl | rfl <;>
    exact ⟨by decide, by decide, by decide, rfl, calm_of (by decide) rfl, by decide, by decide, rfl, by decide, fun _ => rfl⟩
theorem witness_PeersAndElection_bulletin (excl : Option Nat) (h : excl = none ∨ excl = some 3) : let s := peerState 5 excl
    mget? s.hub.lse.peers 7 = some ⟨0, 0, 3, excl, [0], false⟩ ∧ Calm s ∧ s.reaches 7 = true ∧ 0x38 < 0x40 ∧ 0x38 % 8 = 0 ∧ 0x3C < 0x40 ∧ 0x3C % 4 = 0 := by
  rcases h with rfl | rfl <;> exact ⟨by decide, calm_of (by decide) rfl, by decide⟩
theorem witness_PeersAndElection_down : let s := withDownPort (peerState 5 none)
    s.pathsDown 7 = true ∧ s.reaches 7 = false ∧ (peerState 5 none true).reaches 7 = false := by decide
theorem witness_PeersAndElection_settled :
    let s := withLse (fun x => { x with bull := [(32, 1)], el := { x.el with phase := .settle } }) State.reset
    s.hub.lse.el.phase = .settle ∧ s.hub.lse.el.todo = [] ∧ s.hub.lse.el.next = none ∧ s.laterEpoch = none ∧ s.livePeers = [] ∧
      s.bestBid s.eEpoch = some s.hub.flash.mid ∧ s.hub.lse.el.until_ ≤ s.mstime ∧ s.hub.flash.mid < 4096 ∧ mrising s.hub.lse.bull = true := by
  decide +kernel

/-! The fabric. -/

def aRemote (q : Nat) : Remote :=
  { mid := 7, queue := q, op := 1, idx := none, world := 0, wva := 0, mode := 0, seed := 0, task := 0, pos := 0, data := [], tag := 0,
    line := none, fmt := 0 }
def ackState (q : Nat) : State :=
  { rigI .nop with
    remotes := [aRemote q]
    queues := [(qKey (.mem 9), { BQueue.init (.mem 9) 0 0 with ops := [anOp 7 1 { pend0 with sq := 9 }] })] }
theorem witness_FabricRequests_acks (q : Nat) (h : q = 0x10000 ∨ q = 0x30000 ∨ q = 0x40000 ∨ q = 9) : let s := ackState q
    s.remotes[0]? = some (aRemote q) ∧ s.remotes[1]? = none ∧ s.reaches (aRemote q).mid = true ∧ s.hub.dce.hdr = none ∧ (∃ p l t, s.thread? p l = some t) ∧
      ∃ x, mget? s.queues (qKey (.mem 9)) = some x ∧ x.qid = .mem 9 ∧
        (∀ e ∈ s.queues, (∃ o ∈ e.2.ops, o.n = (aRemote q).op ∧ o.prog.sq = 9) → e.1 = qKey (.mem 9)) ∧ ∃ o ∈ x.ops, o.n = (aRemote q).op ∧ o.prog.sq = 9 := by
  rcases h with rfl | rfl | rfl | rfl <;>
    exact ⟨rfl, rfl, by decide, by decide, ⟨.drawer 0 0 0, 0, rawOf (rigI .nop), by decide⟩, _, rfl, by decide, by decide, by decide⟩
theorem witness_FabricRequests_unreached : let s := withDownPort (ackState 9)
    s.remotes[0]? = some (aRemote 9) ∧ s.reaches (aRemote 9).mid = false := by decide
theorem witness_FabricRequests_borrower (mid : Nat) (h : mid = 7 ∨ mid = 8) : let s := lzState .granted .lent
    let a := (tib + gib + 5) / 64 * 64
    ((dpaKind a = .pool ∧ ∃ e ∈ s.leases, e.2.role = .lent ∧ e.2.borrower = mid ∧ e.2.ext = (a - tib) / gib ∧
      (e.2.state = .granted ∨ e.2.state = .recalling ∨ e.2.state = .expired)) ↔ mid = 7) ∧ s.dataError a true = false ∧ Canonical s ∧ s.confW 0 = false ∧
      s.reaches mid = true := by
  rcases h with rfl | rfl <;> exact ⟨by decide, by decide, ⟨rfl, rfl, rfl⟩, by decide, by decide⟩
theorem no_errors : ∀ a, State.reset.dataError a true = false := fun _ => rfl
/-- A line that commits have changed and no release has pushed. -/
theorem witness_FabricRequests_unpushed : let old := (List.replicate 64 (1 : Byte), (3 : Tag))
    let s := { lzState .granted .lent with unpushed := [((tib + gib) / 64, old)] }
    mget? s.unpushed ((tib + gib) / 64) = some old ∧ s.dataError (tib + gib) true = false ∧ s.reaches 7 = true := by decide
theorem witness_FabricRequests_host : dpaKind 0x30000 ≠ .mmio ∧ State.reset.dpaFault 0x30000 8 = none ∧
    (∀ x, 0x30000 ≤ x → x < 0x30000 + 8 → State.reset.dataError x true = false) ∧ Canonical State.reset ∧ State.reset.confW 0 = false ∧
    dpaKind (ctlAddr 0x28) = .mmio ∧ ctlAddr 0x28 % 8 = 0 ∧ State.reset.hub.lse.ports = [] :=
  ⟨by decide, by decide, fun x _ _ => no_errors x, ⟨rfl, rfl, rfl⟩, by decide, by decide, by decide, rfl⟩

/-! The responder and record export. -/

def withTrt (f : Trt → Trt) : State → State := withHub fun h => { h with trt := f h.trt }
theorem witness_ResponderAndExport_sessions (fin app : Bool) : let s := withTrt (fun t => { t with sess := [⟨1, fin, app⟩] }) State.reset
    mrising s.ctl = true ∧ (∃ x ∈ s.hub.trt.sess, x.id = 1) ∧ s.hub.trt.sess.find? (fun y => y.id = 1) = some ⟨1, fin, app⟩ ∧
      ¬ ∃ x ∈ s.hub.trt.sess, x.id = 2 := by cases fin <;> cases app <;> decide
theorem witness_ResponderAndExport_export (st : RState) (h : st = .live ∨ st = .exporting) :
    let s := { withTrt (fun t => { t with recs := [(0, ⟨st, 0, 1, 0⟩)] }) State.reset with ctl := [(0x50, 0xFF)] }
    mrising s.ctl = true ∧ s.stat 0x50 = 0xFF ∧ s.hub.trt.exp = none ∧ (s.crec (bits (s.ctlReg 0x50).toNat 15 8)).st = st := by
  rcases h with rfl | rfl <;> decide
theorem witness_ResponderAndExport_answers : let s := withTrt (fun t => { t with exp := some ⟨7, 1, 2, 3, 0⟩ }) State.reset
    mrising s.ctl = true ∧ s.hub.trt.exp = some ⟨7, 1, 2, 3, 0⟩ := by decide
theorem witness_ResponderAndExport_arrival : (State.reset.crec 1).st = .free ∧ (1 < 256) ∧ (State.reset.crec 0).st ≠ .free ∧
    (State.reset.crec 0 = ⟨.live, 0, (0 : BitVec 64).toNat, devidBits⟩) ∧ State.reset.crec 0 ≠ ⟨.live, 0, (1 : BitVec 64).toNat, devidBits⟩ :=
  ⟨by decide, by decide, by decide, rfl, fun h => absurd (congrArg CRec.value h) (by decide)⟩

/-! The control block. -/

def regState (code : Nat) (cfg w hdr : Nat) (f : State → State := id) : State :=
  f { rigI .nop with ctl := [(0, BitVec.ofNat 64 hdr), (8, BitVec.ofNat 64 (cfg + w * 2 ^ 56)), (0x10, BitVec.ofNat 64 (0xFF + 256 * code)), (0x88, 0x51000),
    (0x90, 0x52000)] }
theorem witness_RegistrationCommands_register :
    (let s := regState 1 0x40009 3 0x50000; mrising s.ctl = true ∧ Commanded s 0x10 1 ∧ ¬ Commanded s 0x10 2 ∧ ¬ s.hasWorld (bits (s.creg 8) 63 56)) ∧
    (let s := regState 1 0x40009 0 0x50001; mrising s.ctl = true ∧ Commanded s 0x10 1 ∧ s.queue (.mem (s.creg 8 % 2 ^ 12)) = none ∧
      s.hasWorld (bits (s.creg 8) 63 56) ∧ s.creg 0 % 256 ≠ 0) ∧
    (let s := regState 1 0x100FFE 0 0x50000; mrising s.ctl = true ∧ Commanded s 0x10 1 ∧ s.queue (.mem (s.creg 8 % 2 ^ 12)) = none ∧
      s.hasWorld (bits (s.creg 8) 63 56) ∧ ¬ (s.creg 0 % 256 ≠ 0 ∨ s.creg 0x88 % 64 ≠ 0 ∨ s.creg 0x90 % 32 ≠ 0 ∨ bits (s.creg 8 % 2 ^ 32) 23 16 < 4 ∨
        16 < bits (s.creg 8 % 2 ^ 32) 23 16 ∨ bits (s.creg 8 % 2 ^ 32) 13 12 ≠ 0 ∨ s.creg 8 % 2 ^ 12 = 4095 ∨
        (bitAt (s.creg 8 % 2 ^ 32) 14 = false ∧ 191 < bits (s.creg 8 % 2 ^ 32) 31 24)) ∧
      s.mapsRW 0 (s.creg 0) 256 = true ∧ s.mapsRW 0 (s.creg 0x88) (64 * 2 ^ bits (s.creg 8 % 2 ^ 32) 23 16) = true ∧
      s.mapsRW 0 (s.creg 0x90) (32 * 2 ^ bits (s.creg 8 % 2 ^ 32) 23 16) = true) := by
  unfold Commanded State.hasWorld; refine ⟨by decide +kernel, by decide +kernel, by decide +kernel⟩
theorem witness_RegistrationCommands_unregister (n : Nat) (h : n = 0 ∨ n = 1 ∨ n = 2) :
    let s := regState 2 0x40009 0 0x50000 fun s => if n = 0 then s else { s with queues := [(qKey (.mem 9), { BQueue.init (.mem 9) 0 0 with closed := n = 1 })] }
    mrising s.ctl = true ∧ Commanded s 0x10 2 ∧ (n = 0 → s.queue (.mem (s.creg 8 % 2 ^ 12)) = none) ∧
      (n ≠ 0 → ∃ x, s.queue (.mem (s.creg 8 % 2 ^ 12)) = some x ∧ (x.closed = true ↔ n = 1) ∧ x.ops = [] ∧ mrising s.queues = true) := by
  unfold Commanded
  rcases h with rfl | rfl | rfl
  · exact ⟨by decide, by decide, fun _ => by decide, fun h => absurd rfl h⟩
  · exact ⟨by decide, by decide, fun h => absurd h (by decide), fun _ => ⟨{ BQueue.init (.mem 9) 0 0 with closed := true }, by decide, by decide, by decide, by decide⟩⟩
  · exact ⟨by decide, by decide, fun h => absurd h (by decide), fun _ => ⟨BQueue.init (.mem 9) 0 0, by decide, by decide, by decide, by decide⟩⟩
theorem witness_RegistrationCommands_dead : let s := regState 2 0x40009 3 0x50000 fun s => { s with queues := [(qKey (.mem 9), BQueue.init (.mem 9) 0 0)] }
    mrising s.ctl = true ∧ Commanded s 0x10 2 ∧ ¬ s.hasWorld (bits (s.creg 8) 63 56) ∧ s.queue (.mem (s.creg 8 % 2 ^ 12)) ≠ none := by
  unfold Commanded State.hasWorld; decide +kernel
def arenaState (a w : Nat) (f : State → State := id) : State := f { State.reset with ctl := [(0x18, BitVec.ofNat 64 a), (0x20, BitVec.ofNat 64 (0xFF + 256 * w))] }
theorem witness_RegistrationCommands_arenas :
    (State.reset.stat 0x20 ≠ 0xFF) ∧
    (let s := arenaState 0x100000 3; mrising s.ctl = true ∧ s.stat 0x20 = 0xFF ∧ s.creg 0x18 ≠ 0 ∧ ¬ s.hasWorld (bits (s.creg 0x20) 15 8)) ∧
    (let s := arenaState 0x100800 0; mrising s.ctl = true ∧ s.stat 0x20 = 0xFF ∧ s.creg 0x18 ≠ 0 ∧ s.hasWorld (bits (s.creg 0x20) 15 8) ∧ s.creg 0x18 % 4096 ≠ 0) ∧
    (let s := arenaState 0x100000 0; mrising s.ctl = true ∧ s.stat 0x20 = 0xFF ∧ s.creg 0x18 ≠ 0 ∧ s.hasWorld (bits (s.creg 0x20) 15 8) ∧
      s.creg 0x18 % 4096 = 0 ∧ s.dpaFault (s.creg 0x18) 4096 = none) ∧
    (let s := arenaState 0xC000000000 0; mrising s.ctl = true ∧ s.stat 0x20 = 0xFF ∧ s.creg 0x18 ≠ 0 ∧ s.hasWorld (bits (s.creg 0x20) 15 8) ∧
      s.dpaFault (s.creg 0x18) 4096 ≠ none) ∧
    (let s := arenaState 0 0 fun s => { s with asqs := [(0, { Asq.init with runs := [aRun] })] }; s.stat 0x20 = 0xFF ∧ s.creg 0x18 = 0 ∧
      ∃ e ∈ s.asqs, ∃ r ∈ e.2.runs, r.who.world = 0) ∧
    (let s := arenaState 0 0; mrising s.ctl = true ∧ s.stat 0x20 = 0xFF ∧ s.creg 0x18 = 0 ∧ ¬ ∃ e ∈ s.asqs, ∃ r ∈ e.2.runs, r.who.world = 0) := by
  unfold State.hasWorld; refine ⟨by decide, by decide, by decide, by decide, by decide, by decide, by decide⟩

def vacState (code mask : Nat) (f : State → State := id) : State := f { rigI .nop with ctl := [(0x28, BitVec.ofNat 64 mask), (0x40, BitVec.ofNat 64 (0xFF + 256 * code))] }
theorem witness_VacatingCores_vacate (pinned : Bool) : let s := vacState 1 1 (if pinned then pinnedTask else id)
    let b := bnch (.drawer 0 0 0) [(0, thr [])]
    ∃ t, mrising s.ctl = true ∧ s.lates = [] ∧ Commanded s 0x40 1 ∧ ¬ Commanded s 0x40 2 ∧ bitAt (s.creg (0x28 + 8 * (0 / 64))) (0 % 64) = true ∧ 0 ∉ s.vacated ∧ s.task? 1 = some t ∧
      mrising s.tasks = true ∧ t.state = .running ∧ t.pinned = pinned ∧ b ∈ s.benches ∧ s.bench? b.place = some b ∧ b.task = 1 ∧ coreIx b.place = 0 ∧
      ∀ e ∈ b.threads, ∀ x ∈ e.2.out, x.isAwait = false := by
  unfold Commanded
  cases pinned
  · exact ⟨hostTask (.drawer 0 0 0) 0, by decide +kernel⟩
  · exact ⟨{ hostTask (.drawer 0 0 0) 0 with pinned := true }, by decide +kernel⟩
theorem witness_VacatingCores_complete (busy : Bool) : let s := vacState 1 2 fun s =>
      { s with vacated := [1], asqs := if busy then [(1, { Asq.init with runs := [aRun] })] else [] }
    mrising s.ctl = true ∧ s.lates = [] ∧ Commanded s 0x40 1 ∧ (∀ c < 192, bitAt (s.creg (0x28 + 8 * (c / 64))) (c % 64) = true → c ∈ s.vacated) ∧
      (∀ b ∈ s.benches, coreIx b.place ∉ s.vacated) ∧ s.mxus = [] ∧ (∀ q ∈ s.queues, ∀ o ∈ q.2.ops, o.core ≠ 1) ∧ ((s.asq 1).runs = [] ↔ busy = false) := by
  unfold Commanded; cases busy <;> decide +kernel
theorem witness_VacatingCores_return : let s := vacState 2 2 fun s => { s with vacated := [1] }
    mrising s.ctl = true ∧ s.lates = [] ∧ Commanded s 0x40 2 ∧ ¬ Commanded s 0x40 1 := by unfold Commanded; decide

theorem witness_MmioWrites : mrising State.reset.ctl = true ∧ mwf 2 State.reset.hub.sdc.mode = true ∧ Canonical State.reset ∧ State.reset.stat 0x10 ≠ 0xFF ∧
    (regState 1 0 0 0).stat 0x10 = 0xFF ∧ dpaKind 0x30000 ≠ .mmio ∧ (3 : Word).toNat % 4 = 3 ∧ (2 : Word).toNat % 4 ≠ 3 := by
  refine ⟨by decide, by decide, ⟨rfl, rfl, rfl⟩, by decide, by decide, by decide, by decide, by decide⟩
theorem witness_MmioWrites_classifier (seen : Bool) :
    let s := withHub (fun h => { h with clsf := if seen then [⟨3, 4, 9, some (5, 6)⟩] else [] }) State.reset
    (0x30004 : Word).toNat < 2 ^ 24 ∧ (s.hub.clsf.find? fun x => x.world = bits (0x30004 : Word).toNat 23 16 ∧ x.domain = (0x30004 : Word).toNat % 2 ^ 16) =
      if seen then some ⟨3, 4, 9, some (5, 6)⟩ else none := by cases seen <;> decide

/-- Boot stands at reset, or has run. Whether an image is signed is not known to the model, so the statement gives both outcomes. -/
theorem witness_BootRuns : State.reset.hub.boot = .reset ∧ Canonical State.reset ∧ (withHub (fun h => { h with boot := .running }) State.reset).hub.boot ≠ .reset :=
  ⟨rfl, ⟨rfl, rfl, rfl⟩, by decide⟩

def fetchState (h : Thread → Thread := id) : State := { rig [] [] 0 0 withHandler h with cur := .grp (.drawer 0 0 0) [0] 0x20002 0 0 false none }
theorem witness_FetchFaults (first : Bool) : let s := fetchState fun t => { t with entering := first }
    ∃ t k, s.grp? = some (gOf s) ∧ s.bench? (gOf s).place = some (bOf s) ∧ (bOf s).place = (gOf s).place ∧ (gOf s).lanes = [0] ∧
      mget? (bOf s).threads 0 = some t ∧ mrising (bOf s).threads = true ∧ (gOf s).pc.toNat < 2 ^ 56 ∧ (gOf s).pc.toNat % 4 ≠ 0 ∧ HandlerReady s (bOf s) t ∧
      t.entering = first ∧ s.task? (bOf s).task = some k ∧ k.pinned = false ∧ s.lates = [] := by
  unfold HandlerReady
  cases first
  · exact ⟨thr [], hostTask (.drawer 0 0 0) 0, by decide +kernel⟩
  · exact ⟨thr [] fun t => { t with entering := true }, hostTask (.drawer 0 0 0) 0, by decide +kernel⟩

end Sys2Proof.Tests
end

