-- ==== Sys2Proof/Tests/WitnessJ.lean ====
section
/-! SUPPORT. For each statement about encodings, steps and invariants, a concrete state and operands that meet its premises. -/

namespace Sys2Proof.Tests

set_option Elab.async false

open Sys2Proof Sys2Proof.Machine

theorem witness_EncodeDecode :
    (let i : Instr := .iadd .s 127#7 0#7 1#7; i.wf = true ∧ i.legal = true ∧ i.isMicro = false ∧ isPrefix i = false ∧ ∃ w ws, encode true i = w :: ws) ∧
    (let i : Instr := .grd 127#7 true 7#3; i.wf = true ∧ i.legal = true ∧ i.isMicro = false ∧ isPrefix i = true ∧ ∃ w ws, encode true i = w :: ws) ∧
    (let i : Instr := .loop 15#4 4095#12; i.wf = true ∧ i.legal = true ∧ i.isMicro = true) :=
  ⟨⟨rfl, rfl, rfl, rfl, _, _, rfl⟩, ⟨rfl, rfl, rfl, rfl, _, _, rfl⟩, rfl, rfl, rfl⟩
theorem witness_DecodeEncode : (∃ stop i, decode 0x99018388#32 0 = .ok (stop, i)) ∧ (∃ stop i, decode 0x58008303#32 0x80800008#32 = .ok (stop, i)) ∧
    ∃ i, decodeMicro 0x584000000B000000#64 = .ok i := ⟨⟨_, _, rfl⟩, ⟨_, _, rfl⟩, _, rfl⟩

/-! Steps: the thread of a bench issues the words at 0x20000 next. -/

def stepState (w w2 : Word) (h : Thread → Thread := id) : State :=
  { rigOf (bnch p0 [(0, thr [] h)]) [0] w w2 with cur := .idle, agenda := [.issue p0 0] }
/-- What `kept` leaves of such a state, and its bench there. -/
def keptOf (w w2 : Word) (h : Thread → Thread := id) : State := (stepState w w2 h).kept
def keptBench (w w2 : Word) (h : Thread → Thread := id) : Bench := ((keptOf w w2 h).bench? p0).getD (bnch p0 [])
/-- The premises all clauses share: the thread is the one the schedule names. -/
def Issues (w w2 : Word) (h : Thread → Thread) : Prop :=
  Scheduled (keptOf w w2 h) p0 0 [] (keptBench w w2 h) (thr [] h) ∧ (keptBench w w2 h).chosen 0 (thr [] h) = (0, thr [] h)
theorem issues_of {w w2 : Word} {h : Thread → Thread} (b : decide ((keptOf w w2 h).hub.devErr = false ∧ (keptOf w w2 h).hub.boot = .running ∧
    (keptOf w w2 h).agenda = [.issue p0 0] ∧ (keptOf w w2 h).bench? p0 = some (keptBench w w2 h) ∧ (keptOf w w2 h).thread? p0 0 = some (thr [] h) ∧
    (keptBench w w2 h).mayIssue 0 (thr [] h) = true ∧ (keptBench w w2 h).chosen 0 (thr [] h) = (0, thr [] h)) = true) : Issues w w2 h := by
  obtain ⟨b1, b2, b3, b4, b5, b6, b7⟩ := of_decide_eq_true b
  exact ⟨⟨b1, b2, b3, b4, b5, b6⟩, b7⟩
theorem words_of {f : Fetched} {w w2 : Word} (h : (match f with
    | .words _ a b => decide (a = w ∧ b = w2)
    | .fault => false) = true) : ∃ s, f = .words s w w2 := by
  cases f with
  | fault => cases h
  | words s a b => obtain ⟨rfl, rfl⟩ := of_decide_eq_true h; exact ⟨s, rfl⟩
theorem fault_of {f : Fetched} (h : (match f with
    | .words _ _ _ => false
    | .fault => true) = true) : f = .fault := by cases f <;> first | rfl | cases h
def idle (s : State) : State := { s with agenda := [] }
theorem witness_StepRunsDecoded_word (w : Word) (h : w = 0x00A0C082 ∨ w = 0xFFFFFFFF) : let s := keptOf w 0
    Issues w 0 id ∧ (thr []).rep = none ∧ (∃ s1, (idle s).fetchIssue p0 0 (thr []).pc = .words s1 w 0) ∧
      ((∃ stop i, decode w 0 = .ok (stop, i)) ↔ w = 0x00A0C082) := by
  rcases h with rfl | rfl
  · exact ⟨issues_of (by decide +kernel), rfl, words_of (by decide +kernel), ⟨fun _ => rfl, fun _ => ⟨_, _, rfl⟩⟩⟩
  · refine ⟨issues_of (by decide +kernel), rfl, words_of (by decide +kernel), ⟨?_, fun h => absurd h (by decide)⟩⟩
    rintro ⟨st, i, h⟩
    have e : decode 0xFFFFFFFF#32 0 = .error .illegal := rfl
    rw [show (0xFFFFFFFF : Word) = 0xFFFFFFFF#32 from rfl, e] at h
    cases h
def inRep (t : Thread) : Thread := { t with rep := some 1 }
theorem witness_StepRunsDecoded_repeat : let s := keptOf 0x7820C881 0x00A0C082 inRep
    Issues 0x7820C881 0x00A0C082 inRep ∧ (thr [] inRep).rep = some 1 ∧
      (∃ s1, (idle s).fetchIssue p0 0 (thr [] inRep).pc = .words s1 0x7820C881 0x00A0C082) ∧
      ∃ v stop i, stepWord 0x7820C881 0x00A0C082 1 = some v ∧ decode v 0 = .ok (stop, i) :=
  ⟨issues_of (by decide +kernel), rfl, words_of (by decide +kernel), _, _, _, rfl, rfl⟩
def oddPc (t : Thread) : Thread := { t with pc := 0x20002 }
theorem witness_StepRunsDecoded_fault : let s := keptOf 0 0 oddPc
    Issues 0 0 oddPc ∧ (idle s).fetchIssue p0 0 (thr [] oddPc).pc = .fault :=
  ⟨issues_of (by decide +kernel), fault_of (by decide +kernel)⟩
def reached (s : State) (a : Nat) : State := (s.translate 0 0 .fetch a).1
theorem witness_StepRunsDecoded_fetches : let s := idle (keptOf 0x58008303 0x80800008)
    Fetches s (reached s 0x20000) p0 (keptBench 0x58008303 0x80800008) (thr []) (thr []).pc 0x58008303 ∧
      Fetches (reached s 0x20000) (reached (reached s 0x20000) 0x20004) p0 (keptBench 0x58008303 0x80800008) (thr []) ((thr []).pc + 4) 0x80800008 ∧
      (isX (0x58008303 : Word).toNat || isRep 0x58008303 || isGrd 0x58008303) = true ∧
      (isX (0x00A0C082 : Word).toNat || isRep 0x00A0C082 || isGrd 0x00A0C082) = false :=
  ⟨⟨by decide, by decide, by decide, ⟨0x20000, 0x20000, 0, false⟩, pair_of (by decide +kernel), by decide, by decide +kernel, by decide +kernel, by decide +kernel⟩,
    ⟨by decide, by decide, by decide +kernel, ⟨0x20004, 0x20004, 0, false⟩, pair_of (by decide +kernel), by decide, by decide +kernel, by decide +kernel,
      by decide +kernel⟩, by decide, by decide⟩

theorem witness_StepRunsEvents_ends : (withHub (fun h => { h with devErr := true }) State.reset).hub.devErr = true ∧ State.reset.hub.devErr = false ∧
    State.reset.hub.boot = .reset := by decide
/-- Whether a step goes on. -/
theorem next_of {x : Out} (h : (match x with
    | .next _ => true
    | _ => false) = true) : ∃ t, x = .next t := by
  cases x with
  | next t => exact ⟨t, rfl⟩
  | fault _ => cases h
  | refused _ => cases h
def eventState (i : Sched) : State := { withRun aRun with cur := .idle, agenda := [i] }
theorem witness_StepRunsEvents_event : let s := eventState (.event .thermalLimit)
    s.hub.devErr = false ∧ s.hub.boot = .running ∧ s.agenda = .event .thermalLimit :: [] ∧
      ∃ t, exec .thermalLimit { s.kept with agenda := [], cur := .idle } = .next t := ⟨rfl, rfl, rfl, next_of (by decide +kernel)⟩
theorem witness_StepRunsEvents_micro (pc : Nat) (h : pc = 3 ∨ pc = 4096) : let r := { aRun with pc := pc }
    let s := { withRun r with cur := .idle, agenda := [.micro 0] }
    s.hub.devErr = false ∧ s.hub.boot = .running ∧ s.agenda = .micro 0 :: [] ∧ (s.asq 0).runs = r :: [] ∧ r.on = true ∧ (r.held = false ∨ r.cancel = true) ∧
      (pc = 3 → r.pc < 4096 ∧ ∃ i, decodeMicro ((s.asq 0).word r.pc) = .ok i) ∧ (pc = 4096 → 4096 ≤ r.pc) := by
  rcases h with rfl | rfl
  · exact ⟨rfl, rfl, rfl, by decide, rfl, .inl rfl, fun _ => ⟨by decide, ok_of (by decide +kernel)⟩, fun h => absurd h (by decide)⟩
  · exact ⟨rfl, rfl, rfl, by decide, rfl, .inl rfl, fun h => absurd h (by decide), fun _ => by decide⟩
theorem witness_StepRunsEvents_tick : let s := eventState (.tick 3 1)
    s.hub.devErr = false ∧ s.hub.boot = .running ∧ s.agenda = .tick 3 1 :: [] := ⟨rfl, rfl, rfl⟩

/-- A machine that runs `IADD.S v3, v1, v2` next. -/
theorem witness_CanonicalKept : let s := stepState 0x00A0C082 0
    Canonical s ∧ ∃ t, step s = .next t := ⟨canonical_of (by decide +kernel), next_of (by decide +kernel)⟩
theorem witness_MapsKept : let s := stepState 0x00A0C082 0
    Canonical s ∧ MapsCanonical s ∧ ∃ t, step s = .next t :=
  ⟨canonical_of (by decide +kernel), by
    constructor
    case mxdata => exact fun _ h => (by cases h)
    case mxsaves => exact fun _ h => (by cases h)
    case cores => exact fun _ h => (by cases h)
    case benches => unfold BenchKept; decide
    all_goals decide, next_of (by decide +kernel)⟩

end Sys2Proof.Tests
end

