-- ==== Sys2Proof/Tests/Slice0.lean ====
section
/-! SUPPORT. The model's own tests: ill-formed instructions that each static check refuses, the spec's encoding examples, and single steps of
the spec's worked examples. Every expected value stands in the spec. -/

namespace Sys2Proof.Tests

set_option Elab.async false

open Sys2Proof Sys2Proof.Machine

/-! Well-formedness: for each check, the last value it takes and the first it refuses. -/

theorem test_wf_pair : Instr.wf (.imulw .v 126#7 0#7 0#7) = true ∧ Instr.wf (.imulw .v 127#7 0#7 0#7) = false ∧ Instr.wf (.brx 127#7) = false := by decide
theorem test_wf_quad : Instr.wf (.ld128 124#7 0#7 0#7) = true ∧ Instr.wf (.ld128 125#7 0#7 0#7) = false ∧ Instr.wf (.packb8 .v 0#7 125#7 0#7) = false := by decide
theorem test_wf_blocks : Instr.wf (.bcopy 4#7 112#7) = true ∧ Instr.wf (.bcopy 4#7 113#7) = false ∧ Instr.wf (.astart 4#7 113#7) = false ∧
    Instr.wf (.hinit 108#7) = true ∧ Instr.wf (.hinit 109#7) = false ∧ Instr.wf (.evtpop 120#7 false) = true ∧ Instr.wf (.evtpop 121#7 false) = false := by decide
theorem test_wf_rounding : Instr.wf (.frnd false 1#7 1#7 7#3) = true ∧ Instr.wf (.frnd false 1#7 1#7 5#3) = false ∧ Instr.wf (.frnd false 1#7 1#7 6#3) = false := by decide
theorem test_wf_scope : Instr.wf (.fence 3#2 5#3) = true ∧ Instr.wf (.fence 3#2 6#3) = false ∧ Instr.wf (.fence 3#2 7#3) = false := by decide
theorem test_wf_orders : Instr.wf (.lda32 1#7 1#7 1#2 4#3) = true ∧ Instr.wf (.lda32 1#7 1#7 2#2 4#3) = false ∧ Instr.wf (.sta32 1#7 1#7 2#2 4#3) = true ∧
    Instr.wf (.sta32 1#7 1#7 1#2 4#3) = false := by decide
theorem test_wf_steps : Instr.wf (.rep 0#6 4#3 4#3 4#3) = true ∧ Instr.wf (.rep 0#6 5#3 0#3 0#3) = false ∧ Instr.wf (.rep 0#6 0#3 5#3 0#3) = false ∧
    Instr.wf (.rep 0#6 0#3 0#3 5#3) = false := by decide
theorem test_wf_handles : Instr.wf (.tlwait 10#6 1#7) = true ∧ Instr.wf (.tlwait 11#6 1#7) = false ∧ Instr.wf (.tlwait 15#6 1#7) = false ∧
    Instr.wf (.tlwait 16#6 1#7) = true ∧ Instr.wf (.tlsig 15#6 1#7) = false ∧ Instr.wf (.tlsig 16#6 1#7) = true := by decide
theorem test_wf_shifts : Instr.wf (.shli false 1#7 1#7 31#7) = true ∧ Instr.wf (.shli false 1#7 1#7 32#7) = false := by decide
theorem test_wf_lanes : Instr.wf (.shflx 1#7 1#7 31#7) = true ∧ Instr.wf (.shflx 1#7 1#7 32#7) = false ∧ Instr.wf (.rdlane 1#7 1#7 32#7) = false := by decide
theorem test_wf_conversions : Instr.wf (.cvtff false 1#7 1#7 2#2 2#2 0#3) = true ∧ Instr.wf (.cvtff false 1#7 1#7 3#2 0#2 0#3) = false ∧
    Instr.wf (.cvtff false 1#7 1#7 0#2 3#2 0#3) = false ∧ Instr.wf (.cvtii false 1#7 1#7 3#2 false false) = false ∧
    Instr.wf (.unpkb8 false 1#7 1#7 0#3 false false 0#2) = false := by decide
theorem test_wf_qpick : Instr.wf (.qpick false 1#7 1#7 1#7) = true ∧ Instr.wf (.qpick false 1#7 1#7 3#7) = false ∧ Instr.wf (.qpick false 1#7 1#7 64#7) = false ∧
    Instr.wf (.qpick false 1#7 1#7 68#7) = true ∧ Instr.wf (.qpick false 1#7 1#7 73#7) = false := by decide
theorem test_wf_windows : Instr.wf (.winv 504#14) = true ∧ Instr.wf (.winv 512#14) = false ∧ Instr.wf (.winv 4#14) = false ∧ Instr.wf (.wins 376#14) = true ∧
    Instr.wf (.wins 384#14) = false := by decide
theorem test_wf_csrs : Instr.wf (.csrr false 127#7 1#14) = false ∧ Instr.legal (.csrr false 0#7 1#14) = true ∧ Instr.legal (.csrr false 0#7 3#14) = false ∧
    Instr.legal (.csrr true 0#7 0#14) = false ∧ Instr.legal (.csrr true 0#7 0x12#14) = true := by decide
def atomAttr : AtomAttr := { scope := 4#3, ord := 1#2, size := 1#2, space := false, ret := true, cmp := 0#7, ofs := 0#16 }
theorem test_wf_atoms : Instr.wf (.aadd 2#7 6#7 3#7 atomAttr) = true ∧ Instr.wf (.aadd 2#7 6#7 3#7 { atomAttr with scope := 6#3 }) = false ∧
    Instr.wf (.aadd 2#7 6#7 3#7 { atomAttr with size := 2#2 }) = false ∧ Instr.wf (.aadd 0#7 6#7 3#7 { atomAttr with ret := false }) = false ∧
    Instr.wf (.aadd 2#7 6#7 3#7 { atomAttr with ret := false, ord := 0#2 }) = false ∧ Instr.wf (.aadd 2#7 6#7 3#7 { atomAttr with cmp := 1#7 }) = false := by decide
theorem test_wf_atom_pairs : Instr.wf (.afadd 2#7 6#7 3#7 atomAttr) = false ∧ Instr.wf (.aadd 2#7 6#7 127#7 atomAttr) = false ∧
    Instr.wf (.aadd 127#7 6#7 3#7 atomAttr) = false ∧ Instr.wf (.acas 2#7 6#7 3#7 { atomAttr with cmp := 127#7 }) = false := by decide
theorem test_wf_barriers : Instr.wf (.barr 63#6 1#7 true false 2#2) = true ∧ Instr.wf (.barr 0#6 1#7 true false 3#2) = false ∧
    Instr.wf (.barr 32#6 1#7 true false 1#2) = false ∧ Instr.wf (.barr 31#6 1#7 true false 1#2) = true ∧ Instr.wf (.barr 0#6 1#7 false false 0#2) = false ∧
    Instr.wf (.bqrySlot 0#6 127#7 false 0#2) = false := by decide
theorem test_wf_matrix : Instr.wf (.mldw 3#3 1#7 1#7) = true ∧ Instr.wf (.mldw 4#3 1#7 1#7) = false ∧ Instr.wf (.mdrain 0#2 0#2 1#7 125#7) = false ∧
    Instr.wf (.mstat 1#2 true 3#3 2#7) = true ∧ Instr.wf (.mstat 1#2 true 4#3 2#7) = false ∧ Instr.wf (.mstat 1#2 true 0#3 2#7) = false := by decide
theorem test_wf_microOps : Instr.wf (.brc 1#4 1#4 0#12 6#4) = true ∧ Instr.wf (.brc 1#4 1#4 0#12 7#4) = false := by decide

/-! Decoding: the words the spec writes out, each in its own section; and the reserved forms it names. -/

theorem test_decode_ffma : decode 0x99820818#32 0 = .ok (true, .ffma .v 8#7 16#7 24#7) := rfl
theorem test_decode_fence : decode 0xDA030000#32 0 = .ok (true, .fence 1#2 4#3) := rfl
theorem test_decode_mmad : decode 0x6866010A#32 0 = .ok (false, .mmad 0#2 3#2 0#3 2#7 10#7) := rfl
theorem test_decode_mdrain : decode 0x68A6060E#32 0 = .ok (false, .mdrain 0#2 3#2 12#7 14#7) := rfl
theorem test_decode_mzero : decode 0x68800000#32 0 = .ok (false, .mzero 0#2 0#2) := rfl
theorem test_decode_bsync : decode 0xE0E00000#32 0 = .ok (true, .bsync 0#6 0#7 false false 0#2) := rfl
theorem test_decode_astart : decode 0xF1250800#32 0 = .ok (true, .astart 20#7 16#7) := rfl
theorem test_decode_astat : decode 0xF1858A00#32 0 = .ok (true, .astat 22#7 20#7) := rfl
theorem test_decode_aproj : decode 0xF162460D#32 0 = .ok (true, .aproj 9#7 12#7 13#7) := rfl
theorem test_decode_lget : decode 0x79A10180#32 0 = .ok (false, .lgetEntryLow 4#7 3#7) := rfl
theorem test_decode_lrecall : decode 0x79C18480#32 0 = .ok (false, .lrecall 6#7 9#7) := rfl
theorem test_decode_bisnp : decode 0x79E0840A#32 0 = .ok (false, .bisnp 2#7 8#7 10#7) := rfl
theorem test_decode_scrub : decode 0x7B21850C#32 0 = .ok (false, .scrub 6#7 10#7 12#7) := rfl
theorem test_decode_reserved : decode 0xFFFFFFFF#32 0 = .error .illegal ∧ decode 0xF8014480#32 0 = .error .resfield := ⟨rfl, rfl⟩
theorem test_decode_table : decodeTableWord 32 0x1200C1FF = some (.iaddi false 3#7 3#7 127#7) ∧
    decodeTableWord 64 0x8080000858008303 = some (.aadd 2#7 6#7 3#7 ⟨4#3, 0#2, 0#2, false, true, 0#7, 8#16⟩) ∧ decodeTableWord 32 0xFFFFFFFF = none :=
  ⟨rfl, rfl, rfl⟩
theorem test_microprogram : decodeMicro (Asq.init.word 24) = .ok (.loop 1#4 11#12) ∧ decodeMicro 0 = .error .illegal := ⟨rfl, rfl⟩

/-! Single steps: the results of one lane of core 0's drawer 0. -/

noncomputable def results (s : State) (i : Instr) (l : Nat := 0) : Option (List Pend) :=
  match exec i s with
  | .next t => (t.thread? p0 l).map Thread.out
  | _ => none
theorem test_iaddi_wraps : results (rigI (.iaddi false 3#7 3#7 127#7)) (.iaddi false 3#7 3#7 127#7) = some [.vec 3 0xFFFFFFFF] := by decide +kernel
theorem test_idivu_zero : results (rigI (.idivu .v 3#7 1#7 2#7) [(1, 7)]) (.idivu .v 3#7 1#7 2#7) = some [.vec 3 0xFFFFFFFF] := by decide +kernel
theorem test_idivs_overflow : results (rigI (.idivs .v 3#7 1#7 2#7) [(1, 0x80000000), (2, 0xFFFFFFFF)]) (.idivs .v 3#7 1#7 2#7) = some [.vec 3 0x80000000] := by
  decide +kernel
/-- R149, the example of RCP: of 3.0, inexact; of 1.0, exact. -/
theorem test_rcp_three : results (rigI (.rcp false 5#7 2#7) [(2, 0x40400000)]) (.rcp false 5#7 2#7) = some [.vec 5 0x3EAAAAAB, .flags 1] := by decide +kernel
theorem test_rcp_one : results (rigI (.rcp false 5#7 2#7) [(2, 0x3F800000)]) (.rcp false 5#7 2#7) = some [.vec 5 0x3F800000] := by decide +kernel
/-- R161, the example of SCANSUMI and VBAL, in lanes 0 to 5 with p1 in lanes 0, 2 and 5. -/
def scanState (w : Word) : State :=
  rigOf (bnch p0 ((upto 6).map fun l => (l, thr [(4, if l = 0 ∨ l = 2 ∨ l = 5 then 1 else 0)] fun t =>
    { t with preds := if l = 0 ∨ l = 2 ∨ l = 5 then 2 else 0 }))) (upto 6) w
theorem test_scansumi : ((upto 6).map fun l => results (scanState 0xC1618200) (.scansumi 6#7 4#7) l) =
    [1, 1, 2, 2, 2, 3].map fun n => some [Pend.vec 6 n] := by decide +kernel
theorem test_vbal : ((upto 6).map fun l => results (scanState ((encode false (.vbal 7#7 1#7)).headD 0)) (.vbal 7#7 1#7) l) =
    List.replicate 6 (some [Pend.vec 7 0x25]) := by decide +kernel
/-- R99, R144, the example of the quantiser rule: 500.0 and -9.0 to `b8s4f` take the tag 0xC482. -/
theorem test_qpick : (qpickFmt 100#7 = 0xC4) ∧ results (rigI (.qpick false 4#7 2#7 100#7) [(2, 0x43FA0000), (3, 0xC1100000)]) (.qpick false 4#7 2#7 100#7) =
    some [.vec 4 0xC482] := by decide +kernel
/-- R179, Table 7.11: passes and replays of loads of 4, 8 and 16 bytes at the strides 1, 2, 3, 8, 16 and 32. -/
def sweep (z : Nat) : List (Nat × Nat) :=
  [1, 2, 3, 8, 16, 32].map fun s => let r := passesOf 32 0 z ((upto 32).map fun l => (l, z * s * l)); (r.1, r.2.1)
theorem test_passes_four : sweep 1 = [(1, 0), (1, 0), (2, 1), (1, 0), (1, 0), (1, 0)] := by decide +kernel
theorem test_passes_eight : sweep 2 = [(2, 0), (4, 2), (4, 2), (4, 2), (4, 2), (2, 0)] := by decide +kernel
theorem test_passes_sixteen : sweep 4 = [(4, 0), (8, 4), (8, 4), (16, 12), (8, 4), (4, 0)] := by decide +kernel
/-- R375, the example of HINIT and HFIN: the digest of the empty message begins 38 B0 60 A7 51 AC 96 38. -/
theorem test_sha384_empty : (sha384 []).take 8 = [0x38, 0xB0, 0x60, 0xA7, 0x51, 0xAC, 0x96, 0x38] := by decide +kernel
/-- R66: a malformed word enters the handler with its cause. -/
theorem test_step_malformed : (match step (withHandler (stepState 0xFFFFFFFF 0)) with
    | .next t => (t.thread? p0 0).map fun x => (x.pc, x.tpc, x.tcause.toNat % 256)
    | _ => none) = some (0x40000, 0x20000, 1) := by decide +kernel
/-- The host's placement: the next step runs the word. -/
theorem test_withFetchWord : (match step (State.reset.withFetchWord 32 0x1200C1FF) with
    | .next t => (t.thread? p0 0).map Thread.out
    | _ => none) = some [.vec 3 0xFFFFFFFF] := by decide +kernel

end Sys2Proof.Tests
end

section
/-! The words of the spec's examples, and FENCE by R55: what the common last checks of a word answer, the arm of a FENCE word, and O56. -/

namespace Sys2Proof

theorem bits_low (w hi : Nat) : bits w hi 0 = w % 2 ^ (hi + 1) := by simp [bits]

theorem rz_iff (w hi lo : Nat) : rz w hi lo = true ↔ bits w hi lo = 0 := by simp [rz]

/-- The last checks pass a word whose reserved bits are zero and whose instruction passes the static checks. -/
theorem accept_ok {r : Bool} {i : Instr} (hl : i.legal = true) (hr : r = true) (hw : i.wf = true) : accept r i = .ok i := by
  simp [accept, hl, hr, hw]

/-- They refuse one with a reserved bit set or a reserved field value. -/
theorem accept_resfield {r : Bool} {i : Instr} (hl : i.legal = true) (h : r = false ∨ i.wf = false) : accept r i = .error .resfield := by
  rcases h with hr | hw
  · simp [accept, hl, hr]
  · simp [accept, hl, hw]

theorem decode_error {w w2 : Word} {e : Reject} (h : decodeInstr w.toNat w2.toNat = .error e) : decode w w2 = .error e := by
  rw [decode, h]; rfl

/-- Table 2.2: the scope code of a FENCE is reserved from 6 on. -/
theorem wf_fence_iff (w : Nat) (k : BitVec 2) : (Instr.fence k (fld 3 14 w)).wf = true ↔ bits w 16 14 < 6 := by
  simp [Instr.wf, scopeOk, fld, bits]

/-- A word of G11 with function 16 is a FENCE, with the reserved bits of R55. -/
theorem decodeInstr_fence {w : Nat} (w2 : Nat) (hg : bits w 30 27 = 11) (hf : bits w 26 21 = 16) :
    decodeInstr w w2 = accept (rz w 13 0 && rz w 20 19) (.fence (fld 2 17 w) (fld 3 14 w)) := by
  rw [decodeInstr, prefixStop_of w _ (by omega), hg]
  simp only [decodeG11, hf]

/-- A FENCE word whose reserved bits are zero and whose scope is one of Table 2.2. -/
theorem decode_fence {w : Word} (w2 : Word) (hg : bits w.toNat 30 27 = 11) (hf : bits w.toNat 26 21 = 16)
    (hhi : bits w.toNat 20 19 = 0) (hlo : bits w.toNat 13 0 = 0) (hs : bits w.toNat 16 14 < 6) :
    decode w w2 = .ok (w.getLsbD 31, .fence (fld 2 17 w.toNat) (fld 3 14 w.toNat)) := by
  have hr : (rz w.toNat 13 0 && rz w.toNat 20 19) = true := by simp [rz_iff, hlo, hhi]
  refine (decode_iff ..).2 ⟨rfl, ?_⟩
  rw [decodeInstr_fence _ hg hf, accept_ok rfl hr ((wf_fence_iff ..).2 hs)]

/-- A FENCE word with a reserved bit set, or with one of the two reserved scope codes. -/
theorem decode_fence_resfield {w : Word} (w2 : Word) (hg : bits w.toNat 30 27 = 11) (hf : bits w.toNat 26 21 = 16)
    (h : bits w.toNat 20 19 ≠ 0 ∨ bits w.toNat 13 0 ≠ 0 ∨ 6 ≤ bits w.toNat 16 14) : decode w w2 = .error .resfield := by
  refine decode_error ?_
  rw [decodeInstr_fence _ hg hf]
  refine accept_resfield rfl ?_
  rcases h with hhi | hlo | hs
  · exact .inl (by simp [rz, hhi])
  · exact .inl (by simp [rz, hlo])
  · exact .inr (by rw [← Bool.not_eq_true, wf_fence_iff]; omega)

/-- Settles O56: each example word is evaluated (R49, Tables 3.1 to 3.8); a FENCE word falls under one of the two lemmas above (R55). -/
theorem decodeWords : Obligations.DecodeWords := by
  unfold Obligations.DecodeWords
  iterate 18 refine ⟨rfl, ?_⟩
  intro w hg hf
  have hlow : bits w.toNat 13 0 = w.toNat % 2 ^ 14 := bits_low w.toNat 13
  exact ⟨fun hhi hlo hs => decode_fence 0 hg hf hhi (hlow.trans hlo) hs,
    fun h => decode_fence_resfield 0 hg hf (h.imp_right (.imp_left hlow.trans_ne))⟩

end Sys2Proof
end

section
/-! Branches, calls and returns (R163, R164, R169): instructions whose executing threads all complete, each changing only itself. -/

namespace Sys2Proof.Machine

theorem mset_eq_self {α : Type} {m : Map α} {k : Nat} {x : α} (h : mget? m k = some x) : mset m k x = m := by
  induction m with
  | nil => cases h
  | cons e m ih =>
    obtain ⟨i, v⟩ := e
    simp only [mget?] at h
    simp only [mset]
    split at h
    · cases h
    · split at h
      · cases h; subst_vars; simp
      · simp [*]

@[simp] theorem updThread_id (s : State) (p : Place) (l : Nat) : s.updThread p l id = s := by
  refine updBench_id s p _ fun b _ => ?_
  cases ht : mget? b.threads l with
  | none => simp [Bench.updThread, ht]
  | some t => rw [updThread_threads b l id t ht, id, mset_eq_self ht]

/-- A thread that is there belongs to a bench that is there. -/
theorem bench?_of_thread? {s : State} {p : Place} {l : Nat} {t : Thread} (h : s.thread? p l = some t) : ∃ b, s.bench? p = some b := by
  obtain ⟨b, hb, -⟩ := Option.bind_eq_some_iff.1 h
  exact ⟨b, hb⟩

theorem executing_subset (b : Bench) (g : Grp) : b.executing g ⊆ g.lanes := List.filter_subset_self _

theorem executing_nodup {s : State} {g : Grp} {b : Bench} (h : Issuing s g b) : (b.executing g).Nodup := h.nodup.filter _

theorem Executing.thread {b : Bench} {g : Grp} {p : Thread → Prop} (h : Executing b g p) {l : Nat} {t : Thread}
    (hl : l ∈ b.executing g) (ht : mget? (b.noted g).threads l = some t) : p t := by
  refine h (l, t) (List.mem_filterMap.2 ⟨l, ?_, by simp [ht]⟩)
  rwa [noted_executing]

/-- ISSUE of an instruction that gives no results: each executing thread changes itself by `f`, which moving on neither sees nor undoes, takes its
jump, and changes itself by `post` once it has moved on. -/
theorem issue_moved {s : State} {g : Grp} {b : Bench} (h : Issuing s g b) {ops : List Opnd} {xs : List Use} (hc : Passes b g ops xs)
    (body : Grp → State → Nat → LaneRes) (f : Thread → Thread) (jump : Nat → Thread → Option DWord) (post : Thread → Thread)
    (hpost : ∀ t, (post t).polled = t.polled)
    (hf : ∀ t j, (f t).retire g ((ops.flatMap fun o => o.uses (f t)) ++ xs) j = f (t.retire g ((ops.flatMap fun o => o.uses t) ++ xs) j))
    (hbody : ∀ l ∈ b.executing g, ∀ t, mget? (b.noted g).threads l = some t → ∀ s', s'.thread? g.place l = some t →
      body g s' l = .ok (s'.updThread g.place l f) (jump l t) post) :
    issue s ops xs body = .next (moved s g b ops xs jump fun _ _ t => post (f t)) := by
  have hb := opened_bench? h
  have hr : mrising (b.noted g).threads = true := by simpa using h.rising
  let th (l : Nat) : Thread := (mget? (b.noted g).threads l).getD (Thread.start 0 0 0 0 0 0)
  have hth : ∀ l t, mget? (b.noted g).threads l = some t → th l = t := fun l t ht => by simp only [th, ht, Option.getD_some]
  have run := issueWith_ok h ops xs hc (fun g s _ => (s, body g)) (s.opened g b) (body g) rfl (b.noted g) hb hr (noted_present h)
    (fun _ => f) (fun l => jump l (th l)) (fun _ => post) (fun _ => hpost) fun l hl F hF => by
      obtain ⟨t, ht⟩ := noted_present h l (executing_subset b g hl)
      rw [hth l t ht]
      exact hbody l hl t ht _ (by rw [mapped_thread? hb F l hF, ht])
  rw [issue, run, moved, State.finish, retireLanes_congr hb hr]
  intro l _ t ht
  simp only [hth l t ht, hf, List.append_nil]

/-- The same where an executing thread changes nothing before it moves on. -/
theorem issue_jump {s : State} {g : Grp} {b : Bench} (h : Issuing s g b) {ops : List Opnd} {xs : List Use} (hc : Passes b g ops xs)
    (body : Grp → State → Nat → LaneRes) (jump : Nat → Thread → Option DWord) (post : Thread → Thread)
    (hpost : ∀ t, (post t).polled = t.polled)
    (hbody : ∀ l ∈ b.executing g, ∀ t, mget? (b.noted g).threads l = some t → ∀ s', s'.thread? g.place l = some t →
      body g s' l = .ok s' (jump l t) post) :
    issue s ops xs body = .next (moved s g b ops xs jump fun _ _ t => post t) :=
  issue_moved h hc body id jump post hpost (fun _ _ => rfl) fun l hl t ht s' hs => by rw [hbody l hl t ht s' hs, updThread_id]

/-- A PC-relative offset counts words (R163). -/
theorem four_mul_signExtend (i : BitVec 21) : 4 * i.signExtend 64 = BitVec.ofInt 64 (4 * i.toInt) := by
  rw [BitVec.ofInt_mul]; rfl

theorem target_eq_pairAt (t : Thread) (a : BitVec 7) : t.target a = pairAt t a := by
  apply BitVec.eq_of_toNat_eq
  have hlo := (t.v a.toNat).isLt
  have hhi := (t.v (a.toNat + 1)).isLt
  rw [Thread.target, pairAt, ofPair, BitVec.toNat_append, ← Nat.shiftLeft_add_eq_or_of_lt hlo, BitVec.toNat_ofNat, Nat.shiftLeft_eq]
  omega

theorem targetFault_good {x : DWord} (h : goodTarget x) : targetFault x = none := by
  obtain ⟨hhi, hlo⟩ := h
  simpa [targetFault, hlo] using hhi

/-- A call below eight held entries pushes in the thread alone (R109). -/
theorem pushAndGo_ok {g : Grp} {s : State} {l : Nat} {t : Thread} (ht : s.thread? g.place l = some t)
    (hlen : t.rstack.length < 8) (hdepth : t.rdepth < 2 ^ 24 - 1) (tgt : DWord) :
    pushAndGo g s l tgt = .ok (s.updThread g.place l (pushed g.pc)) (some tgt) id := by
  obtain ⟨b, hb⟩ := bench?_of_thread? ht
  simp only [pushAndGo, ht, hb, if_neg (Nat.ne_of_lt hdepth), if_pos hlen]
  congr 1
  refine updThread_congr s g.place l _ _ fun t' ht' => ?_
  obtain rfl : t = t' := by simpa [ht] using ht'
  rfl

/-- A thread that returns: its newest return address is popped (R164, R109). -/
def popped (t : Thread) : Thread := { t with rstack := t.rstack.tail, rdepth := t.rdepth - 1 }

/-- A return with an entry held pops in the thread alone (R109). -/
theorem popAndGo_ok {g : Grp} {s : State} {l : Nat} {t : Thread} (ht : s.thread? g.place l = some t) (hdepth : t.rdepth ≠ 0)
    {x : DWord} {held : List DWord} (hs : t.rstack = x :: held) (hx : goodTarget x) :
    popAndGo g s l = .ok (s.updThread g.place l popped) (some x) id := by
  simp only [popAndGo, ht, if_neg hdepth, hs, targetFault_good hx]
  congr 1
  refine updThread_congr s g.place l _ _ fun t' ht' => ?_
  obtain rfl : t = t' := by simpa [ht] using ht'
  rw [popped, hs, List.tail_cons]

/-- Moving on keeps the return stack apart: a push before it is a push after it. -/
theorem retire_pushed (pc : DWord) (t : Thread) (g : Grp) (u : List Use) (j : Option DWord) :
    (pushed pc t).retire g u j = pushed pc (t.retire g u j) := by
  unfold Thread.retire
  split
  · split <;> rfl
  · split <;> rfl

theorem retire_popped (t : Thread) (g : Grp) (u : List Use) (j : Option DWord) : (popped t).retire g u j = popped (t.retire g u j) := by
  unfold Thread.retire
  split
  · split <;> rfl
  · split <;> rfl

section Control
variable {s : State} {g : Grp} {b : Bench} (h : Issuing s g b)
include h

theorem execBra_ok (i : BitVec 21) (hc : Passes b g [] []) :
    execBra i s = .next (moved s g b [] [] (fun _ _ => some (g.pc + BitVec.ofInt 64 (4 * i.toInt))) fun _ _ t => t) :=
  issue_jump h hc _ _ id (fun _ => rfl) fun _ _ _ _ _ _ => by rw [four_mul_signExtend]

theorem execBrx_ok (a : BitVec 7) (hc : Passes b g [rV a 2] []) (ht : Executing b g fun t => goodTarget (pairAt t a)) :
    execBrx a s = .next (moved s g b [rV a 2] [] (fun _ t => some (pairAt t a)) fun _ _ t => t) :=
  issue_jump h hc _ _ id (fun _ => rfl) fun l hl t hm s' hs => by
    simp only [hs, target_eq_pairAt, targetFault_good (ht.thread hl hm)]

theorem execNop_ok (hc : Passes b g [] []) : execNop s = .next (moved s g b [] [] (fun _ _ => none) fun _ _ t => t) :=
  issue_jump h hc _ _ id (fun _ => rfl) fun _ _ _ _ _ _ => rfl

theorem execWinv_ok (i : BitVec 14) (hc : Passes b g [] [⟨.vec, none, true⟩]) :
    execWinv i s = .next (moved s g b [] [⟨.vec, none, true⟩] (fun _ _ => none) fun _ _ t => { t with wb := i.toNat }) :=
  issue_jump h hc _ _ (fun t => { t with wb := i.toNat }) (fun _ => rfl) fun _ _ _ _ _ _ => rfl

theorem execWins_ok (i : BitVec 14) (hc : Passes b g [] [⟨.uni, none, true⟩]) :
    execWins i s = .next (moved s g b [] [⟨.uni, none, true⟩] (fun _ _ => none) fun _ _ t => if isAp g.place then t else { t with ws := i.toNat }) :=
  issue_jump h hc _ _ (fun t => if isAp g.place then t else { t with ws := i.toNat }) (fun t => by split <;> rfl) fun _ _ _ _ _ _ => rfl

theorem execCall_ok (i : BitVec 21) (hc : Passes b g [] []) (ht : Executing b g fun t => t.rstack.length < 8 ∧ t.rdepth < 2 ^ 24 - 1) :
    execCall i s = .next (moved s g b [] [] (fun _ _ => some (g.pc + BitVec.ofInt 64 (4 * i.toInt))) fun _ _ t => pushed g.pc t) :=
  issue_moved h hc _ (pushed g.pc) _ id (fun _ => rfl) (fun t j => retire_pushed g.pc t g _ j) fun l hl t hm s' hs => by
    obtain ⟨hlen, hdepth⟩ := ht.thread hl hm
    rw [← four_mul_signExtend]
    exact pushAndGo_ok hs hlen hdepth _

theorem execCallx_ok (a : BitVec 7) (hc : Passes b g [rV a 2] [])
    (ht : Executing b g fun t => (t.rstack.length < 8 ∧ t.rdepth < 2 ^ 24 - 1) ∧ goodTarget (pairAt t a)) :
    execCallx a s = .next (moved s g b [rV a 2] [] (fun _ t => some (pairAt t a)) fun _ _ t => pushed g.pc t) :=
  issue_moved h hc _ (pushed g.pc) _ id (fun _ => rfl) (fun t j => retire_pushed g.pc t g _ j) fun l hl t hm s' hs => by
    obtain ⟨⟨hlen, hdepth⟩, hx⟩ := ht.thread hl hm
    simp only [hs, target_eq_pairAt, targetFault_good hx]
    exact pushAndGo_ok hs hlen hdepth _

theorem execRet_ok (hc : Passes b g [] []) (ht : Executing b g fun t => t.rdepth ≠ 0 ∧ ∃ x r, t.rstack = x :: r ∧ goodTarget x) :
    execRet s = .next (moved s g b [] [] (fun _ t => t.rstack.head?) fun _ _ t => popped t) :=
  issue_moved h hc _ popped _ id (fun _ => rfl) (fun t j => retire_popped t g _ j) fun l hl t hm s' hs => by
    obtain ⟨hdepth, x, held, hst, hx⟩ := ht.thread hl hm
    rw [hst]
    exact popAndGo_ok hs hdepth hst hx

end Control

theorem branchesWindowsNop : Says.BranchesWindowsNop := fun _ _ _ h =>
  ⟨execBra_ok h, execBrx_ok h, execNop_ok h, execWinv_ok h, execWins_ok h⟩

theorem callsAndReturns : Says.CallsAndReturns := fun _ _ _ h => ⟨execCall_ok h, execCallx_ok h, execRet_ok h⟩

end Sys2Proof.Machine
end

section
/-! Traps of one instruction in all its executing threads (R113): the lanes whose guard is 0 move on, and each executing thread enters its handler. -/

namespace Sys2Proof.Machine

/-! ### What landing the results of one lane leaves -/

theorem performFor_of_none {s : State} {r : TRef} (h : ∀ x ∈ s.lates, x.who ≠ r) : s.performFor r = s := by
  have none_selected : ∀ xs : List Late, (∀ x ∈ xs, x.who ≠ r) → latesFor (fun x => x.who = r) xs = [] := by
    intro xs hxs
    induction xs with
    | nil => rfl
    | cons x xs ih =>
      rw [latesFor, List.foldr_cons, ← latesFor, ih fun y hy => hxs y (by simp [hy])]
      simp [hxs x (by simp)]
  rw [State.performFor, State.performIf, none_selected s.lates h]

/-- A bench once the results of lane `l` have landed, the uniform ones it waits for included (R59). -/
def Bench.settled (b : Bench) (l : Nat) : Bench :=
  let landed := (b.uout.filter fun u => u.lanes.contains l).foldl Bench.landU b
  let landed : Bench := { landed with uout := b.uout.filter fun u => !u.lanes.contains l }
  landed.updThread l Thread.settle

theorem foldl_landU (us : List UPend) (b : Bench) : (us.foldl Bench.landU b).threads = b.threads ∧ (us.foldl Bench.landU b).place = b.place := by
  induction us generalizing b with
  | nil => exact ⟨rfl, rfl⟩
  | cons u us ih =>
    have one : (b.landU u).threads = b.threads ∧ (b.landU u).place = b.place := by unfold Bench.landU; split <;> exact ⟨rfl, rfl⟩
    exact ⟨(ih _).1.trans one.1, (ih _).2.trans one.2⟩

@[simp] theorem settled_place (b : Bench) (l : Nat) : (b.settled l).place = b.place := by
  rw [Bench.settled, updThread_place]
  exact (foldl_landU _ b).2

theorem bupdThread_mget? (b : Bench) (l k : Nat) (f : Thread → Thread) :
    mget? (b.updThread l f).threads k = if k = l then (mget? b.threads l).map f else mget? b.threads k := by
  unfold Bench.updThread
  cases ht : mget? b.threads l with
  | none => by_cases hk : k = l <;> simp [hk, ht]
  | some t => by_cases hk : k = l <;> simp [mget?_mset, hk]

theorem settled_mget? (b : Bench) (l k : Nat) :
    mget? (b.settled l).threads k = if k = l then (mget? b.threads l).map Thread.settle else mget? b.threads k := by
  rw [Bench.settled, bupdThread_mget?, (foldl_landU _ b).1]

/-- Settling a lane none of whose accesses is still to be performed changes its bench alone. -/
theorem settleLane_eq {s : State} {p : Place} {l : Nat} (h : ∀ x ∈ s.lates, x.who ≠ ⟨p, l⟩) :
    s.settleLane p l = s.updBench p fun b => b.settled l := by
  rw [State.settleLane, performFor_of_none h]
  rfl

/-! ### Entering the handler -/

/-- The trapped lane of `t` enters its handler (R113). -/
def State.enterHandler (s : State) (p : Place) (pc tvec : DWord) (pin : Bool) (t : Trap) : State :=
  (s.settleLane p t.lane).updThread p t.lane fun th => th.enter t.c t.sub pin t.v pc tvec

section Enter
variable {p : Place} {pc tvec : DWord} {pin : Bool}

theorem enterHandler_lates {s : State} {t : Trap} (h : ∀ x ∈ s.lates, x.who ≠ ⟨p, t.lane⟩) :
    (s.enterHandler p pc tvec pin t).lates = s.lates := by
  rw [State.enterHandler, settleLane_eq h]; simp

theorem enterHandler_thread?_self {s : State} {t : Trap} (h : ∀ x ∈ s.lates, x.who ≠ ⟨p, t.lane⟩) :
    (s.enterHandler p pc tvec pin t).thread? p t.lane = (s.thread? p t.lane).map fun th => th.settle.enter t.c t.sub pin t.v pc tvec := by
  rw [State.enterHandler, settleLane_eq h, thread?_updThread_self]
  simp only [State.thread?, bench?_updBench_self _ _ _ fun b => settled_place b t.lane]
  cases s.bench? p <;> simp [settled_mget?, Function.comp_def]

theorem enterHandler_thread?_other {s : State} {t : Trap} (h : ∀ x ∈ s.lates, x.who ≠ ⟨p, t.lane⟩) {l : Nat} (hl : l ≠ t.lane) :
    (s.enterHandler p pc tvec pin t).thread? p l = s.thread? p l := by
  rw [State.enterHandler, settleLane_eq h, thread?_updThread_other _ _ _ _ _ _ (.inr hl)]
  simp only [State.thread?, bench?_updBench_self _ _ _ fun b => settled_place b t.lane]
  cases s.bench? p <;> simp [settled_mget?, hl]

/-- Lanes that enter their handlers one after another leave the other lanes alone. -/
theorem foldl_enterHandler_thread?_other {l : Nat} (ts : List Trap) : ∀ {s : State},
    (∀ t ∈ ts, ∀ x ∈ s.lates, x.who ≠ ⟨p, t.lane⟩) → (∀ t ∈ ts, l ≠ t.lane) →
    (ts.foldl (fun s t => s.enterHandler p pc tvec pin t) s).thread? p l = s.thread? p l := by
  induction ts with
  | nil => intro s _ _; rfl
  | cons t ts ih =>
    intro s hs hl
    have h0 := hs t (by simp)
    rw [List.foldl_cons, ih _ fun t' ht' => hl t' (by simp [ht']), enterHandler_thread?_other h0 (hl t (by simp))]
    intro t' ht'
    rw [enterHandler_lates h0]
    exact hs t' (by simp [ht'])

/-- Each of them ends in its handler. -/
theorem foldl_enterHandler_thread? (ts : List Trap) : ∀ {s : State},
    (∀ t ∈ ts, ∀ x ∈ s.lates, x.who ≠ ⟨p, t.lane⟩) → (ts.map Trap.lane).Nodup → ∀ t ∈ ts,
    (ts.foldl (fun s t => s.enterHandler p pc tvec pin t) s).thread? p t.lane =
      (s.thread? p t.lane).map fun th => th.settle.enter t.c t.sub pin t.v pc tvec := by
  induction ts with
  | nil => intro s _ _ t ht; cases ht
  | cons t0 ts ih =>
    intro s hs hn t ht
    obtain ⟨hfresh, hn⟩ := List.nodup_cons.1 hn
    have hne : ∀ t ∈ ts, t0.lane ≠ t.lane := fun t ht e => hfresh (e ▸ List.mem_map_of_mem ht)
    have h0 := hs t0 (by simp)
    have hrest : ∀ t ∈ ts, ∀ x ∈ (s.enterHandler p pc tvec pin t0).lates, x.who ≠ ⟨p, t.lane⟩ := by
      rw [enterHandler_lates h0]
      exact fun t ht => hs t (by simp [ht])
    rw [List.foldl_cons]
    rcases List.mem_cons.1 ht with rfl | ht
    · rw [foldl_enterHandler_thread?_other ts hrest hne, enterHandler_thread?_self h0]
    · rw [ih hrest hn t ht, enterHandler_thread?_other h0 (hne t ht).symm]

end Enter

/-- A cause with disposition H, in a thread that may enter its handler, leads there (R112, R113). -/
theorem fate_handler {c : Cause} {pin : Bool} (h : c.disp pin = .h) : fate false pin false false c = .handler := by
  simp [fate, h]

/-- Traps whose causes have disposition H, in threads that may all enter their handlers: no other effect. -/
theorem takeTraps_handlers {s : State} {p : Place} {b : Bench} (hb : s.bench? p = some b) (pc : DWord) (ts : List Trap)
    (h : ∀ t ∈ ts, t.c.disp (pinnedOf s b) = .h ∧ ∃ th, mget? b.threads t.lane = some th ∧ HandlerReady s b th) :
    s.takeTraps p pc ts = ts.foldl (fun z t => z.enterHandler p pc (s.world b.world).tvec (pinnedOf s b) t) s := by
  cases ts with
  | nil => exact takeTraps_nil s p pc false
  | cons t0 ts =>
    generalize hts : t0 :: ts = all at h
    have hp : b.place = p := bench?_place _ _ hb
    unfold State.takeTraps
    rw [hb, ← hts]
    dsimp -zeta only
    rw [hts]
    extract_lets pin tvec user fateOf pick post entered stops doubles stopped
    have hfate : ∀ t ∈ all, fateOf t = .handler := by
      intro t ht
      obtain ⟨hd, th, hth, hap, htvec, hidle⟩ := h t ht
      have hbit : bitAt th.tstat.toNat 0 = false := by simp [bitAt, hidle]
      simp only [fateOf, hth, Bool.false_and, Bool.false_eq_true, if_false, ← hp, hap, hbit, tvec, htvec, decide_false]
      exact fate_handler hd
    have hnone : ∀ f, f ≠ .handler → pick f = [] := fun f hf =>
      List.filter_eq_nil_iff.2 fun t ht => by simp [hfate t ht, hf.symm]
    have hall : pick .handler = all := List.filter_eq_self.2 fun t ht => by simp [hfate t ht]
    rw [hnone .world (by decide), hnone .escalate (by decide), hnone .discard (by decide), hnone .doubleDiscard (by decide)]
    simp only [doubles, stopped, stops, entered, hall, hnone .stop (by decide), hnone .doubleStop (by decide)]
    rfl

/-! ### Issue of an instruction that traps -/

theorem runLanes_congr (g : Grp) (uses : Thread → List Use) {body body' : State → Nat → LaneRes} :
    ∀ (ls : List Nat) (s : State) (ts : List Trap), (∀ l ∈ ls, ∀ s, body s l = body' s l) →
      runLanes g uses body ls s ts = runLanes g uses body' ls s ts
  | [], _, _, _ => rfl
  | l :: ls, s, ts, h => by
    have rest := fun s ts => runLanes_congr g uses ls s ts fun k hk => h k (by simp [hk])
    simp only [runLanes, h l (by simp), rest]

/-- Lanes of which those in `on` trap, and the others move on. -/
theorem runLanes_trap (g : Grp) (uses : Thread → List Use) (on : List Nat) {c : Cause} {sub : Nat} {v : DWord}
    (hw : AFault.waits ⟨c, sub, v⟩ = false) : ∀ (ls : List Nat) (s : State) (ts : List Trap),
    runLanes g uses (fun s l => if l ∈ on then .trap s c sub v else .done s) ls s ts =
      ((ls.filter (· ∉ on)).foldl (fun s l => s.updThread g.place l fun t => t.retire g (uses t) none) s,
        ts ++ (ls.filter (· ∈ on)).map fun l => ⟨l, c, sub, v⟩)
  | [], s, ts => by simp [runLanes]
  | l :: ls, s, ts => by
    have rest := runLanes_trap g uses on hw ls
    by_cases hl : l ∈ on
    · simp [runLanes, hl, hw, rest]
    · simp only [LaneRes.done] at rest ⊢
      simp [runLanes, hl, rest]

/-- ISSUE, where every lane passes its checks: the lanes run from the opened state, those whose guard is 0 only moving on (R60, R118). -/
theorem issueWith_runs {s : State} {g : Grp} {b : Bench} (h : Issuing s g b) {ops : List Opnd} {xs : List Use} (hc : Passes b g ops xs)
    (pre : Grp → State → List Nat → State × (State → Nat → LaneRes)) {s2 : State} {body : State → Nat → LaneRes}
    (hpre : pre g (s.opened g b) (b.executing g) = (s2, body)) {s3 : State} {ts : List Trap}
    (hrun : runLanes g (fun t => (ops.flatMap fun o => o.uses t) ++ xs)
      (fun s l => if l ∈ b.executing g then body s l else .done s) g.lanes s2 [] = (s3, ts)) :
    issueWith s ops xs pre = .next ((if ts.isEmpty && s3.allPoll g then s3 else s3.countIssue g).takeTraps g.place g.pc ts) := by
  have hb : (({ s with cur := .idle } : State).noteIssue g).bench? g.place = some (b.noted g) := by
    rw [noteIssue_bench?]
    show Option.map _ (s.bench? g.place) = _
    rw [h.bench]; rfl
  have hw : wordCause (({ s with cur := .idle } : State).noteIssue g) g = none := by
    have := h.word
    simp only [wordCause, h.bench] at this
    simp only [wordCause, hb]
    exact this
  have hchk : ∀ l ∈ g.lanes, ((mget? (b.noted g).threads l).bind fun t => t.checks (b.noted g) g ops xs) = none := by
    intro l hl
    obtain ⟨t, ht⟩ := h.present l hl
    simp [ht, hc l hl t ht]
  have hon : ((({ s with cur := .idle } : State).noteIssue g).executing g).filter
      (fun l => ((mget? (b.noted g).threads l).bind fun t => t.checks (b.noted g) g ops xs) = none) = b.executing g := by
    rw [executing_eq hb, noted_executing]
    exact List.filter_eq_self.2 fun l hl => decide_eq_true (hchk l (List.mem_filter.1 hl).1)
  have hopen : (({ s with cur := .idle } : State).noteIssue g).countFor (b.noted g).task ((b.executing g).length * fpOps g.word) =
    s.opened g b := rfl
  simp only [issueWith, h.cur, hw, hb, hon, hopen, hpre]
  rw [runLanes_congr g _ (body' := fun s l => if l ∈ b.executing g then body s l else .done s) g.lanes s2 []
    (fun l hl s => by simp only [hchk l hl, List.contains_iff_mem]), hrun]

/-- The state in which a group's executing lanes, all of which trap, take their traps: the others have moved on. -/
def trapping (s : State) (g : Grp) (b : Bench) (ops : List Opnd) (xs : List Use) : State :=
  ((s.opened g b).retireLanes g fun l t =>
    if l ∈ b.executing g then t else t.retire g ((ops.flatMap fun o => o.uses t) ++ xs) none).countIssue g

theorem filter_mem_executing (b : Bench) (g : Grp) : g.lanes.filter (· ∈ b.executing g) = b.executing g := by
  rw [Bench.executing]
  exact List.filter_congr fun l hl => by simp [hl]

/-- ISSUE of an instruction that traps in every executing lane. -/
theorem issue_trap {s : State} {g : Grp} {b : Bench} (h : Issuing s g b) {ops : List Opnd} {xs : List Use} (hc : Passes b g ops xs)
    {c : Cause} {sub : Nat} {v : DWord} (hw : AFault.waits ⟨c, sub, v⟩ = false) :
    issue s ops xs (fun _ s _ => .trap s c sub v) =
      .next ((trapping s g b ops xs).takeTraps g.place g.pc ((b.executing g).map fun l => ⟨l, c, sub, v⟩)) := by
  have hb := opened_bench? h
  have hr : mrising (b.noted g).threads = true := by simpa using h.rising
  cases hon : b.executing g with
  | nil =>
    rw [List.map_nil, takeTraps_nil, issue, issueWith_ok h ops xs hc _ _ _ rfl _ hb hr (noted_present h) (fun _ t => t) (fun _ => none)
      (fun _ t => t) (fun _ _ => rfl) (fun l hl => by simp [hon] at hl)]
    simp [trapping, hon]
  | cons l0 ls =>
    have hstate : (g.lanes.filter (· ∉ b.executing g)).foldl
        (fun s l => s.updThread g.place l fun t => t.retire g ((ops.flatMap fun o => o.uses t) ++ xs) none) (s.opened g b) =
        (s.opened g b).retireLanes g fun l t =>
          if l ∈ b.executing g then t else t.retire g ((ops.flatMap fun o => o.uses t) ++ xs) none := by
      rw [foldl_updThread' hb hr (fun _ t => t.retire g ((ops.flatMap fun o => o.uses t) ++ xs) none) _ (h.nodup.filter _), State.retireLanes]
      congr 1; funext b'; congr 1; funext l t
      by_cases hl : l ∈ g.lanes <;> by_cases he : l ∈ b.executing g <;> simp [hl, he]
    rw [issue, issueWith_runs h hc _ rfl (runLanes_trap g _ _ hw _ _ _), filter_mem_executing, hstate, hon]
    simp [trapping, hon]

/-! ### Handlers entered -/

theorem countIssue_bench? (s : State) (g : Grp) :
    (s.countIssue g).bench? g.place = (s.bench? g.place).map fun b => { b with lastIssue := s.cycle } := by
  have base := bench?_updBench_self s g.place (fun b => { b with lastIssue := s.cycle }) fun _ => rfl
  unfold State.countIssue
  split <;> exact base

/-- What counting an issue leaves as it was. -/
theorem countIssue_keeps (s : State) (g : Grp) :
    (s.countIssue g).lates = s.lates ∧ (s.countIssue g).worlds = s.worlds ∧ (s.countIssue g).tasks = s.tasks := by
  unfold State.countIssue
  split <;> exact ⟨rfl, rfl, rfl⟩

theorem opened_keeps (s : State) (g : Grp) (b : Bench) :
    (s.opened g b).lates = s.lates ∧ (s.opened g b).worlds = s.worlds ∧ (s.opened g b).tasks = s.tasks := by
  simp [State.opened, noteIssue_eq]

section Trapping
variable {s : State} {g : Grp} {b : Bench} (h : Issuing s g b) (ops : List Opnd) (xs : List Use)

theorem trapping_keeps (s : State) (g : Grp) (b : Bench) : (trapping s g b ops xs).lates = s.lates ∧
    (trapping s g b ops xs).worlds = s.worlds ∧ (trapping s g b ops xs).tasks = s.tasks := by
  obtain ⟨hl, hw, ht⟩ := opened_keeps s g b
  obtain ⟨hl', hw', ht'⟩ := countIssue_keeps ((s.opened g b).retireLanes g fun l t =>
    if l ∈ b.executing g then t else t.retire g ((ops.flatMap fun o => o.uses t) ++ xs) none) g
  exact ⟨hl'.trans hl, hw'.trans hw, ht'.trans ht⟩

include h

/-- The threads that trap are as the issue found them. -/
theorem trapping_bench? : ∃ b1, (trapping s g b ops xs).bench? g.place = some b1 ∧ b1.world = b.world ∧ b1.task = b.task ∧
    ∀ l ∈ b.executing g, mget? b1.threads l = mget? (b.noted g).threads l := by
  rw [trapping, countIssue_bench?, State.retireLanes, mapped_bench? (opened_bench? h)]
  refine ⟨_, rfl, rfl, rfl, fun l hl => ?_⟩
  simp only [mapThreads_mget?, hl, if_true]
  cases mget? (b.noted g).threads l <;> simp

/-- ISSUE of an instruction that traps, with a cause of disposition H, in threads that may all enter their handlers: each of them does. -/
theorem issue_trap_handlers (hc : Passes b g ops xs) (hr : AllHandlersReady s g b (b.executing g)) {c : Cause} {sub : Nat} {v : DWord}
    (hd : ∀ pin, c.disp pin = .h) (hw : AFault.waits ⟨c, sub, v⟩ = false) :
    ∃ t, issue s ops xs (fun _ s _ => .trap s c sub v) = .next t ∧ ∀ l ∈ b.executing g, ∀ th, mget? (b.noted g).threads l = some th →
      t.thread? g.place l = some (th.settle.enter c sub (pinnedOf s b) v g.pc (s.world b.world).tvec) := by
  obtain ⟨performed, ready⟩ := hr
  obtain ⟨hlates, hworlds, htasks⟩ := trapping_keeps ops xs s g b
  obtain ⟨b1, hb1, hworld, htask, hthreads⟩ := trapping_bench? h ops xs
  have hsub := executing_subset b g
  have hplace : b1.place = b.place := (bench?_place _ _ hb1).trans (bench?_place _ _ h.bench).symm
  have htvec : ((trapping s g b ops xs).world b1.world).tvec = (s.world b.world).tvec := by simp only [State.world, hworlds, hworld]
  have hpin : pinnedOf (trapping s g b ops xs) b1 = pinnedOf s b := by simp only [pinnedOf, State.task?, htasks, htask]
  refine ⟨_, (issue_trap h hc hw).trans (congrArg _ (takeTraps_handlers hb1 g.pc _ fun t ht => ?_)), fun l hl th hth => ?_⟩
  · obtain ⟨l, hl, rfl⟩ := List.mem_map.1 ht
    obtain ⟨th, hth⟩ := noted_present h l (hsub hl)
    obtain ⟨hap, hnz, hidle⟩ := ready l hl th hth
    exact ⟨hd _, th, (hthreads l hl).trans hth, hplace ▸ hap, htvec ▸ hnz, hidle⟩
  · have alone : ∀ t ∈ (b.executing g).map fun l => (⟨l, c, sub, v⟩ : Trap), ∀ x ∈ (trapping s g b ops xs).lates,
        x.who ≠ ⟨g.place, t.lane⟩ := by
      rw [hlates]
      rintro t ht x hx hwho
      obtain ⟨k, hk, rfl⟩ := List.mem_map.1 ht
      exact performed x hx (by rw [hwho]) (by rw [hwho]; exact hsub hk)
    have nodup : (((b.executing g).map fun l => (⟨l, c, sub, v⟩ : Trap)).map Trap.lane).Nodup := by
      simpa [Function.comp_def] using executing_nodup h
    rw [foldl_enterHandler_thread? _ alone nodup ⟨l, c, sub, v⟩ (List.mem_map_of_mem hl), State.thread?, hb1, Option.bind_some,
      hthreads l hl, hth, Option.map_some, htvec, hpin]

end Trapping

end Sys2Proof.Machine
end

section
/-! TRAP, BPT and NOP (R166), and O8. -/

namespace Sys2Proof

/-- R166: a TRAP or BPT word whose FA is not zero. -/
theorem decode_trap_resfield {w : Word} (w2 : Word) (hg : bits w.toNat 30 27 = 9) (hf : bits w.toNat 26 21 = 6 ∨ bits w.toNat 26 21 = 7)
    (hA : bits w.toNat 20 14 ≠ 0) : decode w w2 = .error .resfield := by
  have hr : rz w.toNat 20 14 = false := by simpa [rz] using hA
  refine decode_error ?_
  rw [decodeInstr, prefixStop_of _ _ (by omega), hg]
  simp only [decodeG9]
  rcases hf with hf | hf
  · simp only [hf]; exact accept_resfield rfl (.inl hr)
  · simp only [hf]; exact accept_resfield rfl (.inl hr)

end Sys2Proof

namespace Sys2Proof.Machine

theorem code_lt (c : Cause) : c.code < 2 ^ 8 := by cases c <;> decide

/-- The code of `tcause`, below the bit that marks a pinned task (Table 5.3). -/
theorem tcauseWord_code (c : Cause) (pin : Bool) : (tcauseWord c 0 pin).toNat % 2 ^ 31 = c.code := by
  have hc := code_lt c
  cases pin <;> simp [tcauseWord] <;> omega

/-- A thread in the handler of a TRAP or BPT with immediate `i` at `pc` (R166): the trap CSRs and the next fetch. -/
theorem enter_soft {c : Cause} (hc : ∀ pc, returnPc c pc = pc + 4) (th : Thread) (pin : Bool) (i : BitVec 14) (pc tvec : DWord) :
    let t := th.enter c 0 pin (i.setWidth 64) pc tvec
    t.tcause.toNat % 2 ^ 31 = c.code ∧ t.tval.toNat = i.toNat ∧ t.tpc = pc + 4 ∧ t.pc = tvec :=
  ⟨tcauseWord_code c pin, by simp [Thread.enter]; omega, hc pc, rfl⟩

/-- NOP has no effect: every lane moves on (R166). -/
theorem moved_nothing (s : State) (g : Grp) (b : Bench) : moved s g b [] [] (fun _ _ => none) (fun _ _ t => t) =
    ((s.opened g b).retireLanes g fun _ t => t.retire g [] none).countIssue g := by
  simp [moved, State.finish]

theorem trapAndNop : Says.TrapAndNop := by
  refine ⟨fun s g b h hc => ⟨fun hr i soft => ?_, moved_nothing s g b ▸ execNop_ok h hc⟩, fun w w2 hg hf hA => ?_⟩
  · have enters (c : Cause) (hd : ∀ pin, c.disp pin = .h) (hw : AFault.waits ⟨c, 0, i.setWidth 64⟩ = false)
        (hret : ∀ pc, returnPc c pc = pc + 4) : ∃ t, issue s [] [] (fun _ s _ => .trap s c 0 (i.setWidth 64)) = .next t ∧
        ∀ l ∈ b.executing g, ∃ th, t.thread? g.place l = some th ∧ th.tcause.toNat % 2 ^ 31 = c.code ∧ th.tval.toNat = i.toNat ∧
          th.tpc = g.pc + 4 ∧ th.pc = (s.world b.world).tvec := by
      obtain ⟨t, ht, entered⟩ := issue_trap_handlers h [] [] hc hr hd hw
      refine ⟨t, ht, fun l hl => ?_⟩
      obtain ⟨th, hth⟩ := noted_present h l (executing_subset b g hl)
      exact ⟨_, entered l hl th hth, enter_soft hret ..⟩
    cases soft with
    | true => exact enters .soft (fun _ => rfl) rfl fun _ => rfl
    | false => exact enters .bpt (fun _ => rfl) rfl fun _ => rfl
  · exact decode_trap_resfield w2 hg (by simp only [bits]; omega) hA

end Sys2Proof.Machine

namespace Sys2Proof

/-- Settles O8: the executing threads of a branch, call, return or window instruction all complete (R163, R164, R169), and those of TRAP and BPT all
enter their handlers (R166). -/
theorem branchesAndCalls : Obligations.BranchesAndCalls :=
  ⟨Machine.branchesWindowsNop, Machine.callsAndReturns, Machine.trapAndNop⟩

end Sys2Proof
end
